-- ==== Sys2Proof/Word.lean ====
section
/-! DEFINITION. The words of the Luthal device and the plainest arithmetic on them (spec 00_scope R3: bit 0 is the
least significant bit; NAME[hi:lo] is a field). -/

namespace Sys2Proof

/-- A byte of memory. -/
abbrev Byte := BitVec 8

/-- A 32-bit register. -/
abbrev Word := BitVec 32

/-- A 64-bit value: an address, a pair of registers, a system register. -/
abbrev Word64 := BitVec 64

/-- One instruction slot of a bundle (R23): 96 bits. -/
abbrev SlotWord := BitVec 96

/-- NAME[lo + n - 1 : lo] of a natural number (R3). -/
def natBits (x lo n : Nat) : Nat := x / 2 ^ lo % 2 ^ n

/-- Bit `i` of a natural number. -/
def natBit (x i : Nat) : Bool := x / 2 ^ i % 2 == 1

/-- The signed reading of the low `w` bits of `x`. -/
def toSigned (w x : Nat) : Int :=
  let y := x % 2 ^ w
  if y < 2 ^ (w - 1) then (y : Int) else (y : Int) - (2 ^ w : Nat)

/-- An integer reduced modulo `2 ^ w`. -/
def ofSigned (w : Nat) (x : Int) : Nat := (x % ((2 ^ w : Nat) : Int)).toNat

/-- SignExtend(x, to) of a value of `w` bits. -/
def signExt (w n x : Nat) : Nat := ofSigned n (toSigned w x)

/-- The number of set bits among the low `n` bits. -/
def popCount : Nat → Nat → Nat
  | 0, _ => 0
  | n + 1, x => (if natBit x n then 1 else 0) + popCount n x

/-- ceil(a / b) for a positive `b`. -/
def ceilDiv (a b : Nat) : Nat := (a + b - 1) / b

end Sys2Proof
end

