-- ==== Sys2Proof/Syntax.lean ====
section
/-! DEFINITION. The instructions and events of the device, one constructor of `Instr` per row of
spec/opcode_table.json. Encoded instructions carry their decoded fields (02_encoding, the instruction word; the
encoding tables of chapters 03 to 16); events carry the agent they happen to and, where they come from outside, the
data they bring. -/

namespace Sys2Proof

/-- Type codes of MOD (R34). The bit types .b8 to .b64 share the codes of the natural types. -/
inductive Ty where
  | i32 | i64 | n32 | n64 | i16 | n16 | i8 | n8 | f32 | f64 | f16 | bf16 | b128
deriving DecidableEq, Repr

/-- The narrow format codes of class 0x3 (R115), 0x10 to 0x18. -/
inductive NFmt where
  | e4m3 | e5m2 | e3m2 | e2m3 | e2m1 | i4 | t5 | e8m0 | ue4m3
deriving DecidableEq, Repr

/-- Conversion format codes (R115): a type code 0x00 to 0x0B or a narrow format. -/
inductive CFmt where
  | wide (t : Ty)
  | narrow (f : NFmt)
deriving DecidableEq, Repr

/-- Rounding modes (R112). -/
inductive RM where
  | rn | rz | ru | rd | ro
deriving DecidableEq, Repr

/-- An operand code (R35): a v register, a g register (by name under U = 1, by broadcast under U = 0), v indirect
through an x register, a bundle literal, or code 1023 (zero as a source, discard as a destination). -/
inductive Opnd where
  | v (n : BitVec 10)
  | g (n : BitVec 7)
  | ind (x : BitVec 3)
  | lit0
  | lit1
  | zero
deriving DecidableEq, Repr

/-- The hint field (R36 to R40). -/
structure Hint where
  wait : BitVec 4
  setb : BitVec 3
  reuse : BitVec 3
  giveWay : Bool
  stall : BitVec 4
deriving DecidableEq, Repr

/-- What every instruction word carries beside its own fields: U, GUARD and HINT (R33). -/
structure Hdr where
  u : Bool
  neg : Bool
  pred : BitVec 3
  hint : Hint
deriving DecidableEq, Repr

/-! ### Class 0x0 (R75) -/

structure MovArgs where
  ty : Ty
  d : Opnd
  a : Opnd
deriving DecidableEq, Repr

structure MoviArgs where
  ty : Ty
  d : Opnd
  imm : BitVec 32
deriving DecidableEq, Repr

structure XSetArgs where
  x : BitVec 3
  a : Opnd
deriving DecidableEq, Repr

structure XGetArgs where
  d : Opnd
  x : BitVec 3
deriving DecidableEq, Repr

inductive ShflMode where
  | idx | up | down | xor
deriving DecidableEq, Repr

structure ShflArgs where
  mode : ShflMode
  d : Opnd
  a : Opnd
  b : Opnd
deriving DecidableEq, Repr

/-- What VOTE writes (R79): a predicate, or the ballot's g register. -/
inductive VoteDst where
  | all (p : BitVec 3)
  | any (p : BitVec 3)
  | uni (p : BitVec 3)
  | ballot (d : Opnd)
deriving DecidableEq, Repr

structure VoteArgs where
  dst : VoteDst
  src : BitVec 3
  neg : Bool
deriving DecidableEq, Repr

structure RdlaneArgs where
  d : Opnd
  v : BitVec 10
  lane : Opnd
deriving DecidableEq, Repr

/-- Special registers (R81). -/
inductive SReg where
  | lane | task | cohort | orderkey | width | livemask | activemask | regs | core | cause | faultlanes | futcause
  | time
deriving DecidableEq, Repr

structure SrdArgs where
  d : Opnd
  sr : SReg
deriving DecidableEq, Repr

structure CountArgs where
  n : Opnd
deriving DecidableEq, Repr

/-! ### Class 0x1 (R89) -/

structure IaddArgs where
  ty : Ty
  d : Opnd
  a : Opnd
  b : Opnd
  co : Bool
  pk : BitVec 3
  sat : Bool
deriving DecidableEq, Repr

structure IaddcArgs where
  ty : Ty
  d : Opnd
  a : Opnd
  b : Opnd
  co : Bool
  pk : BitVec 3
  invb : Bool
deriving DecidableEq, Repr

structure ImadArgs where
  ty : Ty
  d : Opnd
  a : Opnd
  b : Opnd
  c : Opnd
  wide : Bool
deriving DecidableEq, Repr

structure TyDAB where
  ty : Ty
  d : Opnd
  a : Opnd
  b : Opnd
deriving DecidableEq, Repr

structure ImnmxArgs where
  ty : Ty
  d : Opnd
  a : Opnd
  b : Opnd
  max : Bool
deriving DecidableEq, Repr

structure IabsArgs where
  ty : Ty
  d : Opnd
  a : Opnd
  sat : Bool
deriving DecidableEq, Repr

structure Log3Args where
  ty : Ty
  d : Opnd
  a : Opnd
  b : Opnd
  c : Opnd
  lut : BitVec 8
deriving DecidableEq, Repr

structure ShfArgs where
  d : Opnd
  a : Opnd
  b : Opnd
  c : Opnd
  left : Bool
  wrap : Bool
deriving DecidableEq, Repr

structure ShArgs where
  ty : Ty
  d : Opnd
  a : Opnd
  b : Opnd
  wrap : Bool
deriving DecidableEq, Repr

structure BfiArgs where
  ty : Ty
  d : Opnd
  a : Opnd
  b : Opnd
  c : Opnd
deriving DecidableEq, Repr

structure TyDA where
  ty : Ty
  d : Opnd
  a : Opnd
deriving DecidableEq, Repr

inductive Cmp where
  | eq | ne | lt | le | gt | ge
deriving DecidableEq, Repr

inductive CombOp where
  | and | or | xor
deriving DecidableEq, Repr

structure IsetpArgs where
  ty : Ty
  pd : BitVec 3
  a : Opnd
  b : Opnd
  cmp : Cmp
  comb : BitVec 3
  op : CombOp
  neg : Bool
deriving DecidableEq, Repr

structure SelArgs where
  ty : Ty
  d : Opnd
  a : Opnd
  b : Opnd
  p : BitVec 3
  neg : Bool
deriving DecidableEq, Repr

structure LeaArgs where
  d : Opnd
  a : Opnd
  b : Opnd
  shift : BitVec 3
  nat : Bool
deriving DecidableEq, Repr

/-! ### Class 0x2 (R130) -/

structure FArgs where
  ty : Ty
  d : Opnd
  a : Opnd
  b : Opnd
  rm : RM
  nega : Bool
  negb : Bool
  absa : Bool
  absb : Bool
deriving DecidableEq, Repr

structure FmaArgs where
  ty : Ty
  d : Opnd
  a : Opnd
  b : Opnd
  c : Opnd
  rm : RM
  nega : Bool
  negb : Bool
  negc : Bool
  absa : Bool
  absb : Bool
deriving DecidableEq, Repr

structure FmnmxArgs where
  ty : Ty
  d : Opnd
  a : Opnd
  b : Opnd
  max : Bool
  prop : Bool
  nega : Bool
  negb : Bool
  absa : Bool
  absb : Bool
deriving DecidableEq, Repr

/-- FSETP compare codes 0 to 13 (R134). -/
inductive FCmp where
  | eq | ne | lt | le | gt | ge | num | nan | equ | neu | ltu | leu | gtu | geu
deriving DecidableEq, Repr

structure FsetpArgs where
  ty : Ty
  pd : BitVec 3
  a : Opnd
  b : Opnd
  cmp : FCmp
  comb : BitVec 3
  op : CombOp
  neg : Bool
  absa : Bool
  absb : Bool
deriving DecidableEq, Repr

/-- FMF functions (R135). -/
inductive FFn where
  | rcp | rsq | ex2 | lg2 | sin | cos | tanh
deriving DecidableEq, Repr

structure FmfArgs where
  d : Opnd
  a : Opnd
  fn : FFn
  nega : Bool
  absa : Bool
deriving DecidableEq, Repr

structure DstArgs where
  d : Opnd
deriving DecidableEq, Repr

structure SrcArgs where
  a : Opnd
deriving DecidableEq, Repr

/-! ### Class 0x3 (R116) -/

structure CvtArgs where
  d : Opnd
  a : Opnd
  rm : RM
  sat : Bool
  df : Ty
  sf : Ty
deriving DecidableEq, Repr

structure CvtnArgs where
  d : Opnd
  a : Opnd
  rm : RM
  sat : Bool
  df : NFmt
deriving DecidableEq, Repr

structure PknArgs where
  d : Opnd
  a : Opnd
  b : Opnd
  rm : RM
  sat : Bool
  df : CFmt
  k : BitVec 2
deriving DecidableEq, Repr

structure UnpkArgs where
  d : Opnd
  a : Opnd
  sf : CFmt
  k : BitVec 2
deriving DecidableEq, Repr

structure QfindArgs where
  d : Opnd
  a : Opnd
  df : CFmt
  sf : NFmt
deriving DecidableEq, Repr

structure QscaleArgs where
  d : Opnd
  a : Opnd
  b : Opnd
  rm : RM
  sat : Bool
  sf : NFmt
deriving DecidableEq, Repr

/-- CBDEC: `half = none` is the .i8 form, `some k` the .bf16 form at position k (R123). -/
structure CbdecArgs where
  d : Opnd
  a : Opnd
  b : Opnd
  half : Option Bool
deriving DecidableEq, Repr

/-! ### Class 0x4 (R154) -/

structure BraArgs where
  all : Bool
  off : BitVec 32
deriving DecidableEq, Repr

structure CallArgs where
  d : Opnd
  off : BitVec 32
deriving DecidableEq, Repr

structure CallXArgs where
  d : Opnd
  a : Opnd
deriving DecidableEq, Repr

structure SplitArgs where
  m : BitVec 7
  p : BitVec 3
  neg : Bool
  off : BitVec 32
deriving DecidableEq, Repr

/-- LOOPN: its counter, a g register or the discarding code. -/
structure LoopArgs where
  m : Opnd
  off : BitVec 32
deriving DecidableEq, Repr

structure MaskOffArgs where
  m : BitVec 7
  off : BitVec 32
deriving DecidableEq, Repr

structure MaskArgs where
  m : BitVec 7
deriving DecidableEq, Repr

/-! ### Class 0x5 (R175, R201) -/

structure SpawnArgs where
  q : BitVec 3
  base : BitVec 7
deriving DecidableEq, Repr

structure SpawnNArgs where
  q : BitVec 3
  base : BitVec 7
  n : Opnd
deriving DecidableEq, Repr

inductive GateCmp where
  | eq | ne | lt | le | gt | ge | rdy
deriving DecidableEq, Repr

structure SpawngArgs where
  q : BitVec 3
  base : BitVec 7
  gate : BitVec 7
  cmp : GateCmp
  signed : Bool
  consume : Bool
deriving DecidableEq, Repr

structure JoinArgs where
  d : Opnd
  a : Opnd
  keep : Bool
deriving DecidableEq, Repr

structure PollArgs where
  d : Opnd
  a : Opnd
  q : BitVec 3
deriving DecidableEq, Repr

structure FutnewArgs where
  d : Opnd
  q : BitVec 3
deriving DecidableEq, Repr

structure FulfilArgs where
  a : Opnd
  b : Opnd
deriving DecidableEq, Repr

structure TselfArgs where
  d : Opnd
  w : BitVec 3
deriving DecidableEq, Repr

structure CvsetArgs where
  c : BitVec 4
  n : BitVec 3
deriving DecidableEq, Repr

structure JlaunchArgs where
  d : Opnd
  a : BitVec 7
  q : BitVec 3
deriving DecidableEq, Repr

/-! ### Class 0x6 (R232) -/

structure MemArgs where
  ty : Ty
  d : Opnd
  base : Opnd
  idx : Opnd
  off : BitVec 32
deriving DecidableEq, Repr

structure TileArgs where
  ty : Ty
  d : Opnd
  h : BitVec 6
  idx : Opnd
  off : BitVec 32
deriving DecidableEq, Repr

structure WaitvArgs where
  d : Opnd
  base : BitVec 7
  c : Opnd
  cmp : Cmp
  wide : Bool
  off : BitVec 32
deriving DecidableEq, Repr

structure PresTestArgs where
  d : Opnd
  a : Opnd
  n : BitVec 5
deriving DecidableEq, Repr

structure PresArgs where
  a : Opnd
  n : BitVec 5
deriving DecidableEq, Repr

/-! ### Class 0x7 (R273) -/

inductive AOp where
  | add | min | max | and | or | xor | exch | cas
deriving DecidableEq, Repr

structure AtomArgs where
  ty : Ty
  d : Opnd
  base : Opnd
  b : Opnd
  op : AOp
  acq : Bool
  rel : Bool
  c : Opnd
  off : BitVec 16
deriving DecidableEq, Repr

structure AtomfArgs where
  base : Opnd
  b : Opnd
  off : BitVec 16
deriving DecidableEq, Repr

structure AtompArgs where
  d : Opnd
  base : Opnd
  b : Opnd
  p : BitVec 3
  acq : Bool
  rel : Bool
  off : BitVec 16
deriving DecidableEq, Repr

structure AtomsArgs where
  ty : Ty
  d : Opnd
  base : Opnd
  b : Opnd
  op : AOp
  c : Opnd
  off : BitVec 16
deriving DecidableEq, Repr

structure RedArgs where
  ty : Ty
  base : Opnd
  b : Opnd
  op : AOp
  off : BitVec 16
deriving DecidableEq, Repr

structure RsealArgs where
  base : Opnd
  n : Opnd
  off : BitVec 16
deriving DecidableEq, Repr

/-! ### Class 0x8 (R309, R310) -/

structure TallocArgs where
  h : BitVec 6
  base : BitVec 7
  q : BitVec 3
deriving DecidableEq, Repr

structure ThandArgs where
  h : BitVec 6
  m : Opnd
  q : BitVec 3
  n : BitVec 6
deriving DecidableEq, Repr

structure HandleArgs where
  h : BitVec 6
deriving DecidableEq, Repr

structure TinfoArgs where
  base : BitVec 7
  h : BitVec 6
deriving DecidableEq, Repr

/-- The credit fields of an engine operation (R310). -/
structure Credit where
  cnt : BitVec 5
  cen : Bool
  crows : Bool
deriving DecidableEq, Repr

/-- The tile side of TSTAGE and TDRAIN (R316): kind 0, 1 and 2. -/
inductive TSide where
  | handle (h : BitVec 6)
  | scratch (a : Opnd)
  | slot (ring : BitVec 4) (a : Opnd)
deriving DecidableEq, Repr

structure TstageArgs where
  side : TSide
  addr : BitVec 7
  layout : Opnd
  cr : Credit
deriving DecidableEq, Repr

structure TdrainArgs where
  side : TSide
  addr : BitVec 7
  layout : Opnd
  cr : Credit
  rm : RM
  sat : Bool
deriving DecidableEq, Repr

/-- TCOPY; `node` is the node value of a remote copy (R318). -/
structure TcopyArgs where
  dst : BitVec 7
  src : BitVec 7
  len : Opnd
  node : Option Opnd
  cr : Credit
deriving DecidableEq, Repr

structure RingDefArgs where
  ring : BitVec 4
  base : BitVec 7
  q : BitVec 3
deriving DecidableEq, Repr

structure RingClrArgs where
  ring : BitVec 4
  q : BitVec 3
deriving DecidableEq, Repr

structure SlotArgs where
  ring : BitVec 4
  slot : Opnd
deriving DecidableEq, Repr

structure AcntGetArgs where
  d : Opnd
  c : BitVec 5
deriving DecidableEq, Repr

structure AcntArgs where
  c : BitVec 5
  v : Opnd
deriving DecidableEq, Repr

/-! ### Class 0x9 (R339) -/

/-- SIGN and CV (R336). -/
structure Sign where
  sign : Bool
  cv : BitVec 4
deriving DecidableEq, Repr

structure MleaseTryArgs where
  a : Opnd
  q : BitVec 3
deriving DecidableEq, Repr

structure MldwArgs where
  h : BitVec 6
  pos : Opnd
  sg : Sign
deriving DecidableEq, Repr

structure MflipArgs where
  sg : Sign
deriving DecidableEq, Repr

structure MmaArgs where
  c : BitVec 6
  a : BitVec 6
  rows : Opnd
  par : BitVec 7
  cnt : BitVec 5
  dyn : Bool
  sg : Sign
deriving DecidableEq, Repr

structure MmasArgs where
  mma : MmaArgs
  l1 : BitVec 2
  l2 : BitVec 2
deriving DecidableEq, Repr

structure MaczArgs where
  c : BitVec 6
  first : Opnd
  rows : Opnd
  sg : Sign
deriving DecidableEq, Repr

structure MacrArgs where
  a : BitVec 6
  c : BitVec 6
  par : BitVec 7
  rm : RM
  sat : Bool
  sg : Sign
deriving DecidableEq, Repr

structure MacrVArgs where
  d : BitVec 10
  c : BitVec 6
  par : BitVec 7
  rm : RM
  sat : Bool
deriving DecidableEq, Repr

/-- MQ (R331, R341): the queue, and the trigger's counter and value. -/
structure MqArgs where
  high : Bool
  trig : Option (BitVec 5 × Opnd)
deriving DecidableEq, Repr

/-! ### Class 0xA (R362) -/

structure PsumArgs where
  base : BitVec 7
  layout : Opnd
deriving DecidableEq, Repr

structure PselArgs where
  list : Opnd
  base : BitVec 7
  layout : Opnd
  cr : Credit
deriving DecidableEq, Repr

structure PgathArgs where
  h : BitVec 6
  base : BitVec 7
  layout : Opnd
  cr : Credit
deriving DecidableEq, Repr

/-- The packed side of GATHL (R357): a handle of bank A or the scratchpad. -/
inductive GSide where
  | handle (h : BitVec 6)
  | scratch (a : Opnd)
deriving DecidableEq, Repr

structure GathlArgs where
  side : GSide
  base : BitVec 7
  stride : Opnd
  cr : Credit
deriving DecidableEq, Repr

/-- The forms of SCATL (R359). -/
inductive SMode where
  | plain | addN32 | addN64 | addF32
deriving DecidableEq, Repr

structure ScatlArgs where
  off : Opnd
  base : BitVec 7
  stride : Opnd
  mode : SMode
  cr : Credit
deriving DecidableEq, Repr

/-! ### Class 0xB (R386) -/

structure CodeArgs where
  code : BitVec 8
deriving DecidableEq, Repr

structure SwrArgs where
  data : Opnd
  core : Opnd
  reg : BitVec 12
deriving DecidableEq, Repr

structure QArgs where
  a : Opnd
  q : BitVec 3
deriving DecidableEq, Repr

/-- Where an access of the register windows or of memory comes from outside the cores (R410, R414, R417): the size in
bytes, and the value of a write. -/
structure Access where
  addr : Nat
  size : Nat
  write : Option (BitVec 64)
deriving DecidableEq, Repr

/-- What an on-chip SRAM soft error meets (R409): a task's state, dirty L2 data, or something that is corrected. -/
inductive SoftError where
  | corrected
  | inTask (task : Nat)
  | inDirtyLine (pa : Nat)
deriving DecidableEq, Repr

/-- What a query names in its header beside LENGTH (R417): SEQ and OFFSET. -/
structure QueryHead where
  seq : BitVec 32
  off : Nat
deriving DecidableEq, Repr

/-- A telemetry sample's sensor values (R426): module power, die powers, die and stack temperatures; and the temperatures of
the I/O dies, which no record holds (R427). -/
structure Sensors where
  power : BitVec 16
  diePower : List (BitVec 16)
  dieTemp : List (BitVec 8)
  stackTemp : List (BitVec 8)
  ioTemp : List (BitVec 8)
deriving DecidableEq, Repr

/-- The instructions and events, one constructor per row of spec/opcode_table.json, in the table's order but
for the events that carry nothing, which stand last. -/
inductive Instr where
  -- class 0x0
  | mov (h : Hdr) (a : MovArgs)
  | movi (h : Hdr) (a : MoviArgs)
  | movxSet (h : Hdr) (a : XSetArgs)
  | movxOff (h : Hdr) (a : XSetArgs)
  | movxAdd (h : Hdr) (a : XSetArgs)
  | movxGet (h : Hdr) (a : XGetArgs)
  | shfl (h : Hdr) (a : ShflArgs)
  | vote (h : Hdr) (a : VoteArgs)
  | rdlane (h : Hdr) (a : RdlaneArgs)
  | srd (h : Hdr) (a : SrdArgs)
  | rclaim (h : Hdr) (a : CountArgs)
  | rgive (h : Hdr) (a : CountArgs)
  -- class 0x1
  | iadd (h : Hdr) (a : IaddArgs)
  | iaddc (h : Hdr) (a : IaddcArgs)
  | isub (h : Hdr) (a : IaddArgs)
  | imad (h : Hdr) (a : ImadArgs)
  | imulh (h : Hdr) (a : TyDAB)
  | imnmx (h : Hdr) (a : ImnmxArgs)
  | iabs (h : Hdr) (a : IabsArgs)
  | log3 (h : Hdr) (a : Log3Args)
  | shf (h : Hdr) (a : ShfArgs)
  | shl (h : Hdr) (a : ShArgs)
  | shr (h : Hdr) (a : ShArgs)
  | bfx (h : Hdr) (a : TyDAB)
  | bfi (h : Hdr) (a : BfiArgs)
  | popc (h : Hdr) (a : TyDA)
  | clz (h : Hdr) (a : TyDA)
  | brev (h : Hdr) (a : TyDA)
  | isetp (h : Hdr) (a : IsetpArgs)
  | sel (h : Hdr) (a : SelArgs)
  | lea (h : Hdr) (a : LeaArgs)
  -- class 0x2
  | fadd (h : Hdr) (a : FArgs)
  | fmul (h : Hdr) (a : FArgs)
  | ffma (h : Hdr) (a : FmaArgs)
  | fmnmx (h : Hdr) (a : FmnmxArgs)
  | fsetp (h : Hdr) (a : FsetpArgs)
  | fmf (h : Hdr) (a : FmfArgs)
  | fcls (h : Hdr) (a : TyDA)
  | hfma2 (h : Hdr) (a : FmaArgs)
  | hadd2 (h : Hdr) (a : FArgs)
  | hmul2 (h : Hdr) (a : FArgs)
  | dadd (h : Hdr) (a : FArgs)
  | dmul (h : Hdr) (a : FArgs)
  | dfma (h : Hdr) (a : FmaArgs)
  | tfenceCheck (h : Hdr)
  | tfenceGet (h : Hdr) (a : DstArgs)
  | tfencePut (h : Hdr) (a : SrcArgs)
  | tfenceClear (h : Hdr) (a : SrcArgs)
  -- class 0x3
  | cvt (h : Hdr) (a : CvtArgs)
  | cvtn (h : Hdr) (a : CvtnArgs)
  | pkn (h : Hdr) (a : PknArgs)
  | unpk (h : Hdr) (a : UnpkArgs)
  | qsclFind (h : Hdr) (a : QfindArgs)
  | qsclDiv (h : Hdr) (a : QscaleArgs)
  | qsclMul (h : Hdr) (a : QscaleArgs)
  | cbdec (h : Hdr) (a : CbdecArgs)
  -- class 0x4
  | bra (h : Hdr) (a : BraArgs)
  | brx (h : Hdr) (a : SrcArgs)
  | call (h : Hdr) (a : CallArgs)
  | callX (h : Hdr) (a : CallXArgs)
  | ret (h : Hdr) (a : SrcArgs)
  | split (h : Hdr) (a : SplitArgs)
  | elseI (h : Hdr) (a : MaskOffArgs)
  | rejoin (h : Hdr) (a : MaskArgs)
  | exitI (h : Hdr)
  | loopn (h : Hdr) (a : LoopArgs)
  | yieldI (h : Hdr)
  | nop (h : Hdr)
  -- class 0x5
  | spawn (h : Hdr) (a : SpawnArgs)
  | spawnT (h : Hdr) (a : SpawnNArgs)
  | spawnr (h : Hdr) (a : SpawnNArgs)
  | spawng (h : Hdr) (a : SpawngArgs)
  | join (h : Hdr) (a : JoinArgs)
  | poll (h : Hdr) (a : PollArgs)
  | futnewNew (h : Hdr) (a : FutnewArgs)
  | futnewFree (h : Hdr) (a : SrcArgs)
  | fulfil (h : Hdr) (a : FulfilArgs)
  | tend (h : Hdr)
  | tendV (h : Hdr) (a : SrcArgs)
  | tself (h : Hdr) (a : TselfArgs)
  | deqd (h : Hdr) (a : DstArgs)
  | cvset (h : Hdr) (a : CvsetArgs)
  | jlaunch (h : Hdr) (a : JlaunchArgs)
  | jwait (h : Hdr) (a : PollArgs)
  | jyield (h : Hdr)
  -- class 0x6
  | ld (h : Hdr) (a : MemArgs)
  | st (h : Hdr) (a : MemArgs)
  | lds (h : Hdr) (a : MemArgs)
  | sts (h : Hdr) (a : MemArgs)
  | ldt (h : Hdr) (a : TileArgs)
  | stt (h : Hdr) (a : TileArgs)
  | lda (h : Hdr) (a : MemArgs)
  | strl (h : Hdr) (a : MemArgs)
  | fenceAcq (h : Hdr)
  | fenceRel (h : Hdr)
  | fenceAcqrel (h : Hdr)
  | waitv (h : Hdr) (a : WaitvArgs)
  | presTest (h : Hdr) (a : PresTestArgs)
  | presSet (h : Hdr) (a : PresArgs)
  | presClr (h : Hdr) (a : PresArgs)
  | presWait (h : Hdr) (a : PresArgs)
  | ifence (h : Hdr)
  -- class 0x7
  | atom (h : Hdr) (a : AtomArgs)
  | atomf (h : Hdr) (a : AtomfArgs)
  | atomp (h : Hdr) (a : AtompArgs)
  | atoms (h : Hdr) (a : AtomsArgs)
  | red (h : Hdr) (a : RedArgs)
  | rseal (h : Hdr) (a : RsealArgs)
  -- class 0x8
  | talloc (h : Hdr) (a : TallocArgs)
  | thand (h : Hdr) (a : ThandArgs)
  | trel (h : Hdr) (a : HandleArgs)
  | tinfo (h : Hdr) (a : TinfoArgs)
  | tstage (h : Hdr) (a : TstageArgs)
  | tdrain (h : Hdr) (a : TdrainArgs)
  | tcopy (h : Hdr) (a : TcopyArgs)
  | ringdefDef (h : Hdr) (a : RingDefArgs)
  | ringdefClr (h : Hdr) (a : RingClrArgs)
  | slotwaitFull (h : Hdr) (a : SlotArgs)
  | slotwaitEmpty (h : Hdr) (a : SlotArgs)
  | slotsigFull (h : Hdr) (a : SlotArgs)
  | slotsigEmpty (h : Hdr) (a : SlotArgs)
  | acntGet (h : Hdr) (a : AcntGetArgs)
  | acntSet (h : Hdr) (a : AcntArgs)
  | acntAdd (h : Hdr) (a : AcntArgs)
  | acntWaitge (h : Hdr) (a : AcntArgs)
  -- class 0x9
  | mlease (h : Hdr) (a : SrcArgs)
  | mleaseTry (h : Hdr) (a : MleaseTryArgs)
  | mrel (h : Hdr)
  | mldw (h : Hdr) (a : MldwArgs)
  | mflip (h : Hdr) (a : MflipArgs)
  | mma (h : Hdr) (a : MmaArgs)
  | mmas (h : Hdr) (a : MmasArgs)
  | macz (h : Hdr) (a : MaczArgs)
  | macr (h : Hdr) (a : MacrArgs)
  | macrV (h : Hdr) (a : MacrVArgs)
  | mq (h : Hdr) (a : MqArgs)
  | mqwait (h : Hdr) (a : SrcArgs)
  -- class 0xA
  | psumClr (h : Hdr) (a : PsumArgs)
  | psumRebuild (h : Hdr) (a : PsumArgs)
  | psel (h : Hdr) (a : PselArgs)
  | pgath (h : Hdr) (a : PgathArgs)
  | gathl (h : Hdr) (a : GathlArgs)
  | scatl (h : Hdr) (a : ScatlArgs)
  -- class 0xB
  | trap (h : Hdr) (a : CodeArgs)
  | tretResume (h : Hdr)
  | tretSkip (h : Hdr)
  | tretEscalate (h : Hdr)
  | tkill (h : Hdr)
  | bkpt (h : Hdr) (a : CodeArgs)
  | swrWrite (h : Hdr) (a : SwrArgs)
  | swrRead (h : Hdr) (a : SwrArgs)
  | time (h : Hdr) (a : DstArgs)
  | dbgsig (h : Hdr) (a : QArgs)
  | ctxsave (h : Hdr) (a : QArgs)
  | ctxload (h : Hdr) (a : QArgs)
  -- events on the cores
  | registerResultReturn (core idx : Nat)
  | warpStarving (core slot : Nat)
  | postedCauseTaken (task : Nat)
  | jobLaunch (sys : Nat) (v : BitVec 64)
  | jobLaunchComplete (sys : Nat)
  | jobRetiredRead (sys : Nat)
  | jobAdmit (job : BitVec 32)
  | budgetExhausted (job : BitVec 32)
  | jobRetire (job : BitVec 32)
  | taskTake (core : Nat)
  | stagingComplete (task : Nat)
  | regionHoldReexamine (task : Nat)
  | slotGrant (core : Nat)
  | spinExpired (task : Nat)
  | spinMove (core : Nat)
  | edgeActionsComplete (task : Nat)
  | stealRound (core : Nat)
  | crossDieRound (core : Nat)
  | stealBackoffExpiry (core : Nat)
  | stealProbeAnswer (victim thief : Nat)
  | stealArrival (core : Nat)
  | clockGate (core : Nat)
  | storeBufferDrain (core : Nat)
  | storeAck (core : Nat)
  | waitvWake (task : Nat)
  | mscEvict (idx : Nat)
  | pageWalk (core ctx va : Nat)
  | zfuClaim (core ctx va : Nat)
  | engineSegmentComplete (core op : Nat)
  | engineSegmentFault (core op : Nat)
  | handleRecordFree (core rec : Nat)
  | remoteSegmentAck (core op : Nat)
  | remoteAckTimeout (core op : Nat)
  | herricSegmentReceive (off : Nat) (data : List (BitVec 8))
  | leaseGrant (core : Nat)
  | queueAdmit (core : Nat)
  | mmaDynStep (core : Nat)
  | matrixOpComplete (core op : Nat)
  | planesEmptyAtCohortEnd (core : Nat)
  -- contexts and gang switch
  | ctxCmdPreempt (ctx : BitVec 32)
  | ctxCmdHardsave (ctx : BitVec 32)
  | ctxCmdKill (ctx : BitVec 32)
  | ctxCmdLoad (ctx : BitVec 32)
  | ctxCmdRequeueJob (job : BitVec 32)
  | ctxCmdKillJob (job : BitVec 32)
  | ctxCmdDrop (ctx : BitVec 32)
  | gangTimeWrite (v : BitVec 64)
  -- debug commands
  | dbgCmdHalt (task : BitVec 32)
  | dbgCmdHaltCohort (task : BitVec 32)
  | dbgCmdResume (task : BitVec 32)
  | dbgCmdSkip (task : BitVec 32)
  | dbgCmdStep (task : BitVec 32)
  | dbgCmdKill (task : BitVec 32)
  -- registers
  | schedCheckWrite (core : Nat) (v : BitVec 64)
  | stealCountsWrite (core : Nat) (v : BitVec 64)
  | telRegionStatsWrite (die : Nat) (v : BitVec 64)
  | xlatInvPage (v : BitVec 64)
  | xlatInvContext (v : BitVec 64)
  | xlatInvAll (v : BitVec 64)
  | xlatInvNone (v : BitVec 64)
  | keyDataWrite (ctx : Nat) (v : BitVec 64)
  | keyCtlWrite (ctx : Nat) (v : BitVec 64)
  | keyRangeReady (ctx : Nat)
  | registerWrite (off : Nat) (v : BitVec 64)
  -- resets and boot
  | resetCtlWarm (v : BitVec 64)
  | bootImageFetched (bytes : List (BitVec 8))
  | bootCtlGo (v : BitVec 64)
  -- host, links, time, background
  | pcieBar2Write (off : Nat) (data : List (BitVec 8))
  | pcieBar2Read (off len : Nat)
  | pcieBar0Access (a : Access)
  | queryRead (q : QueryHead) (len : Nat)
  | queryWrite (q : QueryHead) (words : List (BitVec 32))
  | herricLaneFail (port : Nat)
  | herricBeaconReceive (ns : BitVec 64)
  | ptpMessage (ns : BitVec 64)
  | thermalShutdown (die : Nat)
  | patrolScrub (stack : Nat)
  | phyRecalibration (stack : Nat)
  | refresh (stack : Nat)
  | telemetrySample (x : Sensors)
  | sramSoftError (e : SoftError)
  | systemCoreMemoryAccess (sys : Nat) (a : Access)
  -- events that carry nothing
  | admissionWaitLimit
  | softDrainDone
  | softDrainTimeout
  | hardSaveComplete
  | imageWriteFail
  | contextLoadComplete
  | gangDrainStart
  | gangTimeReached
  | shootdownComplete
  | resetPin
  | powerGood
  | memReady
  | bootRetry
  | imageVerify
  | herricBeaconSend
  | timeSourceLoss
  | thermalStepDown
  | thermalStepUp
  | powerLoss
deriving DecidableEq, Repr

end Sys2Proof
end

