-- ==== Sys2Proof/WellFormed.lean ====
section
/-! DEFINITION. Which instructions the encoding of 02_encoding and the tables of chapters 03 to 16 can hold. An
ill-formed instruction has no word. Events have no word and are well-formed as they stand. -/

namespace Sys2Proof

/-- Registers an operand of the type occupies (R61, R85). -/
def Ty.regs : Ty → Nat
  | .i64 | .n64 | .f64 => 2
  | .b128 => 4
  | .i32 | .n32 | .i16 | .n16 | .i8 | .n8 | .f32 | .f16 | .bf16 => 1

/-- Registers a value of a conversion format occupies: the wide types as in R85, one register for a narrow format
(R103). -/
def CFmt.regs : CFmt → Nat
  | .wide t => t.regs
  | .narrow _ => 1

/-- The forms an opcode has (R43, check 3). -/
inductive Form where
  | both | lane | group
deriving DecidableEq, Repr

/-- The form that U names is one the opcode has. -/
def Form.allows : Form → Bool → Bool
  | .both, _ => true
  | .lane, u => !u
  | .group, u => u

/-- R35, R61, R29: an operand that a source position of `k` registers admits. -/
def srcOk (u : Bool) (k : Nat) : Opnd → Bool
  | .v n => !u && n.toNat < 640 && n.toNat % k == 0
  | .g n => n.toNat % k == 0
  | .ind _ => !u
  | .lit0 | .lit1 => k != 4
  | .zero => true

/-- R35, R61: an operand that a destination position of `k` registers admits. -/
def dstOk (u : Bool) (k : Nat) : Opnd → Bool
  | .v n => !u && n.toNat < 640 && n.toNat % k == 0
  | .g n => u && n.toNat % k == 0
  | .ind _ => !u
  | .lit0 | .lit1 => false
  | .zero => true

/-- The operand whose code is 0: what an operand field that must be zero holds. -/
def opnd0 (u : Bool) : Opnd := if u then .g 0 else .v 0

/-- A g base of alignment `k` not above `top`. -/
def gOk (k top : Nat) (n : BitVec 7) : Bool := n.toNat % k == 0 && n.toNat ≤ top

/-- R36: a SETB value that is not reserved; and the form. -/
def Hdr.wf (f : Form) (h : Hdr) : Bool :=
  f.allows h.u && (h.hint.setb.toNat < 4 || h.hint.setb.toNat == 7)

/-- The HINT that MQ must carry, 0x0700 (R341). -/
def Hint.plain : Hint := ⟨0, 7, 0, false, 0⟩

/-! Types accepted (the tables of R75, R89, R130, R232, R273). -/

def movTys : List Ty := [.n32, .n64, .b128]
def moviTys : List Ty := [.n32, .f32, .i64, .n64]
def intTys : List Ty := [.i32, .i64, .n32, .n64, .i16, .n16, .i8, .n8]
def wideIntTys : List Ty := [.i32, .i64, .n32, .n64]
def absTys : List Ty := [.i8, .i16, .i32, .i64]
def bitTys : List Ty := [.n32, .n64]
def fdTys : List Ty := [.f32, .f64]
def clsTys : List Ty := [.f32, .f64, .f16, .bf16]
def halfTys : List Ty := [.f16, .bf16]
def memTys : List Ty := [.i32, .i64, .n32, .n64, .i16, .n16, .i8, .n8, .b128]
/-- Types of CVT: format codes 0x00 to 0x0B (R116). -/
def cvtTys : List Ty := [.i32, .i64, .n32, .n64, .i16, .n16, .i8, .n8, .f32, .f64, .f16, .bf16]
/-- Narrow formats of CVTN: 0x10 to 0x14. -/
def cvtnFmts : List NFmt := [.e4m3, .e5m2, .e3m2, .e2m3, .e2m1]
/-- Formats of PKN and UNPK: 0x06, 0x0A, 0x0B, 0x10 to 0x16. -/
def pkFmts : List CFmt :=
  [.wide .i8, .wide .f16, .wide .bf16, .narrow .e4m3, .narrow .e5m2, .narrow .e3m2, .narrow .e2m3, .narrow .e2m1,
   .narrow .i4, .narrow .t5]
/-- Element formats of QSCL.FIND: 0x06, 0x10 to 0x16. -/
def findFmts : List CFmt :=
  [.wide .i8, .narrow .e4m3, .narrow .e5m2, .narrow .e3m2, .narrow .e2m3, .narrow .e2m1, .narrow .i4, .narrow .t5]
/-- Scale formats of QSCL: 0x17, 0x18. -/
def scaleFmts : List NFmt := [.e8m0, .ue4m3]

/-- Positions k that PKN and UNPK have for a format (R120). -/
def pkPositions : CFmt → Nat
  | .wide .f16 | .wide .bf16 => 1
  | .wide _ => 2
  | .narrow .e2m1 | .narrow .i4 | .narrow .t5 => 4
  | .narrow _ => 2

/-- For integer and ternary formats MODE and SAT of PKN must be zero (R120). -/
def pkPlain : CFmt → Bool
  | .wide .i8 | .narrow .i4 | .narrow .t5 => true
  | _ => false

/-- System register numbers listed in R386. -/
def swrListed (n : Nat) : Bool :=
  n == 0x001 || (0x010 ≤ n && n ≤ 0x012) || (0x020 ≤ n && n ≤ 0x025) || (0x030 ≤ n && n ≤ 0x033) ||
  (0x038 ≤ n && n ≤ 0x03F) || (0x040 ≤ n && n ≤ 0x04F) || (0x050 ≤ n && n ≤ 0x052) || (0x060 ≤ n && n ≤ 0x06B)

def Credit.wf (c : Credit) : Bool := !c.crows || c.cen

/-! One predicate per shape of instruction. -/

def wfIadd (h : Hdr) (a : IaddArgs) : Bool :=
  h.wf .both && intTys.contains a.ty && dstOk h.u a.ty.regs a.d && srcOk h.u a.ty.regs a.a && srcOk h.u a.ty.regs a.b &&
  (a.co || a.pk.toNat == 0) && !(a.sat && a.co)

def wfDAB (tys : List Ty) (h : Hdr) (ty : Ty) (d a b : Opnd) : Bool :=
  h.wf .both && tys.contains ty && dstOk h.u ty.regs d && srcOk h.u ty.regs a && srcOk h.u ty.regs b

/-- A shift or bit-field form: the control operand is 32 bits (R94, R96). -/
def wfShift (tys : List Ty) (h : Hdr) (ty : Ty) (d a b : Opnd) : Bool :=
  h.wf .both && tys.contains ty && dstOk h.u ty.regs d && srcOk h.u ty.regs a && srcOk h.u 1 b

def wfF (tys : List Ty) (h : Hdr) (a : FArgs) : Bool := wfDAB tys h a.ty a.d a.a a.b

def wfFma (tys : List Ty) (h : Hdr) (a : FmaArgs) : Bool := wfDAB tys h a.ty a.d a.a a.b && srcOk h.u a.ty.regs a.c

/-- An address base: no indirect code (R232). -/
def baseOk (u : Bool) (op : Opnd) : Bool :=
  srcOk u 2 op && (match op with
    | .ind _ => false
    | .v _ | .g _ | .lit0 | .lit1 | .zero => true)

def wfMem (tys : List Ty) (load wide : Bool) (h : Hdr) (a : MemArgs) : Bool :=
  h.wf .both && tys.contains a.ty && (if load then dstOk h.u a.ty.regs a.d else srcOk h.u a.ty.regs a.d) &&
  (if wide then baseOk h.u a.base else srcOk h.u 1 a.base) && srcOk h.u 1 a.idx

def wfTile (load : Bool) (h : Hdr) (a : TileArgs) : Bool :=
  h.wf .lane && memTys.contains a.ty && (if load then dstOk h.u a.ty.regs a.d else srcOk h.u a.ty.regs a.d) &&
  srcOk h.u 1 a.idx

def wfMma (h : Hdr) (a : MmaArgs) : Bool := h.wf .group && srcOk true 1 a.rows && gOk 2 126 a.par

def wfSide : TSide → Bool
  | .handle _ => true
  | .scratch a => srcOk true 1 a
  | .slot _ a => srcOk true 1 a

/-- Well-formed: some instruction word of the encoding tables stands for it. -/
def Instr.wf : Instr → Bool
  | .mov h a => h.wf .both && movTys.contains a.ty && dstOk h.u a.ty.regs a.d && srcOk h.u a.ty.regs a.a
  | .movi h a => h.wf .both && moviTys.contains a.ty && dstOk h.u a.ty.regs a.d
  | .movxSet h a | .movxOff h a | .movxAdd h a => h.wf .lane && srcOk false 1 a.a
  | .movxGet h a => h.wf .lane && dstOk false 1 a.d
  | .shfl h a => h.wf .lane && dstOk false 1 a.d && srcOk false 1 a.a && srcOk false 1 a.b
  | .vote h a => h.wf .both && (match a.dst with
      | .ballot d => h.u && dstOk true 1 d
      | .all _ | .any _ | .uni _ => true)
  | .rdlane h a => h.wf .group && dstOk true 1 a.d && a.v.toNat < 640 && srcOk true 1 a.lane
  | .srd h a => h.wf .both && dstOk h.u (if a.sr = .time then 2 else 1) a.d && !(a.sr = .lane && h.u)
  | .rclaim h a | .rgive h a => h.wf .group && srcOk true 1 a.n
  | .iadd h a | .isub h a => wfIadd h a
  | .iaddc h a => wfDAB wideIntTys h a.ty a.d a.a a.b
  | .imad h a => h.wf .both && wideIntTys.contains a.ty && !(a.wide && a.ty.regs == 2) &&
      dstOk h.u (if a.wide then 2 else a.ty.regs) a.d && srcOk h.u a.ty.regs a.a && srcOk h.u a.ty.regs a.b &&
      srcOk h.u (if a.wide then 2 else a.ty.regs) a.c
  | .imulh h a => wfDAB wideIntTys h a.ty a.d a.a a.b
  | .imnmx h a => wfDAB intTys h a.ty a.d a.a a.b
  | .iabs h a => h.wf .both && absTys.contains a.ty && dstOk h.u a.ty.regs a.d && srcOk h.u a.ty.regs a.a
  | .log3 h a => wfDAB bitTys h a.ty a.d a.a a.b && srcOk h.u a.ty.regs a.c
  | .shf h a => h.wf .both && dstOk h.u 1 a.d && srcOk h.u 1 a.a && srcOk h.u 1 a.b && srcOk h.u 1 a.c
  | .shl h a | .shr h a => wfShift wideIntTys h a.ty a.d a.a a.b
  | .bfx h a => wfShift wideIntTys h a.ty a.d a.a a.b
  | .bfi h a => wfShift bitTys h a.ty a.d a.a a.b && srcOk h.u a.ty.regs a.c
  | .popc h a | .clz h a => h.wf .both && bitTys.contains a.ty && dstOk h.u 1 a.d && srcOk h.u a.ty.regs a.a
  | .brev h a => h.wf .both && bitTys.contains a.ty && dstOk h.u a.ty.regs a.d && srcOk h.u a.ty.regs a.a
  | .isetp h a => h.wf .both && intTys.contains a.ty && srcOk h.u a.ty.regs a.a && srcOk h.u a.ty.regs a.b
  | .sel h a => wfDAB movTys h a.ty a.d a.a a.b
  | .lea h a => h.wf .both && dstOk h.u 2 a.d && srcOk h.u 2 a.a && srcOk h.u 1 a.b
  | .fadd h a | .fmul h a => wfF [.f32] h a
  | .ffma h a => wfFma [.f32] h a
  | .fmnmx h a => wfDAB fdTys h a.ty a.d a.a a.b
  | .fsetp h a => h.wf .both && fdTys.contains a.ty && srcOk h.u a.ty.regs a.a && srcOk h.u a.ty.regs a.b
  | .fmf h a => h.wf .both && dstOk h.u 1 a.d && srcOk h.u 1 a.a
  | .fcls h a => h.wf .both && clsTys.contains a.ty && dstOk h.u 1 a.d && srcOk h.u a.ty.regs a.a
  | .hfma2 h a => wfFma halfTys h a
  | .hadd2 h a | .hmul2 h a => wfF halfTys h a
  | .dadd h a | .dmul h a => wfF [.f64] h a
  | .dfma h a => wfFma [.f64] h a
  | .tfenceCheck h => h.wf .group
  | .tfenceGet h a => h.wf .group && dstOk true 1 a.d
  | .tfencePut h a | .tfenceClear h a => h.wf .group && srcOk true 1 a.a
  | .cvt h a => h.wf .both && cvtTys.contains a.df && cvtTys.contains a.sf && dstOk h.u a.df.regs a.d &&
      srcOk h.u a.sf.regs a.a
  | .cvtn h a => h.wf .both && cvtnFmts.contains a.df && dstOk h.u 1 a.d && srcOk h.u 1 a.a
  | .pkn h a => h.wf .both && pkFmts.contains a.df && a.k.toNat < pkPositions a.df &&
      (!pkPlain a.df || (a.rm = .rn && !a.sat)) && dstOk h.u 1 a.d && srcOk h.u 1 a.a && srcOk h.u 1 a.b
  | .unpk h a => h.wf .both && pkFmts.contains a.sf && a.k.toNat < pkPositions a.sf && dstOk h.u 2 a.d &&
      srcOk h.u 1 a.a
  | .qsclFind h a => h.wf .both && findFmts.contains a.df && scaleFmts.contains a.sf && dstOk h.u 1 a.d &&
      srcOk h.u 1 a.a
  | .qsclDiv h a | .qsclMul h a => h.wf .both && scaleFmts.contains a.sf && dstOk h.u 1 a.d && srcOk h.u 1 a.a &&
      srcOk h.u 1 a.b
  | .cbdec h a => h.wf .both && dstOk h.u 2 a.d && srcOk h.u 1 a.a && srcOk h.u 1 a.b
  | .bra h a => h.wf .both && !(h.u && a.all)
  | .brx h a | .ret h a => h.wf .group && srcOk true 1 a.a
  | .call h a => h.wf .group && dstOk true 1 a.d
  | .callX h a => h.wf .group && dstOk true 1 a.d && srcOk true 1 a.a
  | .split h a => h.wf .group && gOk 2 126 a.m
  | .elseI h a => h.wf .group && gOk 2 126 a.m
  | .rejoin h a => h.wf .group && gOk 2 126 a.m
  | .exitI h => h.wf .both
  | .loopn h a => h.wf .group && dstOk true 1 a.m
  | .yieldI h => h.wf .group
  | .nop h => h.wf .both
  | .spawn h a => h.wf .group && gOk 16 112 a.base
  | .spawnT h a => h.wf .group && gOk 1 115 a.base && srcOk true 1 a.n
  | .spawnr h a => h.wf .group && gOk 16 112 a.base && srcOk true 1 a.n
  | .spawng h a => h.wf .group && gOk 16 112 a.base && gOk 2 126 a.gate
  | .join h a => h.wf .group && dstOk true 2 a.d && srcOk true 1 a.a
  | .poll h a => h.wf .group && dstOk true 2 a.d && srcOk true 1 a.a
  | .futnewNew h a => h.wf .group && dstOk true 1 a.d
  | .futnewFree h a => h.wf .group && srcOk true 1 a.a
  | .fulfil h a => h.wf .group && srcOk true 1 a.a && srcOk true 2 a.b
  | .tend h => h.wf .group
  | .tendV h a => h.wf .group && srcOk true 2 a.a
  | .tself h a => h.wf .group && dstOk true 1 a.d && a.w.toNat < 5
  | .deqd h a => h.wf .group && dstOk true 1 a.d
  | .cvset h _ => h.wf .group
  | .jlaunch h a => h.wf .group && dstOk true 2 a.d && gOk 2 126 a.a
  | .jwait h a => h.wf .group && dstOk true 1 a.d && srcOk true 1 a.a
  | .jyield h => h.wf .group
  | .ld h a => wfMem memTys true true h a
  | .st h a => wfMem memTys false true h a
  | .lds h a => wfMem memTys true false h a
  | .sts h a => wfMem memTys false false h a
  | .ldt h a => wfTile true h a
  | .stt h a => wfTile false h a
  | .lda h a => wfMem wideIntTys true true h a
  | .strl h a => wfMem wideIntTys false true h a
  | .fenceAcq h | .fenceRel h | .fenceAcqrel h => h.wf .group
  | .waitv h a => h.wf .group && dstOk true (if a.wide then 2 else 1) a.d && gOk 2 126 a.base &&
      srcOk true (if a.wide then 2 else 1) a.c
  | .presTest h a => h.wf .group && dstOk true 1 a.d && srcOk true 1 a.a
  | .presSet h a | .presClr h a | .presWait h a => h.wf .group && srcOk true 1 a.a
  | .ifence h => h.wf .group
  | .atom h a => h.wf .both && wideIntTys.contains a.ty && dstOk h.u a.ty.regs a.d && baseOk h.u a.base &&
      srcOk h.u a.ty.regs a.b && (if a.op = .cas then srcOk h.u a.ty.regs a.c else decide (a.c = opnd0 h.u))
  | .atomf h a => h.wf .both && baseOk h.u a.base && srcOk h.u 1 a.b
  | .atomp h a => h.wf .both && dstOk h.u 2 a.d && baseOk h.u a.base && srcOk h.u 2 a.b
  | .atoms h a => h.wf .both && wideIntTys.contains a.ty && dstOk h.u a.ty.regs a.d && srcOk h.u 1 a.base &&
      srcOk h.u a.ty.regs a.b && (if a.op = .cas then srcOk h.u a.ty.regs a.c else decide (a.c = opnd0 h.u))
  | .red h a => h.wf .both && wideIntTys.contains a.ty && baseOk h.u a.base && srcOk h.u a.ty.regs a.b &&
      a.op ≠ .exch && a.op ≠ .cas
  | .rseal h a => h.wf .group && srcOk true 2 a.base && srcOk true 1 a.n
  | .talloc h a => h.wf .group && gOk 4 124 a.base
  | .thand h a => h.wf .group && srcOk true 1 a.m
  | .trel h _ => h.wf .group
  | .tinfo h a => h.wf .group && gOk 4 124 a.base
  | .tstage h a => h.wf .group && wfSide a.side && gOk 2 126 a.addr && srcOk true 1 a.layout && a.cr.wf
  | .tdrain h a => h.wf .group && wfSide a.side && gOk 2 126 a.addr && srcOk true 1 a.layout && a.cr.wf
  | .tcopy h a => h.wf .group && gOk 2 126 a.dst && gOk 2 126 a.src && srcOk true 1 a.len && !a.cr.crows &&
      (match a.node with | some n => srcOk true 1 n | none => true)
  | .ringdefDef h a => h.wf .group && gOk 4 124 a.base
  | .ringdefClr h _ => h.wf .group
  | .slotwaitFull h a | .slotwaitEmpty h a | .slotsigFull h a | .slotsigEmpty h a =>
      h.wf .group && srcOk true 1 a.slot
  | .acntGet h a => h.wf .group && dstOk true 1 a.d
  | .acntSet h a | .acntAdd h a | .acntWaitge h a => h.wf .group && srcOk true 1 a.v
  | .mlease h a => h.wf .group && srcOk true 1 a.a
  | .mleaseTry h a => h.wf .group && srcOk true 1 a.a
  | .mrel h => h.wf .group
  | .mldw h a => h.wf .group && srcOk true 1 a.pos
  | .mflip h _ => h.wf .group
  | .mma h a => wfMma h a
  | .mmas h a => wfMma h a.mma
  | .macz h a => h.wf .group && srcOk true 1 a.first && srcOk true 1 a.rows
  | .macr h a => h.wf .group && gOk 4 124 a.par
  | .macrV h a => h.wf .group && gOk 4 124 a.par && a.d.toNat < 640
  | .mq h a => h.u && h.hint = Hint.plain && (match a.trig with | some (_, v) => srcOk true 1 v | none => true)
  | .mqwait h a => h.wf .group && srcOk true 1 a.a
  | .psumClr h a | .psumRebuild h a => h.wf .group && gOk 4 124 a.base && srcOk true 1 a.layout
  | .psel h a => h.wf .group && srcOk true 1 a.list && gOk 8 120 a.base && srcOk true 1 a.layout && !a.cr.crows
  | .pgath h a => h.wf .group && gOk 4 124 a.base && srcOk true 1 a.layout && a.cr.wf
  | .gathl h a => h.wf .group && gOk 4 124 a.base && srcOk true 1 a.stride && !a.cr.crows &&
      (match a.side with | .handle _ => true | .scratch o => srcOk true 1 o)
  | .scatl h a => h.wf .group && srcOk true 1 a.off && gOk 4 124 a.base && srcOk true 1 a.stride && !a.cr.crows
  | .trap h _ => h.wf .group
  | .tretResume h | .tretSkip h | .tretEscalate h | .tkill h => h.wf .group
  | .bkpt h _ => h.wf .group
  | .swrWrite h a => h.wf .group && (match a.data with | .g n => n.toNat % 2 == 0 | _ => false) &&
      srcOk true 1 a.core && swrListed a.reg.toNat
  | .swrRead h a => h.wf .group && dstOk true 2 a.data && srcOk true 1 a.core && swrListed a.reg.toNat
  | .time h a => h.wf .group && dstOk true 2 a.d
  | .dbgsig h a | .ctxsave h a | .ctxload h a => h.wf .group && srcOk true 1 a.a
  | .registerResultReturn .. | .warpStarving .. | .postedCauseTaken .. | .jobLaunch .. | .jobLaunchComplete ..
  | .jobRetiredRead .. | .jobAdmit .. | .admissionWaitLimit | .budgetExhausted .. | .jobRetire .. | .taskTake ..
  | .stagingComplete .. | .regionHoldReexamine .. | .slotGrant .. | .spinExpired .. | .spinMove ..
  | .edgeActionsComplete .. | .stealRound .. | .crossDieRound .. | .stealBackoffExpiry .. | .stealProbeAnswer ..
  | .stealArrival .. | .clockGate .. | .storeBufferDrain .. | .storeAck .. | .waitvWake .. | .mscEvict ..
  | .pageWalk .. | .zfuClaim .. | .engineSegmentComplete .. | .engineSegmentFault .. | .handleRecordFree ..
  | .remoteSegmentAck .. | .remoteAckTimeout .. | .herricSegmentReceive .. | .leaseGrant .. | .queueAdmit ..
  | .mmaDynStep .. | .matrixOpComplete .. | .planesEmptyAtCohortEnd .. | .ctxCmdPreempt .. | .ctxCmdHardsave ..
  | .ctxCmdKill .. | .ctxCmdLoad .. | .ctxCmdRequeueJob .. | .ctxCmdKillJob .. | .ctxCmdDrop .. | .softDrainDone
  | .softDrainTimeout | .hardSaveComplete | .imageWriteFail | .contextLoadComplete | .gangTimeWrite ..
  | .gangDrainStart | .gangTimeReached | .dbgCmdHalt .. | .dbgCmdHaltCohort .. | .dbgCmdResume .. | .dbgCmdSkip ..
  | .dbgCmdStep .. | .dbgCmdKill .. | .schedCheckWrite .. | .stealCountsWrite .. | .telRegionStatsWrite ..
  | .xlatInvPage .. | .xlatInvContext .. | .xlatInvAll .. | .xlatInvNone .. | .shootdownComplete | .keyDataWrite ..
  | .keyCtlWrite .. | .keyRangeReady .. | .registerWrite .. | .resetCtlWarm .. | .resetPin | .powerGood | .memReady
  | .bootImageFetched .. | .bootRetry | .bootCtlGo .. | .imageVerify | .pcieBar2Write .. | .pcieBar2Read ..
  | .pcieBar0Access .. | .queryRead .. | .queryWrite .. | .herricLaneFail .. | .herricBeaconSend
  | .herricBeaconReceive .. | .ptpMessage .. | .thermalStepDown .. | .thermalStepUp .. | .thermalShutdown ..
  | .patrolScrub .. | .phyRecalibration .. | .refresh .. | .telemetrySample .. | .sramSoftError ..
  | .timeSourceLoss | .powerLoss | .systemCoreMemoryAccess .. => true

end Sys2Proof
end

