-- ==== Sys2Proof/Decode.lean ====
section
/-! DEFINITION. The instruction word (02_encoding R32 to R45) and the encoding tables of the classes (R75, R89, R116,
R130, R154, R175, R201, R232, R273, R309, R310, R339, R362, R386): the decoder, total on every word and answering the
first cause of R43, and after it the encoder written from the same tables. -/

namespace Sys2Proof

/-- What decoding a slot answers when it is not an instruction (R43, checks 2 to 6, in that order). -/
inductive DecodeFault where
  | illegalOpcode | uForm | privileged | reservedField | badOperand
deriving DecidableEq, Repr

/-- The fields of the instruction word. -/
structure Fields where
  op : BitVec 10
  hdr : Hdr
  d : BitVec 10
  a : BitVec 10
  b : BitVec 10
  m : BitVec 4
  e : BitVec 32
deriving DecidableEq, Repr

/-- What the issuing task may use: instructions of system software (R371), instructions of a trap task (R386). -/
structure Privs where
  ctx : Bool
  trap : Bool
deriving DecidableEq, Repr

/-- Every privilege. -/
def Privs.full : Privs := ⟨true, true⟩

/-! ### Splitting and joining a word -/

/-- The hint field, [14:0]. -/
def hintOf (w : BitVec 15) : Hint :=
  ⟨w.extractLsb' 11 4, w.extractLsb' 8 3, w.extractLsb' 5 3, w.getLsbD 4, w.extractLsb' 0 4⟩

def Hint.word (h : Hint) : BitVec 15 := h.wait ++ h.setb ++ h.reuse ++ BitVec.ofBool h.giveWay ++ h.stall

/-- The fields of a word (table 'Instruction word fields'). -/
def fieldsOf (w : SlotWord) : Fields where
  op := w.extractLsb' 86 10
  hdr := ⟨w.getLsbD 85, w.getLsbD 84, w.extractLsb' 81 3, hintOf (w.extractLsb' 0 15)⟩
  d := w.extractLsb' 71 10
  a := w.extractLsb' 61 10
  b := w.extractLsb' 51 10
  m := w.extractLsb' 47 4
  e := w.extractLsb' 15 32

def Fields.word (f : Fields) : SlotWord :=
  f.op ++ BitVec.ofBool f.hdr.u ++ BitVec.ofBool f.hdr.neg ++ f.hdr.pred ++ f.d ++ f.a ++ f.b ++ f.m ++ f.e ++
    f.hdr.hint.word

/-- EXT bits by instruction-word bit number: `n` bits from `lo` up. -/
def Fields.x (f : Fields) (lo n : Nat) : BitVec n := f.e.extractLsb' (lo - 15) n

/-- EXT bit by instruction-word bit number. -/
def Fields.bit (f : Fields) (i : Nat) : Bool := f.e.getLsbD (i - 15)

def Fields.u (f : Fields) : Bool := f.hdr.u

/-! ### Codes -/

/-- Type codes of MOD (R34). -/
def tyOf (m : Nat) : Option Ty :=
  match m with
  | 0x0 => some .i32 | 0x1 => some .i64 | 0x2 => some .n32 | 0x3 => some .n64
  | 0x4 => some .i16 | 0x5 => some .n16 | 0x6 => some .i8 | 0x7 => some .n8
  | 0x8 => some .f32 | 0x9 => some .f64 | 0xA => some .f16 | 0xB => some .bf16
  | 0xC => some .b128
  | _ => none

def Ty.code : Ty → Nat
  | .i32 => 0x0 | .i64 => 0x1 | .n32 => 0x2 | .n64 => 0x3 | .i16 => 0x4 | .n16 => 0x5 | .i8 => 0x6 | .n8 => 0x7
  | .f32 => 0x8 | .f64 => 0x9 | .f16 => 0xA | .bf16 => 0xB | .b128 => 0xC

/-- The type code, if the instruction accepts it (R34). -/
def accept (tys : List Ty) (m : Nat) : Option Ty := (tyOf m).filter (tys.contains ·)

/-- Conversion format codes (R115). -/
def fmtOf (c : Nat) : Option CFmt :=
  match c with
  | 0x10 => some (.narrow .e4m3) | 0x11 => some (.narrow .e5m2) | 0x12 => some (.narrow .e3m2)
  | 0x13 => some (.narrow .e2m3) | 0x14 => some (.narrow .e2m1) | 0x15 => some (.narrow .i4)
  | 0x16 => some (.narrow .t5) | 0x17 => some (.narrow .e8m0) | 0x18 => some (.narrow .ue4m3)
  | n => if n < 0x0C then (tyOf n).map CFmt.wide else none

def NFmt.code : NFmt → Nat
  | .e4m3 => 0x10 | .e5m2 => 0x11 | .e3m2 => 0x12 | .e2m3 => 0x13 | .e2m1 => 0x14 | .i4 => 0x15 | .t5 => 0x16
  | .e8m0 => 0x17 | .ue4m3 => 0x18

def CFmt.code : CFmt → Nat
  | .wide t => t.code
  | .narrow f => f.code

def acceptFmt (fs : List CFmt) (c : Nat) : Option CFmt := (fmtOf c).filter (fs.contains ·)

def acceptNarrow (fs : List NFmt) (c : Nat) : Option NFmt :=
  match fmtOf c with
  | some (.narrow f) => if fs.contains f then some f else none
  | _ => none

/-- Rounding modes (R112). -/
def rmOf (c : Nat) : Option RM :=
  match c with
  | 0 => some .rn | 1 => some .rz | 2 => some .ru | 3 => some .rd | 4 => some .ro
  | _ => none

def RM.code : RM → Nat
  | .rn => 0 | .rz => 1 | .ru => 2 | .rd => 3 | .ro => 4

/-- Compare codes of ISETP and WAITV (R98, R232). -/
def cmpOf (c : Nat) : Option Cmp :=
  match c with
  | 0 => some .eq | 1 => some .ne | 2 => some .lt | 3 => some .le | 4 => some .gt | 5 => some .ge
  | _ => none

def Cmp.code : Cmp → Nat
  | .eq => 0 | .ne => 1 | .lt => 2 | .le => 3 | .gt => 4 | .ge => 5

def combOf (c : Nat) : Option CombOp :=
  match c with
  | 0 => some .and | 1 => some .or | 2 => some .xor
  | _ => none

def CombOp.code : CombOp → Nat
  | .and => 0 | .or => 1 | .xor => 2

/-- FSETP compare codes (R134). -/
def fcmpOf (c : Nat) : Option FCmp :=
  match c with
  | 0 => some .eq | 1 => some .ne | 2 => some .lt | 3 => some .le | 4 => some .gt | 5 => some .ge
  | 6 => some .num | 7 => some .nan
  | 8 => some .equ | 9 => some .neu | 10 => some .ltu | 11 => some .leu | 12 => some .gtu | 13 => some .geu
  | _ => none

def FCmp.code : FCmp → Nat
  | .eq => 0 | .ne => 1 | .lt => 2 | .le => 3 | .gt => 4 | .ge => 5 | .num => 6 | .nan => 7
  | .equ => 8 | .neu => 9 | .ltu => 10 | .leu => 11 | .gtu => 12 | .geu => 13

/-- FMF functions (R135). -/
def ffnOf (c : Nat) : Option FFn :=
  match c with
  | 0 => some .rcp | 1 => some .rsq | 2 => some .ex2 | 3 => some .lg2 | 4 => some .sin | 5 => some .cos
  | 6 => some .tanh
  | _ => none

def FFn.code : FFn → Nat
  | .rcp => 0 | .rsq => 1 | .ex2 => 2 | .lg2 => 3 | .sin => 4 | .cos => 5 | .tanh => 6

/-- Atomic operation codes (R273). -/
def aopOf (c : BitVec 3) : AOp :=
  if c = 0 then .add else if c = 1 then .min else if c = 2 then .max else if c = 3 then .and
  else if c = 4 then .or else if c = 5 then .xor else if c = 6 then .exch else .cas

def AOp.code : AOp → BitVec 3
  | .add => 0 | .min => 1 | .max => 2 | .and => 3 | .or => 4 | .xor => 5 | .exch => 6 | .cas => 7

/-- Compare codes of SPAWNG (R175). -/
def gateCmpOf (c : Nat) : Option GateCmp :=
  match c with
  | 0 => some .eq | 1 => some .ne | 2 => some .lt | 3 => some .le | 4 => some .gt | 5 => some .ge | 6 => some .rdy
  | _ => none

def GateCmp.code : GateCmp → Nat
  | .eq => 0 | .ne => 1 | .lt => 2 | .le => 3 | .gt => 4 | .ge => 5 | .rdy => 6

/-- Special registers (R81). -/
def sregOf (c : Nat) : Option SReg :=
  match c with
  | 0 => some .lane | 1 => some .task | 2 => some .cohort | 3 => some .orderkey | 4 => some .width
  | 5 => some .livemask | 6 => some .activemask | 7 => some .regs | 8 => some .core | 9 => some .cause
  | 10 => some .faultlanes | 11 => some .futcause | 12 => some .time
  | _ => none

def SReg.code : SReg → Nat
  | .lane => 0 | .task => 1 | .cohort => 2 | .orderkey => 3 | .width => 4 | .livemask => 5 | .activemask => 6
  | .regs => 7 | .core => 8 | .cause => 9 | .faultlanes => 10 | .futcause => 11 | .time => 12

/-! ### Operand codes (R35) -/

/-- An operand code, under the form U. -/
def opndOf (u : Bool) (c : BitVec 10) : Option Opnd :=
  let n := c.toNat
  if n = 1023 then some .zero
  else if n = 1016 then some .lit0
  else if n = 1017 then some .lit1
  else if u then (if n < 128 then some (.g (c.setWidth 7)) else none)
  else if n < 640 then some (.v c)
  else if n < 768 then some (.g ((c - 640#10).setWidth 7))
  else if 1008 ≤ n ∧ n < 1016 then some (.ind ((c - 1008#10).setWidth 3))
  else none

def Opnd.code (u : Bool) : Opnd → BitVec 10
  | .v n => n
  | .g n => if u then n.setWidth 10 else 640#10 + n.setWidth 10
  | .ind x => 1008#10 + x.setWidth 10
  | .lit0 => 1016#10
  | .lit1 => 1017#10
  | .zero => 1023#10

/-- A source position of `k` registers. -/
def src (u : Bool) (k : Nat) (c : BitVec 10) : Option Opnd := (opndOf u c).filter (srcOk u k)

/-- A destination position of `k` registers. -/
def dst (u : Bool) (k : Nat) (c : BitVec 10) : Option Opnd := (opndOf u c).filter (dstOk u k)

/-- An address base (R232). -/
def addrBase (u : Bool) (c : BitVec 10) : Option Opnd := (opndOf u c).filter (baseOk u)

/-- A g base: a g code alone, of alignment `k`, at most `top`. -/
def gsrc (k top : Nat) (c : BitVec 10) : Option (BitVec 7) :=
  if c.toNat < 128 then (if gOk k top (c.setWidth 7) then some (c.setWidth 7) else none) else none

/-- An index field holding a value of `n` or more. -/
def atLeast (n : Nat) (c : BitVec 10) : Bool := n ≤ c.toNat

/-! ### The decode checks -/

/-- R43, checks 2 to 6 in order. `ill`: OPCODE or type not accepted; `res`: a nonzero unused or reserved field; `mk`:
the instruction, if no operand code is reserved. -/
def gate (f : Fields) (form : Form) (ill privOk res : Bool) (mk : Option Instr) : Except DecodeFault Instr :=
  if ill then .error .illegalOpcode
  else if !form.allows f.u then .error .uForm
  else if !privOk then .error .privileged
  else if res || !(f.hdr.hint.setb.toNat < 4 || f.hdr.hint.setb.toNat == 7) then .error .reservedField
  else match mk with
    | some i => .ok i
    | none => .error .badOperand

/-- A field that must be zero is not. -/
def nz {n : Nat} (x : BitVec n) : Bool := x != 0

/-- Class 0x0 (R75 to R83). -/
def decodeC0 (f : Fields) (idx : Nat) : Except DecodeFault Instr :=
  let h := f.hdr; let u := f.u; let m := f.m.toNat
  match idx with
  | 0x00 => gate f .both (accept movTys m).isNone true (nz f.b || nz f.e) do
      let ty ← accept movTys m; some (.mov h ⟨ty, ← dst u ty.regs f.d, ← src u ty.regs f.a⟩)
  | 0x01 => gate f .both (accept moviTys m).isNone true (nz f.a || nz f.b) do
      let ty ← accept moviTys m; some (.movi h ⟨ty, ← dst u ty.regs f.d, f.e⟩)
  | 0x02 =>
      match m with
      | 0 => gate f .lane false true (atLeast 8 f.d || nz f.b || nz f.e) do
          some (.movxSet h ⟨f.d.setWidth 3, ← src u 1 f.a⟩)
      | 1 => gate f .lane false true (atLeast 8 f.d || nz f.b || nz f.e) do
          some (.movxOff h ⟨f.d.setWidth 3, ← src u 1 f.a⟩)
      | 2 => gate f .lane false true (atLeast 8 f.d || nz f.b || nz f.e) do
          some (.movxAdd h ⟨f.d.setWidth 3, ← src u 1 f.a⟩)
      | 3 => gate f .lane false true (atLeast 8 f.a || nz f.b || nz f.e) do
          some (.movxGet h ⟨← dst u 1 f.d, f.a.setWidth 3⟩)
      | _ => gate f .lane false true true none
  | 0x03 =>
      let mode : Option ShflMode := match m with
        | 0 => some .idx | 1 => some .up | 2 => some .down | 3 => some .xor | _ => none
      gate f .lane false true (mode.isNone || nz f.e) do
        some (.shfl h ⟨← mode, ← dst u 1 f.d, ← src u 1 f.a, ← src u 1 f.b⟩)
  | 0x04 =>
      let res := atLeast 8 f.a || nz f.b || nz (f.x 16 31)
      let p := f.d.setWidth 3; let s := f.a.setWidth 3; let n := f.bit 15
      match m with
      | 0 => gate f .both false true (atLeast 8 f.d || res) (some (.vote h ⟨.all p, s, n⟩))
      | 1 => gate f .both false true (atLeast 8 f.d || res) (some (.vote h ⟨.any p, s, n⟩))
      | 2 => gate f .both false true (atLeast 8 f.d || res) (some (.vote h ⟨.uni p, s, n⟩))
      | 3 => gate f .both false true (!u || (128 ≤ f.d.toNat && f.d.toNat < 640) || res) do some (.vote h ⟨.ballot (← dst u 1 f.d), s, n⟩)
      | _ => gate f .both false true true none
  | 0x05 => gate f .group (m != 2) true (atLeast 640 f.a || nz f.e) do
      some (.rdlane h ⟨← dst u 1 f.d, f.a, ← src u 1 f.b⟩)
  | 0x06 =>
      let sr := sregOf f.a.toNat
      gate f .both (m != if sr = some .time then 3 else 2) true
        (sr.isNone || (decide (sr = some .lane) && u) || nz f.b || nz f.e) do
          let r ← sr; some (.srd h ⟨← dst u (if r = .time then 2 else 1) f.d, r⟩)
  | 0x07 => gate f .group false true (nz f.m || nz f.d || nz f.b || nz f.e) do some (.rclaim h ⟨← src u 1 f.a⟩)
  | 0x08 => gate f .group false true (nz f.m || nz f.d || nz f.b || nz f.e) do some (.rgive h ⟨← src u 1 f.a⟩)
  | _ => .error .illegalOpcode

/-- Class 0x1 (R89). -/
def decodeC1 (f : Fields) (idx : Nat) : Except DecodeFault Instr :=
  let h := f.hdr; let u := f.u; let m := f.m.toNat
  let dab (tys : List Ty) (res : Bool) (kb : Ty → Nat) (mk : Ty → Opnd → Opnd → Opnd → Option Instr) :=
    gate f .both (accept tys m).isNone true res do
      let ty ← accept tys m; mk ty (← dst u ty.regs f.d) (← src u ty.regs f.a) (← src u (kb ty) f.b)
  let da (tys : List Ty) (res : Bool) (kd : Ty → Nat) (mk : Ty → Opnd → Opnd → Instr) :=
    gate f .both (accept tys m).isNone true (nz f.b || res) do
      let ty ← accept tys m; some (mk ty (← dst u (kd ty) f.d) (← src u ty.regs f.a))
  match idx with
  | 0x00 => dab intTys (nz (f.x 31 16) || f.bit 29 || nz (f.x 15 10) || (!f.bit 25 && nz (f.x 26 3)) ||
      (f.bit 30 && f.bit 25)) Ty.regs fun ty d a b => some (.iadd h ⟨ty, d, a, b, f.bit 25, f.x 26 3, f.bit 30⟩)
  | 0x01 => dab wideIntTys (nz (f.x 30 17) || nz (f.x 15 10)) Ty.regs fun ty d a b =>
      some (.iaddc h ⟨ty, d, a, b, f.bit 25, f.x 26 3, f.bit 29⟩)
  | 0x02 => dab intTys (nz (f.x 31 16) || f.bit 29 || nz (f.x 15 10) || (!f.bit 25 && nz (f.x 26 3)) ||
      (f.bit 30 && f.bit 25)) Ty.regs fun ty d a b => some (.isub h ⟨ty, d, a, b, f.bit 25, f.x 26 3, f.bit 30⟩)
  | 0x03 =>
      let w := f.bit 25
      let ty := accept wideIntTys m
      gate f .both ty.isNone true (nz (f.x 26 21) || (w && ty.elim false (·.regs == 2))) do
        let ty ← ty; let k := if w then 2 else ty.regs
        some (.imad h ⟨ty, ← dst u k f.d, ← src u ty.regs f.a, ← src u ty.regs f.b, ← src u k (f.x 15 10), w⟩)
  | 0x04 => dab wideIntTys (nz f.e) Ty.regs fun ty d a b => some (.imulh h ⟨ty, d, a, b⟩)
  | 0x05 => dab intTys (nz (f.x 26 21) || nz (f.x 15 10)) Ty.regs fun ty d a b =>
      some (.imnmx h ⟨ty, d, a, b, f.bit 25⟩)
  | 0x06 => da absTys (nz (f.x 31 16) || nz (f.x 15 15)) Ty.regs fun ty d a => .iabs h ⟨ty, d, a, f.bit 30⟩
  | 0x07 => dab bitTys (nz (f.x 33 14)) Ty.regs fun ty d a b => do
      some (.log3 h ⟨ty, d, a, b, ← src u ty.regs (f.x 15 10), f.x 25 8⟩)
  | 0x08 => gate f .both (m != 2) true (nz (f.x 27 20)) do
      some (.shf h ⟨← dst u 1 f.d, ← src u 1 f.a, ← src u 1 f.b, ← src u 1 (f.x 15 10), f.bit 25, f.bit 26⟩)
  | 0x09 => dab wideIntTys (nz (f.x 27 20) || nz (f.x 15 11)) (fun _ => 1) fun ty d a b =>
      some (.shl h ⟨ty, d, a, b, f.bit 26⟩)
  | 0x0A => dab wideIntTys (nz (f.x 27 20) || nz (f.x 15 11)) (fun _ => 1) fun ty d a b =>
      some (.shr h ⟨ty, d, a, b, f.bit 26⟩)
  | 0x0B => dab wideIntTys (nz f.e) (fun _ => 1) fun ty d a b => some (.bfx h ⟨ty, d, a, b⟩)
  | 0x0C => dab bitTys (nz (f.x 25 22)) (fun _ => 1) fun ty d a b => do
      some (.bfi h ⟨ty, d, a, b, ← src u ty.regs (f.x 15 10)⟩)
  | 0x0D => da bitTys (nz f.e) (fun _ => 1) fun ty d a => .popc h ⟨ty, d, a⟩
  | 0x0E => da bitTys (nz f.e) (fun _ => 1) fun ty d a => .clz h ⟨ty, d, a⟩
  | 0x0F => da bitTys (nz f.e) Ty.regs fun ty d a => .brev h ⟨ty, d, a⟩
  | 0x10 =>
      let c := cmpOf (f.x 25 3).toNat; let o := combOf (f.x 31 2).toNat
      gate f .both (accept intTys m).isNone true (atLeast 8 f.d || c.isNone || o.isNone || nz (f.x 34 13) ||
          nz (f.x 15 10)) do
        let ty ← accept intTys m
        some (.isetp h ⟨ty, f.d.setWidth 3, ← src u ty.regs f.a, ← src u ty.regs f.b, ← c, f.x 28 3, ← o, f.bit 33⟩)
  | 0x11 => dab movTys (nz (f.x 30 17) || nz (f.x 15 11)) Ty.regs fun ty d a b =>
      some (.sel h ⟨ty, d, a, b, f.x 26 3, f.bit 29⟩)
  | 0x12 => gate f .both (m != 3) true (nz (f.x 29 18) || nz (f.x 15 10)) do
      some (.lea h ⟨← dst u 2 f.d, ← src u 2 f.a, ← src u 1 f.b, f.x 25 3, f.bit 28⟩)
  | _ => .error .illegalOpcode

/-- Class 0x2 (R130). -/
def decodeC2 (f : Fields) (idx : Nat) : Except DecodeFault Instr :=
  let h := f.hdr; let u := f.u; let m := f.m.toNat
  let two (tys : List Ty) (mk : FArgs → Instr) :=
    let r := rmOf (f.x 25 3).toNat
    gate f .both (accept tys m).isNone true (r.isNone || nz (f.x 33 14) || f.bit 30 || nz (f.x 15 10)) do
      let ty ← accept tys m
      some (mk ⟨ty, ← dst u ty.regs f.d, ← src u ty.regs f.a, ← src u ty.regs f.b, ← r, f.bit 28, f.bit 29, f.bit 31,
        f.bit 32⟩)
  let three (tys : List Ty) (mk : FmaArgs → Instr) :=
    let r := rmOf (f.x 25 3).toNat
    gate f .both (accept tys m).isNone true (r.isNone || nz (f.x 33 14)) do
      let ty ← accept tys m
      some (mk ⟨ty, ← dst u ty.regs f.d, ← src u ty.regs f.a, ← src u ty.regs f.b, ← src u ty.regs (f.x 15 10), ← r,
        f.bit 28, f.bit 29, f.bit 30, f.bit 31, f.bit 32⟩)
  match idx with
  | 0x00 => two [.f32] (.fadd h)
  | 0x01 => two [.f32] (.fmul h)
  | 0x02 => three [.f32] (.ffma h)
  | 0x03 => gate f .both (accept fdTys m).isNone true (nz (f.x 33 14) || f.bit 30 || f.bit 27 || nz (f.x 15 10)) do
      let ty ← accept fdTys m
      some (.fmnmx h ⟨ty, ← dst u ty.regs f.d, ← src u ty.regs f.a, ← src u ty.regs f.b, f.bit 25, f.bit 26, f.bit 28,
        f.bit 29, f.bit 31, f.bit 32⟩)
  | 0x04 =>
      let c := fcmpOf (f.x 25 4).toNat; let o := combOf (f.x 33 2).toNat
      gate f .both (accept fdTys m).isNone true (atLeast 8 f.d || c.isNone || o.isNone || nz (f.x 38 9) || f.bit 29 ||
          nz (f.x 15 10)) do
        let ty ← accept fdTys m
        some (.fsetp h ⟨ty, f.d.setWidth 3, ← src u ty.regs f.a, ← src u ty.regs f.b, ← c, f.x 30 3, ← o, f.bit 35,
          f.bit 36, f.bit 37⟩)
  | 0x05 =>
      let fn := ffnOf (f.x 25 3).toNat
      gate f .both (m != 8) true (fn.isNone || nz f.b || nz (f.x 32 15) || nz (f.x 29 2) || nz (f.x 15 10)) do
        some (.fmf h ⟨← dst u 1 f.d, ← src u 1 f.a, ← fn, f.bit 28, f.bit 31⟩)
  | 0x06 => gate f .both (accept clsTys m).isNone true (nz f.b || nz f.e) do
      let ty ← accept clsTys m; some (.fcls h ⟨ty, ← dst u 1 f.d, ← src u ty.regs f.a⟩)
  | 0x07 => three halfTys (.hfma2 h)
  | 0x08 => two halfTys (.hadd2 h)
  | 0x09 => two halfTys (.hmul2 h)
  | 0x0A => two [.f64] (.dadd h)
  | 0x0B => two [.f64] (.dmul h)
  | 0x0C => three [.f64] (.dfma h)
  | 0x0D =>
      match m with
      | 0 => gate f .group false true (nz f.d || nz f.a || nz f.b || nz f.e) (some (.tfenceCheck h))
      | 1 => gate f .group false true (nz f.a || nz f.b || nz f.e) do some (.tfenceGet h ⟨← dst u 1 f.d⟩)
      | 2 => gate f .group false true (nz f.d || nz f.b || nz f.e) do some (.tfencePut h ⟨← src u 1 f.a⟩)
      | 3 => gate f .group false true (nz f.d || nz f.b || nz f.e) do some (.tfenceClear h ⟨← src u 1 f.a⟩)
      | _ => gate f .group false true true none
  | _ => .error .illegalOpcode

/-- Class 0x3 (R115, R116). -/
def decodeC3 (f : Fields) (idx : Nat) : Except DecodeFault Instr :=
  let h := f.hdr; let u := f.u; let m := f.m.toNat
  let df := (f.x 25 5).toNat; let sf := (f.x 30 5).toNat; let sl := (f.x 35 3).toNat
  let r := rmOf (m % 8); let sat := f.m.getLsbD 3
  let pad := nz (f.x 38 9) || nz (f.x 15 10)
  match idx with
  | 0x00 => gate f .both ((accept cvtTys df).isNone || (accept cvtTys sf).isNone) true
      (nz f.b || r.isNone || sl != 0 || pad) do
        let df ← accept cvtTys df; let sf ← accept cvtTys sf
        some (.cvt h ⟨← dst u df.regs f.d, ← src u sf.regs f.a, ← r, sat, df, sf⟩)
  | 0x01 => gate f .both (acceptNarrow cvtnFmts df).isNone true (nz f.b || r.isNone || sf != 0 || sl != 0 || pad) do
      some (.cvtn h ⟨← dst u 1 f.d, ← src u 1 f.a, ← r, sat, ← acceptNarrow cvtnFmts df⟩)
  | 0x02 =>
      let c := acceptFmt pkFmts df
      gate f .both c.isNone true (r.isNone || sf != 0 || pad ||
          c.elim false (fun c => pkPositions c ≤ sl || (pkPlain c && m != 0))) do
        some (.pkn h ⟨← dst u 1 f.d, ← src u 1 f.a, ← src u 1 f.b, ← r, sat, ← c, f.x 35 2⟩)
  | 0x03 =>
      let c := acceptFmt pkFmts sf
      gate f .both c.isNone true (nz f.b || m != 0 || df != 0 || pad || c.elim false (fun c => pkPositions c ≤ sl)) do
        some (.unpk h ⟨← dst u 2 f.d, ← src u 1 f.a, ← c, f.x 35 2⟩)
  | 0x04 =>
      let s := acceptNarrow scaleFmts sf
      match sl with
      | 0 => gate f .both (s.isNone || (acceptFmt findFmts df).isNone) true (nz f.b || m != 0 || pad) do
          some (.qsclFind h ⟨← dst u 1 f.d, ← src u 1 f.a, ← acceptFmt findFmts df, ← s⟩)
      | 1 => gate f .both s.isNone true (r.isNone || df != 0 || pad) do
          some (.qsclDiv h ⟨← dst u 1 f.d, ← src u 1 f.a, ← src u 1 f.b, ← r, sat, ← s⟩)
      | 2 => gate f .both s.isNone true (r.isNone || df != 0 || pad) do
          some (.qsclMul h ⟨← dst u 1 f.d, ← src u 1 f.a, ← src u 1 f.b, ← r, sat, ← s⟩)
      | _ => gate f .both s.isNone true true none
  | 0x05 =>
      gate f .both (!(df == 0x06 || df == 0x0B)) true
        (m != 0 || sf != 0 || pad || (if df == 0x06 then sl != 0 else 1 < sl)) do
          some (.cbdec h ⟨← dst u 2 f.d, ← src u 1 f.a, ← src u 1 f.b, if df == 0x06 then none else some (f.bit 35)⟩)
  | _ => .error .illegalOpcode

/-- Class 0x4 (R154). -/
def decodeC4 (f : Fields) (idx : Nat) : Except DecodeFault Instr :=
  let h := f.hdr; let m := f.m.toNat
  match idx with
  | 0x00 => gate f .both false true (nz f.d || nz f.a || nz f.b || 1 < m || (f.u && m != 0))
      (some (.bra h ⟨m == 1, f.e⟩))
  | 0x01 => gate f .group false true (nz f.d || nz f.b || m != 0 || nz f.e) do some (.brx h ⟨← src true 1 f.a⟩)
  | 0x02 =>
      if m == 1 then gate f .group false true (nz f.b || nz f.e) do
        some (.callX h ⟨← dst true 1 f.d, ← src true 1 f.a⟩)
      else gate f .group false true (m != 0 || nz f.a || nz f.b) do some (.call h ⟨← dst true 1 f.d, f.e⟩)
  | 0x03 => gate f .group false true (nz f.d || nz f.b || m != 0 || nz f.e) do some (.ret h ⟨← src true 1 f.a⟩)
  | 0x04 => gate f .group false true (atLeast 8 f.a || nz f.b || 1 < m) do
      some (.split h ⟨← gsrc 2 126 f.d, f.a.setWidth 3, m == 1, f.e⟩)
  | 0x05 => gate f .group false true (nz f.a || nz f.b || m != 0) do some (.elseI h ⟨← gsrc 2 126 f.d, f.e⟩)
  | 0x06 => gate f .group false true (nz f.a || nz f.b || m != 0 || nz f.e) do some (.rejoin h ⟨← gsrc 2 126 f.d⟩)
  | 0x07 => gate f .both false true (nz f.d || nz f.a || nz f.b || m != 0 || nz f.e) (some (.exitI h))
  | 0x08 => gate f .group false true (nz f.a || nz f.b || m != 0) do some (.loopn h ⟨← dst true 1 f.d, f.e⟩)
  | 0x09 => gate f .group false true (nz f.d || nz f.a || nz f.b || m != 0 || nz f.e) (some (.yieldI h))
  | 0x0A => gate f .both false true (nz f.d || nz f.a || nz f.b || m != 0 || nz f.e) (some (.nop h))
  | _ => .error .illegalOpcode

/-- Class 0x5 (R175, R201). -/
def decodeC5 (f : Fields) (idx : Nat) : Except DecodeFault Instr :=
  let h := f.hdr; let m := f.m.toNat
  let q := f.d.setWidth 3; let qb := f.b.setWidth 3
  match idx with
  | 0x00 =>
      if m == 1 then gate f .group false true (atLeast 8 f.d || nz f.e) do
        some (.spawnT h ⟨q, ← gsrc 1 115 f.a, ← src true 1 f.b⟩)
      else gate f .group false true (m != 0 || atLeast 8 f.d || nz f.b || nz f.e) do
        some (.spawn h ⟨q, ← gsrc 16 112 f.a⟩)
  | 0x01 => gate f .group false true (m != 0 || atLeast 8 f.d || nz f.e) do
      some (.spawnr h ⟨q, ← gsrc 16 112 f.a, ← src true 1 f.b⟩)
  | 0x02 =>
      let c := gateCmpOf m
      gate f .group false true (c.isNone || atLeast 8 f.d || nz (f.x 27 20) || nz (f.x 15 10)) do
        some (.spawng h ⟨q, ← gsrc 16 112 f.a, ← gsrc 2 126 f.b, ← c, f.bit 25, f.bit 26⟩)
  | 0x03 => gate f .group false true (1 < m || nz f.b || nz f.e) do
      some (.join h ⟨← dst true 2 f.d, ← src true 1 f.a, m == 1⟩)
  | 0x04 => gate f .group false true (m != 0 || atLeast 8 f.b || nz f.e) do
      some (.poll h ⟨← dst true 2 f.d, ← src true 1 f.a, qb⟩)
  | 0x05 =>
      if m == 1 then gate f .group false true (nz f.d || nz f.b || nz f.e) do some (.futnewFree h ⟨← src true 1 f.a⟩)
      else gate f .group false true (m != 0 || nz f.a || atLeast 8 f.b || nz f.e) do
        some (.futnewNew h ⟨← dst true 1 f.d, qb⟩)
  | 0x06 => gate f .group false true (m != 0 || nz f.d || nz f.e) do
      some (.fulfil h ⟨← src true 1 f.a, ← src true 2 f.b⟩)
  | 0x07 =>
      if m == 1 then gate f .group false true (nz f.d || nz f.b || nz f.e) do some (.tendV h ⟨← src true 2 f.a⟩)
      else gate f .group false true (m != 0 || nz f.d || nz f.a || nz f.b || nz f.e) (some (.tend h))
  | 0x08 => gate f .group false true (4 < m || nz f.a || nz f.b || nz f.e) do
      some (.tself h ⟨← dst true 1 f.d, f.m.setWidth 3⟩)
  | 0x09 => gate f .group false true (m != 0 || nz f.a || nz f.b || nz f.e) do some (.deqd h ⟨← dst true 1 f.d⟩)
  | 0x0A => gate f .group false true (7 < m || atLeast 16 f.d || nz f.a || nz f.b || nz f.e)
      (some (.cvset h ⟨f.d.setWidth 4, f.m.setWidth 3⟩))
  | 0x0B => gate f .group false true (m != 0 || atLeast 8 f.b || nz f.e) do
      some (.jlaunch h ⟨← dst true 2 f.d, ← gsrc 2 126 f.a, qb⟩)
  | 0x0C => gate f .group false true (m != 0 || atLeast 8 f.b || nz f.e) do
      some (.jwait h ⟨← dst true 1 f.d, ← src true 1 f.a, qb⟩)
  | 0x0D => gate f .group false true (m != 0 || nz f.d || nz f.a || nz f.b || nz f.e) (some (.jyield h))
  | _ => .error .illegalOpcode

/-- Class 0x6 (R232). -/
def decodeC6 (f : Fields) (idx : Nat) : Except DecodeFault Instr :=
  let h := f.hdr; let u := f.u; let m := f.m.toNat
  let mem (tys : List Ty) (load wide : Bool) (mk : MemArgs → Instr) :=
    gate f .both (accept tys m).isNone true false do
      let ty ← accept tys m
      some (mk ⟨ty, ← (if load then dst u ty.regs f.d else src u ty.regs f.d),
        ← (if wide then addrBase u f.a else src u 1 f.a), ← src u 1 f.b, f.e⟩)
  let tile (load : Bool) (mk : TileArgs → Instr) :=
    gate f .lane (accept memTys m).isNone true (atLeast 64 f.a) do
      let ty ← accept memTys m
      some (mk ⟨ty, ← (if load then dst u ty.regs f.d else src u ty.regs f.d), f.a.setWidth 6, ← src u 1 f.b, f.e⟩)
  match idx with
  | 0x00 => mem memTys true true (.ld h)
  | 0x01 => mem memTys false true (.st h)
  | 0x02 => mem memTys true false (.lds h)
  | 0x03 => mem memTys false false (.sts h)
  | 0x04 => tile true (.ldt h)
  | 0x05 => tile false (.stt h)
  | 0x06 => mem wideIntTys true true (.lda h)
  | 0x07 => mem wideIntTys false true (.strl h)
  | 0x08 =>
      let res := nz f.d || nz f.a || nz f.b || nz f.e
      match m with
      | 0 => gate f .group false true res (some (.fenceAcq h))
      | 1 => gate f .group false true res (some (.fenceRel h))
      | 2 => gate f .group false true res (some (.fenceAcqrel h))
      | _ => gate f .group false true true none
  | 0x09 =>
      let c := cmpOf (m % 8); let wide := f.m.getLsbD 3; let k := if wide then 2 else 1
      gate f .group false true c.isNone do
        some (.waitv h ⟨← dst true k f.d, ← gsrc 2 126 f.a, ← src true k f.b, ← c, wide, f.e⟩)
  | 0x0A =>
      let res := nz f.b || nz (f.x 20 27)
      match m with
      | 0 => gate f .group false true res do some (.presTest h ⟨← dst true 1 f.d, ← src true 1 f.a, f.x 15 5⟩)
      | 1 => gate f .group false true (nz f.d || res) do some (.presSet h ⟨← src true 1 f.a, f.x 15 5⟩)
      | 2 => gate f .group false true (nz f.d || res) do some (.presClr h ⟨← src true 1 f.a, f.x 15 5⟩)
      | 3 => gate f .group false true (nz f.d || res) do some (.presWait h ⟨← src true 1 f.a, f.x 15 5⟩)
      | _ => gate f .group false true true none
  | 0x0B => gate f .group false true (m != 0 || nz f.d || nz f.a || nz f.b || nz f.e) (some (.ifence h))
  | _ => .error .illegalOpcode

/-- Class 0x7 (R273). -/
def decodeC7 (f : Fields) (idx : Nat) : Except DecodeFault Instr :=
  let h := f.hdr; let u := f.u; let m := f.m.toNat
  let op := aopOf (f.x 28 3); let acq := f.bit 27; let rel := f.bit 26; let pad := f.bit 25
  let c := f.x 15 10; let off := f.x 31 16
  let cas (k : Nat) : Option Opnd := if op = .cas then src u k c else some (opnd0 u)
  let noC := op ≠ .cas && nz c
  match idx with
  | 0x00 => gate f .both (accept wideIntTys m).isNone true (pad || noC) do
      let ty ← accept wideIntTys m
      some (.atom h ⟨ty, ← dst u ty.regs f.d, ← addrBase u f.a, ← src u ty.regs f.b, op, acq, rel, ← cas ty.regs, off⟩)
  | 0x01 => gate f .both (m != 8) true (nz f.d || nz (f.x 15 16)) do
      some (.atomf h ⟨← addrBase u f.a, ← src u 1 f.b, off⟩)
  | 0x02 => gate f .both (m != 3) true (pad || nz c) do
      some (.atomp h ⟨← dst u 2 f.d, ← addrBase u f.a, ← src u 2 f.b, f.x 28 3, acq, rel, off⟩)
  | 0x03 => gate f .both (accept wideIntTys m).isNone true (pad || acq || rel || noC) do
      let ty ← accept wideIntTys m
      some (.atoms h ⟨ty, ← dst u ty.regs f.d, ← src u 1 f.a, ← src u ty.regs f.b, op, ← cas ty.regs, off⟩)
  | 0x04 => gate f .both (accept wideIntTys m).isNone true
      (nz f.d || pad || acq || rel || nz c || op = .exch || op = .cas) do
        let ty ← accept wideIntTys m
        some (.red h ⟨ty, ← addrBase u f.a, ← src u ty.regs f.b, op, off⟩)
  | 0x05 => gate f .group false true (m != 0 || nz f.d || nz (f.x 15 16)) do
      some (.rseal h ⟨← src true 2 f.a, ← src true 1 f.b, off⟩)
  | _ => .error .illegalOpcode

/-- Class 0x8 (R309, R310). -/
def decodeC8 (f : Fields) (idx : Nat) : Except DecodeFault Instr :=
  let h := f.hdr; let m := f.m.toNat
  let hd := f.d.setWidth 6; let ha := f.a.setWidth 6; let q := f.b.setWidth 3
  let cr : Credit := ⟨f.x 25 5, f.bit 30, f.bit 31⟩
  let badCr := f.bit 31 && !f.bit 30
  let pad := nz (f.x 41 6) || f.bit 36
  let side : Option TSide := match m with
    | 0 => some (.handle hd)
    | 1 => (src true 1 f.d).map .scratch
    | _ => (src true 1 f.d).map (.slot (f.x 32 4))
  let engine := 2 < m || (m == 0 && atLeast 64 f.d) || (m != 2 && nz (f.x 32 4)) || badCr || nz (f.x 15 10) || pad
  match idx with
  | 0x00 => gate f .group false true (m != 0 || atLeast 64 f.d || atLeast 8 f.b || nz f.e) do
      some (.talloc h ⟨hd, ← gsrc 4 124 f.a, q⟩)
  | 0x01 => gate f .group false true (m != 0 || atLeast 64 f.d || atLeast 8 f.b || nz (f.x 31 16) || nz (f.x 15 10)) do
      some (.thand h ⟨hd, ← src true 1 f.a, q, f.x 25 6⟩)
  | 0x02 => gate f .group false true (m != 0 || atLeast 64 f.d || nz f.a || nz f.b || nz f.e) (some (.trel h ⟨hd⟩))
  | 0x03 => gate f .group false true (m != 0 || atLeast 64 f.a || nz f.b || nz f.e) do
      some (.tinfo h ⟨← gsrc 4 124 f.d, ha⟩)
  | 0x04 => gate f .group false true (engine || nz (f.x 37 4)) do
      some (.tstage h ⟨← side, ← gsrc 2 126 f.a, ← src true 1 f.b, cr⟩)
  | 0x05 =>
      let r := rmOf (f.x 37 3).toNat
      gate f .group false true (engine || r.isNone) do
        some (.tdrain h ⟨← side, ← gsrc 2 126 f.a, ← src true 1 f.b, cr, ← r, f.bit 40⟩)
  | 0x06 => gate f .group false true
      (1 < m || f.bit 31 || nz (f.x 32 4) || nz (f.x 37 4) || pad || (m == 0 && nz (f.x 15 10))) do
        some (.tcopy h ⟨← gsrc 2 126 f.d, ← gsrc 2 126 f.a, ← src true 1 f.b,
          ← (if m == 0 then some none else (src true 1 (f.x 15 10)).map some), ⟨f.x 25 5, f.bit 30, false⟩⟩)
  | 0x07 =>
      if m == 1 then gate f .group false true (atLeast 16 f.d || nz f.a || atLeast 8 f.b || nz f.e)
        (some (.ringdefClr h ⟨f.d.setWidth 4, q⟩))
      else gate f .group false true (m != 0 || atLeast 16 f.d || atLeast 8 f.b || nz f.e) do
        some (.ringdefDef h ⟨f.d.setWidth 4, ← gsrc 4 124 f.a, q⟩)
  | 0x08 =>
      let res := nz f.d || atLeast 16 f.a || nz f.e
      if m == 1 then gate f .group false true res do some (.slotwaitEmpty h ⟨f.a.setWidth 4, ← src true 1 f.b⟩)
      else gate f .group false true (m != 0 || res) do some (.slotwaitFull h ⟨f.a.setWidth 4, ← src true 1 f.b⟩)
  | 0x09 =>
      let res := nz f.d || atLeast 16 f.a || nz f.e
      if m == 1 then gate f .group false true res do some (.slotsigEmpty h ⟨f.a.setWidth 4, ← src true 1 f.b⟩)
      else gate f .group false true (m != 0 || res) do some (.slotsigFull h ⟨f.a.setWidth 4, ← src true 1 f.b⟩)
  | 0x0A =>
      let c : BitVec 5 := f.a.setWidth 5
      match m with
      | 0 => gate f .group false true (atLeast 32 f.a || nz f.b || nz f.e) do some (.acntGet h ⟨← dst true 1 f.d, c⟩)
      | 1 => gate f .group false true (nz f.d || atLeast 32 f.a || nz f.e) do some (.acntSet h ⟨c, ← src true 1 f.b⟩)
      | 2 => gate f .group false true (nz f.d || atLeast 32 f.a || nz f.e) do some (.acntAdd h ⟨c, ← src true 1 f.b⟩)
      | 3 => gate f .group false true (nz f.d || atLeast 32 f.a || nz f.e) do some (.acntWaitge h ⟨c, ← src true 1 f.b⟩)
      | _ => gate f .group false true true none
  | _ => .error .illegalOpcode

/-- Class 0x9 (R339, R341). -/
def decodeC9 (f : Fields) (idx : Nat) : Except DecodeFault Instr :=
  let h := f.hdr; let m := f.m.toNat
  let hd := f.d.setWidth 6; let ha := f.a.setWidth 6
  let sg : Sign := ⟨f.bit 32, f.x 33 4⟩
  let noSign := nz (f.x 37 10) || nz (f.x 15 17)
  let mma : Option MmaArgs := do
    some ⟨hd, ha, ← src true 1 f.b, ← gsrc 2 126 (f.x 15 10), f.x 25 5, f.bit 30, sg⟩
  match idx with
  | 0x00 =>
      if m == 1 then gate f .group false true (nz f.d || atLeast 8 f.b || nz f.e) do
        some (.mleaseTry h ⟨← src true 1 f.a, f.b.setWidth 3⟩)
      else gate f .group false true (m != 0 || nz f.d || nz f.b || nz f.e) do some (.mlease h ⟨← src true 1 f.a⟩)
  | 0x01 => gate f .group false true (m != 0 || nz f.d || nz f.a || nz f.b || nz f.e) (some (.mrel h))
  | 0x02 => gate f .group false true (m != 0 || nz f.d || atLeast 64 f.a || noSign) do
      some (.mldw h ⟨ha, ← src true 1 f.b, sg⟩)
  | 0x03 => gate f .group false true (m != 0 || nz f.d || nz f.a || nz f.b || noSign) (some (.mflip h ⟨sg⟩))
  | 0x04 => gate f .group false true (m != 0 || atLeast 64 f.d || atLeast 64 f.a || nz (f.x 37 10) || f.bit 31) do
      some (.mma h (← mma))
  | 0x05 => gate f .group false true (m != 0 || atLeast 64 f.d || atLeast 64 f.a || nz (f.x 41 6) || f.bit 31) do
      some (.mmas h ⟨← mma, f.x 37 2, f.x 39 2⟩)
  | 0x06 => gate f .group false true (m != 0 || atLeast 64 f.d || noSign) do
      some (.macz h ⟨hd, ← src true 1 f.a, ← src true 1 f.b, sg⟩)
  | 0x07 =>
      let r := rmOf (f.x 25 3).toNat
      if f.bit 29 then gate f .group false true
          (m != 0 || atLeast 640 f.d || atLeast 64 f.a || nz f.b || r.isNone || nz (f.x 30 17)) do
        some (.macrV h ⟨f.d, ha, ← gsrc 4 124 (f.x 15 10), ← r, f.bit 28⟩)
      else gate f .group false true
          (m != 0 || atLeast 64 f.d || atLeast 64 f.a || nz f.b || r.isNone || nz (f.x 30 2) || nz (f.x 37 10)) do
        some (.macr h ⟨hd, ha, ← gsrc 4 124 (f.x 15 10), ← r, f.bit 28, sg⟩)
  | 0x08 =>
      let t := f.m.getLsbD 1
      gate f .group (h.hint ≠ Hint.plain) true
        (3 < m || nz f.d || (if t then atLeast 32 f.a else nz f.a || nz f.b) || nz f.e) do
          some (.mq h ⟨f.m.getLsbD 0, ← (if t then (src true 1 f.b).map (fun v => some (f.a.setWidth 5, v))
            else some none)⟩)
  | 0x09 => gate f .group false true (m != 0 || nz f.d || nz f.b || nz f.e) do some (.mqwait h ⟨← src true 1 f.a⟩)
  | _ => .error .illegalOpcode

/-- Class 0xA (R362). -/
def decodeCA (f : Fields) (idx : Nat) : Except DecodeFault Instr :=
  let h := f.hdr; let m := f.m.toNat
  let cr : Credit := ⟨f.x 25 5, f.bit 30, f.bit 31⟩
  let pad := nz (f.x 32 15) || nz (f.x 15 10)
  match idx with
  | 0x00 =>
      let res := nz f.d || nz f.e
      if m == 1 then gate f .group false true res do some (.psumRebuild h ⟨← gsrc 4 124 f.a, ← src true 1 f.b⟩)
      else gate f .group false true (m != 0 || res) do some (.psumClr h ⟨← gsrc 4 124 f.a, ← src true 1 f.b⟩)
  | 0x01 => gate f .group false true (m != 0 || pad || f.bit 31) do
      some (.psel h ⟨← src true 1 f.d, ← gsrc 8 120 f.a, ← src true 1 f.b, cr⟩)
  | 0x02 => gate f .group false true (m != 0 || atLeast 64 f.d || pad || (f.bit 31 && !f.bit 30)) do
      some (.pgath h ⟨f.d.setWidth 6, ← gsrc 4 124 f.a, ← src true 1 f.b, cr⟩)
  | 0x03 => gate f .group false true (1 < m || (m == 0 && atLeast 64 f.d) || pad || f.bit 31) do
      some (.gathl h ⟨← (if m == 0 then some (.handle (f.d.setWidth 6)) else (src true 1 f.d).map .scratch),
        ← gsrc 4 124 f.a, ← src true 1 f.b, cr⟩)
  | 0x04 => gate f .group false true (3 < m || pad || f.bit 31) do
      let mode : SMode := match m with | 0 => .plain | 1 => .addN32 | 2 => .addN64 | _ => .addF32
      some (.scatl h ⟨← src true 1 f.d, ← gsrc 4 124 f.a, ← src true 1 f.b, mode, cr⟩)
  | _ => .error .illegalOpcode

/-- Class 0xB (R386). -/
def decodeCB (p : Privs) (f : Fields) (idx : Nat) : Except DecodeFault Instr :=
  let h := f.hdr; let m := f.m.toNat
  let none4 := nz f.d || nz f.a || nz f.b || nz f.e
  let code := nz f.d || nz f.a || nz f.b || m != 0 || nz (f.x 23 24)
  let reg : BitVec 12 := f.x 15 12
  match idx with
  | 0x00 => gate f .group false true code (some (.trap h ⟨f.x 15 8⟩))
  | 0x01 =>
      match m with
      | 0 => gate f .group false p.trap none4 (some (.tretResume h))
      | 1 => gate f .group false p.trap none4 (some (.tretSkip h))
      | 2 => gate f .group false p.trap none4 (some (.tretEscalate h))
      | _ => gate f .group false p.trap true none
  | 0x02 => gate f .group false p.trap (m != 0 || none4) (some (.tkill h))
  | 0x03 => gate f .group false true code (some (.bkpt h ⟨f.x 15 8⟩))
  | 0x04 =>
      let res := nz (f.x 27 20) || !swrListed reg.toNat
      if m == 1 then gate f .group false p.ctx (nz f.a || res) do
        some (.swrRead h ⟨← dst true 2 f.d, ← src true 1 f.b, reg⟩)
      else gate f .group false p.ctx (m != 0 || nz f.d || res) do
        some (.swrWrite h ⟨.g (← gsrc 2 126 f.a), ← src true 1 f.b, reg⟩)
  | 0x05 => gate f .group false true (m != 0 || nz f.a || nz f.b || nz f.e) do some (.time h ⟨← dst true 2 f.d⟩)
  | 0x06 => gate f .group false true (m != 0 || nz f.d || atLeast 8 f.b || nz f.e) do
      some (.dbgsig h ⟨← src true 1 f.a, f.b.setWidth 3⟩)
  | 0x07 => gate f .group false p.ctx (m != 0 || nz f.d || atLeast 8 f.b || nz f.e) do
      some (.ctxsave h ⟨← src true 1 f.a, f.b.setWidth 3⟩)
  | 0x08 => gate f .group false p.ctx (m != 0 || nz f.d || atLeast 8 f.b || nz f.e) do
      some (.ctxload h ⟨← src true 1 f.a, f.b.setWidth 3⟩)
  | _ => .error .illegalOpcode

/-- The decoder on fields: OPCODE[9:6] is the class (R45). -/
def decodeFields (p : Privs) (f : Fields) : Except DecodeFault Instr :=
  let idx := f.op.toNat % 64
  match f.op.toNat / 64 with
  | 0x0 => decodeC0 f idx
  | 0x1 => decodeC1 f idx
  | 0x2 => decodeC2 f idx
  | 0x3 => decodeC3 f idx
  | 0x4 => decodeC4 f idx
  | 0x5 => decodeC5 f idx
  | 0x6 => decodeC6 f idx
  | 0x7 => decodeC7 f idx
  | 0x8 => decodeC8 f idx
  | 0x9 => decodeC9 f idx
  | 0xA => decodeCA f idx
  | 0xB => decodeCB p f idx
  | _ => .error .illegalOpcode

/-- The decoder: a slot's word, and what its task may use. -/
def decode (p : Privs) (w : SlotWord) : Except DecodeFault Instr := decodeFields p (fieldsOf w)

/-! ### The encoder, from the same tables -/

/-- The fields of an instruction of opcode `op`, by operand field. -/
def Fields.mk0 (op : Nat) (h : Hdr) (d a b : BitVec 10) (m : Nat) (e : BitVec 32) : Fields :=
  ⟨BitVec.ofNat 10 op, h, d, a, b, BitVec.ofNat 4 m, e⟩

def b1 (b : Bool) : BitVec 1 := BitVec.ofBool b

/-- EXT of class 0x1: SAT, INVB, carry predicate, CO, and C in [24:15]. -/
def extInt (sat invb : Bool) (pk : BitVec 3) (co : Bool) (c : BitVec 10) : BitVec 32 :=
  0#16 ++ b1 sat ++ b1 invb ++ pk ++ b1 co ++ c

/-- Common EXT fields of class 0x2. -/
def extF (absb absa negc negb nega : Bool) (rm : Nat) (c : BitVec 10) : BitVec 32 :=
  0#14 ++ b1 absb ++ b1 absa ++ b1 negc ++ b1 negb ++ b1 nega ++ BitVec.ofNat 3 rm ++ c

/-- EXT of class 0x3: SEL, SF, DF. -/
def extCvt (sl sf df : Nat) : BitVec 32 :=
  0#9 ++ BitVec.ofNat 3 sl ++ BitVec.ofNat 5 sf ++ BitVec.ofNat 5 df ++ 0#10

/-- MOD of class 0x3: SAT and the rounding mode. -/
def modCvt (rm : RM) (sat : Bool) : Nat := rm.code + (if sat then 8 else 0)

/-- EXT of class 0x7. -/
def extAtom (off : BitVec 16) (op : BitVec 3) (acq rel : Bool) (c : BitVec 10) : BitVec 32 :=
  off ++ op ++ b1 acq ++ b1 rel ++ 0#1 ++ c

/-- Engine fields of R310. -/
def extEng (sat : Bool) (rm : Nat) (ring : BitVec 4) (cr : Credit) (c : BitVec 10) : BitVec 32 :=
  0#6 ++ b1 sat ++ BitVec.ofNat 3 rm ++ 0#1 ++ ring ++ b1 cr.crows ++ b1 cr.cen ++ cr.cnt ++ c

/-- Sign fields of R339 over EXT[31:15]. -/
def extSign (hi : BitVec 10) (sg : Sign) (lo : BitVec 17) : BitVec 32 := hi ++ sg.cv ++ b1 sg.sign ++ lo

def extMma (hi : BitVec 10) (a : MmaArgs) : BitVec 32 :=
  extSign hi a.sg (0#1 ++ b1 a.dyn ++ a.cnt ++ (a.par.setWidth 10 : BitVec 10))

def sideCode : TSide → BitVec 10
  | .handle h => h.setWidth 10
  | .scratch a => a.code true
  | .slot _ a => a.code true

def sideKind : TSide → Nat
  | .handle _ => 0
  | .scratch _ => 1
  | .slot _ _ => 2

def sideRing : TSide → BitVec 4
  | .slot r _ => r
  | .handle _ | .scratch _ => 0

/-- The C field of an atomic: zero unless CAS. -/
def casCode (u : Bool) (op : AOp) (c : Opnd) : BitVec 10 := if op = .cas then c.code u else 0

def encFArgs (op : Nat) (h : Hdr) (a : FArgs) : Fields :=
  .mk0 op h (a.d.code h.u) (a.a.code h.u) (a.b.code h.u) a.ty.code (extF a.absb a.absa false a.negb a.nega a.rm.code 0)

def encFmaArgs (op : Nat) (h : Hdr) (a : FmaArgs) : Fields :=
  .mk0 op h (a.d.code h.u) (a.a.code h.u) (a.b.code h.u) a.ty.code
    (extF a.absb a.absa a.negc a.negb a.nega a.rm.code (a.c.code h.u))

def encDAB (op : Nat) (h : Hdr) (ty : Ty) (d a b : Opnd) (e : BitVec 32) : Fields :=
  .mk0 op h (d.code h.u) (a.code h.u) (b.code h.u) ty.code e

def encMem (op : Nat) (h : Hdr) (a : MemArgs) : Fields := encDAB op h a.ty a.d a.base a.idx a.off

def encTile (op : Nat) (h : Hdr) (a : TileArgs) : Fields :=
  .mk0 op h (a.d.code h.u) (a.h.setWidth 10) (a.idx.code h.u) a.ty.code a.off

/-- A group-wide instruction with operand fields given as codes. -/
def encG (op : Nat) (h : Hdr) (d a b : BitVec 10) (m : Nat) (e : BitVec 32 := 0) : Fields := .mk0 op h d a b m e

def gc (o : Opnd) : BitVec 10 := o.code true
def g7 (n : BitVec 7) : BitVec 10 := n.setWidth 10
def q3 (n : BitVec 3) : BitVec 10 := n.setWidth 10
def h6 (n : BitVec 6) : BitVec 10 := n.setWidth 10

/-- The fields of a well-formed instruction; none for an event. -/
def encodeFields : Instr → Option Fields
  | .mov h a => some (.mk0 0x000 h (a.d.code h.u) (a.a.code h.u) 0 a.ty.code 0)
  | .movi h a => some (.mk0 0x001 h (a.d.code h.u) 0 0 a.ty.code a.imm)
  | .movxSet h a => some (.mk0 0x002 h (q3 a.x) (a.a.code h.u) 0 0 0)
  | .movxOff h a => some (.mk0 0x002 h (q3 a.x) (a.a.code h.u) 0 1 0)
  | .movxAdd h a => some (.mk0 0x002 h (q3 a.x) (a.a.code h.u) 0 2 0)
  | .movxGet h a => some (.mk0 0x002 h (a.d.code h.u) (q3 a.x) 0 3 0)
  | .shfl h a => some (.mk0 0x003 h (a.d.code h.u) (a.a.code h.u) (a.b.code h.u)
      (match a.mode with | .idx => 0 | .up => 1 | .down => 2 | .xor => 3) 0)
  | .vote h a =>
      let e : BitVec 32 := 0#31 ++ b1 a.neg
      some (match a.dst with
        | .all p => .mk0 0x004 h (q3 p) (q3 a.src) 0 0 e
        | .any p => .mk0 0x004 h (q3 p) (q3 a.src) 0 1 e
        | .uni p => .mk0 0x004 h (q3 p) (q3 a.src) 0 2 e
        | .ballot d => .mk0 0x004 h (d.code h.u) (q3 a.src) 0 3 e)
  | .rdlane h a => some (.mk0 0x005 h (a.d.code h.u) a.v (a.lane.code h.u) 2 0)
  | .srd h a => some (.mk0 0x006 h (a.d.code h.u) (BitVec.ofNat 10 a.sr.code) 0 (if a.sr = .time then 3 else 2) 0)
  | .rclaim h a => some (encG 0x007 h 0 (gc a.n) 0 0)
  | .rgive h a => some (encG 0x008 h 0 (gc a.n) 0 0)
  | .iadd h a => some (encDAB 0x040 h a.ty a.d a.a a.b (extInt a.sat false a.pk a.co 0))
  | .iaddc h a => some (encDAB 0x041 h a.ty a.d a.a a.b (extInt false a.invb a.pk a.co 0))
  | .isub h a => some (encDAB 0x042 h a.ty a.d a.a a.b (extInt a.sat false a.pk a.co 0))
  | .imad h a => some (encDAB 0x043 h a.ty a.d a.a a.b (extInt false false 0 a.wide (a.c.code h.u)))
  | .imulh h a => some (encDAB 0x044 h a.ty a.d a.a a.b 0)
  | .imnmx h a => some (encDAB 0x045 h a.ty a.d a.a a.b (extInt false false 0 a.max 0))
  | .iabs h a => some (.mk0 0x046 h (a.d.code h.u) (a.a.code h.u) 0 a.ty.code (extInt a.sat false 0 false 0))
  | .log3 h a => some (encDAB 0x047 h a.ty a.d a.a a.b (0#14 ++ a.lut ++ a.c.code h.u))
  | .shf h a => some (.mk0 0x048 h (a.d.code h.u) (a.a.code h.u) (a.b.code h.u) 2
      (0#20 ++ b1 a.wrap ++ b1 a.left ++ a.c.code h.u))
  | .shl h a => some (encDAB 0x049 h a.ty a.d a.a a.b (0#20 ++ b1 a.wrap ++ 0#11))
  | .shr h a => some (encDAB 0x04A h a.ty a.d a.a a.b (0#20 ++ b1 a.wrap ++ 0#11))
  | .bfx h a => some (encDAB 0x04B h a.ty a.d a.a a.b 0)
  | .bfi h a => some (encDAB 0x04C h a.ty a.d a.a a.b (0#22 ++ a.c.code h.u))
  | .popc h a => some (.mk0 0x04D h (a.d.code h.u) (a.a.code h.u) 0 a.ty.code 0)
  | .clz h a => some (.mk0 0x04E h (a.d.code h.u) (a.a.code h.u) 0 a.ty.code 0)
  | .brev h a => some (.mk0 0x04F h (a.d.code h.u) (a.a.code h.u) 0 a.ty.code 0)
  | .isetp h a => some (.mk0 0x050 h (q3 a.pd) (a.a.code h.u) (a.b.code h.u) a.ty.code
      (0#13 ++ b1 a.neg ++ BitVec.ofNat 2 a.op.code ++ a.comb ++ BitVec.ofNat 3 a.cmp.code ++ 0#10))
  | .sel h a => some (encDAB 0x051 h a.ty a.d a.a a.b (0#17 ++ b1 a.neg ++ a.p ++ 0#11))
  | .lea h a => some (.mk0 0x052 h (a.d.code h.u) (a.a.code h.u) (a.b.code h.u) 3
      (0#18 ++ b1 a.nat ++ a.shift ++ 0#10))
  | .fadd h a => some (encFArgs 0x080 h a)
  | .fmul h a => some (encFArgs 0x081 h a)
  | .ffma h a => some (encFmaArgs 0x082 h a)
  | .fmnmx h a => some (encDAB 0x083 h a.ty a.d a.a a.b
      (0#14 ++ b1 a.absb ++ b1 a.absa ++ 0#1 ++ b1 a.negb ++ b1 a.nega ++ 0#1 ++ b1 a.prop ++ b1 a.max ++ 0#10))
  | .fsetp h a => some (.mk0 0x084 h (q3 a.pd) (a.a.code h.u) (a.b.code h.u) a.ty.code
      (0#9 ++ b1 a.absb ++ b1 a.absa ++ b1 a.neg ++ BitVec.ofNat 2 a.op.code ++ a.comb ++ 0#1 ++
        BitVec.ofNat 4 a.cmp.code ++ 0#10))
  | .fmf h a => some (.mk0 0x085 h (a.d.code h.u) (a.a.code h.u) 0 8
      (0#15 ++ b1 a.absa ++ 0#2 ++ b1 a.nega ++ BitVec.ofNat 3 a.fn.code ++ 0#10))
  | .fcls h a => some (.mk0 0x086 h (a.d.code h.u) (a.a.code h.u) 0 a.ty.code 0)
  | .hfma2 h a => some (encFmaArgs 0x087 h a)
  | .hadd2 h a => some (encFArgs 0x088 h a)
  | .hmul2 h a => some (encFArgs 0x089 h a)
  | .dadd h a => some (encFArgs 0x08A h a)
  | .dmul h a => some (encFArgs 0x08B h a)
  | .dfma h a => some (encFmaArgs 0x08C h a)
  | .tfenceCheck h => some (encG 0x08D h 0 0 0 0)
  | .tfenceGet h a => some (encG 0x08D h (gc a.d) 0 0 1)
  | .tfencePut h a => some (encG 0x08D h 0 (gc a.a) 0 2)
  | .tfenceClear h a => some (encG 0x08D h 0 (gc a.a) 0 3)
  | .cvt h a => some (.mk0 0x0C0 h (a.d.code h.u) (a.a.code h.u) 0 (modCvt a.rm a.sat) (extCvt 0 a.sf.code a.df.code))
  | .cvtn h a => some (.mk0 0x0C1 h (a.d.code h.u) (a.a.code h.u) 0 (modCvt a.rm a.sat) (extCvt 0 0 a.df.code))
  | .pkn h a => some (.mk0 0x0C2 h (a.d.code h.u) (a.a.code h.u) (a.b.code h.u) (modCvt a.rm a.sat)
      (extCvt a.k.toNat 0 a.df.code))
  | .unpk h a => some (.mk0 0x0C3 h (a.d.code h.u) (a.a.code h.u) 0 0 (extCvt a.k.toNat a.sf.code 0))
  | .qsclFind h a => some (.mk0 0x0C4 h (a.d.code h.u) (a.a.code h.u) 0 0 (extCvt 0 a.sf.code a.df.code))
  | .qsclDiv h a => some (.mk0 0x0C4 h (a.d.code h.u) (a.a.code h.u) (a.b.code h.u) (modCvt a.rm a.sat)
      (extCvt 1 a.sf.code 0))
  | .qsclMul h a => some (.mk0 0x0C4 h (a.d.code h.u) (a.a.code h.u) (a.b.code h.u) (modCvt a.rm a.sat)
      (extCvt 2 a.sf.code 0))
  | .cbdec h a => some (.mk0 0x0C5 h (a.d.code h.u) (a.a.code h.u) (a.b.code h.u) 0
      (match a.half with | none => extCvt 0 0 0x06 | some k => extCvt k.toNat 0 0x0B))
  | .bra h a => some (.mk0 0x100 h 0 0 0 a.all.toNat a.off)
  | .brx h a => some (encG 0x101 h 0 (gc a.a) 0 0)
  | .call h a => some (encG 0x102 h (gc a.d) 0 0 0 a.off)
  | .callX h a => some (encG 0x102 h (gc a.d) (gc a.a) 0 1)
  | .ret h a => some (encG 0x103 h 0 (gc a.a) 0 0)
  | .split h a => some (encG 0x104 h (g7 a.m) (q3 a.p) 0 a.neg.toNat a.off)
  | .elseI h a => some (encG 0x105 h (g7 a.m) 0 0 0 a.off)
  | .rejoin h a => some (encG 0x106 h (g7 a.m) 0 0 0)
  | .exitI h => some (encG 0x107 h 0 0 0 0)
  | .loopn h a => some (encG 0x108 h (gc a.m) 0 0 0 a.off)
  | .yieldI h => some (encG 0x109 h 0 0 0 0)
  | .nop h => some (encG 0x10A h 0 0 0 0)
  | .spawn h a => some (encG 0x140 h (q3 a.q) (g7 a.base) 0 0)
  | .spawnT h a => some (encG 0x140 h (q3 a.q) (g7 a.base) (gc a.n) 1)
  | .spawnr h a => some (encG 0x141 h (q3 a.q) (g7 a.base) (gc a.n) 0)
  | .spawng h a => some (encG 0x142 h (q3 a.q) (g7 a.base) (g7 a.gate) a.cmp.code
      (0#20 ++ b1 a.consume ++ b1 a.signed ++ 0#10))
  | .join h a => some (encG 0x143 h (gc a.d) (gc a.a) 0 a.keep.toNat)
  | .poll h a => some (encG 0x144 h (gc a.d) (gc a.a) (q3 a.q) 0)
  | .futnewNew h a => some (encG 0x145 h (gc a.d) 0 (q3 a.q) 0)
  | .futnewFree h a => some (encG 0x145 h 0 (gc a.a) 0 1)
  | .fulfil h a => some (encG 0x146 h 0 (gc a.a) (gc a.b) 0)
  | .tend h => some (encG 0x147 h 0 0 0 0)
  | .tendV h a => some (encG 0x147 h 0 (gc a.a) 0 1)
  | .tself h a => some (encG 0x148 h (gc a.d) 0 0 a.w.toNat)
  | .deqd h a => some (encG 0x149 h (gc a.d) 0 0 0)
  | .cvset h a => some (encG 0x14A h (a.c.setWidth 10) 0 0 a.n.toNat)
  | .jlaunch h a => some (encG 0x14B h (gc a.d) (g7 a.a) (q3 a.q) 0)
  | .jwait h a => some (encG 0x14C h (gc a.d) (gc a.a) (q3 a.q) 0)
  | .jyield h => some (encG 0x14D h 0 0 0 0)
  | .ld h a => some (encMem 0x180 h a)
  | .st h a => some (encMem 0x181 h a)
  | .lds h a => some (encMem 0x182 h a)
  | .sts h a => some (encMem 0x183 h a)
  | .ldt h a => some (encTile 0x184 h a)
  | .stt h a => some (encTile 0x185 h a)
  | .lda h a => some (encMem 0x186 h a)
  | .strl h a => some (encMem 0x187 h a)
  | .fenceAcq h => some (encG 0x188 h 0 0 0 0)
  | .fenceRel h => some (encG 0x188 h 0 0 0 1)
  | .fenceAcqrel h => some (encG 0x188 h 0 0 0 2)
  | .waitv h a => some (encG 0x189 h (gc a.d) (g7 a.base) (gc a.c) (a.cmp.code + (if a.wide then 8 else 0)) a.off)
  | .presTest h a => some (encG 0x18A h (gc a.d) (gc a.a) 0 0 (0#27 ++ a.n))
  | .presSet h a => some (encG 0x18A h 0 (gc a.a) 0 1 (0#27 ++ a.n))
  | .presClr h a => some (encG 0x18A h 0 (gc a.a) 0 2 (0#27 ++ a.n))
  | .presWait h a => some (encG 0x18A h 0 (gc a.a) 0 3 (0#27 ++ a.n))
  | .ifence h => some (encG 0x18B h 0 0 0 0)
  | .atom h a => some (encDAB 0x1C0 h a.ty a.d a.base a.b (extAtom a.off a.op.code a.acq a.rel (casCode h.u a.op a.c)))
  | .atomf h a => some (.mk0 0x1C1 h 0 (a.base.code h.u) (a.b.code h.u) 8 (extAtom a.off 0 false false 0))
  | .atomp h a => some (.mk0 0x1C2 h (a.d.code h.u) (a.base.code h.u) (a.b.code h.u) 3
      (extAtom a.off a.p a.acq a.rel 0))
  | .atoms h a => some (encDAB 0x1C3 h a.ty a.d a.base a.b
      (extAtom a.off a.op.code false false (casCode h.u a.op a.c)))
  | .red h a => some (.mk0 0x1C4 h 0 (a.base.code h.u) (a.b.code h.u) a.ty.code (extAtom a.off a.op.code false false 0))
  | .rseal h a => some (encG 0x1C5 h 0 (gc a.base) (gc a.n) 0 (extAtom a.off 0 false false 0))
  | .talloc h a => some (encG 0x200 h (h6 a.h) (g7 a.base) (q3 a.q) 0)
  | .thand h a => some (encG 0x201 h (h6 a.h) (gc a.m) (q3 a.q) 0 (0#16 ++ a.n ++ 0#10))
  | .trel h a => some (encG 0x202 h (h6 a.h) 0 0 0)
  | .tinfo h a => some (encG 0x203 h (g7 a.base) (h6 a.h) 0 0)
  | .tstage h a => some (encG 0x204 h (sideCode a.side) (g7 a.addr) (gc a.layout) (sideKind a.side)
      (extEng false 0 (sideRing a.side) a.cr 0))
  | .tdrain h a => some (encG 0x205 h (sideCode a.side) (g7 a.addr) (gc a.layout) (sideKind a.side)
      (extEng a.sat a.rm.code (sideRing a.side) a.cr 0))
  | .tcopy h a => some (encG 0x206 h (g7 a.dst) (g7 a.src) (gc a.len) a.node.isSome.toNat
      (extEng false 0 0 a.cr (match a.node with | some n => gc n | none => 0)))
  | .ringdefDef h a => some (encG 0x207 h (a.ring.setWidth 10) (g7 a.base) (q3 a.q) 0)
  | .ringdefClr h a => some (encG 0x207 h (a.ring.setWidth 10) 0 (q3 a.q) 1)
  | .slotwaitFull h a => some (encG 0x208 h 0 (a.ring.setWidth 10) (gc a.slot) 0)
  | .slotwaitEmpty h a => some (encG 0x208 h 0 (a.ring.setWidth 10) (gc a.slot) 1)
  | .slotsigFull h a => some (encG 0x209 h 0 (a.ring.setWidth 10) (gc a.slot) 0)
  | .slotsigEmpty h a => some (encG 0x209 h 0 (a.ring.setWidth 10) (gc a.slot) 1)
  | .acntGet h a => some (encG 0x20A h (gc a.d) (a.c.setWidth 10) 0 0)
  | .acntSet h a => some (encG 0x20A h 0 (a.c.setWidth 10) (gc a.v) 1)
  | .acntAdd h a => some (encG 0x20A h 0 (a.c.setWidth 10) (gc a.v) 2)
  | .acntWaitge h a => some (encG 0x20A h 0 (a.c.setWidth 10) (gc a.v) 3)
  | .mlease h a => some (encG 0x240 h 0 (gc a.a) 0 0)
  | .mleaseTry h a => some (encG 0x240 h 0 (gc a.a) (q3 a.q) 1)
  | .mrel h => some (encG 0x241 h 0 0 0 0)
  | .mldw h a => some (encG 0x242 h 0 (h6 a.h) (gc a.pos) 0 (extSign 0 a.sg 0))
  | .mflip h a => some (encG 0x243 h 0 0 0 0 (extSign 0 a.sg 0))
  | .mma h a => some (encG 0x244 h (h6 a.c) (h6 a.a) (gc a.rows) 0 (extMma 0 a))
  | .mmas h a => some (encG 0x245 h (h6 a.mma.c) (h6 a.mma.a) (gc a.mma.rows) 0 (extMma (0#6 ++ a.l2 ++ a.l1) a.mma))
  | .macz h a => some (encG 0x246 h (h6 a.c) (gc a.first) (gc a.rows) 0 (extSign 0 a.sg 0))
  | .macr h a => some (encG 0x247 h (h6 a.a) (h6 a.c) 0 0
      (extSign 0 a.sg (0#3 ++ b1 a.sat ++ BitVec.ofNat 3 a.rm.code ++ (a.par.setWidth 10 : BitVec 10))))
  | .macrV h a => some (encG 0x247 h a.d (h6 a.c) 0 0
      (0#17 ++ 1#1 ++ b1 a.sat ++ BitVec.ofNat 3 a.rm.code ++ (a.par.setWidth 10 : BitVec 10)))
  | .mq h a => some (match a.trig with
      | none => encG 0x248 h 0 0 0 a.high.toNat
      | some (c, v) => encG 0x248 h 0 (c.setWidth 10) (gc v) (a.high.toNat + 2))
  | .mqwait h a => some (encG 0x249 h 0 (gc a.a) 0 0)
  | .psumClr h a => some (encG 0x280 h 0 (g7 a.base) (gc a.layout) 0)
  | .psumRebuild h a => some (encG 0x280 h 0 (g7 a.base) (gc a.layout) 1)
  | .psel h a => some (encG 0x281 h (gc a.list) (g7 a.base) (gc a.layout) 0 (extEng false 0 0 a.cr 0))
  | .pgath h a => some (encG 0x282 h (h6 a.h) (g7 a.base) (gc a.layout) 0 (extEng false 0 0 a.cr 0))
  | .gathl h a => some (match a.side with
      | .handle n => encG 0x283 h (h6 n) (g7 a.base) (gc a.stride) 0 (extEng false 0 0 a.cr 0)
      | .scratch o => encG 0x283 h (gc o) (g7 a.base) (gc a.stride) 1 (extEng false 0 0 a.cr 0))
  | .scatl h a => some (encG 0x284 h (gc a.off) (g7 a.base) (gc a.stride)
      (match a.mode with | .plain => 0 | .addN32 => 1 | .addN64 => 2 | .addF32 => 3) (extEng false 0 0 a.cr 0))
  | .trap h a => some (encG 0x2C0 h 0 0 0 0 (0#24 ++ a.code))
  | .tretResume h => some (encG 0x2C1 h 0 0 0 0)
  | .tretSkip h => some (encG 0x2C1 h 0 0 0 1)
  | .tretEscalate h => some (encG 0x2C1 h 0 0 0 2)
  | .tkill h => some (encG 0x2C2 h 0 0 0 0)
  | .bkpt h a => some (encG 0x2C3 h 0 0 0 0 (0#24 ++ a.code))
  | .swrWrite h a => some (encG 0x2C4 h 0 (gc a.data) (gc a.core) 0 (0#20 ++ a.reg))
  | .swrRead h a => some (encG 0x2C4 h (gc a.data) 0 (gc a.core) 1 (0#20 ++ a.reg))
  | .time h a => some (encG 0x2C5 h (gc a.d) 0 0 0)
  | .dbgsig h a => some (encG 0x2C6 h 0 (gc a.a) (q3 a.q) 0)
  | .ctxsave h a => some (encG 0x2C7 h 0 (gc a.a) (q3 a.q) 0)
  | .ctxload h a => some (encG 0x2C8 h 0 (gc a.a) (q3 a.q) 0)
  | .registerResultReturn .. | .warpStarving .. | .postedCauseTaken .. | .jobLaunch .. | .jobLaunchComplete ..
  | .jobRetiredRead .. | .jobAdmit .. | .admissionWaitLimit | .budgetExhausted .. | .jobRetire .. | .taskTake ..
  | .stagingComplete .. | .regionHoldReexamine .. | .slotGrant .. | .spinExpired .. | .spinMove ..
  | .edgeActionsComplete .. | .stealRound .. | .crossDieRound .. | .stealBackoffExpiry .. | .stealProbeAnswer ..
  | .stealArrival .. | .clockGate .. | .storeBufferDrain .. | .storeAck .. | .waitvWake .. | .mscEvict ..
  | .pageWalk .. | .zfuClaim .. | .engineSegmentComplete .. | .engineSegmentFault .. | .handleRecordFree ..
  | .remoteSegmentAck .. | .remoteAckTimeout .. | .herricSegmentReceive .. | .leaseGrant .. | .queueAdmit ..
  | .mmaDynStep .. | .matrixOpComplete .. | .planesEmptyAtCohortEnd .. | .ctxCmdPreempt .. | .ctxCmdHardsave ..
  | .ctxCmdKill .. | .ctxCmdLoad .. | .ctxCmdRequeueJob .. | .ctxCmdKillJob .. | .ctxCmdDrop .. | .softDrainDone
  | .softDrainTimeout | .hardSaveComplete | .imageWriteFail | .contextLoadComplete | .gangTimeWrite ..
  | .gangDrainStart | .gangTimeReached | .dbgCmdHalt .. | .dbgCmdHaltCohort .. | .dbgCmdResume .. | .dbgCmdSkip ..
  | .dbgCmdStep .. | .dbgCmdKill .. | .schedCheckWrite .. | .stealCountsWrite .. | .telRegionStatsWrite ..
  | .xlatInvPage .. | .xlatInvContext .. | .xlatInvAll .. | .xlatInvNone .. | .shootdownComplete | .keyDataWrite ..
  | .keyCtlWrite .. | .keyRangeReady .. | .registerWrite .. | .resetCtlWarm .. | .resetPin | .powerGood | .memReady
  | .bootImageFetched .. | .bootRetry | .bootCtlGo .. | .imageVerify | .pcieBar2Write .. | .pcieBar2Read ..
  | .pcieBar0Access .. | .queryRead .. | .queryWrite .. | .herricLaneFail .. | .herricBeaconSend
  | .herricBeaconReceive .. | .ptpMessage .. | .thermalStepDown .. | .thermalStepUp .. | .thermalShutdown ..
  | .patrolScrub .. | .phyRecalibration .. | .refresh .. | .telemetrySample .. | .sramSoftError ..
  | .timeSourceLoss | .powerLoss | .systemCoreMemoryAccess .. => none

/-- The word of a well-formed instruction; none for an event. -/
def encode (i : Instr) : Option SlotWord := (encodeFields i).map Fields.word

/-- Rows of spec/opcode_table.json give no bits of their own; an instruction's word is its slot's 96 bits (R23). -/
def decodeTableWord (_nbits w : Nat) : Option Instr :=
  match decode Privs.full (BitVec.ofNat 96 w) with
  | .ok i => some i
  | .error _ => none

end Sys2Proof
end

