-- ==== Sys2Proof/Config.lean ====
section
/-! DEFINITION. What an implementation fixes and the manual leaves open. Every constant here is opaque and has no
body: nothing can be proved about its values, so a statement holds whatever they are. -/

namespace Sys2Proof.Config

/-- A free value: what the manual leaves open, read at the counter `State.tick` and at a number that tells the uses
within one step apart. DESIGN CHOICE, safe: see notes/assumptions/5.md for every use. -/
opaque free (tick use : Nat) : Nat

/-- FMF (06_float R135): the function unit's result for a function code and the input bits. R135 says that results are
a fixed function of the input bits and otherwise not architectural within the bound. DESIGN CHOICE, safe:
notes/assumptions/6.md. -/
opaque fmf (fn : BitVec 3) (a : BitVec 32) : BitVec 32

end Sys2Proof.Config
end

