-- ==== Sys2Proof/Machine/Sparse.lean ====
section
/-! DEFINITION. Sparse storage: a list of (key, value) pairs with strictly rising keys and no zero value, an unlisted
key reading zero. Memory of every kind and the register files are held this way, so that equal contents are equal
lists. What an unlisted byte of HBM reads as (zero) is a DESIGN CHOICE, unsafe: notes/assumptions/1.md. -/

namespace Sys2Proof

/-- Sparse storage of `w`-bit cells. `Sparse 8` is `List Host.Cell`. -/
abbrev Sparse (w : Nat) := List (Nat × BitVec w)

/-- A memory: bytes by address. -/
abbrev Memory := Sparse 8

/-- The value at a key. -/
def spGet {w : Nat} : Sparse w → Nat → BitVec w
  | [], _ => 0
  | (k, v) :: m, a => if a < k then 0 else if a = k then v else spGet m a

/-- Put a nonzero value in its place; a zero value removes the entry. -/
def spSet {w : Nat} : Sparse w → Nat → BitVec w → Sparse w
  | [], a, x => if x = 0 then [] else [(a, x)]
  | (k, v) :: m, a, x =>
    if a < k then (if x = 0 then (k, v) :: m else (a, x) :: (k, v) :: m)
    else if a = k then (if x = 0 then m else (a, x) :: m)
    else (k, v) :: spSet m a x

/-- The keys rise strictly above `lo` (when given) and no value is zero. -/
def spWfFrom {w : Nat} : Nat → Sparse w → Bool
  | _, [] => true
  | lo, (k, v) :: m => lo ≤ k && v != 0 && spWfFrom (k + 1) m

/-- The canonical form. -/
def spWf {w : Nat} (m : Sparse w) : Bool := spWfFrom 0 m

/-- The canonical form of a memory: addresses rise strictly, and no entry equals what an unlisted address reads as. -/
def Memory.wf (m : Memory) : Bool := spWf m

/-- Remove every entry with a key in [lo, hi). -/
def spErase {w : Nat} (m : Sparse w) (lo hi : Nat) : Sparse w := m.filter fun e => e.1 < lo || hi ≤ e.1

/-- Write a list of values at successive keys. -/
def spPutList {w : Nat} : Sparse w → Nat → List (BitVec w) → Sparse w
  | m, _, [] => m
  | m, a, x :: xs => spPutList (spSet m a x) (a + 1) xs

/-- The nonzero values of a list, at successive keys. -/
def spNonzero {w : Nat} : Nat → List (BitVec w) → Sparse w
  | _, [] => []
  | a, x :: xs => if x = 0 then spNonzero (a + 1) xs else (a, x) :: spNonzero (a + 1) xs

/-- Drop the leading entries with keys below `hi`. -/
def spDropBelow {w : Nat} (hi : Nat) : Sparse w → Sparse w
  | [] => []
  | (k, v) :: m => if k < hi then spDropBelow hi m else (k, v) :: m

/-- Write a block of values at successive keys, in one pass. -/
def spPutBlock {w : Nat} : Sparse w → Nat → List (BitVec w) → Sparse w
  | [], a, bs => spNonzero a bs
  | (k, v) :: m, a, bs =>
    if k < a then (k, v) :: spPutBlock m a bs else spNonzero a bs ++ spDropBelow (a + bs.length) ((k, v) :: m)

/-- The values at `n` successive keys. -/
def spTake {w : Nat} (m : Sparse w) (a : Nat) : Nat → List (BitVec w)
  | 0 => []
  | n + 1 => spGet m a :: spTake m (a + 1) n

/-- The bytes of a number, `n` of them, least significant first (R3). -/
def bytesOf : Nat → Nat → List Byte
  | 0, _ => []
  | n + 1, x => BitVec.ofNat 8 x :: bytesOf n (x / 256)

/-- The number that bytes hold, least significant first. -/
def natOf : List Byte → Nat
  | [] => 0
  | b :: bs => b.toNat + 256 * natOf bs

/-- A little-endian number of `n` bytes in memory. -/
def spNat (m : Sparse 8) (a n : Nat) : Nat := natOf (spTake m a n)

/-- Store the low `n` bytes of a number. -/
def spPutNat (m : Sparse 8) (a n x : Nat) : Sparse 8 := spPutList m a (bytesOf n x)

end Sys2Proof
end

