-- ==== Sys2Proof/Machine/State.lean ====
section
/-! DEFINITION. The state of the device as plain data: everything the spec names, listed with its rule and reset value
in INVENTORY.md under '## State'; the faults and refusals; and the machine right after reset. Kept apart here: what
the spec gives the machine, and the few fields that are the model's own (`tick`, `sched`, `inputs`, `cur`,
`readData`, `nextUid`, and the serial numbers `uid`). -/

namespace Sys2Proof.Machine

/-! ### How a step can stop -/

/-- Faults of the model. No cause of R365 is one: a cause takes its trap. -/
inductive Fault where
  /-- The issue slot names no task that holds a warp slot: raised by every instruction in a state that no run of the
  device reaches (`State.cur` is set only to such a task). Safe: notes/assumptions/20.md. -/
  | noWarp
deriving DecidableEq, Repr

/-- Refusals of the model. -/
inductive Refusal where
  /-- An instruction without a meaning in the model, by the mnemonic of spec/opcode_table.json. Raised by the arm of
  such an instruction alone. Safe. -/
  | notModelled (mnemonic : String)
deriving DecidableEq, Repr

/-! ### Causes (R364, R365) -/

inductive Cause where
  | illegalOpcode | reservedField | bundleFormat | misalignedTarget | landingDenied | badOperand | uFormInvalid
  | privileged
  | regIndexBounds | regNotAllocated | regClaimDeadlock | regGiveInvalid
  | handleReleased | handleUnallocated | handleBankMismatch | handleFormat
  | translationMissing | permission | undeclaredAccess | rangeLocked | misaligned | scratchBounds | integrityFail
  | memoryUncorrectable | remoteUnreachable | copyFault | slotFailed
  | arith (flag : Fin 6)
  | futureBroken | futureInvalid | spawnBadClosure | regionTooMany | budgetExhausted | jobDepth | divergedEngineIssue
  | cvMismatch | leaseViolation | stallUndersized | logFull | replayDiverged
  | trapInstr | breakpoint | singleStep | watchpoint | haltRequest | contextKilled
deriving DecidableEq, Repr

/-- Kinds of R365. -/
inductive Kind where
  | precise | after | posted
deriving DecidableEq, Repr

/-! ### A warp (R58, R145, R37 to R42) -/

/-- The register files a result can name. -/
inductive RFile where
  | v | g | x | p | q
deriving DecidableEq, Repr

/-- One register cell: file and key. v: 32 × register + lane; g: register; x: 32 × register + lane; p: 32 × index +
lane; q: index. -/
structure RKey where
  file : RFile
  key : Nat
deriving DecidableEq, Repr

structure RegWrite where
  at_ : RKey
  val : BitVec 32
deriving DecidableEq, Repr

/-- What brings a result (R37, R38): the pipe, once its distance has passed; a request, when it returns; an operation of
the matrix engine, when it completes. -/
inductive Source where
  | pipe
  | request (uid : Nat)
  | array (uid : Nat)
deriving DecidableEq, Repr

/-- A result that has issued and not landed. Of the pipe's: the distance of R37 still to pass; the clk at which it is
written at the latest (none until its instruction has issued) and the barrier that falls then (R38). An operation of the
matrix engine gives its values when it completes: until then `writes` names its registers alone. -/
structure Inflight where
  writes : List RegWrite
  left : Nat
  due : Option Nat
  bar : Option Nat
  source : Source
deriving DecidableEq, Repr

/-- States of a ring's slot (R307). -/
inductive SlotSt where
  | empty | filling | full | draining | failed
deriving DecidableEq, Repr

/-- What a parked warp waits for (R206). A wait that ends with the instruction's completion holds the address after it
and its hints: SLOTWAIT, ACNT.WAITGE, and what a unit serves, a claim, a lease and a signing. After any other wait the
instruction issues again. -/
inductive Park where
  | join (handle : BitVec 32)
  | jwait (job : BitVec 32)
  | waitv
  | rclaim (granules : Nat) (next : BitVec 32) (hint : Hint)
  | slot (ring : Nat) (slot : Nat) (want : SlotSt)
  | slotWait (ring : Nat) (slot : Nat) (want : SlotSt) (next : BitVec 32) (hint : Hint)
  | lines (pending : List Nat)
  | acnt (counter : Nat) (value : Nat) (next : BitVec 32) (hint : Hint)
  | lease (count : Nat) (next : BitVec 32) (hint : Hint)
  | sign (cv : Nat) (next : BitVec 32) (hint : Hint)
  | mq (count : Nat)
  | ctxLoad
deriving DecidableEq, Repr

/-- A warp's registers and masks: what the warp slot and its granules hold. Predicates hold one bit a cell. -/
structure Warp where
  v : Sparse 32
  g : Sparse 32
  x : Sparse 32
  p : Sparse 32
  q : Sparse 32
  width : Nat
  count : Nat
  live : BitVec 32
  active : BitVec 32
  maskMap : BitVec 128
  bars : Sparse 6
  pc : BitVec 32
  fpctl : BitVec 32
  issueIdx : BitVec 32
  /-- In program order. -/
  inflight : List Inflight
deriving DecidableEq, Repr

/-- A warp with every register zero. -/
def Warp.empty : Warp :=
  { v := [], g := [], x := [], p := [], q := [], width := 32, count := 4, live := 0, active := 0, maskMap := 0,
    bars := [], pc := 0, fpctl := 0, issueIdx := 0, inflight := [] }

/-! ### Tasks (R161 to R174, R206) -/

inductive TaskSt where
  | spawned | staging | runnable | running | parked | ending | done
deriving DecidableEq, Repr

/-- Why a task is stopped in a frame (R367, R379), and what TRET needs of it. -/
structure Stop where
  cause : Cause
  kind : Kind
  /-- Virtual address of the frame; none where the save area could not hold it (R367). -/
  frame : Option Nat
  /-- Bytes of the save area the frame occupies (R368). -/
  bytes : Nat
  /-- Uid of the paused engine operation the frame names (ENGINE, OPREF). -/
  op : Option Nat
  pair : Bool
  halted : Bool
  escalated : Bool
  budget : Bool
  /-- What operations of the task have merged and written since (R327, R348): it reaches the warp when the task leaves
  its frame. -/
  flags : BitVec 32
  writes : List RegWrite
deriving DecidableEq, Repr

/-- A cause posted to a task and not yet raised (R365). -/
structure Posted where
  cause : Cause
  faddr : Nat
  op : Option Nat
  opaddr : Bool
  /-- Uids of the cohort's members whose halts come before this one (R380). -/
  after : List Nat
deriving DecidableEq, Repr

/-- A renamer name (R291). -/
inductive Name where
  | unmapped
  | mapped (record : Nat)
  | released
deriving DecidableEq, Repr

/-- Region modes (R241). -/
inductive Mode where
  | read | readStaged | write | writeForward | readWrite | reduce | sync
deriving DecidableEq, Repr

/-- A region record as read at take (R54, R240). -/
structure Region where
  base : Nat
  extent : Nat
  mode : Mode
  layout : Nat
  target : BitVec 24
deriving DecidableEq, Repr

structure Task where
  uid : Nat
  ident : BitVec 32
  job : BitVec 32
  line : List (BitVec 32)
  st : TaskSt
  /-- The core the task was taken to, or spawned on. -/
  core : Nat
  spawnCore : Nat
  cohort : Nat
  member : Nat
  /-- Uids of the ancestors in the spawn tree, nearest first (R249). -/
  anc : List Nat
  /-- Result-future handle the task still owns; 0 for none, and whether it has handed one over (R174). -/
  fut : BitVec 32
  handed : Bool
  /-- Uid of the SPAWNR range and the child's index (R179). -/
  range : Option (Nat × Nat)
  warp : Warp
  slot : Option Nat
  /-- Held in a save area, or in a context image. -/
  saved : Bool
  park : Option Park
  parkedAt : Nat
  spinExpired : Bool
  /-- The clk at which the warp may next issue (R37), its age, wait count and flags (R39, R143). -/
  readyAt : Nat
  age : Nat
  waitCount : Nat
  starving : Bool
  giveWay : Bool
  /-- Its next instruction has been counted as undersized, and parked (R42). -/
  counted : Bool
  /-- Stores drained and unacknowledged (R230). -/
  unacked : Nat
  /-- Lines of WRITE_FORWARD bytes the task has stored, by device-physical line number (R245). -/
  forward : List Nat
  names : List (Nat × Name)
  regions : List Region
  /-- Indices of the records whose staging copy has still to begin (R208, R294). -/
  toStage : List Nat
  /-- Resumes after a trap: soft pre-emption grants it a slot all the same (R372). -/
  resumed : Bool
  /-- Virtual address and size of the task's space in its job's slot save area (R212, R367). -/
  saveAt : Option (Nat × Nat)
  everHeld : Bool
  /-- The clk from which it may become RUNNABLE: after the clk of its take, in which earlier tasks may still be taken,
  and after each clk in which it was held (R250). -/
  clearFrom : Nat
  everRunnable : Bool
  runnableAt : Nat
  /-- The moment of `State.hist` at which the task was taken, and the WRITE and WRITE_FORWARD bytes it has stored since,
  as device-physical ranges [lo, hi) (R244). -/
  takenAt : Nat
  wrote : List (Nat × Nat)
  /-- What its loads of other such bytes have seen: device-physical ranges [lo, hi) with the moment of `State.hist`; and
  the moment before which no load of it sees, since a shootdown completed then (R262, R268). -/
  priors : List (Nat × Nat × Nat)
  priorFrom : Nat
  ownHot : Bool
  /-- Budget reserved in the pool for a taken task (R70, R217). -/
  reserved : Bool
  /-- Granules counted in the pool at present (R212). -/
  inPool : Bool
  /-- An open cohort: its uid, size and the members pushed so far, in order (R173). -/
  opened : Option (Nat × Nat × List Nat)
  posted : List Posted
  stop : Option Stop
  /-- Uid of the faulting task, for a trap task (R367). -/
  trapOf : Option Nat
  /-- s.cause, s.faultlanes, s.futcause (R81, R170). -/
  sCause : BitVec 32
  sLanes : BitVec 32
  sFut : BitVec 32
  /-- Breakpoints and watchpoints are ignored for the next issue (R369, R377, R378). -/
  skipMatch : Bool
  stepping : Bool
  stream : BitVec 32
  logPos : Nat
  /-- Where the next trap task of this task goes on in the log. -/
  trapPos : Nat
  spawned : Nat
  killedBy : Option Cause
  joiner : Option Nat
  /-- Its context was saved while it was in ENDING: its steps come first, and its joiner is decided again (R248). -/
  endSaved : Bool
  lastTime : BitVec 64
deriving DecidableEq, Repr

/-- A cohort: its budget and free count in granules (R70, R71), its size, its core-local identifier (s.cohort). -/
structure Cohort where
  uid : Nat
  ident : Nat
  size : Nat
  budget : Nat
  free : Nat
  members : List Nat
deriving DecidableEq, Repr

/-- A SPAWNR range (R178, R179). -/
structure Range where
  uid : Nat
  spawner : Nat
  job : BitVec 32
  line : List (BitVec 32)
  fut : BitVec 32
  total : Nat
  finished : Nat
  worst : Option (Nat × Cause)
  stream : BitVec 32
deriving DecidableEq, Repr

/-- A registered gated spawn (R180). -/
structure Gate where
  task : Nat
  core : Nat
  cell : BitVec 32
  cmp : GateCmp
  signed : Bool
  comparand : BitVec 32
  consume : Bool
deriving DecidableEq, Repr

/-- An entry of a deque: a cohort's members, or the untaken indices [lo, hi) of a range. -/
inductive Entry where
  | group (job : BitVec 32) (members : List Nat)
  | range (job : BitVec 32) (uid lo hi : Nat)
deriving DecidableEq, Repr

/-! ### Futures (R165, R166) -/

inductive CellSt where
  | free | pending | ready | broken
deriving DecidableEq, Repr

inductive Bound where
  | none
  | task (uid : Nat)
  | range (uid : Nat)
  | gate (uid : Nat)
deriving DecidableEq, Repr

/-- A future cell; the key is die × 2^17 + slot. -/
structure Cell where
  key : Nat
  st : CellSt
  gen : BitVec 12
  job : BitVec 32
  bound : Bound
  latched : Option (BitVec 64)
  val : BitVec 64
  cause : BitVec 8
  /-- A free was asked for; the waiters registered at resolution that have still to read (R168). -/
  freeAsked : Bool
  readers : List Nat
  /-- Uid of the task whose end resolved the cell, whose forwarded lines an acquire keeps (R246). -/
  from_ : Nat
deriving DecidableEq, Repr

/-! ### Jobs (R187 to R200) -/

inductive JobSt where
  | pending | active | retiring | retired
deriving DecidableEq, Repr

/-- The device's copy of the job record (R187). -/
structure JobRec where
  mode : Nat
  ctx : Nat
  deadline : Nat
  budget : Nat
  period : Nat
  codeBase : Nat
  codeSize : Nat
  regionBase : Nat
  regionSize : Nat
  closureBase : Nat
  closureSize : Nat
  root : Nat
  trapEntry : Nat
  layoutBase : Nat
  layoutSize : Nat
  overflowBase : Nat
  saveBase : Nat
  spillBase : Nat
  spillSize : Nat
  logBase : Nat
  logSize : Nat
  coreSet : List Nat
  regShare : Nat
  regionShare : Nat
deriving DecidableEq, Repr

structure Job where
  id : BitVec 32
  rec_ : JobRec
  st : JobSt
  rootLine : List (BitVec 32)
  depth : Nat
  parent : Option (BitVec 32)
  /-- The system core's register set that launched a root job. -/
  sys : Nat
  remaining : Nat
  killed : Option Cause
  /-- Holds a saved image from a requeue (R193). -/
  image : Bool
  /-- A requeue of this job alone is draining (R205, R375). -/
  requeueing : Bool
  /-- That requeue raises DEADLINE when it ends (R375), and the global ns at which its drain runs out. -/
  bump : Bool
  drainEnd : Nat
  homeDie : Nat
  /-- The moment of `State.hist` at which the job's code was loaded (R269). -/
  codeAt : Nat
  nextStream : Nat
  truncated : Bool
  rootDone : Bool
  /-- The cause that killed the root task (R200). -/
  rootKilled : Option Cause
  /-- A budget stop is in progress (R196). -/
  budgetStop : Bool
  /-- Ids of unreaped children that have retired stand in the job list with state retired. -/
  reaped : Bool
deriving DecidableEq, Repr

/-! ### Tiles (R285 to R307) -/

inductive RecSt where
  | free | allocated | filling | valid | released
deriving DecidableEq, Repr

/-- A tile descriptor's fields (R288). -/
structure Desc where
  bank : Nat
  block : Nat
  format : Nat
  rows : Nat
  cols : Nat
  sh : Bool
  scale : Nat
  codebook : Nat
  size : Nat
deriving DecidableEq, Repr

/-- A handle record (R288, R292): the descriptor, its place, and the records it refers to. -/
structure HRec where
  idx : Nat
  desc : Desc
  st : RecSt
  gen : BitVec 12
  base : Nat
  scaleRec : Option Nat
  bookRec : Option Nat
deriving DecidableEq, Repr

/-- A defined ring (R306, R307). -/
structure Ring where
  idx : Nat
  slots : Nat
  tiles : Bool
  consumers : Nat
  base : Nat
  size : Nat
  recs : List Nat
  states : List (SlotSt × Nat)
deriving DecidableEq, Repr

/-- A convergence register in use (R186, R336): the recorded instruction and operand values, and who has signed, each
with the barrier that falls at the operation's completion. -/
structure CReg where
  idx : Nat
  count : Nat
  owner : Nat
  instr : Option Instr
  vals : List Nat
  signers : List (Nat × Option Nat)
  /-- The MQ that stood before the first signer's instruction. -/
  pre : Option MqArgs
deriving DecidableEq, Repr

/-- A place an engine operation reads or writes, as the range-lock table holds it (R301). -/
inductive Span where
  | global (ctx lo hi : Nat)
  | scratch (lo hi : Nat)
  | tile (record lo hi : Nat)
  /-- Rows and columns of a tile: bytes [clo, chi) of rows rlo to rhi - 1 of the given pitch (R329). -/
  | rect (record pitch rlo rhi clo chi : Nat)
  /-- Of every `count` rows of a tile, up to row `total`, the first `used`. -/
  | bands (record pitch count used total : Nat)
deriving DecidableEq, Repr

structure Lock where
  op : Nat
  span : Span
  write : Bool
deriving DecidableEq, Repr

/-- A layout record (R295). -/
structure Layout where
  size0 : Nat
  size1 : Nat
  size2 : Nat
  size3 : Nat
  stride1 : Int
  stride2 : Int
  stride3 : Int
  pad : Nat
  valid0 : Nat
  valid1 : Nat
  format : Nat
  bank : Nat
  summary : Bool
  block : Nat
  w32 : Bool
deriving DecidableEq, Repr

/-- The tile side of an operation. -/
inductive Side where
  | record (idx : Nat)
  | scratch (off : Nat)
deriving DecidableEq, Repr

/-- Engine operations of chapters 13 and 15, with the values they read at issue: layouts, addresses, and for PGATH,
GATHL and SCATL the pages or element addresses of their lists. -/
inductive OpKind where
  | stage (dst : Side) (lay : Layout) (addr : Nat)
  | drain (src : Side) (lay : Layout) (addr : Nat) (rm : RM) (sat : Bool)
  | copy (dst src len : Nat) (node : Option Nat)
  | psel (list : Nat) (lay : Layout) (addr first pages query thr k : Nat)
  | pgath (dst : Nat) (lay : Layout) (addr : Nat) (pages : List Nat) (rows : Nat)
  | gathl (dst : Side) (size : Nat) (addrs : List Nat)
  | scatl (off : Nat) (mode : SMode) (size idx : Nat) (addrs : List Nat)
deriving DecidableEq, Repr

/-- An engine operation in flight (R298 to R305): it holds copy descriptor `desc`. -/
structure EngOp where
  uid : Nat
  desc : Nat
  owner : Nat
  kind : OpKind
  /-- Staging of a region at take (R208). -/
  region : Bool
  /-- Destination bytes, and segments of 512 of them credited. -/
  total : Nat
  credited : Nat
  /-- The counter to credit, and whether rows are credited. -/
  credit : Option (Nat × Bool)
  bar : Option Nat
  ringSlot : Option (Nat × Nat)
  /-- Stopped before a segment by a fault (R303), until system software answers. -/
  paused : Bool
  /-- Remote: the segment sent and not acknowledged. -/
  sent : Bool
  pc : BitVec 32
  flags : BitVec 32
  /-- The list that a PSEL has formed (R355). -/
  list : List Byte
deriving DecidableEq, Repr

/-! ### The matrix engine (R323 to R338) -/

inductive PlaneSt where
  | empty | loaded
deriving DecidableEq, Repr

/-- A weight plane: the elements it was loaded with, row by row, as R107 packs them (a VQ2 element in half-units above
-8), their scale bytes, and the W rows it came from (R322 to R324). -/
structure Plane where
  st : PlaneSt
  desc : Desc
  row : Nat
  col : Nat
  record : Nat
  gen : BitVec 12
  elems : List Nat
  scales : List Byte
deriving DecidableEq, Repr

inductive MKind where
  | mldw (w row col : Nat)
  | mflip
  | mma (c a rows arow crow kcol ncol cnt : Nat) (dyn : Bool) (sparse : Option (Nat × Nat × Nat))
  | macz (c first rows : Nat)
  | macr (a c : Nat) (p : List Nat) (rm : RM) (sat : Bool)
  | macrV (v c : Nat) (p : List Nat) (rm : RM) (sat : Bool)
deriving DecidableEq, Repr

/-- A matrix operation: issued to a queue, admitted, running (R331 to R338). -/
structure MatOp where
  uid : Nat
  owner : Nat
  cohort : Nat
  kind : MKind
  high : Bool
  trig : Option (Nat × Nat)
  admitted : Bool
  /-- Rows done, and whether no row is left (R333). -/
  done : Nat
  fin : Bool
  /-- Barriers that fall at completion: the owner's, or every signer's. -/
  bars : List (Nat × Nat)
  flags : BitVec 32
  pc : BitVec 32
  /-- The metadata rows of an MMAS that has started, read at its start (R335). -/
  kept : Option (List (List Byte))
deriving DecidableEq, Repr

/-- The arbiter's lease (R328 to R330): the holding cohort, the last one that held it, the operations left. -/
structure Lease where
  holder : Option Nat
  last : Option Nat
  count : Nat
deriving DecidableEq, Repr

structure Matrix where
  active : Plane
  shadow : Plane
  ops : List MatOp
  streak : Nat
  lease : Lease
  /-- Waiting MLEASEs in the order of R330: task uid and count. -/
  requests : List (Nat × Nat)
deriving DecidableEq, Repr

def Desc.none : Desc := ⟨0, 0, 0, 1, 1, false, 0, 0, 1⟩

def Plane.none : Plane := ⟨.empty, Desc.none, 0, 0, 0, 0, [], []⟩

def Matrix.reset : Matrix :=
  { active := Plane.none, shadow := Plane.none, ops := [], streak := 0, lease := ⟨none, none, 0⟩, requests := [] }

/-! ### Cores -/

/-- A store-buffer entry (R230): bytes of one 128-byte line, and the barrier tokens that fall at its acknowledgement. -/
structure StoreEnt where
  owner : Nat
  line : Nat
  mask : BitVec 128
  data : BitVec 1024
  tokens : List Nat
deriving DecidableEq, Repr

/-- A barrier to fall when every part of an instruction has performed (R38, R233). -/
structure Token where
  id : Nat
  task : Nat
  bar : Nat
  left : Nat
deriving DecidableEq, Repr

/-- An outstanding variable-latency request (R38, R68): whether it will write registers, which the warp then holds as
the result it brings. -/
structure Return where
  uid : Nat
  task : Nat
  slot : Nat
  gen : BitVec 12
  regs : Bool
  bar : Option Nat
  /-- The handle record an LDT reads (R293). -/
  tile : Option Nat
deriving DecidableEq, Repr

/-- An L1 line: data, valid and owned words (bit i for word i), and the task that forwarded it (R246, R260). -/
structure L1Line where
  line : Nat
  data : BitVec 1024
  valid : BitVec 32
  owned : BitVec 32
  forwarded : Option Nat
deriving DecidableEq, Repr

/-- A cached leaf (R402). -/
structure TlbEnt where
  ctx : Nat
  vbase : Nat
  size : Nat
  pbase : Nat
  home : Nat
  r : Bool
  w : Bool
  x : Bool
  level : Nat
deriving DecidableEq, Repr

/-- Presence of a scratchpad line (R225). -/
inductive LineSt where
  | absent | present | pending
deriving DecidableEq, Repr

/-- Per-core registers, whole (R41, R69, R144, R217, R380, R404). -/
structure CoreRegs where
  schedCheck : BitVec 64
  stealCounts : BitVec 64
  dropped : BitVec 64
  starve : Sparse 64
  bp : Sparse 64
  wp : Sparse 64
  xlatFault : BitVec 64
deriving DecidableEq, Repr

/-- The steal agent (R214): failed local rounds, the end of the 256 clk wait, and the probe in flight. -/
structure Agent where
  failed : Nat
  backoff : Option Nat
  /-- Victims still to probe in the round, and whether the round is across dies. -/
  probing : List Nat
  cross : Bool
  /-- Lines granted to this core and not yet arrived. -/
  arriving : List Entry
deriving DecidableEq, Repr

structure Core where
  gens : Sparse 12
  deque : List Entry
  spilled : List Entry
  scratch : Sparse 8
  /-- Lines that are not absent. -/
  lines : List (Nat × LineSt)
  bankW : Sparse 8
  bankA : Sparse 8
  bankC : Sparse 8
  /-- Granules whose zero bit is set, by 4096 × bank + granule. -/
  zeroed : List Nat
  recs : List HRec
  acnt : Sparse 32
  rings : List Ring
  cvs : List CReg
  ops : List EngOp
  locks : List Lock
  mx : Matrix
  storeBuf : List StoreEnt
  drained : List StoreEnt
  tokens : List Token
  returns : List Return
  l1 : List L1Line
  /-- IFENCEs by job: the moment before which no code byte is held any more (R239, R269). -/
  fences : List (Nat × Nat)
  tlb : List TlbEnt
  regs : CoreRegs
  agent : Agent
  /-- Clock-gated (R218), and the clk before which a core just woken neither issues nor takes. -/
  gated : Bool
  wakeAt : Nat
  lastTake : Option Nat
  /-- The clk of the last spin move (R211), and the clk and rank of the last change that the order within a clk ranks
  (`State.late`). -/
  lastSpin : Option Nat
  lastMove : Option (Nat × Nat)
  /-- The clk in which the matrix engine last admitted an operation (R332), and the ring slots that signals changed in a
  clk (R308). -/
  lastAdmit : Option Nat
  signalled : Nat × List (Nat × Nat)
deriving DecidableEq, Repr

def CoreRegs.reset : CoreRegs :=
  { schedCheck := 0, stealCounts := 0, dropped := 0, starve := [], bp := [], wp := [], xlatFault := 0 }

def Core.reset : Core :=
  { gens := [], deque := [], spilled := [], scratch := [], lines := [], bankW := [], bankA := [],
    bankC := [], zeroed := [], recs := [], acnt := [], rings := [], cvs := [], ops := [], locks := [],
    mx := Matrix.reset, storeBuf := [], drained := [], tokens := [], returns := [], l1 := [], fences := [], tlb := [],
    regs := CoreRegs.reset, agent := ⟨0, none, [], false, []⟩, gated := true, wakeAt := 0, lastTake := none,
    lastSpin := none, lastMove := none, lastAdmit := none, signalled := (0, []) }

/-! ### Contexts (R371) -/

inductive CtxSt where
  | free | running | draining | saving | saved | loading | waiting
deriving DecidableEq, Repr

structure Ctx where
  st : CtxSt
  /-- Global ns at which the drain runs out. -/
  drainEnd : Nat
  /-- A gang switch drives it. -/
  gang : Bool
  /-- The core parts of the image, the address they were written at, and whether nothing has been written there since
  (R373). -/
  image : List (Nat × Core)
  imageAt : Nat
  imageOk : Bool
  /-- The number of the free values that the image's bytes are (`State.openBytes`). -/
  imageKey : Nat
deriving DecidableEq, Repr

def Ctx.free : Ctx := ⟨.free, 0, false, [], 0, true, 0⟩

/-! ### Memory side -/

/-- What one word of a memory-side cache entry holds (R398): stored bytes with their mask, or a reduction. -/
inductive MscWord where
  | bytes (mask : BitVec 4) (data : BitVec 32)
  | red (op : AOp) (ty : Ty) (val : BitVec 64)
deriving DecidableEq, Repr

/-- An entry of a memory-side cache: a 64-byte line number and its words by word number. -/
structure MscEnt where
  line : Nat
  words : List (Nat × MscWord)
deriving DecidableEq, Repr

/-- What bytes [lo, hi) of HBM held before a write: R244 and R269 let a reader see them still. -/
structure Past where
  lo : Nat
  hi : Nat
  old : Sparse 8
  /-- Ranges of it that were open (see `State.openBytes`). -/
  opens : List (Nat × Nat × Nat)
  /-- The memory controller zeroed them (R267). -/
  zeroed : Bool
deriving DecidableEq, Repr

/-- An ordered contribution (R277, R278): its word, the global slice that homes it, its sort key, and the record of the
job's spill area that holds it, where one does. -/
structure Contrib where
  addr : Nat
  slice : Nat
  key : BitVec 32
  lane : Nat
  idx : BitVec 32
  task : BitVec 32
  job : BitVec 32
  val : BitVec 32
  spillAt : Option Nat
  elem : Nat
deriving DecidableEq, Repr

/-- A registered watch of WAITV (R237): task, device-physical address, width; `hit` when a write has performed. -/
structure Watch where
  task : Nat
  addr : Nat
  bytes : Nat
  hit : Bool
deriving DecidableEq, Repr

/-! ### Device registers (R376, R380, R401, R403, R408, R409, R413, R418) -/

structure CtxRegs where
  preemptDrain : BitVec 64
  gangTime : BitVec 64
  gangDrain : BitVec 64
  gangStatus : BitVec 64
  priv : BitVec 64
  next : BitVec 64
  cmd : BitVec 64
  imageBase : Sparse 64
  escBase : BitVec 64
  escHead : BitVec 64
  escTail : BitVec 64
  dbgCtl : BitVec 64
  dbgCmd : BitVec 64
  stealRounds : BitVec 64
  stealThreshold : BitVec 64
deriving DecidableEq, Repr

structure MemRegs where
  root : Sparse 64
  invAddr : BitVec 64
  invCmd : BitVec 64
  /-- XLAT_INV_ADDR, SCOPE and CTX of the change in progress (R403). -/
  inv : Option (BitVec 64 × Nat × Nat)
  keyCtl : Sparse 64
  /-- KEY_DATA: words written so far and the key's bytes, per slot. -/
  keyCount : Sparse 64
  keys : Sparse 256
  errors : Sparse 64
  ueAddr : Sparse 64
deriving DecidableEq, Repr

structure PlatRegs where
  devStatus : BitVec 64
  irqStatus : BitVec 64
  irqEnable : BitVec 64
  bootStatus : BitVec 64
  herricNode : BitVec 64
  rxBase : BitVec 64
  rxSize : BitVec 64
  timeStatus : BitVec 64
  scrubCtl : BitVec 64
  telBase : BitVec 64
  telCtl : BitVec 64
  winBase : BitVec 64
  pwrCap : BitVec 64
  route : Sparse 64
  /-- Herric port lanes in use, where fewer than 8. -/
  lanes : Sparse 8
deriving DecidableEq, Repr

/-- A system core's launch registers (R190, R191). -/
structure SysSet where
  status : BitVec 64
  pendingAddr : Option Nat
  retired : List (BitVec 64)
  overflow : Bool
deriving DecidableEq, Repr

def SysSet.reset : SysSet := ⟨0, none, [], false⟩

/-- Where cold start stands (R422, R424). -/
inductive BootPhase where
  | off | training | waiting | verifying | running
deriving DecidableEq, Repr

/-- The boot ROM and what survives a warm reset (R422, R423). -/
structure Boot where
  phase : BootPhase
  warm : Bool
  /-- Length of the image under verification. -/
  length : Nat
  recorded : Nat
  /-- ENTRY of the image at which the system cores were released last (R422). -/
  entry : Option (BitVec 64)
  fuseKey : BitVec 384
  fuseSvn : Nat
  /-- The repair maps: in the fuses, and in the repair registers since the last power-good (R422, R424). -/
  fuseRepair : List Byte
  repair : List Byte
deriving DecidableEq, Repr

/-- How a link completes a host's request (R414, R415). -/
inductive Completion where
  | success | unsupported | abort
deriving DecidableEq, Repr

/-- What goes out on the links (R414 to R421). -/
inductive Out where
  /-- A segment of a remote copy, on a port, to an offset of a node's window. -/
  | herric (port node off : Nat) (bytes : List Byte)
  | ack (ok : Bool)
  | beacon (ns : BitVec 64)
  /-- The header of 16 bytes, and the data. -/
  | queryReply (header data : List Byte)
  | host (c : Completion) (data : List Byte)
  | msix (vector : Nat)
deriving DecidableEq, Repr

/-- HBM4E stacks that a D36's package places on its I/O die (R15). -/
inductive Stacks where
  | one | two | four | eight
deriving DecidableEq, Repr

/-- The parts of the GZL9 family (00_scope R1). A D36 has the stacks of the I/O die its UCIe links are attached to;
`none` is a die whose links reach no I/O die (R15). -/
inductive Part where
  | d36 (io : Option Stacks)
  | p144
  | m288
deriving DecidableEq, Repr

/-- One turn of the schedule: how many clk pass, and which enabled agent moves. -/
structure Turn where
  gap : Nat
  pick : Nat
deriving DecidableEq, Repr

/-- The warp that issues, and the literals of its bundle. -/
structure Cur where
  task : Nat
  lit0 : BitVec 48
  lit1 : BitVec 48
  /-- SLOT_VALID of the bundle (R24). -/
  valid : BitVec 4
  /-- Issued through an MQ prefix: HIGH, and the trigger (R331, R341). -/
  mq : Option (Bool × Option (Nat × Nat))
  /-- Registers that the prefix reads. -/
  keys : List RKey
  /-- The prefix itself, which a signed issue compares (R336). -/
  pre : Option MqArgs
  /-- The instruction found no descriptor, range or queue entry free: its warp is not eligible (R298, R331). -/
  full : Bool
deriving DecidableEq, Repr

structure State where
  -- the model's own
  tick : Nat
  sched : List Turn
  picks : List Nat
  inputs : List Instr
  cur : Cur
  readData : BitVec 64
  nextUid : Nat
  -- the part and its clocks
  part : Part
  clk : Nat
  clkMHz : Nat
  timeNs : BitVec 64
  timeFrac : Nat
  /-- Correction of the time still to be slewed, in the units of `timeFrac` (R421). -/
  slew : Int
  /-- What the sensors measured last (R426, R427). -/
  sensors : Sensors
  /-- The time at which they last called for a lower clock (R427). -/
  coolSince : Nat
  -- memory
  hbm : Sparse 8
  hostMem : Sparse 8
  mailbox : Sparse 8
  msc : List MscEnt
  poison : List Nat
  /-- Ranges [lo, hi) whose checks fail (R408). -/
  badMac : List (Nat × Nat × Nat)
  /-- The 128-byte lines that each L2 slice of the device has read, newest first (R12). -/
  slices : List (Nat × List Nat)
  /-- Ranges [lo, hi) whose bytes the spec leaves open, HBM after power-on (R422) and what a lost key encrypted (R407),
  each with the number of its free values. -/
  openBytes : List (Nat × Nat × Nat)
  /-- What overwritten bytes held, in the order of the writes; a length of this list names a moment (R244, R269). -/
  hist : List Past
  majors : Sparse 64
  minors : Sparse 6
  contribs : List Contrib
  watches : List Watch
  -- tasks and jobs
  cells : List Cell
  tasks : List Task
  cohorts : List Cohort
  ranges : List Range
  gates : List Gate
  jobs : List Job
  lastRootId : BitVec 32
  firstJob : Option (BitVec 32 × Nat)
  /-- Jobs that have waited 1 ms as the first: until one is admitted, no job behind it is (R194). -/
  stuck : List (BitVec 32)
  syscores : List (Nat × SysSet)
  dieStats : Sparse 64
  dieTlb : List (Nat × TlbEnt)
  cores : List (Nat × Core)
  ctxs : List (Nat × Ctx)
  escHeld : List (List Byte)
  -- registers and platform
  cregs : CtxRegs
  mregs : MemRegs
  pregs : PlatRegs
  boot : Boot
  outs : List Out
deriving DecidableEq, Repr

def CtxRegs.reset : CtxRegs :=
  { preemptDrain := 200000, gangTime := 0, gangDrain := 200000, gangStatus := 0, priv := 0, next := 0, cmd := 0,
    imageBase := [], escBase := 0, escHead := 0, escTail := 0, dbgCtl := 0, dbgCmd := 0, stealRounds := 4,
    stealThreshold := 64 }

def MemRegs.reset : MemRegs :=
  { root := [], invAddr := 0, invCmd := 0, inv := none, keyCtl := [], keyCount := [], keys := [], errors := [], ueAddr := [] }

/-- PWR_CAP's reset is 2800, and 1450 on the P144 (R413). -/
def PlatRegs.reset (part : Part) : PlatRegs :=
  { devStatus := 0, irqStatus := 0, irqEnable := 0, bootStatus := 0, herricNode := 0, rxBase := 0, rxSize := 0,
    timeStatus := 0, scrubCtl := 86400, telBase := 0, telCtl := BitVec.ofNat 64 (1000 * 256), winBase := 0,
    pwrCap := (match part with | .p144 => 1450 | .d36 _ | .m288 => 2800), route := [], lanes := [] }

/-- The device before power-good: every register at its reset value, nothing in memory, no job. -/
def State.reset : State :=
  { tick := 0, sched := [], picks := [], inputs := [], cur := ⟨0, 0, 0, 15, none, [], none, false⟩, readData := 0, nextUid := 1,
    part := .m288, clk := 0, clkMHz := 1750, timeNs := 0, timeFrac := 0, slew := 0, sensors := ⟨0, [], [], [], []⟩, coolSince := 0,
    hbm := [], hostMem := [], mailbox := [], msc := [], poison := [], badMac := [], slices := [], openBytes := [], hist := [], majors := [], minors := [],
    contribs := [], watches := [], cells := [], tasks := [], cohorts := [], ranges := [], gates := [], jobs := [],
    lastRootId := 0, firstJob := none, stuck := [], syscores := [], dieStats := [], dieTlb := [], cores := [], ctxs := [],
    escHeld := [], cregs := CtxRegs.reset, mregs := MemRegs.reset, pregs := PlatRegs.reset .m288,
    boot := { phase := .off, warm := false, length := 0, recorded := 0, entry := none, fuseKey := 0, fuseSvn := 0, fuseRepair := [], repair := [] }, outs := [] }

end Sys2Proof.Machine
end

