-- ==== Sys2Proof/Machine/Access.lean ====
section
/-! DEFINITION. Reading and updating the parts of State: cores, tasks, cohorts, jobs, cells; the shape of the part
(01_machine R8, R15); cause codes and kinds (R365); the clock and the time base. -/

namespace Sys2Proof.Machine

/-! ### Keyed lists -/

/-- The value under a key. -/
def alGet {α : Type} : List (Nat × α) → Nat → Option α
  | [], _ => none
  | (k, v) :: l, a => if a = k then some v else alGet l a

/-- Put a value under a key, keys rising. -/
def alSet {α : Type} : List (Nat × α) → Nat → α → List (Nat × α)
  | [], a, x => [(a, x)]
  | (k, v) :: l, a, x =>
    if a < k then (a, x) :: (k, v) :: l else if a = k then (a, x) :: l else (k, v) :: alSet l a x

/-- Replace the first element that a test picks. -/
def mapFirst {α : Type} (p : α → Bool) (f : α → α) : List α → List α
  | [] => []
  | x :: l => if p x then f x :: l else x :: mapFirst p f l

/-- Insert before the first element that the order puts after it. -/
def insertBy {α : Type} (lt : α → α → Bool) (x : α) : List α → List α
  | [] => [x]
  | y :: l => if lt x y then x :: y :: l else y :: insertBy lt x l

/-- Sort by insertion; equal elements keep their order. -/
def sortBy {α : Type} (lt : α → α → Bool) (l : List α) : List α :=
  l.foldl (fun acc x => insertBy (fun a b => lt a b) x acc) []

/-- The first least element. -/
def leastBy {α : Type} (lt : α → α → Bool) : List α → Option α
  | [] => none
  | x :: l => match leastBy lt l with
    | none => some x
    | some y => if lt y x then some y else some x

/-- The elements of a list at an index modulo its length. -/
def pickMod {α : Type} (l : List α) (i : Nat) : Option α := l[i % l.length]?

/-- Set bits of a 32-bit mask, in ascending order. -/
def lanesOf (m : BitVec 32) : List Nat := (List.range 32).filter fun i => m.getLsbD i

/-- The mask of a list of lanes. -/
def maskOf (l : List Nat) : BitVec 32 := l.foldl (fun m i => m ||| BitVec.twoPow 32 i) 0

/-! ### The part (R1, R8, R14, R15, R393) -/

def Part.dies : Part → Nat
  | .d36 _ => 1 | .p144 => 4 | .m288 => 8

def Part.cores (p : Part) : Nat := 36 * p.dies

/-- I/O dies that serve the part (R7): a D36's package brings one, where its links are attached (R15). -/
def Part.ioDies : Part → Nat
  | .d36 none => 0 | .d36 (some _) | .p144 => 1 | .m288 => 2

/-- System cores, Herric ports and PCIe links: 8, 9 and 1 on each I/O die (R14). -/
def Part.sysCores (p : Part) : Nat := 8 * p.ioDies
def Part.herricPorts (p : Part) : Nat := 9 * p.ioDies
def Part.pcieLinks (p : Part) : Nat := p.ioDies

def Stacks.count : Stacks → Nat
  | .one => 1 | .two => 2 | .four => 4 | .eight => 8

/-- HBM4E stacks (R1, R15). -/
def Part.stacks : Part → Nat
  | .d36 none => 0 | .d36 (some n) => n.count | .p144 => 8 | .m288 => 16

def State.nStacks (s : State) : Nat := s.part.stacks

/-- MEM_TOP of R393. -/
def State.memTop (s : State) : Nat :=
  match s.part with
  | .m288 => 715 * 2 ^ 30
  | .p144 => 357 * 2 ^ 30
  | .d36 _ => s.nStacks * 48000000000 / 2 ^ 30 * 2 ^ 30

/-- The die of a global core number. -/
def dieOf (core : Nat) : Nat := core / 36

/-! ### Cores -/

def State.core (s : State) (c : Nat) : Core := (alGet s.cores c).getD Core.reset

def State.setCore (s : State) (c : Nat) (x : Core) : State := { s with cores := alSet s.cores c x }

def State.modCore (s : State) (c : Nat) (f : Core → Core) : State := s.setCore c (f (s.core c))

/-! ### The order within a clk

The spec orders some changes of one clk on a core: warps' pushes and lease requests by slot, so by quadrant, then a
root that the queue pushes, the owner's take, steals by ascending thief (R72, R171, R216, R330). Each has a rank; a change
whose rank has passed waits for the next clk. -/

/-- A change of this rank on a core comes too late for this clk. -/
def State.late (s : State) (core rank : Nat) : Bool :=
  match (s.core core).lastMove with
  | some (clk, r) => clk == s.clk && rank ≤ r
  | none => false

/-- A change of this rank has been made. -/
def State.ranked (s : State) (core rank : Nat) : State :=
  s.modCore core fun c => { c with lastMove := some (s.clk, rank) }

def rankPush : Nat := 3
def rankTake : Nat := 4
def rankSteal (thief : Nat) : Nat := 5 + thief

/-! ### Tasks -/

def findTask : List Task → Nat → Option Task
  | [], _ => none
  | t :: l, u => if t.uid = u then some t else findTask l u

def putTask : List Task → Task → List Task
  | [], _ => []
  | x :: l, t => if x.uid = t.uid then t :: l else x :: putTask l t

def State.task? (s : State) (u : Nat) : Option Task := findTask s.tasks u

/-- Put back a task that is in the list. -/
def State.setTask (s : State) (t : Task) : State := { s with tasks := putTask s.tasks t }

def State.modTask (s : State) (u : Nat) (f : Task → Task) : State :=
  match s.task? u with
  | some t => s.setTask (f t)
  | none => s

def State.modWarp (s : State) (u : Nat) (f : Warp → Warp) : State :=
  s.modTask u fun t => { t with warp := f t.warp }

/-- The task that issues. -/
def State.curTask (s : State) : Option Task := s.task? s.cur.task

/-- A gated spawn whose gate has not resolved is no task yet, and has no identifier (R163, R206). -/
def State.gated (s : State) (u : Nat) : Bool := s.gates.any (·.task == u)

/-- The task of an identifier that is not DONE (R163). -/
def State.taskByIdent (s : State) (i : BitVec 32) : Option Task :=
  s.tasks.find? fun t => t.ident == i && t.st != .done && !s.gated t.uid

/-- A fresh serial number. -/
def State.fresh (s : State) : Nat × State := (s.nextUid, { s with nextUid := s.nextUid + 1 })

/-- A choice below `n` that the spec leaves to the device, from the plain data of `State.picks`: the next pick, 0 where
none is left (DESIGN CHOICE, safe: notes/assumptions/12.md). -/
def State.pick (s : State) (n : Nat) : Nat × State :=
  match s.picks with
  | [] => (0, s)
  | p :: l => (p % n, { s with picks := l })

/-! ### Cohorts, ranges, gates -/

def State.cohort? (s : State) (u : Nat) : Option Cohort := s.cohorts.find? (·.uid == u)

def State.modCohort (s : State) (u : Nat) (f : Cohort → Cohort) : State :=
  { s with cohorts := mapFirst (·.uid == u) f s.cohorts }

def State.range? (s : State) (u : Nat) : Option Range := s.ranges.find? (·.uid == u)

def State.modRange (s : State) (u : Nat) (f : Range → Range) : State :=
  { s with ranges := mapFirst (·.uid == u) f s.ranges }

/-- A member that is live: neither DONE, ENDING nor killed (R73). -/
def Task.isLive (t : Task) : Bool := t.st != .done && t.st != .ending && t.killedBy.isNone

def State.liveMembers (s : State) (cohort : Nat) : List Task :=
  s.tasks.filter fun t => t.cohort == cohort && t.isLive

/-! ### Jobs -/

def findJob : List Job → BitVec 32 → Option Job
  | [], _ => none
  | j :: l, i => if j.id = i then some j else findJob l i

def State.job? (s : State) (i : BitVec 32) : Option Job := findJob s.jobs i

def State.modJob (s : State) (i : BitVec 32) (f : Job → Job) : State :=
  { s with jobs := mapFirst (·.id == i) f s.jobs }

/-! ### Bit fields -/

/-- Replace bits [lo + n - 1 : lo]. -/
def setField (x : BitVec 64) (lo n val : Nat) : BitVec 64 :=
  let m : BitVec 64 := (BitVec.ofNat 64 (2 ^ n - 1)) <<< lo
  (x &&& ~~~m) ||| ((BitVec.ofNat 64 (val % 2 ^ n)) <<< lo)

/-- Bits [lo + n - 1 : lo]. -/
def field (x : BitVec 64) (lo n : Nat) : Nat := natBits x.toNat lo n

/-! ### Protected ranges (R406, R408) -/

/-- Base and size of a key slot's range, when the slot is enabled. -/
def State.protRange (s : State) (c : Nat) : Option (Nat × Nat) :=
  let k := spGet s.mregs.keyCtl c
  if k.getLsbD 1 then some (field k 21 27 * 2 ^ 21, field k 48 16 * 2 ^ 24) else none

/-- Accesses of a context wait while its protected range is not initialised (R408): a protected context's leaves name
its own range alone (R406), so all of it waits. -/
def State.ctxReady (s : State) (c : Nat) : Bool :=
  (s.protRange c).isNone || (spGet s.mregs.keyCtl c).getLsbD 2

/-! ### Contexts -/

/-- The context of a task (R371). -/
def State.ctxOf (s : State) (t : Task) : Nat := ((s.job? t.job).map (·.rec_.ctx)).getD 0

def State.ctx (s : State) (c : Nat) : Ctx := (alGet s.ctxs c).getD Ctx.free

def State.setCtx (s : State) (c : Nat) (x : Ctx) : State := { s with ctxs := alSet s.ctxs c x }

def State.modCtx (s : State) (c : Nat) (f : Ctx → Ctx) : State := s.setCtx c (f (s.ctx c))

/-- A context whose warps and engines run (R371). -/
def Ctx.goes (c : Ctx) : Bool :=
  match c.st with
  | .running | .draining => true
  | .free | .saving | .saved | .loading | .waiting => false

/-- Jobs that hold reservations. -/
def Job.holds (j : Job) : Bool := j.st == .active || j.st == .retiring

/-- The context of a task goes (R371). -/
def State.ctxGoes (s : State) (t : Task) : Bool := (s.ctx (s.ctxOf t)).goes

/-- The budget stops the job: its count is at 0, and until it is requeued (R196). -/
def Job.outOfBudget (j : Job) : Bool := j.budgetStop || (j.rec_.budget != 0 && j.remaining == 0)

/-- A task whose context and job run: in a job stopped by its budget, the trap task of that stop alone (R196). -/
def State.mayRun (s : State) (t : Task) : Bool :=
  s.ctxGoes t && s.ctxReady (s.ctxOf t) && (match s.job? t.job with
    | some j => j.holds && (!j.outOfBudget || (match t.trapOf with
      | none => false
      | some f => match s.task? f with
        | none => false
        | some x => match x.stop with
          | some p => p.budget
          | none => false))
    | none => false)

/-- R371: a task is privileged when its context's bit of CTX_PRIV is set. -/
def State.privileged (s : State) (t : Task) : Bool := s.cregs.priv.getLsbD (s.ctxOf t)

/-! ### Cells -/

def State.cell? (s : State) (k : Nat) : Option Cell := s.cells.find? (·.key == k)

def insertCell (c : Cell) : List Cell → List Cell
  | [] => [c]
  | d :: l => if c.key < d.key then c :: d :: l else if c.key = d.key then c :: l else d :: insertCell c l

def State.setCell (s : State) (c : Cell) : State := { s with cells := insertCell c s.cells }

/-! ### Causes (R365) -/

def Cause.code : Cause → Nat
  | .illegalOpcode => 0x01 | .reservedField => 0x02 | .bundleFormat => 0x03 | .misalignedTarget => 0x04
  | .landingDenied => 0x05 | .badOperand => 0x06 | .uFormInvalid => 0x07 | .privileged => 0x08
  | .regIndexBounds => 0x20 | .regNotAllocated => 0x21 | .regClaimDeadlock => 0x22 | .regGiveInvalid => 0x23
  | .handleReleased => 0x28 | .handleUnallocated => 0x29 | .handleBankMismatch => 0x2A | .handleFormat => 0x2C
  | .translationMissing => 0x40 | .permission => 0x41 | .undeclaredAccess => 0x42 | .rangeLocked => 0x43
  | .misaligned => 0x44 | .scratchBounds => 0x45 | .integrityFail => 0x46 | .memoryUncorrectable => 0x47
  | .remoteUnreachable => 0x48 | .copyFault => 0x49 | .slotFailed => 0x4A
  | .arith i => 0x80 + i.val
  | .futureBroken => 0xA0 | .futureInvalid => 0xA1 | .spawnBadClosure => 0xA3 | .regionTooMany => 0xA4
  | .budgetExhausted => 0xA5 | .jobDepth => 0xA6 | .divergedEngineIssue => 0xA7 | .cvMismatch => 0xA8
  | .leaseViolation => 0xA9 | .stallUndersized => 0xAA | .logFull => 0xAB | .replayDiverged => 0xAC
  | .trapInstr => 0xC0 | .breakpoint => 0xC1 | .singleStep => 0xC2 | .watchpoint => 0xC3 | .haltRequest => 0xC4
  | .contextKilled => 0xC6

def Kind.code : Kind → Nat
  | .precise => 0 | .after => 1 | .posted => 2

/-! ### Interrupt events (R413) -/

/-- Event `i` happens: it is set in DEV_IRQ_STATUS, and where it is enabled MSI-X vector `i` signals it to the host (R414;
notes/assumptions/68.md). -/
def State.irq (s : State) (i : Nat) : State :=
  { s with
    pregs := { s.pregs with irqStatus := s.pregs.irqStatus ||| BitVec.twoPow 64 i }
    outs := if s.pregs.irqEnable.getLsbD i then s.outs ++ [.msix i] else s.outs }

/-- The external interrupt, wired to source 1 of each I/O die's interrupt controller (R411). -/
def State.interrupt (s : State) : Bool := s.pregs.irqStatus &&& s.pregs.irqEnable != 0

/-! ### Time (R4, R421) -/

/-- How much of a slewed correction `n` clk take up: 100 ppm at most (R421). -/
def State.slewStep (s : State) (n : Nat) : Nat :=
  if s.slew = 0 then 0 else Config.free s.tick (2 ^ 20) % (min n s.slew.natAbs + 1)

/-- `n` clk pass: the global time advances by the core clock's period and the slew, in fractions 1 / (10 · clkMHz) of a
ns. -/
def State.passClk (s : State) (n : Nat) : State :=
  let k := s.slewStep n
  let f := s.timeFrac + 10000 * n
  let f := if s.slew < 0 then f - k else f + k
  { s with
    clk := s.clk + n, timeNs := s.timeNs + BitVec.ofNat 64 (f / (10 * s.clkMHz)), timeFrac := f % (10 * s.clkMHz),
    slew := if s.slew < 0 then s.slew + k else s.slew - k }

/-- The core clock changes (R427): what is counted in its periods is counted anew. -/
def State.setClk (s : State) (mhz : Nat) : State :=
  { s with clkMHz := mhz, timeFrac := s.timeFrac * mhz / s.clkMHz, slew := s.slew * mhz / s.clkMHz }

end Sys2Proof.Machine
end

