-- ==== Sys2Proof/Machine/Memory.lean ====
section
/-! DEFINITION. Memory below the lanes: the device-physical map (17_memsys R393 to R396), the memory-side cache
(R398), translation and permission (R399 to R406), TLBs (R402), L1 copies and ownership (11_consistency R243, R246,
R256, R260), the store buffer's view (10_memory R223, R230), watches (R237). HBM and the L2 slices are one coherent
memory: what a home slice would answer. -/

namespace Sys2Proof

/-- Width in bits and signedness of the integer types (R34, R85). -/
def Ty.bits : Ty → Nat
  | .i8 | .n8 => 8
  | .i16 | .n16 | .f16 | .bf16 => 16
  | .i32 | .n32 | .f32 => 32
  | .i64 | .n64 | .f64 => 64
  | .b128 => 128

def Ty.signed : Ty → Bool
  | .i8 | .i16 | .i32 | .i64 => true
  | _ => false

end Sys2Proof

namespace Sys2Proof.Machine

/-! ### Places of the device-physical map -/

inductive Place where
  | hbm | mailbox | outbound | window | unassigned
deriving DecidableEq, Repr

/-- Bases of the debug mailbox and of the outbound windows (R412). -/
def mailboxBase : Nat := 0xF00000000000
def outboundBase : Nat := 0xF80000000000

def State.placeOf (s : State) (pa : Nat) : Place :=
  if pa < s.memTop then .hbm
  else if 0xF00000000000 ≤ pa ∧ pa < 0xF00000001000 then .mailbox
  else if 0xF80000000000 ≤ pa ∧ pa < 0xF80000000000 + s.part.pcieLinks * 2 ^ 42 then .outbound
  else if 0xF00000000000 ≤ pa ∧ pa < 2 ^ 48 then .window
  else .unassigned

/-- The stack that holds a byte (R395). -/
def State.stackOf (s : State) (pa : Nat) : Nat :=
  (natBits pa 8 4 ^^^ natBits pa 12 4 ^^^ natBits pa 16 4 ^^^ natBits pa 20 4) % s.nStacks

/-- The home die of an address under a leaf's HOME (R396). -/
def State.homeDie (s : State) (pa home : Nat) : Nat :=
  if home < 8 then home
  else (natBits pa 7 3 ^^^ natBits pa 10 3 ^^^ natBits pa 13 3) % s.part.dies

/-- The home slice within the die (R396). -/
def homeSlice (pa : Nat) : Nat := natBits pa 7 5 ^^^ natBits pa 12 5 ^^^ natBits pa 17 5

/-! ### The memory-side cache (R398) -/

/-- What an integer atomic other than CAS stores (R274). -/
def atomNew (op : AOp) (ty : Ty) (old b : Nat) : Nat :=
  let w := ty.bits
  let less := if ty.signed then decide (toSigned w old < toSigned w b) else decide (old % 2 ^ w < b % 2 ^ w)
  match op with
  | .add => (old + b) % 2 ^ w
  | .min => if less then old else b
  | .max => if less then b else old
  | .and => old &&& b
  | .or => old ||| b
  | .xor => old ^^^ b
  | .exch | .cas => b

/-- Bytes of a word with a byte mask laid over them. -/
def overlay (mask : BitVec 4) (new old : Nat) : Nat :=
  (List.range 4).foldl (fun acc i => acc + 256 ^ i *
    (if mask.getLsbD i then new / 256 ^ i % 256 else old / 256 ^ i % 256)) 0

/-- A cache word, and whether it spans 8 bytes. -/
def MscWord.size : MscWord → Nat
  | .bytes _ _ => 4
  | .red _ ty _ => ty.bits / 8

/-- The value a cache word gives its bytes, over what HBM holds there. -/
def MscWord.merge (w : MscWord) (old : Nat) : Nat :=
  match w with
  | .bytes mask data => overlay mask data.toNat old
  | .red op ty val => atomNew op ty old val.toNat

def findMsc : List MscEnt → Nat → Option MscEnt
  | [], _ => none
  | e :: l, line => if e.line = line then some e else findMsc l line

/-- The cache word that covers a byte address, by word number. -/
def MscEnt.wordAt (e : MscEnt) (pa : Nat) : Option (Nat × MscWord) :=
  e.words.find? fun (k, w) => 4 * k ≤ pa && pa < 4 * k + w.size

/-- The free byte at an address of the open ranges. -/
def openByte (l : List (Nat × Nat × Nat)) (pa : Nat) : Option Byte :=
  (l.find? fun x => x.1 ≤ pa && pa < x.2.1).map fun x => BitVec.ofNat 8 (Config.free x.2.2 (2 ^ 62 + pa))

/-- One byte as the stacks hold it. -/
def State.hbmByte (s : State) (pa : Nat) : Byte :=
  match openByte s.openBytes pa with
  | some b => b
  | none => spGet s.hbm pa

/-- One byte of coherent memory. -/
def State.memByte (s : State) (pa : Nat) : Byte :=
  match findMsc s.msc (pa / 64) with
  | none => s.hbmByte pa
  | some e =>
    match e.wordAt pa with
    | none => s.hbmByte pa
    | some (k, w) => BitVec.ofNat 8 (w.merge (spNat s.hbm (4 * k) w.size) / 256 ^ (pa - 4 * k))

/-- `n` bytes of coherent memory. -/
def State.memBytes (s : State) (pa : Nat) : Nat → List Byte
  | 0 => []
  | n + 1 => s.memByte pa :: s.memBytes (pa + 1) n

/-- A little-endian number in coherent memory. -/
def State.memNat (s : State) (pa n : Nat) : Nat := natOf (s.memBytes pa n)

/-- Combine one cache word into HBM. -/
def settleWord (m : Sparse 8) (kw : Nat × MscWord) : Sparse 8 :=
  spPutNat m (4 * kw.1) kw.2.size (kw.2.merge (spNat m (4 * kw.1) kw.2.size))

/-! ### Protected ranges (R406 to R408) -/

/-- The context whose protected range holds an address. -/
def State.protOf (s : State) (pa : Nat) : Option Nat :=
  (List.range 16).find? fun c => match s.protRange c with
    | some (b, n) => b ≤ pa && pa < b + n
    | none => false

/-- Take [lo, hi) out of a list of ranges. -/
def cutRanges (lo hi : Nat) (l : List (Nat × Nat × Nat)) : List (Nat × Nat × Nat) :=
  l.flatMap fun (a, b, n) =>
    (if a < min b lo then [(a, min b lo, n)] else []) ++ (if max a hi < b then [(max a hi, b, n)] else [])

/-- The bytes of [lo, hi) become free values, for no one's write. -/
def State.openRange (s : State) (lo hi : Nat) : State :=
  let (n, s) := s.fresh
  { s with
    hbm := spErase s.hbm lo hi
    msc := s.msc.filter fun e => 64 * e.line < lo || hi ≤ 64 * e.line
    badMac := cutRanges lo hi s.badMac
    openBytes := cutRanges lo hi s.openBytes ++ [(lo, hi, n)] }

/-- A write of a line of a protected range's data part steps its minor counter, and the major one at a wrap; the MACs,
counter lines and tree that the carve-out holds change with it (R406, R407). DESIGN CHOICE: no rule places them in it, so
its bytes are free values (notes/assumptions/18.md). -/
def State.countWrite (s : State) (line : Nat) : State :=
  if s.mregs.keyCtl.isEmpty then s
  else match (s.protOf (64 * line)).bind s.protRange with
  | none => s
  | some (b, n) =>
    if b + n / 8 * 7 ≤ 64 * line then s
    else
      let m := spGet s.minors line + 1
      let page := line / 64
      State.openRange { s with
        minors := spSet s.minors line m
        majors := if m = 0 then spSet s.majors page (spGet s.majors page + 1) else s.majors } (b + n / 8 * 7) (b + n)

/-- 64-byte lines that [pa, pa + n) touches. -/
def linesOf (pa n : Nat) : List Nat :=
  if n = 0 then [] else (List.range ((pa + n - 1) / 64 - pa / 64 + 1)).map (pa / 64 + ·)

/-- Bytes of a context image: one part of 4300 KiB for each core (R373). -/
def Part.imageSize (p : Part) : Nat := p.cores * (4300 * 1024)

/-- A write into the image of a saved context leaves its check in doubt (R373). -/
def State.markImages (s : State) (pa n : Nat) : State :=
  if s.ctxs.all (fun x => x.2.image.isEmpty) then s
  else { s with ctxs := s.ctxs.map fun (c, x) =>
    if !x.image.isEmpty && max pa x.imageAt < min (pa + n) (x.imageAt + s.part.imageSize) then (c, { x with imageOk := false })
    else (c, x) }

/-! ### The memory-side cache writes to HBM (R13, R398, R407, R409) -/

/-- A word fully stored. -/
def MscWord.stored : MscWord → Bool
  | .bytes m _ => m == 15
  | .red _ _ _ => false

/-- An entry whose words are all fully stored (R398). -/
def MscEnt.full (e : MscEnt) : Bool :=
  (List.range 16).all fun i => ((alGet e.words (16 * e.line + i)).map MscWord.stored).getD false

/-- The cache holds all of a line as stored bytes: reading it needs nothing of HBM. -/
def State.covered (s : State) (line : Nat) : Bool :=
  match findMsc s.msc line with
  | some e => e.full
  | none => false

/-- A whole line written to HBM loses its poison (R409), and its check is made anew (R407). -/
def State.wholeBurst (s : State) (line : Nat) : State :=
  { s with
    poison := s.poison.filter (· != line)
    badMac := cutRanges (64 * line) (64 * line + 64) s.badMac }

/-- Write a cache entry to HBM and drop it (R398): a whole burst where its words are all fully stored, else merged; its
line's write counters step as the data leaves (R407). -/
def State.mscEvict (s : State) (line : Nat) : State :=
  match findMsc s.msc line with
  | none => s
  | some e =>
    let s := { s with hbm := e.words.foldl settleWord s.hbm, msc := s.msc.filter (·.line != line) }
    (if e.full then s.wholeBurst line else s).countWrite line

/-- Entries of one stack's cache: 4 MiB of 64 bytes each (R13). -/
def mscLimit : Nat := 65536

/-- Room for a new entry in the cache of a line's stack: where it is full, its oldest entry goes. -/
def State.mscRoom (s : State) (line : Nat) : State :=
  let mine := s.msc.filter fun e => s.stackOf (64 * e.line) == s.stackOf (64 * line)
  match mine with
  | e :: _ => if mscLimit ≤ mine.length then s.mscEvict e.line else s
  | [] => s

/-- Store one byte at the home slice, which sends it on to the memory-side cache: into the line's entry, or into a new
one (R13, R398). The slice keeps nothing newer than what it sends (notes/assumptions/53.md). -/
def State.memPutByte (s : State) (pa : Nat) (b : Byte) : State :=
  let i := pa % 4
  let one (mask : BitVec 4) (data : BitVec 32) : MscWord :=
    .bytes (mask ||| BitVec.twoPow 4 i) (BitVec.ofNat 32 (overlay (BitVec.twoPow 4 i) (b.toNat * 256 ^ i) data.toNat))
  match findMsc s.msc (pa / 64) with
  | none =>
    let s := s.mscRoom (pa / 64)
    { s with msc := s.msc ++ [MscEnt.mk (pa / 64) [(pa / 4, one 0 0)]] }
  | some e =>
    let put (hbm : Sparse 8) (words : List (Nat × MscWord)) (w : MscWord) : State :=
      { s with hbm := hbm, msc := mapFirst (·.line == e.line) (fun x => { x with words := alSet words (pa / 4) w }) s.msc }
    match e.wordAt pa with
    | none => put s.hbm e.words (one 0 0)
    | some (k, .bytes mask data) => put s.hbm (e.words.filter (·.1 != k)) (one mask data)
    | some (k, w) => put (settleWord s.hbm (k, w)) (e.words.filter (·.1 != k)) (one 0 0)

/-- Store bytes at successive addresses, one by one. -/
def State.memPutEach (s : State) (pa : Nat) : List Byte → State
  | [] => s
  | b :: bs => (s.memPutByte pa b).memPutEach (pa + 1) bs

/-- Store bytes at successive addresses. -/
def State.memPutRaw (s : State) (pa : Nat) (bs : List Byte) : State := s.memPutEach pa bs

/-- Before a write to lines of an open range, what they hold becomes plain bytes. -/
def State.thaw (s : State) (pa n : Nat) : State :=
  if s.openBytes.isEmpty then s
  else
    let lo := pa / 64 * 64
    let hi := ceilDiv (pa + n) 64 * 64
    { s with hbm := spPutBlock s.hbm lo ((List.range (hi - lo)).map fun i => s.hbmByte (lo + i)),
             openBytes := cutRanges lo hi s.openBytes }

/-! ### What bytes have held (R244, R269) -/

/-- The bytes of [pa, pa + n) are about to change: what they hold is remembered. -/
def State.remember (s : State) (pa n : Nat) : State :=
  if n = 0 then s else { s with hist := s.hist ++ [Past.mk pa (pa + n) (spNonzero pa (s.memBytes pa n)) [] false] }

/-- The same for a large range, as the stacks hold it once the memory-side caches have written it back. `zeroed`: the
memory controller zeroes it. -/
def State.rememberBlock (s : State) (lo hi : Nat) (zeroed : Bool) : State :=
  let e := (s.msc.filter fun e => lo < 64 * e.line + 64 && 64 * e.line < hi).foldl (fun s e => s.mscEvict e.line) s
  { s with hist := s.hist ++ [Past.mk lo hi (e.hbm.filter fun x => lo ≤ x.1 && x.1 < hi)
      (e.openBytes.filter fun x => x.1 < hi && lo < x.2.1) zeroed] }

/-- The byte at an address at an earlier moment, named by how much had been remembered by then. -/
def State.byteAt (s : State) (moment pa : Nat) : Byte :=
  match (s.hist.drop moment).find? fun x => x.lo ≤ pa && pa < x.hi with
  | some x => (openByte x.opens pa).getD (spGet x.old pa)
  | none => s.memByte pa

/-- The moment after the last zeroing of bytes [pa, pa + n), which happens-before every access to them (R267). -/
def State.zeroMoment (s : State) (pa n : Nat) : Nat :=
  s.hist.zipIdx.foldl (fun m x => if x.1.zeroed && x.1.lo < pa + n && pa < x.1.hi then x.2 + 1 else m) 0

/-- Store bytes in HBM4E: they stand in the memory-side cache until it writes them (R398). -/
def State.memPut (s : State) (pa : Nat) (bs : List Byte) : State :=
  (((s.thaw pa bs.length).remember pa bs.length).memPutRaw pa bs).markImages pa bs.length

/-! ### Watches, ownership and L1 copies (R237, R256, R260) -/

/-- A write to a watched word has performed. -/
def State.hitWatches (s : State) (pa n : Nat) : State :=
  if s.watches.isEmpty then s
  else { s with watches := s.watches.map fun w =>
    if w.addr < pa + n ∧ pa < w.addr + w.bytes then { w with hit := true } else w }

/-- Word mask of [pa, pa + n) within its 128-byte line. -/
def wordMask (line pa n : Nat) : BitVec 32 :=
  (List.range 32).foldl (fun m i =>
    if 128 * line + 4 * i < pa + n ∧ pa < 128 * line + 4 * i + 4 then m ||| BitVec.twoPow 32 i else m) 0

def lines128 (pa n : Nat) : List Nat :=
  if n = 0 then [] else (List.range ((pa + n - 1) / 128 - pa / 128 + 1)).map (pa / 128 + ·)

/-- Revoke the copy a core holds as owner of words of [pa, pa + n). -/
def Core.revoke (c : Core) (pa n : Nat) : Core :=
  { c with l1 := c.l1.map fun l =>
      let m := wordMask l.line pa n &&& l.owned
      { l with owned := l.owned &&& ~~~m, valid := l.valid &&& ~~~m } }

/-- Register a core's ownership of words of [pa, pa + n). -/
def Core.own (c : Core) (pa n : Nat) : Core :=
  (lines128 pa n).foldl (fun c line =>
    let m := wordMask line pa n
    if c.l1.any (·.line == line) then
      let up (l : L1Line) : L1Line := { l with owned := l.owned ||| m, valid := l.valid ||| m }
      { c with l1 := mapFirst (·.line == line) up c.l1 }
    else { c with l1 := (c.l1 ++ [L1Line.mk line 0 m m none]).drop (c.l1.length + 1 - 1024) }) c

/-- Revoke every other core's ownership. -/
def State.revokeOthers (s : State) (core : Option Nat) (pa n : Nat) : State :=
  { s with cores := s.cores.map fun (k, c) => if core = some k then (k, c) else (k, c.revoke pa n) }

/-- A write performs at the home slice (R256): the previous owner's copy is revoked, watches are hit. `core`: the core
that becomes owner, if any. -/
def State.performHbm (s : State) (core : Option Nat) (pa : Nat) (bs : List Byte) : State :=
  let s := (s.memPut pa bs).revokeOthers core pa bs.length
  let s := match core with
    | some c => s.modCore c (·.own pa bs.length)
    | none => s
  s.hitWatches pa bs.length

/-- The device has written [pa, pa + n) of HBM with bytes that the spec does not give: each is a free value until it is
written again (notes/assumptions/13.md, 14.md). -/
def State.openPa (s : State) (pa n : Nat) : State :=
  let (k, s) := s.fresh
  let s := (s.msc.filter fun e => pa < 64 * e.line + 64 && 64 * e.line < pa + n).foldl (fun s e => s.mscEvict e.line) s
  let s := ((linesOf pa n).foldl State.countWrite (s.rememberBlock pa (pa + n) false)).markImages pa n
  let s : State := { s with hbm := spErase s.hbm pa (pa + n)
                            openBytes := cutRanges pa (pa + n) s.openBytes ++ [(pa, pa + n, k)] }
  (s.revokeOthers none pa n).hitWatches pa n

/-- A write performs where its address lies: at the home slice, at the mailbox (R381), or in host memory through an
outbound window (R412). -/
def State.perform (s : State) (core : Option Nat) (pa : Nat) (bs : List Byte) : State :=
  match s.placeOf pa with
  | .hbm => s.performHbm core pa bs
  | .mailbox => { s with mailbox := spPutBlock s.mailbox (pa - mailboxBase) bs }
  | .outbound => { s with hostMem := spPutBlock s.hostMem (pa - outboundBase) bs }
  | .window | .unassigned => s

/-- One byte as a core reads it: a valid L1 copy it does not own, which may be stale, or coherent memory. -/
def State.coreByte (s : State) (c : Core) (pa : Nat) : Byte :=
  match c.l1.find? (·.line == pa / 128) with
  | none => s.memByte pa
  | some l =>
    let i := pa % 128
    if l.valid.getLsbD (i / 4) && !l.owned.getLsbD (i / 4) then l.data.extractLsb' (8 * i) 8 else s.memByte pa

/-- The check of a 64-byte line fails (R408): every line of a range that another key encrypted, and of one whose
carve-out was overwritten those that a free value names. -/
def State.failsMac (s : State) (line : Nat) : Bool :=
  s.badMac.any fun x => x.1 ≤ 64 * line && 64 * line < x.2.1 &&
    (x.2.2 == 0 || Config.free x.2.2 (2 ^ 60 + line) % 2 == 1)

/-! ### The L2 slices (R12, R396) -/

/-- 128-byte lines of a slice: 1.5 MiB (R12). -/
def sliceLimit : Nat := 12288

/-- The slice that counts a 128-byte line, numbered over the device (R396, with HOME 8). -/
def State.sliceNumber (s : State) (line : Nat) : Nat := 32 * s.homeDie (128 * line) 8 + homeSlice (128 * line)

/-- A slice has read a line: it holds it, and where it is full its oldest line goes. -/
def State.sliceFill (s : State) (line : Nat) : State :=
  let k := s.sliceNumber line
  { s with slices := alSet s.slices k ((line :: ((alGet s.slices k).getD []).filter (· != line)).take sliceLimit) }

/-- The home slice still holds a 64-byte line that it once read, so that reading it needs nothing of memory. DESIGN
CHOICE: which lines it has kept is a free value (notes/assumptions/53.md). -/
def State.inSlice (s : State) (line : Nat) : Bool :=
  ((alGet s.slices (s.sliceNumber (line / 2))).getD []).contains (line / 2) &&
  Config.free s.tick (2 ^ 49 + line) % 2 == 1

/-- Reading a 64-byte line fails: it is poisoned (R409) or its check fails (R408), and neither the memory-side cache nor
its home slice holds all of it. -/
def State.badLine (s : State) (line : Nat) : Bool :=
  (s.poison.contains line || s.failsMac line) && !s.covered line && !s.inSlice line

/-- A byte that the device reads for itself: a line that cannot be read gives no data, a free value (R408, R409;
notes/assumptions/57.md). -/
def State.devByte (s : State) (pa : Nat) : Byte :=
  if s.badLine (pa / 64) then BitVec.ofNat 8 (Config.free s.tick (2 ^ 59 + pa)) else s.memByte pa

def State.devBytes (s : State) (pa : Nat) : Nat → List Byte
  | 0 => []
  | n + 1 => s.devByte pa :: s.devBytes (pa + 1) n

/-- Fill a core's L1 line: words it does not hold come from coherent memory. -/
def State.l1Fill (s : State) (core line : Nat) (forwarded : Option Nat) : State :=
  let mem : BitVec 1024 := BitVec.ofNat 1024 (s.memNat (128 * line) 128)
  let half (k : Nat) (m : BitVec 32) : BitVec 32 := if s.badLine (2 * line + k) then 0 else m
  let good : BitVec 32 := half 0 0x0000FFFF ||| half 1 0xFFFF0000
  (if good = 0xFFFFFFFF then s.sliceFill line else s).modCore core fun c =>
    match c.l1.find? (·.line == line) with
    | none => { c with l1 := (c.l1 ++ [L1Line.mk line mem good 0 forwarded]).drop (c.l1.length + 1 - 1024) }
    | some _ =>
      let word (keep : BitVec 32) (d : BitVec 1024) (i : Nat) : BitVec 1024 :=
        if keep.getLsbD i then d
        else (d &&& ~~~((BitVec.ofNat 1024 0xFFFFFFFF) <<< (32 * i))) |||
          (((mem.extractLsb' (32 * i) 32).setWidth 1024) <<< (32 * i))
      let up (l : L1Line) : L1Line :=
        let keep : BitVec 32 := if forwarded.isSome then 0 else l.valid &&& ~~~l.owned
        { l with data := (List.range 32).foldl (word keep) l.data, valid := keep ||| good ||| l.owned,
                 forwarded := if forwarded.isSome then forwarded else l.forwarded }
      { c with l1 := mapFirst (·.line == line) up c.l1 }

/-- An L1 copy that the core does not own leaves the L1, as it may at any time. -/
def Core.dropCopy (c : Core) (line : Nat) : Core :=
  { c with l1 := c.l1.filterMap fun l =>
      if l.line ≠ line then some l else if l.owned = 0 then none else some { l with valid := l.owned } }

/-- A core's copy of words it wrote elsewhere than through its store buffer is no longer valid. -/
def Core.forget (c : Core) (pa n : Nat) : Core :=
  { c with l1 := c.l1.map fun l => { l with valid := l.valid &&& (~~~(wordMask l.line pa n) ||| l.owned) } }

/-- An acquire on a core (R260): L1 words it does not own go, but for lines that `keep` forwarded (R246). -/
def Core.acquire (c : Core) (keep : Option Nat) : Core :=
  { c with l1 := c.l1.filterMap fun l =>
      if keep.isSome && l.forwarded == keep then some l
      else if l.owned = 0 then none
      else some { l with valid := l.owned, forwarded := none } }

def State.acquire (s : State) (core : Nat) (keep : Option Nat) : State := s.modCore core (·.acquire keep)

/-! ### The store buffer's view (R223) -/

/-- The byte a store-buffer entry holds for an address. -/
def StoreEnt.byte (e : StoreEnt) (pa : Nat) : Option Byte :=
  if e.line = pa / 128 ∧ e.mask.getLsbD (pa % 128) then some (e.data.extractLsb' (8 * (pa % 128)) 8) else none

/-- The task's most recent buffered store to a byte: the last entry that holds it. -/
def bufferedByte (task pa : Nat) : List StoreEnt → Option Byte
  | [] => none
  | e :: l => match bufferedByte task pa l with
    | some b => some b
    | none => if e.owner = task then e.byte pa else none

/-! ### Translation (R399 to R406) -/

/-- A failed translation: the cause, the level that stopped it (0 to 3), and whether no entry was read (R404). -/
structure XErr where
  cause : Cause
  level : Nat
  nowalk : Bool
deriving DecidableEq, Repr

/-- What a walk finds: the leaf, its ZFU bit and the address of its entry. -/
structure Found where
  ent : TlbEnt
  zfu : Bool
  at_ : Nat
deriving DecidableEq, Repr

/-- The claim of the leaf's page would zero its entry (R405). -/
def Found.selfZero (f : Found) : Bool := f.zfu && f.ent.pbase ≤ f.at_ && f.at_ < f.ent.pbase + f.ent.size

/-- Shift of a level's index, and its number of index bits (R399). -/
def levelShift : Nat → Nat
  | 0 => 39 | 1 => 30 | 2 => 21 | _ => 16

def levelBits : Nat → Nat
  | 3 => 5 | _ => 9

/-- An entry, as the walker reads it: of a line that cannot be read it is a free value (notes/assumptions/57.md). -/
def State.entryAt (s : State) (at_ : Nat) : Nat := natOf (s.devBytes at_ 8)

/-- The address of a level's entry for `va` in a table (R399). -/
def entryAddr (va level table : Nat) : Nat := table + 8 * natBits va (levelShift level) (levelBits level)

/-- A walk from the table of a level; `fuel` is the levels left (R400). -/
def State.walkFrom (s : State) (ctx va : Nat) : Nat → Nat → Nat → Except XErr Found
  | 0, level, _ => .error ⟨.translationMissing, level, false⟩
  | fuel + 1, level, table =>
    let at_ := entryAddr va level table
    let e := s.entryAt at_
    let miss : Except XErr Found := .error ⟨.translationMissing, level, false⟩
    let addr := natBits e 8 40 * 256
    let zfu := natBit e 63
    let home := natBits e 56 4
    let size := 2 ^ levelShift level
    if !natBit e 0 || natBits e 60 3 != 0 || natBits e 48 8 != 0 || natBits e 5 3 != 0 then miss
    else if natBit e 1 then
      if level = 0 then miss
      else if addr % size != 0 then miss
      else if !(addr + size ≤ s.memTop || (0xF00000000000 ≤ addr && addr < 2 ^ 48)) then miss
      else if zfu && s.memTop ≤ addr then miss
      else if 9 ≤ home || (home < 8 && s.part.dies ≤ home) then miss
      else .ok ⟨⟨ctx, va / size * size, size, addr, home, natBit e 2, natBit e 3, natBit e 4, level⟩, zfu, at_⟩
    else if level = 3 || s.memTop ≤ addr || zfu || home != 0 || natBits e 2 3 != 0 then miss
    else s.walkFrom ctx va fuel (level + 1) addr

/-- The cached leaf that maps an address. -/
def tlbFind (l : List TlbEnt) (ctx va : Nat) : Option TlbEnt :=
  l.find? fun e => e.ctx == ctx && e.vbase ≤ va && va < e.vbase + e.size

/-- The cached leaf of a virtual address, of the core's TLB or the die's (R402). -/
def State.cachedLeaf (s : State) (core ctx va : Nat) : Option TlbEnt :=
  (tlbFind (s.core core).tlb ctx va).or (tlbFind ((s.dieTlb.filter (·.1 == dieOf core)).map (·.2)) ctx va)

/-- The leaf of a virtual address, from a TLB or a walk; none at all while VALID of the context's XLAT_ROOT is 0
(R401). -/
def State.foundLeaf (s : State) (core ctx va : Nat) : Except XErr Found :=
  let root := spGet s.mregs.root ctx
  if 2 ^ 48 ≤ va || !root.getLsbD 0 then .error ⟨.translationMissing, 0, true⟩
  else match s.cachedLeaf core ctx va with
    | some e => .ok ⟨e, false, 0⟩
    | none => s.walkFrom ctx va 4 0 (field root 12 36 * 4096)

/-- What an access needs of a leaf (R401), and whether it may reach a device window (R394). -/
structure Need where
  r : Bool
  w : Bool
  x : Bool
  window : Bool
deriving DecidableEq, Repr

/-- [pa, pa + n) meets a protected range (R406). -/
def State.meetsProt (s : State) (pa n : Nat) : Bool :=
  (List.range 16).any fun c => match s.protRange c with
    | some (b, z) => max pa b < min (pa + n) (b + z)
    | none => false

/-- Permission of a leaf at an address: R401, R394, R406 (of the page that the leaf names, as a whole), R413. -/
def State.permits (s : State) (n : Need) (e : TlbEnt) (pa : Nat) : Bool :=
  (!n.r || e.r) && (!n.w || e.w) && (!n.x || e.x) &&
  (match s.placeOf pa with
   | .hbm =>
     match s.protRange e.ctx with
     | some (b, z) => b ≤ e.pbase && e.pbase + e.size ≤ b + z / 8 * 7
     | none => !s.meetsProt e.pbase e.size
   | .mailbox | .outbound => n.window
   | .window | .unassigned => false)

/-- The address lies in a protected range that is not yet initialised: what accesses it waits (R408). -/
def State.notReady (s : State) (pa : Nat) : Bool :=
  match s.protOf pa with
  | some c => !(spGet s.mregs.keyCtl c).getLsbD 2
  | none => false

/-- A walk from the table of a level reads an entry that is not READY (R408). -/
def State.walkWaits (s : State) (va : Nat) : Nat → Nat → Nat → Bool
  | 0, _, _ => false
  | fuel + 1, level, table =>
    let at_ := entryAddr va level table
    let e := s.entryAt at_
    s.notReady at_ || (natBit e 0 && !natBit e 1 && s.walkWaits va fuel (level + 1) (natBits e 8 40 * 256))

/-- An access to a virtual address waits for a protected range: its walk does, or what it reaches (R408). -/
def State.accessWaits (s : State) (core ctx va : Nat) : Bool :=
  ((spGet s.mregs.root ctx).getLsbD 0 && (s.cachedLeaf core ctx va).isNone &&
    s.walkWaits va 4 0 (field (spGet s.mregs.root ctx) 12 36 * 4096)) ||
  (match s.foundLeaf core ctx va with
   | .ok f => s.notReady (f.ent.pbase + (va - f.ent.vbase))
   | .error _ => false)

/-- Put a leaf into the core's TLB and its die's (R402). -/
def State.tlbFill (s : State) (core : Nat) (e : TlbEnt) : State :=
  let s := s.modCore core fun c =>
    if (tlbFind c.tlb e.ctx e.vbase).isSome then c else { c with tlb := (e :: c.tlb).take 64 }
  let die := dieOf core
  if s.dieTlb.any (fun x => x.1 == die && x.2.ctx == e.ctx && x.2.vbase == e.vbase) then s
  else { s with dieTlb := ((die, e) :: s.dieTlb.filter (·.1 == die)).take 16384 ++ s.dieTlb.filter (·.1 != die) }

/-- Zero [lo, hi) at the memory controller: no cache, slice or L1 holds a line of it (R405, R408), each line's write
counts (R407), and watches of it are hit (R237). -/
def State.zeroPages (s : State) (lo hi : Nat) : State :=
  let out (l k : Nat) : Bool := k * l < lo || hi ≤ k * l
  let s := s.rememberBlock lo hi true
  let s := if s.meetsProt lo (hi - lo) then (linesOf lo (hi - lo)).foldl State.countWrite s else s
  State.hitWatches { s with
    hbm := spErase s.hbm lo hi,
    openBytes := cutRanges lo hi s.openBytes,
    msc := s.msc.filter fun e => out e.line 64,
    poison := s.poison.filter fun l => out l 64,
    badMac := cutRanges lo hi s.badMac,
    slices := s.slices.map fun (k, ls) => (k, ls.filter (out · 128)),
    cores := s.cores.map fun (k, c) => (k, { c with l1 := c.l1.filter fun l => out l.line 128 }) } lo (hi - lo)

/-- Claim a zero-on-first-use page and clear ZFU by compare-and-swap on its entry: one that has changed meanwhile, which
the claim itself does where the page holds it, stays as it is (R405). -/
def State.zfuClaim (s : State) (f : Found) : State :=
  let old := s.memNat f.at_ 8
  let s := s.zeroPages f.ent.pbase (f.ent.pbase + f.ent.size)
  if s.memNat f.at_ 8 = old && natBit old 63 then s.perform none f.at_ (bytesOf 8 (old - 2 ^ 63)) else s

/-- The leaf that an access goes through. The claim of a zero-on-first-use page that holds its own entry zeroes the
entry, and the walk begins again (R405). -/
def State.leafOf (s : State) (core ctx va : Nat) : Except XErr Found :=
  match s.foundLeaf core ctx va with
  | .error e => .error e
  | .ok f => if f.selfZero then (s.zfuClaim f).foundLeaf core ctx va else .ok f

/-- Translate and check permission. -/
def State.xlate (s : State) (core ctx va : Nat) (n : Need) : Except XErr Nat :=
  match s.leafOf core ctx va with
  | .error e => .error e
  | .ok f =>
    let pa := f.ent.pbase + (va - f.ent.vbase)
    if s.permits n f.ent pa then .ok pa else .error ⟨.permission, f.ent.level, false⟩

/-- HOME of the leaf of an address, 8 where none is found. -/
def State.homeOf (s : State) (core ctx va : Nat) : Nat :=
  match s.leafOf core ctx va with
  | .ok f => f.ent.home
  | .error _ => 8

/-- What a translated access does to the translation state: it claims a ZFU page and, where that changed the entry,
walks again; and it caches the leaf (R402, R405). -/
def State.touchFrom : Nat → State → Nat → Nat → Nat → State
  | 0, s, _, _, _ => s
  | fuel + 1, s, core, ctx, va =>
    match s.foundLeaf core ctx va with
    | .error _ => s
    | .ok f => if f.zfu then State.touchFrom fuel (s.zfuClaim f) core ctx va else s.tlbFill core f.ent

def State.touch (s : State) (core ctx va : Nat) : State := State.touchFrom 8 s core ctx va

/-- Touch the pages of several addresses. -/
def State.touchAll (s : State) (core ctx : Nat) (vas : List Nat) : State :=
  vas.foldl (fun s va => s.touch core ctx va) s

/-- Latch a translation or permission fault in XLAT_FAULT of the core (R404). `kind`: 0 load, 1 store or atomic,
2 code fetch, 3 engine or walk. The walk has claimed a page that it met with ZFU (R405). -/
def State.latchXlat (s : State) (core kind ctx va : Nat) (e : XErr) : State :=
  let s := s.touch core ctx va
  let r := (s.core core).regs.xlatFault
  if r.getLsbD 48 then s.modCore core fun c => { c with regs := { c.regs with xlatFault := r ||| BitVec.twoPow 64 49 } }
  else
    let v : Nat := va % 2 ^ 48 + 2 ^ 48 + (if r.getLsbD 49 then 2 ^ 49 else 0) + (if e.nowalk then 2 ^ 50 else 0) +
      ctx % 16 * 2 ^ 56 + (if e.nowalk then 0 else e.level % 4) * 2 ^ 60 + kind % 4 * 2 ^ 62
    (s.modCore core fun c => { c with regs := { c.regs with xlatFault := BitVec.ofNat 64 v } }).irq 6

/-! ### The device's own accesses by virtual address (R189, R201) -/

def needR : Need := ⟨true, false, false, false⟩
def needW : Need := ⟨false, true, false, false⟩
def needRW : Need := ⟨true, true, false, false⟩
def needX : Need := ⟨false, false, true, false⟩

/-- Cut [va, va + n) at 64 KiB boundaries. -/
def chunks : Nat → Nat → Nat → List (Nat × Nat)
  | 0, _, _ => []
  | fuel + 1, va, n =>
    if n = 0 then []
    else
      let k := min n (65536 - va % 65536)
      (va, k) :: chunks fuel (va + k) (n - k)

def pieces (va n : Nat) : List (Nat × Nat) := chunks (n / 65536 + 2) va n

/-- The first byte of [va, va + n) whose translation fails, by piece. -/
def State.firstBad (s : State) (core ctx : Nat) (nd : Need) : List (Nat × Nat) → Option (Nat × XErr)
  | [] => none
  | (va, _) :: l => match s.xlate core ctx va nd with
    | .error e => some (va, e)
    | .ok _ => s.firstBad core ctx nd l

/-- Touch every page of [va, va + n). -/
def State.touchSpan (s : State) (core ctx va n : Nat) : State := s.touchAll core ctx ((pieces va n).map (·.1))

/-- Read bytes by virtual address, or the fault with its address. -/
def State.vread (s : State) (core ctx va n : Nat) (nd : Need) : Except (Nat × XErr) (List Byte) :=
  match s.firstBad core ctx nd (pieces va n) with
  | some x => .error x
  | none => .ok ((pieces va n).flatMap fun (a, k) =>
      match s.leafOf core ctx a with
      | .ok f => if f.zfu then List.replicate k 0 else s.devBytes (f.ent.pbase + (a - f.ent.vbase)) k
      | .error _ => [])

/-- Write bytes by virtual address at their home slices, or the fault with its address. -/
def State.vwrite (s : State) (core ctx va : Nat) (bs : List Byte) (nd : Need) : Except (Nat × XErr) State :=
  match s.firstBad core ctx nd (pieces va bs.length) with
  | some x => .error x
  | none => .ok (((pieces va bs.length).foldl (fun (acc : State × List Byte) (p : Nat × Nat) =>
      match acc.1.xlate core ctx p.1 nd with
      | .ok pa => ((acc.1.touch core ctx p.1).perform none pa (acc.2.take p.2), acc.2.drop p.2)
      | .error _ => acc) (s, bs)).1)

/-- The device has written bytes of its own by virtual address: those whose pages translate to HBM are open. A page
with ZFU is claimed first (R405). -/
def State.openVa (s : State) (core ctx va n : Nat) : State :=
  let s := s.touchSpan core ctx va n
  (pieces va n).foldl (fun s p => match s.xlate core ctx p.1 needRW with
    | .ok pa => if s.placeOf pa = .hbm then s.openPa pa p.2 else s
    | .error _ => s) s

end Sys2Proof.Machine
end

