-- ==== Sys2Proof/Machine/Ends.lean ====
section
/-! DEFINITION. How work ends: waking parked warps (08_tasks R206), future cells resolving and being freed (R166 to
R168), handle records and engine operations being released or aborted (13_tiles R292, R293, R303, R304; 14_matrix
R338), a task leaving its slot, reaching DONE or being killed (R169, R170, R247), a job being killed (R197). -/

namespace Sys2Proof.Machine

/-! ### Waking -/

/-- A parked task's wait is satisfied: in its slot it runs again, saved it becomes RUNNABLE (R206). A task stopped in a
frame stays stopped (R380). -/
def Task.wake (t : Task) (clk : Nat) : Task :=
  if t.stop.isSome then { t with park := none, spinExpired := false }
  else if t.slot.isSome then { t with park := none, st := .running, spinExpired := false }
  else { t with park := none, st := .runnable, runnableAt := clk, spinExpired := false }

def State.wake (s : State) (u : Nat) : State := s.modTask u (·.wake s.clk)

/-- Wake every task whose park a test picks. -/
def State.wakeAll (s : State) (p : Task → Park → Bool) : State :=
  { s with tasks := s.tasks.map fun t => match t.park with
      | some k => if p t k then t.wake s.clk else t
      | none => t }

/-- A barrier of a task's warp falls by one (R38). -/
def State.dropBar (s : State) (u b : Nat) : State :=
  s.modWarp u fun w => { w with bars := spSet w.bars b (spGet w.bars b - 1) }

def State.dropBars (s : State) (l : List (Nat × Nat)) : State := l.foldl (fun s (u, b) => s.dropBar u b) s

/-- One part of an instruction's accesses has performed; its barrier falls with the last (R233). -/
def State.spendToken (s : State) (core id : Nat) : State :=
  match (s.core core).tokens.find? (·.id == id) with
  | none => s
  | some k =>
    if 1 < k.left then
      s.modCore core fun c => { c with tokens := mapFirst (·.id == id) (fun k => { k with left := k.left - 1 }) c.tokens }
    else (s.modCore core fun c => { c with tokens := c.tokens.filter (·.id != id) }).dropBar k.task k.bar

/-! ### Future cells (R165 to R168) -/

/-- Key of the cell a handle names. -/
def cellKey (h : BitVec 32) : Nat := h.toNat / 2 ^ 29 * 2 ^ 17 + natBits h.toNat 12 17

def handleOf (c : Cell) : BitVec 32 :=
  BitVec.ofNat 32 (c.key / 2 ^ 17 * 2 ^ 29 + c.key % 2 ^ 17 * 2 ^ 12 + c.gen.toNat)

/-- A handle that is valid for a job (R165). -/
def State.validCell (s : State) (job : BitVec 32) (h : BitVec 32) : Option Cell :=
  if h.toNat / 2 ^ 29 < s.part.dies ∧ natBits h.toNat 12 17 ≠ 0 then
    match s.cell? (cellKey h) with
    | some c => if c.st != .free && c.gen.toNat == h.toNat % 4096 && c.job == job then some c else none
    | none => none
  else none

/-- The cell becomes FREE and its generation advances (R166). -/
def Cell.freed (c : Cell) : Cell :=
  { c with st := .free, gen := c.gen + 1, bound := .none, latched := none, val := 0, cause := 0, freeAsked := false,
           readers := [], from_ := 0 }

/-- A free that was asked for takes effect once every waiter has read (R168). -/
def Cell.tidy (c : Cell) : Cell := if c.freeAsked && c.readers.isEmpty && c.st != .pending then c.freed else c

/-- A task has read the cell, or will not. -/
def State.cellRead (s : State) (k u : Nat) : State :=
  match s.cell? k with
  | some c => s.setCell { c with readers := c.readers.filter (· != u) }.tidy
  | none => s

/-- Ask for a free of a resolved cell. -/
def State.cellFree (s : State) (k : Nat) : State :=
  match s.cell? k with
  | some c => s.setCell { c with freeAsked := true }.tidy
  | none => s

/-- A task or range leaves its result future with a value or a cause; gates registered on the cell resolve in turn, so
the work is a list of resolutions, `fuel` of them at most. -/
inductive Resolve where
  | ready (val : BitVec 64)
  | broken (cause : BitVec 8)
deriving DecidableEq, Repr

/-- Comparison of SPAWNG on the gate's value (R180). -/
def gateHolds (g : Gate) (v : BitVec 64) : Bool :=
  let a := v.toNat % 2 ^ 32
  let b := g.comparand.toNat
  let lt := if g.signed then decide (toSigned 32 a < toSigned 32 b) else decide (a < b)
  match g.cmp with
  | .eq => a == b | .ne => a != b | .lt => lt | .le => lt || a == b | .gt => !(lt || a == b) | .ge => !lt | .rdy => true

/-- An unused task identifier of a die (R163). -/
def State.newIdent (s : State) (core : Nat) : BitVec 32 × State :=
  let (p, s) := s.pick (2 ^ 29)
  let cand (i : Nat) : BitVec 32 := BitVec.ofNat 32 (dieOf core * 2 ^ 29 + (p + s.nextUid + i) % 2 ^ 29)
  let used (x : BitVec 32) : Bool := s.tasks.any fun t => t.ident == x && t.st != .done && !s.gated t.uid
  match (List.range (s.tasks.length + 1)).find? fun i => !used (cand i) with
  | some i => (cand i, s)
  | none => (cand 0, s)

/-- A dropped or finished task no longer counts: DONE, holding nothing. -/
def Task.finish (t : Task) : Task :=
  { t with st := .done, park := none, slot := none, saved := false, saveAt := none, inPool := false, reserved := false,
           names := [], stop := none, posted := [], opened := none }

/-- One gate meets its resolved cell: what becomes of its task, and the further resolution it causes. A line that enters
the deque gets its task identifier now (R163). -/
def State.gateMeets (s : State) (g : Gate) (r : Resolve) : State × List (BitVec 32 × Resolve) :=
  match s.task? g.task with
  | none => (s, [])
  | some t =>
    let drop (s : State) : State := s.modTask g.task Task.finish
    match r with
    | .broken c => (drop s, [(t.fut, .broken c)])
    | .ready v =>
      if gateHolds g v then
        let (ident, s) := s.newIdent g.core
        ((s.modTask g.task fun t => { t with ident := ident }).modCore g.core fun c =>
          { c with spilled := .group t.job [g.task] :: c.spilled }, [])
      else (drop s, [(t.fut, .ready v)])

/-- Apply resolutions: each cell becomes READY or BROKEN, its parked JOINs wake, its gates resolve (R168, R180). DESIGN
CHOICE: several gates of one cell resolve in the order of their registration, so that the last stands hottest
(notes/assumptions/60.md). -/
def State.resolveAll : Nat → State → Nat → List (BitVec 32 × Resolve) → State
  | 0, s, _, _ => s
  | _, s, _, [] => s
  | fuel + 1, s, who, (h, r) :: rest =>
    match if h = 0 then none else s.cell? (cellKey h) with
    | none => State.resolveAll fuel s who rest
    | some c =>
      let waits (t : Task) : Bool := match t.park with
        | some (.join x) => cellKey x == c.key
        | _ => false
      let readers := (s.tasks.filter waits).map (·.uid)
      let gs := s.gates.filter fun g => cellKey g.cell == c.key
      let c := match r with
        | .ready v => { c with st := .ready, val := v, bound := .none, latched := none, readers := readers, from_ := who }
        | .broken x => { c with st := .broken, cause := x, bound := .none, latched := none, readers := readers,
                                from_ := who }
      let c := if gs.any (·.consume) then { c with freeAsked := true } else c
      let s := (s.setCell c.tidy).wakeAll (fun t _ => waits t)
      let s := { s with gates := s.gates.filter fun g => cellKey g.cell != c.key }
      let (s, more) := gs.foldl (fun (acc : State × List (BitVec 32 × Resolve)) g =>
        let (s, l) := acc.1.gateMeets g r
        (s, acc.2 ++ l)) (s, [])
      State.resolveAll fuel s who (more ++ rest)

/-- Resolve one future; `who` is the task whose end did it. -/
def State.resolve (s : State) (who : Nat) (h : BitVec 32) (r : Resolve) : State :=
  State.resolveAll (2 * s.gates.length + 2) s who [(h, r)]

/-- The latched value or its lack decides a bound cell at its producer's DONE (R166): BROKEN with 0xA0 where no value
is latched. -/
def State.settleFuture (s : State) (who : Nat) (h : BitVec 32) : State :=
  match if h = 0 then none else s.cell? (cellKey h) with
  | none => s
  | some c => match c.latched with
    | some v => s.resolve who h (.ready v)
    | none => s.resolve who h (.broken 0xA0)

/-! ### Handle records and engine operations -/

/-- The record an operation writes. -/
def OpKind.writes : OpKind → Option Nat
  | .stage (.record r) _ _ => some r
  | .pgath r _ _ _ _ => some r
  | .gathl (.record r) _ _ => some r
  | _ => none

/-- The records an operation reads or writes. -/
def OpKind.records : OpKind → List Nat
  | .stage (.record r) _ _ => [r]
  | .drain (.record r) _ _ _ _ => [r]
  | .pgath r _ _ _ _ => [r]
  | .gathl (.record r) _ _ => [r]
  | _ => []

/-- The scratchpad offset an operation writes at. -/
def OpKind.scratchDst : OpKind → Option Nat
  | .stage (.scratch off) _ _ => some off
  | .psel off _ _ _ _ _ _ _ => some off
  | .gathl (.scratch off) _ _ => some off
  | _ => none

/-- The scratchpad bytes [lo, hi) that an operation has still to write. -/
def EngOp.toFill (o : EngOp) : Nat × Nat :=
  match o.kind.scratchDst with
  | some off => (off + min o.total (512 * o.credited), off + o.total)
  | none => (0, 0)

/-- Some operation of the core still fills a scratchpad line. -/
def Core.filling (c : Core) (line : Nat) : Bool :=
  c.ops.any fun o => o.toFill.1 < 128 * line + 128 && 128 * line < o.toFill.2

/-- The record a matrix operation writes. -/
def MKind.writes : MKind → Option Nat
  | .mma c _ _ _ _ _ _ _ _ _ => some c
  | .macz c _ _ => some c
  | .macr a _ _ _ _ => some a
  | .mldw _ _ _ | .mflip | .macrV _ _ _ _ _ => none

def MKind.records : MKind → List Nat
  | .mldw w _ _ => [w]
  | .mflip => []
  | .mma c a _ _ _ _ _ _ _ sp => c :: a :: (match sp with | some (m, _, _) => [m] | none => [])
  | .macz c _ _ => [c]
  | .macr a c _ _ _ => [a, c]
  | .macrV _ c _ _ _ => [c]

def Core.modRec (c : Core) (r : Nat) (f : HRec → HRec) : Core := { c with recs := mapFirst (·.idx == r) f c.recs }

/-- A record is still being written. -/
def Core.beingWritten (c : Core) (r : Nat) : Bool :=
  c.ops.any (fun o => o.kind.writes == some r) || c.mx.ops.any (fun o => o.kind.writes == some r)

/-- A record is used by some operation. -/
def Core.inUse (c : Core) (r : Nat) : Bool :=
  c.ops.any (fun o => o.kind.records.contains r) || c.mx.ops.any (fun o => o.kind.records.contains r)

/-- FILLING ends with the last operation that writes the tile (R292). -/
def Core.settleRec (c : Core) (r : Nat) : Core :=
  if c.beingWritten r then c
  else c.modRec r fun x => if x.st = .filling then { x with st := .valid } else x

def Core.dropLocks (c : Core) (op : Nat) : Core := { c with locks := c.locks.filter (·.op != op) }

/-- Set the state of a ring's slot. -/
def Core.setSlot (c : Core) (ring slot : Nat) (st : SlotSt) : Core :=
  let up (r : Ring) : Ring := { r with states := r.states.mapIdx fun i x => if i = slot then (st, 0) else x }
  { c with rings := mapFirst (·.idx == ring) up c.rings }

/-- Pending lines that no operation fills any more become absent (R225). -/
def Core.dropPending (c : Core) : Core :=
  { c with lines := c.lines.filter fun (k, st) => !(st == .pending && !c.filling k) }

/-- Take an aborted operation away (R303): locks removed, its record VALID, its ring slot FAILED. -/
def Core.abortOp (c : Core) (o : EngOp) : Core :=
  let c := ({ c with ops := c.ops.filter (·.uid != o.uid) }.dropLocks o.uid).dropPending
  let c := match o.kind.writes with
    | some r => c.settleRec r
    | none => c
  match o.ringSlot with
  | some (r, k) => c.setSlot r k .failed
  | none => c

/-- The state of a ring's slot; every slot of an undefined ring reads as FAILED (R307). -/
def Core.slotSt (c : Core) (ring slot : Nat) : SlotSt :=
  match c.rings.find? (·.idx == ring) with
  | none => .failed
  | some r => match r.states[slot % r.slots]? with
    | some (st, _) => st
    | none => .failed

/-- Presence of a scratchpad line (R225). -/
def Core.lineSt (c : Core) (k : Nat) : LineSt := (alGet c.lines k).getD .absent

/-- Abort one engine operation of a core, with its barrier. -/
def State.abortOp (s : State) (core : Nat) (o : EngOp) : State :=
  let s := s.modCore core (·.abortOp o)
  match o.bar with
  | some b => s.dropBar o.owner b
  | none => s

/-- Discard a task's matrix operations (R338): queued ones go, an admitted one stops at its step, keeping the rows
written. -/
def State.dropMatrix (s : State) (core u : Nat) : State :=
  let mine := (s.core core).mx.ops.filter (·.owner == u)
  let s := s.modCore core fun c =>
    let c := { c with mx := { c.mx with ops := c.mx.ops.filter (·.owner != u),
                                        requests := c.mx.requests.filter (·.1 != u) } }
    mine.foldl (fun c o => (match o.kind.writes with
      | some r => (c.dropLocks o.uid).settleRec r
      | none => c.dropLocks o.uid)) c
  mine.foldl (fun s o => s.dropBars o.bars) s

/-- Release the record a name maps (R293): it becomes RELEASED. -/
def Core.releaseRec (c : Core) (r : Nat) : Core := c.modRec r fun x => { x with st := .released }

/-- A task's end releases every name it still maps (R293). -/
def State.releaseNames (s : State) (t : Task) : State :=
  let recs := t.names.filterMap fun (_, n) => match n with
    | .mapped r => some r
    | .unmapped | .released => none
  (s.modCore t.core fun c => recs.foldl Core.releaseRec c).modTask t.uid fun t => { t with names := [] }

/-! ### Leaving a slot, ending, DONE -/

def Task.granules (t : Task) : Nat := t.warp.count / 4 + 3

/-- The warp's slot frees and its generation advances (R68). -/
def State.freeSlot (s : State) (t : Task) : State :=
  match t.slot with
  | none => s
  | some k => (s.modCore t.core fun c => { c with gens := spSet c.gens k (spGet c.gens k + 1) }).modTask
      t.uid fun t => { t with slot := none }

/-- A member's granules join its cohort's free count (R71). A trap task runs in its faulting warp's granules. -/
def State.giveBack (s : State) (t : Task) : State :=
  if t.trapOf.isSome then s else s.modCohort t.cohort fun c => { c with free := c.free + t.granules }

/-- Convergence registers whose owning cohort has no live member return to idle (R186). -/
def State.idleCvs (s : State) (core cohort : Nat) : State :=
  if (s.liveMembers cohort).isEmpty then
    s.modCore core fun c => { c with cvs := c.cvs.filter (·.owner != cohort) }
  else s

/-- A spawned child of a range is done: the range resolves with the last (R179). -/
def State.rangeDone (s : State) (t : Task) (kill : Option Cause) : State :=
  match t.range with
  | none => s
  | some (r, i) =>
    let upd (x : Range) : Range :=
      { x with finished := x.finished + 1,
               worst := match kill, x.worst with
                 | some c, some (j, d) => if i < j then some (i, c) else some (j, d)
                 | some c, none => some (i, c)
                 | none, w => w }
    let s := s.modRange r upd
    match s.range? r with
    | none => s
    | some x =>
      if x.finished = x.total then
        match x.worst with
        | none => s.resolve t.uid x.fut (.ready (BitVec.ofNat 64 x.total))
        | some (_, c) => s.resolve t.uid x.fut (.broken (BitVec.ofNat 8 c.code))
      else s

/-- The root task is DONE, be it killed with a cause: the job is RETIRING (R193, R200). -/
def State.rootDone (s : State) (t : Task) (cause : Option Cause := none) : State :=
  if t.anc.isEmpty && t.trapOf.isNone then
    s.modJob t.job fun j =>
      let j := { j with rootDone := true, rootKilled := j.rootKilled.or cause }
      if j.st = .active || j.st = .pending then { j with st := .retiring } else j
  else s

/-- A task that ended reaches DONE, and its future resolves (R169). -/
def State.reachDone (s : State) (u : Nat) : State :=
  match s.task? u with
  | none => s
  | some t =>
    let s := s.setTask t.finish
    let s := if t.range.isSome then s.rangeDone t none else s.settleFuture u t.fut
    s.rootDone t

/-- The core that holds a warp parked in JOIN on the task's result future (R246). -/
def State.joinerOf (s : State) (t : Task) : Option Nat :=
  (s.tasks.find? fun x => match x.park with
    | some (.join h) => t.fut != 0 && cellKey h == cellKey t.fut && x.slot.isSome
    | _ => false).map (·.core)

/-- Step 1 of a task's end (R169): TEND or the last EXIT. -/
def State.endTask (s : State) (u : Nat) : State :=
  match s.task? u with
  | none => s
  | some t =>
    let joiner := s.joinerOf t
    let s := (s.freeSlot t).giveBack t
    let s := s.releaseNames t
    (s.modTask u fun t => { t with st := .ending, park := none, joiner := joiner, inPool := false }).idleCvs t.core t.cohort

/-! ### Kills -/

/-- Take a task out of every deque, steal and gate. -/
def dropFromEntry (u : Nat) : Entry → Option Entry
  | .group j ms => let l := ms.filter (· != u); if l.isEmpty then none else some (.group j l)
  | .range j r lo hi => some (.range j r lo hi)

def State.unlist (s : State) (u : Nat) : State :=
  { s with
    cores := s.cores.map fun (k, c) => (k, { c with
      deque := c.deque.filterMap (dropFromEntry u), spilled := c.spilled.filterMap (dropFromEntry u),
      agent := { c.agent with arriving := c.agent.arriving.filterMap (dropFromEntry u) } })
    gates := s.gates.filter (·.task != u)
    watches := s.watches.filter (·.task != u)
    cells := s.cells.map fun c =>
      if c.readers.contains u then { c with readers := c.readers.filter (· != u) }.tidy else c }

/-- Kill one task (R170, R247): its slot frees, its operations and names go, its future breaks with the cause. It is
DONE once its buffered stores have drained (`settleKilled`). A task that waits in an open cohort of the killed spawner
goes with it (R173). -/
def State.killOne (s : State) (u : Nat) (cause : Cause) : State :=
  match s.task? u with
  | none => s
  | some t =>
    if t.st = .done || t.killedBy.isSome then s
    else
      let s := s.unlist u
      let placed := t.slot.isSome || t.saved || t.inPool
      let s := s.freeSlot t
      let s := if placed && t.st != .ending then s.giveBack t else s
      let s := s.dropMatrix t.core u
      let s := ((s.core t.core).ops.filter (·.owner == u)).foldl (fun s o => s.abortOp t.core o) s
      let s := s.releaseNames t
      let s := s.modTask u fun t => { t.finish with st := .ending, killedBy := some cause, regions := [] }
      let s := s.idleCvs t.core t.cohort
      let s := if t.range.isSome then s.rangeDone t (some cause)
        else s.resolve u t.fut (.broken (BitVec.ofNat 8 cause.code))
      s.rootDone t (some cause)

/-- Kill a task and the members of a cohort it has open. -/
def State.killTask (s : State) (u : Nat) (cause : Cause) : State :=
  let opened := match s.task? u with
    | some t => (match t.opened with | some (_, _, l) => l | none => [])
    | none => []
  opened.foldl (fun s m => s.killOne m cause) (s.killOne u cause)

/-- Depth-first list of a job and its descendants, deepest first (R197). -/
def jobTree : Nat → List Job → BitVec 32 → List (BitVec 32)
  | 0, _, i => [i]
  | fuel + 1, js, i => (js.filter (·.parent == some i)).flatMap (fun j => jobTree fuel js j.id) ++ [i]

/-- Drop the untaken indices of a job's ranges: each counts as a killed child (R179). -/
def State.killRanges (s : State) (job : BitVec 32) (cause : Cause) : State :=
  let keep : Entry → Bool
    | .range j _ _ _ => j != job
    | .group _ _ => true
  let cut := s.cores.flatMap fun (_, c) => (c.deque ++ c.spilled ++ c.agent.arriving).filter (!keep ·)
  let s := { s with cores := s.cores.map fun (k, c) =>
    (k, { c with deque := c.deque.filter keep, spilled := c.spilled.filter keep,
                 agent := { c.agent with arriving := c.agent.arriving.filter keep } }) }
  cut.foldl (fun s e => match e with
    | .range _ r lo hi => match s.range? r with
      | none => s
      | some x =>
        let x := { x with finished := x.finished + (hi - lo),
                          worst := match x.worst with
                            | some (j, d) => if lo < j then some (lo, cause) else some (j, d)
                            | none => if lo < hi then some (lo, cause) else none }
        let s := s.modRange r fun _ => x
        if x.finished = x.total then
          (match x.worst with
           | some (_, c) => s.resolve 0 x.fut (.broken (BitVec.ofNat 8 c.code))
           | none => s)
        else s
    | .group _ _ => s) s

/-- Kill a job: its child jobs first, deepest first, then its own tasks (R197). -/
def State.killJob (s : State) (id : BitVec 32) (cause : Cause) : State :=
  (jobTree 16 s.jobs id).foldl (fun s j =>
    match s.job? j with
    | none => s
    | some job =>
      if job.st = .retired || job.killed.isSome then s
      else
        let s := s.modJob j fun x => { x with killed := some cause }
        let s := s.killRanges j cause
        let s := (s.tasks.filter (·.job == j)).foldl (fun s t => s.killOne t.uid cause) s
        s.modJob j fun x => { x with st := .retiring, rootDone := true, image := false, requeueing := false }) s

end Sys2Proof.Machine
end

