-- ==== Sys2Proof/Machine/Ops.lean ====
section
/-! DEFINITION. The named operations of a warp: registers and their pending results (02_encoding R37 to R42, 03 R60),
guards (R33), code fetch and branch checks (R23 to R31, R153, 10_memory R239), the mailbox (R381), escalation (R370),
and taking a trap as one shared operation (R367, R368, R379) with the return from one beside it (R369); then the
frame that every instruction issues in (`issue`). -/

namespace Sys2Proof.Machine

/-! ### Registers -/

/-- A register as the files hold it. p7 and q7 read true (R60). -/
def rget (w : Warp) (k : RKey) : BitVec 32 :=
  match k.file with
  | .v => spGet w.v k.key
  | .g => spGet w.g k.key
  | .x => spGet w.x k.key
  | .p => if 224 ≤ k.key then 1 else spGet w.p k.key
  | .q => if 7 ≤ k.key then 1 else spGet w.q k.key

/-- Write a register. A write to p7 or q7 is discarded (R60); x registers keep 30 bits (R58 table). -/
def rset (w : Warp) (k : RKey) (x : BitVec 32) : Warp :=
  match k.file with
  | .v => { w with v := spSet w.v k.key x }
  | .g => { w with g := spSet w.g k.key x }
  | .x => { w with x := spSet w.x k.key (x &&& 0x3FFFFFFF) }
  | .p => if 224 ≤ k.key then w else { w with p := spSet w.p k.key x }
  | .q => if 7 ≤ k.key then w else { w with q := spSet w.q k.key x }

def putWrites (w : Warp) : List RegWrite → Warp
  | [] => w
  | x :: l => putWrites (rset w x.at_ x.val) l

def kv (n lane : Nat) : RKey := ⟨.v, 32 * n + lane⟩
def kg (n : Nat) : RKey := ⟨.g, n⟩
def kx (n lane : Nat) : RKey := ⟨.x, 32 * n + lane⟩
def kp (n lane : Nat) : RKey := ⟨.p, 32 * n + lane⟩
def kq (n : Nat) : RKey := ⟨.q, n⟩

/-- Values written to some key of a list. -/
def writesKey (l : List RegWrite) (k : RKey) : Bool := l.any (·.at_ == k)

/-- A register whose writes are discarded (R60). -/
def RKey.lost (k : RKey) : Bool := (k.file == .p && 224 ≤ k.key) || (k.file == .q && 7 ≤ k.key)

/-- The writes of a result that reach a register. -/
def keptWrites (ws : List RegWrite) : List RegWrite := ws.filter (!·.at_.lost)

/-- A result that the key waits for. -/
def Warp.inFlight (w : Warp) (k : RKey) : Bool := w.inflight.any fun i => writesKey i.writes k

/-- A result without the writes that a test finds. -/
def Inflight.without (i : Inflight) (p : RegWrite → Bool) : Inflight := { i with writes := i.writes.filter (!p ·) }

/-- The results that stay in flight when those land that a test picks: an older one no longer writes what a newer one
has written, so that all writes keep program order (R37). -/
def staying (now : Inflight → Bool) : List Inflight → List Inflight
  | [] => []
  | i :: l =>
    let rest := staying now l
    if now i then rest else i.without (fun x => l.any fun j => now j && writesKey j.writes x.at_) :: rest

/-- A result that was written at once: no older one writes its registers any more. -/
def Warp.putNow (w : Warp) (ws : List RegWrite) : Warp :=
  putWrites { w with inflight := w.inflight.map (·.without fun x => writesKey ws x.at_) } ws

/-- Barriers fall, each by one (R38). -/
def Warp.fall (w : Warp) (l : List Nat) : Warp :=
  { w with bars := l.foldl (fun b n => spSet b n (spGet b n - 1)) w.bars }

/-- Results land, oldest first, with their barriers; the rest stay in flight. -/
def Warp.land (w : Warp) (now rest : List Inflight) : Warp :=
  (putWrites { w with inflight := rest } (now.flatMap (·.writes))).fall (now.filterMap (·.bar))

/-- The results that a test picks land. -/
def Warp.landOf (w : Warp) (now : Inflight → Bool) : Warp := w.land (w.inflight.filter now) (staying now w.inflight)

/-- A result of the pipe whose distance is spent after `d` more. -/
def Inflight.spent (d : Nat) (i : Inflight) : Bool := i.source == .pipe && i.left ≤ d

/-- `d` of distance passes: results whose distance is spent land. -/
def Warp.pass (w : Warp) (d : Nat) : Warp :=
  w.land (w.inflight.filter (·.spent d)) ((staying (·.spent d) w.inflight).map fun i => { i with left := i.left - d })

/-- A result that the matrix engine does not bring. -/
def Inflight.lands (i : Inflight) : Bool :=
  match i.source with
  | .pipe | .request _ => true
  | .array _ => false

/-- Every result lands, but for those that wait for the matrix engine. -/
def Warp.landAll (w : Warp) : Warp := w.landOf (·.lands)

/-- A result with a barrier is written by its clk, however long the warp waits for it (R38). -/
def Inflight.dueBy (i : Inflight) (clk : Nat) : Bool := i.bar.isSome && (i.due.any (· ≤ clk))

/-- The results with a barrier that are written by a clk land. -/
def Warp.landDue (w : Warp) (clk : Nat) : Warp :=
  if w.inflight.any (·.dueBy clk) then w.landOf (·.dueBy clk) else w

/-- The results of the instruction that issues now: the last of them to be written lowers its barrier, which rises
(R38). -/
def Warp.launch (w : Warp) (clk : Nat) (bar : Option Nat) : Warp :=
  let fresh := w.inflight.filter (·.due.isNone)
  let far := fresh.foldl (fun m i => max m i.left) 0
  let last (i : Inflight) : Bool := i.due.isNone && i.left == far
  let w := { w with inflight := w.inflight.map fun i =>
    if i.due.isSome then i else { i with due := some (clk + i.left), bar := if last i then bar else none } }
  match bar with
  | some b => if fresh.isEmpty then w
    else { w with bars := spSet w.bars b (spGet w.bars b + BitVec.ofNat 6 (fresh.filter last).length) }
  | none => w

/-- Outstanding variable-latency results of a task. -/
def Core.returnsOf (c : Core) (u : Nat) : List Return := c.returns.filter (·.task == u)

/-- The key's most recent producer has not written yet (R42). -/
def State.pendingKey (_ : State) (t : Task) (k : RKey) : Bool := t.warp.inFlight k

/-- What a register holds in the eyes of a read, with results in flight, the newest first (R42): a result of the pipe is
passed over, as if its producer were not there; of a request's result and what was there before it, `took` says which. -/
def Warp.seen (w : Warp) (k : RKey) (took : Nat → Bool) : List Inflight → BitVec 32
  | [] => rget w k
  | i :: older =>
    match i.source, i.writes.find? (·.at_ == k) with
    | .request u, some x => if took u then x.val else w.seen k took older
    | _, _ => w.seen k took older

/-- A read delivers in each lane what `Warp.seen` says, a free value choosing once for an operand of `n` registers and a
request (R42). -/
def State.readWide (s : State) (t : Task) (n : Nat) (k : RKey) : BitVec 32 :=
  if t.warp.inflight.isEmpty then rget t.warp k
  else
    let operand := match k.file with
      | .g => k.key / n
      | _ => k.key / 32 / n * 32 + k.key % 32
    t.warp.seen k (fun u => Config.free s.tick (operand + 2 ^ 16 * n + 2 ^ 64 * u) % 2 = 1) t.warp.inflight.reverse

/-- A register as an operand of one. -/
def State.readKey (s : State) (t : Task) (k : RKey) : BitVec 32 := s.readWide t 1 k

/-- Every result of a task lands, with its barriers: what a save waits for (R69, R212). -/
def State.landAll (s : State) (u : Nat) : State :=
  match s.task? u with
  | none => s
  | some t =>
    let rs := (s.core t.core).returnsOf u
    let s := s.modWarp u (·.landAll)
    let s := rs.foldl (fun s r => match r.bar with
      | some b => s.dropBar u b
      | none => s) s
    if rs.isEmpty then s else s.modCore t.core fun c => { c with returns := c.returns.filter (·.task != u) }

/-! ### Guards (R33, R140) -/

/-- The key a guard reads in a lane, or the q predicate's. -/
def guardKey (h : Hdr) (lane : Nat) : RKey := if h.u then kq h.pred.toNat else kp h.pred.toNat lane

/-- A predicate register as a truth value. -/
def State.readPred (s : State) (t : Task) (k : RKey) : Bool := (s.readKey t k).getLsbD 0

/-- The guard holds in a lane, or for the group-wide form. -/
def State.guardIn (s : State) (t : Task) (h : Hdr) (lane : Nat) : Bool := s.readPred t (guardKey h lane) != h.neg

/-- The effective lanes of a per-lane instruction. -/
def State.effLanes (s : State) (t : Task) (h : Hdr) : List Nat := (lanesOf t.warp.active).filter (s.guardIn t h ·)

/-! ### Code (R23 to R31, R153, R239) -/

/-- A 64-byte bundle's bits. -/
abbrev Bundle := BitVec 512

def Bundle.slot (b : Bundle) (n : Nat) : SlotWord := b.extractLsb' (96 * n) 96
def Bundle.format (b : Bundle) : BitVec 4 := b.extractLsb' (384 + 124) 4
def Bundle.landing (b : Bundle) : Bool := b.getLsbD (384 + 123)
def Bundle.valid (b : Bundle) : BitVec 4 := b.extractLsb' (384 + 118) 4
def Bundle.reserved (b : Bundle) : BitVec 22 := b.extractLsb' (384 + 96) 22
def Bundle.lit0 (b : Bundle) : BitVec 48 := b.extractLsb' 384 48
def Bundle.lit1 (b : Bundle) : BitVec 48 := b.extractLsb' (384 + 48) 48

/-- R27. -/
def Bundle.wellFormed (b : Bundle) : Bool := b.format == 1 && b.reserved == 0

/-- Bytes [0, 8) of an aligned unit of code, as a core may still hold them: what memory held at some moment since the
job's code was loaded and the core's last IFENCE for it, a free value choosing (R239, R269). -/
def State.codeUnit (s : State) (core : Nat) (j : Job) (pa : Nat) : List Byte :=
  let start := max j.codeAt ((alGet (s.core core).fences j.id.toNat).getD 0)
  let n := s.hist.length - start
  if n = 0 then s.devBytes pa 8
  else
    let m := start + Config.free s.tick (2 ^ 51 + pa) % (n + 1)
    if m = s.hist.length then s.devBytes pa 8 else (List.range 8).map fun i => s.byteAt m (pa + i)

/-- The bundle at a code offset of a job, as the core fetches it. -/
def State.bundleAt (s : State) (core : Nat) (j : Job) (off : Nat) : Except (Nat × XErr) Bundle :=
  if j.rec_.codeSize ≤ off then .ok 0
  else
    let va := j.rec_.codeBase + off
    match s.xlate core j.rec_.ctx va needX, s.leafOf core j.rec_.ctx va with
    | .error e, _ => .error (va, e)
    | .ok pa, .ok f =>
      .ok (BitVec.ofNat 512 (if f.zfu then 0 else natOf ((List.range 8).flatMap fun u => s.codeUnit core j (pa + 8 * u))))
    | .ok _, .error e => .error (va, e)

/-- A fetch leaves its translation behind (R402, R405). -/
def State.fetched (s : State) (core : Nat) (j : Job) (off : Nat) : State :=
  if j.rec_.codeSize ≤ off then s else s.touch core j.rec_.ctx (j.rec_.codeBase + off)

/-- The bundle that holds a code address. -/
def bundleOff (pc : BitVec 32) : Nat := pc.toNat / 64 * 64

/-- The slot number of an instruction address (R25). -/
def slotOf (pc : BitVec 32) : Nat := pc.toNat % 64 / 12

/-- The next valid slot after slot `n` of a bundle, else slot 0 of the following one (R25, R369). -/
def nextSlot (off n : Nat) (valid : BitVec 4) : BitVec 32 :=
  match (List.range 4).find? fun k => n < k && valid.getLsbD k with
  | some k => BitVec.ofNat 32 (off + 12 * k)
  | none => BitVec.ofNat 32 (off + 64)

/-! ### What stops an instruction at issue -/

/-- A cause and what its frame reports (R228, R368, R379, R404). -/
structure Raise where
  cause : Cause
  faddr : Nat
  lanes : BitVec 32
  /-- Lanes a watchpoint matched (R381, HITLANES of TYPE 3). -/
  hit : BitVec 32
  /-- The translation fault to latch: kind and address (R404). -/
  latch : Option (Nat × Nat × XErr)
deriving DecidableEq, Repr

/-- A group-wide cause without an address. -/
def raise0 (c : Cause) : Raise := ⟨c, 0, 0, 0, none⟩

inductive Halt where
  | raise (r : Raise)
  /-- Not issued: the warp tries again (R230, R301). -/
  | hold
  /-- Held for want of a copy descriptor, a range or a queue entry: the warp is not eligible (R298, R301, R331). -/
  | full
  | park (p : Park)
  /-- A wait that leaves a change behind: a registered watch, a request, a signature. -/
  | parkIn (s : State) (p : Park)
  /-- A cause that leaves a change behind (R385). -/
  | raiseIn (s : State) (r : Raise)
  /-- The instruction ends with this state: the device stopped the job, or waits in a way of its own. -/
  | done (s : State)
deriving DecidableEq, Repr

abbrev M := Except Halt

/-- Held at issue: `full` for want of room. -/
def heldFor (full : Bool) : Halt := if full then .full else .hold

def throwC {α : Type} (c : Cause) : M α := .error (.raise (raise0 c))

/-- R30: the checks of a taken branch's target. The fetch that finds a malformed bundle there has claimed its page
(R405). -/
def State.branchCheck (s : State) (t : Task) (target : BitVec 32) : M Unit :=
  match s.job? t.job with
  | none => throwC .bundleFormat
  | some j =>
    if target.toNat % 64 ≠ 0 then throwC .misalignedTarget
    else match s.bundleAt t.core j target.toNat with
      | .error (va, e) => .error (.raise ⟨e.cause, va, 0, 0, some (2, va, e)⟩)
      | .ok b =>
        if !b.wellFormed then .error (.raiseIn (s.fetched t.core j target.toNat) (raise0 .bundleFormat))
        else if !b.landing then throwC .landingDenied
        else .ok ()

/-! ### The mailbox and the escalation ring (R370, R381) -/

/-- A mailbox record's bytes. -/
def recordBytes (type cause core : Nat) (job task pc active hit : BitVec 32) (value : Nat) (time : BitVec 64)
    (seq : Nat) : List Byte :=
  bytesOf 1 type ++ bytesOf 1 cause ++ bytesOf 2 core ++ bytesOf 4 job.toNat ++ bytesOf 4 task.toNat ++
  bytesOf 4 pc.toNat ++ bytesOf 4 active.toNat ++ bytesOf 4 hit.toNat ++ bytesOf 8 value ++ bytesOf 8 time.toNat ++
  bytesOf 4 seq ++ bytesOf 20 0

/-- Append a record to the mailbox: DWR advances, or LOST gains 1 where the ring is full. -/
def State.mailboxPost (s : State) (mk : Nat → List Byte) : State :=
  let dwr := spNat s.mailbox 0 4
  let drd := spNat s.mailbox 4 4
  if (dwr + 2 ^ 32 - drd) % 2 ^ 32 = 47 then
    { s with mailbox := spPutNat s.mailbox 16 4 (spNat s.mailbox 16 4 + 1) }
  else
    let m := spPutBlock s.mailbox (64 * (1 + dwr % 47)) (mk dwr)
    { s with mailbox := spPutNat m 0 4 (dwr + 1) }.irq 4

def State.mailboxFull (s : State) : Bool :=
  (spNat s.mailbox 0 4 + 2 ^ 32 - spNat s.mailbox 4 4) % 2 ^ 32 == 47

/-- Write the escalation records held back, while the ring has room. -/
def State.flushEsc : Nat → State → State
  | 0, s => s
  | fuel + 1, s =>
    match s.escHeld with
    | [] => s
    | r :: rest =>
      let head := field s.cregs.escHead 0 32
      if (head + 2 ^ 32 - field s.cregs.escTail 0 32) % 2 ^ 32 < 64 then
        let bs := r.take 0x28 ++ bytesOf 4 head ++ r.drop 0x2C
        let pa := field s.cregs.escBase 12 36 * 4096 + 64 * (head % 64)
        let s := { s with escHeld := rest, cregs := { s.cregs with escHead := BitVec.ofNat 64 ((head + 1) % 2 ^ 32) } }
        State.flushEsc fuel (((if pa + 64 ≤ s.memTop then s.perform none pa bs else s)).irq 0)
      else s

/-- Post a record to the escalation ring; a full ring holds it back, and none is lost (R370). -/
def State.escPost (s : State) (r : List Byte) : State :=
  State.flushEsc (s.escHeld.length + 1) { s with escHeld := s.escHeld ++ [r] }

/-! ### The frame (R368) -/

/-- The words of a sparse register file at keys [lo, lo + n). -/
def fileBytes (m : Sparse 32) (lo n : Nat) : List Byte := (spTake m lo n).flatMap fun w => bytesOf 4 w.toNat

/-- A predicate file's index as a lane mask. -/
def predMask (m : Sparse 32) (idx : Nat) : Nat :=
  (List.range 32).foldl (fun acc l => if (spGet m (32 * idx + l)).getLsbD 0 then acc + 2 ^ l else acc) 0

/-- Everything a frame needs beside the warp. -/
structure FrameArgs where
  cause : Cause
  kind : Kind
  faddr : Nat
  lanes : BitVec 32
  pc : BitVec 32
  op : Option Nat
  opref : Nat
  pair : Bool
  opaddr : Bool
  code : Nat
deriving DecidableEq, Repr

def frameBytes (s : State) (t : Task) (a : FrameArgs) : List Byte :=
  let w := t.warp
  let bars := (List.range 4).foldl (fun acc n => acc + (spGet w.bars n).toNat * 2 ^ (6 * n)) 0
  let qp := (List.range 7).foldl (fun acc n => if (spGet w.q n).getLsbD 0 then acc + 2 ^ n else acc) 0
  bytesOf 1 a.cause.code ++ bytesOf 1 a.kind.code ++
  bytesOf 2 (a.op.isSome.toNat + 2 * a.pair.toNat + 4 * a.opaddr.toNat) ++ bytesOf 4 t.ident.toNat ++
  bytesOf 4 a.lanes.toNat ++ bytesOf 4 a.pc.toNat ++ bytesOf 8 a.faddr ++
  bytesOf 4 (t.line[2]?.getD 0).toNat ++ bytesOf 4 w.fpctl.toNat ++ bytesOf 4 w.live.toNat ++
  bytesOf 4 w.active.toNat ++ bytesOf 16 w.maskMap.toNat ++ bytesOf 4 qp ++ bytesOf 4 bars ++
  (List.range 7).flatMap (fun i => bytesOf 4 (predMask w.p i)) ++
  bytesOf 4 (w.width + 256 * (w.count / 4)) ++ bytesOf 4 w.issueIdx.toNat ++ bytesOf 4 t.sFut.toNat ++
  bytesOf 4 a.opref ++ bytesOf 4 t.core ++ bytesOf 8 s.timeNs.toNat ++ bytesOf 4 a.code ++ bytesOf 132 0 ++
  fileBytes w.g 0 128 ++ fileBytes w.x 0 256 ++ fileBytes w.v 0 (32 * w.count)

/-- Bits of FPCTL that exist (R128). -/
def fpctlMask : BitVec 32 := 0x3F3F

/-- Place sparse words from bytes, `n` words, keeping those a test admits. -/
def wordsFrom (keep : Nat → Bool) (bs : List Byte) (n : Nat) : Sparse 32 :=
  spNonzero 0 ((List.range n).map fun i => if keep i then BitVec.ofNat 32 (natOf ((bs.drop (4 * i)).take 4)) else 0)

/-- The warp with a frame's RW fields (R368, R369). -/
def restoreWarp (w : Warp) (bs : List Byte) : Warp :=
  let word (off : Nat) : Nat := natOf ((bs.drop off).take 4)
  let lane (i : Nat) : Bool := i % 32 < w.width
  { w with
    fpctl := BitVec.ofNat 32 (word 0x1C) &&& fpctlMask
    q := spNonzero 0 ((List.range 7).map fun i => if natBit (word 0x38) i then 1 else 0)
    p := spNonzero 0 ((List.range 224).map fun k =>
      if lane k && natBit (word (0x40 + 4 * (k / 32))) (k % 32) then 1 else 0)
    g := wordsFrom (fun _ => true) (bs.drop 0x100) 128
    x := spNonzero 0 (((List.range 256).map fun i =>
      if lane i then BitVec.ofNat 32 (natOf (((bs.drop 0x300).drop (4 * i)).take 4)) &&& 0x3FFFFFFF else 0))
    v := wordsFrom lane (bs.drop 0x700) (32 * w.count) }

/-! ### The slot save area (R187, R212) -/

/-- Index of a core in its job's set. -/
def coreIndex (j : Job) (core : Nat) : Nat := (j.rec_.coreSet.filter (· < core)).length

/-- Spaces taken in the save area of a job on a core, as [lo, hi) offsets. -/
def State.saveTaken (s : State) (j : Job) (core : Nat) : List (Nat × Nat) :=
  let base := j.rec_.saveBase + 2 ^ 23 * coreIndex j core
  s.tasks.filterMap fun t =>
    if t.job == j.id && t.core == core then t.saveAt.map fun (a, n) => (a - base, a - base + n) else none

/-- A free place of `n` bytes in the save area: one of those that start the area or follow a taken space (R212). -/
def State.savePlace (s : State) (j : Job) (core n : Nat) : Option Nat × State :=
  let taken := s.saveTaken j core
  let ok (o : Nat) : Bool := o + n ≤ 2 ^ 23 && taken.all fun (lo, hi) => o + n ≤ lo || hi ≤ o
  let cands := (0 :: taken.map fun (_, hi) => ceilDiv hi 128 * 128).filter ok
  if cands.isEmpty then (none, s)
  else
    let (k, s) := s.pick cands.length
    ((pickMod cands k).map (j.rec_.saveBase + 2 ^ 23 * coreIndex j core + ·), s)

/-- Bytes a saved warp of a register count occupies (R212, R368). -/
def saveBytes (count : Nat) : Nat := 0x700 + 128 * count + 8192

/-! ### Taking a trap (R367, R379, R370) -/

/-- A task at its beginning, with its closure line (R62, R161). -/
def mkTask (uid : Nat) (ident job : BitVec 32) (line : List (BitVec 32)) (core cohort member : Nat) (anc : List Nat)
    (fut : BitVec 32) : Task :=
  { uid := uid, ident := ident, job := job, line := line, st := .spawned, core := core, spawnCore := core,
    cohort := cohort, member := member, anc := anc, fut := fut, handed := false, range := none, warp := Warp.empty, slot := none,
    saved := false, park := none, parkedAt := 0, spinExpired := false, readyAt := 0, age := 0, waitCount := 0,
    starving := false, giveWay := false, counted := false, unacked := 0, forward := [], names := [], regions := [], toStage := [], resumed := false, saveAt := none,
    everHeld := false, clearFrom := 0, everRunnable := false, runnableAt := 0, takenAt := 0, wrote := [], priors := [], priorFrom := 0, ownHot := false, reserved := false, inPool := false,
    opened := none, posted := [], stop := none, trapOf := none, sCause := 0, sLanes := 0, sFut := 0,
    skipMatch := false, stepping := false, stream := 0, logPos := 0, trapPos := 0, spawned := 0,
    killedBy := none, joiner := none, endSaved := false, lastTime := 0 }

/-- The trap task of a stopped task (R367). DESIGN CHOICE: its stream is the stopped task's with bit 31 set, which the
trap tasks of one task share (notes/assumptions/67.md). -/
def trapTask (uid : Nat) (ident : BitVec 32) (t : Task) (cohort : Nat) (j : Job) (frame : Nat) (c : Cause) (k : Kind)
    (lanes : BitVec 32) (clk : Nat) : Task :=
  let args : List (BitVec 32) :=
    [BitVec.ofNat 32 frame, BitVec.ofNat 32 (frame / 2 ^ 32), BitVec.ofNat 32 c.code, BitVec.ofNat 32 k.code, t.ident]
  let line : List (BitVec 32) :=
    [BitVec.ofNat 32 (j.rec_.trapEntry + 2 ^ 27 + 2 ^ 28), 0, t.line[2]?.getD 0, 0, 0x10] ++ args ++ List.replicate 6 0
  { mkTask uid ident t.job line t.core cohort 0 (t.uid :: t.anc) 0 with
    st := .runnable, everRunnable := true, runnableAt := clk, trapOf := some t.uid, reserved := true, inPool := true,
    sCause := BitVec.ofNat 32 c.code, sLanes := lanes, sFut := t.sFut, stream := t.stream + 2 ^ 31, logPos := t.trapPos }

/-- Escalation record of a task (R370, TYPE 6). -/
def escRecord (s : State) (t : Task) (cause pc : Nat) (frame : Nat) : List Byte :=
  recordBytes 6 cause t.core t.job t.ident (BitVec.ofNat 32 pc) t.warp.active 0 frame s.timeNs 0

/-- Escalate a stopped task: it stays PARKED (R370). -/
def State.escalate (s : State) (u : Nat) : State :=
  match s.task? u with
  | none => s
  | some t =>
    match t.stop with
    | none => s
    | some x =>
      (s.setTask { t with stop := some { x with escalated := true } }).escPost
        (escRecord s t x.cause.code t.warp.pc.toNat (x.frame.getD 0))

/-- A debug event is sent to the mailbox, not to a trap task (R379). -/
def State.routed (s : State) (t : Task) (c : Cause) : Bool :=
  let job := BitVec.ofNat 32 (field s.cregs.dbgCtl 0 32)
  job != 0 && t.job == job &&
  ((match c with | .breakpoint | .watchpoint | .singleStep | .haltRequest => true | _ => false) || t.stepping)

/-- TYPE of a debug record (R379). -/
def debugType (c : Cause) : Nat :=
  match c with
  | .breakpoint => 1 | .watchpoint => 3 | .haltRequest => 4 | _ => 2

/-- Lane causes of R228, but for WATCHPOINT. -/
def laneCause (c : Cause) : Bool :=
  match c with
  | .regIndexBounds | .regNotAllocated | .handleReleased | .handleUnallocated | .handleBankMismatch | .handleFormat
  | .translationMissing | .permission | .undeclaredAccess | .rangeLocked | .misaligned | .scratchBounds => true
  | _ => false

/-- HITLANES (R381). -/
def hitLanes (t : Task) (r : Raise) : BitVec 32 :=
  match r.cause with
  | .breakpoint => t.warp.active
  | .watchpoint => if r.hit = 0 then r.lanes else r.hit
  | c => if laneCause c then r.lanes else 0

/-- A parked task's wait is withdrawn: its request for the lease, its signature, its watch. Its instruction issues
again when the task resumes. -/
def State.unpark (s : State) (u : Nat) : State :=
  match s.task? u with
  | none => s
  | some t =>
    match t.park with
    | none => s
    | some k =>
      let s := s.setTask { t with park := none }
      match k with
      | .lease _ _ _ => s.modCore t.core fun c =>
          { c with mx := { c.mx with requests := c.mx.requests.filter (·.1 != u) } }
      | .sign cv _ _ => s.modCore t.core fun c =>
          { c with cvs := c.cvs.map fun r =>
              if r.idx = cv then { r with signers := r.signers.filter (·.1 != u) } else r }
      | .waitv => { s with watches := s.watches.filter (·.task != u) }
      | _ => s

/-- A stopped task is PARKED; one in ENDING keeps its remaining steps (R248). -/
def Task.stopSt (t : Task) : TaskSt := if t.st = .ending then .ending else .parked

/-- Take the cause `r` in task `u`, with `pc` as the saved program counter: the one way an instruction or the device
stops a task. The warp's results land; the warp is saved into a frame of its job's slot save area; then the trap task
is built (R367), or the task is marked halted with a mailbox record (R379), or both tasks are escalated (R370). -/
def State.takeTrap (s : State) (u : Nat) (r : Raise) (kind : Kind) (pc : BitVec 32) (op : Option Nat := none)
    (pair : Bool := false) (opaddr : Bool := false) (code : Nat := 0) (budget : Bool := false) : State :=
  let s := s.landAll u
  let s := if kind = .posted then s else s.unpark u
  match s.task? u with
  | none => s
  | some t =>
    match s.job? t.job with
    | none => s
    | some j =>
      let s := match r.latch with
        | some (k, va, e) => s.latchXlat t.core k j.rec_.ctx va e
        | none => s
      let opref := match op with
        | some o => (((s.core t.core).ops.find? (·.uid == o)).map (·.desc)).getD 0xFFFFFFFF
        | none => 0xFFFFFFFF
      let a : FrameArgs := ⟨r.cause, kind, r.faddr, r.lanes, pc, op, opref, pair, opaddr, code⟩
      let n := saveBytes t.warp.count
      let (place, s) := match t.saveAt with
        | some (a, m) => if m = n then (some a, s) else s.savePlace j t.core n
        | none => s.savePlace j t.core n
      let stop : Stop := ⟨r.cause, kind, place, n, op, pair, false, false, budget, 0, []⟩
      let t := { t with
        warp := { t.warp with pc := pc }, counted := false, sCause := BitVec.ofNat 32 r.cause.code, sLanes := r.lanes,
        sFut := if r.cause = .futureBroken then t.sFut else 0 }
      match place with
      | none =>
        -- the save area cannot hold the frame: parked in its slot, escalated with frame address 0
        let s := s.setTask { t with st := t.stopSt, stop := some { stop with escalated := true } }
        let s := s.escPost (escRecord s t r.cause.code pc.toNat 0)
        match t.trapOf with
        | some f => s.escalate f
        | none => s
      | some frame =>
        match s.vwrite t.core j.rec_.ctx frame (frameBytes s t a) needRW with
        | .error (va, e) => (s.latchXlat t.core 3 j.rec_.ctx va e).killJob t.job e.cause
        | .ok s =>
          let t := { t with st := t.stopSt, slot := none, saved := true, inPool := false,
                            saveAt := some (frame, n), stop := some stop, stepping := false }
          if t.trapOf.isSome then
            let s := s.setTask { t with stop := some { stop with escalated := true } }
            let s := s.escPost (escRecord s t r.cause.code pc.toNat frame)
            match t.trapOf with
            | some f => s.escalate f
            | none => s
          else if s.routed ((s.task? u).getD t) r.cause then
            let s := s.setTask { t with stop := some { stop with halted := true } }
            s.mailboxPost fun seq => recordBytes (debugType r.cause) r.cause.code t.core t.job t.ident pc
              t.warp.active (hitLanes t r) frame s.timeNs seq
          else
            let s := s.setTask t
            let (cu, s) := s.fresh
            let (tu, s) := s.fresh
            let (ident, s) := s.newIdent t.core
            let tt := trapTask tu ident t cu j frame r.cause kind r.lanes s.clk
            { s with cohorts := s.cohorts ++ [Cohort.mk cu cu 1 0 0 [tu]], tasks := s.tasks ++ [tt] }

/-! ### The return from a trap (R369) -/

/-- Registers a frame holds (R368). -/
def Stop.count (x : Stop) : Nat := (x.bytes - 0x700 - 8192) / 128

/-- The task with its frame's RW fields, where the frame can be read; else its job is killed (R189). -/
def State.restoreFrame (s : State) (u : Nat) : State :=
  match s.task? u with
  | none => s
  | some t =>
    match t.stop, s.job? t.job with
    | some x, some j =>
      (match x.frame with
       | none => s
       | some f =>
         match s.vread t.core j.rec_.ctx f (0x700 + 128 * x.count) needRW with
         | .error (va, e) => (s.latchXlat t.core 3 j.rec_.ctx va e).killJob t.job e.cause
         | .ok bs =>
           -- granules that RCLAIM was served meanwhile read zero (R83, R380)
           let w := { restoreWarp { t.warp with count := x.count } bs with count := t.warp.count }
           s.setTask { t with warp := putWrites { w with fpctl := w.fpctl ||| x.flags } x.writes })
    | _, _ => s

/-- The valid slots of the bundle at an offset of a task's code. -/
def State.validAt (s : State) (t : Task) (off : Nat) : BitVec 4 :=
  match s.job? t.job with
  | none => 15
  | some j => match s.bundleAt t.core j off with
    | .ok b => b.valid
    | .error _ => 15

/-- The instruction that a pc comes to: the first valid slot from it on, in its bundle or in one of the `fuel` that
follow (R26). -/
def State.comesTo (s : State) (t : Task) : Nat → BitVec 32 → BitVec 32
  | 0, pc => pc
  | fuel + 1, pc =>
    let off := bundleOff pc
    match (List.range 4).find? fun k => slotOf pc ≤ k && (s.validAt t off).getLsbD k with
    | some k => BitVec.ofNat 32 (off + 12 * k)
    | none => State.comesTo s t fuel (BitVec.ofNat 32 (off + 64))

/-- The instruction after the one at `pc` in execution order (R369), for a pair after its second slot. -/
def State.afterPc (s : State) (t : Task) (pc : BitVec 32) (pair : Bool) : BitVec 32 :=
  let at_ := s.comesTo t 64 pc
  nextSlot (bundleOff at_) (slotOf at_ + pair.toNat) (s.validAt t (bundleOff at_))

/-- A stopped task may run again: in its remaining steps (R248), PARKED in its wait where it still waits (R380), else
RUNNABLE. -/
def State.release (s : State) (u : Nat) : State :=
  s.modTask u fun t =>
    let t := { t with stop := none, runnableAt := s.clk, resumed := true }
    if t.st = .ending then { t with saved := false, saveAt := none }
    else if t.park.isSome then { t with st := .parked }
    else if t.slot.isSome then { t with st := .running } else { t with st := .runnable }

/-- The engine operation a frame names resumes at its first uncredited segment, or is aborted (R303, R369). -/
def State.opAnswer (s : State) (t : Task) (op : Option Nat) (abort : Bool) : State :=
  match op with
  | none => s
  | some o =>
    match (s.core t.core).ops.find? (·.uid == o) with
    | none => s
    | some e =>
      if abort then s.abortOp t.core e
      else s.modCore t.core fun c => { c with ops := mapFirst (·.uid == o) (fun e => { e with paused := false }) c.ops }

/-- A warp leaves its slot for an image (R69, R372): its results land, and a running task becomes RUNNABLE, to go on
where it stands. -/
def State.stopWarp (s : State) (u : Nat) : State :=
  (s.landAll u).modTask u fun t =>
    if t.slot.isNone then t
    else { t with slot := none, saved := true, inPool := false, runnableAt := s.clk,
                  st := if t.st = .running then .runnable else t.st }

/-- A job becomes PENDING with its image (R193, R196, R375): its warps leave their slots; `bump` raises DEADLINE by
PERIOD. -/
def State.requeue (s : State) (id : BitVec 32) (bump : Bool := true) : State :=
  match s.job? id with
  | none => s
  | some j =>
    if !j.holds then s
    else
      let s := (s.tasks.filter (·.job == id)).foldl (fun s t => s.stopWarp t.uid) s
      s.modJob id fun j =>
        { j with st := .pending, image := true, budgetStop := false, requeueing := false, bump := false,
                 rec_ := if bump then { j.rec_ with deadline := (j.rec_.deadline + j.rec_.period) % 2 ^ 64 } else j.rec_ }

inductive Resume where
  | resume | skip | escalate
deriving DecidableEq, Repr

/-- TRET on a stopped task (R369), which a debugger's RESUME and SKIP share (R380). -/
def State.returnFrom (s : State) (u : Nat) (m : Resume) : State :=
  match m with
  | .escalate => s.escalate u
  | .resume | .skip =>
    match s.task? u with
    | none => s
    | some t0 =>
      match t0.stop with
      | none => s
      | some x =>
        let s := s.restoreFrame u
        match s.task? u with
        | none => s
        | some t =>
          if t.killedBy.isSome then s
          else
            let skip := m == .skip
            let pc := if skip && x.kind == .precise then s.afterPc t t.warp.pc x.pair else t.warp.pc
            let s := s.setTask { t with
              warp := { t.warp with pc := pc },
              park := if skip && x.kind == .precise then none else t.park,
              skipMatch := !skip && x.kind == .precise }
            let s := s.opAnswer t x.op skip
            let s := s.release u
            if x.budget then s.requeue t.job else s

/-- Kill a stopped task with its cause: TKILL, or a debugger's KILL (R170, R369, R380). -/
def State.killStopped (s : State) (u : Nat) : State :=
  match s.task? u with
  | none => s
  | some t =>
    match t.stop with
    | none => s
    | some x =>
      let s := s.killTask u x.cause
      if x.budget then s.requeue t.job else s

/-! ### The frame of an issue (R37 to R43, R142) -/

/-- What an instruction leaves: its state, where it branches, and whether its barrier falls later. -/
structure Eff where
  s : State
  pc : Option (BitVec 32)
  late : Bool
deriving DecidableEq, Repr

/-- An effect whose barrier falls at issue, continuing in sequence. -/
def eff (s : State) : Eff := ⟨s, none, false⟩

abbrev Out' := Host.Outcome State Fault Refusal

/-- The address of the next instruction in sequence. -/
def State.seqPc (s : State) (t : Task) : BitVec 32 :=
  nextSlot (bundleOff t.warp.pc) (slotOf t.warp.pc + s.cur.mq.isSome.toNat) s.cur.valid

/-- The task after an instruction has issued: distance passes and the stall holds it, for `least` clk at least, 4 after
a taken transfer (R37, R39, R155). -/
def Task.issued (t : Task) (h : Hint) (pc : BitVec 32) (late : Bool) (clk : Nat) (least : Nat := 1) : Task :=
  let d := max least h.stall.toNat
  let w := (t.warp.launch clk (if late || 3 < h.setb.toNat then none else some h.setb.toNat)).pass d
  let w := { w with pc := pc }
  let w := if late && h.setb.toNat < 4 then { w with bars := spSet w.bars h.setb.toNat (spGet w.bars h.setb.toNat + 1) }
    else w
  { t with warp := w, readyAt := clk + d, giveWay := h.giveWay, counted := false, skipMatch := false }

/-- A step of a debugger ends when its instruction completes (R380). -/
def State.stepEnd (s : State) (u : Nat) : State :=
  match s.task? u with
  | some t =>
    if t.stepping && (t.st == .running || t.st == .runnable) then s.takeTrap u (raise0 .singleStep) .after t.warp.pc else s
  | none => s

/-- A parked instruction completes at `next`, with the hints it issued under; its barrier rises where it completes later
(R37 to R39, R206). DESIGN CHOICE: its stall and its YIELD count from here (notes/assumptions/69.md). -/
def State.parkDone (s : State) (u : Nat) (next : BitVec 32) (h : Hint) (late : Bool := false) : State :=
  ((s.modTask u fun t => t.issued h next late s.clk).wake u).stepEnd u

/-- An instruction of task `u` has issued and continues at `pc`. -/
def State.finish (s : State) (u : Nat) (h : Hint) (pc : BitVec 32) (late : Bool) (least : Nat := 1) : State :=
  (s.modTask u fun t => t.issued h pc late s.clk least).stepEnd u

/-! ### Parking and moves (R206, R210 to R212, R372) -/

/-- Move a warp to its job's slot save area (R212): its results land, its slot and its granules in the pool are free;
its state stays what it is, and the bytes of its place in the area are the device's. A full area moves nothing, and a
fault there kills the job (R189). -/
def State.moveOut (s : State) (u : Nat) : State :=
  match s.task? u with
  | none => s
  | some t =>
    match s.job? t.job with
    | none => s
    | some j =>
      if t.slot.isNone then s
      else
        let n := saveBytes t.warp.count
        match s.savePlace j t.core n with
        | (none, s) => s
        | (some at_, s) =>
          match s.firstBad t.core j.rec_.ctx needRW (pieces at_ n) with
          | some (va, e) => (s.latchXlat t.core 3 j.rec_.ctx va e).killJob t.job e.cause
          | none =>
            ((s.landAll u).openVa t.core j.rec_.ctx at_ n).modTask u fun t =>
              { t with slot := none, saved := true, inPool := false, saveAt := some (at_, n) }

/-- Soft pre-emption of the task's context, or of its job alone, is in progress (R372, R375). -/
def State.softStopping (s : State) (t : Task) : Bool :=
  (s.ctx (s.ctxOf t)).st == .draining || ((s.job? t.job).map (·.requeueing)).getD false

/-- Soft pre-emption begins: parked warps that a test picks are saved at once (R372). -/
def State.saveParked (s : State) (p : Task → Bool) : State :=
  (s.tasks.filter fun t => t.st == .parked && t.slot.isSome && t.stop.isNone && p t).foldl (fun s t => s.moveOut t.uid) s

/-- The core-wide number of the progress slot (R210). -/
def progressSlot : Nat := 191

/-- Park a warp. It holds its slot, but for the progress slot, and but for soft pre-emption (R206, R210, R372). -/
def State.parkTask (s : State) (u : Nat) (p : Park) : State :=
  let s := s.modTask u fun t => { t with st := .parked, park := some p, parkedAt := s.clk, spinExpired := false }
  match s.task? u with
  | none => s
  | some t => if t.slot = some progressSlot || s.softStopping t then s.moveOut u else s

/-- A warp stops for soft pre-emption after a YIELD: saved, to resume at its next instruction (R159). -/
def State.yieldStop (s : State) (u : Nat) : State :=
  match s.task? u with
  | none => s
  | some t =>
    if t.st = .running && s.softStopping t then
      let s := s.moveOut u
      s.modTask u fun t => if t.slot.isNone && t.st == .running then { t with st := .runnable, runnableAt := s.clk } else t
    else s

/-- Count an undersized instruction of a task in EVENTS, once, however often it issues (R41, R42). -/
def State.countUndersized (s : State) (t : Task) : State :=
  if t.counted then s
  else
    (s.modTask t.uid fun x => { x with counted := true }).modCore t.core fun c =>
      let r := c.regs.schedCheck
      let n := field r 32 32
      { c with regs := { c.regs with schedCheck := if n + 1 < 2 ^ 32 then setField r 32 32 (n + 1) else r } }

/-- The register an SETB of 63 waits for: the count may not rise (R38). -/
def barFull (t : Task) (h : Hint) : Bool := h.setb.toNat < 4 && spGet t.warp.bars h.setb.toNat == 63

/-- Issue one instruction of the current task. `keys`: the registers it reads where it acts, for the lanes given;
`body`: its effect on the effective lanes (none for a group-wide form). It acts where its guard holds in some lane, or
always, for an instruction that reads its guard itself. -/
def issueIf (always : Bool) (h : Hdr) (s : State) (keys : Task → List Nat → List RKey)
    (body : State → Task → List Nat → M Eff) : Out' :=
  match s.curTask with
  | none => .fault .noWarp
  | some t =>
    if barFull t h.hint then .next s
    else
      let lanes := if h.u then [] else s.effLanes t h
      let acts := always || if h.u then s.guardIn t h 0 else !lanes.isEmpty
      let gkeys := if h.u then [guardKey h 0] else (lanesOf t.warp.active).map (guardKey h ·)
      let under := (gkeys ++ (if acts then keys t lanes ++ s.cur.keys else [])).any (s.pendingKey t ·)
      let s1 := if under then s.countUndersized t else s
      if under && (s.core t.core).regs.schedCheck.getLsbD 0 then
        .next (s1.takeTrap t.uid (raise0 .stallUndersized) .precise t.warp.pc (pair := s.cur.mq.isSome))
      else if !acts then .next (s1.finish t.uid h.hint (s.seqPc t) false)
      else match body s1 t lanes with
        | .ok e => .next (e.s.finish t.uid h.hint (e.pc.getD (s.seqPc t)) e.late (if e.pc.isSome then 4 else 1))
        | .error (.raise r) => .next (s1.takeTrap t.uid r .precise t.warp.pc (pair := s.cur.mq.isSome))
        | .error .hold => .next s
        | .error .full => .next { s with cur := { s.cur with full := true } }
        | .error (.park p) =>
          -- an instruction that would park while a cohort is open (R173)
          if t.opened.isSome then
            .next (s1.takeTrap t.uid (raise0 .spawnBadClosure) .precise t.warp.pc (pair := s.cur.mq.isSome))
          else .next (s1.parkTask t.uid p)
        | .error (.parkIn s2 p) =>
          if t.opened.isSome then
            .next (s1.takeTrap t.uid (raise0 .spawnBadClosure) .precise t.warp.pc (pair := s.cur.mq.isSome))
          else .next (s2.parkTask t.uid p)
        | .error (.raiseIn s2 r) => .next (s2.takeTrap t.uid r .precise t.warp.pc (pair := s.cur.mq.isSome))
        | .error (.done s2) => .next s2

/-- Issue an instruction that acts where its guard holds. -/
def issue (h : Hdr) (s : State) (keys : Task → List Nat → List RKey) (body : State → Task → List Nat → M Eff) : Out' :=
  issueIf false h s keys body

/-- Add flags to a task's FPCTL (R129): to the warp, or, where the task stands in a frame, to what it finds there. -/
def Task.orFlags (t : Task) (f : BitVec 32) : Task :=
  match t.stop with
  | some x => if x.frame.isSome then { t with stop := some { x with flags := x.flags ||| f } }
    else { t with warp := { t.warp with fpctl := t.warp.fpctl ||| f } }
  | none => { t with warp := { t.warp with fpctl := t.warp.fpctl ||| f } }

def State.orFlags (s : State) (u : Nat) (f : BitVec 32) : State := if f = 0 then s else s.modTask u (·.orFlags f)

/-- Registers that an operation writes for its owner (R348), in the warp or for when the task leaves its frame. -/
def Task.lateWrites (t : Task) (ws : List RegWrite) : Task :=
  match t.stop with
  | some x => if x.frame.isSome then { t with stop := some { x with writes := x.writes ++ ws } }
    else { t with warp := putWrites t.warp ws }
  | none => { t with warp := putWrites t.warp ws }

/-- Fixed-latency results wait their distance (R37). -/
def State.pushResult (s : State) (t : Task) (dist : Nat) (ws : List RegWrite) : State :=
  s.modWarp t.uid fun w => { w with inflight := w.inflight ++ [Inflight.mk (keptWrites ws) dist none none .pipe] }

/-- Variable-latency results, returned later (R38). -/
def State.pushReturn (s : State) (t : Task) (ws : List RegWrite) (bar : Option Nat) (tile : Option Nat := none) : State :=
  let (u, s) := s.fresh
  let s := s.modWarp t.uid fun w =>
    { w with inflight := w.inflight ++ [Inflight.mk (keptWrites ws) 0 (some 0) none (.request u)] }
  s.modCore t.core fun c => { c with returns := c.returns ++
    [Return.mk u t.uid (t.slot.getD 0) (spGet c.gens (t.slot.getD 0)) (!ws.isEmpty) bar tile] }

/-- Post a cause to a task (R365): it is raised at a boundary. -/
def State.post (s : State) (u : Nat) (c : Cause) (faddr : Nat) (op : Option Nat := none) (opaddr : Bool := false) : State :=
  s.modTask u fun t => if t.st = .done then t else { t with posted := t.posted ++ [Posted.mk c faddr op opaddr []] }

/-- The barrier index a hint sets. -/
def barOf (h : Hint) : Option Nat := if h.setb.toNat < 4 then some h.setb.toNat else none

/-- A result that lands before the next instruction: instructions after which the warp waits (R176, R202, R311). -/
def State.putRegs (s : State) (t : Task) (ws : List RegWrite) : State :=
  s.modWarp t.uid (·.putNow ws)

end Sys2Proof.Machine
end

