-- ==== Sys2Proof/Machine/Operands.lean ====
section
/-! DEFINITION. Every operand form: which registers an operand names in a lane (02_encoding R35, 03_registers R61,
R65 to R67), what a source delivers at the width of its type (R29, R85, R103), and how a result is written. `compute`
is the one shape of the instructions whose result is a function of their operands. -/

namespace Sys2Proof.Machine

/-! ### Registers an operand names -/

/-- Lanes an instruction works in: the effective ones, or one for the group-wide form (R87). -/
def workLanes (h : Hdr) (lanes : List Nat) : List Nat := if h.u then [0] else lanes

/-- First register of an index register's window position: BASE + OFFSET (R67). -/
def xReg (x : Nat) : Nat := natBits x 10 10 + natBits x 0 10

/-- R67, check 1: the position lies in the window and is aligned. -/
def xFits (x k : Nat) : Bool := natBits x 0 10 + k ≤ natBits x 20 10 && xReg x % k == 0

/-- An index register as the instruction reads it. -/
def State.xval (s : State) (t : Task) (x : BitVec 3) (lane : Nat) : Nat := (s.readKey t (kx x.toNat lane)).toNat

/-- The `k` registers an operand names in a lane, least significant first; none for a literal or constant. -/
def State.opRegs (s : State) (t : Task) (op : Opnd) (k lane : Nat) : List RKey :=
  match op with
  | .v n => (List.range k).map fun i => kv (n.toNat + i) lane
  | .g n => (List.range k).map fun i => kg (n.toNat + i)
  | .ind x => (List.range k).map fun i => kv (xReg (s.xval t x lane) + i) lane
  | .lit0 | .lit1 | .zero => []

/-- Registers a source reads: the window register of an indirect operand, and what it names. -/
def State.srcKeys (s : State) (t : Task) (op : Opnd) (k lane : Nat) : List RKey :=
  match op with
  | .ind x => kx x.toNat lane :: s.opRegs t op k lane
  | .v _ | .g _ | .lit0 | .lit1 | .zero => s.opRegs t op k lane

/-- Registers a destination reads: the window register of an indirect operand. -/
def dstReads (op : Opnd) (lane : Nat) : List RKey :=
  match op with
  | .ind x => [kx x.toNat lane]
  | .v _ | .g _ | .lit0 | .lit1 | .zero => []

/-- R65 and R67: what is wrong with an operand of `k` registers in a lane. -/
def State.opBad (s : State) (t : Task) (op : Opnd) (k lane : Nat) : Option Cause :=
  match op with
  | .v n => if t.warp.count < n.toNat + k then some .regNotAllocated else none
  | .ind x =>
    let xv := s.xval t x lane
    if !xFits xv k then some .regIndexBounds
    else if t.warp.count < xReg xv + k then some .regNotAllocated else none
  | .g _ | .lit0 | .lit1 | .zero => none

/-! ### Ranking (R228) -/

/-- A lane's cause with its place in R228's order, the address its frame reports and the fault to latch. -/
structure Bad where
  cause : Cause
  faddr : Nat
  latch : Option (Nat × Nat × XErr)
deriving DecidableEq, Repr

/-- Order of causes (R228): rank times 10, and the order within a row. -/
def rankOf : Cause → Nat
  | .regIndexBounds => 20 | .regNotAllocated => 21
  | .handleReleased => 30 | .handleUnallocated => 31 | .handleBankMismatch => 32 | .handleFormat => 33
  | .translationMissing => 40 | .permission => 50 | .undeclaredAccess => 60 | .rangeLocked => 70 | .misaligned => 80
  | .scratchBounds => 90 | .watchpoint => 100 | _ => 110

/-- The cause of one lane that ranks first. -/
def topBad : List Bad → Option Bad := leastBy fun a b => rankOf a.cause < rankOf b.cause

/-- Raise the highest-ranked cause at the lowest lane that has it; s.faultlanes is the mask of every lane with a cause,
0 for a group-wide access (R228). -/
def raiseLanes (u : Bool) (bads : List (Nat × Bad)) : M Unit :=
  match leastBy (fun a b => rankOf a.2.cause < rankOf b.2.cause) bads with
  | none => .ok ()
  | some (_, b) =>
    let at_ (p : Cause → Bool) : BitVec 32 := if u then 0 else maskOf ((bads.filter fun x => p x.2.cause).map (·.1))
    .error (.raise ⟨b.cause, b.faddr, at_ fun _ => true, at_ (· == .watchpoint), b.latch⟩)

/-- The register causes of a list of operands in a lane, R66's order. -/
def State.regBads (s : State) (t : Task) (ops : List (Opnd × Nat)) (lane : Nat) : List Bad :=
  ops.filterMap fun (op, k) => (s.opBad t op k lane).map fun c => ⟨c, 0, none⟩

/-- Check the register operands in every lane an instruction works in. -/
def State.checkRegs (s : State) (t : Task) (h : Hdr) (ops : List (Opnd × Nat)) (lanes : List Nat) : M Unit :=
  raiseLanes h.u ((workLanes h lanes).filterMap fun l => (topBad (s.regBads t ops l)).map fun b => (l, b))

/-! ### Values -/

/-- What a literal delivers at the width of a type (R29). -/
def litVal (ty : Ty) (lit : BitVec 48) : Nat :=
  match ty with
  | .i64 | .n64 => signExt 48 64 lit.toNat
  | .f64 => lit.toNat * 2 ^ 16
  | .b128 => 0
  | .i32 | .n32 | .f32 => lit.toNat % 2 ^ 32
  | .i16 | .n16 | .f16 | .bf16 => lit.toNat % 2 ^ 16
  | .i8 | .n8 => lit.toNat % 2 ^ 8

/-- The registers of an operand of `n` as one number, least significant first. -/
def State.readRegs (s : State) (t : Task) (n : Nat) : List RKey → Nat
  | [] => 0
  | k :: ks => (s.readWide t n k).toNat + 2 ^ 32 * s.readRegs t n ks

/-- Src(op, L): the value a source delivers at the width of its type (R29, R35, R61, R67, R85, R103). -/
def State.src (s : State) (t : Task) (op : Opnd) (ty : Ty) (lane : Nat) : Nat :=
  match op with
  | .lit0 => litVal ty s.cur.lit0
  | .lit1 => litVal ty s.cur.lit1
  | .zero => 0
  | .v _ | .g _ | .ind _ => s.readRegs t ty.regs (s.opRegs t op ty.regs lane) % 2 ^ ty.bits

/-- A predicate as the form names it: p in a lane, q in the group-wide form (R87). -/
def predKey (u : Bool) (p : BitVec 3) (lane : Nat) : RKey := if u then kq p.toNat else kp p.toNat lane

/-- The words of a value over the registers it is written to. -/
def wordsTo : List RKey → Nat → List RegWrite
  | [], _ => []
  | k :: ks, v => ⟨k, BitVec.ofNat 32 v⟩ :: wordsTo ks (v / 2 ^ 32)

/-- Dst(op, L): where a value goes; nowhere for code 1023. -/
def State.dst (s : State) (t : Task) (op : Opnd) (k lane val : Nat) : List RegWrite :=
  wordsTo (s.opRegs t op k lane) val

def bit32 (b : Bool) : BitVec 32 := if b then 1 else 0

/-- How a result of a type is held in its registers: narrow integers extended to 32 bits (R85), 16-bit floats with
zeros above (R103). -/
def holdAs (ty : Ty) (x : Nat) : Nat :=
  match ty with
  | .i8 => signExt 8 32 x
  | .i16 => signExt 16 32 x
  | _ => x % 2 ^ ty.bits

/-! ### Instructions whose result is a function of their operands -/

/-- The operand positions of a computing instruction. -/
structure Shape where
  srcs : List (Opnd × Ty)
  preds : List (BitVec 3)
  dst : Option (Opnd × Nat)
  pdst : Option (BitVec 3)
deriving DecidableEq, Repr

/-- What it computes in one lane: the value, the predicate and the flags it sets. -/
structure Res where
  val : Nat
  pred : Bool
  flags : BitVec 32
deriving DecidableEq, Repr

/-- A plain value. -/
def Res.of (x : Nat) : Res := ⟨x, false, 0⟩

/-- Register operands of a shape with their sizes. -/
def Shape.ops (o : Shape) : List (Opnd × Nat) := o.srcs.map (fun (a, ty) => (a, ty.regs)) ++ o.dst.toList

/-- Registers and predicates a shape reads in a lane. -/
def State.shapeKeys (s : State) (t : Task) (u : Bool) (o : Shape) (lane : Nat) : List RKey :=
  o.srcs.flatMap (fun (a, ty) => s.srcKeys t a ty.regs lane) ++ o.preds.map (predKey u · lane) ++
  o.dst.toList.flatMap fun (a, _) => dstReads a lane

/-- The writes of one lane's result. -/
def State.resWrites (s : State) (t : Task) (u : Bool) (o : Shape) (lane : Nat) (r : Res) : List RegWrite :=
  (match o.dst with | some (a, k) => s.dst t a k lane r.val | none => []) ++
  (match o.pdst with | some p => [⟨predKey u p lane, bit32 r.pred⟩] | none => [])

/-- The values of one lane: sources by operand and type, predicates by index. -/
structure Lane where
  src : Opnd → Ty → Nat
  pred : BitVec 3 → Bool

/-- The lane's view of the registers. -/
def State.lane (s : State) (t : Task) (u : Bool) (l : Nat) : Lane :=
  ⟨fun a ty => s.src t a ty l, fun p => s.readPred t (predKey u p l)⟩

/-- A computing instruction with the given distance: registers are checked, every lane computes, the results wait
their distance (R37) and the flags merge (R129). -/
def compute (h : Hdr) (s : State) (o : Shape) (dist : Nat) (f : Lane → Res) : Out' :=
  issue h s (fun t lanes => (workLanes h lanes).flatMap (s.shapeKeys t h.u o)) fun s t lanes =>
    match s.checkRegs t h o.ops lanes with
    | .error e => .error e
    | .ok () =>
      let rs := (workLanes h lanes).map fun l => (l, f (s.lane t h.u l))
      let ws := rs.flatMap fun (l, r) => s.resWrites t h.u o l r
      let fl := rs.foldl (fun acc x => acc ||| x.2.flags) 0
      .ok (eff ((s.pushResult t dist ws).orFlags t.uid fl))

/-- A distance by form: per lane, group-wide. -/
def distOf (h : Hdr) (lane group : Nat) : Nat := if h.u then group else lane

end Sys2Proof.Machine
end

