-- ==== Sys2Proof/Machine/Flags.lean ====
section
/-! DEFINITION. The sticky flags (06_float R128, R129) and the arithmetic behind them: the formats of R102, exact
values as rationals with a power of two, rounding and narrowing (R112 to R114), and IEEE addition, multiplication and
comparison (R124 to R127, R133, R134). -/

namespace Sys2Proof.Machine

/-! ### Flags (R128) -/

def fInvalid : BitVec 32 := 1
def fDivzero : BitVec 32 := 2
def fOverflow : BitVec 32 := 4
def fUnderflow : BitVec 32 := 8
def fInexact : BitVec 32 := 16
def fIntOverflow : BitVec 32 := 32

/-- A flag where a condition holds. -/
def flagIf (b : Bool) (f : BitVec 32) : BitVec 32 := if b then f else 0

/-! ### Formats (R102) -/

/-- Special codes of a format: infinities and NaNs, the NaN code of E4M3 alone, or none. -/
inductive Special where
  | ieee | nanOnly | none
deriving DecidableEq, Repr

/-- Exponent bits, mantissa bits, special codes. The bias is 2^(eb - 1) - 1 in every format of R102. -/
structure FFmt where
  eb : Nat
  mb : Nat
  sp : Special
deriving DecidableEq, Repr

def FFmt.fp64 : FFmt := ⟨11, 52, .ieee⟩
def FFmt.fp32 : FFmt := ⟨8, 23, .ieee⟩
def FFmt.fp16 : FFmt := ⟨5, 10, .ieee⟩
def FFmt.bf16 : FFmt := ⟨8, 7, .ieee⟩
def FFmt.e4m3 : FFmt := ⟨4, 3, .nanOnly⟩
def FFmt.e5m2 : FFmt := ⟨5, 2, .ieee⟩
def FFmt.e3m2 : FFmt := ⟨3, 2, .none⟩
def FFmt.e2m3 : FFmt := ⟨2, 3, .none⟩
def FFmt.e2m1 : FFmt := ⟨2, 1, .none⟩

def FFmt.bits (f : FFmt) : Nat := 1 + f.eb + f.mb
def FFmt.bias (f : FFmt) : Int := 2 ^ (f.eb - 1) - 1
/-- Exponent of the smallest normal. -/
def FFmt.emin (f : FFmt) : Int := 1 - f.bias
def FFmt.signBit (f : FFmt) (neg : Bool) : Nat := if neg then 2 ^ (f.eb + f.mb) else 0
/-- Code of +infinity, in formats that have it. -/
def FFmt.infCode (f : FFmt) : Nat := (2 ^ f.eb - 1) * 2 ^ f.mb
/-- Code of the largest finite value. -/
def FFmt.maxCode (f : FFmt) : Nat :=
  match f.sp with
  | .ieee => f.infCode - 1
  | .nanOnly => 2 ^ (f.eb + f.mb) - 2
  | .none => 2 ^ (f.eb + f.mb) - 1
/-- The canonical NaN; 0 where the format has none (R114). -/
def FFmt.nanCode (f : FFmt) : Nat :=
  match f.sp with
  | .ieee => f.infCode + 2 ^ (f.mb - 1)
  | .nanOnly => 2 ^ (f.eb + f.mb) - 1
  | .none => 0

/-- The float types of R34. -/
def fmtOf : Ty → FFmt
  | .f64 => .fp64
  | .f16 => .fp16
  | .bf16 => .bf16
  | _ => .fp32

/-! ### Exact values -/

/-- A value: a NaN, an infinity, or (-1)^neg × num / den × 2^exp with `den` positive. Zero keeps its sign. -/
inductive FVal where
  | nan (signalling : Bool)
  | inf (neg : Bool)
  | fin (neg : Bool) (num den : Nat) (exp : Int)
deriving DecidableEq, Repr

def FVal.isNan : FVal → Bool
  | .nan _ => true
  | _ => false

def FVal.isSnan : FVal → Bool
  | .nan s => s
  | _ => false

/-- The sign of a number; false for a NaN. -/
def FVal.neg : FVal → Bool
  | .nan _ => false
  | .inf n => n
  | .fin n _ _ _ => n

/-- The value of a code (R102). -/
def FFmt.decode (f : FFmt) (code : Nat) : FVal :=
  let neg := natBit code (f.eb + f.mb)
  let e := natBits code f.mb f.eb
  let m := natBits code 0 f.mb
  let number : FVal :=
    if e = 0 then .fin neg m 1 (f.emin - f.mb) else .fin neg (2 ^ f.mb + m) 1 ((e : Int) - f.bias - f.mb)
  match f.sp with
  | .ieee =>
    if e = 2 ^ f.eb - 1 then (if m = 0 then .inf neg else .nan (!natBit m (f.mb - 1))) else number
  | .nanOnly => if e = 2 ^ f.eb - 1 ∧ m = 2 ^ f.mb - 1 then .nan false else number
  | .none => number

/-- An integer as a value. -/
def FVal.ofInt (x : Int) : FVal := .fin (x < 0) x.natAbs 1 0

/-! ### Rounding (R112 to R114) -/

/-- A nonnegative rational num / den rounded to an integer under a mode, for a value of the given sign. -/
def roundInt (rm : RM) (neg : Bool) (num den : Nat) : Nat :=
  let q := num / den
  let r := num % den
  let up := match rm with
    | .rn => den < 2 * r || (2 * r == den && q % 2 == 1)
    | .rz => false
    | .ru => !neg && r != 0
    | .rd => neg && r != 0
    | .ro => r != 0 && q % 2 == 0
  if up then q + 1 else q

/-- num / den × 2^exp on the grid of spacing 2^q: the rational to round. -/
def onGrid (num den : Nat) (exp q : Int) : Nat × Nat :=
  if q ≤ exp then (num * 2 ^ (exp - q).toNat, den) else (num, den * 2 ^ (q - exp).toNat)

/-- floor(log2 (num / den)) + exp for positive num and den. -/
def expOf (num den : Nat) (exp : Int) : Int :=
  let k : Int := (Nat.log2 num : Int) - Nat.log2 den
  let (a, b) := onGrid num den 0 k
  exp + (if a < b then k - 1 else k)

/-- A result with the flags it sets. -/
structure FRes where
  code : Nat
  flags : BitVec 32
deriving DecidableEq, Repr

/-- R113: the result on overflow. -/
def FFmt.overflow (f : FFmt) (rm : RM) (sat neg : Bool) : Nat :=
  let top := f.maxCode + f.signBit neg
  let beyond := match f.sp with
    | .ieee => f.infCode + f.signBit neg
    | .nanOnly => f.nanCode
    | .none => top
  if sat then top
  else match rm with
    | .rn => beyond
    | .rz | .ro => top
    | .ru => if neg then top else beyond
    | .rd => if neg then beyond else top

/-- A nonzero number narrowed into a format. -/
def FFmt.roundFin (f : FFmt) (rm : RM) (sat neg : Bool) (num den : Nat) (exp : Int) : FRes :=
  let q := expOf num den exp - f.mb
  let (a, b) := onGrid num den exp q
  let r := roundInt rm neg a b
  let qmin := f.emin - f.mb
  -- the rounded value is r × 2^q; below the smallest normal it is tiny
  if q < qmin ∧ !(q = qmin - 1 ∧ r = 2 ^ (f.mb + 1)) then
    let (a, b) := onGrid num den exp qmin
    let r := roundInt rm neg a b
    ⟨r + f.signBit neg, flagIf (a % b != 0) (fUnderflow ||| fInexact)⟩
  else
    let (r, q) := if r = 2 ^ (f.mb + 1) then (2 ^ f.mb, q + 1) else (r, q)
    let code := (q - qmin).toNat * 2 ^ f.mb + r
    if f.maxCode < code then ⟨f.overflow rm sat neg, fOverflow ||| fInexact⟩
    else ⟨code + f.signBit neg, flagIf (a % b != 0) fInexact⟩

/-- RoundNarrow(x, fmt, mode, sat): R112 to R114. -/
def FFmt.round (f : FFmt) (rm : RM) (sat : Bool) (x : FVal) : FRes :=
  match x with
  | .nan s => ⟨f.nanCode, flagIf (s || f.sp == .none) fInvalid⟩
  | .inf neg =>
    match f.sp, sat with
    | .ieee, false => ⟨f.infCode + f.signBit neg, 0⟩
    | .nanOnly, false => ⟨f.nanCode, fInvalid⟩
    | _, _ => ⟨f.maxCode + f.signBit neg, fOverflow ||| fInexact⟩
  | .fin neg num den exp => if num = 0 then ⟨f.signBit neg, 0⟩ else f.roundFin rm sat neg num den exp

/-- RoundToInt (R118): into a type of `w` bits, signed or natural. -/
def roundToInt (signed : Bool) (w : Nat) (rm : RM) (x : FVal) : FRes :=
  let lo : Int := if signed then -(2 ^ (w - 1) : Nat) else 0
  let hi : Int := if signed then (2 ^ (w - 1) : Nat) - 1 else (2 ^ w : Nat) - 1
  match x with
  | .nan _ => ⟨0, fInvalid⟩
  | .inf neg => ⟨ofSigned w (if neg then lo else hi), fInvalid⟩
  | .fin neg num den exp =>
    let (a, b) := onGrid num den exp 0
    let r := roundInt rm neg a b
    let v : Int := if neg then -(r : Int) else r
    if v < lo then ⟨ofSigned w lo, fInvalid⟩
    else if hi < v then ⟨ofSigned w hi, fInvalid⟩
    else ⟨ofSigned w v, flagIf (a % b != 0) fInexact⟩

/-! ### Modifiers (R127) -/

/-- Mod(x, NEG, ABS) on an operand's bits. -/
def fmod (f : FFmt) (x : Nat) (neg abs : Bool) : Nat :=
  let s := 2 ^ (f.bits - 1)
  let y := if abs then x % s else x
  if neg then (if natBit y (f.bits - 1) then y - s else y + s) else y

/-! ### Arithmetic (R124 to R126) -/

/-- An exact result and the flags of the operation before rounding. -/
structure Exact where
  val : FVal
  flags : BitVec 32
deriving DecidableEq, Repr

/-- INVALID for a signalling NaN among the operands. -/
def snanFlag (l : List FVal) : BitVec 32 := flagIf (l.any FVal.isSnan) fInvalid

/-- num / den × 2^exp as a signed integer over 2^e, for den = 1 and e ≤ exp. -/
def scaled (neg : Bool) (num : Nat) (exp e : Int) : Int :=
  let m : Nat := num * 2 ^ (exp - e).toNat
  if neg then -(m : Int) else m

/-- Sum of two finite dyadic values, zero signs as R126. -/
def addFin (rm : RM) (na : Bool) (ma : Nat) (ea : Int) (nb : Bool) (mb : Nat) (eb : Int) : FVal :=
  let e := min ea eb
  let s := scaled na ma ea e + scaled nb mb eb e
  if s = 0 then .fin (if ma = 0 && mb = 0 && na == nb then na else rm == .rd) 0 1 0
  else .fin (s < 0) s.natAbs 1 e

/-- a + b: exact, for operands that are decoded codes or exact products of them. -/
def fadd (rm : RM) (a b : FVal) : Exact :=
  match a, b with
  | .nan _, _ | _, .nan _ => ⟨.nan false, snanFlag [a, b]⟩
  | .inf x, .inf y => if x == y then ⟨.inf x, 0⟩ else ⟨.nan false, fInvalid⟩
  | .inf x, .fin _ _ _ _ => ⟨.inf x, 0⟩
  | .fin _ _ _ _, .inf y => ⟨.inf y, 0⟩
  | .fin na ma _ ea, .fin nb mb _ eb => ⟨addFin rm na ma ea nb mb eb, 0⟩

def FVal.isZero : FVal → Bool
  | .fin _ 0 _ _ => true
  | _ => false

/-- a × b: exact. -/
def fmul (a b : FVal) : Exact :=
  let neg := a.neg != b.neg
  match a, b with
  | .nan _, _ | _, .nan _ => ⟨.nan false, snanFlag [a, b]⟩
  | .inf _, y => if y.isZero then ⟨.nan false, fInvalid⟩ else ⟨.inf neg, 0⟩
  | x, .inf _ => if x.isZero then ⟨.nan false, fInvalid⟩ else ⟨.inf neg, 0⟩
  | .fin _ ma da ea, .fin _ mb db eb => ⟨.fin neg (ma * mb) (da * db) (ea + eb), 0⟩

/-- a × b + c with one rounding; zero times infinity is invalid whatever c is (R125). -/
def ffma (rm : RM) (a b c : FVal) : Exact :=
  let p := fmul a b
  let r := fadd rm p.val c
  ⟨r.val, p.flags ||| snanFlag [c] ||| r.flags⟩

/-- Round an exact result into a format, with the operation's own flags. -/
def FFmt.finish (f : FFmt) (rm : RM) (x : Exact) : FRes :=
  let r := f.round rm false x.val
  ⟨r.code, x.flags ||| r.flags⟩

/-- Magnitude order: a as an integer that orders finite values and infinities, both zeros alike. -/
def fless (a b : FVal) : Bool :=
  match a, b with
  | .nan _, _ | _, .nan _ => false
  | .inf x, .inf y => x && !y
  | .inf x, .fin _ _ _ _ => x
  | .fin _ _ _ _, .inf y => !y
  | .fin na ma _ ea, .fin nb mb _ eb =>
    let e := min ea eb
    scaled na ma ea e < scaled nb mb eb e

def fequal (a b : FVal) : Bool := !a.isNan && !b.isNan && !fless a b && !fless b a

/-- R133: minimum and maximum of two codes after the modifiers. -/
def fminmax (f : FFmt) (max prop : Bool) (x y : Nat) : FRes :=
  let a := f.decode x
  let b := f.decode y
  let fl := snanFlag [a, b]
  let lessCode := fless a b || (fequal a b && a.neg && !b.neg)
  let moreCode := fless b a || (fequal a b && b.neg && !a.neg)
  if a.isNan && b.isNan then ⟨f.nanCode, fl⟩
  else if a.isNan then ⟨if prop then f.nanCode else y, fl⟩
  else if b.isNan then ⟨if prop then f.nanCode else x, fl⟩
  else if max then ⟨if lessCode then y else x, fl⟩
  else ⟨if moreCode then y else x, fl⟩

/-- R134: a comparison and the flag it sets. -/
def fcompare (c : FCmp) (a b : FVal) : Bool × BitVec 32 :=
  let un := a.isNan || b.isNan
  let quiet := snanFlag [a, b]
  let loud := flagIf un fInvalid
  let lt := fless a b
  let eq := fequal a b
  let gt := fless b a
  match c with
  | .eq => (eq, quiet)
  | .ne => (!un && !eq, quiet)
  | .lt => (lt, loud)
  | .le => (lt || eq, loud)
  | .gt => (gt, loud)
  | .ge => (gt || eq, loud)
  | .num => (!un, quiet)
  | .nan => (un, quiet)
  | .equ => (un || eq, quiet)
  | .neu => (un || !eq, quiet)
  | .ltu => (un || lt, quiet)
  | .leu => (un || lt || eq, quiet)
  | .gtu => (un || gt, quiet)
  | .geu => (un || gt || eq, quiet)

/-- R136: the class of a code. -/
def fclass (f : FFmt) (x : Nat) : Nat :=
  match f.decode x with
  | .nan true => 1
  | .nan false => 2
  | .inf true => 4
  | .inf false => 512
  | .fin neg m _ _ =>
    if m = 0 then (if neg then 32 else 64)
    else if m < 2 ^ f.mb then (if neg then 16 else 128)
    else if neg then 8 else 256

/-! ### Integer comparisons (R98) -/

def intLess (ty : Ty) (a b : Nat) : Bool :=
  if ty.signed then decide (toSigned ty.bits a < toSigned ty.bits b) else decide (a < b)

def intCompare (ty : Ty) (c : Cmp) (a b : Nat) : Bool :=
  match c with
  | .eq => a == b
  | .ne => a != b
  | .lt => intLess ty a b
  | .le => !intLess ty b a
  | .gt => intLess ty b a
  | .ge => !intLess ty a b

/-- The combine operation of ISETP and FSETP. -/
def combine (op : CombOp) (t k : Bool) : Bool :=
  match op with
  | .and => t && k
  | .or => t || k
  | .xor => t != k

/-- The least and greatest values of an integer type. -/
def loOf (ty : Ty) : Int := if ty.signed then -(2 ^ (ty.bits - 1) : Nat) else 0
def hiOf (ty : Ty) : Int := if ty.signed then (2 ^ (ty.bits - 1) : Nat) - 1 else (2 ^ ty.bits : Nat) - 1

/-- A value of an integer type as an integer. -/
def intOf (ty : Ty) (x : Nat) : Int := if ty.signed then toSigned ty.bits x else (x % 2 ^ ty.bits : Nat)

/-- Clamp(x, range of a type), as the type's bits, and INT_OVERFLOW where it changed. -/
def clampTo (ty : Ty) (x : Int) : FRes :=
  if x < loOf ty then ⟨ofSigned ty.bits (loOf ty), fIntOverflow⟩
  else if hiOf ty < x then ⟨ofSigned ty.bits (hiOf ty), fIntOverflow⟩
  else ⟨ofSigned ty.bits x, 0⟩

end Sys2Proof.Machine
end

