-- ==== Sys2Proof/Machine/Fetch.lean ====
section
/-! DEFINITION. From a warp to its next instruction: fetching a bundle and checking its control word (02_encoding R26,
R27), PC breakpoints (16_system R377) and decoding. -/

namespace Sys2Proof.Machine

/-- Quadrant of a core-wide slot number (R8). -/
def quadOf (slot : Nat) : Nat := slot / 48

/-- The first valid slot at or after a pc within its bundle. -/
def validSlot (b : Bundle) (pc : BitVec 32) : Option Nat :=
  (List.range 4).find? fun k => slotOf pc ≤ k && b.valid.getLsbD k

/-- The bundle at a task's pc. -/
def State.bundleOf (s : State) (t : Task) : Except (Nat × XErr) Bundle :=
  match s.job? t.job with
  | none => .ok 0
  | some j => s.bundleAt t.core j (bundleOff t.warp.pc)

/-- The word is an MQ prefix (R341). -/
def isMqWord (w : SlotWord) : Bool := w.extractLsb' 86 10 == 0x248

/-- The slot whose hints govern slot `k`: the follower's, for an MQ prefix (R341). -/
def hintSlot (b : Bundle) (k : Nat) : Nat := if isMqWord (b.slot k) then k + 1 else k

/-- Every barrier that an instruction word's WAIT mask names is zero (R38). -/
def waitMet (w : Warp) (word : SlotWord) : Bool :=
  (List.range 4).all fun n => !word.getLsbD (11 + n) || spGet w.bars n == 0

/-- The task may issue an instruction now, but for its WAIT mask. -/
def Task.mayIssue (t : Task) (clk : Nat) : Bool :=
  t.st == .running && t.slot.isSome && t.park.isNone && t.stop.isNone && t.posted.isEmpty && t.readyAt ≤ clk

/-- The core is neither clock-gated nor still waking (R218), and no task saved in ENDING has steps left on it (R248). -/
def State.awake (s : State) (core : Nat) : Bool :=
  !(s.core core).gated && (s.core core).wakeAt ≤ s.clk &&
  !s.tasks.any fun t => t.core == core && t.st == .ending && t.endSaved && t.stop.isNone && t.killedBy.isNone && s.ctxGoes t

/-- A warp whose wait count has reached 64 (R143). -/
def Task.isStarving (t : Task) : Bool := t.starving || 64 ≤ t.waitCount

/-- A PC breakpoint of the core matches the slot about to issue (R377). -/
def State.pcBreak (s : State) (t : Task) (pc : BitVec 32) : Bool :=
  !t.skipMatch && (List.range 8).any fun i =>
    let r := spGet (s.core t.core).regs.bp i
    field r 32 32 != 0 && field r 32 32 == t.job.toNat && field r 0 32 == pc.toNat

/-- The cause of a decode fault (R43). -/
def DecodeFault.cause : DecodeFault → Cause
  | .illegalOpcode => .illegalOpcode
  | .uForm => .uFormInvalid
  | .privileged => .privileged
  | .reservedField => .reservedField
  | .badOperand => .badOperand

/-- What a task may use (R43 check 4, R371, R386). -/
def State.privsOf (s : State) (t : Task) : Privs := ⟨s.privileged t, t.trapOf.isSome⟩

/-- The slot after slot `k` may follow an MQ: valid, a matrix opcode that MQ takes, GUARD 0b0111 (R341). -/
def Bundle.pairs (b : Bundle) (k : Nat) : Bool :=
  let w := b.slot (k + 1)
  let op := w.extractLsb' 86 10
  k < 3 && b.valid.getLsbD (k + 1) && 0x242 ≤ op.toNat && op.toNat ≤ 0x247 && w.extractLsb' 81 4 == 0b0111

/-- Slot `k` of the bundle is an MQ without the slot that it needs. -/
def Bundle.unpaired (b : Bundle) (k : Nat) : Bool := isMqWord (b.slot k) && !b.pairs k

/-- Slot `k` of the bundle and the slot after it are an MQ pair (R341). -/
def Bundle.isPair (b : Bundle) (k : Nat) : Bool := isMqWord (b.slot k) && b.pairs k

/-- The task stands at an MQ pair. -/
def State.atPair (s : State) (t : Task) : Bool :=
  match s.bundleOf t with
  | .error _ => false
  | .ok b => b.wellFormed && (validSlot b t.warp.pc).any b.isPair

/-- What the fetch of a task's next instruction finds. -/
inductive Fetch where
  /-- A cause before decode or from it, at a slot address, and whether an MQ pair stands there. -/
  | raise (r : Raise) (pc : BitVec 32) (pair : Bool)
  /-- No valid slot is left in the bundle: execution passes on (R26). -/
  | pass (pc : BitVec 32)
  | run (i : Instr) (pc : BitVec 32) (b : Bundle)
deriving DecidableEq, Repr

/-- Fetch and decode the next instruction of a task. Both slots of an MQ pair are about to issue, and a breakpoint at
either is reported at MQ (R341, R377). Of a malformed bundle without a valid slot at or after the pc, no
slot is about to execute: DESIGN CHOICE, BUNDLE_FORMAT reports the slot at the pc (notes/assumptions/58.md). -/
def State.fetch (s : State) (t : Task) : Fetch :=
  match s.bundleOf t with
  | .error (va, e) => .raise ⟨e.cause, va, 0, 0, some (2, va, e)⟩ t.warp.pc false
  | .ok b =>
    let off := bundleOff t.warp.pc
    let at_ (k : Nat) : BitVec 32 := BitVec.ofNat 32 (off + 12 * k)
    match validSlot b t.warp.pc with
    | none =>
      if b.wellFormed then .pass (BitVec.ofNat 32 (off + 64)) else .raise (raise0 .bundleFormat) (at_ (slotOf t.warp.pc)) false
    | some k =>
      let pair := b.wellFormed && b.isPair k
      if s.pcBreak t (at_ k) || (pair && s.pcBreak t (at_ (k + 1))) then .raise (raise0 .breakpoint) (at_ k) pair
      else if !b.wellFormed then .raise (raise0 .bundleFormat) (at_ k) false
      else if b.unpaired k then .raise (raise0 .illegalOpcode) (at_ k) false
      else match decode (s.privsOf t) (b.slot k) with
        | .error e => .raise (raise0 (DecodeFault.cause e)) (at_ k) pair
        | .ok i => .run i (at_ k) b

/-- The warp of `t` was chosen and issued: its wait ends, and every YIELD of its quadrant is spent, its own too (R39,
R142, R143). -/
def State.chosenOne (s : State) (t : Task) : State :=
  let quad := quadOf (t.slot.getD 0)
  let near (x : Task) : Bool := x.core == t.core && x.slot.isSome && quadOf (x.slot.getD 0) == quad
  let up (x : Task) : Task :=
    if x.uid = t.uid then { x with waitCount := 0, starving := false, giveWay := false }
    else if x.giveWay && near x then { x with giveWay := false } else x
  let s := { s with tasks := s.tasks.map up }.ranked t.core quad
  if t.isStarving then
    s.modCore t.core fun c =>
      let n := spGet c.regs.starve quad
      { c with regs := { c.regs with starve := spSet c.regs.starve quad (if n + 1 = 0 then n else n + 1) } }
  else s

/-- The instruction of `t` was held at issue: the warp runs on as before. -/
def State.held (s : State) (t : Task) : Bool :=
  match s.task? t.uid with
  | some x => x.st == .running && x.readyAt == t.readyAt && x.warp.pc == t.warp.pc
  | none => false

/-- The fetch of a task's bundle waits for a protected range that is not initialised (R408). -/
def State.codeWaits (s : State) (t : Task) : Bool :=
  let off := bundleOff t.warp.pc
  match s.job? t.job with
  | some j => off < j.rec_.codeSize && s.accessWaits t.core j.rec_.ctx (j.rec_.codeBase + off)
  | none => false

/-- The fetch of a task's bundle has left its translation behind. -/
def State.codeFetched (s : State) (t : Task) (pc : BitVec 32) : State :=
  match s.job? t.job with
  | some j => s.fetched t.core j (bundleOff pc)
  | none => s

/-- The state in which the fetched instruction of a task issues: its pc at its slot, its translation left behind, its
literals at hand. -/
def State.atIssue (s : State) (t : Task) (pc : BitVec 32) (b : Bundle) : State :=
  let s := (s.codeFetched t pc).modWarp t.uid fun w => { w with pc := pc }
  { s with cur := ⟨t.uid, b.lit0, b.lit1, b.valid, none, [], none, false⟩ }

end Sys2Proof.Machine
end

