-- ==== Sys2Proof/Machine/Fmf.lean ====
section
/-! DEFINITION. The function unit (06_float R135): the special values of its table, and its error bounds. Within a
bound the result is the device's own (`Config.fmf`, a fixed function of the input bits); the bound itself is checked
against the exact function value, enclosed in fixed point to 2^-250. -/

namespace Sys2Proof.Machine

/-- Fractional bits of the fixed-point values here. -/
def fixBits : Nat := 320

/-- pi and ln 2, rounded down to `fixBits` fractional bits. -/
def fixPi : Nat := 6710401180212168915155840974220003240804194089427148950727106424351713218671805380099500388914039
def fixLn2 : Nat := 1480553391661173448385607439722553250922680800745876974795605978609098082859138712941075737848984

def fixOne : Nat := 2 ^ fixBits

/-- A binary32 value in fixed point: exact, since its exponent is at least -149. -/
def fixOf (neg : Bool) (m : Nat) (e : Int) : Int :=
  let x := m * 2 ^ (e + fixBits).toNat
  if neg then -(x : Int) else x

/-- floor(sqrt x) bit by bit. -/
def isqrtFrom (x : Nat) : Nat → Nat → Nat
  | 0, r => r
  | n + 1, r =>
    let c := r + 2 ^ n
    isqrtFrom x n (if c * c ≤ x then c else r)

/-- exp of a fixed-point value below 1, by its series. -/
def fixExpFrom (y : Nat) : Nat → Nat → Nat → Nat → Nat
  | 0, _, _, acc => acc
  | n + 1, k, term, acc =>
    let t := term * y / fixOne / k
    fixExpFrom y n (k + 1) t (acc + t)

/-- 2^x for a fixed-point x of at least -160 and below 160. -/
def fixExp2 (x : Int) : Nat :=
  let i := x / fixOne
  let f := (x % fixOne).toNat
  let e := fixExpFrom (f * fixLn2 / fixOne) 80 1 fixOne fixOne
  if 0 ≤ i then e * 2 ^ i.toNat else e / 2 ^ (-i).toNat

/-- atanh of a fixed-point z of at most 1/3, by its series. -/
def fixAtanhFrom (z2 : Nat) : Nat → Nat → Nat → Nat → Nat
  | 0, _, _, acc => acc
  | n + 1, k, power, acc =>
    let p := power * z2 / fixOne
    fixAtanhFrom z2 n (k + 2) p (acc + p / k)

/-- log2 of m × 2^e for a positive m. -/
def fixLog2 (m : Nat) (e : Int) : Int :=
  let k := Nat.log2 m
  let x := m * fixOne / 2 ^ k
  let z := (x - fixOne) * fixOne / (x + fixOne)
  let ln := 2 * fixAtanhFrom (z * z / fixOne) 104 3 z z
  (e + k) * fixOne + (ln * fixOne / fixLn2 : Nat)

/-- The sine and cosine series from a term on: alternating signs. -/
def fixTrigFrom (x2 : Nat) : Nat → Nat → Nat → Int → Int → Int
  | 0, _, _, _, acc => acc
  | n + 1, k, term, sign, acc =>
    let t := term * x2 / fixOne / (k * (k + 1))
    fixTrigFrom x2 n (k + 2) t (-sign) (acc - sign * t)

/-- sin or cos of a fixed-point value. -/
def fixTrig (cos : Bool) (x : Int) : Int :=
  let two := 2 * fixPi
  -- reduced to [0, 2 pi), then about pi: sin x = -sin (x - pi), cos x = -cos (x - pi)
  let y : Int := x % two - fixPi
  let m := y.natAbs
  let x2 := m * m / fixOne
  let v := if cos then fixTrigFrom x2 80 1 fixOne 1 fixOne else fixTrigFrom x2 80 2 m 1 m
  if cos then -v else if y < 0 then v else -v

/-- tanh of a nonnegative fixed-point value: from 64 on, the last value below 1. -/
def fixTanh (x : Nat) : Nat :=
  if 64 * fixOne ≤ x then fixOne - 1
  else
    let e := fixExp2 (2 * x * fixOne / fixLn2 : Nat)
    (e - fixOne) * fixOne / (e + fixOne)

/-- What R135 asks of a result: within some ulp of the exact value, within an absolute error, or in [-1, 1]. -/
inductive FBound where
  | ulps (n : Nat) (v : Int)
  /-- The same, where the exact value lies nearer to `v` than to any value at the bound. -/
  | strict (n : Nat) (v : Int)
  | abs (tol : Nat) (v : Int)
  | strictAbs (tol : Nat) (v : Int)
  | unit
deriving DecidableEq, Repr

/-- One ulp of binary32 at a fixed-point value: its spacing there, that of the subnormals below 2^-126. -/
def fixUlp (v : Int) : Nat := 2 ^ (fixBits + (max ((Nat.log2 v.natAbs : Int) - fixBits) (-126) - 23)).toNat

/-- What the enclosure of an exact value may be wrong by. -/
def fixSlack : Nat := 2 ^ 70

/-- A finite result meets the bound. -/
def FBound.holds (b : FBound) (r : Int) : Bool :=
  match b with
  | .ulps n v => (r - v).natAbs ≤ n * fixUlp v + fixSlack
  | .strict n v => (r - v).natAbs ≤ n * fixUlp v
  | .abs tol v => (r - v).natAbs ≤ tol + fixSlack
  | .strictAbs tol v => (r - v).natAbs ≤ tol
  | .unit => r.natAbs ≤ fixOne

/-- A value that meets the bound: the exact one rounded, or zero. -/
def FBound.plain (b : FBound) : Nat :=
  match b with
  | .ulps _ v | .strict _ v | .abs _ v | .strictAbs _ v => (FFmt.fp32.round .rn false (.fin (v < 0) v.natAbs 1 (-(fixBits : Int)))).code
  | .unit => 0

/-- Code of FMF's function field. -/
def FFn.code : FFn → BitVec 3
  | .rcp => 0 | .rsq => 1 | .ex2 => 2 | .lg2 => 3 | .sin => 4 | .cos => 5 | .tanh => 6

/-- The device's result within a bound. -/
def fmfWithin (fn : FFn) (a : Nat) (b : FBound) : FRes :=
  let u := (Config.fmf (FFn.code fn) (BitVec.ofNat 32 a)).toNat
  match FFmt.fp32.decode u with
  | .fin neg m _ e => if b.holds (fixOf neg m e) then ⟨u, 0⟩ else ⟨b.plain, 0⟩
  | .inf _ | .nan _ => ⟨b.plain, 0⟩

/-- The bound on a nonzero finite input that no special value covers. DEDUCED: for tanh below 2^-4 the absolute bound stands
in place of the 2 ulp, as for lg2 (notes/assumptions/6.md). -/
def fmfBound (fn : FFn) (neg : Bool) (m : Nat) (e : Int) : FBound :=
  let x := fixOf neg m e
  let signed (v : Nat) : Int := if neg then -(v : Int) else v
  match fn with
  | .rcp => .ulps 1 (signed (fixOne * fixOne / x.natAbs))
  | .rsq => .ulps 2 (isqrtFrom (fixOne * fixOne * fixOne / x.natAbs) 480 0)
  | .ex2 => if x ≤ -160 * (fixOne : Int) then .strict 2 1 else .ulps 2 (fixExp2 x)
  | .lg2 => if fixOne ≤ 2 * x.natAbs ∧ x.natAbs ≤ 2 * fixOne then .abs (fixOne / 2 ^ 22) (fixLog2 m e)
    else .ulps 2 (fixLog2 m e)
  | .sin => if x.natAbs ≤ 2 ^ 15 * fixOne then .abs (fixOne / 2 ^ 21) (fixTrig false x) else .unit
  | .cos =>
    -- the exact value lies below 1, by less than any value tells from the bound
    if 2 ^ 64 * x.natAbs < fixOne then .strictAbs (fixOne / 2 ^ 21) (fixOne - 1)
    else if x.natAbs ≤ 2 ^ 15 * fixOne then .abs (fixOne / 2 ^ 21) (fixTrig true x) else .unit
  | .tanh =>
    let v := signed (fixTanh x.natAbs)
    if 16 * x.natAbs < fixOne then .abs (fixOne / 2 ^ 24) v
    else if 64 * fixOne ≤ x.natAbs then .strict 2 v else .ulps 2 v

def fpInf (neg : Bool) : Nat := FFmt.fp32.infCode + FFmt.fp32.signBit neg
def fpOne (neg : Bool) : Nat := 0x3F800000 + FFmt.fp32.signBit neg

/-- FMF of a binary32 code after the modifiers: the table of R135. -/
def fmfResult (fn : FFn) (a : Nat) : FRes :=
  let bad : FRes := ⟨FFmt.fp32.nanCode, fInvalid⟩
  match FFmt.fp32.decode a with
  | .nan s => ⟨FFmt.fp32.nanCode, flagIf s fInvalid⟩
  | .inf neg =>
    match fn with
    | .rcp => ⟨FFmt.fp32.signBit neg, 0⟩
    | .rsq => if neg then bad else ⟨0, 0⟩
    | .ex2 => if neg then ⟨0, 0⟩ else ⟨fpInf false, 0⟩
    | .lg2 => if neg then bad else ⟨fpInf false, 0⟩
    | .sin | .cos => bad
    | .tanh => ⟨fpOne neg, 0⟩
  | .fin neg m _ e =>
    if m = 0 then
      match fn with
      | .rcp | .rsq => ⟨fpInf neg, fDivzero⟩
      | .ex2 => fmfWithin fn a (.ulps 2 fixOne)
      | .lg2 => ⟨fpInf true, fDivzero⟩
      | .sin | .tanh => ⟨a, 0⟩
      | .cos => ⟨fpOne false, 0⟩
    else
      match fn with
      | .rcp => if (fixOf false m e) * 2 ^ 128 ≤ fixOne then ⟨fpInf neg, fOverflow⟩ else fmfWithin fn a (fmfBound fn neg m e)
      | .rsq => if neg then bad else fmfWithin fn a (fmfBound fn neg m e)
      | .ex2 => if 128 * (fixOne : Int) ≤ fixOf neg m e then ⟨fpInf false, fOverflow⟩
        else fmfWithin fn a (fmfBound fn neg m e)
      | .lg2 => if neg then bad else if a = 0x3F800000 then ⟨0, 0⟩ else fmfWithin fn a (fmfBound fn neg m e)
      | .sin | .cos | .tanh => fmfWithin fn a (fmfBound fn neg m e)

end Sys2Proof.Machine
end

