-- ==== Sys2Proof/Machine/Float.lean ====
section
/-! DEFINITION. Class 0x2 (06_float R124 to R139): single, double and packed half arithmetic, comparison, the function
unit, classification and the flag fence. -/

namespace Sys2Proof.Machine

/-- A result of the float machinery as a lane's result. -/
def Res.ofF (r : FRes) : Res := ⟨r.code, false, r.flags⟩

/-- A source after its modifiers (R127). -/
def fsrc (l : Lane) (op : Opnd) (ty : Ty) (neg abs : Bool) : Nat := fmod (fmtOf ty) (l.src op ty) neg abs

/-- The shape of a two-source float instruction. -/
def shapeF (a : FArgs) : Shape := ⟨[(a.a, a.ty), (a.b, a.ty)], [], some (a.d, a.ty.regs), none⟩

/-- The shape of a three-source float instruction. -/
def shapeFma (a : FmaArgs) : Shape := ⟨[(a.a, a.ty), (a.b, a.ty), (a.c, a.ty)], [], some (a.d, a.ty.regs), none⟩

/-- a + b in one format, on codes (R124 to R126, R132). -/
def addCode (f : FFmt) (rm : RM) (x y : Nat) : FRes := f.finish rm (fadd rm (f.decode x) (f.decode y))

/-- a × b in one format, on codes. -/
def mulCode (f : FFmt) (rm : RM) (x y : Nat) : FRes := f.finish rm (fmul (f.decode x) (f.decode y))

/-- a × b + c in one format with one rounding, on codes. -/
def fmaCode (f : FFmt) (rm : RM) (x y z : Nat) : FRes := f.finish rm (ffma rm (f.decode x) (f.decode y) (f.decode z))

/-- An addition of two modified sources. -/
def floatAdd (a : FArgs) (l : Lane) : Res :=
  Res.ofF (addCode (fmtOf a.ty) a.rm (fsrc l a.a a.ty a.nega a.absa) (fsrc l a.b a.ty a.negb a.absb))

def floatMul (a : FArgs) (l : Lane) : Res :=
  Res.ofF (mulCode (fmtOf a.ty) a.rm (fsrc l a.a a.ty a.nega a.absa) (fsrc l a.b a.ty a.negb a.absb))

def floatFma (a : FmaArgs) (l : Lane) : Res :=
  Res.ofF (fmaCode (fmtOf a.ty) a.rm (fsrc l a.a a.ty a.nega a.absa) (fsrc l a.b a.ty a.negb a.absb)
    (fsrc l a.c a.ty a.negc false))

/-- FADD (R132). -/
def execFadd (h : Hdr) (a : FArgs) (s : State) : Out' := compute h s (shapeF a) (distOf h 5 3) (floatAdd a)

/-- FMUL (R132). -/
def execFmul (h : Hdr) (a : FArgs) (s : State) : Out' := compute h s (shapeF a) (distOf h 5 3) (floatMul a)

/-- FFMA (R132). -/
def execFfma (h : Hdr) (a : FmaArgs) (s : State) : Out' := compute h s (shapeFma a) (distOf h 5 3) (floatFma a)

/-- DADD (R138). -/
def execDadd (h : Hdr) (a : FArgs) (s : State) : Out' := compute h s (shapeF a) (distOf h 10 4) (floatAdd a)

/-- DMUL (R138). -/
def execDmul (h : Hdr) (a : FArgs) (s : State) : Out' := compute h s (shapeF a) (distOf h 10 4) (floatMul a)

/-- DFMA (R138). -/
def execDfma (h : Hdr) (a : FmaArgs) (s : State) : Out' := compute h s (shapeFma a) (distOf h 10 4) (floatFma a)

/-! ### Minimum, comparison, function unit, class (R133 to R136) -/

/-- FMNMX (R133). -/
def execFmnmx (h : Hdr) (a : FmnmxArgs) (s : State) : Out' :=
  compute h s ⟨[(a.a, a.ty), (a.b, a.ty)], [], some (a.d, a.ty.regs), none⟩ (distOf h 4 2) fun l =>
    Res.ofF (fminmax (fmtOf a.ty) a.max a.prop (fsrc l a.a a.ty a.nega a.absa) (fsrc l a.b a.ty a.negb a.absb))

/-- FSETP (R134). -/
def execFsetp (h : Hdr) (a : FsetpArgs) (s : State) : Out' :=
  compute h s ⟨[(a.a, a.ty), (a.b, a.ty)], [a.comb], none, some a.pd⟩ (distOf h 4 2) fun l =>
    let f := fmtOf a.ty
    let r := fcompare a.cmp (f.decode (fsrc l a.a a.ty false a.absa)) (f.decode (fsrc l a.b a.ty false a.absb))
    ⟨0, combine a.op r.1 (l.pred a.comb != a.neg), r.2⟩

/-- FMF (R135). -/
def execFmf (h : Hdr) (a : FmfArgs) (s : State) : Out' :=
  compute h s ⟨[(a.a, .f32)], [], some (a.d, 1), none⟩ (distOf h 18 8) fun l =>
    Res.ofF (fmfResult a.fn (fsrc l a.a .f32 a.nega a.absa))

/-- FCLS (R136). -/
def execFcls (h : Hdr) (a : TyDA) (s : State) : Out' :=
  compute h s ⟨[(a.a, a.ty)], [], some (a.d, 1), none⟩ (distOf h 4 2) fun l =>
    Res.of (fclass (fmtOf a.ty) (l.src a.a a.ty))

/-! ### Packed pairs (R137) -/

/-- The operation of one element on both halves; the flags are the union. -/
def onHalves (f : Nat → FRes) : Res :=
  let lo := f 0
  let hi := f 1
  ⟨lo.code + 2 ^ 16 * hi.code, false, lo.flags ||| hi.flags⟩

/-- Element `i` of a packed source after its modifiers. -/
def halfSrc (l : Lane) (op : Opnd) (ty : Ty) (neg abs : Bool) (i : Nat) : Nat :=
  fmod (fmtOf ty) (natBits (l.src op .n32) (16 * i) 16) neg abs

/-- HADD2 (R137). -/
def execHadd2 (h : Hdr) (a : FArgs) (s : State) : Out' :=
  compute h s ⟨[(a.a, .n32), (a.b, .n32)], [], some (a.d, 1), none⟩ (distOf h 5 3) fun l => onHalves fun i =>
    addCode (fmtOf a.ty) a.rm (halfSrc l a.a a.ty a.nega a.absa i) (halfSrc l a.b a.ty a.negb a.absb i)

/-- HMUL2 (R137). -/
def execHmul2 (h : Hdr) (a : FArgs) (s : State) : Out' :=
  compute h s ⟨[(a.a, .n32), (a.b, .n32)], [], some (a.d, 1), none⟩ (distOf h 5 3) fun l => onHalves fun i =>
    mulCode (fmtOf a.ty) a.rm (halfSrc l a.a a.ty a.nega a.absa i) (halfSrc l a.b a.ty a.negb a.absb i)

/-- HFMA2 (R137). -/
def execHfma2 (h : Hdr) (a : FmaArgs) (s : State) : Out' :=
  compute h s ⟨[(a.a, .n32), (a.b, .n32), (a.c, .n32)], [], some (a.d, 1), none⟩ (distOf h 5 3) fun l =>
    onHalves fun i =>
      fmaCode (fmtOf a.ty) a.rm (halfSrc l a.a a.ty a.nega a.absa i) (halfSrc l a.b a.ty a.negb a.absb i)
        (halfSrc l a.c a.ty a.negc false i)

/-! ### TFENCE (R139) -/

/-- An operation of the task has still to merge its flags: a matrix operation, a TDRAIN or a PSEL. -/
def State.flagsOwed (s : State) (t : Task) : Bool :=
  let c := s.core t.core
  c.mx.ops.any (fun o => o.owner == t.uid) ||
  c.ops.any fun o => o.owner == t.uid && (match o.kind with
    | .drain _ _ _ _ _ => true
    | .psel _ _ _ _ _ _ _ _ => true
    | .stage _ _ _ | .copy _ _ _ _ | .pgath _ _ _ _ _ | .gathl _ _ _ | .scatl _ _ _ _ _ => false)

/-- The enabled flags that are set. -/
def enabledFlags (fpctl : BitVec 32) : Nat := natBits (fpctl.toNat &&& (fpctl.toNat / 2 ^ 8)) 0 6

/-- The lowest set bit of six. -/
def lowestFlag (m : Nat) : Option (Fin 6) := (List.finRange 6).find? fun i => natBit m i.val

/-- The instruction has completed, and a cause of kind A stops the task before the next one. -/
def State.afterTrap (s : State) (t : Task) (h : Hdr) (c : Cause) (code : Nat) : State :=
  let next := s.seqPc t
  (s.modTask t.uid fun t => t.issued h.hint next false s.clk).takeTrap t.uid (raise0 c) .after next (code := code)

/-- TFENCE.CHECK: traps after it completes where an enabled flag is set. -/
def execTfenceCheck (h : Hdr) (s : State) : Out' :=
  issue h s (fun _ _ => []) fun s t _ =>
    if s.flagsOwed t then .error .hold
    else match lowestFlag (enabledFlags t.warp.fpctl) with
      | none => .ok (eff s)
      | some i => .error (.done (s.afterTrap t h (.arith i) 0))

/-- TFENCE.GET. -/
def execTfenceGet (h : Hdr) (a : DstArgs) (s : State) : Out' :=
  issue h s (fun _ _ => []) fun s t _ =>
    if s.flagsOwed t then .error .hold
    else .ok (eff (s.pushResult t 2 (s.dst t a.d 1 0 t.warp.fpctl.toNat)))

/-- TFENCE.PUT. -/
def execTfencePut (h : Hdr) (a : SrcArgs) (s : State) : Out' :=
  issue h s (fun t _ => s.srcKeys t a.a 1 0) fun s t _ =>
    if s.flagsOwed t then .error .hold
    else
      let v := BitVec.ofNat 32 (s.src t a.a .n32 0) &&& fpctlMask
      .ok (eff (s.modWarp t.uid fun w => { w with fpctl := v }))

/-- TFENCE.CLEAR. -/
def execTfenceClear (h : Hdr) (a : SrcArgs) (s : State) : Out' :=
  issue h s (fun t _ => s.srcKeys t a.a 1 0) fun s t _ =>
    if s.flagsOwed t then .error .hold
    else
      let v := BitVec.ofNat 32 (s.src t a.a .n32 0 % 64)
      .ok (eff (s.modWarp t.uid fun w => { w with fpctl := w.fpctl &&& ~~~v }))

end Sys2Proof.Machine
end

