-- ==== Sys2Proof/Machine/Control.lean ====
section
/-! DEFINITION. Class 0x4 (07_control R145 to R160): branches, calls, structured divergence, exits and loops. -/

namespace Sys2Proof.Machine

/-- The target of an offset: a signed number of bundles from the branching bundle (R153). -/
def branchTarget (pc off : BitVec 32) : BitVec 32 := BitVec.ofNat 32 (bundleOff pc) + 64 * off

/-- Branch(t): the checks of R30, and the state in which execution continues there. -/
def branchTo (s : State) (t : Task) (target : BitVec 32) : M Eff :=
  match s.branchCheck t target with
  | .error e => .error e
  | .ok () => .ok ⟨s, some target, false⟩

/-- ACTIVE is written, ANDed with LIVE (R145). -/
def State.setActive (s : State) (t : Task) (m : BitVec 32) : State :=
  s.modWarp t.uid fun w => { w with active := m &&& w.live }

/-- The mask map's bits for a mask pair (R148). -/
def markBits (m : BitVec 7) : BitVec 128 := BitVec.twoPow 128 m.toNat ||| BitVec.twoPow 128 (m.toNat + 1)

def State.mark (s : State) (t : Task) (m : BitVec 7) : State :=
  s.modWarp t.uid fun w => { w with maskMap := w.maskMap ||| markBits m }

def State.unmark (s : State) (t : Task) (m : BitVec 7) : State :=
  s.modWarp t.uid fun w => { w with maskMap := w.maskMap &&& ~~~markBits m }

/-! ### Transfers (R156 to R158) -/

/-- Whether a BRA is taken (R156). -/
def braTaken (s : State) (t : Task) (h : Hdr) (all : Bool) : Bool :=
  if h.u then s.guardIn t h 0
  else if h.pred == 7 && !h.neg then true
  else
    let set := s.effLanes t h
    if all then t.warp.active != 0 && set.length == (lanesOf t.warp.active).length else !set.isEmpty

/-- BRA (R156): it never divides ACTIVE. -/
def execBra (h : Hdr) (a : BraArgs) (s : State) : Out' :=
  issueIf true h s (fun _ _ => []) fun s t _ =>
    if braTaken s t h a.all then branchTo s t (branchTarget t.warp.pc a.off) else .ok (eff s)

/-- BRX (R157). -/
def execBrx (h : Hdr) (a : SrcArgs) (s : State) : Out' :=
  issue h s (fun t _ => s.srcKeys t a.a 1 0) fun s t _ => branchTo s t (BitVec.ofNat 32 (s.src t a.a .n32 0))

/-- A call: the link is written only if the branch succeeds (R157). -/
def callTo (s : State) (t : Task) (d : Opnd) (target : BitVec 32) : M Eff :=
  match branchTo s t target with
  | .error e => .error e
  | .ok e => .ok { e with s := e.s.pushResult t 2 (s.dst t d 1 0 (bundleOff t.warp.pc + 64)) }

/-- CALL with an offset (R157). -/
def execCall (h : Hdr) (a : CallArgs) (s : State) : Out' :=
  issue h s (fun _ _ => []) fun s t _ => callTo s t a.d (branchTarget t.warp.pc a.off)

/-- CALL through a register (R157). -/
def execCallX (h : Hdr) (a : CallXArgs) (s : State) : Out' :=
  issue h s (fun t _ => s.srcKeys t a.a 1 0) fun s t _ => callTo s t a.d (BitVec.ofNat 32 (s.src t a.a .n32 0))

/-- RET (R157). -/
def execRet (h : Hdr) (a : SrcArgs) (s : State) : Out' :=
  issue h s (fun t _ => s.srcKeys t a.a 1 0) fun s t _ => branchTo s t (BitVec.ofNat 32 (s.src t a.a .n32 0))

/-- LOOPN (R158). -/
def execLoopn (h : Hdr) (a : LoopArgs) (s : State) : Out' :=
  issue h s (fun t _ => s.srcKeys t a.m 1 0) fun s t _ =>
    let n := s.src t a.m .n32 0
    let count (s : State) (x : Nat) : State := s.pushResult t 2 (s.dst t a.m 1 0 x)
    if 1 < n then
      match branchTo s t (branchTarget t.warp.pc a.off) with
      | .error e => .error e
      | .ok e => .ok { e with s := count e.s (n - 1) }
    else .ok (eff (count s 0))

/-! ### Divergence (R148 to R150) -/

/-- SPLIT (R148). -/
def execSplit (h : Hdr) (a : SplitArgs) (s : State) : Out' :=
  issue h s (fun t _ => (lanesOf t.warp.active).map (kp a.p.toNat ·)) fun s t _ =>
    let set := maskOf ((lanesOf t.warp.active).filter fun l => s.readPred t (kp a.p.toNat l) != a.neg)
    let rest := t.warp.active &&& ~~~set
    let save (s : State) (pending : BitVec 32) : State :=
      (s.pushResult t 2 [⟨kg a.m.toNat, t.warp.active⟩, ⟨kg (a.m.toNat + 1), pending⟩]).mark t a.m
    if set ≠ 0 then .ok (eff ((save s rest).setActive t set))
    else
      match branchTo s t (branchTarget t.warp.pc a.off) with
      | .error e => .error e
      | .ok e => .ok { e with s := (save e.s 0).setActive t rest }

/-- ELSE (R148). -/
def execElseI (h : Hdr) (a : MaskOffArgs) (s : State) : Out' :=
  issue h s (fun _ _ => [kg (a.m.toNat + 1)]) fun s t _ =>
    let e := s.readKey t (kg (a.m.toNat + 1)) &&& t.warp.live
    if e ≠ 0 then .ok (eff ((s.pushResult t 2 [⟨kg (a.m.toNat + 1), 0⟩]).setActive t e))
    else branchTo s t (branchTarget t.warp.pc a.off)

/-- REJOIN (R148). -/
def execRejoin (h : Hdr) (a : MaskArgs) (s : State) : Out' :=
  issue h s (fun _ _ => [kg a.m.toNat]) fun s t _ =>
    .ok (eff ((s.setActive t (s.readKey t (kg a.m.toNat))).unmark t a.m))

/-! ### Ends (R146, R149, R169, R370) -/

/-- End the task as TEND does: refused while a cohort is open (R173); a trap task that ends so escalates its faulting
task (R370). -/
def endWarp (s : State) (t : Task) : M State :=
  if t.opened.isSome then throwC .spawnBadClosure
  else
    let s := s.endTask t.uid
    match t.trapOf with
    | some f => .ok (s.escalate f)
    | none => .ok s

/-- A variable-latency result of the task still has to write a g register. -/
def State.owesG (_ : State) (t : Task) : Bool :=
  t.warp.inflight.any fun i => i.source != .pipe && i.writes.any fun x => x.at_.file == .g

/-- Lanes leave LIVE, ACTIVE and every marked g register (R149). -/
def Warp.exitLanes (w : Warp) (x : BitVec 32) : Warp :=
  { w with
    live := w.live &&& ~~~x
    active := w.active &&& ~~~x
    g := (List.range 128).foldl (fun g k =>
      if w.maskMap.getLsbD k then spSet g k (spGet g k &&& ~~~x) else g) w.g }

/-- Fixed-latency writes to g registers land: the device holds EXIT for them (R149). -/
def Warp.landG (w : Warp) : Warp :=
  let onG (x : RegWrite) : Bool := x.at_.file == .g
  putWrites { w with inflight := w.inflight.map (·.without onG) } (w.inflight.flatMap fun i => i.writes.filter onG)

/-- EXIT (R149). The hold is the issue's own: it stands whether or not the guard holds. -/
def execExitI (h : Hdr) (s : State) : Out' :=
  issueIf true h s (fun _ _ => []) fun s t lanes =>
    if s.owesG t then .error .hold
    else
      let x := if !h.u then maskOf lanes else if s.guardIn t h 0 then t.warp.active else 0
      let s := s.modWarp t.uid fun w => w.landG.exitLanes x
      if t.warp.live &&& ~~~x = 0 then
        match endWarp s t with
        | .error e => .error e
        | .ok s => .error (.done s)
      else .ok (eff s)

/-! ### YIELD and NOP (R159, R160) -/

/-- YIELD: its hint, and a point where soft pre-emption may stop the task. -/
def execYieldI (h : Hdr) (s : State) : Out' :=
  issue h s (fun _ _ => []) fun s t _ =>
    let s := s.finish t.uid h.hint (s.seqPc t) false
    .error (.done ((s.modTask t.uid fun t => { t with giveWay := true }).yieldStop t.uid))

/-- NOP: its hints alone. -/
def execNop (h : Hdr) (s : State) : Out' := issue h s (fun _ _ => []) fun s _ _ => .ok (eff s)

end Sys2Proof.Machine
end

