-- ==== Sys2Proof/Machine/Record.lean ====
section
/-! DEFINITION. Record and replay (16_system R382 to R385): the log of a job in MODE 1, the results that a job in
MODE 2 takes from it. -/

namespace Sys2Proof.Machine

/-- One result as the log holds it: its KIND, lane, predicate and value. -/
structure LogRec where
  kind : Nat
  lane : Nat
  flag : Bool
  val : Nat
deriving DecidableEq, Repr

def logBytes (stream : BitVec 32) (r : LogRec) : List Byte :=
  bytesOf 4 stream.toNat ++ bytesOf 1 r.kind ++ bytesOf 1 r.lane ++ bytesOf 2 r.flag.toNat ++ bytesOf 8 r.val

/-- The device's access to a log fails: the job is killed with the cause (R189). -/
def State.logFault (s : State) (core : Nat) (j : Job) (va : Nat) (e : XErr) : State :=
  (s.latchXlat core 3 j.rec_.ctx va e).killJob j.id e.cause

/-- Records appended so far. -/
def State.logCount (s : State) (core : Nat) (j : Job) : Except (Nat × XErr) Nat :=
  match s.vread core j.rec_.ctx j.rec_.logBase 8 needR with
  | .error e => .error e
  | .ok bs => .ok (natOf bs)

/-- Append records to the log of a job (R383); false where they would pass LOG_SIZE. -/
def State.logAppend (s : State) (core : Nat) (j : Job) (stream : BitVec 32) (rs : List LogRec) :
    Except (Nat × XErr) (State × Bool) :=
  match s.logCount core j with
  | .error e => .error e
  | .ok n =>
    if j.rec_.logSize < 16 + 16 * (n + rs.length) then .ok (s, false)
    else
      match s.vwrite core j.rec_.ctx (j.rec_.logBase + 16 + 16 * n) (rs.flatMap (logBytes stream)) needW with
      | .error e => .error e
      | .ok s =>
        match s.vwrite core j.rec_.ctx j.rec_.logBase (bytesOf 8 (n + rs.length)) needW with
        | .error e => .error e
        | .ok s => .ok (s, true)

/-- Set TRUNCATED: the job continues in normal mode (R385). -/
def State.logTruncate (s : State) (core : Nat) (j : Job) : State :=
  let s := s.modJob j.id fun j => { j with truncated := true }
  match s.vwrite core j.rec_.ctx (j.rec_.logBase + 8) (bytesOf 8 1) needW with
  | .ok s => s
  | .error (va, e) => s.logFault core j va e

/-- One record of the log, with its stream. -/
def State.logAt (s : State) (core : Nat) (j : Job) (n : Nat) : Except (Nat × XErr) (Nat × LogRec) :=
  match s.vread core j.rec_.ctx (j.rec_.logBase + 16 + 16 * n) 16 needR with
  | .error e => .error e
  | .ok bs =>
    let x (o k : Nat) : Nat := natOf ((bs.drop o).take k)
    .ok (x 0 4, ⟨x 4 1, x 5 1, natBit (x 6 2) 0, x 8 8⟩)

/-- The next record of a stream at or after a position, and its position. -/
def State.logNext (s : State) (core : Nat) (j : Job) (stream : BitVec 32) : Nat → Nat →
    Except (Nat × XErr) (Option (Nat × LogRec))
  | 0, _ => .ok none
  | fuel + 1, n =>
    match s.logAt core j n with
    | .error e => .error e
    | .ok (st, r) => if st = stream.toNat then .ok (some (n, r)) else s.logNext core j stream fuel (n + 1)

/-- The next record of the task's stream, unread. -/
def State.logPeek (s : State) (t : Task) (j : Job) : Except (Nat × XErr) (Option (Nat × LogRec)) :=
  match s.logCount t.core j with
  | .error e => .error e
  | .ok n => s.logNext t.core j t.stream (n - t.logPos) t.logPos

/-- REPLAY_DIVERGED for want of a record. DESIGN CHOICE: a log that does not translate has none; the fault is latched
(R404, notes/assumptions/62.md). -/
def noRecord (fault : Option (Nat × XErr)) : Raise :=
  { raise0 .replayDiverged with latch := fault.map fun (va, e) => (3, va, e) }

/-- In replay, the next record of the task's stream, where it has the given KIND. -/
def State.replayed (s : State) (t : Task) (kind : Nat) : Option LogRec :=
  match s.job? t.job with
  | none => none
  | some j =>
    if j.rec_.mode = 2 then
      match s.logPeek t j with
      | .ok (some (_, r)) => if r.kind = kind then some r else none
      | .ok none | .error _ => none
    else none

/-- Take records of the given kinds from the log, in order; what the program receives is theirs (R384). -/
def State.logTake (s : State) (u : Nat) (j : Job) : List LogRec → M (State × List LogRec)
  | [] => .ok (s, [])
  | r :: rs =>
    match s.task? u with
    | none => .ok (s, [])
    | some t =>
      match s.logPeek t j with
      | .error e => .error (.raise (noRecord (some e)))
      | .ok none => .error (.raise (noRecord none))
      | .ok (some (n, x)) =>
        if x.kind ≠ r.kind then throwC .replayDiverged
        else
          let s := s.touchSpan t.core j.rec_.ctx (j.rec_.logBase + 16 + 16 * n) 16
          match State.logTake (s.setTask { t with logPos := n + 1 }) u j rs with
          | .error e => .error e
          | .ok (s, xs) => .ok (s, { x with lane := r.lane } :: xs)

/-- What an instruction receives of its results, by the mode of its job: the results themselves, recorded in MODE 1, or
those of the log in MODE 2 (R382, R384, R385). -/
def State.logged (s : State) (t : Task) (rs : List LogRec) : M (State × List LogRec) :=
  match s.job? t.job with
  | none => .ok (s, rs)
  | some j =>
    if j.rec_.mode = 1 ∧ !j.truncated then
      match s.logAppend t.core j t.stream rs with
      | .error (va, e) => .error (.done (s.logFault t.core j va e))
      | .ok (_, false) => .error (.raiseIn (s.logTruncate t.core j) (raise0 .logFull))
      | .ok (s, true) => .ok (s, rs)
    else if j.rec_.mode = 2 then s.logTake t.uid j rs
    else .ok (s, rs)

/-- A single recorded result. -/
def State.logged1 (s : State) (t : Task) (r : LogRec) : M (State × LogRec) :=
  match s.logged t [r] with
  | .error e => .error e
  | .ok (s, xs) => .ok (s, xs.headD r)

end Sys2Proof.Machine
end

