-- ==== Sys2Proof/Machine/Spawn.lean ====
section
/-! DEFINITION. What the task instructions share: releases and acquires (11_consistency R257, R260), closure lines and
their checks (08_tasks R161, R162), binding futures (R166, R174), and pushing onto a deque with its spill (R171, R172). -/

namespace Sys2Proof.Machine

/-! ### Releases (R260) -/

/-- No store of the task is buffered, and every drained one is acknowledged. -/
def State.drainedOut (s : State) (t : Task) : Bool :=
  t.unacked == 0 && !(s.core t.core).storeBuf.any (·.owner == t.uid)

/-- Every earlier access of the task has performed: its stores, and the engine operations it issued, whose accesses are
the task's (R304). -/
def State.released (s : State) (t : Task) : Bool :=
  s.drainedOut t && !(s.core t.core).ops.any fun o => o.owner == t.uid && !o.region

/-! ### Closure lines (R161) -/

abbrev Line := List (BitVec 32)

def lineWord (l : Line) (n : Nat) : Nat := (l[n]?.getD 0).toNat

def clHead (l : Line) : Bool := natBit (lineWord l 0) 29
def clWidth (l : Line) : Nat := 8 * 2 ^ natBits (lineWord l 0) 26 2
def clEntry (l : Line) : Nat := 64 * natBits (lineWord l 0) 0 26
def clFuture (l : Line) : BitVec 32 := l[1]?.getD 0
def clKey (l : Line) : Nat := lineWord l 2
def clRlist (l : Line) : Nat := natBits (lineWord l 3) 4 28
def clRegions (l : Line) : Nat := natBits (lineWord l 4) 0 4 + 16 * natBits (lineWord l 3) 0 1
def clCount (l : Line) : Nat := 4 * natBits (lineWord l 4) 4 8
def clSize (l : Line) : Nat := natBits (lineWord l 4) 12 3 + 1

/-- Granules of a line's task: its declared ones and the three fixed (R59). -/
def clGranules (l : Line) : Nat := clCount l / 4 + 3

/-- R162, check 1: the fields of the line itself. -/
def clShapeBad (l : Line) : Bool :=
  natBits (lineWord l 0) 30 2 != 0 || natBits (lineWord l 3) 1 3 != 0 || natBits (lineWord l 4) 15 17 != 0 ||
  natBits (lineWord l 0) 26 2 == 3 || clCount l == 0 || 640 < clCount l

/-- How a line enters: a SPAWN, or an instruction that takes a cohort of one alone. -/
inductive Entering where
  | member
  | single
deriving DecidableEq, Repr

/-- R162, check 4, with the uses R173 forbids. -/
def State.cohortBad (s : State) (t : Task) (l : Line) (how : Entering) : Bool :=
  match how, t.opened with
  | .single, none => clSize l != 1
  | .single, some _ => true
  | .member, none => !clHead l && clSize l != 1
  | .member, some (_, size, ms) =>
    clHead l || clSize l != size ||
    (ms.length + 1 == size &&
      2048 < (ms.filterMap s.task?).foldl (fun acc m => acc + clGranules m.line) (clGranules l))

/-- A future that the task may name in word 1 of a line (R166, R174). -/
def State.mayBind (s : State) (t : Task) (h : BitVec 32) : Bool :=
  h == 0 || (match s.validCell t.job h with
    | none => false
    | some c => c.st == .pending && (match c.bound with
      | .none => true
      | .task u => u == t.uid && c.latched.isNone
      | .range _ | .gate _ => false))

/-- The closure checks in order (R162). -/
def State.checkLine (s : State) (t : Task) (j : Job) (l : Line) (how : Entering) : M Unit :=
  if clShapeBad l then throwC .spawnBadClosure
  else if 16 < clRegions l then throwC .regionTooMany
  else if j.rec_.regionSize < 16 * clRlist l + 16 * clRegions l then throwC .spawnBadClosure
  else if s.cohortBad t l how then throwC .spawnBadClosure
  else if !s.mayBind t (clFuture l) then throwC .futureInvalid
  else .ok ()

/-- Bind a future to its producer; where it was the spawner's own, the spawner has none from then on (R174, R185). -/
def State.bindFuture (s : State) (t : Task) (h : BitVec 32) (b : Bound) : State :=
  if h = 0 then s
  else match s.cell? (cellKey h) with
    | none => s
    | some c =>
      let s := s.setCell { c with bound := b }
      if c.bound = .task t.uid then s.modTask t.uid fun t => { t with fut := 0, handed := true, line := t.line.set 1 0 }
      else s

/-! ### The deque (R171, R172) -/

/-- Lines an entry occupies. -/
def Entry.lines : Entry → Nat
  | .group _ ms => ms.length
  | .range _ _ _ _ => 1

def Entry.job : Entry → BitVec 32
  | .group j _ => j
  | .range j _ _ _ => j

def linesIn (l : List Entry) : Nat := l.foldl (fun acc e => acc + e.lines) 0

/-- Members pushed to open cohorts of a core. A context that is saved took its open cohorts with its deque (R173). -/
def State.openLines (s : State) (core : Nat) (p : Task → Bool) : Nat :=
  s.tasks.foldl (fun acc t => if t.core == core && p t && (s.ctx (s.ctxOf t)).image.isEmpty then
    acc + (match t.opened with | some (_, _, ms) => ms.length | none => 0) else acc) 0

/-- SRAM lines in use. -/
def State.sramLines (s : State) (core : Nat) : Nat :=
  linesIn (s.core core).deque + s.openLines core fun _ => true

/-- Lines of a job in its overflow area on a core: spilled entries and gated spawns (R172, R180). -/
def State.areaLines (s : State) (core : Nat) (job : BitVec 32) : Nat :=
  linesIn ((s.core core).spilled.filter (·.job == job)) +
  (s.gates.filter fun g => g.core == core && ((s.task? g.task).map (·.job)) == some job).length

def areaSize : Nat := 16384

/-- The coldest entries, 256 lines of them, and the rest (R172). DESIGN CHOICE: a group counts its lines and goes whole,
also past the 256, and an open cohort's members stay (notes/assumptions/60.md). -/
def coldest : List Entry → List Entry × List Entry
  | [] => ([], [])
  | e :: l =>
    let (cold, hot) := coldest l
    if cold.foldl (fun acc x => acc + x.lines) 0 < 256 && hot.isEmpty then (e :: cold, hot) else (cold, e :: hot)

/-- Move entries to the overflow areas of their jobs, while there is room; those without stay. -/
def spillInto (s : State) (core : Nat) : List Entry → List Entry × List Entry
  | [] => ([], [])
  | e :: l =>
    let (gone, kept) := spillInto s core l
    let used := s.areaLines core e.job + linesIn (gone.filter (·.job == e.job))
    if used + e.lines ≤ areaSize then (e :: gone, kept) else (gone, e :: kept)

/-- The device's access to a job's overflow area on a core, the fault killing the job (R189). -/
def State.areaFault (s : State) (core : Nat) (job : BitVec 32) : Option State :=
  match s.job? job with
  | none => none
  | some j =>
    let base := j.rec_.overflowBase + 2 ^ 20 * coreIndex j core
    (s.firstBad core j.rec_.ctx needRW (pieces base (2 ^ 20))).map fun (va, e) =>
      (s.latchXlat core 3 j.rec_.ctx va e).killJob job e.cause

/-- A job's overflow area on a core has taken lines: its bytes are the device's (R172). -/
def State.areaWritten (s : State) (core : Nat) (job : BitVec 32) : State :=
  match s.job? job with
  | none => s
  | some j => s.openVa core j.rec_.ctx (j.rec_.overflowBase + 2 ^ 20 * coreIndex j core) (2 ^ 20)

/-- Spill the coldest SRAM entries of a core (R172). -/
def State.spill (s : State) (core : Nat) : State :=
  let c := s.core core
  let (cold, hot) := coldest c.deque
  let (gone, kept) := spillInto s core cold
  match (gone.map (·.job)).eraseDups.filterMap (s.areaFault core ·) with
  | s :: _ => s
  | [] => ((gone.map (·.job)).eraseDups.foldl (fun s j => s.areaWritten core j) s).modCore core fun c =>
      { c with deque := hot ++ kept, spilled := gone ++ c.spilled }

/-- Room for a line in SRAM, after a spill where every entry is taken; false where the push is refused. -/
def State.roomFor (s : State) (core : Nat) : State × Bool :=
  if s.sramLines core < 512 then (s, true)
  else
    let s := s.spill core
    (s, s.sramLines core < 512)

/-- Put an entry at the hot end. -/
def State.pushEntry (s : State) (core : Nat) (e : Entry) : State :=
  s.modCore core fun c => { c with deque := e :: c.deque }

/-! ### What a spawn records (R382 to R384) -/

/-- Child streams that a spawn of `n` children takes: whether it is accepted, the state, and the first stream. -/
inductive Verdict where
  | accept (s : State) (first : Nat)
  | refuse (s : State)
deriving DecidableEq, Repr

/-- Number the children of an accepted spawn. -/
def State.takeStreams (s : State) (j : Job) (n : Nat) : Nat × State :=
  ((s.job? j.id).elim 1 (·.nextStream), s.modJob j.id fun j => { j with nextStream := j.nextStream + n })

/-- Record an accepted or refused spawn, or take the verdict of the log. `room`: whether the push is accepted now. A
replayed spawn that the log accepts waits for room (notes/assumptions/28.md). -/
def State.spawnVerdict (s : State) (t : Task) (j : Job) (n : Nat) (room : Bool) : M Verdict :=
  if j.rec_.mode = 2 then
    match s.logPeek t j with
    | .ok (some (_, ⟨7, _, _, v⟩)) =>
      if room then
        match s.logged1 t ⟨7, 0, true, v⟩ with
        | .error e => .error e
        | .ok (s, r) => .ok (.accept s (r.val % 2 ^ 32))
      else .error .hold
    | _ =>
      match s.logged1 t ⟨8, 0, false, 0⟩ with
      | .error e => .error e
      | .ok (s, _) => .ok (.refuse s)
  else if room then
    let (first, s) := s.takeStreams j n
    match s.logged1 t ⟨7, 0, true, first % 2 ^ 32 + 2 ^ 32 * (n % 2 ^ 32)⟩ with
    | .error e => .error e
    | .ok (s, _) => .ok (.accept s first)
  else
    match s.logged1 t ⟨8, 0, false, 0⟩ with
    | .error e => .error e
    | .ok (s, _) => .ok (.refuse s)

/-- The instruction's predicate result, with the effect's end. -/
def State.putQ (s : State) (t : Task) (q : BitVec 3) (b : Bool) : State := s.putRegs t [⟨kq q.toNat, bit32 b⟩]

/-! ### Creating tasks -/

/-- The parts of a child that its spawner and its line decide (R163, R249). -/
def childTask (uid : Nat) (ident : BitVec 32) (t : Task) (l : Line) (cohort member : Nat) (stream : Nat) : Task :=
  { mkTask uid ident t.job l t.core cohort member (t.uid :: t.anc) (clFuture l) with stream := BitVec.ofNat 32 stream }

/-- A child of its own cohort, put into the list of tasks and bound to its future. A gated one has no identifier yet. -/
def State.newChild (s : State) (t : Task) (l : Line) (cohort member stream : Nat) (gated : Bool := false) : Nat × State :=
  let (u, s) := s.fresh
  let (ident, s) := if gated then (0, s) else s.newIdent t.core
  let s := { s with tasks := s.tasks ++ [childTask u ident t l cohort member stream] }
  (u, s.bindFuture t (clFuture l) (.task u))

/-- A cohort's record before its placement. DESIGN CHOICE: its identifier within the core, which s.cohort reads and to
which the spec gives no value, is its serial number modulo 2^29 (notes/assumptions/59.md). -/
def newCohort (uid size : Nat) (members : List Nat) : Cohort := ⟨uid, uid % 2 ^ 29, size, 0, 0, members⟩

/-- Place one accepted line of a SPAWN: a cohort of one, or a member of an open cohort, which its last member closes
(R173). DESIGN CHOICE: the group of a closed cohort stands at the hot end, above what other warps pushed since its head
(notes/assumptions/60.md). -/
def State.spawnLine (s : State) (t : Task) (l : Line) (stream : Nat) : State :=
  match t.opened with
  | none =>
    let (cu, s) := s.fresh
    let (u, s) := s.newChild t l cu 0 stream
    let s := { s with cohorts := s.cohorts ++ [newCohort cu (clSize l) [u]] }
    if clSize l = 1 then s.pushEntry t.core (.group t.job [u])
    else s.modTask t.uid fun t => { t with opened := some (cu, clSize l, [u]) }
  | some (cu, size, ms) =>
    let (u, s) := s.newChild t l cu ms.length stream
    let s := s.modCohort cu fun c => { c with members := ms ++ [u] }
    if ms.length + 1 = size then
      (s.modTask t.uid fun t => { t with opened := none }).pushEntry t.core (.group t.job (ms ++ [u]))
    else s.modTask t.uid fun t => { t with opened := some (cu, size, ms ++ [u]) }

end Sys2Proof.Machine
end

