-- ==== Sys2Proof/Machine/Handles.lean ====
section
/-! DEFINITION. Tiles as every class sees them: a task's names and the handle checks (13_tiles R287, R291), a tile's
geometry (R288, R289; 05_formats R111), and the bytes of the banks with their zero bits (R285, R286). -/

namespace Sys2Proof.Machine

/-! ### Names (R291) -/

/-- The state of a name; UNMAPPED where the task has none. -/
def Task.name (t : Task) (h : Nat) : Name := (alGet t.names h).getD .unmapped

def Core.rec? (c : Core) (i : Nat) : Option HRec := c.recs.find? (·.idx == i)

/-- The record a name maps, or its cause (R291, checks 1 and 2). -/
def State.nameRec (s : State) (t : Task) (h : Nat) : Except Cause HRec :=
  match t.name h with
  | .released => .error .handleReleased
  | .unmapped => .error .handleUnallocated
  | .mapped r => match (s.core t.core).rec? r with
    | some x => .ok x
    | none => .error .handleUnallocated

/-- The record of a handle whose bank the agent may access (R287, R291). -/
def State.handle (s : State) (t : Task) (h : Nat) (banks : List Nat) : Except Cause HRec :=
  match s.nameRec t h with
  | .error c => .error c
  | .ok r => if banks.contains r.desc.bank then .ok r else .error .handleBankMismatch

/-- A handle cause of an instruction without lanes. -/
def liftC {α : Type} (x : Except Cause α) : M α :=
  match x with
  | .ok a => .ok a
  | .error c => throwC c

/-! ### Geometry (R289, R111) -/

/-- Bits of one element in the formats of R111 that have a whole number of bits. -/
def fmtBits (f : Nat) : Nat :=
  match f with
  | 0x0 | 0x1 | 0x5 | 0x9 | 0xE => 8
  | 0x2 | 0x3 | 0xA => 6
  | 0x4 | 0x6 | 0xB | 0xC => 4
  | 0x7 | 0x8 => 16
  | 0xF => 2
  | _ => 8

/-- Bytes of `n` elements, `n` a multiple of the packing group or the tail of a row: 5 ternary elements to a byte. -/
def elemBytes (f n : Nat) : Nat := if f = 0xD then ceilDiv n 5 else ceilDiv (n * fmtBits f) 8

/-- Formats with a block scale. -/
def fmtScaled (f : Nat) : Bool := 0x9 ≤ f && f ≤ 0xF

/-- Block length of a descriptor's code. -/
def blockLen (code : Nat) : Nat := 16 * 2 ^ code

/-- Block lengths that a scaled format accepts. -/
def blockOk (f code : Nat) : Bool :=
  match f with
  | 0xB => code == 1
  | 0xC => code == 0
  | 0xF => code == 1 || code == 2
  | _ => code < 3

def roundUp (n k : Nat) : Nat := ceilDiv n k * k

/-- Bytes of a row's elements in a tile or a layout: 32 bits each in bank C or with W32. -/
def rowBytes (wide : Bool) (f cols : Nat) : Nat := if wide then 4 * cols else elemBytes f cols

/-- Row pitch P (R289). -/
def pitchOf (wide : Bool) (f cols : Nat) : Nat := roundUp (rowBytes wide f cols) 16

def Desc.wide (d : Desc) : Bool := d.bank == 2
def Desc.pitch (d : Desc) : Nat := pitchOf d.wide d.format d.cols
/-- Scale bytes of a row. -/
def Desc.rowScales (d : Desc) : Nat := ceilDiv d.cols (blockLen d.block)
def Desc.extent (d : Desc) : Nat := 1024 * d.size

/-! ### The banks (R285, R286) -/

def bankGranules : Nat → Nat
  | 2 => 512 | _ => 1024

def Core.bank (c : Core) (b : Nat) : Sparse 8 :=
  match b with
  | 0 => c.bankW
  | 1 => c.bankA
  | _ => c.bankC

def Core.setBank (c : Core) (b : Nat) (m : Sparse 8) : Core :=
  match b with
  | 0 => { c with bankW := m }
  | 1 => { c with bankA := m }
  | _ => { c with bankC := m }

/-- Key of a granule's zero bit. -/
def zeroKey (b g : Nat) : Nat := 4096 * b + g

/-- One byte of a bank: zero while its granule's zero bit is set. -/
def Core.bankByte (c : Core) (b a : Nat) : Byte :=
  if c.zeroed.contains (zeroKey b (a / 1024)) then 0 else spGet (c.bank b) a

/-- A write into a granule whose zero bit is set acts on a granule of zeros, and clears the bit. -/
def Core.clearZero (c : Core) (b g : Nat) : Core :=
  if c.zeroed.contains (zeroKey b g) then
    { c.setBank b (spErase (c.bank b) (1024 * g) (1024 * g + 1024)) with
      zeroed := c.zeroed.filter (· != zeroKey b g) }
  else c

/-- Granules that [a, a + n) touches. -/
def granulesOf (a n : Nat) : List Nat :=
  if n = 0 then [] else (List.range ((a + n - 1) / 1024 - a / 1024 + 1)).map (a / 1024 + ·)

/-- Store bytes in a bank. -/
def Core.bankPut (c : Core) (b a : Nat) (bs : List Byte) : Core :=
  let c := (granulesOf a bs.length).foldl (fun c g => c.clearZero b g) c
  c.setBank b (spPutBlock (c.bank b) a bs)

/-- A byte of a tile. -/
def Core.tileByte (c : Core) (r : HRec) (off : Nat) : Byte := c.bankByte r.desc.bank (1024 * r.base + off)

/-- `n` bytes of a tile. -/
def Core.tileBytes (c : Core) (r : HRec) (off : Nat) : Nat → List Byte
  | 0 => []
  | n + 1 => c.tileByte r off :: c.tileBytes r (off + 1) n

def Core.tilePut (c : Core) (r : HRec) (off : Nat) (bs : List Byte) : Core :=
  c.bankPut r.desc.bank (1024 * r.base + off) bs

/-- The scratchpad (R225). -/
def Core.scratchBytes (c : Core) (a n : Nat) : List Byte := spTake c.scratch a n

/-- Set the state of a scratchpad line. -/
def Core.setLine (c : Core) (k : Nat) (x : LineSt) : Core :=
  match x with
  | .absent => { c with lines := c.lines.filter (·.1 != k) }
  | .present | .pending => { c with lines := alSet c.lines k x }

/-- Lines of 128 bytes that [a, a + n) touches. -/
def scratchLines (a n : Nat) : List Nat := lines128 a n

def scratchSize : Nat := 524288

/-! ### Range locks (R227, R301) -/

/-- Rows [rlo, rhi) of columns [clo, chi) meet the tile bytes [lo, hi). -/
def rectMeets (pitch rlo rhi clo chi lo hi : Nat) : Bool :=
  (List.range (rhi - rlo)).any fun i =>
    max lo ((rlo + i) * pitch + clo) < min hi ((rlo + i) * pitch + chi)

/-- Two contiguous ranges, or rectangles, overlap. -/
def Span.meets (a b : Span) : Bool :=
  match a, b with
  | .global c lo hi, .global d lo' hi' => c == d && max lo lo' < min hi hi'
  | .scratch lo hi, .scratch lo' hi' => max lo lo' < min hi hi'
  | .tile r lo hi, .tile q lo' hi' => r == q && max lo lo' < min hi hi'
  | .tile r lo hi, .rect q p a b c d => r == q && rectMeets p a b c d lo hi
  | .rect q p a b c d, .tile r lo hi => r == q && rectMeets p a b c d lo hi
  | .rect r _ a b c d, .rect q _ a' b' c' d' => r == q && max a a' < min b b' && max c c' < min d d'
  | .global _ _ _, _ | .scratch _ _, _ | .tile _ _ _, _ | .rect _ _ _ _ _ _, _ | .bands _ _ _ _ _, _ => false

/-- The contiguous parts of a range. -/
def Span.parts (a : Span) : List Span :=
  match a with
  | .bands r p count used total => (List.range (ceilDiv total count)).map fun k =>
      .tile r (k * count * p) (min total (k * count + used) * p)
  | .global _ _ _ | .scratch _ _ | .tile _ _ _ | .rect _ _ _ _ _ _ => [a]

/-- Two ranges overlap. -/
def Span.hits (a b : Span) : Bool := a.parts.any fun x => b.parts.any (x.meets ·)

/-- A lane access meets the range-lock table (R227). A scratchpad destination is guarded by presence, not by a lock. -/
def Core.laneLocked (c : Core) (store : Bool) (sp : Span) : Bool :=
  c.locks.any fun l => l.span.hits sp && (match sp with
    | .scratch _ _ => store && !l.write
    | .global _ _ _ | .tile _ _ _ | .rect _ _ _ _ _ _ | .bands _ _ _ _ _ => store || l.write)

end Sys2Proof.Machine
end

