-- ==== Sys2Proof/Machine/Regions.lean ====
section
/-! DEFINITION. A task's declared regions: merged modes (11_consistency R241, R242), what each kind of access needs
(10_memory R224, 12_atomics R271), and the checks of a lane access to global memory (R222 to R224, R227, R228). -/

namespace Sys2Proof.Machine

/-- Order of strength (R242). -/
def Mode.strength : Mode → Nat
  | .read => 0 | .readStaged => 1 | .write => 2 | .readWrite => 3 | .writeForward => 4 | .reduce => 5 | .sync => 6

/-- Kinds of access to global memory. -/
inductive AccKind where
  | load | store | atomic | red | fold
deriving DecidableEq, Repr

/-- The mode permits the kind of access (R224, R271). -/
def AccKind.permits (k : AccKind) (m : Mode) : Bool :=
  match k, m with
  | .load, .reduce => false
  | .load, _ => true
  | .store, .write | .store, .writeForward | .store, .readWrite | .store, .sync => true
  | .store, .read | .store, .readStaged | .store, .reduce => false
  | .atomic, .write | .atomic, .writeForward | .atomic, .readWrite | .atomic, .sync => true
  | .atomic, .read | .atomic, .readStaged | .atomic, .reduce => false
  | .red, .write | .red, .writeForward | .red, .readWrite | .red, .sync | .red, .reduce => true
  | .red, .read | .red, .readStaged => false
  | .fold, .reduce => true
  | .fold, _ => false

/-- The access stores, for permission and for range locks (R227, R271). -/
def AccKind.stores : AccKind → Bool
  | .load => false
  | .store | .atomic | .red | .fold => true

/-- What the access needs of a leaf (R401); `window`: it may reach a device window (R394). A RED
needs W alone. -/
def AccKind.need (k : AccKind) (window : Bool) : Need :=
  match k with
  | .load => ⟨true, false, false, window⟩
  | .store | .red => ⟨false, true, false, window⟩
  | .atomic | .fold => ⟨true, true, false, window⟩

/-- The merged mode of a byte: the strongest of the modes that cover it. -/
def mergedMode (rs : List Region) (a : Nat) : Option Mode :=
  rs.foldl (fun m r =>
    if r.base ≤ a ∧ a < r.base + r.extent then
      match m with
      | none => some r.mode
      | some x => if x.strength < r.mode.strength then some r.mode else some x
    else m) none

/-- Places of [a, a + n) from which on the merged mode may differ. -/
def modeCuts (rs : List Region) (a n : Nat) : List Nat :=
  a :: (rs.flatMap fun r => [r.base, r.base + r.extent]).filter fun x => a < x && x < a + n

/-- Every byte of [a, a + n) lies in the merged regions with a mode that permits the access. -/
def Task.declares (t : Task) (k : AccKind) (a n : Nat) : Bool :=
  n == 0 || (modeCuts t.regions a n).all fun x => match mergedMode t.regions x with
    | some m => k.permits m
    | none => false

/-- Code of an access kind in XLAT_FAULT (R404). -/
def AccKind.xlatCode (k : AccKind) : Nat := if k.stores then 1 else 0

/-- Every cause of a lane's access of `n` bytes at `va` (R222, R224, R227, R228). -/
def State.globalBads (s : State) (t : Task) (k : AccKind) (window : Bool) (n va : Nat) : List Bad :=
  let ctx := s.ctxOf t
  (match s.xlate t.core ctx va (k.need (window && (n == 4 || n == 8))) with
   | .error e => [⟨e.cause, va, some (k.xlatCode, va, e)⟩]
   | .ok _ => []) ++
  (if t.trapOf.isNone && !t.declares k va n then [⟨.undeclaredAccess, va, none⟩] else []) ++
  (if (s.core t.core).laneLocked k.stores (.global ctx va (va + n)) then [⟨.rangeLocked, va, none⟩] else []) ++
  (if va % n != 0 then [⟨.misaligned, va, none⟩] else [])

/-- The lanes of an instruction with the access each makes. -/
abbrev Accesses := List (Nat × Nat)

/-- Raise what ranks first among the register causes and the access causes of every lane (R228). `addr` gives a lane's
address; a lane with a register cause has no address. -/
def checkLanes (u : Bool) (lanes : List Nat) (regs : Nat → List Bad) (bads : Nat → List Bad) : M Unit :=
  raiseLanes u (lanes.filterMap fun l =>
    (topBad (match regs l with
      | [] => bads l
      | rs => rs)).map fun b => (l, b))

/-- Device-physical address of a checked access. -/
def State.paOf (s : State) (t : Task) (va : Nat) : Nat :=
  match s.xlate t.core (s.ctxOf t) va ⟨false, false, false, true⟩ with
  | .ok pa => pa
  | .error _ => 0

end Sys2Proof.Machine
end

