-- ==== Sys2Proof/Machine/LoadStore.lean ====
section
/-! DEFINITION. Class 0x6 (10_memory R220 to R239): loads and stores of the three spaces, acquire and release forms,
fences, WAITV, presence bits and IFENCE. A load's value is fixed at issue and returned later; a global store enters the
store buffer at issue and performs at its acknowledgement (notes/assumptions/4.md). -/

namespace Sys2Proof.Machine

/-! ### Addresses (R100, R234) -/

/-- EA of R100. -/
def State.ea (s : State) (t : Task) (base idx : Opnd) (off : BitVec 32) (l : Nat) : Nat :=
  (s.src t base .n64 l + signExt 32 64 (s.src t idx .n32 l) + signExt 32 64 off.toNat) % 2 ^ 64

/-- The 32-bit sum of LDS and STS. -/
def State.scratchEa (s : State) (t : Task) (base idx : Opnd) (off : BitVec 32) (l : Nat) : Nat :=
  (s.src t base .n32 l + s.src t idx .n32 l + off.toNat) % 2 ^ 32

/-- Bytes of a type. -/
def tyBytes (ty : Ty) : Nat := ty.bits / 8

/-- Registers read for an address: a base of `k` registers and an index. -/
def State.addrKeys (s : State) (t : Task) (base idx : Opnd) (k l : Nat) : List RKey :=
  s.srcKeys t base k l ++ s.srcKeys t idx 1 l

/-! ### Loads of global memory -/

/-- One byte as a load of the task reads it: its own buffered stores, then the place the address lies in. `fresh`: the
owner's value, never a stale copy (R235). Host memory answers what the host holds there (notes/assumptions/22.md). -/
def State.loadByte (s : State) (t : Task) (fresh : Bool) (pa : Nat) : Byte :=
  match bufferedByte t.uid pa ((s.core t.core).drained ++ (s.core t.core).storeBuf) with
  | some b => b
  | none =>
    match s.placeOf pa with
    | .hbm => if fresh then s.memByte pa else s.coreByte (s.core t.core) pa
    | .mailbox => spGet s.mailbox (pa - mailboxBase)
    | .outbound => BitVec.ofNat 8 (Config.free s.tick (2 ^ 60 + pa))
    | .window | .unassigned => 0

/-- A WRITE or WRITE_FORWARD byte that the task has not itself stored (R244). -/
def Task.unstored (t : Task) (va pa : Nat) : Bool :=
  t.trapOf.isNone &&
  (match mergedMode t.regions va with
   | some .write | some .writeForward => true
   | _ => false) &&
  !t.wrote.any fun x => x.1 ≤ pa && pa < x.2

/-- A load of [va, va + n) sees such a byte of HBM. -/
def State.seesPrior (s : State) (t : Task) (va pa n : Nat) : Bool :=
  s.placeOf pa == .hbm && (List.range n).any fun i => t.unstored (va + i) (pa + i)

/-- The first moment that a load of bytes [pa, pa + n) may see: after their zeroing, what system software wrote before a
completed shootdown, and what earlier loads of the task saw (R262, R267, R268). -/
def State.priorFloor (s : State) (t : Task) (pa n : Nat) : Nat :=
  t.priors.foldl (fun m x => if x.1 < pa + n ∧ pa < x.2.1 then max m x.2.2 else m) (max t.priorFrom (s.zeroMoment pa n))

/-- The moment at which a lane's load sees such bytes: any from there on at or before the task's take, a free value
choosing (R244). -/
def State.priorMoment (s : State) (t : Task) (lane pa n : Nat) : Nat :=
  let lo := s.priorFloor t pa n
  if t.takenAt ≤ lo then lo else lo + Config.free s.tick (2 ^ 52 + lane) % (t.takenAt - lo + 1)

/-- What a lane's load has seen of such bytes: the range and its moment. -/
def State.sight (s : State) (t : Task) (fresh : Bool) (n : Nat) (lane va pa : Nat) : List (Nat × Nat × Nat) :=
  if s.seesPrior t va pa n then
    [(pa, pa + n, if fresh then s.hist.length else s.priorMoment t lane pa n)] else []

/-- `n` bytes as a lane's load reads them. -/
def State.loadNat (s : State) (t : Task) (fresh : Bool) (lane va pa n : Nat) : Nat :=
  natOf ((List.range n).map fun i =>
    if !fresh && t.unstored (va + i) (pa + i) && s.placeOf pa == .hbm then s.byteAt (s.priorMoment t lane pa n) (pa + i)
    else s.loadByte t fresh (pa + i))

/-- The core holds a current or valid copy of a byte's word. -/
def Core.holds (c : Core) (fresh : Bool) (pa : Nat) : Bool :=
  c.l1.any fun l => l.line == pa / 128 && (if fresh then l.owned else l.valid).getLsbD (pa % 128 / 4)

/-- Data that a load cannot return (R366, R408, R409, R413): the cause, for one byte. -/
def State.badData (s : State) (t : Task) (fresh : Bool) (pa : Nat) : Option Cause :=
  if (bufferedByte t.uid pa ((s.core t.core).drained ++ (s.core t.core).storeBuf)).isSome then none
  else match s.placeOf pa with
    | .hbm =>
      if (s.core t.core).holds fresh pa || !s.badLine (pa / 64) then none
      else if s.failsMac (pa / 64) then some .integrityFail
      else if s.poison.contains (pa / 64) then some .memoryUncorrectable else none
    | .outbound => if Config.free s.tick (2 ^ 61 + pa) % 2 = 1 then some .memoryUncorrectable else none
    | .mailbox | .window | .unassigned => none

/-- The first byte of an access that cannot be returned. -/
def State.badAccess (s : State) (t : Task) (fresh : Bool) (pa : Nat) : Nat → Option Cause
  | 0 => none
  | n + 1 => match s.badAccess t fresh pa n with
    | some c => some c
    | none => s.badData t fresh (pa + n)

/-- A copy that the core does not own may have left the L1 before a load; a free value decides (R244, R260). -/
def State.l1Settle (s : State) (core line : Nat) : State :=
  if (s.core core).l1.any (fun l => l.line == line && l.valid &&& ~~~l.owned != 0) &&
      Config.free s.tick (2 ^ 50 + line) % 2 == 1 then s.modCore core (·.dropCopy line)
  else s

/-- The lines of HBM that accesses touch. -/
def State.hbmLines (s : State) (pas : List Nat) : List Nat :=
  ((pas.filter fun pa => s.placeOf pa == .hbm).map (· / 128)).eraseDups

/-- Accesses by lane: virtual and device-physical address. -/
structure Placed where
  lane : Nat
  va : Nat
  pa : Nat
deriving DecidableEq, Repr

/-- Translate the checked accesses of lanes, with what translation leaves behind. -/
def State.placeAll (s : State) (t : Task) (lanes : List Nat) (addr : Nat → Nat) : State × List Placed :=
  let s := s.touchAll t.core (s.ctxOf t) (lanes.map addr)
  (s, lanes.map fun l => ⟨l, addr l, s.paOf t (addr l)⟩)

/-- What the lanes of a load have seen of such bytes. -/
def State.sights (s : State) (t : Task) (fresh : Bool) (n : Nat) (ps : List Placed) : List (Nat × Nat × Nat) :=
  ps.flatMap fun p => s.sight t fresh n p.lane p.va p.pa

/-- No later load of the task sees these bytes older (R262). -/
def State.noteSight (s : State) (u : Nat) (l : List (Nat × Nat × Nat)) : State :=
  s.modTask u fun t => { t with priors := t.priors ++ l }

/-- The loads of a warp instruction after its checks: the values, or the cause that is posted instead (R366). -/
def State.readAll (s : State) (t : Task) (fresh : Bool) (n : Nat) (ps : List Placed) :
    State × Except (Cause × Nat) (List (Nat × Nat)) :=
  let lines := s.hbmLines (ps.map (·.pa))
  let s1 := if fresh then s else lines.foldl (fun s l => s.l1Settle t.core l) s
  let s2 := if fresh then s1 else lines.foldl (fun s l => s.l1Fill t.core l none) s1
  match ps.findSome? fun p => (s1.badAccess t fresh p.pa n).map fun c => (c, p.va / 64 * 64) with
  | some x => (s2, .error x)
  | none =>
    (s2.noteSight t.uid (s1.sights t fresh n ps), .ok (ps.map fun p => (p.lane, s1.loadNat t fresh p.lane p.va p.pa n)))

/-- Check the global accesses of an instruction (R228), and wait for protected ranges (R408). -/
def State.checkGlobal (s : State) (t : Task) (h : Hdr) (k : AccKind) (window : Bool) (n : Nat)
    (ops : List (Opnd × Nat)) (lanes : List Nat) (addr : Nat → Nat) : M Unit :=
  if (workLanes h lanes).any fun l => (s.regBads t ops l).isEmpty && s.accessWaits t.core (s.ctxOf t) (addr l) then
    .error .hold
  else checkLanes h.u (workLanes h lanes) (s.regBads t ops) fun l => s.globalBads t k window n (addr l)

/-- The registers a load writes. -/
def State.loadWrites (s : State) (t : Task) (ty : Ty) (d : Opnd) (vals : List (Nat × Nat)) : List RegWrite :=
  vals.flatMap fun (l, v) => s.dst t d ty.regs l (holdAs ty v)

/-- The global load of LD and LDA. -/
def loadGlobal (s : State) (t : Task) (h : Hdr) (a : MemArgs) (lanes : List Nat) (fresh : Bool) : M Eff :=
  let n := tyBytes a.ty
  let addr := s.ea t a.base a.idx a.off
  match s.checkGlobal t h .load true n [(a.base, 2), (a.idx, 1), (a.d, a.ty.regs)] lanes addr with
  | .error e => .error e
  | .ok () =>
    let (s, ps) := s.placeAll t (workLanes h lanes) addr
    let (s, r) := s.readAll t fresh n ps
    let s := if fresh then s.acquire t.core none else s
    match r with
    | .ok vals => .ok ⟨s.pushReturn t (s.loadWrites t a.ty a.d vals) (barOf h.hint), none, true⟩
    | .error (c, va) => .ok ⟨(s.pushReturn t [] (barOf h.hint)).post t.uid c va, none, true⟩

/-- Registers a load reads. -/
def loadKeys (h : Hdr) (s : State) (a : MemArgs) (k : Nat) (t : Task) (lanes : List Nat) : List RKey :=
  (workLanes h lanes).flatMap fun l => s.addrKeys t a.base a.idx k l ++ dstReads a.d l

/-- LD (R234). -/
def execLd (h : Hdr) (a : MemArgs) (s : State) : Out' :=
  issue h s (loadKeys h s a 2) fun s t lanes => loadGlobal s t h a lanes false

/-- LDA (R235): the owner's value, then an acquire. -/
def execLda (h : Hdr) (a : MemArgs) (s : State) : Out' :=
  issue h s (loadKeys h s a 2) fun s t lanes => loadGlobal s t h a lanes true

/-! ### Stores of global memory (R229 to R231) -/

/-- Lay bytes over a store-buffer entry. -/
def StoreEnt.put (e : StoreEnt) (pa : Nat) (bs : List Byte) : StoreEnt :=
  let off := pa % 128
  let n := bs.length
  let dm : BitVec 1024 := BitVec.ofNat 1024 ((2 ^ (8 * n) - 1) * 2 ^ (8 * off))
  { e with mask := e.mask ||| BitVec.ofNat 128 ((2 ^ n - 1) * 2 ^ off),
           data := (e.data &&& ~~~dm) ||| BitVec.ofNat 1024 (natOf bs * 2 ^ (8 * off)) }

/-- The entries of one instruction's stores, one for each line, lanes in ascending order. -/
def storeEntries (owner : Nat) : List StoreEnt → List (Nat × List Byte) → List StoreEnt
  | es, [] => es
  | es, (pa, bs) :: ws =>
    let line := pa / 128
    if es.any (·.line == line) then storeEntries owner (mapFirst (·.line == line) (·.put pa bs) es) ws
    else storeEntries owner (es ++ [StoreEnt.put ⟨owner, line, 0, 0, []⟩ pa bs]) ws

/-- The buffer can take `n` entries of the task (R230). -/
def State.storeRoom (s : State) (t : Task) (n : Nat) : Bool :=
  let buf := (s.core t.core).storeBuf
  buf.length + n ≤ 128 && (buf.filter (·.owner == t.uid)).length + n ≤ 32 && t.unacked < 1023

/-- What the task's own stores leave known of it: the WRITE and WRITE_FORWARD bytes it has stored (R244), and the
lines of the latter (R245). `ws`: virtual and device-physical addresses with lengths. -/
def Task.stored (t : Task) (ws : List (Nat × Nat × Nat)) : Task :=
  let has (m : Mode) (w : Nat × Nat × Nat) : Bool :=
    (modeCuts t.regions w.1 w.2.2).any fun x => mergedMode t.regions x == some m
  let fwd := (ws.filter (has .writeForward)).flatMap fun (_, pa, n) => lines128 pa n
  let own := (ws.filter fun w => has .writeForward w || has .write w).map fun (_, pa, n) => (pa, pa + n)
  { t with forward := t.forward ++ fwd.eraseDups.filter fun l => !t.forward.contains l,
           wrote := t.wrote ++ own.eraseDups.filter fun x => !t.wrote.contains x }

/-- Accesses of `n` bytes as `Task.stored` takes them. -/
def storesOf (n : Nat) (ps : List Placed) : List (Nat × Nat × Nat) := ps.map fun p => (p.va, p.pa, n)

/-- The task has stored bytes. -/
def State.noteStores (s : State) (u : Nat) (ws : List (Nat × Nat × Nat)) : State :=
  s.modTask u fun t => if t.regions.isEmpty then t else t.stored ws

/-- The stores enter the buffer, with a token for the barrier they hold. -/
def State.bufferStores (s : State) (t : Task) (h : Hdr) (es : List StoreEnt) : State :=
  let (id, s) := s.fresh
  let tok := (barOf h.hint).map fun b => Token.mk id t.uid b es.length
  s.modCore t.core fun c =>
    { c with storeBuf := c.storeBuf ++ es.map fun e => { e with tokens := if tok.isSome then [id] else [] },
             tokens := c.tokens ++ tok.toList }

/-- The global store of ST and STRL. -/
def storeGlobal (s : State) (t : Task) (h : Hdr) (a : MemArgs) (lanes : List Nat) (release : Bool) : M Eff :=
  let n := tyBytes a.ty
  let addr := s.ea t a.base a.idx a.off
  match s.checkGlobal t h .store true n [(a.base, 2), (a.idx, 1), (a.d, a.ty.regs)] lanes addr with
  | .error e => .error e
  | .ok () =>
    if release && !s.released t then .error .hold
    else
      let (s1, ps) := s.placeAll t (workLanes h lanes) addr
      let es := storeEntries t.uid [] (ps.map fun p => (p.pa, bytesOf n (s.src t a.d a.ty p.lane)))
      if !s.storeRoom t es.length then .error .hold
      else .ok ⟨(s1.bufferStores t h es).noteStores t.uid (storesOf n ps), none, true⟩

/-- Registers a store reads. -/
def storeKeys (h : Hdr) (s : State) (a : MemArgs) (k : Nat) (t : Task) (lanes : List Nat) : List RKey :=
  (workLanes h lanes).flatMap fun l => s.addrKeys t a.base a.idx k l ++ s.srcKeys t a.d a.ty.regs l

/-- ST (R234). -/
def execSt (h : Hdr) (a : MemArgs) (s : State) : Out' :=
  issue h s (storeKeys h s a 2) fun s t lanes => storeGlobal s t h a lanes false

/-- STRL (R235): a release first. -/
def execStrl (h : Hdr) (a : MemArgs) (s : State) : Out' :=
  issue h s (storeKeys h s a 2) fun s t lanes => storeGlobal s t h a lanes true

/-! ### The scratchpad (R225, R226, R234, R378) -/

/-- Lane accesses of the scratchpad: a load needs its lines present; ATOMS counts as both. -/
inductive ScrKind where
  | load | store | both
deriving DecidableEq, Repr

/-- A watchpoint register matches an access (R378, R380). -/
def wpHits (r : BitVec 64) (k : ScrKind) (a n : Nat) : Bool :=
  let len := field r 32 20
  let base := field r 0 19
  len != 0 && a < base + len && base < a + n &&
  (match field r 60 2, k with
   | 1, .load | 1, .both | 2, .store | 2, .both | 3, _ => true
   | _, _ => false)

def State.watchHit (s : State) (t : Task) (k : ScrKind) (a n : Nat) : Bool :=
  !t.skipMatch && (List.range 4).any fun i => wpHits (spGet (s.core t.core).regs.wp i) k a n

/-- Every cause of a lane's access of `n` bytes at a scratchpad offset. -/
def State.scratchBads (s : State) (t : Task) (k : ScrKind) (n a : Nat) : List Bad :=
  let c := s.core t.core
  let out := scratchSize < a + n
  let absent := k != .store && (scratchLines a n).any fun x => c.lineSt x == .absent
  (if k != .load && c.laneLocked true (.scratch a (a + n)) then [⟨.rangeLocked, a, none⟩] else []) ++
  (if a % n != 0 then [⟨.misaligned, a, none⟩] else []) ++
  (if out || absent then [⟨.scratchBounds, a, none⟩] else []) ++
  (if s.watchHit t k a n then [⟨.watchpoint, a, none⟩] else [])

/-- Pending lines among those accesses touch. -/
def Core.pendingLines (c : Core) (ls : List Nat) : List Nat := ls.filter fun x => c.lineSt x == .pending

/-- Park on pending lines. -/
def parkLines (ls : List Nat) : M Unit := if ls.isEmpty then .ok () else .error (.park (.lines ls.eraseDups))

/-- The checks of a scratchpad instruction: causes (R228), then pending lines (R226). -/
def State.checkScratch (s : State) (t : Task) (h : Hdr) (k : ScrKind) (n : Nat) (ops : List (Opnd × Nat))
    (lanes : List Nat) (addr : Nat → Nat) : M Unit :=
  match checkLanes h.u (workLanes h lanes) (s.regBads t ops) fun l => s.scratchBads t k n (addr l) with
  | .error e => .error e
  | .ok () => parkLines ((s.core t.core).pendingLines ((workLanes h lanes).flatMap fun l => scratchLines (addr l) n))

/-- LDS (R234). -/
def execLds (h : Hdr) (a : MemArgs) (s : State) : Out' :=
  issue h s (loadKeys h s a 1) fun s t lanes =>
    let n := tyBytes a.ty
    let addr := s.scratchEa t a.base a.idx a.off
    match s.checkScratch t h .load n [(a.base, 1), (a.idx, 1), (a.d, a.ty.regs)] lanes addr with
    | .error e => .error e
    | .ok () =>
      let vals := (workLanes h lanes).map fun l => (l, natOf ((s.core t.core).scratchBytes (addr l) n))
      .ok ⟨s.pushReturn t (s.loadWrites t a.ty a.d vals) (barOf h.hint), none, true⟩

/-- Store bytes in the scratchpad by lanes: an absent line becomes present (R225). -/
def Core.scratchPut (c : Core) (a : Nat) (bs : List Byte) : Core :=
  (scratchLines a bs.length).foldl (fun c x => if c.lineSt x = .absent then c.setLine x .present else c)
    { c with scratch := spPutBlock c.scratch a bs }

/-- STS (R234): it performs in the core's storage, and its barrier falls with it. -/
def execSts (h : Hdr) (a : MemArgs) (s : State) : Out' :=
  issue h s (storeKeys h s a 1) fun s t lanes =>
    let n := tyBytes a.ty
    let addr := s.scratchEa t a.base a.idx a.off
    match s.checkScratch t h .store n [(a.base, 1), (a.idx, 1), (a.d, a.ty.regs)] lanes addr with
    | .error e => .error e
    | .ok () =>
      let ws := (workLanes h lanes).map fun l => (addr l, bytesOf n (s.src t a.d a.ty l))
      .ok (eff (s.modCore t.core fun c => ws.foldl (fun c (x, bs) => c.scratchPut x bs) c))

/-! ### Tiles (R234) -/

/-- The offset within the tile. -/
def State.tileEa (s : State) (t : Task) (idx : Opnd) (off : BitVec 32) (l : Nat) : Nat :=
  (s.src t idx .n32 l + off.toNat) % 2 ^ 32

/-- Every cause of a lane's access of `n` bytes of a tile: its handle first, in banks A and C (R287). -/
def State.tileBads (s : State) (t : Task) (hd : Nat) (store : Bool) (n a : Nat) : List Bad :=
  match s.handle t hd [1, 2] with
  | .error c => [⟨c, a, none⟩]
  | .ok r =>
    (if (s.core t.core).laneLocked store (.tile r.idx a (a + n)) then [⟨.rangeLocked, a, none⟩] else []) ++
    (if a % n != 0 then [⟨.misaligned, a, none⟩] else []) ++
    (if r.desc.extent < a + n then [⟨.scratchBounds, a, none⟩] else [])

/-- The checks of LDT and STT, and the record. -/
def State.checkTile (s : State) (t : Task) (h : Hdr) (a : TileArgs) (store : Bool) (lanes : List Nat) : M HRec :=
  match checkLanes h.u (workLanes h lanes) (s.regBads t [(a.idx, 1), (a.d, a.ty.regs)]) fun l =>
      s.tileBads t a.h.toNat store (tyBytes a.ty) (s.tileEa t a.idx a.off l) with
  | .error e => .error e
  | .ok () => liftC (s.handle t a.h.toNat [1, 2])

/-- LDT (R234). -/
def execLdt (h : Hdr) (a : TileArgs) (s : State) : Out' :=
  issue h s (fun t lanes => (workLanes h lanes).flatMap fun l => s.srcKeys t a.idx 1 l ++ dstReads a.d l)
    fun s t lanes =>
      match s.checkTile t h a false lanes with
      | .error e => .error e
      | .ok r =>
        let vals := (workLanes h lanes).map fun l =>
          (l, natOf ((s.core t.core).tileBytes r (s.tileEa t a.idx a.off l) (tyBytes a.ty)))
        .ok ⟨s.pushReturn t (s.loadWrites t a.ty a.d vals) (barOf h.hint) (some r.idx), none, true⟩

/-- STT (R234). -/
def execStt (h : Hdr) (a : TileArgs) (s : State) : Out' :=
  issue h s (fun t lanes => (workLanes h lanes).flatMap fun l => s.srcKeys t a.idx 1 l ++ s.srcKeys t a.d a.ty.regs l)
    fun s t lanes =>
      match s.checkTile t h a true lanes with
      | .error e => .error e
      | .ok r =>
        let ws := (workLanes h lanes).map fun l =>
          (s.tileEa t a.idx a.off l, bytesOf (tyBytes a.ty) (s.src t a.d a.ty l))
        .ok (eff (s.modCore t.core fun c => ws.foldl (fun c (x, bs) => c.tilePut r x bs) c))

/-! ### FENCE (R236) -/

/-- Earlier loads of the task have returned. -/
def State.loadsBack (s : State) (t : Task) : Bool := ((s.core t.core).returnsOf t.uid).isEmpty

/-- FENCE.ACQ. -/
def execFenceAcq (h : Hdr) (s : State) : Out' :=
  issue h s (fun _ _ => []) fun s t _ =>
    if s.loadsBack t then .ok (eff (s.acquire t.core none)) else .error .hold

/-- FENCE.REL. -/
def execFenceRel (h : Hdr) (s : State) : Out' :=
  issue h s (fun _ _ => []) fun s t _ => if s.released t then .ok (eff s) else .error .hold

/-- FENCE.ACQREL: REL, then ACQ. -/
def execFenceAcqrel (h : Hdr) (s : State) : Out' :=
  issue h s (fun _ _ => []) fun s t _ =>
    if s.released t && s.loadsBack t then .ok (eff (s.acquire t.core none)) else .error .hold

/-! ### WAITV (R237) -/

/-- A comparison of natural values. -/
def cmpNat (c : Cmp) (a b : Nat) : Bool :=
  match c with
  | .eq => a == b | .ne => a != b | .lt => decide (a < b) | .le => decide (a ≤ b) | .gt => decide (b < a)
  | .ge => decide (b ≤ a)

def waitvEa (s : State) (t : Task) (a : WaitvArgs) : Nat :=
  (s.src t (.g a.base) .n64 0 + signExt 32 64 a.off.toNat) % 2 ^ 64

def waitvTy (a : WaitvArgs) : Ty := if a.wide then .n64 else .n32

/-- Forget the task's watch. -/
def State.unwatch (s : State) (u : Nat) : State := { s with watches := s.watches.filter (·.task != u) }

/-- WAITV: read and watch in one step; complete with an acquire when the comparison holds. DESIGN CHOICE: where memory
cannot deliver the word the cause is posted and WAITV completes without a result, and in replay it still waits for the
live word (notes/assumptions/74.md). -/
def execWaitv (h : Hdr) (a : WaitvArgs) (s : State) : Out' :=
  issue h s (fun t _ => gKeysOf s t a) fun s t lanes =>
    let ty := waitvTy a
    let n := tyBytes ty
    let va := waitvEa s t a
    match s.checkGlobal t h .load false n [(a.c, ty.regs), (a.d, ty.regs)] lanes fun _ => va with
    | .error e => .error e
    | .ok () =>
      let c := s.src t a.c ty 0
      let (s, ps) := s.placeAll t [0] fun _ => va
      let s := s.unwatch t.uid
      match (s.readAll t true n ps).2, ps with
      | .error (x, at_), _ => .ok (eff (s.post t.uid x at_))
      | .ok [(_, v)], [p] =>
        if cmpNat a.cmp v c then
          match s.logged1 t ⟨6, 0, false, v⟩ with
          | .error e => .error e
          | .ok (s, r) =>
            let s := s.noteSight t.uid (s.sights t true n ps)
            .ok (eff ((s.putRegs t (s.dst t a.d ty.regs 0 r.val)).acquire t.core none))
        else .error (.parkIn { s with watches := s.watches ++ [Watch.mk t.uid p.pa n false] } .waitv)
      | .ok _, _ => .error .hold
where
  gKeysOf (s : State) (t : Task) (a : WaitvArgs) : List RKey :=
    [kg a.base.toNat, kg (a.base.toNat + 1)] ++ s.srcKeys t a.c (waitvTy a).regs 0

/-! ### PRES (R238) -/

/-- The lines PRES names, after its checks; `wait`: an absent line could never be filled (R226). -/
def State.presLines (s : State) (t : Task) (a : Opnd) (n : BitVec 5) (wait : Bool) : M (List Nat) :=
  let off := s.src t a .n32 0
  let count := n.toNat + 1
  let stop (c : Cause) : M (List Nat) := .error (.raise ⟨c, off, 0, 0, none⟩)
  if off % 128 ≠ 0 then stop .misaligned
  else if scratchSize < off + 128 * count then stop .scratchBounds
  else
    let ls := (List.range count).map (off / 128 + ·)
    if wait && ls.any fun x => (s.core t.core).lineSt x == .absent then stop .scratchBounds else .ok ls

/-- PRES.TEST. -/
def execPresTest (h : Hdr) (a : PresTestArgs) (s : State) : Out' :=
  issue h s (fun t _ => s.srcKeys t a.a 1 0) fun s t _ =>
    match s.presLines t a.a a.n false with
    | .error e => .error e
    | .ok ls =>
      let bits := ls.map fun x => (s.core t.core).lineSt x == .present
      let v := bits.foldr (fun b acc => b.toNat + 2 * acc) 0
      .ok (eff (s.putRegs t (s.dst t a.d 1 0 v)))

/-- Set the state of lines that are not pending. -/
def Core.markLines (c : Core) (x : LineSt) (ls : List Nat) : Core :=
  ls.foldl (fun c k => if c.lineSt k = .pending then c else c.setLine k x) c

/-- PRES.SET. -/
def execPresSet (h : Hdr) (a : PresArgs) (s : State) : Out' :=
  issue h s (fun t _ => s.srcKeys t a.a 1 0) fun s t _ =>
    match s.presLines t a.a a.n false with
    | .error e => .error e
    | .ok ls => .ok (eff (s.modCore t.core (·.markLines .present ls)))

/-- PRES.CLR. -/
def execPresClr (h : Hdr) (a : PresArgs) (s : State) : Out' :=
  issue h s (fun t _ => s.srcKeys t a.a 1 0) fun s t _ =>
    match s.presLines t a.a a.n false with
    | .error e => .error e
    | .ok ls => .ok (eff (s.modCore t.core (·.markLines .absent ls)))

/-- PRES.WAIT. -/
def execPresWait (h : Hdr) (a : PresArgs) (s : State) : Out' :=
  issue h s (fun t _ => s.srcKeys t a.a 1 0) fun s t _ =>
    match s.presLines t a.a a.n true with
    | .error e => .error e
    | .ok ls => match parkLines ((s.core t.core).pendingLines ls) with
      | .error e => .error e
      | .ok () => .ok (eff s)

/-! ### IFENCE (R239) -/

/-- The core holds no code byte of a job from before a moment. -/
def Core.dropCode (c : Core) (job moment : Nat) : Core := { c with fences := alSet c.fences job moment }

/-- IFENCE: waits as FENCE.REL does. -/
def execIfence (h : Hdr) (s : State) : Out' :=
  issue h s (fun _ _ => []) fun s t _ =>
    if s.released t then .ok (eff (s.modCore t.core (·.dropCode t.job.toNat s.hist.length))) else .error .hold

end Sys2Proof.Machine
end

