-- ==== Sys2Proof/Machine/Task.lean ====
section
/-! DEFINITION. Class 0x5, task part (08_tasks R161 to R186): spawning, futures, ending, the closure line and the
deque's occupancy, convergence registers. Each instruction completes before the warp's next one issues (R176). -/

namespace Sys2Proof.Machine

/-- The job of the issuing task, which every placed task has. -/
def withJob (s : State) (t : Task) (f : Job → M Eff) : M Eff :=
  match s.job? t.job with
  | none => .error .hold
  | some j => f j

/-- The device killed the task while it worked on the instruction's behalf. -/
def State.gone (s : State) (u : Nat) : Bool :=
  match s.task? u with
  | none => true
  | some t => t.killedBy.isSome

/-! ### SPAWN, SPAWNR, SPAWNG (R177 to R180) -/

/-- The line in g(A) to g(A + 15). -/
def gLine (s : State) (t : Task) (base : Nat) : Line := (List.range 16).map fun i => s.readKey t (kg (base + i))

def gKeys (base n : Nat) : List RKey := (List.range n).map fun i => kg (base + i)

/-- Check a line, then push it as SPAWN does. -/
def spawnWith (s : State) (t : Task) (q : BitVec 3) (line : M Line) : M Eff :=
  withJob s t fun j =>
    match line with
    | .error e => .error e
    | .ok l =>
      match s.checkLine t j l .member with
      | .error e => .error e
      | .ok () =>
        if !s.released t then .error .hold
        else
          let (s, room) := s.roomFor t.core
          if s.gone t.uid then .error (.done s)
          else match s.spawnVerdict t j 1 room with
            | .error e => .error e
            | .ok (.refuse s) => .ok (eff (s.putQ t q false))
            | .ok (.accept s first) => .ok (eff ((s.spawnLine t l first).putQ t q true))

/-- SPAWN, register form (R177). -/
def execSpawn (h : Hdr) (a : SpawnArgs) (s : State) : Out' :=
  issue h s (fun _ _ => gKeys a.base.toNat 16) fun s t _ => spawnWith s t a.q (.ok (gLine s t a.base.toNat))

/-- Closure `n` of the job's closure segment; a fault is precise, and latched with KIND 3 (R189). -/
def State.template (s : State) (t : Task) (j : Job) (n : Nat) : M Line :=
  if j.rec_.closureSize / 64 ≤ n then throwC .spawnBadClosure
  else match s.vread t.core j.rec_.ctx (j.rec_.closureBase + 64 * n) 64 needR with
    | .error (va, e) => .error (.raise ⟨e.cause, va, 0, 0, some (3, va, e)⟩)
    | .ok bs => .ok ((List.range 16).map fun i => BitVec.ofNat 32 (natOf ((bs.drop (4 * i)).take 4)))

/-- Reading a closure leaves its translation behind, and claims a first-use page (R402, R405). -/
def State.touchTemplate (s : State) (t : Task) (j : Job) (n : Nat) : State :=
  if j.rec_.closureSize / 64 ≤ n then s else s.touchSpan t.core j.rec_.ctx (j.rec_.closureBase + 64 * n) 64

/-- A template's line with the words the registers give. -/
def mergeLine (l g : Line) : Line :=
  (List.range 16).map fun i =>
    let own := l[i]?.getD 0
    if i = 1 then g[0]?.getD 0
    else if i = 2 then g[1]?.getD 0
    else if 5 ≤ i then g[i - 3]?.getD 0
    else own

/-- SPAWN, template form (R177). -/
def execSpawnT (h : Hdr) (a : SpawnNArgs) (s : State) : Out' :=
  issue h s (fun t _ => gKeys a.base.toNat 13 ++ s.srcKeys t a.n 1 0) fun s t _ =>
    let line := match s.job? t.job with
      | none => throwC .spawnBadClosure
      | some j => match s.template t j (s.src t a.n .n32 0) with
        | .error e => .error e
        | .ok l => .ok (mergeLine l ((List.range 13).map fun i => s.readKey t (kg (a.base.toNat + i))))
    let s := match s.job? t.job with
      | none => s
      | some j => s.touchTemplate t j (s.src t a.n .n32 0)
    spawnWith s t a.q line

/-- The range of a SPAWNR: its future bound, its indices one deque entry (R178, R179). -/
def State.spawnRange (s : State) (t : Task) (l : Line) (n first : Nat) : State :=
  let (ru, s) := s.fresh
  let r : Range := ⟨ru, t.uid, t.job, l, clFuture l, n, 0, none, BitVec.ofNat 32 first⟩
  let s := { s with ranges := s.ranges ++ [r] }
  let s := s.bindFuture t (clFuture l) (.range ru)
  if n = 0 then s.resolve 0 (clFuture l) (.ready 0) else s.pushEntry t.core (.range t.job ru 0 n)

/-- R151: an engine-issuing instruction needs ACTIVE = LIVE. -/
def undiverged (t : Task) : M Unit :=
  if t.warp.active = t.warp.live then .ok ()
  else .error (.raise ⟨.divergedEngineIssue, 0, t.warp.live &&& ~~~t.warp.active, 0, none⟩)

/-- SPAWNR (R178, R179). -/
def execSpawnr (h : Hdr) (a : SpawnNArgs) (s : State) : Out' :=
  issue h s (fun t _ => gKeys a.base.toNat 16 ++ s.srcKeys t a.n 1 0) fun s t _ =>
    match undiverged t with
    | .error e => .error e
    | .ok () =>
      withJob s t fun j =>
        let l := gLine s t a.base.toNat
        let n := s.src t a.n .n32 0
        match s.checkLine t j l .single with
        | .error e => .error e
        | .ok () =>
          if !s.released t then .error .hold
          else
            let (s, room) := if n = 0 then (s, true) else s.roomFor t.core
            if s.gone t.uid then .error (.done s)
            else match s.spawnVerdict t j n room with
              | .error e => .error e
              | .ok (.refuse s) => .ok (eff (s.putQ t a.q false))
              | .ok (.accept s first) => .ok (eff ((s.spawnRange t l n first).putQ t a.q true))

/-- Register a gated task; a gate that is resolved already resolves the registration at once (R180). -/
def State.spawnGate (s : State) (t : Task) (l : Line) (a : SpawngArgs) (cell : Cell) (comparand : BitVec 32)
    (first : Nat) : State :=
  let (cu, s) := s.fresh
  let (u, s) := s.newChild t l cu 0 first true
  let s := { s with cohorts := s.cohorts ++ [newCohort cu 1 [u]] }
  let g : Gate := ⟨u, t.core, handleOf cell, a.cmp, a.signed, comparand, a.consume⟩
  let now (r : Resolve) : State :=
    let (s, more) := s.gateMeets g r
    let s := more.foldl (fun s (h, r) => s.resolve u h r) s
    if a.consume then s.cellFree cell.key else s
  match cell.st with
  | .ready => now (.ready cell.val)
  | .broken => now (.broken cell.cause)
  | .pending | .free =>
    let s := s.areaWritten t.core t.job
    { s with gates := s.gates ++ [g] }

/-- SPAWNG (R180). DESIGN CHOICE: the closure line is checked before the gate's handle (notes/assumptions/60.md). -/
def execSpawng (h : Hdr) (a : SpawngArgs) (s : State) : Out' :=
  issue h s (fun _ _ => gKeys a.base.toNat 16 ++ gKeys a.gate.toNat 2) fun s t _ =>
    withJob s t fun j =>
      let l := gLine s t a.base.toNat
      match s.checkLine t j l .single with
      | .error e => .error e
      | .ok () =>
        match s.validCell t.job (s.readKey t (kg a.gate.toNat)) with
        | none => throwC .futureInvalid
        | some cell =>
          if !s.released t then .error .hold
          else
            match s.areaFault t.core t.job with
            | some s => .error (.done s)
            | none =>
              match s.spawnVerdict t j 1 (s.areaLines t.core t.job < areaSize) with
              | .error e => .error e
              | .ok (.refuse s) => .ok (eff (s.putQ t a.q false))
              | .ok (.accept s first) =>
                .ok (eff ((s.spawnGate t l a cell (s.readKey t (kg (a.gate.toNat + 1))) first).putQ t a.q true))

/-! ### JOIN and POLL (R181) -/

/-- A handle that names the task's own result future; for a range child, the range's. -/
def ownFuture (t : Task) (hd : BitVec 32) : Bool :=
  hd != 0 && (hd == t.fut || (t.range.isSome && hd == clFuture t.line))

/-- The cell a JOIN or POLL names, or FUTURE_INVALID. -/
def State.joinCell (s : State) (t : Task) (hd : BitVec 32) : M Cell :=
  if ownFuture t hd then throwC .futureInvalid
  else match s.validCell t.job hd with
    | none => throwC .futureInvalid
    | some c => .ok c

/-- A BROKEN future met by its joiner: the cause goes to s.futcause, and FUTURE_BROKEN is raised (R170, R181). -/
def State.broken (s : State) (t : Task) (c : Cell) : Halt :=
  .raiseIn ((s.cellRead c.key t.uid).modTask t.uid fun t => { t with sFut := c.cause.setWidth 32 }) (raise0 .futureBroken)

/-- The pair g(D), g(D + 1); nowhere for 1023. -/
def State.putPair (s : State) (t : Task) (d : Opnd) (v : Nat) : State := s.putRegs t (s.dst t d 2 0 v)

/-- JOIN (R181). -/
def execJoin (h : Hdr) (a : JoinArgs) (s : State) : Out' :=
  issue h s (fun t _ => s.srcKeys t a.a 1 0) fun s t _ =>
    match s.joinCell t (BitVec.ofNat 32 (s.src t a.a .n32 0)) with
    | .error e => .error e
    | .ok c =>
      match c.st with
      | .pending | .free => .error (.park (.join (handleOf c)))
      | .broken => .error (s.broken t c)
      | .ready =>
        let s := s.acquire t.core (some c.from_)
        let s := s.putPair t a.d c.val.toNat
        let s := s.cellRead c.key t.uid
        .ok (eff (if a.keep then s else s.cellFree c.key))

/-- POLL (R181). In replay its result is the record's, be the cell BROKEN (R384; notes/assumptions/67.md). -/
def execPoll (h : Hdr) (a : PollArgs) (s : State) : Out' :=
  issue h s (fun t _ => s.srcKeys t a.a 1 0) fun s t _ =>
    match s.joinCell t (BitVec.ofNat 32 (s.src t a.a .n32 0)) with
    | .error e => .error e
    | .ok c =>
      if c.st = .broken && (s.replayed t 4).isNone then .error (s.broken t c)
      else
        match s.logged1 t ⟨4, 0, c.st == .ready, if c.st = .ready then c.val.toNat else 0⟩ with
        | .error e => .error e
        | .ok (s, r) =>
          if r.flag then
            let s := s.acquire t.core (some c.from_)
            let s := s.putPair t a.d r.val
            .ok (eff ((s.putQ t a.q true).cellRead c.key t.uid))
          else .ok (eff (s.putQ t a.q false))

/-! ### FUTNEW and FULFIL (R182, R183) -/

/-- Cells of a die that can be allocated: slots 1 to 131 071. -/
def cellSlots : Nat := 131071

/-- A free slot of a die's table, from the device's choice on (R182). -/
def State.freeCell (s : State) (die : Nat) : Option Nat × State :=
  let (p, s) := s.pick cellSlots
  let free (k : Nat) : Bool := match s.cell? k with
    | none => true
    | some c => c.st == .free
  let cand (i : Nat) : Nat := die * 2 ^ 17 + 1 + (p + i) % cellSlots
  (((List.range (min cellSlots (s.cells.length + 1))).find? fun i => free (cand i)).map cand, s)

/-- Allocate a cell for a job: PENDING, unbound. The handle carries the cell's generation. -/
def State.allocCell (s : State) (job : BitVec 32) (k : Nat) (gen : BitVec 12) : BitVec 32 × State :=
  let c : Cell := ⟨k, .pending, gen, job, .none, none, 0, 0, false, [], 0⟩
  (handleOf c, s.setCell c)

/-- FUTNEW.NEW (R182). In a replay the cell is the one the log names, where it is free (notes/assumptions/28.md). -/
def execFutnewNew (h : Hdr) (a : FutnewArgs) (s : State) : Out' :=
  issue h s (fun _ _ => []) fun s t _ =>
    let replay := ((s.job? t.job).map (·.rec_.mode)) == some 2
    let done (s : State) (hd : BitVec 32) (ok : Bool) : M Eff :=
      .ok (eff ((s.putRegs t (s.dst t a.d 1 0 hd.toNat)).putQ t a.q ok))
    if replay then
      match s.logged1 t ⟨9, 0, false, 0⟩ with
      | .error e => .error e
      | .ok (s, r) =>
        let hd := BitVec.ofNat 32 r.val
        let k := cellKey hd
        let free := match s.cell? k with
          | none => true
          | some c => c.st == .free
        let s := if r.flag && free then (s.allocCell t.job k (BitVec.ofNat 12 r.val)).2 else s
        done s hd r.flag
    else
      let (k, s) := s.freeCell (dieOf t.core)
      let alloc (s : State) : BitVec 32 × State := match k with
        | none => (0, s)
        | some k => s.allocCell t.job k (match s.cell? k with | some c => c.gen | none => 0)
      -- the outcome is recorded before it is made: a full log leaves no cell behind (R6, R365)
      match s.logged1 t ⟨9, 0, k.isSome, (alloc s).1.toNat⟩ with
      | .error e => .error e
      | .ok (s, _) => done (alloc s).2 (alloc s).1 k.isSome

/-- A gated spawn whose gate was freed: dropped, its result future BROKEN with 0xA1 (R180). -/
def State.dropGates (s : State) (k : Nat) : State :=
  let gs := s.gates.filter fun g => cellKey g.cell == k
  let s := { s with gates := s.gates.filter fun g => cellKey g.cell != k }
  gs.foldl (fun s g => match s.task? g.task with
    | none => s
    | some t => (s.modTask g.task Task.finish).resolve g.task t.fut (.broken 0xA1)) s

/-- FUTNEW.FREE (R166 to R168, R182). -/
def execFutnewFree (h : Hdr) (a : SrcArgs) (s : State) : Out' :=
  issue h s (fun t _ => s.srcKeys t a.a 1 0) fun s t _ =>
    let hd := BitVec.ofNat 32 (s.src t a.a .n32 0)
    if hd = 0 then .ok (eff s)
    else match s.validCell t.job hd with
      | none => throwC .futureInvalid
      | some c =>
        match c.st, c.bound with
        | .pending, .none =>
          -- parked JOINs issue again and find the handle invalid
          let s := s.setCell c.freed
          let s := s.wakeAll fun _ k => match k with
            | .join x => x == hd
            | _ => false
          .ok (eff (s.dropGates c.key))
        | .pending, _ => throwC .futureInvalid
        | _, _ => .ok (eff (s.cellFree c.key))

/-- What FULFIL may do to a cell: latch for its producer, or resolve an unbound one (R183). -/
def State.fulfil (s : State) (t : Task) (hd : BitVec 32) (v : Nat) : M State :=
  match s.validCell t.job hd with
  | none => throwC .futureInvalid
  | some c =>
    if c.st ≠ .pending then throwC .futureInvalid
    else match c.bound with
      | .none =>
        if !s.released t then .error .hold
        else .ok (s.resolve t.uid hd (.ready (BitVec.ofNat 64 v)))
      | .task u =>
        if u = t.uid ∧ c.latched.isNone then .ok (s.setCell { c with latched := some (BitVec.ofNat 64 v) })
        else throwC .futureInvalid
      | .range _ | .gate _ => throwC .futureInvalid

/-- FULFIL (R183). -/
def execFulfil (h : Hdr) (a : FulfilArgs) (s : State) : Out' :=
  issue h s (fun t _ => s.srcKeys t a.a 1 0 ++ s.srcKeys t a.b 2 0) fun s t _ =>
    match s.fulfil t (BitVec.ofNat 32 (s.src t a.a .n32 0)) (s.src t a.b .n64 0) with
    | .error e => .error e
    | .ok s => .ok (eff s)

/-! ### TEND (R184) -/

/-- TEND: the task ends; there is no next instruction. -/
def execTend (h : Hdr) (s : State) : Out' :=
  issue h s (fun _ _ => []) fun s t _ =>
    match endWarp s t with
    | .error e => .error e
    | .ok s => .error (.done s)

/-- TEND.v: the result future first, as FULFIL; a task without one discards the value, one that has handed its own over
raises FUTURE_INVALID (R174). -/
def execTendV (h : Hdr) (a : SrcArgs) (s : State) : Out' :=
  issue h s (fun t _ => s.srcKeys t a.a 2 0) fun s t _ =>
    let first : M State :=
      if t.range.isSome && clFuture t.line != 0 then throwC .futureInvalid
      else if t.fut = 0 then (if t.handed then throwC .futureInvalid else .ok s)
      else s.fulfil t t.fut (s.src t a.a .n64 0)
    match first with
    | .error e => .error e
    | .ok s =>
      match endWarp s t with
      | .error e => .error e
      | .ok s => .error (.done s)

/-! ### TSELF, DEQD, CVSET (R185, R186) -/

/-- TSELF (R185). -/
def execTself (h : Hdr) (a : TselfArgs) (s : State) : Out' :=
  issue h s (fun _ _ => []) fun s t _ =>
    .ok (eff (s.putRegs t (s.dst t a.d 1 0 (lineWord t.line a.w.toNat))))

/-- The deque occupancy of a job on a core: lines in SRAM, and spilled lines. -/
def State.occupancy (s : State) (core : Nat) (job : BitVec 32) : Nat :=
  let mine (l : List Entry) : Nat := linesIn (l.filter (·.job == job))
  mine (s.core core).deque + s.openLines core (·.job == job) + 2 ^ 16 * mine (s.core core).spilled

/-- DEQD (R185). -/
def execDeqd (h : Hdr) (a : DstArgs) (s : State) : Out' :=
  issue h s (fun _ _ => []) fun s t _ =>
    match s.logged1 t ⟨5, 0, false, s.occupancy t.core t.job⟩ with
    | .error e => .error e
    | .ok (s, r) => .ok (eff (s.putRegs t (s.dst t a.d 1 0 r.val)))

/-- A convergence register in use. -/
def Core.cv? (c : Core) (i : Nat) : Option CReg := c.cvs.find? (·.idx == i)

/-- Put a convergence register. -/
def Core.setCv (c : Core) (r : CReg) : Core := { c with cvs := r :: c.cvs.filter (·.idx != r.idx) }

/-- CVSET (R186). -/
def execCvset (h : Hdr) (a : CvsetArgs) (s : State) : Out' :=
  issue h s (fun _ _ => []) fun s t _ =>
    let busy := match (s.core t.core).cv? a.c.toNat with
      | none => false
      | some r => r.owner != t.cohort || !r.signers.isEmpty
    let n := a.n.toNat + 1
    if busy || (s.liveMembers t.cohort).length < n then throwC .cvMismatch
    else .ok (eff (s.modCore t.core (·.setCv ⟨a.c.toNat, n, t.cohort, none, [], [], none⟩)))

end Sys2Proof.Machine
end

