-- ==== Sys2Proof/Machine/Atomic.lean ====
section
/-! DEFINITION. Class 0x7 (12_atomics R270 to R284): integer atomics at the home slice and in the scratchpad, reductions
through the memory-side cache (R398), the packed minimum, and the ordered floating-point contributions with their fold.
An atomic performs in the step that issues it; its old value is returned later. -/

namespace Sys2Proof.Machine

/-! ### Addresses and words (R273, R274) -/

def State.atomEa (s : State) (t : Task) (base : Opnd) (off : BitVec 16) (l : Nat) : Nat :=
  (s.src t base .n64 l + signExt 16 64 off.toNat) % 2 ^ 64

def State.atomsEa (s : State) (t : Task) (base : Opnd) (off : BitVec 16) (l : Nat) : Nat :=
  (s.src t base .n32 l + signExt 16 32 off.toNat) % 2 ^ 32

/-- The value an atomic stores: none where a CAS fails. -/
def atomStore (op : AOp) (ty : Ty) (old b c : Nat) : Option Nat :=
  match op with
  | .cas => if old = b then some c else none
  | .add | .min | .max | .and | .or | .xor | .exch => some (atomNew op ty old b)

/-- An atomic write performs at the home slice; the core's own copy of the word is stale from then on. -/
def State.performWord (s : State) (core pa n v : Nat) : State :=
  (s.perform none pa (bytesOf n v)).modCore core (·.forget pa n)

/-- One lane's result: the old value, and whether the word was written. -/
structure AtomRes where
  lane : Nat
  old : Nat
  wrote : Bool
deriving DecidableEq, Repr

/-- Apply an atomic lane by lane in ascending order (R272). A lane that stores nothing has read the word at its home
slice, so the core's own copy is no longer used (R262); where the atomic takes a place as a store all the same, it
revokes the owner's copy too (R270): ATOMP does, a CAS that fails does not (R274). -/
def State.runAtoms (s : State) (core n : Nat) (place : Bool) (f : Nat → Nat → Option Nat) :
    List Placed → State × List AtomRes
  | [] => (s, [])
  | p :: ps =>
    let old := s.memNat p.pa n
    let s1 := match f p.lane old with
      | some v => s.performWord core p.pa n v
      | none => if place then s.performWord core p.pa n old else s.modCore core (·.forget p.pa n)
    let (s2, rs) := s1.runAtoms core n place f ps
    (s2, ⟨p.lane, old, (f p.lane old).isSome⟩ :: rs)

/-- A store of the task to a byte of [pa, pa + n) has still to perform; an atomic of that word follows it (R223). -/
def State.ownStorePending (s : State) (t : Task) (pa n : Nat) : Bool :=
  ((s.core t.core).drained ++ (s.core t.core).storeBuf).any fun e =>
    e.owner == t.uid && (List.range n).any fun i => (e.byte (pa + i)).isSome

/-- Checks and waits of a global atomic: causes (R228, R271), the task's own stores to the word, and the release that
`rel` asks for (R276). -/
def State.checkAtom (s : State) (t : Task) (h : Hdr) (k : AccKind) (n : Nat) (ops : List (Opnd × Nat))
    (lanes : List Nat) (addr : Nat → Nat) (rel : Bool) : M Unit :=
  match s.checkGlobal t h k false n ops lanes addr with
  | .error e => .error e
  | .ok () =>
    if rel && !s.released t then .error .hold
    else if (workLanes h lanes).any fun l => s.ownStorePending t (s.paOf t (addr l)) n then .error .hold
    else .ok ()

/-- The first access whose word cannot be read (R366): an atomic reads its word as a load does. -/
def State.badWord (s : State) (t : Task) (n : Nat) (ps : List Placed) : Option (Cause × Nat) :=
  ps.findSome? fun p => (s.badAccess t true p.pa n).map fun c => (c, p.va / 64 * 64)

/-- The result of an atomic that returns values: recorded or replayed values, then the writes with their barrier. -/
def State.atomReturn (s : State) (t : Task) (h : Hdr) (acq : Bool) (ws : List RegWrite) : Eff :=
  let s := if acq then s.acquire t.core none else s
  ⟨s.pushReturn t ws (barOf h.hint), none, true⟩

/-- What ATOM and ATOMP share: run on a trial state for the values, record them, then perform. -/
def atomWith (s : State) (t : Task) (h : Hdr) (n : Nat) (acq place : Bool) (ps : List Placed) (f : Nat → Nat → Option Nat)
    (recs : List AtomRes → List LogRec) (writes : State → List (AtomRes × LogRec) → List RegWrite) : M Eff :=
  match s.badWord t n ps with
  | some (c, va) => .ok ⟨(s.pushReturn t [] (barOf h.hint)).post t.uid c va, none, true⟩
  | none =>
    let rs := (s.runAtoms t.core n place f ps).2
    match s.logged t (recs rs) with
    | .error e => .error e
    | .ok (s, ls) =>
      let s := ((s.runAtoms t.core n place f ps).1).noteStores t.uid (storesOf n ps)
      .ok (s.atomReturn t h acq (writes s (rs.zip ls)))

/-! ### ATOM and ATOMS (R274) -/

def casOps (op : AOp) (c : Opnd) (k : Nat) : List (Opnd × Nat) :=
  match op with
  | .cas => [(c, k)]
  | .add | .min | .max | .and | .or | .xor | .exch => []

/-- KIND 1 records: one per lane, where the old value goes to a register (R382). -/
def oldRecs (d : Opnd) (rs : List AtomRes) : List LogRec :=
  if d = .zero then [] else rs.map fun r => ⟨1, r.lane, false, r.old⟩

/-- Old values to their registers; what the log gives where it records them. -/
def State.oldWrites (s : State) (t : Task) (ty : Ty) (d : Opnd) (rs : List (AtomRes × LogRec)) : List RegWrite :=
  rs.flatMap fun (r, x) => s.dst t d ty.regs r.lane (holdAs ty x.val)

/-- ATOM. DESIGN CHOICE: the word of every lane counts as one the task has stored, that of a failing CAS too
(R244, R245; notes/assumptions/76.md). -/
def execAtom (h : Hdr) (a : AtomArgs) (s : State) : Out' :=
  issue h s
    (fun t lanes => (workLanes h lanes).flatMap fun l =>
      s.srcKeys t a.base 2 l ++ s.srcKeys t a.b a.ty.regs l ++ dstReads a.d l ++
      (casOps a.op a.c a.ty.regs).flatMap fun (c, k) => s.srcKeys t c k l)
    fun s t lanes =>
      let n := tyBytes a.ty
      let addr := s.atomEa t a.base a.off
      let ops := [(a.base, 2), (a.b, a.ty.regs), (a.d, a.ty.regs)] ++ casOps a.op a.c a.ty.regs
      match s.checkAtom t h .atomic n ops lanes addr a.rel with
      | .error e => .error e
      | .ok () =>
        let (s, ps) := s.placeAll t (workLanes h lanes) addr
        let f (l old : Nat) : Option Nat := atomStore a.op a.ty old (s.src t a.b a.ty l) (s.src t a.c a.ty l)
        if a.d = .zero then
          match s.badWord t n ps with
          | some (c, va) => .ok ⟨(s.pushReturn t [] (barOf h.hint)).post t.uid c va, none, true⟩
          | none => .ok (((s.runAtoms t.core n false f ps).1.noteStores t.uid (storesOf n ps)).atomReturn t h a.acq [])
        else atomWith s t h n a.acq false ps f (oldRecs a.d) fun s rs => s.oldWrites t a.ty a.d rs

/-- ATOMS lane by lane in the scratchpad. -/
def Core.runScratch (c : Core) (n : Nat) (f : Nat → Nat → Option Nat) : List (Nat × Nat) → Core × List AtomRes
  | [] => (c, [])
  | (l, a) :: ps =>
    let old := natOf (c.scratchBytes a n)
    let c1 := match f l old with
      | some v => { c with scratch := spPutBlock c.scratch a (bytesOf n v) }
      | none => c
    let (c2, rs) := c1.runScratch n f ps
    (c2, ⟨l, old, (f l old).isSome⟩ :: rs)

/-- ATOMS. -/
def execAtoms (h : Hdr) (a : AtomsArgs) (s : State) : Out' :=
  issue h s
    (fun t lanes => (workLanes h lanes).flatMap fun l =>
      s.srcKeys t a.base 1 l ++ s.srcKeys t a.b a.ty.regs l ++ dstReads a.d l ++
      (casOps a.op a.c a.ty.regs).flatMap fun (c, k) => s.srcKeys t c k l)
    fun s t lanes =>
      let n := tyBytes a.ty
      let addr := s.atomsEa t a.base a.off
      let ops := [(a.base, 1), (a.b, a.ty.regs), (a.d, a.ty.regs)] ++ casOps a.op a.c a.ty.regs
      match s.checkScratch t h .both n ops lanes addr with
      | .error e => .error e
      | .ok () =>
        let ps := (workLanes h lanes).map fun l => (l, addr l)
        let f (l old : Nat) : Option Nat := atomStore a.op a.ty old (s.src t a.b a.ty l) (s.src t a.c a.ty l)
        let rs := ((s.core t.core).runScratch n f ps).2
        let recs := oldRecs a.d rs
        match if recs.isEmpty then .ok (s, []) else s.logged t recs with
        | .error e => .error e
        | .ok (s, ls) =>
          let s := s.modCore t.core fun c => (c.runScratch n f ps).1
          .ok ⟨s.pushReturn t (s.oldWrites t a.ty a.d (rs.zip ls)) (barOf h.hint), none, true⟩

/-! ### ATOMP (R275) -/

/-- ATOMP: the packed minimum, with the predicate of the lanes that stored. -/
def execAtomp (h : Hdr) (a : AtompArgs) (s : State) : Out' :=
  issue h s
    (fun t lanes => (workLanes h lanes).flatMap fun l =>
      s.srcKeys t a.base 2 l ++ s.srcKeys t a.b 2 l ++ dstReads a.d l)
    fun s t lanes =>
      let addr := s.atomEa t a.base a.off
      match s.checkAtom t h .atomic 8 [(a.base, 2), (a.b, 2), (a.d, 2)] lanes addr a.rel with
      | .error e => .error e
      | .ok () =>
        let (s, ps) := s.placeAll t (workLanes h lanes) addr
        let f (l old : Nat) : Option Nat :=
          let b := s.src t a.b .n64 l
          if b < old then some b else none
        atomWith s t h 8 a.acq true ps f (fun rs => rs.map fun r => ⟨2, r.lane, r.wrote, r.old⟩) fun s rs =>
          rs.flatMap fun (r, x) => s.dst t a.d 2 r.lane x.val ++ [⟨predKey h.u a.p r.lane, bit32 x.flag⟩]

/-! ### RED (R270, R274, R398) -/

/-- Cache words of an entry that overlap [pa, pa + n). -/
def MscEnt.overlapping (e : MscEnt) (pa n : Nat) : List (Nat × MscWord) :=
  e.words.filter fun (k, w) => 4 * k < pa + n && pa < 4 * k + w.size

/-- A reduction arrives at the memory-side cache (R398): it stays pending; one of the same operation combines with it;
any other content of the word is read, merged with HBM and combined at once. -/
def State.mscRed (s : State) (pa : Nat) (op : AOp) (ty : Ty) (v : Nat) : State :=
  let n := ty.bits / 8
  let line := pa / 64
  let s := if (findMsc s.msc line).isNone then s.mscRoom line else s
  let e := (findMsc s.msc line).getD ⟨line, []⟩
  let put (hbm : Sparse 8) (words : List (Nat × MscWord)) : State :=
    { s with hbm := hbm, msc := (s.msc.filter (·.line != line)) ++ [⟨line, words⟩] }
  let pend (x : Nat) : MscWord := .red op ty (BitVec.ofNat 64 x)
  match e.overlapping pa n with
  | [] => put s.hbm (alSet e.words (pa / 4) (pend v))
  | olds =>
    match olds with
    | [(k, .red op' ty' old)] =>
      if k = pa / 4 ∧ op' = op ∧ ty' = ty then put s.hbm (alSet e.words k (pend (atomNew op ty old.toNat v)))
      else combineAt s pa op ty v e olds n
    | _ => combineAt s pa op ty v e olds n
where
  combineAt (s : State) (pa : Nat) (op : AOp) (ty : Ty) (v : Nat) (e : MscEnt) (olds : List (Nat × MscWord)) (n : Nat) :
      State :=
    let hbm := olds.foldl settleWord s.hbm
    let new := atomNew op ty (spNat hbm pa n) v
    let rest := e.words.filter fun x => !olds.contains x
    let word (i : Nat) : MscWord := .bytes 15 (BitVec.ofNat 32 (new / 2 ^ (32 * i)))
    let words := (List.range (n / 4)).foldl (fun ws i => alSet ws (pa / 4 + i) (word i)) rest
    let lost := s.poison.contains e.line || s.failsMac e.line
    -- a merge leaves a line that cannot be read as it is (R409): its word is no stored word of a whole burst
    if lost && !olds.all (fun x => x.2.stored) then
      { s with hbm := spPutNat hbm pa n new, msc := (s.msc.filter (·.line != e.line)) ++ [⟨e.line, rest⟩] }
    else { s with hbm := hbm, msc := (s.msc.filter (·.line != e.line)) ++ [⟨e.line, words⟩] }

/-- A reduction performs at its cache: previous owners lose the word, watches are hit. -/
def State.performRed (s : State) (core pa : Nat) (op : AOp) (ty : Ty) (v : Nat) : State :=
  let n := ty.bits / 8
  let s := (((s.thaw pa n).remember pa n).mscRed pa op ty v).revokeOthers none pa n
  (s.hitWatches pa n).modCore core (·.forget pa n)

/-- RED: performed in this step, so its barrier falls with it. -/
def execRed (h : Hdr) (a : RedArgs) (s : State) : Out' :=
  issue h s
    (fun t lanes => (workLanes h lanes).flatMap fun l => s.srcKeys t a.base 2 l ++ s.srcKeys t a.b a.ty.regs l)
    fun s t lanes =>
      let addr := s.atomEa t a.base a.off
      match s.checkAtom t h .red (tyBytes a.ty) [(a.base, 2), (a.b, a.ty.regs)] lanes addr false with
      | .error e => .error e
      | .ok () =>
        let (s, ps) := s.placeAll t (workLanes h lanes) addr
        .ok (eff ((ps.foldl (fun s' p => s'.performRed t.core p.pa a.op a.ty (s.src t a.b a.ty p.lane)) s).noteStores
          t.uid (storesOf (tyBytes a.ty) ps)))

/-! ### Ordered contributions (R277 to R279) -/

/-- Contributions a slice's queue holds. -/
def queueSize : Nat := 2048

def State.queued (s : State) (slice : Nat) : Nat :=
  (s.contribs.filter fun c => c.slice == slice && c.spillAt.isNone).length

/-- Records of a job's spill area in use. -/
def State.spilledOf (s : State) (job : BitVec 32) : List Nat :=
  s.contribs.filterMap fun c => if c.job = job then c.spillAt else none

/-- The global slice that homes a word. -/
def State.sliceOf (s : State) (t : Task) (va pa : Nat) : Nat :=
  32 * s.homeDie pa (s.homeOf t.core (s.ctxOf t) va) + homeSlice pa

/-- The queues of these slices and the job's spill area can take a contribution for each (R278). -/
def State.contribRoom (s : State) (j : Job) (slices : List Nat) : Bool :=
  let extra := slices.eraseDups.foldl (fun acc x => acc + (s.queued x + slices.count x - queueSize)) 0
  extra + (s.spilledOf j.id).length ≤ j.rec_.spillSize / 32

/-- A spill record's bytes (R278). DESIGN CHOICE: ADDRESS is the word's device-physical address
(notes/assumptions/77.md). -/
def spillBytes (c : Contrib) : List Byte :=
  bytesOf 8 c.addr ++ bytesOf 4 c.key.toNat ++ bytesOf 4 c.idx.toNat ++ bytesOf 4 c.val.toNat ++
  bytesOf 4 c.task.toNat ++ bytesOf 1 c.lane ++ bytesOf 7 0

/-- The lowest free record of a spill area. -/
def freeRecord (used : List Nat) : Nat :=
  ((List.range (used.length + 1)).find? fun i => !used.contains i).getD used.length

/-- Put a contribution into the job's spill area; a fault there kills the job (R189). -/
def State.spillContrib (s : State) (core : Nat) (j : Job) (c : Contrib) : State :=
  let i := freeRecord (s.spilledOf j.id)
  match s.vwrite core j.rec_.ctx (j.rec_.spillBase + 32 * i) (spillBytes c) needRW with
  | .ok s => { s with contribs := s.contribs ++ [{ c with spillAt := some i }] }
  | .error (va, e) => (s.latchXlat core 3 j.rec_.ctx va e).killJob j.id e.cause

/-- One contribution is made: into the slice's queue, else into the spill area. -/
def State.contribute (s : State) (core : Nat) (j : Job) (c : Contrib) : State :=
  if s.queued c.slice < queueSize then { s with contribs := s.contribs ++ [c] } else s.spillContrib core j c

/-- Contributions of one instruction: a value for each access; the issue index counts it (R277). -/
def State.contributeAll (s : State) (t : Task) (j : Job) (cs : List Contrib) : State :=
  (cs.foldl (fun s c => s.contribute t.core j c) s).modWarp t.uid fun w => { w with issueIdx := w.issueIdx + 1 }

/-- A contribution of the task. -/
def Task.contrib (t : Task) (pa slice lane val : Nat) : Contrib :=
  ⟨pa, slice, t.line[2]?.getD 0, lane, t.warp.issueIdx, t.ident, t.job, BitVec.ofNat 32 val, none, 0⟩

/-- ATOMF.ADD (R277). -/
def execAtomf (h : Hdr) (a : AtomfArgs) (s : State) : Out' :=
  issue h s
    (fun t lanes => (workLanes h lanes).flatMap fun l => s.srcKeys t a.base 2 l ++ s.srcKeys t a.b 1 l)
    fun s t lanes =>
      let addr := s.atomEa t a.base a.off
      match s.checkAtom t h .fold 4 [(a.base, 2), (a.b, 1)] lanes addr false with
      | .error e => .error e
      | .ok () =>
        withJob s t fun j =>
          let (s, ps) := s.placeAll t (workLanes h lanes) addr
          let cs := ps.map fun p => t.contrib p.pa (s.sliceOf t p.va p.pa) p.lane (s.src t a.b .f32 p.lane)
          if !s.contribRoom j (cs.map (·.slice)) then .error .hold
          else
            let s := s.contributeAll t j cs
            if s.gone t.uid then .error (.done s) else .ok (eff s)

/-! ### RSEAL (R281) -/

/-- Order of the fold: (K, L, N, task identifier), and among the elements of one SCATL ascending j (R359). -/
def Contrib.before (a b : Contrib) : Bool :=
  let k (c : Contrib) : List Nat := [c.key.toNat, c.lane, c.idx.toNat, c.task.toNat, c.elem]
  List.lex (k a) (k b) (· < ·)

/-- Fold contributions into an accumulator, one RNE32 addition each. -/
def foldContribs : Nat × BitVec 32 → List Contrib → Nat × BitVec 32
  | acc, [] => acc
  | (x, f), c :: cs =>
    let r := addCode .fp32 .rn x c.val.toNat
    foldContribs (r.code, f ||| r.flags) cs

/-- Fold the contributions to one word. -/
def State.foldWord (s : State) (core pa : Nat) : State × BitVec 32 :=
  let cs := sortBy Contrib.before (s.contribs.filter (·.addr == pa))
  let r := foldContribs (natOf (s.devBytes pa 4), 0) cs
  ({ (s.performWord core pa 4 r.1) with contribs := s.contribs.filter (·.addr != pa) }, r.2)

/-- Fold words in turn, gathering their flags. -/
def State.foldWords (s : State) (core : Nat) : List Nat → State × BitVec 32
  | [] => (s, 0)
  | pa :: pas =>
    let (s, f) := s.foldWord core pa
    let (s, g) := s.foldWords core pas
    (s, f ||| g)

/-- Every cause of a group-wide access to [va, va + n); `code` is what XLAT_FAULT names it (R404). -/
def State.rangeBads (s : State) (t : Task) (k : AccKind) (va n : Nat) (code : Nat := k.xlatCode) : List Bad :=
  let ctx := s.ctxOf t
  (match s.firstBad t.core ctx (k.need false) (pieces va n) with
   | some (x, e) => [⟨e.cause, x, some (code, x, e)⟩]
   | none => []) ++
  (if t.trapOf.isNone && !t.declares k va n then [⟨.undeclaredAccess, va, none⟩] else []) ++
  (if (s.core t.core).laneLocked k.stores (.global ctx va (va + n)) then [⟨.rangeLocked, va, none⟩] else []) ++
  (if va % 4 != 0 || n % 4 != 0 then [⟨.misaligned, va, none⟩] else [])

/-- Words of [va, va + n) that have contributions, by device-physical address. -/
def State.sealedWords (s : State) (t : Task) (va n : Nat) : List Nat :=
  let spans := (pieces va n).map fun (a, k) => (s.paOf t a, k)
  sortBy (fun a b => decide (a < b))
    ((s.contribs.map (·.addr)).eraseDups.filter fun pa => spans.any fun (lo, k) => lo ≤ pa && pa < lo + k)

/-- RSEAL: a release, then the fold; its completion is a release too. -/
def execRseal (h : Hdr) (a : RsealArgs) (s : State) : Out' :=
  issue h s (fun t _ => s.srcKeys t a.base 2 0 ++ s.srcKeys t a.n 1 0) fun s t _ =>
    let va := s.atomEa t a.base a.off 0
    let n := s.src t a.n .n32 0
    match checkLanes true [0] (s.regBads t [(a.base, 2), (a.n, 1)]) fun _ => s.rangeBads t .fold va n with
    | .error e => .error e
    | .ok () =>
      if (pieces va n).any (fun (x, _) => s.accessWaits t.core (s.ctxOf t) x) || !s.released t then .error .hold
      else
        let s := s.touchAll t.core (s.ctxOf t) ((pieces va n).map (·.1))
        let (s, f) := s.foldWords t.core (s.sealedWords t va n)
        .ok (eff (s.orFlags t.uid f))

end Sys2Proof.Machine
end

