-- ==== Sys2Proof/Machine/Crypto.lean ====
section
/-! DEFINITION. SHA-384 and ECDSA P-384 (18_platform R423): the published functions that the boot ROM verifies an image
with. PRESUMED: the manual names them and does not define them; they are written from FIPS 180-4 and FIPS 186
(notes/assumptions/18.md). -/

namespace Sys2Proof.Machine

/-! ### SHA-384 -/

/-- The number that bytes spell, the most significant first. -/
def bigEndian (bs : List (BitVec 8)) : Nat := bs.foldl (fun acc b => 256 * acc + b.toNat) 0

/-- `n` bytes of a number, the most significant first. -/
def bigBytes (n x : Nat) : List (BitVec 8) := (List.range n).map fun i => BitVec.ofNat 8 (x / 256 ^ (n - 1 - i))

/-- A list cut into pieces of `n`, `fuel` of them at most. -/
def cutEvery {α : Type} (n : Nat) : Nat → List α → List (List α)
  | 0, _ => []
  | fuel + 1, l => if l.isEmpty then [] else l.take n :: cutEvery n fuel (l.drop n)

/-- The first `count` primes from `n` on, `fuel` numbers looked at. -/
def primesFrom : Nat → Nat → Nat → List Nat
  | 0, _, _ => []
  | fuel + 1, count, n =>
    if count = 0 then []
    else if (List.range n).any fun d => 1 < d && n % d == 0 then primesFrom fuel count (n + 1)
    else n :: primesFrom fuel (count - 1) (n + 1)

/-- The greatest number below r + 2 ^ bits whose k-th power is n at most, r being such a number. -/
def rootAbove (k n : Nat) : Nat → Nat → Nat
  | 0, r => r
  | bits + 1, r => rootAbove k n bits (if (r + 2 ^ bits) ^ k ≤ n then r + 2 ^ bits else r)

/-- The first 64 bits of the fraction of a k-th root: what FIPS 180-4 draws its constants from. -/
def rootFraction (k p : Nat) : BitVec 64 := BitVec.ofNat 64 (rootAbove k (p * 2 ^ (64 * k)) 70 0)

/-- The round constants: the cube roots of the first 80 primes. -/
def shaSteps : List (BitVec 64) := (primesFrom 410 80 2).map (rootFraction 3)

/-- The hash of an empty run of blocks: the square roots of the ninth to the sixteenth prime. -/
def shaStart : List (BitVec 64) := ((primesFrom 54 16 2).drop 8).map (rootFraction 2)

/-- A word turned right by each of the amounts, the copies added without carry. -/
def turned (amounts : List Nat) (x : BitVec 64) : BitVec 64 := amounts.foldl (fun acc n => acc ^^^ x.rotateRight n) 0

/-- One round. The eight working words are two windows of four, a to d and e to h, each of which takes its new word in
front and loses its last. -/
def shaStep (win : List (BitVec 64)) (constantWord : BitVec 64 × BitVec 64) : List (BitVec 64) :=
  let word (k : Nat) : BitVec 64 := win.getD k 0
  let chosen := word 6 ^^^ (word 4 &&& (word 5 ^^^ word 6))
  let most := (word 0 &&& word 1) ||| (word 2 &&& (word 0 ||| word 1))
  let into := word 7 + turned [14, 18, 41] (word 4) + chosen + (constantWord.1 + constantWord.2)
  (into + turned [28, 34, 39] (word 0) + most) :: win.take 3 ++ (word 3 + into) :: (win.drop 4).take 3

/-- The message schedule carried `n` words on. -/
def shaSchedule (n : Nat) (words : List (BitVec 64)) : List (BitVec 64) :=
  (List.range n).foldl (fun ws t =>
    let old := ws.getD (t + 1) 0
    let late := ws.getD (t + 14) 0
    ws ++ [ws.getD t 0 + ws.getD (t + 9) 0 + (turned [1, 8] old ^^^ old >>> 7) + (turned [19, 61] late ^^^ late >>> 6)]) words

/-- One block of 128 bytes. -/
def shaBlock (hash : List (BitVec 64)) (bs : List (BitVec 8)) : List (BitVec 64) :=
  let words := (cutEvery 8 16 bs).map fun w => BitVec.ofNat 64 (bigEndian w)
  ((shaSteps.zip (shaSchedule 64 words)).foldl shaStep hash).zipWith (· + ·) hash

/-- The message with its padding and its length in bits. -/
def shaPad (bs : List (BitVec 8)) : List (BitVec 8) :=
  bs ++ 0x80 :: List.replicate ((239 - bs.length % 128) % 128) 0 ++ bigBytes 16 (8 * bs.length)

/-- SHA-384: the first six words of the hash. -/
def sha384 (bs : List (BitVec 8)) : BitVec 384 :=
  let hash := (cutEvery 128 (bs.length / 128 + 2) (shaPad bs)).foldl shaBlock shaStart
  BitVec.ofNat 384 (bigEndian ((hash.take 6).flatMap fun w => bigBytes 8 w.toNat))

/-! ### ECDSA over P-384 -/

/-- The field's prime. -/
def curveP : Nat := 2 ^ 384 - 2 ^ 128 - 2 ^ 96 + 2 ^ 32 - 1

/-- The order of the base point. -/
def curveN : Nat := 0xffffffffffffffffffffffffffffffffffffffffffffffffc7634d81f4372ddf581a0db248b0a77aecec196accc52973

/-- The constant of the curve y² = x³ − 3x + b. -/
def curveB : Nat := 0xb3312fa7e23ee7e4988e056be3f82d19181d9c6efe8141120314088f5013875ac656398d8a2ed19d2a85c8edd3ec2aef

/-- A point of the curve; none is the point at infinity. -/
abbrev CPoint := Option (Nat × Nat)

/-- The base point. -/
def curveG : CPoint :=
  some (0xaa87ca22be8b05378eb1c71ef320ad746e1d3b628ba79b9859f741e082542a385502f25dbf55296c3a545e3872760ab7,
        0x3617de4a96262c6f5d9e98bf9292dc29f8f41dbd289a147ce9da3113b5f0b8c00a60b1ce1d7e819d7a431d7c90ea0e5f)

/-- b ^ e modulo m, over `fuel` bits of e. -/
def powMod (m : Nat) : Nat → Nat → Nat → Nat
  | 0, _, _ => 1 % m
  | fuel + 1, b, e =>
    let r := powMod m fuel (b * b % m) (e / 2)
    if e % 2 = 1 then r * b % m else r

/-- The inverse modulo a prime of 384 bits. -/
def invMod (m x : Nat) : Nat := powMod m 384 (x % m) (m - 2)

/-- a − b modulo m. -/
def subMod (m a b : Nat) : Nat := (a + (m - b % m)) % m

/-- The third point of a chord or tangent of slope `l`, reflected. -/
def CPoint.chord (l x1 y1 x2 : Nat) : CPoint :=
  let x := subMod curveP (l * l) (x1 + x2)
  some (x, subMod curveP (l * subMod curveP x1 x) y1)

def CPoint.add (p q : CPoint) : CPoint :=
  match p, q with
  | none, q => q
  | p, none => p
  | some (x1, y1), some (x2, y2) =>
    if x1 ≠ x2 then CPoint.chord (subMod curveP y2 y1 * invMod curveP (subMod curveP x2 x1) % curveP) x1 y1 x2
    else if y1 ≠ y2 ∨ y1 = 0 then none
    else CPoint.chord (subMod curveP (3 * x1 * x1) 3 * invMod curveP (2 * y1) % curveP) x1 y1 x2

/-- k times a point, over `fuel` bits of k. -/
def CPoint.times : Nat → Nat → CPoint → CPoint
  | 0, _, _ => none
  | fuel + 1, k, p =>
    let r := CPoint.times fuel (k / 2) (p.add p)
    if k % 2 = 1 then r.add p else r

/-- An uncompressed public key that names a point of the curve. -/
def keyPoint (key : List (BitVec 8)) : CPoint :=
  let x := bigEndian ((key.drop 1).take 48)
  let y := bigEndian (key.drop 49)
  if key.length = 97 ∧ key.head? = some 4 ∧ x < curveP ∧ y < curveP ∧
      y * y % curveP = subMod curveP (x * x * x + curveB) (3 * x) then some (x, y)
  else none

/-- ECDSA P-384 verification with SHA-384 of a signature, r and s of 48 bytes each, over bytes. -/
def ecdsaVerifies (key sig bytes : List (BitVec 8)) : Bool :=
  let r := bigEndian (sig.take 48)
  let s := bigEndian (sig.drop 48)
  match keyPoint key with
  | none => false
  | some q =>
    if sig.length ≠ 96 ∨ r = 0 ∨ s = 0 ∨ curveN ≤ r ∨ curveN ≤ s then false
    else
      let w := invMod curveN s
      let u := (sha384 bytes).toNat * w % curveN
      let v := r * w % curveN
      match (CPoint.times 384 u curveG).add (CPoint.times 384 v (some q)) with
      | none => false
      | some (x, _) => x % curveN == r

end Sys2Proof.Machine
end

