-- ==== Sys2Proof/Machine/Claims.lean ====
section
/-! DEFINITION. What ends a wait: a core's own state, its slots, lines, counters and matrix engine (08_tasks R206,
13_tiles R308, R320, R321); and the cohort budget unit (03_registers R71 to R73), claims served in order and the claim
deadlock. -/

namespace Sys2Proof.Machine

/-! ### Waits on a core's own state -/

/-- What the wait of a parked warp comes to: it goes on, its instruction issues again, it completes with an acquire, or
its slot has failed (R308). -/
inductive Wait where
  | goesOn | again | failed
  | completes (next : BitVec 32) (hint : Hint)
deriving DecidableEq, Repr

def Core.waitOf (c : Core) (u : Nat) (p : Park) : Wait :=
  match p with
  | .slot r k want =>
    if c.slotSt r k = .failed then .failed else if c.slotSt r k = want then .again else .goesOn
  | .slotWait r k want next h =>
    if c.slotSt r k = .failed then .failed else if c.slotSt r k = want then .completes next h else .goesOn
  | .acnt k v next h => if v ≤ (spGet c.acnt k).toNat then .completes next h else .goesOn
  -- every line present, or one that was pending has become absent with an abort (R225, R226)
  | .lines ls =>
    if ls.all (fun k => c.lineSt k == .present) || ls.any (fun k => c.lineSt k == .absent) then .again else .goesOn
  | .mq n => if (c.mx.ops.filter (·.owner == u)).length ≤ n then .again else .goesOn
  | .join _ | .jwait _ | .waitv | .rclaim _ _ _ | .lease _ _ _ | .sign _ _ _ | .ctxLoad => .goesOn

/-- One parked warp. A slot that fails raises SLOT_FAILED in a warp that waits for it, once it is not stopped. -/
def State.endWait (s : State) (t : Task) (p : Park) : State :=
  match (s.core t.core).waitOf t.uid p with
  | .goesOn => s
  | .again => s.wake t.uid
  | .completes next h => (s.acquire t.core none).parkDone t.uid next h
  | .failed => if t.stop.isSome then s else s.takeTrap t.uid (raise0 .slotFailed) .precise t.warp.pc

/-- The waits of parked warps end when the core has what they need; those of a context whose cores' state is saved away
do not. -/
def State.wakeParked (s : State) : State :=
  s.tasks.foldl (fun s x => match s.task? x.uid with
    | none => s
    | some t => match t.park with
      | some p => if s.ctxGoes t then s.endWait t p else s
      | none => s) s

/-! ### Claims -/

/-- The order key of a task: closure word 2. -/
def Task.key (t : Task) : Nat := (t.line[2]?.getD 0).toNat

/-- Ascending order key, ties to the lower task identifier (R72). -/
def claimBefore (a b : Task) : Bool := a.key < b.key || (a.key == b.key && a.ident.toNat < b.ident.toNat)

/-- Granules a task parked in RCLAIM asks for, and the address after it. -/
def Task.claim (t : Task) : Option (Nat × BitVec 32 × Hint) :=
  match t.park with
  | some (.rclaim n next h) => some (n, next, h)
  | _ => none

/-- The register count rises by `n` granules: new registers read zero (R83). -/
def Warp.grow (w : Warp) (n : Nat) : Warp :=
  { w with count := w.count + 4 * n, v := spErase w.v (32 * w.count) (32 * (w.count + 4 * n)) }

/-- Serve a parked claim: the granules come from the free count and the RCLAIM completes. -/
def State.serveClaim (s : State) (u n : Nat) (next : BitVec 32) (h : Hint) : State :=
  match s.task? u with
  | none => s
  | some t =>
    let s := s.modCohort t.cohort fun c => { c with free := c.free - n }
    (s.setTask { t with warp := t.warp.grow n }).parkDone u next h

/-- Consider claimants in order, serving each whose request fits (R72). -/
def State.serveList (s : State) (cohort : Nat) : List Task → State
  | [] => s
  | t :: ts =>
    let free := ((s.cohort? cohort).map (·.free)).getD 0
    match t.claim with
    | some (n, next, h) =>
      if n ≤ free then (s.serveClaim t.uid n next h).serveList cohort ts else s.serveList cohort ts
    | none => s.serveList cohort ts

/-- The parked claimants of a cohort, in the order of R72. Claims of this clk are considered when it ends (`closing`):
their order is by key, not by arrival. A halted claimant is served too (R380). -/
def State.claimants (s : State) (cohort : Nat) (closing : Bool) : List Task :=
  sortBy claimBefore (s.tasks.filter fun t =>
    t.cohort == cohort && t.claim.isSome && (closing || t.parkedAt != s.clk))

/-- R73: every live member is parked in RCLAIM and no parked request fits. -/
def State.claimDeadlock (s : State) (cohort : Nat) : Bool :=
  let free := ((s.cohort? cohort).map (·.free)).getD 0
  let live := s.liveMembers cohort
  !live.isEmpty && live.all fun t => match t.claim with
    | some (n, _, _) => free < n
    | none => false

/-- A claim of this clk that its end did not serve parks now: it leaves the progress slot (R210), and one with an open
cohort raises SPAWN_BAD_CLOSURE (R173). -/
def State.claimWaits (s : State) (t : Task) : State :=
  if t.opened.isSome then s.takeTrap t.uid (raise0 .spawnBadClosure) .precise t.warp.pc
  else match t.park with
    | some p => if t.stop.isSome then s else s.parkTask t.uid p
    | none => s

/-- The claims of this clk that stand unserved. -/
def State.newClaims (s : State) (cohort : Nat) : List Task :=
  s.tasks.filter fun t => t.cohort == cohort && t.claim.isSome && t.parkedAt == s.clk

/-- The budget unit's turn for one cohort: serve; once every change of a clk is applied, the claims that did not fit
park, and the unit checks for deadlock (R73). A claimant that stands halted takes the cause once it is released
(notes/assumptions/66.md). -/
def State.budgetUnit (closing : Bool) (s : State) (cohort : Nat) : State :=
  let s := s.serveList cohort (s.claimants cohort closing)
  let s := if closing then (s.newClaims cohort).foldl State.claimWaits s else s
  if closing && s.claimDeadlock cohort then
    match s.claimants cohort true with
    | [] => s
    | t :: _ => if t.stop.isSome then s else s.takeTrap t.uid (raise0 .regClaimDeadlock) .precise t.warp.pc
  else s

/-- The cohorts with a parked claim. -/
def State.claimCohorts (s : State) : List Nat := ((s.tasks.filter (·.claim.isSome)).map (·.cohort)).eraseDups

/-- The budget units of every cohort that has a parked claim. -/
def State.settleClaims (s : State) (closing : Bool) : State := s.claimCohorts.foldl (State.budgetUnit closing) s

end Sys2Proof.Machine
end

