-- ==== Sys2Proof/Machine/Convert.lean ====
section
/-! DEFINITION. Class 0x3 (05_formats R104 to R110, R115 to R123): conversion between wide types, narrowing, packing,
unpacking, block scales and the codebook. -/

namespace Sys2Proof.Machine

def isFloatTy : Ty → Bool
  | .f32 | .f64 | .f16 | .bf16 => true
  | _ => false

/-- The float format of a narrow format code; E4M3 for those that have none. -/
def NFmt.fmt : NFmt → FFmt
  | .e5m2 => .e5m2 | .e3m2 => .e3m2 | .e2m3 => .e2m3 | .e2m1 => .e2m1
  | .e4m3 | .i4 | .t5 | .e8m0 | .ue4m3 => .e4m3

/-! ### CVT, CVTN (R118, R119) -/

/-- A value of type SF converted to DF. -/
def convert (df sf : Ty) (rm : RM) (sat : Bool) (x : Nat) : FRes :=
  if isFloatTy df then
    let v : FVal := if isFloatTy sf then (fmtOf sf).decode x else FVal.ofInt (intOf sf x)
    if df = sf ∧ !v.isNan then ⟨x, 0⟩ else (fmtOf df).round rm sat v
  else if isFloatTy sf then
    let r := roundToInt df.signed df.bits rm ((fmtOf sf).decode x)
    ⟨holdAs df r.code, r.flags⟩
  else if sat then
    let r := clampTo df (intOf sf x)
    ⟨holdAs df r.code, r.flags⟩
  else ⟨holdAs df (ofSigned df.bits (intOf sf x)), 0⟩

/-- CVT (R118). -/
def execCvt (h : Hdr) (a : CvtArgs) (s : State) : Out' :=
  let dist := if a.df = .f64 || a.sf = .f64 then distOf h 10 4 else distOf h 4 2
  compute h s ⟨[(a.a, a.sf)], [], some (a.d, a.df.regs), none⟩ dist fun l =>
    Res.ofF (convert a.df a.sf a.rm a.sat (l.src a.a a.sf))

/-- CVTN (R119). -/
def execCvtn (h : Hdr) (a : CvtnArgs) (s : State) : Out' :=
  compute h s ⟨[(a.a, .f32)], [], some (a.d, 1), none⟩ (distOf h 4 2) fun l =>
    Res.ofF ((NFmt.fmt a.df).round a.rm a.sat (FFmt.fp32.decode (l.src a.a .f32)))

/-! ### PKN and UNPK (R120, R121) -/

/-- What an element format of PKN and UNPK holds. -/
inductive Elem where
  | float (f : FFmt)
  | int (w : Nat)
  | trits
deriving DecidableEq, Repr

def elemOf : CFmt → Elem
  | .wide .f16 => .float .fp16
  | .wide .bf16 => .float .bf16
  | .wide _ => .int 8
  | .narrow .i4 => .int 4
  | .narrow .t5 => .trits
  | .narrow f => .float (NFmt.fmt f)

/-- Bits of one element. -/
def Elem.bits : Elem → Nat
  | .float f => f.bits
  | .int w => w
  | .trits => 4

/-- A signed byte's sign as a trit digit, 0 to 2, and whether the byte lay outside -1 to 1. -/
def tritOf (byte : Nat) : Nat × Bool :=
  let x := toSigned 8 byte
  ((if x < 0 then 0 else if x = 0 then 1 else 2), x < -1 || 1 < x)

/-- The digits of five trits as a byte (R108). -/
def tritByte (ds : List Nat) : Nat := ds.foldr (fun d acc => d + 3 * acc) 0

/-- A value clamped into `w` signed bits. -/
def clampBits (w : Nat) (x : Int) : FRes :=
  let hi : Int := (2 ^ (w - 1) : Nat) - 1
  if x < -hi - 1 then ⟨ofSigned w (-hi - 1), fIntOverflow⟩
  else if hi < x then ⟨ofSigned w hi, fIntOverflow⟩
  else ⟨ofSigned w x, 0⟩

/-- The packed pair of PKN (R120). -/
def packPair (e : Elem) (rm : RM) (sat : Bool) (a b : Nat) : FRes :=
  let both (x y : FRes) (w : Nat) : FRes := ⟨x.code + 2 ^ w * y.code, x.flags ||| y.flags⟩
  match e with
  | .float f => both (f.round rm sat (FFmt.fp32.decode a)) (f.round rm sat (FFmt.fp32.decode b)) f.bits
  | .int w => both (clampBits w (toSigned 32 a)) (clampBits w (toSigned 32 b)) w
  | .trits =>
    let ts := ((List.range 4).map fun i => tritOf (natBits a (8 * i) 8)) ++ [tritOf (natBits b 0 8)]
    ⟨tritByte (ts.map (·.1)), flagIf (ts.any (·.2)) fIntOverflow⟩

/-- PKN (R120): the field of D at position k; the other bits of D are kept. -/
def execPkn (h : Hdr) (a : PknArgs) (s : State) : Out' :=
  compute h s ⟨[(a.a, .n32), (a.b, .n32), (a.d, .n32)], [], some (a.d, 1), none⟩ (distOf h 4 2) fun l =>
    let e := elemOf a.df
    let w := 2 * e.bits
    let r := packPair e a.rm a.sat (l.src a.a .n32) (l.src a.b .n32)
    let d := l.src a.d .n32
    let lo := w * a.k.toNat
    ⟨d - natBits d lo w * 2 ^ lo + r.code * 2 ^ lo, false, r.flags⟩

/-- The five trits of a byte, as integers (R108): bytes above 242 hold zeros. -/
def tritsOf (byte : Nat) : List Int :=
  (List.range 5).map fun i => if 242 < byte then 0 else ((byte / 3 ^ i % 3 : Nat) : Int) - 1

/-- A code widened to binary32 exactly; a NaN is canonical, without a flag. -/
def widen (f : FFmt) (code : Nat) : Nat := (FFmt.fp32.round .rn false (f.decode code)).code

/-- The pair UNPK writes (R121), the element of the lower bits in the lower register. -/
def unpackPair (e : Elem) (field : Nat) : Nat :=
  match e with
  | .float f => widen f (natBits field 0 f.bits) + 2 ^ 32 * widen f (natBits field f.bits f.bits)
  | .int w => signExt w 32 (natBits field 0 w) + 2 ^ 32 * signExt w 32 (natBits field w w)
  | .trits =>
    let ts := tritsOf (field % 256)
    let byte (i : Nat) : Nat := ofSigned 8 (ts[i]?.getD 0)
    byte 0 + 2 ^ 8 * byte 1 + 2 ^ 16 * byte 2 + 2 ^ 24 * byte 3 + 2 ^ 32 * ofSigned 32 (ts[4]?.getD 0)

/-- UNPK (R121). -/
def execUnpk (h : Hdr) (a : UnpkArgs) (s : State) : Out' :=
  compute h s ⟨[(a.a, .n32)], [], some (a.d, 2), none⟩ (distOf h 4 2) fun l =>
    let e := elemOf a.sf
    let w := 2 * e.bits
    Res.of (unpackPair e (natBits (l.src a.a .n32) (w * a.k.toNat) w))

/-! ### QSCL (R104 to R106, R122) -/

/-- The value of a scale byte: none for a NaN, else numerator and exponent. -/
def scaleVal (f : NFmt) (byte : Nat) : Option (Nat × Int) :=
  match f with
  | .e8m0 => if byte = 255 then none else some (1, (byte : Int) - 127)
  | _ =>
    if 128 ≤ byte then none
    else match FFmt.e4m3.decode byte with
      | .fin _ m _ e => some (m, e)
      | .inf _ | .nan _ => none

/-- qmax of R122 as a rational, and the floor of its logarithm. -/
def qmaxOf : CFmt → Nat × Nat
  | .wide _ => (127, 1)
  | .narrow .e4m3 => (448, 1)
  | .narrow .e5m2 => (57344, 1)
  | .narrow .e3m2 => (28, 1)
  | .narrow .e2m3 => (15, 2)
  | .narrow .e2m1 => (6, 1)
  | .narrow .i4 => (7, 1)
  | .narrow _ => (1, 1)

/-- QSCL.FIND of a binary32 value. -/
def findScale (sf : NFmt) (df : CFmt) (a : Nat) : FRes :=
  let (qn, qd) := qmaxOf df
  match FFmt.fp32.decode a with
  | .nan _ | .inf _ => ⟨if sf = .e8m0 then 0xFF else 0x7F, fInvalid⟩
  | .fin _ m _ e =>
    if m = 0 then ⟨if sf = .e8m0 then 127 else 0x38, 0⟩
    else if sf = .e8m0 then
      let k := expOf m 1 e - expOf qn qd 0 + 127
      ⟨(max 0 (min k 254)).toNat, 0⟩
    else FFmt.e4m3.round .ru true (.fin false (m * qd) qn e)

/-- QSCL.DIV of a binary32 value by a scale byte. -/
def divScale (sf : NFmt) (rm : RM) (sat : Bool) (a byte : Nat) : FRes :=
  let v := FFmt.fp32.decode a
  match scaleVal sf byte with
  | none => ⟨FFmt.fp32.nanCode, fInvalid⟩
  | some (n, e) =>
    match v with
    | .nan _ => if n = 0 then ⟨FFmt.fp32.nanCode, fInvalid⟩ else FFmt.fp32.round rm sat v
    | .inf neg => if n = 0 then ⟨fpInf neg, 0⟩ else FFmt.fp32.round rm sat v
    | .fin neg m _ ea =>
      if n = 0 then (if m = 0 then ⟨FFmt.fp32.nanCode, fInvalid⟩ else ⟨fpInf neg, fDivzero⟩)
      else FFmt.fp32.round rm sat (.fin neg m n (ea - e))

/-- QSCL.MUL of a binary32 value by a scale byte. DESIGN CHOICE: an infinity by a UE4M3 scale of 0, for which R122 gives
no value, is the canonical NaN with FP_INVALID (notes/assumptions/37.md). -/
def mulScale (sf : NFmt) (rm : RM) (sat : Bool) (a byte : Nat) : FRes :=
  match scaleVal sf byte with
  | none => ⟨FFmt.fp32.nanCode, fInvalid⟩
  | some (n, e) =>
    let x := fmul (FFmt.fp32.decode a) (.fin false n 1 e)
    let r := FFmt.fp32.round rm sat x.val
    ⟨r.code, x.flags ||| r.flags⟩

/-- QSCL.FIND (R122). -/
def execQsclFind (h : Hdr) (a : QfindArgs) (s : State) : Out' :=
  compute h s ⟨[(a.a, .f32)], [], some (a.d, 1), none⟩ (distOf h 6 4) fun l =>
    Res.ofF (findScale a.sf a.df (l.src a.a .f32))

/-- QSCL.DIV (R122). -/
def execQsclDiv (h : Hdr) (a : QscaleArgs) (s : State) : Out' :=
  compute h s ⟨[(a.a, .f32), (a.b, .n32)], [], some (a.d, 1), none⟩ (distOf h 6 4) fun l =>
    Res.ofF (divScale a.sf a.rm a.sat (l.src a.a .f32) (l.src a.b .n32 % 256))

/-- QSCL.MUL (R122). -/
def execQsclMul (h : Hdr) (a : QscaleArgs) (s : State) : Out' :=
  compute h s ⟨[(a.a, .f32), (a.b, .n32)], [], some (a.d, 1), none⟩ (distOf h 6 4) fun l =>
    Res.ofF (mulScale a.sf a.rm a.sat (l.src a.a .f32) (l.src a.b .n32 % 256))

/-! ### CBDEC (R110, R123) -/

/-- DecodeVQ2: the eight values of an index in half-units (R110). -/
def decodeVq2 (idx entry : Nat) : List Int :=
  let s (i : Nat) : Bool := natBit idx (i + 1)
  let negs := ((List.range 7).filter s).length
  (List.range 8).map fun i =>
    let neg := if i < 7 then s i else negs % 2 == 1
    let v : Int := (natBits entry (3 * i) 3 + (natBit idx 0).toNat : Nat)
    if neg && v != 0 then -v else v

/-- A value in half-units as BF16: exact. -/
def halfUnits (x : Int) : Nat := (FFmt.bf16.round .rn false (.fin (x < 0) x.natAbs 1 (-1))).code

/-- CBDEC (R123). -/
def execCbdec (h : Hdr) (a : CbdecArgs) (s : State) : Out' :=
  compute h s ⟨[(a.a, .n32), (a.b, .n32)], [], some (a.d, 2), none⟩ (distOf h 4 2) fun l =>
    let es := decodeVq2 (l.src a.a .n32 % 2 ^ 16) (l.src a.b .n32 % 2 ^ 24)
    let at_ (i : Nat) : Int := es[i]?.getD 0
    Res.of (match a.half with
      | none => (List.range 8).foldl (fun acc i => acc + ofSigned 8 (at_ i) * 2 ^ (8 * i)) 0
      | some k => (List.range 4).foldl (fun acc i => acc + halfUnits (at_ (4 * k.toNat + i)) * 2 ^ (16 * i)) 0)

end Sys2Proof.Machine
end

