-- ==== Sys2Proof/Machine/Engine.lean ====
section
/-! DEFINITION. The core's engines (13_tiles R295 to R305; 15_selection R350 to R352): layout records, which bytes an
operation reads and writes, the range-lock table and what holds an issue, segments with their faults, credits and
completion. -/

namespace Sys2Proof.Machine

/-! ### Layout records (R295 to R297, R350) -/

/-- Signed 32-bit field. -/
def strideOf (x : Nat) : Int := toSigned 32 x

/-- A layout record of 32 bytes. -/
def layoutOf (bs : List Byte) : Layout :=
  let x (o n : Nat) : Nat := natOf ((bs.drop o).take n)
  let f := x 28 4
  { size0 := x 0 2, size1 := x 2 2, size2 := x 4 2, size3 := x 6 2, stride1 := strideOf (x 8 4),
    stride2 := strideOf (x 12 4), stride3 := strideOf (x 16 4), pad := x 20 4, valid0 := x 24 2, valid1 := x 26 2,
    format := natBits f 0 4, bank := natBits f 4 2, summary := natBit f 6, block := natBits f 7 2, w32 := natBit f 9 }

/-- FLAGS[31:10] of a record. -/
def layoutRsv (bs : List Byte) : Nat := natOf ((bs.drop 28).take 4) / 2 ^ 10

/-- Elements of a packing group (R297). -/
def groupOf (f : Nat) : Nat :=
  match f with
  | 0x4 | 0x6 | 0xB | 0xC => 2
  | 0x2 | 0x3 | 0xA => 4
  | 0xD => 5
  | 0xF => 8
  | _ => 1

def Layout.rows (l : Layout) : Nat := l.size1 * l.size2 * l.size3
def Layout.pitch (l : Layout) : Nat := pitchOf l.w32 l.format l.size0
/-- Bytes of a row's elements, and of those read from memory. -/
def Layout.rowLen (l : Layout) : Nat := rowBytes l.w32 l.format l.size0
def Layout.readLen (l : Layout) : Nat := rowBytes l.w32 l.format l.valid0

/-- What R350 adds for layouts of key pages. -/
def Layout.summaryBad (l : Layout) : Bool :=
  l.size1 != 64 || l.size3 != 1 || 128 < l.size0 ||
  !(l.w32 || l.format == 0x0 || l.format == 0x1 || l.format == 0x7 || l.format == 0x8) ||
  l.stride1 ≤ 0 || l.stride1 % 16 != 0 || l.stride2 ≤ 0 || l.stride2 % 16 != 0 ||
  l.stride1 < l.rowLen || l.stride2 < 64 * l.stride1 + 512

/-- A bad layout (R297, R350). -/
def Layout.bad (l : Layout) (rsv : Nat) : Bool :=
  l.size0 == 0 || l.size1 == 0 || l.size2 == 0 || l.size3 == 0 || 4096 < l.size0 || l.size0 < l.valid0 ||
  l.size1 < l.valid1 || 2 ≤ l.bank || l.block == 3 || rsv != 0 || (l.w32 && l.format != 0) ||
  (!l.w32 && (l.size0 % groupOf l.format != 0 || l.valid0 % groupOf l.format != 0)) ||
  (l.summary && l.summaryBad)

/-- Layout record `idx` of a job, or the cause that R297 and R189 give. -/
def State.layoutAt (s : State) (core : Nat) (j : Job) (idx : Nat) : Except Bad Layout :=
  if j.rec_.layoutSize / 32 ≤ idx then .error ⟨.handleFormat, 0, none⟩
  else
    let va := j.rec_.layoutBase + 32 * idx
    match s.vread core j.rec_.ctx va 32 needR with
    | .error (at_, e) => .error ⟨e.cause, at_, some (3, at_, e)⟩
    | .ok bs => if (layoutOf bs).bad (layoutRsv bs) then .error ⟨.handleFormat, 0, none⟩ else .ok (layoutOf bs)

/-- Reading a layout record leaves its translation behind, and claims a first-use page (R402, R405). -/
def State.touchLayout (s : State) (core : Nat) (j : Job) (idx : Nat) : State :=
  if j.rec_.layoutSize / 32 ≤ idx then s else s.touchSpan core j.rec_.ctx (j.rec_.layoutBase + 32 * idx) 32

/-! ### Positions (R296) -/

/-- Row r of a layout starts at this memory address. -/
def Layout.rowAddr (l : Layout) (addr r : Nat) : Nat :=
  let i1 := r % l.size1
  let i2 := r / l.size1 % l.size2
  let i3 := r / l.size1 / l.size2
  ofSigned 64 ((addr : Int) + i1 * l.stride1 + i2 * l.stride2 + i3 * l.stride3)

/-- Bits of the unit that padding repeats. -/
def Layout.padUnit (l : Layout) : Nat :=
  if l.w32 then 32 else match l.format with
    | 0xD => 8
    | 0xF => 16
    | f => fmtBits f

/-- The padding byte at column byte `c` of a row. -/
def Layout.padByte (l : Layout) (c : Nat) : Byte :=
  BitVec.ofNat 8 ((List.range 8).foldl (fun acc i => acc + 2 ^ i * (natBit l.pad ((8 * c + i) % l.padUnit)).toNat) 0)

/-- A piece of a tile side: bytes from memory, or padding. -/
inductive Piece where
  | mem (off va n : Nat)
  | pad (off : Nat) (bytes : List Byte)
deriving DecidableEq, Repr

/-- The pieces of tile bytes [lo, hi) that row `r` holds; `base` is the row's tile byte. -/
def Layout.rowPieces (l : Layout) (addr r base lo hi : Nat) : List Piece :=
  let a := max lo base - base
  let b := min hi (base + l.rowLen) - base
  let v := if r % l.size1 < l.valid1 then l.readLen else 0
  (if a < min b v then [.mem (base + a) ((l.rowAddr addr r + a) % 2 ^ 64) (min b v - a)] else []) ++
  (if max a v < b then [.pad (base + max a v) ((List.range (b - max a v)).map fun i => l.padByte (max a v + i))] else [])

/-- The rows of pitch `p` that bytes [lo, hi) touch. -/
def rowsIn (p lo hi : Nat) : List Nat := if hi ≤ lo then [] else (List.range ((hi - 1) / p - lo / p + 1)).map (lo / p + ·)

/-- The pieces of tile bytes [lo, hi) under a layout. -/
def Layout.pieces (l : Layout) (addr lo hi : Nat) : List Piece :=
  (rowsIn l.pitch lo hi).flatMap fun r => l.rowPieces addr r (r * l.pitch) lo hi

/-- Rows with bytes in memory, and the source row that is number `v` among them. -/
def Layout.validRows (l : Layout) : Nat := if l.valid0 = 0 then 0 else l.valid1 * l.size2 * l.size3
def Layout.validRow (l : Layout) (v : Nat) : Nat := v % l.valid1 + l.size1 * (v / l.valid1)

/-- The bounding range of the bytes in memory, as integers; none where there are none. -/
def Layout.bounds (l : Layout) (addr : Nat) : Option (Int × Int) :=
  if l.valid0 = 0 ∨ l.valid1 = 0 then none
  else
    let ends : List Int := [l.stride1 * (l.valid1 - 1 : Nat), l.stride2 * (l.size2 - 1 : Nat), l.stride3 * (l.size3 - 1 : Nat)]
    some (ends.foldl (fun acc x => acc + min 0 x) (addr : Int), ends.foldl (fun acc x => acc + max 0 x) (addr : Int) + l.readLen)

/-- SB(p): the summary record of page `p`. -/
def Layout.sumAddr (l : Layout) (addr p : Nat) : Nat := ofSigned 64 ((addr : Int) + p * l.stride2 + 64 * l.stride1)

/-- The range that a drain writes: its bytes, and the summary records of the pages it touches (R352). -/
def Layout.drainBounds (l : Layout) (addr : Nat) : Option (Int × Int) :=
  (l.bounds addr).map fun (lo, hi) =>
    if l.summary then (lo, max hi ((addr : Int) + (l.size2 - 1 : Nat) * l.stride2 + 64 * l.stride1 + 512)) else (lo, hi)

/-- Every byte of a bounding range is declared (R302). -/
def Task.declaresRange (t : Task) (k : AccKind) : Option (Int × Int) → Bool
  | none => true
  | some (lo, hi) => 0 ≤ lo && hi ≤ 2 ^ 64 && t.declares k lo.toNat (hi - lo).toNat

/-- The lock of a bounding range of global memory. -/
def rangeSpan (ctx : Nat) : Option (Int × Int) → List Span
  | none => []
  | some (lo, hi) => [.global ctx lo.toNat hi.toNat]

/-! ### What an operation amounts to (R299) -/

/-- Destination bytes. -/
def OpKind.total : OpKind → Nat
  | .stage _ l _ => l.rows * l.pitch
  | .drain _ l _ _ _ => l.validRows * l.readLen
  | .copy _ _ n _ => n
  | .psel _ _ _ _ np _ _ _ => 16 + 4 * np
  | .pgath _ l _ pages _ => 64 * pages.length * l.pitch
  | .gathl (.record _) e as => e * as.length
  | .gathl (.scratch _) e as => roundUp (e * as.length) 128
  | .scatl _ _ e _ as => e * as.length

/-- Rows whose bytes lie wholly within the first `n` destination bytes, in row order. -/
def OpKind.rowsDone (k : OpKind) (n : Nat) : Nat :=
  match k with
  | .stage _ l _ => n / l.pitch
  | .drain _ l _ _ _ => if n / l.readLen < l.validRows then l.validRow (n / l.readLen) else l.rows
  | .pgath _ l _ _ _ => n / l.pitch
  | .copy _ _ _ _ | .psel _ _ _ _ _ _ _ _ | .gathl _ _ _ | .scatl _ _ _ _ _ => 0

/-- Rows that the last segment's credit brings the count to. -/
def OpKind.rows : OpKind → Nat
  | .stage _ l _ => l.rows
  | .drain _ l _ _ _ => l.rows
  | .pgath _ _ _ _ rows => rows
  | .copy _ _ _ _ | .psel _ _ _ _ _ _ _ _ | .gathl _ _ _ | .scatl _ _ _ _ _ => 0

/-- Bytes credited. -/
def EngOp.bytes (o : EngOp) : Nat := min o.total (512 * o.credited)

/-- The next segment is the last. -/
def EngOp.atLast (o : EngOp) : Bool := o.total ≤ 512 * o.credited + 512

/-- What crediting the next segment adds to the counter. -/
def EngOp.gain (o : EngOp) (rows : Bool) : Nat :=
  if !rows then 1
  else (if o.atLast then o.kind.rows else o.kind.rowsDone (512 * (o.credited + 1))) - o.kind.rowsDone o.bytes

/-! ### The range-lock table and holds at issue (R298, R301, R324) -/

/-- A new operation, before it holds its descriptor. -/
structure NewOp where
  kind : OpKind
  reads : List Span
  writes : List Span
  credit : Option (Nat × Bool)
  bar : Option Nat
  ringSlot : Option (Nat × Nat)
  region : Bool
deriving DecidableEq, Repr

/-- Sources and destinations overlap a lock that forbids them. -/
def Core.conflicts (c : Core) (reads writes : List Span) (skip : Nat → Bool) : Bool :=
  c.locks.any fun l => !skip l.op &&
    (writes.any (l.span.hits ·) || (l.write && reads.any (l.span.hits ·)))

/-- Rows of a W tile that a loaded plane holds (R324). N is 64 for 16-bit weights and 128 otherwise (R322). -/
def Plane.span (p : Plane) : Option Span :=
  match p.st with
  | .empty => Option.none
  | .loaded =>
    let n := if p.desc.format = 7 ∨ p.desc.format = 8 then 64 else 128
    some (.tile p.record (p.row * p.desc.pitch) ((p.row + n) * p.desc.pitch))

/-- A destination overlaps the rows of a loaded plane. -/
def Core.planeHeld (c : Core) (writes : List Span) : Bool :=
  [c.mx.active, c.mx.shadow].any fun p => match p.span with
    | some sp => writes.any (sp.hits ·)
    | none => false

/-- No descriptor is free, or the table of 256 ranges is full (R298, R301). -/
def Core.opFull (c : Core) (n : NewOp) : Bool :=
  1024 ≤ c.ops.length || 256 < c.locks.length + n.reads.length + n.writes.length

/-- There is no room, or a range conflicts. -/
def Core.opHeld (c : Core) (n : NewOp) : Bool :=
  c.opFull n || c.conflicts n.reads n.writes (fun _ => false) || c.planeHeld n.writes

/-- The operation's own source and destination overlap (R301). -/
def NewOp.selfLocked (n : NewOp) : Bool := n.writes.any fun w => n.reads.any (w.hits ·)

/-- The lowest free copy descriptor. -/
def Core.freeDesc (c : Core) : Nat :=
  ((List.range (c.ops.length + 1)).find? fun d => !c.ops.any (·.desc == d)).getD 0

/-- A record is FILLING from the issue of an operation that writes it (R292). -/
def Core.startFill (c : Core) (r : Nat) : Core :=
  c.modRec r fun x => if x.st = .allocated || x.st = .valid then { x with st := .filling } else x

/-- Lines of a scratchpad destination become pending (R225). -/
def Core.startLines (c : Core) (k : OpKind) : Core :=
  match k.scratchDst with
  | none => c
  | some off => (scratchLines off k.total).foldl (fun c x => c.setLine x .pending) c

/-- Direction of an operation over a ring's slot, from the slot's view. -/
def OpKind.fills : OpKind → Bool
  | .drain _ _ _ _ _ => false
  | _ => true

/-- Enter an accepted operation: descriptor, locks, and the state changes of R292 and R307. An operation with no bytes
completes at issue and credits nothing (R299). -/
def State.startOp (s : State) (t : Task) (n : NewOp) : State :=
  if n.kind.total = 0 then
    let s := match n.ringSlot with
      | some (r, k) => s.modCore t.core fun c => c.setSlot r k (if n.kind.fills then .full else .empty)
      | none => s
    match n.kind.writes with
    | some r => s.modCore t.core fun c => (c.startFill r).settleRec r
    | none => s
  else
    let (u, s) := s.fresh
    let o : EngOp := { uid := u, desc := (s.core t.core).freeDesc, owner := t.uid, kind := n.kind, region := n.region,
                       total := n.kind.total, credited := 0, credit := n.credit, bar := n.bar, ringSlot := n.ringSlot,
                       paused := false, sent := false, pc := t.warp.pc, flags := 0, list := [] }
    s.modCore t.core fun c =>
      let c := { c with ops := c.ops ++ [o],
                        locks := c.locks ++ n.reads.map (Lock.mk u · false) ++ n.writes.map (Lock.mk u · true) }
      let c := c.startLines n.kind
      let c := match n.kind.writes with
        | some r => c.startFill r
        | none => c
      match n.ringSlot with
      | some (r, k) => c.setSlot r k (if n.kind.fills then .filling else .draining)
      | none => c

/-! ### Memory as an engine reaches it (R303, R316) -/

/-- Why a segment does not complete: a fault at an address, an unreachable destination, or a wait. -/
inductive SegStop where
  | fault (va : Nat) (latch : Option XErr)
  | unreachable (va : Nat)
  | wait
deriving DecidableEq, Repr

abbrev Seg := Except SegStop

/-- The first line of a piece that memory cannot deliver, by its virtual address. -/
def State.badIn (s : State) (a pa k : Nat) : Option Nat :=
  ((linesOf pa k).find? (s.badLine ·)).map fun l => a / 64 * 64 + 64 * (l - pa / 64)

/-- What stops an engine's access of [va, va + n); `reads`: it needs what memory holds there. -/
def State.engStop (s : State) (core ctx : Nat) (nd : Need) (reads : Bool) (va n : Nat) : Option SegStop :=
  if (pieces va n).any fun (a, _) => s.accessWaits core ctx a then some .wait
  else match s.firstBad core ctx nd (pieces va n) with
  | some (a, e) => some (.fault a (some e))
  | none =>
    let ps := (pieces va n).map fun (a, k) => (a, (match s.leafOf core ctx a with
      | .ok f => (f.ent.pbase + (a - f.ent.vbase), f.zfu)
      | .error _ => (0, true)), k)
    if ps.any fun (_, (pa, _), k) => (linesOf pa k).any fun l => s.notReady (64 * l) then some .wait
    else if reads then
      (ps.findSome? fun (a, (pa, zfu), k) => if zfu then none else s.badIn a pa k).map fun va => .fault va none
    else none

/-- Read bytes at the home slices. -/
def State.engRead (s : State) (core ctx va n : Nat) (nd : Need := needR) : Seg (State × List Byte) :=
  match s.engStop core ctx nd true va n with
  | some x => .error x
  | none =>
    let s := s.touchAll core ctx ((pieces va n).map (·.1))
    match s.vread core ctx va n nd with
    | .ok bs => .ok (s, bs)
    | .error (a, e) => .error (.fault a (some e))

/-- The core's own copies of words of [va, va + n) that were written at their home slices are no longer valid. -/
def State.forgetVa (s : State) (core ctx va n : Nat) : State :=
  (pieces va n).foldl (fun s (a, k) => match s.leafOf core ctx a with
    | .ok f => s.modCore core (·.forget (f.ent.pbase + (a - f.ent.vbase)) k)
    | .error _ => s) s

/-- Write bytes at the home slices. -/
def State.engWrite (s : State) (core ctx va : Nat) (bs : List Byte) : Seg State :=
  match s.engStop core ctx needW false va bs.length with
  | some x => .error x
  | none => match s.vwrite core ctx va bs needW with
    | .ok s => .ok (s.forgetVa core ctx va bs.length)
    | .error (a, e) => .error (.fault a (some e))

/-- Read the pieces of a segment from memory, padding included: what goes where on the tile side. -/
def State.readPieces (s : State) (core ctx : Nat) : List Piece → Seg (State × List (Nat × List Byte))
  | [] => .ok (s, [])
  | .pad off bs :: ps =>
    match State.readPieces s core ctx ps with
    | .error e => .error e
    | .ok (s, ws) => .ok (s, (off, bs) :: ws)
  | .mem off va n :: ps =>
    match s.engRead core ctx va n with
    | .error e => .error e
    | .ok (s, bs) => match State.readPieces s core ctx ps with
      | .error e => .error e
      | .ok (s, ws) => .ok (s, (off, bs) :: ws)

/-- The first of several writes that stops a segment; `reads`: what memory holds there is read for the update. -/
def State.stopOf (s : State) (core ctx : Nat) (reads : Bool) (xs : List (Nat × Nat)) : Option SegStop :=
  xs.findSome? fun (va, n) => s.engStop core ctx needW reads va n

/-- Write bytes at several places. -/
def State.writeAll (s : State) (core ctx : Nat) : List (Nat × List Byte) → Seg State
  | [] => .ok s
  | (va, bs) :: ws =>
    match s.engWrite core ctx va bs with
    | .error e => .error e
    | .ok s => State.writeAll s core ctx ws

/-! ### The tile side -/

/-- Bytes of the tile side at an offset of it. -/
def Core.sideBytes (c : Core) (x : Side) (off n : Nat) : List Byte :=
  match x with
  | .scratch base => c.scratchBytes (base + off) n
  | .record r => match c.rec? r with
    | some h => c.tileBytes h off n
    | none => []

/-- Bytes written on the tile side; none falls outside a tile's own bytes (notes/assumptions/64.md). -/
def Core.sidePut (c : Core) (x : Side) (off : Nat) (bs : List Byte) : Core :=
  match x with
  | .scratch base => { c with scratch := spPutBlock c.scratch (base + off) bs }
  | .record r => match c.rec? r with
    | some h => c.tilePut h off (bs.take (h.desc.extent - off))
    | none => c

def Core.sidePutAll (c : Core) (x : Side) (ws : List (Nat × List Byte)) : Core :=
  ws.foldl (fun c (off, bs) => c.sidePut x off bs) c

/-! ### Drains (R317, R352) -/

/-- The float format that a format code's elements have. -/
def codeFmt (f : Nat) : FFmt :=
  match f with
  | 0x0 | 0x9 => .e4m3
  | 0x1 => .e5m2
  | 0x2 => .e3m2
  | 0x3 | 0xA => .e2m3
  | 0x7 => .bf16
  | 0x8 => .fp16
  | _ => .e2m1

/-- A drain from an accumulator type through a layout is one of R317's. -/
def drainPair (acc : Nat) (l : Layout) : Bool :=
  l.w32 || (acc == 0 && (l.format == 0 || l.format == 1 || l.format == 7 || l.format == 8)) || (acc == 1 && l.format == 5)

/-- One accumulator as a drain writes it. -/
def drainElem (l : Layout) (acc : Nat) (rm : RM) (sat : Bool) (x : Nat) : FRes :=
  if l.w32 then ⟨x, 0⟩
  else if acc = 0 then (codeFmt l.format).round rm sat (FFmt.fp32.decode x)
  else clampBits 8 (toSigned 32 x)

/-- Bytes of one element of a layout that a drain converts to. -/
def Layout.elemLen (l : Layout) : Nat := if l.w32 then 4 else fmtBits l.format / 8

/-- The bytes that a drain writes for bytes [a, b) of a row's image, with flags. -/
def Core.drainRow (c : Core) (src : Side) (l : Layout) (rm : RM) (sat : Bool) (r a b : Nat) : List Byte × BitVec 32 :=
  match src with
  | .scratch _ => (c.sideBytes src (r * l.pitch + a) (b - a), 0)
  | .record h => match c.rec? h with
    | none => ([], 0)
    | some x =>
      let e := l.elemLen
      let rs := (List.range ((b - a) / e)).map fun i =>
        drainElem l x.desc.format rm sat (natOf (c.tileBytes x (r * x.desc.pitch + 4 * (a / e + i)) 4))
      (rs.flatMap fun y => bytesOf e y.code, rs.foldl (fun f y => f ||| y.flags) 0)

/-- The rows of a drain that destination bytes [lo, hi) touch: source row, and the bytes of its image. -/
def Layout.drainRows (l : Layout) (lo hi : Nat) : List (Nat × Nat × Nat) :=
  (rowsIn l.readLen lo hi).map fun v =>
    (l.validRow v, max lo (v * l.readLen) - v * l.readLen, min hi ((v + 1) * l.readLen) - v * l.readLen)

/-- The value of an element of a key page. -/
def Layout.keyVal (l : Layout) (code : Nat) : FVal := (if l.w32 then FFmt.fp32 else codeFmt l.format).decode code

/-- Lesser, and Greater with `max`, of BF16 codes: a NaN entry stays, and -0 is below +0 (R352). -/
def keepBest (max : Bool) (entry x : Nat) : Nat :=
  if (FFmt.bf16.decode entry).isNan then entry
  else if (FFmt.bf16.decode x).isNan then x
  else (fminmax FFmt.bf16 max false entry x).code

/-- MIN and MAX of a channel after an element (R352). -/
def widenEntry (l : Layout) (code : Nat) (e : Nat × Nat) : Nat × Nat :=
  let v := l.keyVal code
  if v.isNan then (0x7FC0, 0x7FC0)
  else (keepBest false e.1 (FFmt.bf16.round .rd false v).code, keepBest true e.2 (FFmt.bf16.round .ru false v).code)

/-- The two addresses of a channel's entries. -/
def entryAddrs (sb ch : Nat) : Nat × Nat := ((sb + 2 * ch) % 2 ^ 64, (sb + 256 + 2 * ch) % 2 ^ 64)

/-- One entry read for an update at its home slice: summary widening needs W alone (R401). -/
def State.readEntry (s : State) (core ctx va : Nat) : Seg (State × Nat) :=
  match s.engRead core ctx va 2 needW with
  | .ok (s, bs) => .ok (s, natOf bs)
  | .error e => .error e

/-- Widen the summary of a page by an element at a channel. -/
def State.widen (s : State) (core ctx sb ch : Nat) (l : Layout) (code : Nat) : Seg State :=
  let (a, b) := entryAddrs sb ch
  match s.readEntry core ctx a with
  | .error e => .error e
  | .ok (s, lo) => match s.readEntry core ctx b with
    | .error e => .error e
    | .ok (s, hi) =>
      let (lo', hi') := widenEntry l code (lo, hi)
      s.writeAll core ctx [(a, bytesOf 2 lo'), (b, bytesOf 2 hi')]

/-- Widen by a list of elements: summary address, channel, code. -/
def State.widenAll (s : State) (core ctx : Nat) (l : Layout) : List (Nat × Nat × Nat) → Seg State
  | [] => .ok s
  | (sb, ch, code) :: xs =>
    match s.widen core ctx sb ch l code with
    | .error e => .error e
    | .ok s => State.widenAll s core ctx l xs

/-- The elements of bytes written from column byte `a` of source row `r`. -/
def Layout.written (l : Layout) (addr r a : Nat) (bs : List Byte) : List (Nat × Nat × Nat) :=
  let e := l.elemLen
  (List.range (bs.length / e)).map fun i =>
    (l.sumAddr addr (r / l.size1 % l.size2), a / e + i, natOf ((bs.drop (e * i)).take e))

/-- The entries of elements: virtual address and length. -/
def entrySpans (els : List (Nat × Nat × Nat)) : List (Nat × Nat) :=
  els.flatMap fun (sb, ch, _) => [((entryAddrs sb ch).1, 2), ((entryAddrs sb ch).2, 2)]

/-- A drain's segment. -/
def State.segDrain (s : State) (core ctx : Nat) (src : Side) (l : Layout) (addr : Nat) (rm : RM) (sat : Bool)
    (lo hi : Nat) : Seg (State × BitVec 32) :=
  let rows := (l.drainRows lo hi).map fun (r, a, b) => (r, a, (s.core core).drainRow src l rm sat r a b)
  let flags := rows.foldl (fun f (_, _, (_, g)) => f ||| g) 0
  let ws := rows.map fun (r, a, (bs, _)) => ((l.rowAddr addr r + a) % 2 ^ 64, bs)
  let els := if l.summary then rows.flatMap fun (r, a, (bs, _)) => l.written addr r a bs else []
  let entries := entrySpans els
  -- the segment is checked whole before a byte of it moves
  match s.stopOf core ctx false (ws.map fun (va, bs) => (va, bs.length)), s.stopOf core ctx true entries with
  | some x, _ => .error x
  | none, some x => .error x
  | none, none =>
    match s.writeAll core ctx ws with
    | .error e => .error e
    | .ok s => match s.widenAll core ctx l els with
      | .ok s => .ok (s, flags)
      | .error e => .error e

/-! ### PSEL (R351, R354, R355) -/

/-- Channel bounds of a page, from its summary record: MIN and MAX. -/
def channelsOf (bs : List Byte) (d : Nat) : List (Nat × Nat) :=
  (List.range d).map fun i => (natOf ((bs.drop (2 * i)).take 2), natOf ((bs.drop (256 + 2 * i)).take 2))

/-- x > y, comparing as FMNMX does, with -0 below +0. -/
def bf16Above (x y : Nat) : Bool :=
  !(FFmt.bf16.decode x).isNan && !(FFmt.bf16.decode y).isNan && x % 2 ^ 16 != y % 2 ^ 16 &&
  (fminmax FFmt.bf16 true false x y).code == x % 2 ^ 16

/-- A channel is empty (R351). -/
def emptyChannel (e : Nat × Nat) : Bool := bf16Above e.1 e.2

/-- Greater(q × MIN, q × MAX), rounded upward into FP32; Greater keeps a NaN (R352). -/
def boundTerm (q : Nat) (e : Nat × Nat) : Nat :=
  let f (x : Nat) : FVal := (fmul (FFmt.bf16.decode q) (FFmt.bf16.decode x)).val
  let a := f e.1
  let b := f e.2
  let g := if a.isNan then a else if b.isNan then b else if fless a b || (fequal a b && a.neg) then b else a
  (FFmt.fp32.round .ru false g).code

/-- The bound of a page with `invalid`; none for an empty page. -/
def pageBound (q : List Nat) (chs : List (Nat × Nat)) : Option (Nat × Bool) :=
  if chs.all emptyChannel then none
  else
    let isNan (x : Nat) : Bool := (FFmt.bf16.decode x).isNan
    let step (acc : Nat × Bool) (x : Nat × (Nat × Nat)) : Nat × Bool :=
      let nan := acc.2 || isNan x.1 || isNan x.2.1 || isNan x.2.2
      let t := if emptyChannel x.2 || x.1 % 2 ^ 15 == 0 then 0 else boundTerm x.1 x.2
      ((FFmt.fp32.finish .ru (fadd .ru (FFmt.fp32.decode acc.1) (FFmt.fp32.decode t))).code, nan)
    let (b, nan) := (q.zip chs).foldl step (0, false)
    if nan || (FFmt.fp32.decode b).isNan then some (0x7F800000, true) else some (b, false)

/-- a ranks before b: the greater bound, then the lower page. -/
def rankBefore (a b : Nat × Nat) : Bool :=
  let x := FFmt.fp32.decode a.2
  let y := FFmt.fp32.decode b.2
  fless y x || (!fless x y && a.1 < b.1)

/-- The gather list of the bounds of pages (R355). -/
def gatherList (np thr k : Nat) (bounds : List (Nat × Nat)) : List Byte :=
  let ranked := sortBy rankBefore bounds
  let top := (ranked.take k).map (·.1)
  let reach (b : Nat) : Bool :=
    let t := FFmt.fp32.decode thr
    let x := FFmt.fp32.decode b
    !t.isNan && !fless x t
  let chosen := (bounds.filter fun x => top.contains x.1 || reach x.2).map (·.1)
  let kth := if k = 0 ∨ bounds.length < k then 0xFF800000 else ((ranked[k - 1]?).map (·.2)).getD 0xFF800000
  bytesOf 4 chosen.length ++ bytesOf 4 bounds.length ++ bytesOf 4 kth ++ bytesOf 4 0 ++
  chosen.flatMap (bytesOf 4 ·) ++ bytesOf (4 * (np - chosen.length)) 0

/-- Read the summaries of pages and form their bounds: non-empty pages with bounds, and `invalid`. -/
def State.pageBounds (s : State) (core ctx : Nat) (l : Layout) (addr : Nat) (q : List Nat) :
    List Nat → Seg (State × List (Nat × Nat) × Bool)
  | [] => .ok (s, [], false)
  | p :: ps =>
    match s.engRead core ctx (l.sumAddr addr p) 512 with
    | .error e => .error e
    | .ok (s, bs) =>
      match State.pageBounds s core ctx l addr q ps with
      | .error e => .error e
      | .ok (s, xs, inv) =>
        match pageBound q (channelsOf bs l.size0) with
        | none => .ok (s, xs, inv)
        | some (b, i) => .ok (s, (p, b) :: xs, inv || i)

/-! ### SCATL and GATHL segments (R358, R359) -/

/-- Read the elements of a gather's segment. -/
def State.readElems (s : State) (core ctx e : Nat) : List Nat → Seg (State × List Byte)
  | [] => .ok (s, [])
  | a :: as =>
    match s.engRead core ctx a e with
    | .error x => .error x
    | .ok (s, bs) => match State.readElems s core ctx e as with
      | .error x => .error x
      | .ok (s, rest) => .ok (s, bs ++ rest)

/-- Device-physical address of an address that passed its checks. -/
def State.paAt (s : State) (core ctx va : Nat) : Nat :=
  match s.leafOf core ctx va with
  | .ok f => f.ent.pbase + (va - f.ent.vbase)
  | .error _ => 0

/-- Apply a scatter's elements in order: a store, or an addition as RED.ADD adds it. -/
def State.scatElems (s : State) (core ctx : Nat) (ty : Option Ty) : List (Nat × List Byte) → State
  | [] => s
  | (a, bs) :: xs =>
    let s := s.touch core ctx a
    let pa := s.paAt core ctx a
    let s := match ty with
      | none => (s.perform none pa bs).modCore core (·.forget pa bs.length)
      | some ty => s.performRed core pa .add ty (natOf bs)
    State.scatElems s core ctx ty xs

/-- The contributions of a scatter's segment (R277, R278), its elements from number `first` on: made all, or held. -/
def State.scatContribs (s : State) (t : Task) (idx first : Nat) (xs : List (Nat × List Byte)) : Seg State :=
  match s.job? t.job with
  | none => .error .wait
  | some j =>
    let s := s.touchAll t.core j.rec_.ctx (xs.map (·.1))
    let cs := xs.mapIdx fun i (a, bs) =>
      let pa := s.paAt t.core j.rec_.ctx a
      { t.contrib pa (s.sliceOf t a pa) 0 (natOf bs) with idx := BitVec.ofNat 32 idx, elem := first + i }
    if s.contribRoom j (cs.map (·.slice)) then .ok (cs.foldl (fun s c => s.contribute t.core j c) s) else .error .wait

/-! ### One segment -/

/-- What a segment leaves: the state, flags, and a PSEL's list. -/
structure SegDone where
  s : State
  flags : BitVec 32
  list : List Byte
deriving DecidableEq, Repr

/-- Elements of [lo, hi) of a list of `e`-byte elements. -/
def elemsIn {α : Type} (e lo hi : Nat) (l : List α) : List α := (l.drop (lo / e)).take (ceilDiv (hi - lo) e)

/-- Bytes of a gather's segment: elements, then the zero fill. -/
def padTo (n : Nat) (bs : List Byte) : List Byte := bs ++ List.replicate (n - bs.length) 0

/-- The ports towards a node: those of its mask that the part has (R418). -/
def State.portsTo (s : State) (n : Nat) : List Nat :=
  (List.range s.part.herricPorts).filter fun i => (spGet s.pregs.route n).getLsbD i

/-- The port that segment `k` of a remote copy takes: its segments go over the mask's ports in turn. DESIGN CHOICE: the
spec leaves the order of the stripes open (notes/assumptions/68.md). -/
def State.portFor (s : State) (n k : Nat) : Nat := ((s.portsTo n)[k % (s.portsTo n).length]?).getD 0

/-- Perform the next segment of an operation (R299, R316, R318, R352, R355 to R359). -/
def State.segment (s : State) (core : Nat) (t : Task) (o : EngOp) : Seg SegDone :=
  let ctx := s.ctxOf t
  let lo := o.bytes
  let hi := min o.total (lo + 512)
  let put (x : Side) (r : Seg (State × List (Nat × List Byte))) : Seg SegDone := match r with
    | .error e => .error e
    | .ok (s, ws) => .ok ⟨s.modCore core (·.sidePutAll x ws), 0, []⟩
  match o.kind with
  | .stage d l addr => put d (s.readPieces core ctx (l.pieces addr lo hi))
  | .pgath r l addr pages _ =>
    -- tile row 64 j + i holds row i of the j-th page
    put (.record r) (s.readPieces core ctx ((rowsIn l.pitch lo hi).flatMap fun q =>
      l.rowPieces addr (64 * (pages[q / 64]?.getD 0) + q % 64) (q * l.pitch) lo hi))
  | .drain x l addr rm sat =>
    (match s.segDrain core ctx x l addr rm sat lo hi with
     | .error e => .error e
     | .ok (s, f) => .ok ⟨s, f, []⟩)
  | .copy d a _ node =>
    (match s.engRead core ctx ((a + lo) % 2 ^ 64) (hi - lo) with
     | .error e => .error e
     | .ok (s, bs) =>
       match node with
       | some n => .ok ⟨{ s with outs := s.outs ++ [.herric (s.portFor n o.credited) n ((d + lo) % 2 ^ 64) bs] }, 0, []⟩
       | none => match s.engWrite core ctx ((d + lo) % 2 ^ 64) bs with
         | .error e => .error e
         | .ok s => .ok ⟨s, 0, []⟩)
  | .psel list l addr first np query thr k =>
    let done (s : State) (f : BitVec 32) (bs : List Byte) : Seg SegDone :=
      .ok ⟨s.modCore core (·.sidePut (.scratch list) lo ((bs.drop lo).take (hi - lo))), f, bs⟩
    if 0 < o.credited then done s 0 o.list
    else
      let q := (List.range l.size0).map fun i => natOf ((s.core core).scratchBytes (query + 2 * i) 2)
      (match s.pageBounds core ctx l addr q ((List.range np).map (first + ·)) with
       | .error e => .error e
       | .ok (s, bs, inv) => done s (flagIf inv fInvalid) (gatherList np thr k bs))
  | .gathl x e as =>
    (match s.readElems core ctx e (elemsIn e lo hi as) with
     | .error e => .error e
     | .ok (s, bs) => .ok ⟨s.modCore core (·.sidePut x lo (padTo (hi - lo) bs)), 0, []⟩)
  | .scatl off mode e idx as =>
    let xs := (elemsIn e lo hi as).mapIdx fun i a => (a, (s.core core).scratchBytes (off + lo + e * i) e)
    (match s.stopOf core ctx false (xs.map fun (a, _) => (a, e)) with
     | some x => .error x
     | none => match mode with
       | .plain => .ok ⟨s.scatElems core ctx none xs, 0, []⟩
       | .addN32 => .ok ⟨s.scatElems core ctx (some .n32) xs, 0, []⟩
       | .addN64 => .ok ⟨s.scatElems core ctx (some .n64) xs, 0, []⟩
       | .addF32 => match s.scatContribs t idx (lo / e) xs with
         | .error e => .error e
         | .ok s => .ok ⟨s, 0, []⟩)

/-! ### Credits and completion (R299) -/

/-- Lines whose last byte has landed, and that no operation still fills, are present (R225). -/
def Core.landLines (c : Core) (lines : List Nat) : Core :=
  lines.foldl (fun c x => if c.lineSt x = .pending && !c.filling x then c.setLine x .present else c) c

/-- The lines that the bytes [lo, hi) of an operation's scratchpad destination touch. -/
def EngOp.linesAt (o : EngOp) (lo hi : Nat) : List Nat :=
  match o.kind.scratchDst with
  | some off => scratchLines (off + lo) (hi - lo)
  | none => []

def Core.modOp (c : Core) (u : Nat) (f : EngOp → EngOp) : Core := { c with ops := mapFirst (·.uid == u) f c.ops }

/-- Remove a completed operation with its locks, and change its record and its slot. -/
def Core.completeOp (c : Core) (o : EngOp) : Core :=
  let c := { c with ops := c.ops.filter (·.uid != o.uid) }.dropLocks o.uid
  let c := match o.kind.writes with
    | some r => c.settleRec r
    | none => c
  match o.ringSlot with
  | some (r, k) => c.setSlot r k (if o.kind.fills then .full else .empty)
  | none => c

/-- The summary entries that bytes [lo, hi) of a drain widen (R352). -/
def Layout.widenedTo (l : Layout) (addr lo hi : Nat) : List (Nat × Nat) :=
  if l.summary then
    entrySpans ((l.drainRows lo hi).flatMap fun (r, a, b) => l.written addr r a (List.replicate (b - a) 0))
  else []

/-- The global bytes that bytes [lo, hi) of an operation's destination are written to, for the issuing task's own
stores (R244, R245): virtual address and length. -/
def OpKind.storesTo (k : OpKind) (lo hi : Nat) : List (Nat × Nat) :=
  match k with
  | .drain _ l addr _ _ => ((l.drainRows lo hi).map fun (r, a, b) => ((l.rowAddr addr r + a) % 2 ^ 64, b - a)) ++
    l.widenedTo addr lo hi
  | .copy d _ _ none => [((d + lo) % 2 ^ 64, hi - lo)]
  | .scatl _ mode e _ as => (match mode with
    | .plain | .addN32 | .addN64 => (elemsIn e lo hi as).map (·, e)
    | .addF32 => [])
  | .copy _ _ _ (some _) | .stage _ _ _ | .psel _ _ _ _ _ _ _ _ | .pgath _ _ _ _ _ | .gathl _ _ _ => []

/-- A task's own stores by the device, at virtual addresses with lengths. -/
def State.noteVas (s : State) (core u : Nat) (l : List (Nat × Nat)) : State :=
  match s.task? u with
  | none => s
  | some t =>
    if t.regions.isEmpty then s
    else s.noteStores u (l.flatMap fun (va, n) => (pieces va n).map fun (a, k) => (a, s.paAt core (s.ctxOf t) a, k))

/-- A segment has stored for the operation's owner. -/
def State.noteSeg (s : State) (core : Nat) (o : EngOp) (lo hi : Nat) : State :=
  s.noteVas core o.owner (o.kind.storesTo lo hi)

/-- Credit the next segment of an operation; the last one completes it in the same step. A credit observed on a
barrier is an acquire (R257): the issuing core keeps no copy that an earlier write could have left behind. -/
def State.creditSeg (s : State) (core : Nat) (o : EngOp) (d : SegDone) : State :=
  let lo := o.bytes
  let hi := min o.total (lo + 512)
  let o' := { o with credited := o.credited + 1, sent := false, flags := o.flags ||| d.flags, list := d.list }
  let s := s.modCore core fun c =>
    let c := c.modOp o.uid fun _ => o'
    let c := c.landLines (o.linesAt lo hi)
    match o.credit with
    | some (n, rows) => { c with acnt := spSet c.acnt n (spGet c.acnt n + BitVec.ofNat 32 (o.gain rows)) }
    | none => c
  let s := s.noteSeg core o lo hi
  if !o.atLast then s
  else
    let s := (s.modCore core (·.completeOp o')).orFlags o.owner o'.flags
    match o.bar with
    | some b => (s.acquire core none).dropBar o.owner b
    | none => s

/-- A segment faults (R303): the operation pauses and its owner gets the cause; a staging copy's task is killed
(R208). -/
def State.pauseOp (s : State) (core : Nat) (t : Task) (o : EngOp) (cause : Cause) (va : Nat) (latch : Option XErr) : State :=
  let s := match latch with
    | some e => s.latchXlat core 3 (s.ctxOf t) va e
    | none => s
  if o.region then s.killTask t.uid .copyFault
  else (s.modCore core (·.modOp o.uid fun o => { o with paused := true, sent := false })).post t.uid cause va (some o.uid)

end Sys2Proof.Machine
end

