-- ==== Sys2Proof/Machine/Tile.lean ====
section
/-! DEFINITION. Class 0x8 (13_tiles R285 to R321): handle records and names, the engine operations TSTAGE, TDRAIN and
TCOPY, rings and their slots, arrival counters. Every instruction is group-wide; the warp's next one issues when it
completes (R311). -/

namespace Sys2Proof.Machine

/-- Raise the cause that ranks first among those of a group-wide instruction (R228). -/
def raiseOne (bads : List Bad) : M Unit := raiseLanes true (bads.map fun b => (0, b))

/-- A cause without an address. -/
def Bad.of (c : Cause) : Bad := ⟨c, 0, none⟩

/-- A predicate result that R382 records: what the program receives, with a replayed success that is not possible now
waiting until it is. -/
def State.verdict (s : State) (t : Task) (ok : Bool) : M (State × Bool) :=
  match s.logged1 t ⟨8, 0, ok, 0⟩ with
  | .error e => .error e
  | .ok (s, r) => if r.flag && !ok then .error .hold else .ok (s, r.flag)

/-! ### Descriptors (R288, R289) -/

/-- The descriptor of four words. -/
def descOf (w : List Nat) : Desc :=
  let x (i lo n : Nat) : Nat := natBits (w[i]?.getD 0) lo n
  { bank := x 0 0 2, block := x 0 2 2, format := x 0 4 4, rows := x 0 8 12 + 1, cols := x 0 20 12 + 1,
    sh := x 1 31 1 == 1, scale := x 1 0 20, codebook := x 2 0 6, size := x 3 0 11 }

/-- Fields marked RO or RSV that are not zero. -/
def descRsv (w : List Nat) : Bool :=
  let x (i lo n : Nat) : Nat := natBits (w[i]?.getD 0) lo n
  x 1 20 11 != 0 || x 2 6 26 != 0 || x 3 11 21 != 0

/-- STATE codes of R288. -/
def RecSt.code : RecSt → Nat
  | .free => 0 | .allocated => 1 | .filling => 2 | .valid => 3 | .released => 4

/-- The four words that TINFO gives of a record. -/
def HRec.words (r : HRec) : List Nat :=
  let d := r.desc
  [d.bank + 4 * d.block + 16 * d.format + 2 ^ 8 * (d.rows - 1) + 2 ^ 20 * (d.cols - 1),
   d.scale + 2 ^ 31 * d.sh.toNat,
   d.codebook + 2 ^ 16 * r.gen.toNat + 2 ^ 28 * r.st.code,
   d.size + 2 ^ 11 * r.base]

/-- A format that a bank holds (R285). -/
def bankHolds (bank f : Nat) : Bool :=
  match bank with
  | 0 => true
  | 1 => f != 0xD && f != 0xF
  | 2 => f == 0 || f == 1
  | _ => false

/-- The descriptor's own faults (R289), but for the tiles it names. -/
def descBad (d : Desc) (word1 : Nat) : Bool :=
  let scaled := d.bank != 2 && fmtScaled d.format
  let body := d.rows * d.pitch
  !bankHolds d.bank d.format || d.block == 3 || (scaled && !blockOk d.format d.block) || d.extent < body ||
  (scaled && !d.sh && (d.scale < body || d.extent < d.scale + d.rows * d.rowScales)) ||
  (scaled && d.sh && d.scale / 64 != 0) || (!scaled && word1 != 0) || (d.format != 0xF && d.codebook != 0) ||
  (d.bank == 2 && (d.block != 0 || word1 != 0))

/-- The scale tile that a descriptor names. -/
def Desc.scaleName (d : Desc) : Option Nat :=
  if d.bank != 2 && fmtScaled d.format && d.sh then some (d.scale % 64) else Option.none

/-- The codebook tile that a descriptor names. -/
def Desc.bookName (d : Desc) : Option Nat := if d.bank == 0 && d.format == 0xF then some d.codebook else Option.none

/-- What is wrong with a tile that a descriptor names: its name, its bank, its shape. -/
def linkBad (x : Except Cause HRec) (bank : Nat) (ok : HRec → Bool) : List Bad :=
  match x with
  | .error c => [Bad.of c]
  | .ok r =>
    (if r.desc.bank != bank then [Bad.of .handleBankMismatch] else []) ++
    (if r.desc.format != 5 || !ok r then [Bad.of .handleFormat] else [])

/-- Every fault of a descriptor (R289). -/
def State.descBads (s : State) (t : Task) (w : List Nat) : List Bad :=
  let d := descOf w
  (if descRsv w || descBad d (w[1]?.getD 0) then [Bad.of .handleFormat] else []) ++
  (match d.scaleName with
   | some n => linkBad (s.nameRec t n) d.bank fun r => d.rows ≤ r.desc.rows && d.rowScales ≤ r.desc.cols
   | none => []) ++
  (match d.bookName with
   | some n => linkBad (s.nameRec t n) 0 fun r => 768 ≤ r.desc.rows * r.desc.pitch
   | none => [])

/-! ### Records and granules (R286, R290) -/

/-- The record is in use. -/
def Core.recUsed (c : Core) (i : Nat) : Bool := c.recs.any fun r => r.idx == i && r.st != .free

/-- The lowest free record. DESIGN CHOICE: R290 does not say which free record a tile takes (notes/assumptions/80.md). -/
def Core.freeRec (c : Core) : Option Nat := (List.range 512).find? fun i => !c.recUsed i

/-- A run of granules [b, b + n) of a bank is free. -/
def Core.runFree (c : Core) (bank b n : Nat) : Bool :=
  b + n ≤ bankGranules bank &&
  !c.recs.any fun r => r.st != .free && r.desc.bank == bank && r.base < b + n && b < r.base + r.desc.size

/-- The lowest run of free granules. -/
def Core.freeRun (c : Core) (bank n : Nat) : Option Nat := (List.range (bankGranules bank)).find? fun b => c.runFree bank b n

/-- Set the zero bits of granules [b, b + n). -/
def Core.setZero (c : Core) (bank b n : Nat) : Core :=
  { c with zeroed := ((List.range n).map fun i => zeroKey bank (b + i)) ++
      c.zeroed.filter fun k => !(zeroKey bank b ≤ k && k < zeroKey bank (b + n)) }

/-- Put a record in its place in the list. -/
def Core.putRec (c : Core) (r : HRec) : Core :=
  if c.recs.any (·.idx == r.idx) then { c with recs := mapFirst (·.idx == r.idx) (fun _ => r) c.recs }
  else { c with recs := insertBy (fun a b => a.idx < b.idx) r c.recs }

/-- Allocate a tile: a record and the lowest free run, with zero bits set (R286, R290). -/
def Core.allocTile (c : Core) (d : Desc) (scale book : Option Nat) : Option (Core × Nat) :=
  match c.freeRec, c.freeRun d.bank d.size with
  | some i, some b =>
    let gen := ((c.rec? i).map (·.gen)).getD 0
    some ((c.putRec ⟨i, d, .allocated, gen, b, scale, book⟩).setZero d.bank b d.size, i)
  | _, _ => none

/-- The record that a name maps. -/
def Task.recOf (t : Task) (n : Nat) : Option Nat :=
  match t.name n with
  | .mapped r => some r
  | .unmapped | .released => none

def State.setName (s : State) (u n : Nat) (x : Name) : State :=
  s.modTask u fun t => { t with names := alSet t.names n x }

/-- TALLOC (R312). -/
def execTalloc (h : Hdr) (a : TallocArgs) (s : State) : Out' :=
  issue h s (fun _ _ => gKeys a.base.toNat 4) fun s t _ =>
    let refuse : M Eff := match s.verdict t false with
      | .error e => .error e
      | .ok (s, _) => .ok (eff (s.putQ t a.q false))
    if (t.recOf a.h.toNat).isSome then refuse
    else
      let w := (List.range 4).map fun i => (s.readKey t (kg (a.base.toNat + i))).toNat
      let d := descOf w
      match raiseOne (s.descBads t w) with
      | .error e => .error e
      | .ok () =>
        match (s.core t.core).allocTile d (d.scaleName.bind t.recOf) (d.bookName.bind t.recOf) with
        | none => refuse
        | some (c, r) =>
          match s.verdict t true with
          | .error e => .error e
          | .ok (s, ok) =>
            let s := if ok then (s.setCore t.core c).setName t.uid a.h.toNat (.mapped r) else s
            .ok (eff (s.putQ t a.q ok))

/-- THAND (R314). -/
def execThand (h : Hdr) (a : ThandArgs) (s : State) : Out' :=
  issue h s (fun t _ => s.srcKeys t a.m 1 0) fun s t _ =>
    match liftC (s.nameRec t a.h.toNat) with
    | .error e => .error e
    | .ok r =>
      let m := s.src t a.m .n32 0 % 8
      let member := ((s.cohort? t.cohort).bind fun c => if m < c.size then c.members[m]? else none).bind s.task?
      let ok := match member with
        | some x => x.isLive && (x.recOf a.n.toNat).isNone
        | none => false
      match s.verdict t ok with
      | .error e => .error e
      | .ok (s, b) =>
        let s := match b, member with
          | true, some x => (s.setName t.uid a.h.toNat .unmapped).setName x.uid a.n.toNat (.mapped r.idx)
          | _, _ => s
        .ok (eff (s.putQ t a.q b))

/-- TREL (R293, R315). -/
def execTrel (h : Hdr) (a : HandleArgs) (s : State) : Out' :=
  issue h s (fun _ _ => []) fun s t _ =>
    match liftC (s.nameRec t a.h.toNat) with
    | .error e => .error e
    | .ok r => .ok (eff ((s.modCore t.core (·.releaseRec r.idx)).setName t.uid a.h.toNat .released))

/-- What TINFO writes of a name (R313). -/
def State.infoWords (s : State) (t : Task) (n : Nat) : List Nat :=
  match t.name n with
  | .unmapped => [0, 0, 0, 0]
  | .released => [0, 0, 4 * 2 ^ 28, 0]
  | .mapped r => (((s.core t.core).rec? r).map HRec.words).getD [0, 0, 0, 0]

/-- TINFO (R313). -/
def execTinfo (h : Hdr) (a : TinfoArgs) (s : State) : Out' :=
  issue h s (fun _ _ => []) fun s t _ =>
    match s.logged t ((s.infoWords t a.h.toNat).map fun w => ⟨10, 0, false, w⟩) with
    | .error e => .error e
    | .ok (s, rs) =>
      .ok (eff (s.putRegs t (rs.mapIdx fun i r => ⟨kg (a.base.toNat + i), BitVec.ofNat 32 r.val⟩)))

/-! ### Rings and slots (R306 to R308, R319, R320) -/

def Core.ring? (c : Core) (i : Nat) : Option Ring := c.rings.find? (·.idx == i)

/-- The ring that a descriptor gives; none where it breaks R306. DEDUCED: a ring of tiles whose slots would pass h63 breaks
it (notes/assumptions/44.md). -/
def ringOf (i : Nat) (w : List Nat) : Option Ring :=
  let x (k lo n : Nat) : Nat := natBits (w[k]?.getD 0) lo n
  let slots := x 0 0 4 + 1
  let tiles := x 0 4 1 == 1
  let base := x 1 0 32
  let size := x 2 0 32
  let bad := x 0 8 24 != 0 || x 3 0 32 != 0 ||
    (if tiles then base / 64 != 0 || size != 0 || 64 < base % 64 + slots
     else base % 128 != 0 || size % 128 != 0 || size == 0 || scratchSize < base + slots * size)
  if bad then none
  else some ⟨i, slots, tiles, x 0 5 3 + 1, base, size, [], List.replicate slots (.empty, 0)⟩

/-- A slot of the ring is FILLING or DRAINING. -/
def Core.ringBusy (c : Core) (i : Nat) : Bool :=
  match c.ring? i with
  | some r => r.states.any fun (st, _) => st == .filling || st == .draining
  | none => false

/-- The records that a ring's slots name. -/
def State.ringRecs (s : State) (t : Task) (r : Ring) : List (Except Cause HRec) :=
  if r.tiles then (List.range r.slots).map fun k => s.nameRec t (r.base + k) else []

def okCause (x : Except Cause HRec) : Option Cause :=
  match x with
  | .error c => some c
  | .ok _ => none

def okRec (x : Except Cause HRec) : Option Nat :=
  match x with
  | .ok r => some r.idx
  | .error _ => none

/-- Replace a ring's definition. -/
def Core.setRing (c : Core) (i : Nat) (r : Option Ring) : Core :=
  { c with rings := r.toList ++ c.rings.filter (·.idx != i) }

/-- RINGDEF.DEF (R319). -/
def execRingdefDef (h : Hdr) (a : RingDefArgs) (s : State) : Out' :=
  issue h s (fun _ _ => gKeys a.base.toNat 4) fun s t _ =>
    let w := (List.range 4).map fun i => (s.readKey t (kg (a.base.toNat + i))).toNat
    match if (s.core t.core).ringBusy a.ring.toNat then none else ringOf a.ring.toNat w with
    | none => .ok (eff (s.putQ t a.q false))
    | some r =>
      let recs := s.ringRecs t r
      match raiseOne ((recs.filterMap okCause).map Bad.of) with
      | .error e => .error e
      | .ok () =>
        .ok (eff ((s.modCore t.core (·.setRing a.ring.toNat (some { r with recs := recs.filterMap okRec }))).putQ t a.q
          true))

/-- RINGDEF.CLR. -/
def execRingdefClr (h : Hdr) (a : RingClrArgs) (s : State) : Out' :=
  issue h s (fun _ _ => []) fun s t _ =>
    if (s.core t.core).ringBusy a.ring.toNat then .ok (eff (s.putQ t a.q false))
    else .ok (eff ((s.modCore t.core (·.setRing a.ring.toNat none)).putQ t a.q true))

/-- Slot of a ring that an instruction names: its number modulo the ring's slots. -/
def Core.slotIdx (c : Core) (ring v : Nat) : Nat :=
  match c.ring? ring with
  | some r => v % r.slots
  | none => v

/-- A slot instruction finds its slot in the state it needs; else it parks, or its slot has failed (R308). -/
def State.needSlot (s : State) (t : Task) (ring v : Nat) (want : SlotSt) : M Unit :=
  let st := (s.core t.core).slotSt ring v
  if st = .failed then throwC .slotFailed
  else if st = want then .ok ()
  else .error (.park (.slot ring v want))

/-- SLOTWAIT: its completion is an acquire, be it at once or when the slot reaches the state. -/
def slotWait (h : Hdr) (a : SlotArgs) (want : SlotSt) (s : State) : Out' :=
  issue h s (fun t _ => s.srcKeys t a.slot 1 0) fun s t _ =>
    let v := s.src t a.slot .n32 0
    let st := (s.core t.core).slotSt a.ring.toNat v
    if st = .failed then throwC .slotFailed
    else if st = want then .ok (eff (s.acquire t.core none))
    else .error (.park (.slotWait a.ring.toNat v want (s.seqPc t) h.hint))

/-- SLOTWAIT.FULL (R320). -/
def execSlotwaitFull (h : Hdr) (a : SlotArgs) (s : State) : Out' := slotWait h a .full s

/-- SLOTWAIT.EMPTY (R320). -/
def execSlotwaitEmpty (h : Hdr) (a : SlotArgs) (s : State) : Out' := slotWait h a .empty s

/-- A signal has changed a slot in this clk (R308). -/
def Core.noteSignal (c : Core) (clk ring k : Nat) : Core :=
  { c with signalled := (clk, (ring, k) :: if c.signalled.1 = clk then c.signalled.2 else []) }

/-- SLOTSIG: a release, then the transition. -/
def slotSig (h : Hdr) (a : SlotArgs) (want : SlotSt) (f : Core → Nat → Nat → Core) (s : State) : Out' :=
  issue h s (fun t _ => s.srcKeys t a.slot 1 0) fun s t _ =>
    let v := s.src t a.slot .n32 0
    match s.needSlot t a.ring.toNat v want with
    | .error e => .error e
    | .ok () =>
      if !s.released t then .error .hold
      else .ok (eff (s.modCore t.core fun c =>
        (f c a.ring.toNat (c.slotIdx a.ring.toNat v)).noteSignal s.clk a.ring.toNat (c.slotIdx a.ring.toNat v)))

/-- SLOTSIG.FULL (R307, R320). -/
def execSlotsigFull (h : Hdr) (a : SlotArgs) (s : State) : Out' := slotSig h a .empty (fun c r k => c.setSlot r k .full) s

/-- One empty signal: the slot is EMPTY once its consumers have all given theirs (R307). -/
def Core.emptySignal (c : Core) (ring k : Nat) : Core :=
  match c.ring? ring with
  | none => c
  | some r =>
    let n := ((r.states[k]?).map (·.2)).getD 0 + 1
    if r.consumers ≤ n then c.setSlot ring k .empty
    else
      let up (r : Ring) : Ring := { r with states := r.states.mapIdx fun i x => if i = k then (x.1, n) else x }
      { c with rings := mapFirst (·.idx == ring) up c.rings }

/-- SLOTSIG.EMPTY (R307, R320). -/
def execSlotsigEmpty (h : Hdr) (a : SlotArgs) (s : State) : Out' := slotSig h a .full Core.emptySignal s

/-! ### Arrival counters (R321) -/

/-- ACNT.GET: an acquire of the completions its value includes. -/
def execAcntGet (h : Hdr) (a : AcntGetArgs) (s : State) : Out' :=
  issue h s (fun _ _ => []) fun s t _ =>
    let v := (spGet (s.core t.core).acnt a.c.toNat).toNat
    .ok (eff ((s.putRegs t (s.dst t a.d 1 0 v)).acquire t.core none))

/-- ACNT.SET and ACNT.ADD: neither a release nor an acquire. -/
def acntPut (h : Hdr) (a : AcntArgs) (f : BitVec 32 → BitVec 32 → BitVec 32) (s : State) : Out' :=
  issue h s (fun t _ => s.srcKeys t a.v 1 0) fun s t _ =>
    let v := BitVec.ofNat 32 (s.src t a.v .n32 0)
    .ok (eff (s.modCore t.core fun c => { c with acnt := spSet c.acnt a.c.toNat (f (spGet c.acnt a.c.toNat) v) }))

/-- ACNT.SET. -/
def execAcntSet (h : Hdr) (a : AcntArgs) (s : State) : Out' := acntPut h a (fun _ v => v) s

/-- ACNT.ADD. -/
def execAcntAdd (h : Hdr) (a : AcntArgs) (s : State) : Out' := acntPut h a (fun x v => x + v) s

/-- ACNT.WAITGE. -/
def execAcntWaitge (h : Hdr) (a : AcntArgs) (s : State) : Out' :=
  issue h s (fun t _ => s.srcKeys t a.v 1 0) fun s t _ =>
    let v := s.src t a.v .n32 0
    if v ≤ (spGet (s.core t.core).acnt a.c.toNat).toNat then .ok (eff (s.acquire t.core none))
    else .error (.park (.acnt a.c.toNat v (s.seqPc t) h.hint))

/-! ### Engine operations (R298 to R305, R316 to R318) -/

/-- The counter a credit field names. -/
def creditOf (cr : Credit) : Option (Nat × Bool) := if cr.cen then some (cr.cnt.toNat, cr.crows) else none

/-- A signal changed the slot in this clk: an operation that names it comes too late, since the issues of a clk come
first (R308). -/
def Core.slotSpent (c : Core) (clk : Nat) (slot : Option (Nat × Nat)) : Bool :=
  slot.any fun x => c.signalled.1 == clk && c.signalled.2.contains x

/-- Issue an engine operation after its checks: own source and destination, then the holds, then acceptance. The
task's own stores perform first, as its engine reads them at the home slices. -/
def acceptOp (s : State) (t : Task) (bads : List Bad) (n : NewOp) (ready : M Unit) (at_ : Nat) : M Eff :=
  match raiseOne (bads ++ if n.selfLocked then [⟨.rangeLocked, at_, none⟩] else []) with
  | .error e => .error e
  | .ok () =>
    match ready with
    | .error e => .error e
    | .ok () =>
      if !s.drainedOut t || (s.core t.core).slotSpent s.clk n.ringSlot then .error .hold
      else if (s.core t.core).opHeld n then .error (heldFor ((s.core t.core).opFull n))
      else .ok ⟨s.startOp t n, none, 0 < n.kind.total⟩

/-- The tile side that TSTAGE and TDRAIN name: the place, the slot, the bytes it holds at most, and what is wrong. -/
structure SideSel where
  side : Option Side
  tile : Option HRec
  slot : Option (Nat × Nat)
  room : Nat
  bads : List Bad
deriving DecidableEq, Repr

/-- Resolve a tile side for an engine that may access the given banks (R287, R316). DESIGN CHOICE: a scratchpad offset that
is no multiple of 128 raises MISALIGNED (notes/assumptions/78.md). -/
def State.tileSide (s : State) (t : Task) (x : TSide) (banks : List Nat) : SideSel :=
  match x with
  | .handle n => (match s.handle t n.toNat banks with
    | .error c => ⟨none, none, none, 0, [Bad.of c]⟩
    | .ok r => ⟨some (.record r.idx), some r, none, 0, []⟩)
  | .scratch o =>
    let off := s.src t o .n32 0
    ⟨some (.scratch off), none, none, scratchSize - off, if off % 128 != 0 then [⟨.misaligned, off, none⟩] else []⟩
  | .slot ring o =>
    let c := s.core t.core
    match c.ring? ring.toNat with
    | none => ⟨none, none, some (ring.toNat, 0), 0, []⟩
    | some r =>
      let k := s.src t o .n32 0 % r.slots
      if !r.tiles then ⟨some (.scratch (r.base + k * r.size)), none, some (r.idx, k), r.size, []⟩
      else match (r.recs[k]?).bind c.rec? with
        | none => ⟨none, none, some (r.idx, k), 0, [Bad.of .handleUnallocated]⟩
        | some y =>
          if banks.contains y.desc.bank then ⟨some (.record y.idx), some y, some (r.idx, k), 0, []⟩
          else ⟨none, none, some (r.idx, k), 0, [Bad.of .handleBankMismatch]⟩

/-- Formats a TSTAGE asks of its tile: a handle's FORMAT and BLOCK are the layout's (R316); no tile is filled through a
layout with W32 (R297). -/
def SideSel.stageFmt (x : SideSel) (l : Layout) (d : Desc) : Bool :=
  !l.w32 && (x.slot.isSome || (d.format == l.format && d.block == l.block))

/-- Geometry of a layout against a tile side (R316): cols and rows of a tile, room in the scratchpad. -/
def SideSel.fits (x : SideSel) (l : Layout) (fmt : Desc → Bool) : List Bad :=
  match x.side, x.tile with
  | _, some r =>
    if r.desc.cols != l.size0 || r.desc.rows != l.rows || !fmt r.desc then [Bad.of .handleFormat] else []
  | some (.scratch off), none => if x.room < l.rows * l.pitch then [⟨.scratchBounds, off, none⟩] else []
  | _, none => []

/-- The lock of the tile side: the rows touched. -/
def SideSel.span (x : SideSel) (l : Layout) : List Span :=
  match x.side with
  | some (.scratch off) => [.scratch off (off + l.rows * l.pitch)]
  | some (.record i) => (match x.tile with
    | some r => [.tile i 0 (l.rows * max l.pitch r.desc.pitch)]
    | none => [])
  | none => []

/-- The lock of a drain's source: the rows it reads (R296, R301), which are those of no padding. -/
def SideSel.drainSpan (x : SideSel) (l : Layout) : List Span :=
  if l.validRows = 0 then []
  else match x.side with
    | some (.scratch off) => [.scratch off (off + l.validRow (l.validRows - 1) * l.pitch + l.readLen)]
    | some (.record i) => (match x.tile with
      | some r => [.bands i r.desc.pitch l.size1 l.valid1 l.rows]
      | none => [])
    | none => []

/-- A slot in the state an operation needs. -/
def State.sideReady (s : State) (t : Task) (x : SideSel) (want : SlotSt) : M Unit :=
  match x.slot with
  | some (r, k) => s.needSlot t r k want
  | none => .ok ()

/-- The layout's own faults at the issue of an operation at an address (R297, R302, R350). -/
def State.layoutBads (t : Task) (l : Layout) (k : AccKind) (addr : Nat) (range : Option (Int × Int)) : List Bad :=
  (if l.summary && addr % 16 != 0 then [⟨.misaligned, addr, none⟩] else []) ++
  (if !t.declaresRange k range then [⟨.undeclaredAccess, addr, none⟩] else [])

/-- Registers a tile side reads. -/
def State.sideKeys (s : State) (t : Task) (x : TSide) : List RKey :=
  match x with
  | .handle _ => []
  | .scratch o => s.srcKeys t o 1 0
  | .slot _ o => s.srcKeys t o 1 0

/-- An instruction without a layout to go by still reports its other causes. -/
def failWith (bads : List Bad) : M Eff :=
  match raiseOne bads with
  | .error e => .error e
  | .ok () => .error .hold

/-- TSTAGE (R316). -/
def execTstage (h : Hdr) (a : TstageArgs) (s : State) : Out' :=
  issue h s (fun t _ => s.sideKeys t a.side ++ gKeys a.addr.toNat 2 ++ s.srcKeys t a.layout 1 0) fun s t _ =>
    match undiverged t with
    | .error e => .error e
    | .ok () =>
      withJob s t fun j =>
        let addr := s.src t (.g a.addr) .n64 0
        let x := s.tileSide t a.side [0, 1]
        match s.layoutAt t.core j (s.src t a.layout .n32 0) with
        | .error b => failWith (b :: x.bads)
        | .ok l =>
          let s := s.touchLayout t.core j (s.src t a.layout .n32 0)
          let range := l.bounds addr
          let bads := x.bads ++ x.fits l (x.stageFmt l) ++
            State.layoutBads t l .load addr range
          let side := x.side.getD (.scratch 0)
          acceptOp s t bads ⟨.stage side l addr, rangeSpan (s.ctxOf t) range, x.span l, (creditOf a.cr), barOf h.hint, x.slot, false⟩
            (s.sideReady t x .empty) addr

/-- TDRAIN (R316, R317). -/
def execTdrain (h : Hdr) (a : TdrainArgs) (s : State) : Out' :=
  issue h s (fun t _ => s.sideKeys t a.side ++ gKeys a.addr.toNat 2 ++ s.srcKeys t a.layout 1 0) fun s t _ =>
    match undiverged t with
    | .error e => .error e
    | .ok () =>
      withJob s t fun j =>
        let addr := s.src t (.g a.addr) .n64 0
        let x := s.tileSide t a.side [2]
        match s.layoutAt t.core j (s.src t a.layout .n32 0) with
        | .error b => failWith (b :: x.bads)
        | .ok l =>
          let s := s.touchLayout t.core j (s.src t a.layout .n32 0)
          let range := l.drainBounds addr
          let bads := x.bads ++ x.fits l (fun d => drainPair d.format l) ++ State.layoutBads t l .store addr range
          let side := x.side.getD (.scratch 0)
          acceptOp s t bads
            ⟨.drain side l addr a.rm a.sat, x.drainSpan l, rangeSpan (s.ctxOf t) range, (creditOf a.cr), barOf h.hint, x.slot, false⟩
            (s.sideReady t x .full) addr

/-- A range of `n` bytes, as a bounding range. -/
def byteRange (a n : Nat) : Option (Int × Int) := if n = 0 then none else some (a, a + n)

/-- TCOPY (R318): a remote destination is checked and locked where it lies. -/
def execTcopy (h : Hdr) (a : TcopyArgs) (s : State) : Out' :=
  issue h s (fun t _ => gKeys a.dst.toNat 2 ++ gKeys a.src.toNat 2 ++ s.srcKeys t a.len 1 0 ++
      (match a.node with | some o => s.srcKeys t o 1 0 | none => [])) fun s t _ =>
    match undiverged t with
    | .error e => .error e
    | .ok () =>
      let d := s.src t (.g a.dst) .n64 0
      let c := s.src t (.g a.src) .n64 0
      let n := s.src t a.len .n32 0
      let from_ := byteRange c n
      let to_ := if a.node.isSome then none else byteRange d n
      let bads : List Bad :=
        (if d % 16 != 0 || c % 16 != 0 || n % 16 != 0 then [⟨.misaligned, c, none⟩] else []) ++
        (if !t.declaresRange .load from_ then [⟨.undeclaredAccess, c, none⟩] else []) ++
        (if !t.declaresRange .store to_ then [⟨.undeclaredAccess, d, none⟩] else [])
      acceptOp s t bads
        ⟨.copy d c n (a.node.map fun o => s.src t o .n32 0), rangeSpan (s.ctxOf t) from_, rangeSpan (s.ctxOf t) to_, (creditOf a.cr),
          barOf h.hint, none, false⟩ (.ok ()) d

/-! ### Events of the engines -/

/-- The operation of an event with its owner. -/
def State.opOf (s : State) (core u : Nat) : Option (EngOp × Task) :=
  match (s.core core).ops.find? (·.uid == u) with
  | none => none
  | some o => (s.task? o.owner).map fun t => (o, t)

/-- The node of a remote copy, and whether the link can reach it (R418). -/
def EngOp.node (o : EngOp) : Option Nat :=
  match o.kind with
  | .copy _ _ _ n => n
  | _ => none

def State.nodeOk (s : State) (n : Nat) : Bool :=
  n < 4096 && n != field s.pregs.herricNode 0 12 && !(s.portsTo n).isEmpty

/-- Destination of a remote segment, which its frame reports. -/
def EngOp.farAddr (o : EngOp) : Nat :=
  match o.kind with
  | .copy d _ _ _ => (d + o.bytes) % 2 ^ 64
  | _ => 0

/-- An operation may move its next segment: it is not paused, its context and job run, and a remote one has no segment
outstanding. -/
def State.opMoves (s : State) (t : Task) (o : EngOp) : Bool :=
  !o.paused && !o.sent && s.mayRun t

/-- What the next segment of an operation comes to. -/
def State.nextSeg (s : State) (core : Nat) (t : Task) (o : EngOp) : Seg SegDone :=
  match o.node with
  | some n => if s.nodeOk n then s.segment core t o else .error (.unreachable o.farAddr)
  | none => s.segment core t o

/-- ENGINE_SEGMENT_COMPLETE (R299): a segment's bytes have performed, and it is credited; a remote one is sent, to be
credited when its receiver acknowledges it (R305). -/
def execEngineSegmentComplete (core op : Nat) (s : State) : Out' :=
  match s.opOf core op with
  | none => .next s
  | some (o, t) =>
    if !s.opMoves t o then .next s
    else match s.nextSeg core t o with
      | .error _ => .next s
      | .ok d =>
        if o.node.isSome then .next (d.s.modCore core (·.modOp o.uid fun o => { o with sent := true }))
        else .next (d.s.creditSeg core o d)

/-- ENGINE_SEGMENT_FAULT (R303, R418): the operation pauses before the segment, and the cause is posted. -/
def execEngineSegmentFault (core op : Nat) (s : State) : Out' :=
  match s.opOf core op with
  | none => .next s
  | some (o, t) =>
    if !s.opMoves t o then .next s
    else match s.nextSeg core t o with
      | .error (.fault va latch) => .next (s.pauseOp core t o .copyFault va latch)
      | .error (.unreachable va) => .next (s.pauseOp core t o .remoteUnreachable va none)
      | .error .wait => .next s
      | .ok _ => .next s

/-- REMOTE_SEGMENT_ACK (R305, R419): the receiver has performed the segment. -/
def execRemoteSegmentAck (core op : Nat) (s : State) : Out' :=
  match s.opOf core op with
  | none => .next s
  | some (o, _) => if o.sent then .next (s.creditSeg core o ⟨s, 0, []⟩) else .next s

/-- REMOTE_ACK_TIMEOUT (R419): a segment stayed unacknowledged 10 µs after the link's retries ended, or the receiver
refused it. -/
def execRemoteAckTimeout (core op : Nat) (s : State) : Out' :=
  match s.opOf core op with
  | none => .next s
  | some (o, t) => if o.sent then .next (s.pauseOp core t o .remoteUnreachable o.farAddr none) else .next s

/-- A record still refers to this one (R292): a tile by its scales or codebook, a ring, or a loaded plane (R324). -/
def Core.referred (c : Core) (r : Nat) : Bool :=
  c.recs.any (fun x => x.st != .free && (x.scaleRec == some r || x.bookRec == some r)) ||
  c.rings.any (fun x => x.tiles && x.recs.contains r) ||
  [c.mx.active, c.mx.shadow].any fun p => p.st == .loaded && p.record == r

/-- A RELEASED record whose accesses have completed, and that nothing refers to (R292, R293). -/
def Core.recFreeable (c : Core) (x : HRec) : Bool :=
  x.st == .released && !c.inUse x.idx && !c.returns.any (·.tile == some x.idx) && !c.referred x.idx

/-- HANDLE_RECORD_FREE (R292): GEN advances and the granules return to the bank. -/
def execHandleRecordFree (core r : Nat) (s : State) : Out' :=
  match (s.core core).rec? r with
  | none => .next s
  | some x =>
    if (s.core core).recFreeable x then
      .next (s.modCore core fun c => c.putRec ⟨r, Desc.none, .free, x.gen + 1, 0, none, none⟩)
    else .next s

end Sys2Proof.Machine
end

