-- ==== Sys2Proof/Machine/Matrix.lean ====
section
/-! DEFINITION. Class 0x9 (14_matrix R322 to R349): leases, the two queues, signed issue, planes and the array's
arithmetic, and the events of the matrix engine. -/

namespace Sys2Proof.Machine

/-! ### Operand pairs (R322) -/

/-- K and N of a weight format. -/
def planeK (f : Nat) : Nat :=
  match f with
  | 0x4 | 0x6 | 0xB | 0xC | 0xD | 0xF => 256
  | _ => 128

def planeN (f : Nat) : Nat :=
  match f with
  | 0x7 | 0x8 => 64
  | _ => 128

/-- The activation formats that a weight format accepts. -/
def pairsWith (w a : Nat) : Bool :=
  match w with
  | 0x7 => a == 0x7
  | 0x8 => a == 0x8
  | 0xE => a == 0xE
  | 0x5 | 0x6 => a == 0x5 || a == 0x6
  | 0x4 | 0xB | 0xC => a == 0x4 || a == 0xB || a == 0xC
  | 0xD | 0xF => a == 0x0 || a == 0x1 || a == 0x4 || a == 0x9 || a == 0xB || a == 0xC
  | _ => a ≤ 0x4 || (0x9 ≤ a && a ≤ 0xC)

/-- Accumulator type of an activation format: 1 is INT32. -/
def accOf (a : Nat) : Nat := if a = 0x5 ∨ a = 0x6 then 1 else 0

/-! ### Elements (R104 to R111, R289, R326) -/

/-- Element `i` of a row, from the row's bytes (R107, R108): a digit for a trit. -/
def elemCode (f : Nat) (get : Nat → Nat) (i : Nat) : Nat :=
  match f with
  | 0x7 | 0x8 => get (2 * i) + 256 * get (2 * i + 1)
  | 0x4 | 0x6 | 0xB | 0xC => natBits (get (i / 2)) (4 * (i % 2)) 4
  | 0x2 | 0x3 | 0xA =>
    natBits (get (3 * (i / 4)) + 256 * get (3 * (i / 4) + 1) + 65536 * get (3 * (i / 4) + 2)) (6 * (i % 4)) 6
  | 0xD => if 242 < get (i / 5) then 1 else get (i / 5) / 3 ^ (i % 5) % 3
  | _ => get i

/-- Element `i` of a VQ2 row: half-units above -8 (R110). -/
def vqCode (book get : Nat → Nat) (i : Nat) : Nat :=
  let idx := get (2 * (i / 8)) + 256 * get (2 * (i / 8) + 1)
  let e := 3 * (idx / 256)
  (((decodeVq2 idx (book e + 256 * book (e + 1) + 65536 * book (e + 2)))[i % 8]?).getD 0 + 8).toNat

/-- The value of an element without its scale. -/
def elemVal (f code : Nat) : FVal :=
  match f with
  | 0x5 | 0xE => FVal.ofInt (toSigned 8 code)
  | 0x6 => FVal.ofInt (toSigned 4 code)
  | 0xD => FVal.ofInt ((code : Int) - 1)
  | 0xF => .fin (code < 8) ((code : Int) - 8).natAbs 1 (-1)
  | f => (codeFmt f).decode code

/-- The scale of a block of a format (R104, R105). -/
def scaleOf (f : Nat) (byte : Nat) : Option (Nat × Int) := scaleVal (if f = 0xC then .ue4m3 else .e8m0) byte

/-- An element times the scale of its block; a NaN scale makes it NaN (R106). -/
def scaledVal (f code : Nat) (scale : Option Nat) : FVal :=
  match scale with
  | none => elemVal f code
  | some b => match scaleOf f b with
    | none => .nan false
    | some (m, e) => match elemVal f code with
      | .fin n num den x => .fin n (num * m) den (x + e)
      | .nan q => .nan q
      | .inf n => .inf n

/-- A byte of a tile row. -/
def Core.rowByte (c : Core) (r : HRec) (row i : Nat) : Nat := (c.tileByte r (row * r.desc.pitch + i)).toNat

/-- Where the scale of block `b` of a row stands (R289): the record and the byte. -/
def Core.scaleAt (c : Core) (r : HRec) (row b : Nat) : Option (HRec × Nat) :=
  if r.desc.sh then (r.scaleRec.bind c.rec?).map fun q => (q, row * q.desc.pitch + b)
  else some (r, r.desc.scale + row * r.desc.rowScales + b)

def Core.scaleByte (c : Core) (r : HRec) (row b : Nat) : Byte :=
  match c.scaleAt r row b with
  | some (q, off) => c.tileByte q off
  | none => 0

/-- The codebook of a VQ2 tile. -/
def Core.bookByte (c : Core) (r : HRec) (i : Nat) : Nat :=
  match r.bookRec.bind c.rec? with
  | some q => (c.tileByte q i).toNat
  | none => 0

/-- The code of an element of a tile. -/
def Core.elemAt (c : Core) (r : HRec) (row i : Nat) : Nat :=
  if r.desc.format = 0xF then vqCode (c.bookByte r) (c.rowByte r row) i else elemCode r.desc.format (c.rowByte r row) i

/-- The values of `n` elements of a tile row. -/
def Core.rowVals (c : Core) (r : HRec) (row col n : Nat) : List FVal :=
  let f := r.desc.format
  (List.range n).map fun i =>
    scaledVal f (c.elemAt r row (col + i))
      (if fmtScaled f then some (c.scaleByte r row ((col + i) / blockLen r.desc.block)).toNat else none)

/-! ### Planes (R323, R345) -/

/-- What MLDW loads: N rows of K elements from column `col`, with their scales. -/
def Core.loadPlane (c : Core) (r : HRec) (row col : Nat) : Plane :=
  let f := r.desc.format
  let k := planeK f
  let n := planeN f
  let blk := blockLen r.desc.block
  { st := .loaded, desc := r.desc, row := row, col := col, record := r.idx, gen := r.gen,
    elems := (List.range n).flatMap fun j => (List.range k).map fun i => c.elemAt r (row + j) (col + i),
    scales := if fmtScaled f then (List.range n).flatMap fun j =>
        (List.range (k / blk)).map fun b => c.scaleByte r (row + j) (col / blk + b)
      else [] }

/-- A LOADED plane is read again from its record (R324). -/
def Core.reloadPlane (c : Core) (p : Plane) : Plane :=
  match p.st, c.rec? p.record with
  | .loaded, some r => c.loadPlane r p.row p.col
  | _, _ => p

/-- Both planes after a restore. -/
def Core.reloadPlanes (c : Core) : Core :=
  { c with mx := { c.mx with active := c.reloadPlane c.mx.active, shadow := c.reloadPlane c.mx.shadow } }

/-- The weight of plane row `j` at position `q`. -/
def Plane.weight (p : Plane) (j q : Nat) : FVal :=
  let f := p.desc.format
  let k := planeK f
  let blk := blockLen p.desc.block
  scaledVal f (p.elems[k * j + q]?.getD 0)
    (if fmtScaled f then some ((p.scales[k / blk * j + q / blk]?).getD 0).toNat else Option.none)

/-! ### Sparsity (R334, R335) -/

/-- n and m of a level code. -/
def levelOf (c : Nat) : Nat × Nat :=
  match c with
  | 0 => (1, 1)
  | 1 => (1, 2)
  | 2 => (2, 4)
  | _ => (1, 4)

/-- Bits of an index within a group of m. -/
def idxBits (m : Nat) : Nat := Nat.log2 m

/-- The shape of a compressed plane row of K stored weights: kept blocks, and the logical positions covered. -/
def keptBlocks (k l2 : Nat) : Nat := k * (levelOf l2).2 / (16 * (levelOf l2).1)
def logicalLen (k l1 l2 : Nat) : Nat := keptBlocks k l2 * (levelOf l1).2 / (levelOf l1).1 * 16

/-- Metadata bits of a row: the level 1 fields, then the level 2 fields. -/
def metaBits1 (k l1 l2 : Nat) : Nat := keptBlocks k l2 * idxBits (levelOf l1).2
def metaBits (k l1 l2 : Nat) : Nat := metaBits1 k l1 l2 + k * idxBits (levelOf l2).2

/-- `n` bits from bit `lo` of a row of metadata. -/
def bitField (get : Nat → Nat) (lo n : Nat) : Nat :=
  (List.range n).foldl (fun acc i => acc + 2 ^ i * (natBit (get ((lo + i) / 8)) ((lo + i) % 8)).toNat) 0

/-- The logical position of stored weight `q` of a row. -/
def posOf (get : Nat → Nat) (k l1 l2 q : Nat) : Nat :=
  let (n1, m1) := levelOf l1
  let (n2, m2) := levelOf l2
  let perBlock := 16 * n2 / m2
  let kb := q / perBlock
  let block := kb / n1 * m1 + bitField get (kb * idxBits m1) (idxBits m1)
  16 * block + q % perBlock / n2 * m2 + bitField get (metaBits1 k l1 l2 + q * idxBits m2) (idxBits m2)

/-! ### The array (R326) -/

/-- The exact sum of a block's products. -/
def blockSum (ps : List FVal) : FVal × BitVec 32 :=
  let infs := ps.filterMap fun x => match x with
    | .inf n => some n
    | .nan _ | .fin _ _ _ _ => none
  if ps.any FVal.isNan || (infs.contains true && infs.contains false) then (.nan false, fInvalid)
  else match ps with
    | [] => (.fin false 0 1 0, 0)
    | x :: xs => (xs.foldl (fun acc y => (fadd .rn acc y).val) x, 0)

/-- An integer value. -/
def FVal.toInt (x : FVal) : Int :=
  match x with
  | .fin n num _ e => (if n then -1 else 1) * ((num * 2 ^ e.toNat : Nat) : Int)
  | .nan _ | .inf _ => 0

/-- One accumulator after one block sum. -/
def accUpdate (int : Bool) (acc : Nat) (s : FVal) : FRes :=
  if int then clampBits 32 (toSigned 32 acc + s.toInt)
  else FFmt.fp32.finish .rn (fadd .rn (FFmt.fp32.decode acc) s)

/-- One accumulator after a whole row: blocks of 32 logical positions in ascending order. `terms`: the logical position
and the product of each stored weight. Positions not kept contribute zero, be it beside a position listed twice. -/
def accRow (int : Bool) (len acc : Nat) (terms : List (Nat × FVal)) : FRes :=
  (List.range (len / 32)).foldl (fun r b =>
    let ps := (terms.filter fun x => x.1 / 32 == b).map (·.2)
    let whole := (List.range 32).all fun x => terms.any (·.1 == 32 * b + x)
    let ps := if whole then ps else ps ++ [.fin false 0 1 0]
    let (s, f) := blockSum ps
    let u := accUpdate int r.code s
    ⟨u.code, r.flags ||| f ||| u.flags⟩) ⟨acc, 0⟩

/-! ### What an operation does to the core -/

/-- The metadata rows of an MMAS (R335). -/
def Core.metaRows (c : Core) (p : Plane) (k : MKind) : List (List Byte) :=
  match k with
  | .mma _ _ _ _ _ _ _ _ _ (some (m, l1, l2)) => (match c.rec? m with
    | some r => (List.range (planeN p.desc.format)).map fun j =>
        c.tileBytes r (j * r.desc.pitch) (ceilDiv (metaBits (planeK p.desc.format) l1 l2) 8)
    | none => [])
  | _ => []

/-- The product of one row: C row, its bytes and flags. `kept`: the metadata rows. -/
def Core.productRow (c : Core) (p : Plane) (kept : List (List Byte)) (k : MKind) (i : Nat) : Core × BitVec 32 :=
  match k with
  | .mma cr ar _ arow crow kcol ncol _ _ sp =>
    (match c.rec? cr, c.rec? ar with
     | some cRec, some aRec =>
       let kk := planeK p.desc.format
       let n := planeN p.desc.format
       let (len, pos) : Nat × (Nat → Nat → Nat) := match sp with
         | none => (kk, fun _ q => q)
         | some (_, l1, l2) => (logicalLen kk l1 l2, fun j q =>
             posOf (fun b => (((kept[j]?.getD [])[b]?).getD 0).toNat) kk l1 l2 q)
       let as := c.rowVals aRec (arow + i) kcol len
       let int := cRec.desc.format == 1
       let base := (crow + i) * cRec.desc.pitch + 4 * ncol
       let rs := (List.range n).map fun j =>
         let terms := (List.range kk).map fun q =>
           (pos j q, (fmul ((as[pos j q]?).getD (.fin false 0 1 0)) (p.weight j q)).val)
         accRow int len (natOf (c.tileBytes cRec (base + 4 * j) 4)) terms
       (c.tilePut cRec base (rs.flatMap fun r => bytesOf 4 r.code), rs.foldl (fun f r => f ||| r.flags) 0)
     | _, _ => (c, 0))
  | .mldw _ _ _ | .mflip | .macz _ _ _ | .macr _ _ _ _ _ | .macrV _ _ _ _ _ => (c, 0)

/-- A field of MACR's parameter words (R340). -/
def par (p : List Nat) (i lo n : Nat) : Nat := natBits (p[i]?.getD 0) lo n

/-- One element of a MACR: scaled and narrowed from FP32, or shifted from INT32 (R348). -/
def macrElem (int : Bool) (fmt : FFmt) (rm : RM) (sat : Bool) (scale x : Nat) : FRes :=
  if int then
    let v := toSigned 32 x
    let h := scale % 32
    let q := v / (2 ^ h : Nat)
    let r := v % (2 ^ h : Nat)
    let up := h != 0 && ((2 ^ (h - 1) : Nat) < r || (r == (2 ^ (h - 1) : Nat) && q % 2 != 0))
    clampBits 8 (if up then q + 1 else q)
  else
    let y := fmul (FFmt.fp32.decode x) (FFmt.fp32.decode scale)
    let r := fmt.round rm sat y.val
    ⟨r.code, y.flags ||| r.flags⟩

/-- A block of format 0x9: its scale byte and its narrowed elements, with flags (R348). DESIGN CHOICE: a block that holds
a NaN takes it as its largest value (notes/assumptions/79.md). -/
def macrBlock (rm : RM) (sat : Bool) (ys : List Nat) : Byte × List FRes :=
  let isNan (y : Nat) : Bool := (FFmt.fp32.decode y).isNan
  let big := match ys.find? isNan with
    | some y => y
    | none => ys.foldl (fun m y => max m (y % 2 ^ 31)) 0
  let e := findScale .e8m0 (.narrow .e4m3) big
  let one (y : Nat) : FRes :=
    if e.code = 255 then ⟨FFmt.e4m3.nanCode, fInvalid⟩
    else match FFmt.fp32.decode y with
      | .fin n num den x => FFmt.e4m3.round rm sat (.fin n num den (x + 127 - e.code))
      | v => FFmt.e4m3.round rm sat v
  (BitVec.ofNat 8 e.code, (ys.map one).map fun r => ⟨r.code, r.flags ||| e.flags⟩)

/-- Cut a list into blocks of `n`. -/
def blocksOf {α : Type} (n : Nat) : Nat → List α → List (List α)
  | 0, _ => []
  | fuel + 1, l => if l.isEmpty then [] else l.take n :: blocksOf n fuel (l.drop n)

/-- One row of a MACR into an A tile. -/
def Core.macrRow (c : Core) (k : MKind) (i : Nat) : Core × BitVec 32 :=
  match k with
  | .macr ar cr p rm sat =>
    (match c.rec? ar, c.rec? cr with
     | some aRec, some cRec =>
       let int := cRec.desc.format == 1
       let cols := par p 3 12 12 + 1
       let crow := par p 0 0 12 + i
       let arow := par p 0 12 12 + i
       let ccol := par p 1 0 12
       let acol := par p 1 12 12
       let f := aRec.desc.format
       let fmt := if f = 0x9 then FFmt.fp32 else codeFmt f
       let xs := (List.range cols).map fun j =>
         natOf (c.tileBytes cRec (crow * cRec.desc.pitch + 4 * (ccol + j)) 4)
       let ys := xs.map (macrElem int fmt rm sat (par p 2 0 32))
       let yf := ys.foldl (fun a r => a ||| r.flags) 0
       if f = 0x9 then
         let blk := blockLen aRec.desc.block
         let bs := (blocksOf blk cols (ys.map (·.code))).map (macrBlock rm sat)
         let c := c.tilePut aRec (arow * aRec.desc.pitch + acol) (bs.flatMap fun b => b.2.map fun r => BitVec.ofNat 8 r.code)
         let put (c : Core) (x : Nat × Byte) : Core := match c.scaleAt aRec arow (acol / blk + x.1) with
           | some (q, off) => c.tilePut q off [x.2]
           | none => c
         (((bs.map (·.1)).mapIdx fun j b => (j, b)).foldl put c,
          bs.foldl (fun a b => b.2.foldl (fun a r => a ||| r.flags) a) yf)
       else
         let n := fmtBits f / 8
         (c.tilePut aRec (arow * aRec.desc.pitch + n * acol) (ys.flatMap fun r => bytesOf n r.code), yf)
     | _, _ => (c, 0))
  | .mldw _ _ _ | .mflip | .mma _ _ _ _ _ _ _ _ _ _ | .macz _ _ _ | .macrV _ _ _ _ _ => (c, 0)

/-- Zeros over one row of a C tile (R347). -/
def Core.zeroRow (c : Core) (k : MKind) (i : Nat) : Core :=
  match k with
  | .macz cr first _ =>
    (match c.rec? cr with
     | some r => c.tilePut r ((first + i) * r.desc.pitch) (List.replicate (4 * r.desc.cols) 0)
     | none => c)
  | _ => c

/-- Rows that an operation covers; a load and a flip have none. -/
def MKind.rows : MKind → Nat
  | .mma _ _ rows _ _ _ _ _ _ _ => rows
  | .macz _ _ rows => rows
  | .macr _ _ p _ _ => par p 3 0 12 + 1
  | .mldw _ _ _ | .mflip | .macrV _ _ _ _ _ => 0

/-- One row of an operation. -/
def Core.matRow (c : Core) (kept : List (List Byte)) (k : MKind) (i : Nat) : Core × BitVec 32 :=
  match k with
  | .mma _ _ _ _ _ _ _ _ _ _ => c.productRow c.mx.active kept k i
  | .macz _ _ _ => (c.zeroRow k i, 0)
  | .macr _ _ _ _ _ => c.macrRow k i
  | .mldw _ _ _ | .mflip | .macrV _ _ _ _ _ => (c, 0)

/-- Rows [lo, hi) of an operation. -/
def Core.matRows (c : Core) (kept : List (List Byte)) (k : MKind) (lo hi : Nat) : Core × BitVec 32 :=
  (List.range (hi - lo)).foldl (fun (acc : Core × BitVec 32) i =>
    let (c, f) := acc.1.matRow kept k (lo + i)
    (c, acc.2 ||| f)) (c, 0)

/-! ### Spans and admission order (R301, R328, R329) -/

/-- What an operation reads and writes, as the range-lock table holds it. -/
structure MSpans where
  reads : List Span
  writes : List Span
deriving DecidableEq, Repr

/-- A nonempty span. -/
def rowsSpan (r : HRec) (row n : Nat) : List Span :=
  if n = 0 then [] else [.tile r.idx (row * r.desc.pitch) ((row + n) * r.desc.pitch)]

def rectSpan (r : HRec) (row n col cols : Nat) : List Span :=
  if n = 0 then [] else [.rect r.idx r.desc.pitch row (row + n) (4 * col) (4 * (col + cols))]

/-- The rows of a tile's scale handle that go with rows of the tile (R289). -/
def Core.scaleRows (c : Core) (r : HRec) (row n : Nat) : List Span :=
  if fmtScaled r.desc.format && r.desc.sh then
    (match r.scaleRec.bind c.rec? with
     | some q => rowsSpan q row n
     | none => [])
  else []

/-- The spans of an operation; `all`: with what enters no range and yet orders the operations (R328): the A rows of a
DYN product, and the scales that stand in a scale handle. -/
def Core.matSpans (c : Core) (warp : Nat) (k : MKind) (all : Bool) : MSpans :=
  let on (i : Nat) (f : HRec → List Span) : List Span := match c.rec? i with
    | some r => f r
    | none => []
  let scales (r : HRec) (row n : Nat) : List Span := if all then c.scaleRows r row n else []
  match k with
  | .mldw w row _ => ⟨on w fun r => rowsSpan r row (planeN r.desc.format) ++ scales r row (planeN r.desc.format), []⟩
  | .mflip => ⟨[], []⟩
  | .mma cr ar rows arow crow _ ncol _ dyn _ =>
    ⟨if dyn && !all then [] else on ar fun r => rowsSpan r arow rows ++ scales r arow rows,
     on cr fun r => rectSpan r crow rows ncol (match c.rec? ar with | some a => planeN a.desc.format | none => 128)⟩
  | .macz cr first rows => ⟨[], on cr fun r => rowsSpan r first rows⟩
  | .macr ar cr p _ _ =>
    ⟨on cr fun r => rectSpan r (par p 0 0 12) (par p 3 0 12 + 1) (par p 1 0 12) (par p 3 12 12 + 1),
     on ar fun r => rowsSpan r (par p 0 12 12) (par p 3 0 12 + 1) ++ scales r (par p 0 12 12) (par p 3 0 12 + 1)⟩
  | .macrV _ cr p _ _ => ⟨on cr fun r => rectSpan r (par p 0 0 12) 1 (par p 1 0 12) ((par p 3 0 5 + 1) * warp), []⟩

/-- The unit that performs an operation: load, stream, accumulator; the flip has its own rule. -/
def MKind.unit : MKind → Nat
  | .mldw _ _ _ => 0
  | .mma _ _ _ _ _ _ _ _ _ _ => 1
  | .macz _ _ _ | .macr _ _ _ _ _ | .macrV _ _ _ _ _ => 2
  | .mflip => 3

/-- An earlier admitted operation goes first (R328): the same unit, a flip on either side, or data that one of them
writes. -/
def Core.matBefore (c : Core) (width : Nat → Nat) (e o : MatOp) : Bool :=
  let planes (k : MKind) : Bool := k.unit < 2 || k.unit == 3
  let x := c.matSpans (width e.owner) e.kind true
  let y := c.matSpans (width o.owner) o.kind true
  let meet (a b : List Span) : Bool := a.any fun p => b.any (p.hits ·)
  e.kind.unit == o.kind.unit || (e.kind.unit == 3 && planes o.kind) || (o.kind.unit == 3 && planes e.kind) ||
  meet x.writes (y.reads ++ y.writes) || meet x.reads y.writes

/-- Width of a task. -/
def State.widthOf (s : State) (u : Nat) : Nat := ((s.task? u).map (·.warp.width)).getD 32

/-- Every earlier admitted operation that must go first has completed. -/
def State.matGoes (s : State) (core : Nat) (o : MatOp) : Bool :=
  let c := s.core core
  o.admitted && !((c.mx.ops.filter (·.admitted)).takeWhile (·.uid != o.uid)).any fun e => c.matBefore s.widthOf e o

/-! ### Completion (R327, R338, R343) -/

def Core.modMx (c : Core) (f : Matrix → Matrix) : Core := { c with mx := f c.mx }

def Core.modMat (c : Core) (u : Nat) (f : MatOp → MatOp) : Core :=
  c.modMx fun m => { m with ops := mapFirst (·.uid == u) f m.ops }

/-- Count a discarded result (R68); the count saturates. -/
def Core.countDropped (c : Core) : Core :=
  { c with regs := { c.regs with dropped := if c.regs.dropped = BitVec.allOnes 64 then c.regs.dropped
      else c.regs.dropped + 1 } }

/-- The registers a MACR with V = 1 writes, with flags (R348). -/
def Core.macrRegs (c : Core) (w : Nat) (k : MKind) : List RegWrite × BitVec 32 :=
  match k with
  | .macrV v cr p rm sat =>
    (match c.rec? cr with
     | none => ([], 0)
     | some r =>
       let rs := (List.range (par p 3 0 5 + 1)).flatMap fun i => (List.range w).map fun l =>
         let x := natOf (c.tileBytes r (par p 0 0 12 * r.desc.pitch + 4 * (par p 1 0 12 + i * w + l)) 4)
         (RKey.mk .v (32 * (v + i) + l),
          if r.desc.format = 1 then (⟨x, 0⟩ : FRes) else macrElem false FFmt.fp32 rm sat (par p 2 0 32) x)
       (rs.map fun (key, y) => ⟨key, BitVec.ofNat 32 y.code⟩, rs.foldl (fun f x => f ||| x.2.flags) 0))
  | _ => ([], 0)

/-- What a load, a flip or a MACR into registers does when it completes. -/
def State.matFinish (s : State) (core : Nat) (o : MatOp) : State × BitVec 32 :=
  match o.kind with
  | .mldw w row col =>
    (s.modCore core fun c => match c.rec? w with
      | some r => c.modMx fun m => { m with shadow := c.loadPlane r row col }
      | none => c, 0)
  | .mflip => (s.modCore core (·.modMx fun m => { m with active := m.shadow, shadow := m.active }), 0)
  | .macrV _ _ _ _ _ =>
    let (ws, f) := (s.core core).macrRegs (s.widthOf o.owner) o.kind
    if ((s.task? o.owner).map (fun t => t.st == .ending || t.st == .done)).getD true then
      (s.modCore core (·.countDropped), f)
    else
      (s.modTask o.owner fun t =>
        let now (i : Inflight) : Bool := i.source == .array o.uid
        let due := t.warp.inflight.filter now
        ({ t with warp := { t.warp with inflight := staying now t.warp.inflight } }).lateWrites
          (ws.filter fun x => x.at_.key < 32 * t.warp.count && due.any fun i => writesKey i.writes x.at_), f)
  | .mma _ _ _ _ _ _ _ _ _ _ | .macz _ _ _ | .macr _ _ _ _ _ => (s, 0)

/-- An operation completes: its locks go, its tile is VALID, its flags merge, and its barriers fall, which
acquires (R343). -/
def State.matDone (s : State) (core : Nat) (o : MatOp) (flags : BitVec 32) : State :=
  let s := s.modCore core fun c =>
    let c := (c.modMx fun m => { m with ops := m.ops.filter (·.uid != o.uid) }).dropLocks o.uid
    match o.kind.writes with
    | some r => c.settleRec r
    | none => c
  let s := s.orFlags o.owner flags
  if o.bars.isEmpty then s else (s.acquire core none).dropBars o.bars

/-- The plane check of a product (R342): LOADED, a pair, a K of 128 for MMAS, and K and N within the tiles. -/
def Core.planeOk (c : Core) (loaded : Bool) (f : Nat) (k : MKind) : Bool :=
  match k with
  | .mma cr ar _ _ _ kcol ncol _ _ sp =>
    (match c.rec? cr, c.rec? ar with
     | some x, some a =>
       loaded && pairsWith f a.desc.format && ncol + planeN f ≤ x.desc.cols &&
       (match sp with
        | none => kcol + planeK f ≤ a.desc.cols
        | some _ => planeK f == 128)
     | _, _ => false)
  | .mldw _ _ _ | .mflip | .macz _ _ _ | .macr _ _ _ _ _ | .macrV _ _ _ _ _ => true

/-- A product whose plane does not serve: it completes, and HANDLE_FORMAT is posted to its owner (R342). -/
def State.matRefused (s : State) (core : Nat) (o : MatOp) : State :=
  (s.matDone core o o.flags).post o.owner .handleFormat o.pc.toNat none true

/-! ### Leases (R330, R344) -/

/-- Operations of a cohort that have not completed. -/
def Core.cohortOwes (c : Core) (cohort : Nat) : Bool := c.mx.ops.any (·.cohort == cohort)

/-- The free lease may go to a cohort now. -/
def Core.leaseOpen (c : Core) (cohort : Nat) : Bool :=
  c.mx.lease.holder.isNone && (match c.mx.lease.last with
    | none => true
    | some l => l == cohort || !c.cohortOwes l)

/-- Grant the lease: another cohort than the last finds both planes EMPTY. -/
def Core.grantLease (c : Core) (cohort count : Nat) : Core :=
  c.modMx fun m =>
    let same := m.lease.last == some cohort
    { m with lease := ⟨some cohort, some cohort, count⟩,
             active := if same then m.active else Plane.none, shadow := if same then m.shadow else Plane.none }

def Core.freeLease (c : Core) : Core := c.modMx fun m => { m with lease := { m.lease with holder := none, count := 0 } }

/-- The count that MLEASE asks for. -/
def leaseCount (v : Nat) : Nat := if v % 8192 = 0 ∨ 4096 < v % 8192 then 4096 else v % 8192

/-- What a request comes to: the lease at once, or a wait. -/
inductive LeaseNow where
  | granted (c : Core)
  | waits (c : Core)
deriving DecidableEq, Repr

def Core.requestLease (c : Core) (cohort count : Nat) : LeaseNow :=
  let l := c.mx.lease
  if l.holder = some cohort ∧ c.mx.requests.isEmpty then
    .granted (c.modMx fun m => { m with lease := { l with count := count } })
  else
    let c := if l.holder = some cohort then c.freeLease else c
    if c.mx.requests.isEmpty && c.leaseOpen cohort then .granted (c.grantLease cohort count) else .waits c

/-- MLEASE (R344). -/
def execMlease (h : Hdr) (a : SrcArgs) (s : State) : Out' :=
  issue h s (fun t _ => s.srcKeys t a.a 1 0) fun s t _ =>
    let n := leaseCount (s.src t a.a .n32 0)
    match (s.core t.core).requestLease t.cohort n with
    | .granted c => .ok (eff (s.setCore t.core c))
    | .waits c =>
      .error (.parkIn (s.setCore t.core (c.modMx fun m => { m with requests := m.requests ++ [(t.uid, n)] }))
        (.lease n (s.seqPc t) h.hint))

/-- MLEASE.TRY (R344): a request that cannot be granted at once is withdrawn. -/
def execMleaseTry (h : Hdr) (a : MleaseTryArgs) (s : State) : Out' :=
  issue h s (fun t _ => s.srcKeys t a.a 1 0) fun s t _ =>
    let r := (s.core t.core).requestLease t.cohort (leaseCount (s.src t a.a .n32 0))
    let can := match r with
      | .granted _ => true
      | .waits _ => false
    match s.verdict t can with
    | .error e => .error e
    | .ok (s, true) => (match r with
      | .granted c => .ok (eff ((s.setCore t.core c).putQ t a.q true))
      | .waits _ => .error .hold)
    | .ok (s, false) => (match r with
      | .granted _ => .ok (eff (s.putQ t a.q false))
      | .waits c => .ok (eff ((s.setCore t.core c).putQ t a.q false)))

/-- MREL (R344). -/
def execMrel (h : Hdr) (s : State) : Out' :=
  issue h s (fun _ _ => []) fun s t _ =>
    .ok (eff (s.modCore t.core fun c => if c.mx.lease.holder = some t.cohort then c.freeLease else c))

/-- Serve the first waiting request: the warp completes its MLEASE. -/
def State.grantNext (s : State) (core : Nat) : State :=
  match (s.core core).mx.requests with
  | [] => s
  | (u, n) :: rest =>
    match s.task? u with
    | none => s.modCore core (·.modMx fun m => { m with requests := rest })
    | some t =>
      if !(s.core core).leaseOpen t.cohort then s
      else
        let s := s.modCore core fun c => (c.grantLease t.cohort n).modMx fun m => { m with requests := rest }
        match t.park with
        | some (.lease _ next h) => s.parkDone u next h
        | _ => s

/-- LEASE_GRANT (R330). -/
def execLeaseGrant (core : Nat) (s : State) : Out' := .next (s.grantNext core)

/-- The lease of a cohort without a live member is free (R330). -/
def State.settleLease (s : State) (core : Nat) : State :=
  match (s.core core).mx.lease.holder with
  | some h => if (s.liveMembers h).isEmpty then s.modCore core (·.freeLease) else s
  | none => s

/-! ### Issue (R329 to R331, R336, R342) -/

/-- The geometry checks of R342 need the records; each raises HANDLE_FORMAT. `handles`: names and the banks they must
lie in; `vals`: the operand values read; `vdst`: a v destination with its register count; `build`: the operation, where
the geometry is right. -/
structure MatReq where
  handles : List (Nat × List Nat)
  vals : List Nat
  vdst : Option (Nat × Nat)
  build : List HRec → Option MKind

/-- The record of a signed operation's name (R336): what the name maps in the signer itself, where it must not be
RELEASED, else in the first earlier signer that maps it. None where no signer maps it yet; at the last signing that is
HANDLE_UNALLOCATED. -/
def State.signedRec (s : State) (t : Task) (signers : List Nat) (last : Bool) (n : Nat) (banks : List Nat) :
    Except Cause (Option HRec) :=
  match t.name n with
  | .released => .error .handleReleased
  | .mapped _ => (s.handle t n banks).map some
  | .unmapped => match (signers.filterMap s.task?).find? fun x => (x.recOf n).isSome with
    | some x => (s.handle x n banks).map some
    | none => if last then .error .handleUnallocated else .ok none

/-- The records of an issue. -/
def okRecs (rs : List (Except Cause HRec)) : List HRec :=
  rs.filterMap fun x => match x with
    | .ok r => some r
    | .error _ => none

/-- Resolve handles: the cause that ranks first, or the operation. -/
def resolveMat (rs : List (Except Cause HRec)) (q : MatReq) : M MKind :=
  match raiseOne ((rs.filterMap okCause).map Bad.of) with
  | .error e => .error e
  | .ok () => match q.build (okRecs rs) with
    | some k => .ok k
    | none => throwC .handleFormat

/-- Entries of a queue that wait for admission. -/
def Core.queued (c : Core) (high : Bool) : List MatOp := c.mx.ops.filter fun o => !o.admitted && o.high == high

/-- Queue and trigger of the issue. -/
def State.mqOf (s : State) : Bool × Option (Nat × Nat) := s.cur.mq.getD (false, none)

/-- The queue or the lock table is full (R301, R331). -/
def State.matFull (s : State) (t : Task) (k : MKind) : Bool :=
  let c := s.core t.core
  let sp := c.matSpans t.warp.width k false
  16 ≤ (c.queued s.mqOf.1).length || 256 < c.locks.length + sp.reads.length + sp.writes.length

/-- There is no room, or a range conflicts with an operation of another engine (R301). -/
def State.matHeld (s : State) (t : Task) (k : MKind) : Bool :=
  let c := s.core t.core
  let sp := c.matSpans t.warp.width k false
  s.matFull t k || c.conflicts sp.reads sp.writes fun u => c.mx.ops.any (·.uid == u)

/-- The registers that a MACR with V = 1 of a warp of width `w` will write (R348). -/
def MKind.regs (k : MKind) (w : Nat) : List RKey :=
  match k with
  | .macrV v _ p _ _ => (List.range (par p 3 0 5 + 1)).flatMap fun i => (List.range w).map fun l => kv (v + i) l
  | .mldw _ _ _ | .mflip | .mma _ _ _ _ _ _ _ _ _ _ | .macz _ _ _ | .macr _ _ _ _ _ => []

/-- Put an operation into its queue: the registers it will write are in flight, locks, FILLING, the lease's count. -/
def State.enqueueMat (s : State) (t : Task) (k : MKind) (bars : List (Nat × Nat)) : State :=
  let (u, s) := s.fresh
  let (high, trig) := s.mqOf
  let o : MatOp := { uid := u, owner := t.uid, cohort := t.cohort, kind := k, high := high, trig := trig, admitted := false,
                     done := 0, fin := false, bars := bars, flags := 0, pc := t.warp.pc, kept := none }
  let s := match k.regs t.warp.width with
    | [] => s
    | ks => s.modWarp t.uid fun w =>
        { w with inflight := w.inflight ++ [Inflight.mk (ks.map (RegWrite.mk · 0)) 0 (some 0) none (.array u)] }
  s.modCore t.core fun c =>
    let sp := c.matSpans t.warp.width k false
    let c := { c with locks := c.locks ++ sp.reads.map (Lock.mk u · false) ++ sp.writes.map (Lock.mk u · true) }
    let c := match k.writes with
      | some r => c.startFill r
      | none => c
    c.modMx fun m =>
      let n := m.lease.count - 1
      { m with ops := m.ops ++ [o], lease := { m.lease with count := n, holder := if n = 0 then none else m.lease.holder } }

/-- The cohort may issue (R330). -/
def State.leased (s : State) (t : Task) : Bool :=
  let l := (s.core t.core).mx.lease
  l.holder == some t.cohort && 0 < l.count

/-- The barrier that an issue by a task sets. -/
def barList (t : Task) (h : Hint) : List (Nat × Nat) := (barOf h).toList.map fun b => (t.uid, b)

/-- An unsigned issue. -/
def matPlain (s : State) (t : Task) (h : Hdr) (q : MatReq) : M Eff :=
  match resolveMat (q.handles.map fun (n, bs) => s.handle t n bs) q with
  | .error e => .error e
  | .ok k =>
    if s.matHeld t k then .error (heldFor (s.matFull t k)) else .ok ⟨s.enqueueMat t k (barList t h.hint), none, true⟩

/-- The records of a signing, where every name is resolved. -/
def signRecs : List (Except Cause (Option HRec)) → Option (List HRec)
  | [] => some []
  | .ok (some r) :: rs => (signRecs rs).map (r :: ·)
  | _ :: _ => none

/-- The handle causes of a signing (R342): none where they leave the operation, or a name that a later signer is to
resolve. -/
def resolveSigned (rs : List (Except Cause (Option HRec))) (q : MatReq) : M (Option MKind) :=
  match raiseOne ((rs.filterMap fun x => match x with
    | .error c => some c
    | .ok _ => none).map Bad.of) with
  | .error e => .error e
  | .ok () => match signRecs rs with
    | none => .ok none
    | some rs => match q.build rs with
      | some k => .ok (some k)
      | none => throwC .handleFormat

/-- A parked signer's instruction completes: its barrier rises, and it goes on. -/
def State.signerGoes (s : State) (x : Nat × Option Nat) : State :=
  match s.task? x.1 with
  | none => s
  | some t => match t.park with
    | some (.sign _ next h) => s.parkDone x.1 next h true
    | _ => s

/-- A signed issue (R336): every signer but the last parks, the last launches. `i` is the instruction less its header;
with the MQ before it, and the operand values read, it is what the signings compare. The handle causes come before
CV_MISMATCH (R342). -/
def matSigned (s : State) (t : Task) (h : Hdr) (cv : Nat) (i : Instr) (q : MatReq) : M Eff :=
  let vals := q.vals ++ ((s.mqOf.2).map (·.2)).toList
  let armed := ((s.core t.core).cv? cv).filter fun r => r.count != 0 && r.owner == t.cohort
  let before := (armed.map fun r => r.signers.map (·.1)).getD []
  let last := armed.any fun r => r.count ≤ r.signers.length + 1
  match resolveSigned (q.handles.map fun (n, bs) => s.signedRec t before last n bs) q with
  | .error e => .error e
  | .ok k =>
    match armed with
    | none => throwC .cvMismatch
    | some r =>
      if before.contains t.uid then throwC .cvMismatch
      else if !r.signers.isEmpty && !(r.instr == some i && r.vals == vals && r.pre == s.cur.pre) then throwC .cvMismatch
      else match last, k with
        | true, some k =>
          if s.matHeld t k then .error (heldFor (s.matFull t k))
          else
            let bars := (r.signers.filterMap fun (u, b) => b.map fun b => (u, b)) ++ barList t h.hint
            let s := s.enqueueMat t k bars
            let s := s.modCore t.core fun c => { c with cvs := c.cvs.filter (·.idx != cv) }
            .ok ⟨r.signers.foldl State.signerGoes s, none, true⟩
        | _, _ =>
          let r := { r with instr := some i, vals := vals, pre := s.cur.pre, signers := r.signers ++ [(t.uid, barOf h.hint)] }
          .error (.parkIn (s.modCore t.core (·.setCv r)) (.sign cv (s.seqPc t) h.hint))

/-- A matrix operation issues (R342). -/
def matIssue (h : Hdr) (s : State) (sg : Sign) (i : Instr) (keys : Task → List RKey) (req : State → Task → MatReq) : Out' :=
  issue h s (fun t _ => keys t) fun s t _ =>
    match undiverged t with
    | .error e => .error e
    | .ok () =>
      if !s.leased t then throwC .leaseViolation
      else
        let q := req s t
        let short : Bool := match q.vdst with
          | some (v, n) => t.warp.count < v + n
          | none => false
        if short then throwC .regNotAllocated
        else if sg.sign then matSigned s t h sg.cv.toNat i q
        else matPlain s t h q

/-- The header that signing compares under. -/
def noHdr : Hdr := ⟨true, false, 7, ⟨0, 7, 0, false, 0⟩⟩

/-- MLDW (R345). -/
def execMldw (h : Hdr) (a : MldwArgs) (s : State) : Out' :=
  matIssue h s a.sg (.mldw noHdr a) (fun t => s.srcKeys t a.pos 1 0) fun s t =>
    let p := s.src t a.pos .n32 0
    let row := natBits p 0 12
    let col := natBits p 12 12
    { handles := [(a.h.toNat, [0])], vals := [p], vdst := none,
      build := fun rs => match rs with
        | [w] =>
          let f := w.desc.format
          if p / 2 ^ 24 ≠ 0 ∨ col % 64 ≠ 0 ∨ w.desc.rows < row + planeN f ∨ w.desc.cols < col + planeK f then none
          else some (.mldw w.idx row col)
        | _ => none }

/-- MFLIP (R345). -/
def execMflip (h : Hdr) (a : MflipArgs) (s : State) : Out' :=
  matIssue h s a.sg (.mflip noHdr a) (fun _ => []) fun _ _ =>
    { handles := [], vals := [], vdst := none, build := fun _ => some .mflip }

/-- The parameter words at a g base. -/
def State.parWords (s : State) (t : Task) (base n : Nat) : List Nat :=
  (List.range n).map fun i => (s.readKey t (kg (base + i))).toNat

/-- Checks that MMA and MMAS share at issue: K is at least 128 and N follows from the activations (R322, R342). -/
def mmaFits (p : List Nat) (rows : Nat) (c a : HRec) (len : Nat) : Bool :=
  rows ≤ 4096 && c.desc.format == accOf a.desc.format && par p 1 0 12 % 64 == 0 &&
  par p 0 0 12 + rows ≤ a.desc.rows && par p 0 12 12 + rows ≤ c.desc.rows &&
  par p 1 0 12 + len ≤ a.desc.cols && par p 1 12 12 + planeN a.desc.format ≤ c.desc.cols && par p 0 24 8 == 0

/-- The product that the operands name. -/
def mmaKind (a : MmaArgs) (p : List Nat) (rows : Nat) (c ar : HRec) (sp : Option (Nat × Nat × Nat)) : MKind :=
  .mma c.idx ar.idx rows (par p 0 0 12) (par p 0 12 12) (par p 1 0 12) (par p 1 12 12) a.cnt.toNat a.dyn sp

/-- MMA (R346). -/
def execMma (h : Hdr) (a : MmaArgs) (s : State) : Out' :=
  matIssue h s a.sg (.mma noHdr a) (fun t => s.srcKeys t a.rows 1 0 ++ gKeys a.par.toNat 2) fun s t =>
    let p := s.parWords t a.par.toNat 2
    let rows := s.src t a.rows .n32 0
    { handles := [(a.c.toNat, [2]), (a.a.toNat, [1])], vals := rows :: p, vdst := none,
      build := fun rs => match rs with
        | [c, ar] => if mmaFits p rows c ar 128 && par p 1 24 8 == 0 then some (mmaKind a p rows c ar none) else none
        | _ => none }

/-- MMAS (R335, R346). -/
def execMmas (h : Hdr) (a : MmasArgs) (s : State) : Out' :=
  matIssue h s a.mma.sg (.mmas noHdr a) (fun t => s.srcKeys t a.mma.rows 1 0 ++ gKeys a.mma.par.toNat 2) fun s t =>
    let p := s.parWords t a.mma.par.toNat 2
    let rows := s.src t a.mma.rows .n32 0
    let l1 := a.l1.toNat
    let l2 := a.l2.toNat
    { handles := [(a.mma.c.toNat, [2]), (a.mma.a.toNat, [1]), (par p 1 24 6, [0])], vals := rows :: p, vdst := none,
      build := fun rs => match rs with
        | [c, ar, m] =>
          if mmaFits p rows c ar (logicalLen 128 l1 l2) && par p 1 30 2 == 0 && m.desc.format == 5 &&
              planeN ar.desc.format ≤ m.desc.rows && ceilDiv (metaBits 128 l1 l2) 8 ≤ m.desc.cols then
            some (mmaKind a.mma p rows c ar (some (m.idx, l1, l2)))
          else none
        | _ => none }

/-- MACZ (R347). -/
def execMacz (h : Hdr) (a : MaczArgs) (s : State) : Out' :=
  matIssue h s a.sg (.macz noHdr a) (fun t => s.srcKeys t a.first 1 0 ++ s.srcKeys t a.rows 1 0) fun s t =>
    let f := s.src t a.first .n32 0
    let n := s.src t a.rows .n32 0
    { handles := [(a.c.toNat, [2])], vals := [f, n], vdst := none,
      build := fun rs => match rs with
        | [c] => if 4096 < n % 8192 ∨ c.desc.rows < f % 4096 + n % 8192 then none
          else some (.macz c.idx (f % 4096) (n % 8192))
        | _ => none }

/-- The rectangle that MACR reads lies in the C tile. -/
def macrFits (p : List Nat) (c : HRec) (rows cols : Nat) : Bool :=
  par p 0 24 8 == 0 && par p 1 24 8 == 0 && par p 0 0 12 + rows ≤ c.desc.rows && par p 1 0 12 + cols ≤ c.desc.cols

/-- The A tile takes the rectangle (R348). -/
def macrTakes (p : List Nat) (a c : HRec) (rows cols : Nat) : Bool :=
  let f := a.desc.format
  (if c.desc.format = 1 then f == 0x5 else f == 0x0 || f == 0x1 || f == 0x7 || f == 0x8 || f == 0x9) &&
  (f != 0x9 || (par p 1 12 12 % 64 == 0 && cols % 64 == 0)) &&
  par p 0 12 12 + rows ≤ a.desc.rows && par p 1 12 12 + cols ≤ a.desc.cols

/-- MACR into an A tile (R348). -/
def execMacr (h : Hdr) (a : MacrArgs) (s : State) : Out' :=
  matIssue h s a.sg (.macr noHdr a) (fun _ => gKeys a.par.toNat 4) fun s t =>
    let p := s.parWords t a.par.toNat 4
    let rows := par p 3 0 12 + 1
    let cols := par p 3 12 12 + 1
    { handles := [(a.c.toNat, [2]), (a.a.toNat, [1])], vals := p, vdst := none,
      build := fun rs => match rs with
        | [c, ar] => if macrFits p c rows cols && par p 3 24 8 == 0 && macrTakes p ar c rows cols then
            some (.macr ar.idx c.idx p a.rm a.sat) else none
        | _ => none }

/-- MACR into v registers (R348). -/
def execMacrV (h : Hdr) (a : MacrVArgs) (s : State) : Out' :=
  matIssue h s ⟨false, 0⟩ (.macrV noHdr a) (fun _ => gKeys a.par.toNat 4) fun s t =>
    let p := s.parWords t a.par.toNat 4
    let n := par p 3 0 5 + 1
    { handles := [(a.c.toNat, [2])], vals := p, vdst := some (a.d.toNat, n),
      build := fun rs => match rs with
        | [c] => if macrFits p c 1 (n * t.warp.width) && par p 3 5 27 == 0 then
            some (.macrV a.d.toNat c.idx p a.rm a.sat) else none
        | _ => none }

/-! ### MQ and MQWAIT (R341, R349) -/

/-- The follower of an MQ in its bundle, with the follower's own encoding faults. -/
inductive Follower where
  | none
  | bad (c : Cause)
  | found (i : Instr)
deriving DecidableEq, Repr

/-- The header of an instruction that may follow MQ. -/
def pairHdr : Instr → Option Hdr
  | .mldw h _ | .mflip h _ | .mma h _ | .mmas h _ | .macz h _ | .macr h _ | .macrV h _ => some h
  | _ => Option.none

/-- The slot after an MQ (R341). -/
def State.follower (s : State) (t : Task) : Follower :=
  let k := slotOf t.warp.pc + 1
  match s.bundleOf t with
  | .error _ => .none
  | .ok b =>
    if !b.pairs (k - 1) then .none
    else match decode (s.privsOf t) (b.slot k) with
      | .error e => .bad (DecodeFault.cause e)
      | .ok i => if (pairHdr i).isSome then .found i else .none

/-- The pair issues as its second slot's instruction, under MQ's guard and the follower's hints. -/
def runFollower (h : Hdr) (i : Instr) (s : State) : Out' :=
  let join (f : Hdr) : Hdr := { h with hint := f.hint }
  match i with
  | .mldw f a => execMldw (join f) a s
  | .mflip f a => execMflip (join f) a s
  | .mma f a => execMma (join f) a s
  | .mmas f a => execMmas (join f) a s
  | .macz f a => execMacz (join f) a s
  | .macr f a => execMacr (join f) a s
  | .macrV f a => execMacrV (join f) a s
  | _ => .next s

/-- MQ: with the slot after it, one instruction (R341, R349). -/
def execMq (h : Hdr) (a : MqArgs) (s : State) : Out' :=
  match s.curTask with
  | none => .fault .noWarp
  | some t =>
    match s.follower t with
    | .none => .next (s.takeTrap t.uid (raise0 .illegalOpcode) .precise t.warp.pc)
    | .bad c => .next (s.takeTrap t.uid (raise0 c) .precise t.warp.pc (pair := true))
    | .found i =>
      let trig := a.trig.map fun (c, v) => (c.toNat, s.src t v .n32 0)
      let keys := match a.trig with
        | some (_, v) => s.srcKeys t v 1 0
        | none => []
      runFollower h i { s with cur := { s.cur with mq := some (a.high, trig), keys := keys, pre := some a } }

/-- MQWAIT (R349): its completion is an acquire. -/
def execMqwait (h : Hdr) (a : SrcArgs) (s : State) : Out' :=
  issue h s (fun t _ => s.srcKeys t a.a 1 0) fun s t _ =>
    let n := s.src t a.a .n32 0
    if ((s.core t.core).mx.ops.filter (·.owner == t.uid)).length ≤ n then .ok (eff (s.acquire t.core none))
    else .error (.park (.mq n))

/-! ### Signers that can no longer meet (R336) -/

/-- The live members of a register's cohort that have not signed cannot bring ARRIVED to COUNT. -/
def State.signLost (s : State) (r : CReg) : Bool :=
  !r.signers.isEmpty &&
  r.signers.length + ((s.liveMembers r.owner).filter fun t => !(r.signers.map (·.1)).contains t.uid).length < r.count

/-- The signing fails: the register keeps its COUNT and OWNER (notes/assumptions/36.md), and its signers stand parked for
a signing that no register holds. -/
def State.signFail (s : State) (core : Nat) (r : CReg) : State :=
  s.modCore core (·.setCv { r with instr := none, vals := [], signers := [], pre := none })

/-- A warp parked in a signing that has failed. -/
def State.signOrphan (s : State) (t : Task) : Bool :=
  match t.park with
  | some (.sign cv _ _) => !((s.core t.core).cv? cv).any fun r => r.signers.any (·.1 == t.uid)
  | _ => false

/-- Failed signings of a core: every parked signer raises CV_MISMATCH, one that is stopped once it is released. -/
def State.settleSigns (s : State) (core : Nat) : State :=
  let s := match (s.core core).cvs.find? (s.signLost ·) with
    | some r => s.signFail core r
    | none => s
  (s.tasks.filter fun t => t.core == core && s.ctxGoes t && t.stop.isNone && s.signOrphan t).foldl (fun s t =>
    s.takeTrap t.uid (raise0 .cvMismatch) .precise t.warp.pc (pair := s.atPair t)) s

/-! ### Events of the engine (R328, R331 to R333, R343) -/

/-- A queue's head is ready: its trigger's counter has the value. -/
def Core.mqReady (c : Core) (o : Option MatOp) : Bool :=
  match o with
  | none => false
  | some o => match o.trig with
    | none => true
    | some (n, v) => v ≤ (spGet c.acnt n).toNat

/-- The head that is admitted next (R332). -/
def Core.nextAdmit (c : Core) : Option MatOp :=
  let hi := (c.queued true).head?
  let no := (c.queued false).head?
  if 8 ≤ (c.mx.ops.filter (·.admitted)).length then none
  else if c.mqReady hi && (!c.mqReady no || c.mx.streak < 8) then hi
  else if c.mqReady no then no
  else none

/-- The active plane that an operation admitted now will meet: the admitted loads and flips done in order. -/
def Core.planeAhead (c : Core) : Bool × Nat :=
  let see (p : Plane) : Bool × Nat := (p.st == .loaded, p.desc.format)
  ((c.mx.ops.filter (·.admitted)).foldl (fun (x : (Bool × Nat) × (Bool × Nat)) o => match o.kind with
    | .mldw w _ _ => (x.1, true, ((c.rec? w).map (·.desc.format)).getD 0)
    | .mflip => (x.2, x.1)
    | .mma _ _ _ _ _ _ _ _ _ _ | .macz _ _ _ | .macr _ _ _ _ _ | .macrV _ _ _ _ _ => x)
    (see c.mx.active, see c.mx.shadow)).1

/-- The engine runs for a task's operations. -/
def State.unitsRun (s : State) (u : Nat) : Bool :=
  match s.task? u with
  | none => false
  | some t => s.mayRun t

/-- Admit an operation: to the end of the admitted ones, with STREAK's change; a product of no rows, or without its
plane, completes (R342, R346). -/
def State.admitMat (s : State) (core : Nat) (o : MatOp) : State :=
  let (loaded, f) := (s.core core).planeAhead
  let ok := (s.core core).planeOk loaded f o.kind
  let s := s.modCore core (·.modMx fun m =>
    { m with ops := (m.ops.filter (·.admitted)) ++ { o with admitted := true } ::
               m.ops.filter fun x => !x.admitted && x.uid != o.uid,
             streak := if o.high then m.streak + 1 else 0 })
  let s := s.modCore core fun c => { c with lastAdmit := some s.clk }
  if !ok then s.matRefused core o
  else match o.kind with
    | .mma _ _ 0 _ _ _ _ _ _ _ => s.matDone core o 0
    | _ => s

/-- QUEUE_ADMIT (R332). -/
def execQueueAdmit (core : Nat) (s : State) : Out' :=
  match (s.core core).nextAdmit with
  | none => .next s
  | some o => if s.unitsRun o.owner then .next (s.admitMat core o) else .next s

/-- The engine's admissions of `n` clk, one in each at most, while a head is ready. -/
def State.admitClks (core : Nat) : Nat → State → State
  | 0, s => s
  | n + 1, s =>
    match (s.core core).nextAdmit with
    | none => s
    | some o => if s.unitsRun o.owner then State.admitClks core n (s.admitMat core o) else s

/-- `n` clk of a core's matrix engine pass (R332). In the first of them it may have admitted an operation already. The
queues hold 32 operations. -/
def State.admitDue (n : Nat) (s : State) (core : Nat) : State :=
  State.admitClks core (min 32 (if (s.core core).lastAdmit = some s.clk then n - 1 else n)) s

/-- The DYN product that streams: the first admitted product, where it is one. -/
def State.dynOp (s : State) (core : Nat) : Option MatOp :=
  (s.core core).mx.ops.find? fun o => (match o.kind with
    | .mma _ _ _ _ _ _ _ _ dyn _ => dyn && !o.fin
    | _ => false) && s.matGoes core o && s.unitsRun o.owner

/-- Where a DYN step goes (R333): the rows that end it and whether the product finishes; none where it waits. -/
def Core.dynNext (c : Core) (o : MatOp) (cnt rows : Nat) : Option (Nat × Bool) :=
  let a := (spGet c.acnt cnt).toNat
  let av := a % 2 ^ 31
  let next := min rows (o.done + 8)
  if next ≤ av then some (next, next == rows)
  else if 2 ^ 31 ≤ a then some (max o.done (min rows av), true)
  else none

/-- Run rows of an operation. -/
def State.runRows (s : State) (core : Nat) (o : MatOp) (hi : Nat) (fin : Bool) : State :=
  let kept := o.kept.getD ((s.core core).metaRows (s.core core).mx.active o.kind)
  let (c, f) := (s.core core).matRows kept o.kind o.done hi
  s.setCore core (c.modMat o.uid fun x => { x with done := hi, fin := fin, flags := x.flags ||| f, kept := some kept })

/-- MMA_DYN_STEP (R333). -/
def execMmaDynStep (core : Nat) (s : State) : Out' :=
  match s.dynOp core with
  | none => .next s
  | some o =>
    match o.kind with
    | .mma _ _ rows _ _ _ _ cnt _ _ =>
      (match (s.core core).dynNext o cnt rows with
       | none => .next s
       | some (hi, fin) => .next (s.runRows core o hi fin))
    | _ => .next s

/-- The operation waits for its counter's rows. -/
def MatOp.dynWaits (o : MatOp) : Bool :=
  match o.kind with
  | .mma _ _ _ _ _ _ _ _ dyn _ => dyn && !o.fin
  | _ => false

/-- MATRIX_OP_COMPLETE (R343): the rows that remain are done and the operation completes; a pick may end the turn at an
earlier step of 8 rows, where a kill or a save would find it (R337, R338; notes/assumptions/12.md). -/
def execMatrixOpComplete (core op : Nat) (s : State) : Out' :=
  match (s.core core).mx.ops.find? (·.uid == op) with
  | none => .next s
  | some o =>
    if !s.matGoes core o || !s.unitsRun o.owner || o.dynWaits then .next s
    else
      let rows := if o.fin then o.done else o.kind.rows
      let steps := ceilDiv (rows - o.done) 8
      let (left, s) := if steps = 0 then (0, s) else s.pick steps
      let s := s.runRows core o (if left = 0 then rows else o.done + 8 * (steps - left)) o.fin
      if left ≠ 0 then .next s
      else
        let (s, f) := s.matFinish core o
        let flags := (((s.core core).mx.ops.find? (·.uid == op)).map (·.flags)).getD 0
        .next (s.matDone core o (flags ||| f))

/-- Both planes can go (R323): no live member of the cohort that last held the lease, and its operations are done. -/
def State.planesDone (s : State) (core : Nat) : Bool :=
  let m := (s.core core).mx
  (m.active.st == .loaded || m.shadow.st == .loaded) && (match m.lease.last with
    | some l => (s.liveMembers l).isEmpty && !(s.core core).cohortOwes l
    | none => false)

/-- PLANES_EMPTY_AT_COHORT_END (R323). -/
def execPlanesEmptyAtCohortEnd (core : Nat) (s : State) : Out' :=
  if s.planesDone core then
    .next (s.modCore core (·.modMx fun m =>
      { m with active := Plane.none, shadow := Plane.none, lease := { m.lease with last := none } }))
  else .next s

end Sys2Proof.Machine
end

