-- ==== Sys2Proof/Machine/Select.lean ====
section
/-! DEFINITION. Class 0xA (15_selection R350 to R363): page summaries cleared and rebuilt, page selection, the staging
of selected pages, index-list gather and scatter. What their segments do is in Machine/Engine.lean. -/

namespace Sys2Proof

/-- E is what a SCATL form needs (R359). -/
def SMode.sizeOk (m : SMode) (e : Nat) : Bool :=
  match m with
  | .plain => true
  | .addN32 | .addF32 => e == 4
  | .addN64 => e == 8

/-- The kind of access a SCATL form makes of its elements (R359, R271). -/
def SMode.kind : SMode → Machine.AccKind
  | .plain => .store
  | .addN32 | .addN64 => .red
  | .addF32 => .fold

end Sys2Proof

namespace Sys2Proof.Machine

/-! ### What the class shares (R353 to R357, R360) -/

/-- Words of the parameter block at a g base. -/
def State.blockWords (s : State) (t : Task) (base n : Nat) : List Nat :=
  (List.range n).map fun i => (s.readKey t (kg (base + i))).toNat

def blockWord (w : List Nat) (i : Nat) : Nat := w[i]?.getD 0

/-- The 64-bit address that a block begins with. -/
def blockAddr (w : List Nat) : Nat := blockWord w 0 + 2 ^ 32 * blockWord w 1

/-- SCRATCH_BOUNDS of a source range: it passes the end, or a line of it is absent (R360, R226). -/
def State.sourceBads (s : State) (t : Task) (a n : Nat) : List Bad :=
  if n = 0 then []
  else if scratchSize < a + n ∨ (scratchLines a n).any (fun x => (s.core t.core).lineSt x == .absent) then
    [⟨.scratchBounds, a, none⟩]
  else []

/-- SCRATCH_BOUNDS of a destination range. -/
def destBads (a n : Nat) : List Bad := if n ≠ 0 ∧ scratchSize < a + n then [⟨.scratchBounds, a, none⟩] else []

/-- A line of a range is pending: the instruction is held (R360). -/
def State.sourcePending (s : State) (t : Task) (a n : Nat) : Bool :=
  (scratchLines a n).any fun x => (s.core t.core).lineSt x == .pending

/-- The lock of a scratchpad range. -/
def scratchSpan (a n : Nat) : List Span := if n = 0 then [] else [.scratch a (a + n)]

/-- The bounding range of ranges of one length at several addresses. -/
def boundsOf (n : Nat) : List Nat → Option (Int × Int)
  | [] => none
  | a :: as => some ((as.foldl min a : Nat), (as.foldl max a + n : Nat))

/-! ### PSUM (R353) -/

/-- The summary records of pages [p, p + n). -/
def Layout.sumAddrs (l : Layout) (addr p n : Nat) : List Nat := (List.range n).map fun i => l.sumAddr addr (p + i)

/-- The first and the last byte of a page that a rebuild reads. -/
def Layout.pageBytes (l : Layout) (addr p : Nat) : Option (Nat × Nat) :=
  if l.valid0 = 0 ∨ l.valid1 = 0 then none
  else some (l.rowAddr addr (64 * p), ((l.valid1 - 1 : Nat) * l.stride1).toNat + l.readLen)

/-- A channel's entries after a row of a page. -/
def Layout.seeRow (l : Layout) (es : List (Nat × Nat)) (row : List Byte) : List (Nat × Nat) :=
  let e := l.elemLen
  es.mapIdx fun i x => if i < l.valid0 then widenEntry l (natOf ((row.drop (e * i)).take e)) x else x

/-- The cleared value of every channel (R351). -/
def clearedChannels : List (Nat × Nat) := List.replicate 128 (0x7F80, 0xFF80)

/-- A summary record. -/
def summaryBytes (es : List (Nat × Nat)) : List Byte := es.flatMap (fun e => bytesOf 2 e.1) ++ es.flatMap fun e => bytesOf 2 e.2

/-- Read the rows of a page below VALID1. -/
def State.pageRows (s : State) (core ctx : Nat) (l : Layout) (addr p : Nat) : List Nat → Seg (State × List (List Byte))
  | [] => .ok (s, [])
  | i :: is =>
    match s.engRead core ctx (l.rowAddr addr (64 * p + i)) l.readLen with
    | .error e => .error e
    | .ok (s, bs) => match State.pageRows s core ctx l addr p is with
      | .error e => .error e
      | .ok (s, rs) => .ok (s, bs :: rs)

/-- The new summary of a page, written. -/
def State.sumPage (s : State) (core ctx : Nat) (l : Layout) (addr : Nat) (rebuild : Bool) (p : Nat) : Seg State :=
  let rows : Seg (State × List (List Byte)) :=
    if rebuild && l.valid0 != 0 then s.pageRows core ctx l addr p (List.range l.valid1) else .ok (s, [])
  match rows with
  | .error e => .error e
  | .ok (s, rs) => s.engWrite core ctx (l.sumAddr addr p) (summaryBytes (rs.foldl l.seeRow clearedChannels))

/-- Pages in turn, up to the first that faults; each record is a store of the task. -/
def State.sumPages (s : State) (core ctx u : Nat) (l : Layout) (addr : Nat) (rebuild : Bool) :
    List Nat → State × Option SegStop
  | [] => (s, none)
  | p :: ps =>
    match s.sumPage core ctx l addr rebuild p with
    | .error e => (s, some e)
    | .ok s => State.sumPages (s.noteVas core u [(l.sumAddr addr p, 512)]) core ctx u l addr rebuild ps

/-- Regions and alignment of PSUM, whole range at once. -/
def psumBads (t : Task) (l : Layout) (addr p n : Nat) (rebuild : Bool) : List Bad :=
  (if addr % 16 ≠ 0 then [⟨.misaligned, addr, none⟩] else []) ++
  (if (l.sumAddrs addr p n).all (t.declares .store · 512) &&
      (!rebuild || (List.range n).all fun i => match l.pageBytes addr (p + i) with
        | some (a, k) => t.declares .load a k
        | none => true) then []
   else [⟨.undeclaredAccess, addr, none⟩])

/-- The ranges of PSUM: the bounding ranges of what it reads and of the records it writes (R301). -/
def psumSpans (ctx : Nat) (l : Layout) (addr p n : Nat) (rebuild : Bool) : List Span × List Span :=
  let pages := (List.range n).filterMap fun i => l.pageBytes addr (p + i)
  (if rebuild then rangeSpan ctx (boundsOf ((pages.map (·.2)).headD 0) (pages.map (·.1))) else [],
   rangeSpan ctx (boundsOf 512 (l.sumAddrs addr p n)))

/-- The table has no room for PSUM's ranges (R301). -/
def Core.psumFull (c : Core) (reads writes : List Span) : Bool := 256 < c.locks.length + reads.length + writes.length

/-- PSUM waits: there is no room, or a range is locked. -/
def Core.psumHeld (c : Core) (reads writes : List Span) : Bool :=
  c.psumFull reads writes || c.conflicts reads writes (fun _ => false)

/-- What is wrong with a line that memory cannot deliver (R366). -/
def State.lineCause (s : State) (t : Task) (va : Nat) : Cause :=
  (s.badData t true (s.paAt t.core (s.ctxOf t) va)).getD .memoryUncorrectable

/-- PSUM: held while its range is locked, the table is full, or earlier accesses of the task have still to perform,
then page by page. -/
def psum (h : Hdr) (a : PsumArgs) (rebuild : Bool) (s : State) : Out' :=
  issue h s (fun t _ => gKeys a.base.toNat 4 ++ s.srcKeys t a.layout 1 0) fun s t _ =>
    withJob s t fun j =>
      let w := s.blockWords t a.base.toNat 4
      let addr := blockAddr w
      let p := blockWord w 2
      let n := blockWord w 3
      match s.layoutAt t.core j (s.src t a.layout .n32 0) with
      | .error b => failWith [b]
      | .ok l =>
        let s := s.touchLayout t.core j (s.src t a.layout .n32 0)
        if !l.summary || l.size2 < p + n then throwC .handleFormat
        else
          match raiseOne (psumBads t l addr p n rebuild) with
          | .error e => .error e
          | .ok () =>
            let ctx := s.ctxOf t
            let (rd, wr) := psumSpans ctx l addr p n rebuild
            if !s.released t then .error .hold
            else if (s.core t.core).psumHeld rd wr then .error (heldFor ((s.core t.core).psumFull rd wr))
            else match s.sumPages t.core ctx t.uid l addr rebuild ((List.range n).map (p + ·)) with
              | (s, none) => .ok (eff s)
              | (s, some .wait) => .error (.done s)
              | (s, some (.unreachable va)) => .error (.raiseIn s ⟨.remoteUnreachable, va, 0, 0, none⟩)
              | (s, some (.fault va (some e))) => .error (.raiseIn s ⟨e.cause, va, 0, 0, some (3, va, e)⟩)
              | (s, some (.fault va none)) => .error (.raiseIn s ⟨s.lineCause t va, va, 0, 0, none⟩)

/-- PSUM.CLR (R353). -/
def execPsumClr (h : Hdr) (a : PsumArgs) (s : State) : Out' := psum h a false s

/-- PSUM.REBUILD (R353). -/
def execPsumRebuild (h : Hdr) (a : PsumArgs) (s : State) : Out' := psum h a true s

/-! ### PSEL (R354, R355) -/

/-- The parameter block of PSEL is in its ranges. -/
def pselFits (l : Layout) (w : List Nat) : Bool :=
  l.summary && blockWord w 2 + blockWord w 3 ≤ l.size2 && blockWord w 4 % 16 == 0 && blockWord w 6 ≤ 256 &&
  blockWord w 7 == 0

/-- PSEL. -/
def execPsel (h : Hdr) (a : PselArgs) (s : State) : Out' :=
  issue h s (fun t _ => s.srcKeys t a.list 1 0 ++ gKeys a.base.toNat 8 ++ s.srcKeys t a.layout 1 0) fun s t _ =>
    match undiverged t with
    | .error e => .error e
    | .ok () =>
      withJob s t fun j =>
        let w := s.blockWords t a.base.toNat 8
        let addr := blockAddr w
        let p := blockWord w 2
        let n := blockWord w 3
        let q := blockWord w 4
        let list := s.src t a.list .n32 0
        match s.layoutAt t.core j (s.src t a.layout .n32 0) with
        | .error b => failWith [b]
        | .ok l =>
          let s := s.touchLayout t.core j (s.src t a.layout .n32 0)
          if !pselFits l w then throwC .handleFormat
          else
            let range := boundsOf 512 (l.sumAddrs addr p n)
            let kind : OpKind := .psel list l addr p n q (blockWord w 5) (blockWord w 6)
            let bads := State.layoutBads t l .load addr range ++
              (if list % 16 ≠ 0 then [⟨.misaligned, list, none⟩] else []) ++
              s.sourceBads t q (2 * l.size0) ++ destBads list kind.total
            acceptOp s t bads
              ⟨kind, rangeSpan (s.ctxOf t) range ++ scratchSpan q (2 * l.size0), scratchSpan list kind.total, creditOf a.cr,
                barOf h.hint, none, false⟩
              (if s.sourcePending t q (2 * l.size0) then .error .hold else .ok ()) addr

/-! ### PGATH (R356) -/

/-- The bounding range of the bytes of pages in memory. -/
def Layout.pagesBounds (l : Layout) (addr : Nat) (pages : List Nat) : Option (Int × Int) :=
  if l.valid0 = 0 ∨ l.valid1 = 0 then none
  else
    let ends : List (Int × Int) := pages.map fun (p : Nat) =>
      let a := (addr : Int) + p * l.stride2
      let b := (l.valid1 - 1 : Nat) * l.stride1
      (a + min 0 b, a + max 0 b + l.readLen)
    match ends with
    | [] => none
    | e :: es => some (es.foldl (fun m x => min m x.1) e.1, es.foldl (fun m x => max m x.2) e.2)

/-- A 32-bit word of the scratchpad. -/
def State.scratchWord (s : State) (core a : Nat) : Nat := natOf ((s.core core).scratchBytes a 4)

/-- The pages that entries [e, e + m) of a list name, below its COUNT. -/
def State.listPages (s : State) (core list e m : Nat) : List Nat :=
  ((List.range m).filter fun j => e + j < s.scratchWord core list).map fun j => s.scratchWord core (list + 16 + 4 * (e + j))

/-- An operation that ends as it begins: its record has been FILLING and is VALID, and the cause is posted with the
instruction's address (R356, R342). -/
def State.stillborn (s : State) (t : Task) (r : Nat) (c : Cause) : State :=
  (s.modCore t.core fun x => (x.startFill r).settleRec r).post t.uid c t.warp.pc.toNat none true

/-- PGATH. -/
def execPgath (h : Hdr) (a : PgathArgs) (s : State) : Out' :=
  issue h s (fun t _ => gKeys a.base.toNat 4 ++ s.srcKeys t a.layout 1 0) fun s t _ =>
    match undiverged t with
    | .error e => .error e
    | .ok () =>
      withJob s t fun j =>
        let w := s.blockWords t a.base.toNat 4
        let addr := blockAddr w
        let list := blockWord w 2
        let e := blockWord w 3
        match s.handle t a.h.toNat [1], s.layoutAt t.core j (s.src t a.layout .n32 0) with
        | .error c, .error b => failWith [Bad.of c, b]
        | .error c, .ok _ => failWith [Bad.of c]
        | .ok _, .error b => failWith [b]
        | .ok r, .ok l =>
          let s := s.touchLayout t.core j (s.src t a.layout .n32 0)
          let d := r.desc
          let m := d.rows / 64
          if l.size1 ≠ 64 ∨ l.size3 ≠ 1 ∨ l.w32 ∨ d.format ≠ l.format ∨ d.block ≠ l.block ∨ d.cols ≠ l.size0 ∨
              d.rows % 64 ≠ 0 ∨ list % 16 ≠ 0 then throwC .handleFormat
          else
            let entries := list + 16 + 4 * e
            let srcBads := s.sourceBads t list 16 ++ s.sourceBads t entries (4 * m)
            let waits := s.sourcePending t list 16 || s.sourcePending t entries (4 * m)
            let pages := s.listPages t.core list e m
            let wild := pages.any (l.size2 ≤ ·)
            if srcBads.isEmpty && !waits && wild then
              -- accepted, and aborted as it begins
              let n : NewOp := ⟨.pgath r.idx l addr pages d.rows, scratchSpan list 16 ++ scratchSpan entries (4 * m),
                [.tile r.idx 0 (d.rows * d.pitch)], none, none, none, false⟩
              if !s.drainedOut t then .error .hold
              else if (s.core t.core).opHeld n then .error (heldFor ((s.core t.core).opFull n))
              else .ok (eff (s.stillborn t r.idx .handleFormat))
            else
              let range := if srcBads.isEmpty && !waits then l.pagesBounds addr pages else none
              let bads := (if t.declaresRange .load range then [] else [⟨.undeclaredAccess, addr, none⟩]) ++ srcBads
              let n := 64 * pages.length * d.pitch
              acceptOp s t bads
                ⟨.pgath r.idx l addr pages d.rows,
                  rangeSpan (s.ctxOf t) range ++ scratchSpan list 16 ++ scratchSpan entries (4 * m),
                  if n = 0 then [] else [.tile r.idx 0 n], creditOf a.cr, barOf h.hint, none, false⟩
                (if waits then .error .hold else .ok ()) addr

/-! ### GATHL and SCATL (R357 to R359) -/

/-- The shared parameter block: base, list, count and element size; none where a field is bad. -/
structure ListArgs where
  base : Nat
  list : Nat
  n : Nat
  e : Nat
  stride : Nat
deriving DecidableEq, Repr

def listArgs (w : List Nat) (stride : Nat) : Option ListArgs :=
  let x := blockWord w 3
  let e := 2 ^ natBits x 13 3
  if 4096 < natBits x 0 13 ∨ 6 < natBits x 13 3 ∨ natBits x 16 16 ≠ 0 ∨ blockWord w 2 % 4 ≠ 0 ∨ stride % e ≠ 0 then none
  else some ⟨blockAddr w, blockWord w 2, natBits x 0 13, e, stride⟩

/-- The element addresses a(j). -/
def State.listAddrs (s : State) (core : Nat) (x : ListArgs) : List Nat :=
  (List.range x.n).map fun j => (x.base + s.scratchWord core (x.list + 4 * j) * x.stride) % 2 ^ 64

/-- What both check beside their packed side: the base, the list, and every element's mode. -/
def State.listBads (s : State) (t : Task) (x : ListArgs) (k : AccKind) : List Bad :=
  let src := s.sourceBads t x.list (4 * x.n)
  (if x.base % x.e ≠ 0 then [⟨.misaligned, x.base, none⟩] else []) ++ src ++
  (if !src.isEmpty || s.sourcePending t x.list (4 * x.n) then []
   else match (s.listAddrs t.core x).find? fun a => !t.declares k a x.e with
     | some a => [⟨.undeclaredAccess, a, none⟩]
     | none => [])

/-- The bounding range of the elements. -/
def State.listRange (s : State) (core : Nat) (x : ListArgs) : Option (Int × Int) := boundsOf x.e (s.listAddrs core x)

/-- The scratchpad offset of a packed side is a multiple of 128. -/
def packedBads (off : Nat) : List Bad := if off % 128 ≠ 0 then [⟨.misaligned, off, none⟩] else []

/-- GATHL: its packed side with what is wrong there, ahead of the checks that follow. -/
def State.gatherSide (s : State) (t : Task) (x : GSide) : Except Cause (Side × Option HRec) :=
  match x with
  | .handle n => (match s.handle t n.toNat [1] with
    | .error c => .error c
    | .ok r => .ok (.record r.idx, some r))
  | .scratch o => .ok (.scratch (s.src t o .n32 0), none)

/-- The registers a packed side reads. -/
def State.gsideKeys (s : State) (t : Task) : GSide → List RKey
  | .handle _ => []
  | .scratch o => s.srcKeys t o 1 0

/-- GATHL (R358). -/
def execGathl (h : Hdr) (a : GathlArgs) (s : State) : Out' :=
  issue h s (fun t _ => s.gsideKeys t a.side ++ gKeys a.base.toNat 4 ++ s.srcKeys t a.stride 1 0) fun s t _ =>
    match undiverged t with
    | .error e => .error e
    | .ok () =>
      let w := s.blockWords t a.base.toNat 4
      match s.gatherSide t a.side, listArgs w (s.src t a.stride .n32 0) with
      | .error c, none => failWith [Bad.of c, Bad.of .handleFormat]
      | .error c, some _ => failWith [Bad.of c]
      | .ok _, none => throwC .handleFormat
      | .ok (side, rec_), some x =>
        let small : Bool := match rec_ with
          | some r => decide (r.desc.extent < x.n * x.e)
          | none => false
        if small then throwC .handleFormat
        else
          let waits := s.sourcePending t x.list (4 * x.n)
          let kind : OpKind := .gathl side x.e (s.listAddrs t.core x)
          let (bads, dst) : List Bad × List Span := match side with
            | .scratch off => (packedBads off ++ destBads off kind.total, scratchSpan off kind.total)
            | .record r => ([], if kind.total = 0 then [] else [.tile r 0 kind.total])
          acceptOp s t (s.listBads t x .load ++ bads)
            ⟨kind, rangeSpan (s.ctxOf t) (if waits then none else s.listRange t.core x) ++ scratchSpan x.list (4 * x.n), dst,
              creditOf a.cr, barOf h.hint, none, false⟩
            (if waits then .error .hold else .ok ()) x.base

/-- SCATL (R359): .add.f32 takes the task's next issue index; every SCATL.ADD counts in it (R277). -/
def execScatl (h : Hdr) (a : ScatlArgs) (s : State) : Out' :=
  issue h s (fun t _ => s.srcKeys t a.off 1 0 ++ gKeys a.base.toNat 4 ++ s.srcKeys t a.stride 1 0) fun s t _ =>
    match undiverged t with
    | .error e => .error e
    | .ok () =>
      let w := s.blockWords t a.base.toNat 4
      match listArgs w (s.src t a.stride .n32 0) with
      | none => throwC .handleFormat
      | some x =>
        if !a.mode.sizeOk x.e then throwC .handleFormat
        else
          let off := s.src t a.off .n32 0
          let len := x.n * x.e
          let waits := s.sourcePending t x.list (4 * x.n) || s.sourcePending t off len
          let range := if waits then none else s.listRange t.core x
          let kind : OpKind := .scatl off a.mode x.e t.warp.issueIdx.toNat (s.listAddrs t.core x)
          match acceptOp s t (s.listBads t x a.mode.kind ++ packedBads off ++ s.sourceBads t off len)
              ⟨kind, scratchSpan off len ++ scratchSpan x.list (4 * x.n), rangeSpan (s.ctxOf t) range, creditOf a.cr,
                barOf h.hint, none, false⟩
              (if waits then .error .hold else .ok ()) x.base with
          | .error e => .error e
          | .ok e =>
            .ok (if a.mode ≠ .plain then
                { e with s := e.s.modWarp t.uid fun w => { w with issueIdx := w.issueIdx + 1 } }
              else e)

end Sys2Proof.Machine
end

