-- ==== Sys2Proof/Machine/Drain.lean ====
section
/-! DEFINITION. What comes back to the cores: register results (02_encoding R38, 03_registers R68), the starvation
count (07_control R143), posted causes (16_system R365, R380), store-buffer entries and their acknowledgements
(10_memory R229 to R231), WAITV wakes (R237), evictions of the memory-side cache (17_memsys R398), page walks and
first-use claims (R400, R405), and killed tasks reaching DONE (11_consistency R247, 14_matrix R323). -/

namespace Sys2Proof.Machine

/-! ### Register results -/

/-- REGISTER_RESULT_RETURN: the result is written and its barrier falls; one whose slot has gone on to another warp is
dropped and counted. -/
def execRegisterResultReturn (core idx : Nat) (s : State) : Out' :=
  match (s.core core).returns[idx]? with
  | none => .next s
  | some r =>
    let s := s.modCore core fun c => { c with returns := c.returns.eraseIdx idx }
    if spGet (s.core core).gens r.slot ≠ r.gen then .next (if r.regs then s.modCore core (·.countDropped) else s)
    else
      let s := s.modWarp r.task (·.landOf fun i => i.source == .request r.uid)
      .next (match r.bar with
        | some b => s.dropBar r.task b
        | none => s)

/-- The task in a slot of a core. -/
def State.inSlot (s : State) (core slot : Nat) : Option Task :=
  s.tasks.find? fun t => t.core == core && t.slot == some slot

/-- A warp whose wait count has reached 64 is starving (R143). -/
def Task.starves (t : Task) : Bool := t.isStarving && !t.starving

/-- WARP_STARVING. -/
def execWarpStarving (core slot : Nat) (s : State) : Out' :=
  match s.inSlot core slot with
  | none => .next s
  | some t => if t.starves then .next (s.setTask { t with starving := true }) else .next s

/-! ### Posted causes -/

/-- A task that stands at an instruction boundary, may run, and is not stopped. A debugger's halt finds one in a saved
warp too. -/
def State.atBoundary (s : State) (t : Task) (halt : Bool) : Bool :=
  t.stop.isNone && s.mayRun t && t.readyAt ≤ s.clk &&
  (match t.st with
   | .running | .parked | .ending => true
   | .runnable => halt && t.saved
   | .spawned | .staging | .done => false)

/-- A task whose halt is still to come, and which nothing else has stopped. -/
def Task.haltDue (t : Task) : Bool := t.stop.isNone && t.st != .done && t.posted.any (·.cause == .haltRequest)

/-- The first cause posted to the task can be taken now: a halt of its cohort, once the members before it have halted
(R380). -/
def State.takesPosted (s : State) (t : Task) : Bool :=
  t.killedBy.isNone && (match t.posted with
    | [] => false
    | p :: _ => s.atBoundary t (p.cause == .haltRequest) &&
        p.after.all fun u => !((s.task? u).map (·.haltDue)).getD false)

/-- Take the first posted cause of a task (R365, R380). -/
def State.takePosted (s : State) (t : Task) : State :=
  match t.posted with
  | p :: rest =>
    let s := s.setTask { t with posted := rest }
    s.takeTrap t.uid ⟨p.cause, p.faddr, 0, 0, none⟩ .posted t.warp.pc (op := p.op) (opaddr := p.opaddr)
  | [] => s

/-- POSTED_CAUSE_TAKEN. -/
def execPostedCauseTaken (task : Nat) (s : State) : Out' :=
  match s.task? task with
  | none => .next s
  | some t => if s.takesPosted t then .next (s.takePosted t) else .next s

/-! ### The store buffer -/

/-- Positions of the entries that no earlier entry of the same owner and line stands before. -/
def freeEntries (l : List StoreEnt) : List Nat :=
  (List.range l.length).filter fun i => match l[i]? with
    | none => false
    | some e => !(l.take i).any fun x => x.owner == e.owner && x.line == e.line

/-- The unacknowledged-store counter of an entry's owner can rise. -/
def State.mayDrain (s : State) (e : StoreEnt) : Bool :=
  match s.task? e.owner with
  | none => true
  | some t => t.unacked < 1023

/-- Positions of the entries that can drain now. -/
def State.drainable (s : State) (core : Nat) : List Nat :=
  (freeEntries (s.core core).storeBuf).filter fun i => match (s.core core).storeBuf[i]? with
    | none => false
    | some e => s.mayDrain e

/-- STORE_BUFFER_DRAIN (R230): one entry leaves for its home slice. -/
def execStoreBufferDrain (core : Nat) (s : State) : Out' :=
  let is := s.drainable core
  if is.isEmpty then .next s
  else
    let (k, s) := s.pick is.length
    let i := (pickMod is k).getD 0
    match (s.core core).storeBuf[i]? with
    | none => .next s
    | some e =>
      let s := s.modCore core fun c => { c with storeBuf := c.storeBuf.eraseIdx i, drained := c.drained ++ [e] }
      .next (s.modTask e.owner fun t => { t with unacked := t.unacked + 1 })

/-- Bytes of an entry, at their addresses. -/
def StoreEnt.cells (e : StoreEnt) : List (Nat × Byte) :=
  (List.range 128).filterMap fun i =>
    if e.mask.getLsbD i then some (128 * e.line + i, e.data.extractLsb' (8 * i) 8) else none

/-- Join cells at successive addresses. -/
def runsOf : List (Nat × Byte) → List (Nat × List Byte)
  | [] => []
  | (a, b) :: l => match runsOf l with
    | (a', bs) :: rest => if a' = a + 1 then (a, b :: bs) :: rest else (a, [b]) :: (a', bs) :: rest
    | [] => [(a, [b])]

/-- Positions of the drained entries that can be acknowledged now. -/
def State.ackable (s : State) (core : Nat) : List Nat :=
  (freeEntries (s.core core).drained).filter fun i => match (s.core core).drained[i]? with
    | none => false
    | some e => !s.notReady (128 * e.line)

/-- The stores of an entry perform, and its barriers' parts are done (R230, R233). -/
def State.landEntry (s : State) (core : Nat) (e : StoreEnt) : State :=
  e.tokens.foldl (fun s id => s.spendToken core id)
    ((runsOf e.cells).foldl (fun s (a, bs) => s.perform (some core) a bs) s)

/-- STORE_ACK (R230): the stores of an entry have performed at the home slice. -/
def execStoreAck (core : Nat) (s : State) : Out' :=
  let is := s.ackable core
  if is.isEmpty then .next s
  else
    let (k, s) := s.pick is.length
    let i := (pickMod is k).getD 0
    match (s.core core).drained[i]? with
    | none => .next s
    | some e =>
      let s := (s.modCore core fun c => { c with drained := c.drained.eraseIdx i }).landEntry core e
      .next (s.modTask e.owner fun t => { t with unacked := t.unacked - 1 })

/-! ### Wakes, evictions, walks -/

/-- A write to the watched word has performed, and the warp's context runs. -/
def State.wakesNow (s : State) (t : Task) : Bool :=
  t.park == some .waitv && s.ctxGoes t && s.watches.any fun w => w.task == t.uid && w.hit

/-- WAITV_WAKE (R237): the warp compares again. -/
def execWaitvWake (task : Nat) (s : State) : Out' :=
  match s.task? task with
  | none => .next s
  | some t => if s.wakesNow t then .next ((s.unwatch task).wake task) else .next s

/-- MSC_EVICT (R398). -/
def execMscEvict (idx : Nat) (s : State) : Out' :=
  match s.msc[idx]? with
  | none => .next s
  | some e => .next (s.mscEvict e.line)

/-- PAGE_WALK (R400, R402): a walk that finds a leaf fills the TLBs; one that fails leaves nothing (the access that
needed it takes the fault). -/
def execPageWalk (core ctx va : Nat) (s : State) : Out' := .next (s.touch core ctx va)

/-- ZFU_CLAIM (R405): the page of a leaf with ZFU is zeroed and the bit cleared. -/
def execZfuClaim (core ctx va : Nat) (s : State) : Out' :=
  match s.foundLeaf core ctx va with
  | .error _ => .next s
  | .ok f => if f.zfu then .next (s.touch core ctx va) else .next s

/-! ### Killed tasks reach DONE -/

/-- The planes that a task's cohort leaves behind must be EMPTY before its last member is DONE (R323). -/
def State.planesHold (s : State) (t : Task) : Bool :=
  let m := (s.core t.core).mx
  m.lease.last == some t.cohort && (m.active.st == .loaded || m.shadow.st == .loaded) &&
  (s.liveMembers t.cohort).isEmpty

/-- A killed task waits for nothing. -/
def State.killedOut (s : State) (t : Task) : Bool :=
  t.killedBy.isSome && t.st == .ending && s.ctxGoes t && s.drainedOut t && !s.planesHold t

/-- Killed tasks whose stores are all acknowledged reach DONE. -/
def State.settleKilled (s : State) : State :=
  if s.tasks.any (s.killedOut ·) then
    { s with tasks := s.tasks.map fun t => if s.killedOut t then { t with st := .done } else t }
  else s

end Sys2Proof.Machine
end

