-- ==== Sys2Proof/Machine/Job.lean ====
section
/-! DEFINITION. Jobs (09_scheduling R187 to R205): the record and what makes it bad, the queue's order and what fits,
launching, and the three job instructions of class 0x5. -/

namespace Sys2Proof.Machine

/-! ### The job record (R187, R188) -/

/-- `n` bytes of a record at an offset, little-endian. -/
def recField (bs : List Byte) (off n : Nat) : Nat := natOf ((bs.drop off).take n)

/-- The device's copy of a record. -/
def recOf (bs : List Byte) : JobRec :=
  let f := recField bs
  { mode := f 6 1 % 4, ctx := f 7 1 % 16, deadline := f 8 8, budget := f 0x10 8, period := f 0x18 8,
    codeBase := f 0x20 8, codeSize := f 0x28 4, regionBase := f 0x30 8, regionSize := f 0x2C 4,
    closureBase := f 0x38 8, closureSize := f 0x40 4, root := f 0x44 4, trapEntry := natBits (f 0x48 4) 0 26,
    layoutBase := f 0xB0 8, layoutSize := f 0x4C 4, overflowBase := f 0x50 8, saveBase := f 0x58 8,
    spillBase := f 0x60 8, spillSize := f 0x68 8, logBase := f 0x70 8, logSize := f 0x78 8,
    coreSet := (List.range 288).filter fun c => natBit (f 0x80 40) c, regShare := f 0xA8 2, regionShare := f 0xAA 2 }

/-- A record's own fields are bad (R188). -/
def recBad (part : Part) (bs : List Byte) : Bool :=
  let f := recField bs
  let r := recOf bs
  f 0 4 != 0x424F4A5A || f 4 2 != 1 || r.mode == 3 || f 6 1 / 4 != 0 || f 7 1 / 16 != 0 ||
  r.codeBase % 64 != 0 || r.codeSize % 64 != 0 || r.regionSize % 16 != 0 || r.regionBase % 16 != 0 ||
  r.closureBase % 64 != 0 || r.closureSize % 64 != 0 || r.closureSize < 64 || natBits (f 0x48 4) 26 6 != 0 ||
  r.layoutSize % 32 != 0 || r.layoutBase % 32 != 0 || r.overflowBase % 2 ^ 20 != 0 || f 0x80 40 / 2 ^ 288 != 0 ||
  r.coreSet.isEmpty || r.coreSet.any (part.cores ≤ ·) || r.regShare < 4 || 2048 < r.regShare || r.regionShare < 1 ||
  8192 < r.regionShare || f 0xAC 4 != 0 || f 0xB8 72 != 0 || r.closureSize / 64 ≤ r.root

/-- Segments and areas of a record: base, size and permission (R189). -/
def JobRec.areas (r : JobRec) : List (Nat × Nat × Need) :=
  [(r.codeBase, r.codeSize, needX), (r.regionBase, r.regionSize, needR), (r.closureBase, r.closureSize, needR),
   (r.layoutBase, r.layoutSize, needR), (r.overflowBase, r.coreSet.length * 2 ^ 20, needRW),
   (r.saveBase, r.coreSet.length * 2 ^ 23, needRW), (r.spillBase, r.spillSize, needRW),
   (r.logBase, r.logSize, needRW)]

/-- The first and the last byte of an area translate. -/
def State.areaOk (s : State) (core ctx : Nat) (x : Nat × Nat × Need) : Bool :=
  let ok (va : Nat) : Bool := match s.xlate core ctx va x.2.2 with
    | .ok _ => true
    | .error _ => false
  x.2.1 == 0 || (ok x.1 && ok (x.1 + x.2.1 - 1))

/-- The root closure of a record, by its context's tables. -/
def State.rootLine (s : State) (core : Nat) (r : JobRec) : Option Line :=
  match s.vread core r.ctx (r.closureBase + 64 * r.root) 64 needR with
  | .ok bs => some ((List.range 16).map fun i => BitVec.ofNat 32 (recField bs (4 * i) 4))
  | .error _ => none

/-- The root closure fails R162, or R188's own demands on it. -/
def rootBad (r : JobRec) (l : Line) : Bool :=
  clShapeBad l || 16 < clRegions l || r.regionSize < 16 * clRlist l + 16 * clRegions l || clFuture l != 0 ||
  clSize l != 1

/-- A good record with its root closure. -/
def State.goodRecord (s : State) (bs : List Byte) : Option (JobRec × Line) :=
  if recBad s.part bs then none
  else
    let r := recOf bs
    let core := r.coreSet.headD 0
    if !r.areas.all (s.areaOk core r.ctx ·) then none
    else match s.rootLine core r with
      | none => none
      | some l => if rootBad r l then none else some (r, l)

/-- Reading the root closure leaves its translation behind, and claims a first-use page (R402, R405). -/
def State.touchRoot (s : State) (r : JobRec) : State :=
  s.touchSpan (r.coreSet.headD 0) r.ctx (r.closureBase + 64 * r.root) 64

/-- What a child's record must meet (R198). -/
def childOk (p : Job) (r : JobRec) : Bool :=
  r.coreSet.all (p.rec_.coreSet.contains ·) && r.regShare ≤ p.rec_.regShare && r.regionShare ≤ p.rec_.regionShare &&
  r.ctx == p.rec_.ctx && r.mode == p.rec_.mode

/-! ### The queue (R193, R194) -/

def State.pendingJobs (s : State) : List Job := s.jobs.filter (·.st == .pending)

/-- Order of the queue: DEADLINE, then job identifier. -/
def Job.before (a b : Job) : Bool :=
  a.rec_.deadline < b.rec_.deadline || (a.rec_.deadline == b.rec_.deadline && a.id.toNat < b.id.toNat)

/-- The jobs that the queue considers, in order: those of the RUNNING context. -/
def State.queue (s : State) : List Job :=
  sortBy Job.before (s.pendingJobs.filter fun j => (s.ctx j.rec_.ctx).st == .running)

/-- The jobs whose reservations stand beside a job's: active root jobs, or its parent's active children. -/
def State.rivals (s : State) (j : Job) : List Job :=
  s.jobs.filter fun x => x.holds && x.parent == j.parent && x.id != j.id

/-- Granules of a core, and records of a die, that a job's reservations come out of. -/
def State.regTotal (s : State) (j : Job) : Nat :=
  match j.parent with
  | none => 2048
  | some p => ((s.job? p).map (·.rec_.regShare)).getD 0

def State.regionTotal (s : State) (j : Job) : Nat :=
  match j.parent with
  | none => 8192
  | some p => ((s.job? p).map (·.rec_.regionShare)).getD 0

/-- Dies that hold a core of a set. -/
def diesOf (set : List Nat) : List Nat := (set.map dieOf).eraseDups

def sumBy {α : Type} (f : α → Nat) (l : List α) : Nat := l.foldl (fun acc x => acc + f x) 0

def State.regFits (s : State) (j : Job) : Bool :=
  j.rec_.coreSet.all fun c =>
    sumBy (·.rec_.regShare) ((s.rivals j).filter (·.rec_.coreSet.contains c)) + j.rec_.regShare ≤ s.regTotal j

def State.regionFitsOn (s : State) (j : Job) (d : Nat) : Bool :=
  sumBy (·.rec_.regionShare) ((s.rivals j).filter fun x => (diesOf x.rec_.coreSet).contains d) + j.rec_.regionShare ≤
    s.regionTotal j

/-- The job's shares fit, and for a child its parent holds the reservation they come out of (R194, R198). -/
def State.jobFits (s : State) (j : Job) : Bool :=
  s.regFits j && (diesOf j.rec_.coreSet).all (s.regionFitsOn j ·) &&
  (match j.parent with
   | none => true
   | some p => match s.job? p with
     | some x => x.holds
     | none => false)

/-- The 1 ms bound follows the first job of the queue; a job that has reached it holds back those behind it until it
leaves the queue, whatever comes to stand before it. -/
def State.refirst (s : State) : State :=
  let s := if s.stuck.isEmpty then s
    else { s with stuck := s.stuck.filter fun i => s.pendingJobs.any (·.id == i) }
  match s.queue, s.firstJob with
  | [], none => s
  | [], some _ => { s with firstJob := none }
  | j :: _, some (i, _) => if i = j.id then s else { s with firstJob := some (j.id, s.timeNs.toNat) }
  | j :: _, none => { s with firstJob := some (j.id, s.timeNs.toNat) }

/-! ### Launching (R192, R203) -/

/-- The identifier after the last one a root job received, skipping zero and those in use (R192). -/
def State.rootId (s : State) : BitVec 32 :=
  let cand (i : Nat) : BitVec 32 := s.lastRootId + BitVec.ofNat 32 (i + 1)
  ((List.range (s.jobs.length + 2)).find? fun i => cand i != 0 && (s.job? (cand i)).isNone).elim 1 cand

/-- An identifier for a child job: any that is free. -/
def State.childId (s : State) : BitVec 32 × State :=
  let (p, s) := s.pick (2 ^ 32)
  let cand (i : Nat) : BitVec 32 := s.lastRootId + BitVec.ofNat 32 (p + i + 1)
  (((List.range (s.jobs.length + 2)).find? fun i => cand i != 0 && (s.job? (cand i)).isNone).elim 1 cand, s)

/-- A job as it enters the queue. -/
def newJob (id : BitVec 32) (r : JobRec) (l : Line) (parent : Option (BitVec 32)) (depth sys : Nat) : Job :=
  { id := id, rec_ := r, st := .pending, rootLine := l, depth := depth, parent := parent, sys := sys, remaining := 0,
    killed := none, image := false, requeueing := false, bump := false, drainEnd := 0,
    homeDie := dieOf (r.coreSet.headD 0), codeAt := 0, nextStream := 1, truncated := false, rootDone := false, rootKilled := none, budgetStop := false,
    reaped := false }

/-- Some context occupies the device (R371). -/
def State.occupied (s : State) : Bool :=
  s.ctxs.any fun (_, c) => match c.st with
    | .running | .draining | .saving | .loading => true
    | .free | .saved | .waiting => false

/-- A job of a context is launched: a FREE context becomes RUNNING, or WAITING where another occupies the device. -/
def State.launchCtx (s : State) (c : Nat) : State :=
  if (s.ctx c).st = .free then
    s.setCtx c { Ctx.free with st := if s.occupied then .waiting else .running }
  else s

def State.enqueue (s : State) (j : Job) : State :=
  (({ s with jobs := s.jobs ++ [{ j with codeAt := s.hist.length }] }).launchCtx j.rec_.ctx).refirst

/-- The queue holds its 1024 jobs. -/
def State.queueFull (s : State) : Bool := 1024 ≤ s.pendingJobs.length

/-! ### JLAUNCH (R203) -/

/-- Causes of reading a job record, as a load of it meets them, latched as a walk (R404); the record is 64-byte aligned
(R187, R201). -/
def State.recordBads (s : State) (t : Task) (va : Nat) : List Bad :=
  s.rangeBads t .load va 256 3 ++ (if va % 64 != 0 then [⟨.misaligned, va, none⟩] else [])

/-- The 256 bytes of a record, with the task's own stores. DESIGN CHOICE: none where memory cannot deliver a line of it,
and the record is then a bad one (notes/assumptions/62.md). -/
def State.recordBytesAt (s : State) (t : Task) (va : Nat) : List Byte :=
  if (List.range 4).any (fun i => s.badLine (s.paOf t (va + 64 * i) / 64)) then []
  else (List.range 256).map fun i => s.loadByte t true (s.paOf t (va + i))

/-- Launch a child from a record: the identifier and RESULT. `want`: the identifier that a replay's log names. -/
def State.launchChild (s : State) (j : Job) (bs : List Byte) (want : Option (BitVec 32)) : State × BitVec 32 × Nat :=
  match s.goodRecord bs with
  | none => (s, 0, 3)
  | some (r, l) =>
    if !childOk j r then (s, 0, 3)
    else if s.queueFull then (s, 0, 2)
    else
      let (id, s) := match want with
        | some i => if i != 0 && (s.job? i).isNone then (i, s) else s.childId
        | none => s.childId
      let r := { r with deadline := min r.deadline j.rec_.deadline }
      ((s.touchRoot r).enqueue (newJob id r l (some j.id) (j.depth + 1) j.sys), id, 1)

/-- JLAUNCH. -/
def execJlaunch (h : Hdr) (a : JlaunchArgs) (s : State) : Out' :=
  issue h s (fun _ _ => gKeys a.a.toNat 2) fun s t _ =>
    let va := s.src t (.g a.a) .n64 0
    match checkLanes true [0] (fun _ => []) fun _ => s.recordBads t va with
    | .error e => .error e
    | .ok () =>
      withJob s t fun j =>
        if j.depth = 16 then throwC .jobDepth
        else if (pieces va 256).any (fun (x, _) => s.accessWaits t.core (s.ctxOf t) x) || !s.released t then .error .hold
        else
          let s := s.touchSpan t.core (s.ctxOf t) va 256
          let bs := s.recordBytesAt t va
          let put (s : State) (v : Nat) (ok : Bool) : M Eff := .ok (eff ((s.putPair t a.d v).putQ t a.q ok))
          if j.rec_.mode = 2 then
            match s.logged1 t ⟨9, 0, false, 0⟩ with
            | .error e => .error e
            | .ok (s, r) =>
              let s := if r.flag then (s.launchChild j bs (some (BitVec.ofNat 32 r.val))).1 else s
              put s r.val r.flag
          else
            -- the outcome is known, then recorded, then made
            let (_, id, res) := s.launchChild j bs none
            let v := id.toNat + 2 ^ 32 * res
            match s.logged1 t ⟨9, 0, res == 1, v⟩ with
            | .error e => .error e
            | .ok (s, _) => put (if res = 1 then (s.launchChild j bs (some id)).1 else s) v (res == 1)

/-! ### JWAIT (R204) -/

/-- Exit status (R200): of a job that was killed, or whose root task was (R429). -/
def Job.exitStatus (j : Job) : Nat :=
  match j.killed.or j.rootKilled with
  | none => 0
  | some c => 256 + c.code

/-- A job leaves the list when it is reaped. -/
def State.reap (s : State) (id : BitVec 32) : State := { s with jobs := s.jobs.filter (·.id != id) }

/-- An unreaped child of the task's job. -/
def State.childOf (s : State) (t : Task) (id : BitVec 32) : Option Job :=
  match s.job? id with
  | some x => if x.parent = some t.job ∧ !x.reaped then some x else none
  | none => none

/-- JWAIT. In replay its results are the record's, whether or not there is a child here to wait for and reap (R384). -/
def execJwait (h : Hdr) (a : PollArgs) (s : State) : Out' :=
  issue h s (fun t _ => s.srcKeys t a.a 1 0) fun s t _ =>
    let id := BitVec.ofNat 32 (s.src t a.a .n32 0)
    let child := if (s.replayed t 9).any (!·.flag) then none else s.childOf t id
    if child.any (·.st != .retired) then .error (.park (.jwait id))
    else
      match s.logged1 t ⟨9, 0, child.isSome, child.elim 0 (·.exitStatus)⟩ with
      | .error e => .error e
      | .ok (s, r) =>
        if r.flag then
          let s := (s.acquire t.core none).putRegs t (s.dst t a.d 1 0 r.val)
          let s := s.putQ t a.q true
          .ok (eff (if child.isSome then s.reap id else s))
        else .ok (eff (s.putQ t a.q false))

/-! ### JYIELD (R205) -/

/-- A job with an earlier deadline waits for what the yielding job holds, or names a core of its set. -/
def State.pressed (s : State) (j : Job) : Bool :=
  s.pendingJobs.any fun p =>
    p.rec_.deadline < j.rec_.deadline &&
    (p.rec_.coreSet.any (j.rec_.coreSet.contains ·) ||
     ((s.rivals p).any (·.id == j.id) &&
      (diesOf p.rec_.coreSet).any fun d => (diesOf j.rec_.coreSet).contains d && !s.regionFitsOn p d))

/-- Soft pre-emption of one job begins (R205, R375). -/
def State.softJob (s : State) (id : BitVec 32) (bump : Bool) : State :=
  (s.modJob id fun j =>
    { j with requeueing := true, bump := bump, drainEnd := s.timeNs.toNat + field s.cregs.preemptDrain 0 32 }).saveParked
    (·.job == id)

/-- JYIELD: the admission ends early; the yielding task continues. -/
def execJyield (h : Hdr) (s : State) : Out' :=
  issue h s (fun _ _ => []) fun s t _ =>
    withJob s t fun j =>
      let j := { j with remaining := j.rec_.budget,
                        rec_ := { j.rec_ with deadline := (j.rec_.deadline + j.rec_.period) % 2 ^ 64 } }
      let s := s.modJob j.id fun _ => j
      .ok (eff (if s.pressed j then s.softJob j.id false else s))

end Sys2Proof.Machine
end

