-- ==== Sys2Proof/Machine/Take.lean ====
section
/-! DEFINITION. Taking tasks (09_scheduling R207, R208; 03_registers R70; 11_consistency R240, R243, R249 to R251;
13_tiles R294): shares and the pool, region records and their checks, overlap holds, and placing an entry group on a
core. -/

namespace Sys2Proof.Machine

/-! ### The pool and the shares (R70, R71, R198, R212, R251) -/

/-- The core where the live members of a cohort are placed. -/
def State.cohortOn (s : State) (c : Cohort) : Option Nat :=
  ((s.liveMembers c.uid).find? fun t => t.reserved && s.ctxGoes t).map (·.core)

/-- Granules of a core's pool in use: those that tasks hold, and those that cohort members have given back. -/
def State.poolUsed (s : State) (core : Nat) : Nat :=
  sumBy Task.granules (s.tasks.filter fun t => t.core == core && t.inPool) +
  sumBy (·.free) (s.cohorts.filter fun c => s.cohortOn c == some core)

def poolSize : Nat := 2048

/-- Active children of a job. -/
def State.childrenOn (s : State) (j : Job) : List Job := s.jobs.filter fun x => x.parent == some j.id && x.holds

/-- What a job may reserve on a core: its share less its active children's. -/
def State.regShareOf (s : State) (j : Job) (core : Nat) : Nat :=
  j.rec_.regShare - sumBy (·.rec_.regShare) ((s.childrenOn j).filter (·.rec_.coreSet.contains core))

/-- Granules a job has reserved on a core. -/
def State.regShareUsed (s : State) (j : Job) (core : Nat) : Nat :=
  sumBy (·.budget) (s.cohorts.filter fun c =>
    (s.liveMembers c.uid).any fun t => t.job == j.id && t.core == core && t.reserved)

/-- Modes whose bytes enter overlap holds, and which the home die registers too (R241, R251). -/
def Mode.writes : Mode → Bool
  | .write | .writeForward | .readWrite => true
  | .read | .readStaged | .reduce | .sync => false

/-- The region table holds the task: from its take until it is DONE (R250). -/
def State.inTable (s : State) (t : Task) : Bool :=
  t.reserved && t.st != .done && t.killedBy.isNone && t.trapOf.isNone && s.ctxGoes t

/-- Some byte of the record has a merged mode that writes (R242, R251; notes/assumptions/63.md). -/
def writesIn (rs : List Region) (r : Region) : Bool :=
  r.extent != 0 && (modeCuts rs r.base r.extent).any fun x => match mergedMode rs x with
    | some m => m.writes
    | none => false

/-- Records that a list of regions takes on a die, for a task on `own` of a job with home die `home`. -/
def recordsOn (rs : List Region) (own home die : Nat) : Nat :=
  (if own = die then rs.length else 0) +
  (if home = die ∧ own ≠ die then (rs.filter (writesIn rs ·)).length else 0)

/-- Region records held on a die, of one job or of all. -/
def State.recordsIn (s : State) (p : Task → Bool) (die : Nat) : Nat :=
  sumBy (fun t => recordsOn t.regions (dieOf t.core) (((s.job? t.job).map (·.homeDie)).getD 0) die)
    (s.tasks.filter fun t => s.inTable t && p t)

/-- IN_USE of TEL_REGION_STATS. -/
def State.inUse (s : State) (die : Nat) : Nat := s.recordsIn (fun _ => true) die

/-- HIGH_WATER follows IN_USE (R253). -/
def State.highWater (s : State) (die : Nat) : State :=
  let r := spGet s.dieStats die
  let n := s.inUse die
  if field r 16 14 < n then { s with dieStats := spSet s.dieStats die (setField r 16 14 n) } else s

def State.regionShareOf (s : State) (j : Job) (die : Nat) : Nat :=
  j.rec_.regionShare - sumBy (·.rec_.regionShare) ((s.childrenOn j).filter fun x => (diesOf x.rec_.coreSet).contains die)

/-! ### Region records (R54, R240) -/

def modeOf : Nat → Option Mode
  | 0 => some .read | 1 => some .readStaged | 2 => some .write | 3 => some .writeForward | 4 => some .readWrite
  | 5 => some .reduce | 6 => some .sync | _ => none

/-- A region record of 16 bytes; none where its mode is reserved. -/
def regionOf (bs : List Byte) : Option Region :=
  let x := natOf bs
  (modeOf (natBits x 88 4)).map fun m =>
    ⟨natBits x 0 48, natBits x 48 40, m, natBits x 92 12, BitVec.ofNat 24 (natBits x 104 24)⟩

/-- The record names a handle target. -/
def Region.byHandle (r : Region) : Bool := r.target.getLsbD 23
def Region.name (r : Region) : Nat := natBits r.target.toNat 0 6

/-- The record's bytes are staged at take (R208). -/
def Region.staged (r : Region) : Bool := r.mode == .readStaged || r.byHandle

/-- The tile that a region record allocates (R294). -/
def regionDesc (l : Layout) : Desc :=
  ⟨l.bank, 0, l.format, l.rows, l.size0, false, 0, 0, ceilDiv (l.rows * l.pitch) 1024⟩

/-- A layout that a handle target makes bad (R294). -/
def handleBad (l : Layout) : Bool := l.bank == 2 || fmtScaled l.format || l.w32 || 4096 < l.rows

/-- TARGET bits that R54 leaves zero. -/
def Region.targetBad (r : Region) : Bool :=
  if r.byHandle then natBits r.target.toNat 6 17 != 0 else natBits r.target.toNat 12 11 != 0

/-- What a check at take finds: a cause that kills the task, with the fault to latch. -/
abbrev TakeBad := Cause × Option (Nat × XErr)

/-- A staged record's layout and target. -/
def State.stagedBad (s : State) (core : Nat) (j : Job) (r : Region) : Option TakeBad :=
  if r.targetBad then some (.spawnBadClosure, none)
  else match s.layoutAt core j r.layout with
    | .error ⟨c, _, some (_, va, e)⟩ => some (c, some (va, e))
    | .error _ => some (.spawnBadClosure, none)
    | .ok l =>
      if r.byHandle then (if handleBad l then some (.spawnBadClosure, none) else none)
      else if scratchSize < 128 * natBits r.target.toNat 0 12 + l.rows * l.pitch then some (.spawnBadClosure, none)
      else none

/-- A record is bad (R240). -/
def State.regionBad (s : State) (core : Nat) (j : Job) (r : Region) : Option TakeBad :=
  if 2 ^ 48 < r.base + r.extent then some (.spawnBadClosure, none)
  else if r.staged then s.stagedBad core j r
  else none

/-- Two records target one name. -/
def twiceNamed (rs : List Region) : Bool :=
  let ns := (rs.filter (·.byHandle)).map (·.name)
  ns.eraseDups.length != ns.length

/-- Every element is there. -/
def allSome {α : Type} : List (Option α) → Option (List α)
  | [] => some []
  | none :: _ => none
  | some x :: l => (allSome l).map (x :: ·)

/-- The region records of a closure line, as a take reads and checks them. -/
def State.readRegions (s : State) (core : Nat) (j : Job) (l : Line) : Except TakeBad (List Region) :=
  let n := clRegions l
  if n = 0 then .ok []
  else match s.vread core j.rec_.ctx (j.rec_.regionBase + 16 * clRlist l) (16 * n) needR with
    | .error (va, e) => .error (e.cause, some (va, e))
    | .ok bs =>
      let rs := (List.range n).map fun i => regionOf ((bs.drop (16 * i)).take 16)
      match allSome rs with
      | none => .error (.spawnBadClosure, none)
      | some rs =>
        match rs.findSome? (s.regionBad core j ·) with
        | some b => .error b
        | none => if twiceNamed rs then .error (.spawnBadClosure, none) else .ok rs

/-- The reads of a take leave their translations behind, and claim first-use pages (R402, R405). -/
def State.touchRegions (s : State) (core : Nat) (j : Job) (l : Line) (rs : List Region) : State :=
  (rs.filter (·.staged)).foldl (fun s r => s.touchLayout core j r.layout)
    (s.touchSpan core j.rec_.ctx (j.rec_.regionBase + 16 * clRlist l) (16 * clRegions l))

/-! ### Start invalidation (R243) -/

/-- Spans of a task's regions whose merged mode a test picks, as [lo, hi). -/
def spansOf (p : Mode → Bool) (rs : List Region) : List (Nat × Nat) :=
  let cuts := (sortBy (· < ·) (rs.flatMap fun r => [r.base, r.base + r.extent])).eraseDups
  (cuts.zip (cuts.drop 1)).filter fun (x, _) => match mergedMode rs x with
    | some m => p m
    | none => false

/-- Modes whose bytes are invalidated at start. -/
def Mode.invalidates : Mode → Bool
  | .read | .readStaged | .readWrite => true
  | .write | .writeForward | .reduce | .sync => false

/-- Device-physical lines of 128 bytes that a span touches. -/
def State.spanLines (s : State) (core ctx : Nat) (x : Nat × Nat) : List Nat :=
  (pieces x.1 (x.2 - x.1)).flatMap fun (va, n) => match s.leafOf core ctx va with
    | .ok f => lines128 (f.ent.pbase + (va - f.ent.vbase)) n
    | .error _ => []

/-- The core's copies of the lines a task reads go; what it owns stays current (R243). -/
def State.startInvalidate (s : State) (core ctx : Nat) (rs : List Region) : State :=
  if (s.core core).l1.isEmpty then s
  else
    let lines := (spansOf Mode.invalidates rs).flatMap (s.spanLines core ctx)
    s.modCore core fun c => lines.foldl (fun c l => c.dropCopy l) c

/-! ### Overlap holds (R249, R250) -/

def spansMeet (a b : List (Nat × Nat)) : Bool := a.any fun x => b.any fun y => max x.1 y.1 < min x.2 y.2

/-- Two tasks conflict. -/
def conflict (a b : Task) : Bool :=
  a.job == b.job && !a.anc.contains b.uid && !b.anc.contains a.uid &&
  spansMeet (spansOf Mode.writes a.regions) (spansOf Mode.writes b.regions)

/-- Task `o` keeps `t` out of RUNNABLE. -/
def holdsBack (t o : Task) : Bool :=
  o.uid != t.uid && conflict t o && (match o.st with
    | .running | .parked | .ending => true
    | .staging | .runnable => claimBefore o t
    | .spawned | .done => false)

/-- The region table holds the task (R250): never one that has once become RUNNABLE. -/
def State.heldNow (s : State) (t : Task) : Bool :=
  t.st == .staging && t.reserved && !t.everRunnable && s.tasks.any fun o => s.inTable o && holdsBack t o

/-- A task found held for the first time counts in HOLDS of its own die. DESIGN CHOICE: R253 does not say in which die's,
where a task of another die holds it (notes/assumptions/72.md). -/
def State.countHold (s : State) (t : Task) : State :=
  let d := dieOf t.core
  let r := spGet s.dieStats d
  let n := field r 32 32
  { s.setTask { t with everHeld := true } with
    dieStats := if n + 1 < 2 ^ 32 then spSet s.dieStats d (setField r 32 32 (n + 1)) else s.dieStats }

/-- The region table has looked at every task: a held one is looked at again in a later clk (R250). -/
def State.settleHolds (s : State) : State :=
  let s := (s.tasks.filter fun t => !t.everHeld && s.heldNow t).foldl State.countHold s
  { s with tasks := s.tasks.map fun t => if s.heldNow t then { t with clearFrom := s.clk + 1 } else t }

/-! ### Placing an entry group (R70, R207) -/

/-- A job whose tasks may be taken, stolen or granted slots (R207, R372, R375). -/
def State.jobTakes (s : State) (j : Job) : Bool :=
  j.holds && j.killed.isNone && !j.requeueing && !j.outOfBudget && (s.ctx j.rec_.ctx).st == .running &&
  s.ctxReady j.rec_.ctx

/-- The members of a group with what their region records come to. -/
abbrev Members := List (Task × Except TakeBad (List Region))

def goodRegions (ms : Members) : List (List Region) :=
  ms.filterMap fun (_, r) => match r with
    | .ok rs => some rs
    | .error _ => none

/-- The job's region shares on the own die and on the home die cover the group. -/
def State.regionsFit (s : State) (j : Job) (core : Nat) (ms : Members) : Bool :=
  let own := dieOf core
  [own, j.homeDie].eraseDups.all fun d =>
    s.recordsIn (·.job == j.id) d + sumBy (recordsOn · own j.homeDie d) (goodRegions ms) ≤ s.regionShareOf j d

/-- Place one member: STAGING, its granules and records reserved; a bad record kills it. -/
def State.placeMember (s : State) (core : Nat) (ownHot : Bool) (m : Task × Except TakeBad (List Region)) : State :=
  let t := m.1
  let rs := match m.2 with
    | .ok rs => rs
    | .error _ => []
  let staged := (List.range rs.length).filter fun i => match rs[i]? with
    | some r => r.staged
    | none => false
  let t' := { t with
    st := .staging, runnableAt := s.clk, clearFrom := s.clk + 1, core := core, reserved := true, inPool := true, ownHot := ownHot,
    takenAt := s.hist.length, wrote := [], priors := [], priorFrom := 0, regions := rs, toStage := staged,
    warp := { Warp.empty with count := clCount t.line, width := clWidth t.line } }
  let s := s.setTask t'
  match m.2 with
  | .ok _ => (s.startInvalidate core (s.ctxOf t) rs).highWater (dieOf core)
  | .error (c, x) =>
    let s := match x with
      | some (va, e) => s.latchXlat core 3 (s.ctxOf t) va e
      | none => s
    s.killOne t.uid c

/-- Place a group on a core, where the job's shares and the pool cover it. -/
def State.tryPlace (s : State) (core : Nat) (us : List Nat) (own : Bool) : Option State :=
  let ts := us.filterMap s.task?
  match ts with
  | [] => none
  | t :: _ =>
    match s.job? t.job with
    | none => none
    | some j =>
      let need := sumBy (fun t => clGranules t.line) ts
      if s.regShareOf j core < s.regShareUsed j core + need || poolSize < s.poolUsed core + need then none
      else
        let ms : Members := ts.map fun t => (t, s.readRegions core j t.line)
        if !s.regionsFit j core ms then none
        else
          let s := s.modCohort t.cohort fun c => { c with budget := need, free := 0 }
          let s := ms.foldl (fun s m => s.touchRegions core j m.1.line ((goodRegions [m]).headD [])) s
          let s := ms.foldl (fun s m => s.placeMember core (own && ts.length == 1) m) s
          some (if j.homeDie = dieOf core then s else s.highWater j.homeDie)

/-! ### Slots and the ready list (R207) -/

/-- Slots of a core that some task holds. -/
def State.heldSlots (s : State) (core : Nat) : List Nat :=
  s.tasks.filterMap fun t => if t.core == core then t.slot else none

/-- Free slots other than the progress slot. -/
def State.freeSlots (s : State) (core : Nat) : List Nat :=
  let held := s.heldSlots core
  (List.range 191).filter fun k => !held.contains k

/-- The ready list: tasks of the core in STAGING and RUNNABLE that hold no slot. -/
def State.readyList (s : State) (core : Nat) : List Task :=
  s.tasks.filter fun t => t.core == core && t.slot.isNone && t.stop.isNone && (t.st == .staging || t.st == .runnable) &&
    s.ctxGoes t && (match s.job? t.job with
      | some j => j.holds
      | none => false)

/-- The ready list has room for a take. -/
def State.readyRoom (s : State) (core : Nat) : Bool :=
  (s.readyList core).length < min 16 ((s.freeSlots core).length + 2)

/-! ### TASK_TAKE -/

/-- A child of a range at an index (R178, R179). -/
def rangeLine (l : Line) (k : Nat) : Line :=
  (l.set 2 (l[2]?.getD 0 + BitVec.ofNat 32 k)).set 5 (l[5]?.getD 0 + BitVec.ofNat 32 k)

/-- Create the child of a range's index, a cohort of one. -/
def State.rangeChild (s : State) (core : Nat) (r : Range) (k : Nat) : Nat × State :=
  let (cu, s) := s.fresh
  let (u, s) := s.fresh
  let (ident, s) := s.newIdent core
  let sp := s.task? r.spawner
  let t := { mkTask u ident r.job (rangeLine r.line k) core cu 0 (r.spawner :: (sp.map (·.anc)).getD []) 0 with
    stream := r.stream + BitVec.ofNat 32 k, range := some (r.uid, k), spawnCore := (sp.map (·.core)).getD core }
  (u, { s with tasks := s.tasks ++ [t], cohorts := s.cohorts ++ [newCohort cu 1 [u]] })

/-- The members that leaving an entry brings, and what stays of the entry; a range gives one index, from an end that
the device chooses (R178, R215). -/
def State.leaveEntry (s : State) (core : Nat) (e : Entry) : List Nat × List Entry × State :=
  match e with
  | .group _ ms => (ms, [], s)
  | .range j uid lo hi =>
    match s.range? uid with
    | none => ([], [], s)
    | some r =>
      let (p, s) := s.pick 2
      let k := if p = 0 then lo else hi - 1
      let (u, s) := s.rangeChild core r k
      let (lo, hi) := if p = 0 then (lo + 1, hi) else (lo, hi - 1)
      ([u], if lo < hi then [.range j uid lo hi] else [], s)

/-- Replace the entry at a position of the deque and its spilled part. -/
def Core.putEntry (c : Core) (i : Nat) (es : List Entry) : Core :=
  let n := c.deque.length
  if i < n then { c with deque := c.deque.take i ++ es ++ c.deque.drop (i + 1) }
  else { c with spilled := c.spilled.take (i - n) ++ es ++ c.spilled.drop (i - n + 1) }

/-- Take the entry at a position, where its job may be taken from and its shares cover it; reading a spilled entry
whose area faults kills the job (R189). -/
def State.takeAt (s : State) (core i : Nat) (e : Entry) : Option State :=
  match s.job? e.job with
  | none => none
  | some j =>
    if !s.jobTakes j || !j.rec_.coreSet.contains core then none
    else
      let (us, left, s1) := s.leaveEntry core e
      match (s1.modCore core (·.putEntry i left)).tryPlace core us true with
      | none => none
      | some s2 =>
        if (s.core core).deque.length ≤ i then
          (match s.areaFault core e.job with
           | some s' => some s'
           | none => some s2)
        else some s2

/-- The first entry in order that the core may take; a job kept out keeps out its other entries. -/
def State.takeFrom (s : State) (core : Nat) : Nat → List (BitVec 32) → List Entry → Option State
  | _, _, [] => none
  | i, out, e :: es =>
    if out.contains e.job then s.takeFrom core (i + 1) out es
    else match s.takeAt core i e with
      | some s => some s
      | none => s.takeFrom core (i + 1) (e.job :: out) es

/-- What a take would come to, without the bounds of the ready list and of one take in a clk. -/
def State.takeable (s : State) (core : Nat) : Option State :=
  let c := s.core core
  s.takeFrom core 0 [] (c.deque ++ c.spilled)

/-- The core may take an entry now. -/
def State.mayTake (s : State) (core : Nat) : Bool :=
  s.awake core && (s.core core).lastTake != some s.clk && !s.late core rankTake && s.readyRoom core

/-- TASK_TAKE (R207). -/
def execTaskTake (core : Nat) (s : State) : Out' :=
  if !s.mayTake core then .next s
  else match s.takeable core with
    | none => .next s
    | some s => .next ((s.ranked core rankTake).modCore core fun c => { c with lastTake := some s.clk })

end Sys2Proof.Machine
end

