-- ==== Sys2Proof/Machine/Grant.lean ====
section
/-! DEFINITION. A task from its take to DONE: staging its regions (09_scheduling R208, 13_tiles R294), becoming RUNNABLE,
slot grants and the start (R209, R210, 03_registers R62, 07_control R145, 02_encoding R31), the spin quantum (R211), the
end of its edge actions (11_consistency R245, R246), and clock gating (R218). -/

namespace Sys2Proof.Machine

/-! ### Staging (R208, R294) -/

/-- R209: a trap task, then PRIO, then the earliest RUNNABLE, then the lower identifier. -/
def grantBefore (a b : Task) : Bool :=
  let prio (t : Task) : Bool := (t.line[0]?.getD 0).getLsbD 28
  if a.trapOf.isSome != b.trapOf.isSome then a.trapOf.isSome
  else if prio a != prio b then prio a
  else a.runnableAt < b.runnableAt || (a.runnableAt == b.runnableAt && a.ident.toNat < b.ident.toNat)

/-- What comes of an attempt to begin a staging copy. -/
inductive StageTry where
  | begun (s : State)
  /-- Its tile is allocated; the copy itself waits. -/
  | waits (s : State)
  /-- No record or no run of granules is free for its tile. -/
  | noTile
deriving DecidableEq, Repr

/-- The copy's tile side, its tile allocated; none where no record or no granules are free. -/
def State.stageSide (s : State) (t : Task) (l : Layout) (r : Region) : Option (State × Side × List Span) :=
  if !r.byHandle then
    let off := 128 * natBits r.target.toNat 0 12
    some (s, .scratch off, [.scratch off (off + l.rows * l.pitch)])
  else
    let span (i : Nat) : List Span := [.tile i 0 (l.rows * l.pitch)]
    match t.recOf r.name with
    | some i => some (s, .record i, span i)
    | none =>
      match (s.core t.core).allocTile (regionDesc l) none none with
      | none => none
      | some (c, i) => some ((s.setCore t.core c).setName t.uid r.name (.mapped i), .record i, span i)

/-- Begin the copy of one region, where a descriptor, room in the table and its ranges are free. -/
def State.stageTry (s : State) (t : Task) (j : Job) (r : Region) : StageTry :=
  match s.layoutAt t.core j r.layout with
  | .error _ => .begun (s.killTask t.uid .copyFault)
  | .ok l =>
    let s := s.touchLayout t.core j r.layout
    match s.stageSide t l r with
    | none => .noTile
    | some (s1, side, dst) =>
      let n : NewOp := ⟨.stage side l r.base, rangeSpan (s.ctxOf t) (l.bounds r.base), dst, none, none, none, true⟩
      if (s1.core t.core).opHeld n then .waits s1
      else .begun (s1.startOp t n)

/-- Go through the copies a task has still to begin. `alloc`: no earlier task waits for a tile. -/
def State.stageTask (s : State) (u : Nat) (j : Job) : List Nat → Bool → State × Bool
  | [], alloc => (s, alloc)
  | i :: is, alloc =>
    match s.task? u with
    | none => (s, alloc)
    | some t =>
      match t.regions[i]? with
      | none => s.stageTask u j is alloc
      | some r =>
        if r.byHandle && !alloc && (t.recOf r.name).isNone then s.stageTask u j is alloc
        else match s.stageTry t j r with
          | .waits s => s.stageTask u j is alloc
          | .noTile => s.stageTask u j is false
          | .begun s => (s.modTask u fun t => { t with toStage := t.toStage.filter (· != i) }).stageTask u j is alloc

/-- The staging engine of a core takes what its ready list has to stage, in the order of R209. -/
def State.settleStaging (s : State) (core : Nat) : State :=
  let ts := sortBy grantBefore (s.tasks.filter fun t =>
    t.core == core && t.st == .staging && t.reserved && !t.toStage.isEmpty && s.mayRun t)
  (ts.foldl (fun (acc : State × Bool) t => match acc.1.job? t.job with
    | none => acc
    | some j => acc.1.stageTask t.uid j t.toStage acc.2) (s, true)).1

/-- Stolen lines that waited for a share or the pool, group by group (R217). -/
def State.settleArrivals (s : State) (core : Nat) : State :=
  let ts := s.tasks.filter fun t => t.core == core && t.st == .staging && !t.reserved
  (ts.map (·.cohort)).eraseDups.foldl (fun s c =>
    let us := (ts.filter (·.cohort == c)).map (·.uid)
    let ok := match (us.head?.bind s.task?).bind fun t => s.job? t.job with
      | some j => s.jobTakes j
      | none => false
    if ok then (s.tryPlace core us false).getD s else s) s

/-- Nothing of the task is left to stage, and the clk in which the table would still hold it is over (R250). -/
def State.stagedAll (s : State) (t : Task) : Bool :=
  t.st == .staging && t.reserved && t.toStage.isEmpty && s.mayRun t && t.clearFrom ≤ s.clk &&
  !(s.core t.core).ops.any fun o => o.owner == t.uid && o.region

def State.toRunnable (s : State) (t : Task) : State :=
  s.setTask { t with st := .runnable, everRunnable := true, runnableAt := s.clk }

/-- STAGING_COMPLETE: the staged lines are present and no hold stands: RUNNABLE (R208). -/
def execStagingComplete (task : Nat) (s : State) : Out' :=
  match s.task? task with
  | none => .next s
  | some t => if s.stagedAll t && !t.everHeld && !s.heldNow t then .next (s.toRunnable t) else .next s

/-- REGION_HOLD_REEXAMINE (R250): a held task that nothing holds any more becomes RUNNABLE. -/
def execRegionHoldReexamine (task : Nat) (s : State) : Out' :=
  match s.task? task with
  | none => .next s
  | some t => if s.stagedAll t && t.everHeld && !s.heldNow t then .next (s.toRunnable t) else .next s

/-! ### Slot grants (R209, R210) -/

/-- The warp at a task's start (R62, R145). -/
def startWarp (t : Task) : Warp :=
  let lanes := maskOf (List.range (clWidth t.line))
  { Warp.empty with
    width := clWidth t.line, count := clCount t.line, live := lanes, active := lanes,
    g := spNonzero 0 ((List.range 11).map fun i => t.line[5 + i]?.getD 0),
    pc := BitVec.ofNat 32 (clEntry t.line) }

/-- A RUNNABLE task that a slot may go to: soft pre-emption grants one to trap tasks and to warps that resume after a
trap alone (R372), and the pool covers a saved warp's granules (R212). -/
def State.grantable (s : State) (t : Task) : Bool :=
  t.st == .runnable && t.slot.isNone && t.stop.isNone && s.mayRun t &&
  (!s.softStopping t || t.trapOf.isSome || t.resumed) &&
  (t.inPool || s.poolUsed t.core + t.granules ≤ poolSize)

def State.grantables (s : State) (core : Nat) : List Task := s.tasks.filter fun t => t.core == core && s.grantable t

/-- Tasks that may have the progress slot (R210). -/
def Task.mayProgress (t : Task) : Bool := t.trapOf.isSome || t.ownHot

/-- The entry bundle of a task that starts must have LANDING = 1 (R31); a fetch or format fault is the first issue's. -/
def State.startCheck (s : State) (u : Nat) : State :=
  match s.task? u with
  | none => s
  | some t => match s.bundleOf t with
    | .ok b => if b.wellFormed && !b.landing then s.takeTrap u (raise0 .landingDenied) .precise t.warp.pc else s
    | .error _ => s

/-- Grant a slot: a saved warp resumes, another task starts, which is an acquire (R253, R257). DESIGN CHOICE: a warp that
takes a slot again has waited 0 clk, and no YIELD of its own stands (notes/assumptions/73.md). -/
def State.grantTo (s : State) (t : Task) (slot : Nat) : State :=
  let s := s.setTask { t with
    st := .running, slot := some slot, saved := false, saveAt := none, inPool := true, resumed := false,
    warp := if t.saved then t.warp else startWarp t,
    age := s.clk, readyAt := s.clk, waitCount := 0, starving := false, giveWay := false }
  if t.saved then s else (s.acquire t.core none).startCheck t.uid

/-- The free slots of the quadrant with the most of them, the lower one at a tie. -/
def bestQuad (free : List Nat) : List Nat :=
  let of (q : Nat) : List Nat := free.filter fun k => quadOf k == q
  (leastBy (fun a b => b.length < a.length) ((List.range 4).map of)).getD []

/-- The grant that a core makes next: a task and the slots it may have. -/
def State.nextGrant (s : State) (core : Nat) : Option (Task × List Nat) :=
  let ts := s.grantables core
  let free := s.freeSlots core
  if !free.isEmpty then (leastBy grantBefore ts).map fun t => (t, bestQuad free)
  else if (s.heldSlots core).contains progressSlot then none
  else (leastBy grantBefore (ts.filter (·.mayProgress))).map fun t => (t, [progressSlot])

/-- SLOT_GRANT. -/
def execSlotGrant (core : Nat) (s : State) : Out' :=
  if !s.awake core then .next s
  else match s.nextGrant core with
    | none => .next s
    | some (t, slots) =>
      let (p, s) := s.pick slots.length
      .next (s.grantTo t ((pickMod slots p).getD progressSlot))

/-! ### The spin quantum (R211) -/

/-- A warp parked in WAITV in its slot for more than 2048 clk. -/
def State.spins (s : State) (t : Task) : Bool :=
  t.park == some .waitv && t.slot.isSome && t.stop.isNone && t.parkedAt + 2048 < s.clk && s.ctxGoes t

/-- SPIN_EXPIRED. -/
def execSpinExpired (task : Nat) (s : State) : Out' :=
  match s.task? task with
  | none => .next s
  | some t => if s.spins t && !t.spinExpired then .next (s.setTask { t with spinExpired := true }) else .next s

/-- A RUNNABLE task of the core waits for a slot. -/
def State.slotWanted (s : State) (core : Nat) : Bool :=
  s.tasks.any fun t => t.core == core && t.st == .runnable && t.slot.isNone && t.stop.isNone && s.mayRun t &&
    (!s.softStopping t || t.trapOf.isSome || t.resumed)

/-- The warp that has been parked longest of those past the spin quantum, while a RUNNABLE task of the core waits for a
slot; one move in a clk. -/
def State.spinVictim (s : State) (core : Nat) : Option Task :=
  if (s.freeSlots core).isEmpty && s.slotWanted core && (s.core core).lastSpin != some s.clk then
    leastBy (fun a b => a.parkedAt < b.parkedAt) (s.tasks.filter fun t => t.core == core && s.spins t)
  else none

/-- SPIN_MOVE: it goes to the slot save area and is RUNNABLE at once. -/
def execSpinMove (core : Nat) (s : State) : Out' :=
  match s.spinVictim core with
  | none => .next s
  | some t =>
    let s := (s.modCore core fun c => { c with lastSpin := some s.clk }).moveOut t.uid
    match s.task? t.uid with
    | none => .next s
    | some x =>
      if x.slot.isSome || x.killedBy.isSome then .next s
      else .next ((s.unwatch t.uid).setTask
        { x with st := .runnable, park := none, spinExpired := false, runnableAt := s.clk })

/-! ### Edge actions (R245, R246, R248) -/

/-- Step 1 is done: the task's stores and its engine operations' writes have performed (R245, R304), and its cohort
leaves no plane LOADED behind (R323); the records that its end released and nothing uses are FREE (R292, R293). -/
def State.edgesDone (s : State) (t : Task) : Bool :=
  t.st == .ending && t.killedBy.isNone && t.stop.isNone && s.ctxGoes t && s.released t && !s.planesHold t &&
  !(s.core t.core).recs.any (s.core t.core).recFreeable

/-- Step 2: push the lines of WRITE_FORWARD bytes to the joiner core, 1024 at most, in ascending order. -/
def State.forwardLinesOf (s : State) (t : Task) : State :=
  -- a task that was saved in ENDING has its joiner decided again (R248)
  let dst := (if t.endSaved then s.joinerOf t else t.joiner).getD t.spawnCore
  ((sortBy (· < ·) t.forward).take 1024).foldl (fun s l =>
    if s.placeOf (128 * l) = .hbm then s.l1Fill dst l (some t.uid) else s) s

/-- EDGE_ACTIONS_COMPLETE. -/
def execEdgeActionsComplete (task : Nat) (s : State) : Out' :=
  match s.task? task with
  | none => .next s
  | some t => if s.edgesDone t then .next ((s.forwardLinesOf t).reachDone task) else .next s

/-! ### Clock gating (R218) -/

/-- Nothing of the core runs or waits to be taken. -/
def State.quiet (s : State) (core : Nat) : Bool :=
  let c := s.core core
  c.deque.isEmpty && c.spilled.isEmpty && (s.readyList core).isEmpty && !c.ops.any (·.region) &&
  !s.tasks.any fun t => t.core == core && t.slot.isSome && t.st == .running

/-- CLOCK_GATE: a core that is still quiet when the clk ends is gated then (`State.elapse`). -/
def execClockGate (core : Nat) (s : State) : Out' :=
  if s.quiet core then .next (s.modCore core fun c => { c with gated := true }) else .next s

/-- An event that gives a gated core something to do ends its gating. -/
def State.settleGate (s : State) (core : Nat) : State :=
  if (s.core core).gated && !s.quiet core then
    s.modCore core fun c => { c with gated := false, wakeAt := s.clk + 24 }
  else s

end Sys2Proof.Machine
end

