-- ==== Sys2Proof/Machine/Steal.lean ====
section
/-! DEFINITION. Stealing (09_scheduling R213 to R217): rounds of probes, what a victim offers, grants and arrivals. How
many indices of a range a thief receives is the device's choice (notes/assumptions/12.md). -/

namespace Sys2Proof.Machine

/-! ### The thief (R213, R214) -/

/-- A core is idle. -/
def State.idle (s : State) (core : Nat) : Bool :=
  !(s.freeSlots core).isEmpty && (s.readyList core).isEmpty && (s.takeable core).isNone

/-- Distance of two local cores on the 6 × 6 mesh (R8). -/
def meshDist (a b : Nat) : Nat := (max (a % 6) (b % 6) - min (a % 6) (b % 6)) + (max (a / 6) (b / 6) - min (a / 6) (b / 6))

/-- The other cores of the die, nearest first. -/
def localRound (core : Nat) : List Nat :=
  let die := dieOf core
  let me := core % 36
  (sortBy (fun a b => meshDist me a < meshDist me b) ((List.range 36).filter (· != me))).map (36 * die + ·)

/-- The other dies in the order of a cross-die round. -/
def crossRound (p : Part) (die : Nat) : List Nat :=
  ((List.range 7).map fun i => (die + i + 1) % 8).filter (· < p.dies)

def Core.modAgent (c : Core) (f : Agent → Agent) : Core := { c with agent := f c.agent }

/-- The agent is between rounds. -/
def State.agentFree (s : State) (core : Nat) : Bool :=
  let a := (s.core core).agent
  core < s.part.cores && a.probing.isEmpty && a.backoff.isNone && s.idle core

/-- STEAL_XDIE_ROUNDS failed local rounds have passed: a cross-die round comes next. -/
def State.crossDue (s : State) (core : Nat) : Bool :=
  let n := field s.cregs.stealRounds 0 8
  n != 0 && n ≤ (s.core core).agent.failed && s.part.dies != 1

/-- STEAL_ROUND: a local round begins. -/
def execStealRound (core : Nat) (s : State) : Out' :=
  if s.agentFree core && !s.crossDue core then
    .next (s.modCore core (·.modAgent fun a => { a with probing := localRound core, cross := false }))
  else .next s

/-- CROSS_DIE_ROUND. -/
def execCrossDieRound (core : Nat) (s : State) : Out' :=
  if s.agentFree core && s.crossDue core then
    .next (s.modCore core (·.modAgent fun a => { a with probing := crossRound s.part (dieOf core), cross := true }))
  else .next s

/-- STEAL_BACKOFF_EXPIRY: 256 clk after a failed cross-die round. -/
def execStealBackoffExpiry (core : Nat) (s : State) : Out' :=
  match (s.core core).agent.backoff with
  | none => .next s
  | some e => if e ≤ s.clk then .next (s.modCore core (·.modAgent fun a => { a with backoff := none })) else .next s

/-! ### The victim (R215, R216) -/

/-- The thief may take an entry. -/
def State.stealable (s : State) (thief : Nat) (e : Entry) : Bool :=
  match s.job? e.job with
  | none => false
  | some j => s.jobTakes j && j.rec_.coreSet.contains thief

/-- Positions of the entries that a thief may take, coldest first: those in SRAM, then the spilled ones. -/
def State.offers (s : State) (victim thief : Nat) : List (Nat × Entry) :=
  let c := s.core victim
  let n := c.deque.length
  let sram := (c.deque.mapIdx fun i e => (i, e)).reverse
  let cold := (c.spilled.mapIdx fun i e => (n + i, e)).reverse
  (sram ++ cold).filter fun x => s.stealable thief x.2

/-- Bytes of a piece of memory homed on a die. -/
def State.homedOn (s : State) (die home pa n : Nat) : Nat :=
  if home < 8 then (if home = die then n else 0)
  else sumBy (fun l => if s.homeDie (128 * l) home = die then min (pa + n) (128 * l + 128) - max pa (128 * l) else 0)
    (lines128 pa n)

/-- S and H of a region: bytes that translate, and those of them homed on the victim's die. -/
def State.localityOf (s : State) (core ctx die : Nat) (r : Region) : Nat × Nat :=
  (pieces r.base r.extent).foldl (fun (acc : Nat × Nat) (va, n) => match s.leafOf core ctx va with
    | .ok f => (acc.1 + n, acc.2 + s.homedOn die f.ent.home (f.ent.pbase + (va - f.ent.vbase)) n)
    | .error _ => acc) (0, 0)

/-- Closure lines of an entry. -/
def State.entryLines (s : State) : Entry → List Line
  | .group _ ms => (ms.filterMap s.task?).map (·.line)
  | .range _ r _ _ => (s.range? r).toList.map (·.line)

/-- The READ_STAGED regions of a closure line, whatever else is wrong with its list. DESIGN CHOICE: a record that the
victim cannot read counts as none (notes/assumptions/71.md). -/
def State.stagedIn (s : State) (core : Nat) (j : Job) (l : Line) : List Region :=
  (List.range (clRegions l)).filterMap fun i =>
    match s.vread core j.rec_.ctx (j.rec_.regionBase + 16 * clRlist l + 16 * i) 16 needR with
    | .ok bs => (regionOf bs).filter (·.mode == .readStaged)
    | .error _ => none

/-- F of an entry group (R215). -/
def State.locality (s : State) (core : Nat) (j : Job) (e : Entry) : Nat :=
  let rs := (s.entryLines e).flatMap (s.stagedIn core j)
  let (x, h) := rs.foldl (fun (acc : Nat × Nat) r =>
    let y := s.localityOf core j.rec_.ctx (dieOf core) r
    (acc.1 + y.1, acc.2 + y.2)) (0, 0)
  if x = 0 then 0 else 256 * h / x

/-- What the victim offers: the coldest group; to another die, one of the 8 coldest whose F is within the threshold. -/
def State.offered (s : State) (victim thief : Nat) (cross : Bool) : Option (Nat × Entry) :=
  let xs := s.offers victim thief
  if cross then
    (xs.take 8).find? fun x => match s.job? x.2.job with
      | some j => s.locality victim j x.2 ≤ min 256 (field s.cregs.stealThreshold 0 9)
      | none => false
  else xs.head?

/-- Entries of a core that a thief may take: each line of a group is one (R173). -/
def State.offerCount (s : State) (thief victim : Nat) : Nat := linesIn ((s.offers victim thief).map (·.2))

/-- The core of a die that a cross-die probe reaches: the one with the most entries, the lowest at a tie. -/
def State.crossVictim (s : State) (thief die : Nat) : Nat :=
  (leastBy (fun a b => s.offerCount thief b < s.offerCount thief a) ((List.range 36).map (36 * die + ·))).getD (36 * die)

/-- The core that the agent probes now. -/
def State.probed (s : State) (thief : Nat) : Option Nat :=
  let a := (s.core thief).agent
  a.probing.head?.map fun x => if a.cross then s.crossVictim thief x else x

/-- Add 1 to a 16-bit field of STEAL_COUNTS, saturating. -/
def Core.bumpSteal (c : Core) (lo : Nat) : Core :=
  let r := c.regs.stealCounts
  if field r lo 16 = 0xFFFF then c
  else { c with regs := { c.regs with stealCounts := setField r lo 16 (field r lo 16 + 1) } }

/-- A refusal: the next victim, or the end of a round without a grant. -/
def State.probeRefused (s : State) (victim thief : Nat) : State :=
  let a := (s.core thief).agent
  let rest := a.probing.drop 1
  let s := if a.cross then s.modCore victim (·.bumpSteal 48) else s
  s.modCore thief (·.modAgent fun a =>
    if !rest.isEmpty then { a with probing := rest }
    else if a.cross then { a with probing := [], failed := 0, backoff := some (s.clk + 256) }
    else { a with probing := [], failed := a.failed + 1 })

/-- The steal report of a job in record mode (R217, R382); a full log is truncated. -/
def State.stealReport (s : State) (victim thief : Nat) (job : BitVec 32) : State :=
  match s.job? job with
  | none => s
  | some j =>
    if j.rec_.mode = 1 ∧ !j.truncated then
      match s.logAppend victim j 0xFFFFFFFF [⟨11, 0, false, thief + 2 ^ 16 * victim⟩] with
      | .error (va, e) => s.logFault victim j va e
      | .ok (_, false) => s.logTruncate victim j
      | .ok (s, true) => s
    else s

/-- What a grant takes of an entry: a group whole, of a range `n` indices beyond the first, as the device chooses
(R215). -/
def State.leavePart (s : State) (core : Nat) (e : Entry) : Nat → List Nat × List Entry × State
  | 0 => s.leaveEntry core e
  | n + 1 => match s.leaveEntry core e with
    | (us, [rest], s) =>
      let (us', left, s) := s.leavePart core rest n
      (us ++ us', left, s)
    | r => r

/-- A grant: the group leaves the victim at once, and is on its way (R216, R217). -/
def State.stealGrant (s : State) (victim thief i : Nat) (e : Entry) : State :=
  let (n, s) := match e with
    | .group _ _ => (0, s)
    | .range _ _ lo hi => s.pick (hi - lo)
  let (us, left, s) := s.leavePart victim e n
  let cross := (s.core thief).agent.cross
  let s := ((s.modCore victim (·.putEntry i left)).modCore victim (·.bumpSteal 0)).ranked victim (rankSteal thief)
  let s := s.modCore thief fun c => (c.bumpSteal (if cross then 32 else 16)).modAgent fun a =>
    { a with probing := [], failed := 0, arriving := a.arriving ++ [.group e.job us] }
  s.stealReport victim thief e.job

/-- STEAL_PROBE_ANSWER: the victim that the thief probes grants or refuses; a thief that is no longer idle ends its
round. -/
def execStealProbeAnswer (victim thief : Nat) (s : State) : Out' :=
  if s.probed thief ≠ some victim || s.late victim (rankSteal thief) then .next s
  else if !s.idle thief then .next (s.modCore thief (·.modAgent fun a => { a with probing := [] }))
  else match s.offered victim thief (s.core thief).agent.cross with
    | none => .next (s.probeRefused victim thief)
    | some (i, e) =>
      if (s.core victim).deque.length ≤ i then
        match s.areaFault victim e.job with
        | some s => .next s
        | none => .next (s.stealGrant victim thief i e)
      else .next (s.stealGrant victim thief i e)

/-- STEAL_ARRIVAL: the line enters the thief's ready list. -/
def execStealArrival (core : Nat) (s : State) : Out' :=
  match (s.core core).agent.arriving with
  | [] => .next s
  | e :: rest =>
    let us := match e with
      | .group _ ms => ms
      | .range _ _ _ _ => []
    let s := s.modCore core (·.modAgent fun a => { a with arriving := rest, failed := 0 })
    .next (us.foldl (fun s u => s.modTask u fun t => { t with st := .staging, core := core, runnableAt := s.clk }) s)

/-- A core that is not idle counts its failed local rounds afresh (R214). -/
def State.settleAgent (s : State) (core : Nat) : State :=
  if (s.core core).agent.failed != 0 && !s.idle core then s.modCore core (·.modAgent fun a => { a with failed := 0 }) else s

end Sys2Proof.Machine
end

