-- ==== Sys2Proof/Machine/Retire.lean ====
section
/-! DEFINITION. Jobs entering and leaving the device (09_scheduling R190 to R200): launches from system cores, the
queue's admissions, budgets, retirement; and what runs when the device becomes unoccupied (16_system R371, R375,
R376). -/

namespace Sys2Proof.Machine

/-! ### What runs next (R375, R376) -/

/-- The WAITING context whose job stands first in the queue's order. -/
def State.waitingFirst (s : State) : Option Nat :=
  (leastBy Job.before (s.pendingJobs.filter fun j => (s.ctx j.rec_.ctx).st == .waiting)).map (·.rec_.ctx)

/-- The device has just become unoccupied: CTX_NEXT is acted on and its VALID cleared; else the first WAITING context
runs. -/
def State.unoccupied (s : State) : State :=
  if s.occupied then s
  else
    let valid := s.cregs.next.getLsbD 4
    let id := field s.cregs.next 0 4
    let s := if valid then { s with cregs := { s.cregs with next := setField s.cregs.next 4 1 0 } } else s
    let named := if valid then (s.ctx id).st else .free
    if named = .saved then s.modCtx id fun c => { c with st := .loading }
    else if named = .waiting then s.modCtx id fun c => { c with st := .running }
    else match s.waitingFirst with
      | some c => s.modCtx c fun c => { c with st := .running }
      | none => s

/-! ### Launches (R190) -/

/-- The registers of a system core's set. -/
def State.sysSet (s : State) (n : Nat) : SysSet := (alGet s.syscores n).getD SysSet.reset

def State.setSys (s : State) (n : Nat) (x : SysSet) : State := { s with syscores := alSet s.syscores n x }

/-- JOB_LAUNCH: a write starts a launch; one that finds BUSY is ignored and sets OVERRUN. -/
def State.launchWrite (s : State) (sys : Nat) (v : BitVec 64) : State :=
  let x := s.sysSet sys
  if s.part.sysCores ≤ sys then s
  else if x.pendingAddr.isSome then s.setSys sys { x with status := setField x.status 4 1 1 }
  else s.setSys sys { x with status := setField x.status 3 1 1, pendingAddr := some (64 * field v 6 42) }

def execJobLaunch (sys : Nat) (v : BitVec 64) (s : State) : Out' := .next (s.launchWrite sys v)

/-- The record at a device-physical address; none where memory cannot deliver it, or a protected range holds it. DESIGN
CHOICE: the launch then ends as for a bad record, with RESULT 3 (notes/assumptions/62.md). -/
def State.launchRecord (s : State) (pa : Nat) : Option (List Byte) :=
  if pa + 256 ≤ s.memTop && !(linesOf pa 256).any (s.badLine ·) && (s.protOf pa).isNone then some (s.memBytes pa 256)
  else none

/-- The protected range of the record's context is initialised: until then the launch, whose closure is read there,
waits (R408). -/
def State.launchReady (s : State) (pa : Nat) : Bool :=
  match s.launchRecord pa with
  | none => true
  | some bs => s.ctxReady (recOf bs).ctx

/-- Accept or refuse a root job: the state, the identifier and RESULT. -/
def State.launchRoot (s : State) (sys pa : Nat) : State × BitVec 32 × Nat :=
  match (s.launchRecord pa).bind s.goodRecord with
  | none => (s, 0, 3)
  | some (r, l) =>
    if s.queueFull then (s, 0, 2)
    else
      let id := s.rootId
      (({ s with lastRootId := id }.touchRoot r).enqueue (newJob id r l none 1 sys), id, 1)

/-- JOB_LAUNCH_COMPLETE: RESULT and JOB_ID are set; event 1 (R413). -/
def execJobLaunchComplete (sys : Nat) (s : State) : Out' :=
  let x := s.sysSet sys
  match x.pendingAddr with
  | none => .next s
  | some pa =>
    if !s.launchReady pa then .next s
    else
    let (s, id, res) := s.launchRoot sys pa
    let st := setField (setField x.status 3 1 0) 0 3 res
    .next ((s.setSys sys { x with pendingAddr := none, status := if res = 1 then setField st 32 32 id.toNat else st }).irq 1)

/-- JOB_RETIRED (R191, R200): a read returns and removes the oldest record, and its job is reaped. -/
def State.retiredRead (s : State) (sys : Nat) : State :=
  let x := s.sysSet sys
  match x.retired with
  | [] => { s with readData := 0 }
  | r :: rest =>
    let s := s.setSys sys { x with retired := rest, overflow := false }
    { (s.reap (BitVec.ofNat 32 (field r 32 32))) with readData := if x.overflow then setField r 30 1 1 else r }

def execJobRetiredRead (sys : Nat) (s : State) : Out' := .next (s.retiredRead sys)

/-! ### Admission (R194, R195, R198) -/

/-- The core that a root closure goes to. -/
def Job.firstCore (j : Job) : Nat := j.rec_.coreSet.headD 0

/-- A job that fits, but for the push of its root: its context is RUNNING and its shares fit. -/
def State.admissible (s : State) (j : Job) : Bool := s.jobFits j && j.killed.isNone

/-- Its root would be pushed after the owner's take of the clk: it is admitted in the next one, before those behind it
(R216). -/
def State.pushLate (s : State) (j : Job) : Bool := !j.image && s.late j.firstCore rankPush

/-- The root task of a job, pushed onto the deque of the lowest core of the set. -/
def State.pushRoot (s : State) (j : Job) : State :=
  let (cu, s) := s.fresh
  let (u, s) := s.fresh
  let (ident, s) := s.newIdent j.firstCore
  let s := { s with tasks := s.tasks ++ [mkTask u ident j.id j.rootLine j.firstCore cu 0 [] 0],
                    cohorts := s.cohorts ++ [newCohort cu 1 [u]] }
  (s.pushEntry j.firstCore (.group j.id [u])).ranked j.firstCore rankPush

/-- Admit a job: its root is pushed, or its image restored. -/
def State.admitJob (s : State) (j : Job) : State :=
  let s := s.modJob j.id fun x =>
    { x with st := if x.rootDone then .retiring else .active, remaining := x.rec_.budget, image := false,
             budgetStop := false }
  if j.image then s else s.pushRoot j

/-- Consider the queue in order, up to the first job that is admitted: a job whose push is refused stays, and what its
spill moved stays moved. -/
def State.admitFrom (s : State) (want : BitVec 32) : List Job → State
  | [] => s
  | j :: js =>
    if !s.admissible j then s.admitFrom want js
    else if s.pushLate j then s
    else if j.image then (if j.id = want then s.admitJob j else s)
    else
      let (s1, room) := s.roomFor j.firstCore
      if (s1.job? j.id).isNone then s1
      else if !room then s1.admitFrom want js
      else if j.id = want then s1.admitJob j else s

/-- The first job of the queue has waited 1 ms as such, which `stuck` has still to note. -/
def State.waitOver (s : State) : Bool :=
  match s.firstJob with
  | some (i, t0) => !s.stuck.contains i && t0 + 1000000 ≤ s.timeNs.toNat
  | none => false

/-- The jobs of a list up to the first that a test picks, with it. -/
def upTo (p : Job → Bool) : List Job → List Job
  | [] => []
  | j :: js => if p j then [j] else j :: upTo p js

/-- The jobs that may leave the queue now, in order (R194). -/
def State.considered (s : State) : List Job :=
  if s.waitOver then s.queue.take 1 else upTo (fun j => s.stuck.contains j.id) s.queue

/-- JOB_ADMIT. -/
def execJobAdmit (job : BitVec 32) (s : State) : Out' := .next (s.admitFrom job s.considered)

/-- ADMISSION_WAIT_LIMIT. -/
def execAdmissionWaitLimit (s : State) : Out' :=
  if s.waitOver then .next { s with stuck := (s.firstJob.map (·.1)).toList ++ s.stuck } else .next s

/-! ### Budgets (R196) -/

/-- Cores on which a warp of the job holds a slot. -/
def State.coresHeld (s : State) (job : BitVec 32) : List Nat :=
  ((s.tasks.filter fun t => t.job == job && t.slot.isSome).map (·.core)).eraseDups

/-- `n` clk pass for the budgets. -/
def State.spendBudgets (s : State) (n : Nat) : State :=
  if n = 0 || s.jobs.all (fun j => j.remaining == 0) then s
  else { s with jobs := s.jobs.map fun j =>
    if j.remaining = 0 || !j.holds then j else { j with remaining := j.remaining - n * (s.coresHeld j.id).length } }

/-- The task that takes BUDGET_EXHAUSTED: the lowest slot on the lowest core that holds one of the job. -/
def State.budgetVictim (s : State) (job : BitVec 32) : Option Task :=
  leastBy (fun a b => a.core < b.core || (a.core == b.core && a.slot.getD 0 < b.slot.getD 0))
    (s.tasks.filter fun t => t.job == job && t.slot.isSome && t.stop.isNone)

/-- A count that started nonzero has reached 0. -/
def State.budgetOut (s : State) (j : Job) : Bool :=
  j.holds && j.killed.isNone && j.rec_.budget != 0 && j.remaining == 0 && !j.budgetStop &&
  (s.ctx j.rec_.ctx).goes && (s.budgetVictim j.id).isSome

/-- BUDGET_EXHAUSTED. -/
def execBudgetExhausted (job : BitVec 32) (s : State) : Out' :=
  match s.job? job with
  | none => .next s
  | some j =>
    if !s.budgetOut j then .next s
    else match s.budgetVictim job with
      | none => .next s
      | some t =>
        let s := s.modJob job fun j => { j with budgetStop := true }
        let s := s.takeTrap t.uid (raise0 .budgetExhausted) .precise t.warp.pc (pair := s.atPair t) (budget := true)
        let rest := s.tasks.filter fun x => x.job == job && x.slot.isSome && x.uid != t.uid
        .next (rest.foldl (fun s x => (s.moveOut x.uid).modTask x.uid fun x =>
          if x.slot.isNone && x.st == .running then { x with st := .runnable, runnableAt := s.clk } else x) s)

/-! ### Retirement (R191, R193, R199, R200, R278) -/

/-- Work of a job is left on some core: untaken indices of a range, or matrix operations. -/
def State.jobOwes (s : State) (id : BitVec 32) : Bool :=
  let mine (u : Nat) : Bool := ((s.task? u).map (·.job)) == some id
  s.cores.any fun (_, c) =>
    (c.deque ++ c.spilled ++ c.agent.arriving).any (fun e => match e with
      | .range j _ _ _ => j == id
      | .group _ _ => false) ||
    c.mx.ops.any (fun o => mine o.owner) || c.ops.any (fun o => mine o.owner)

/-- Every task is DONE and every child job RETIRED. -/
def State.mayRetire (s : State) (j : Job) : Bool :=
  j.st == .retiring && (s.tasks.all fun t => t.job != j.id || t.st == .done || s.gated t.uid) &&
  (s.jobs.all fun x => x.parent != some j.id || x.st == .retired) && !s.jobOwes j.id

/-- The record of a retired root job; a full queue drops it, which reaps the job. -/
def State.retireRoot (s : State) (j : Job) : State :=
  let x := s.sysSet j.sys
  let r : BitVec 64 := BitVec.ofNat 64 (j.exitStatus + 2 ^ 31 + 2 ^ 32 * j.id.toNat)
  if 64 ≤ x.retired.length then (s.setSys j.sys { x with overflow := true }).reap j.id
  else (s.setSys j.sys { x with retired := x.retired ++ [r] }).irq 10

/-- A RUNNING context whose last job has retired is FREE; a DRAINING one is not (R371). -/
def State.settleCtx (s : State) (c : Nat) : State :=
  let x := s.ctx c
  if x.st = .running && s.jobs.all fun j => j.rec_.ctx != c || j.st == .retired then
    (s.setCtx c Ctx.free).unoccupied
  else s

/-- A job leaves: its cells, contributions, tasks and reservations go, its children are reaped. -/
def State.retireJob (s : State) (j : Job) : State :=
  let s := s.modJob j.id fun x => { x with st := .retired, remaining := 0, image := false }
  let keepTask (t : Task) : Bool := t.job != j.id
  let s : State := { s with
    cells := s.cells.map fun (c : Cell) => if c.job == j.id && c.st != .free then c.freed else c,
    gates := s.gates.filter fun g => ((s.task? g.task).map keepTask).getD false,
    contribs := s.contribs.filter (·.job != j.id),
    jobs := s.jobs.filter fun x => x.parent != some j.id,
    cohorts := s.cohorts.filter fun c => s.tasks.any fun t => t.cohort == c.uid && keepTask t,
    ranges := s.ranges.filter (·.job != j.id),
    tasks := s.tasks.filter keepTask }
  let s := s.wakeAll fun _ k => k == Park.jwait j.id
  if j.parent.isNone then s.retireRoot j else s

/-- JOB_RETIRE. -/
def execJobRetire (job : BitVec 32) (s : State) : Out' :=
  match s.job? job with
  | none => .next s
  | some j => if s.mayRetire j then .next ((s.retireJob j).settleCtx j.rec_.ctx) else .next s

end Sys2Proof.Machine
end

