-- ==== Sys2Proof/Machine/Context.lean ====
section
/-! DEFINITION. Contexts (16_system R371 to R376; 09_scheduling R197): the CTX_CMD actions, soft and hard pre-emption,
the image and its load, kills, and the gang switch. The image holds each core's part as data; its bytes in memory are
free values (notes/assumptions/13.md). -/

namespace Sys2Proof.Machine

/-! ### The image (R373) -/

/-- What stays with a core when its context's part is saved away: slot generations, caches and code, the drained
stores and their barriers, results on their way, the per-core registers, the steal agent. -/
def Core.join (phys img : Core) : Core :=
  { img with
    gens := phys.gens, drained := phys.drained, tokens := phys.tokens, returns := phys.returns, l1 := phys.l1,
    fences := phys.fences, tlb := phys.tlb, regs := phys.regs, agent := phys.agent, gated := phys.gated,
    wakeAt := phys.wakeAt, lastTake := phys.lastTake, lastSpin := phys.lastSpin,
    lastMove := phys.lastMove }

/-- The context's part of a core. -/
def Core.part (c : Core) : Core := Core.reset.join c

/-- Put the parts of a context into the cores; a core without one is left empty. DESIGN CHOICE: a context without an image
finds the scratchpads zero and every line absent (notes/assumptions/75.md). -/
def joinCores (cores image : List (Nat × Core)) : List (Nat × Core) :=
  let cores := cores.map fun (k, c) => (k, c.join ((alGet image k).getD Core.reset))
  image.foldl (fun cs (k, c) => match alGet cs k with
    | none => alSet cs k (Core.reset.join c)
    | some _ => cs) cores

def partsOf (cores : List (Nat × Core)) : List (Nat × Core) := cores.map fun (k, c) => (k, c.part)

/-- Act on the tasks of a context: those of one that is saved away, within its image. -/
def State.inCtx (s : State) (c : Nat) (f : State → State) : State :=
  let x := s.ctx c
  if x.image.isEmpty then f s
  else
    let own := partsOf s.cores
    let s := f { s with cores := joinCores s.cores x.image }
    let image := partsOf s.cores
    let s := { s with cores := joinCores s.cores own }
    if (s.ctx c).image.isEmpty then s else s.modCtx c fun x => { x with image := image }

/-- The image of a context can be written (R372, R408). -/
def State.imageWritable (s : State) (c : Nat) : Bool :=
  let base := field (spGet s.cregs.imageBase c) 21 27 * 2 ^ 21
  let top := base + s.part.imageSize
  base != 0 && top ≤ s.memTop && (List.range 16).all fun k => match s.protRange k with
    | none => true
    | some (b, n) => if k = c then b ≤ base && top ≤ b + n / 8 * 7 else top ≤ b || b + n ≤ base

/-! ### Kill (R372) -/

/-- The stores of a killed context perform (R247): on each core those that have drained, then those of `parts` that are
still buffered, so that the newer of two to a byte comes last. -/
def State.flushStores (s : State) (c : Nat) (parts : List (Nat × Core)) : State :=
  let mine (e : StoreEnt) : Bool := ((s.task? e.owner).map (s.ctxOf ·)) == some c
  let go (s : State) (k : Nat) (es : List StoreEnt) : State := es.foldl (fun s e => s.landEntry k e) s
  let s := s.cores.foldl (fun s (k, x) =>
    go (s.modCore k fun x => { x with drained := x.drained.filter (!mine ·) }) k (x.drained.filter mine)) s
  parts.foldl (fun s (k, x) => go s k x.storeBuf) s

/-- A job of a killed context: its exit status. -/
def Job.killedWith (j : Job) (c : Cause) : Job := if j.killed.isSome then j else { j with killed := some c }

/-- Retire every job of a context, the deepest first. -/
def State.retireAll (s : State) (c : Nat) : State :=
  let js := sortBy (fun a b => b.depth < a.depth) (s.jobs.filter fun j => j.rec_.ctx == c && j.st != .retired)
  js.foldl (fun s j => match s.job? j.id with
    | some j => s.retireJob (j.killedWith .contextKilled)
    | none => s) { s with jobs := s.jobs.map fun j =>
      if j.rec_.ctx == c && j.st != .retired then j.killedWith .contextKilled else j }

/-- The record of a killed context. -/
def State.postKilled (s : State) (c : Nat) : State :=
  s.escPost (recordBytes 7 0xC6 0 0 0 0 0 0 c s.timeNs 0)

/-- GANG_STATUS comes to a value: event 3 where it changes (R376, R413). -/
def State.putGang (s : State) (v : BitVec 64) : State :=
  if s.cregs.gangStatus = v then s else { s with cregs := { s.cregs with gangStatus := v } }.irq 3

/-- GANG_STATUS.STATE. -/
def State.gangState (s : State) (n : Nat) : State := s.putGang (setField s.cregs.gangStatus 0 3 n)

/-- The end of a gang switch: disarmed. -/
def State.gangOver (s : State) : State := { s with cregs := { s.cregs with gangTime := 0 } }.gangState 0

/-- The outgoing context of a switch is gone: what CTX_NEXT or the queue names runs next. -/
def State.gangNext (s : State) (gang : Bool) : State :=
  let s := s.unoccupied
  if !gang then s
  else if s.ctxs.any (fun x => x.2.st == .loading) then { s with cregs := { s.cregs with gangTime := 0 } }.gangState 4
  else s.gangOver

/-- End a context with everything in it: its stores perform, its warps' slots are freed, its jobs retire, it is
FREE. -/
def State.clearCtx (s : State) (c : Nat) : State :=
  let x := s.ctx c
  let here := x.goes || x.st == .saving
  let s := s.flushStores c (if here then s.cores else x.image)
  let s := (s.tasks.filter fun t => s.ctxOf t == c).foldl (fun s t => s.freeSlot t) s
  let s := if here then { s with cores := joinCores s.cores [] } else s
  (s.retireAll c).setCtx c Ctx.free

/-- CTX_NEXT is acted on where a context that did not occupy the device has become FREE (R375): with another on the
device, only when that one is SAVED or FREE. -/
def State.nextOnFree (s : State) : State := if s.cregs.next.getLsbD 4 then s.unoccupied else s

/-- A context takes part in a gang switch: the outgoing one, or the one that the switch loads (R376). -/
def State.inGang (s : State) (c : Nat) : Bool :=
  (s.ctx c).gang || ((s.ctx c).st == .loading && field s.cregs.gangStatus 0 3 == 4)

/-- Kill a context (R372). -/
def State.killCtx (s : State) (c : Nat) : State :=
  let x := s.ctx c
  let gang := s.inGang c
  let s := (s.clearCtx c).postKilled c
  let s := if gang then s.putGang (setField s.cregs.gangStatus 9 1 1) else s
  match x.st with
  | .running | .draining | .saving | .loading => s.gangNext gang
  | .free | .saved | .waiting => s.nextOnFree

/-! ### CTX_CMD (R375) -/

/-- RESULT of CTX_CMD, with its interrupt when the action is done (R413). -/
def State.ctxResult (s : State) (ok : Bool) : State :=
  let s := { s with cregs := { s.cregs with cmd := setField s.cregs.cmd 8 8 (if ok then 1 else 2) } }
  if ok then s.irq 2 else s

/-- Another context may be saved (R371). -/
def State.saveRoom (s : State) : Bool :=
  (s.ctxs.filter fun x => match x.2.st with
    | .saved | .saving | .loading => true
    | .free | .running | .draining | .waiting => false).length < 8

/-- Soft pre-emption of a context begins; it runs out at `drainEnd`. -/
def State.softCtx (s : State) (c drainEnd : Nat) (gang : Bool) : State :=
  (s.modCtx c fun x => { x with st := .draining, drainEnd := drainEnd, gang := gang }).saveParked fun t => s.ctxOf t == c

/-- PREEMPT; none where it is refused. -/
def State.preempt (s : State) (c : Nat) : Option State :=
  if c < 16 ∧ (s.ctx c).st = .running ∧ s.saveRoom then
    some (s.softCtx c (s.timeNs.toNat + field s.cregs.preemptDrain 0 32) false)
  else none

/-- Hard save of a context begins. -/
def State.beginHard (s : State) (c : Nat) : State :=
  let gang := (s.ctx c).gang
  let s := s.modCtx c fun x => { x with st := .saving }
  if gang then s.gangState 3 else s

/-- HARDSAVE. -/
def State.hardSave (s : State) (c : Nat) : Option State :=
  let x := s.ctx c
  if c < 16 ∧ (x.st = .running ∨ x.st = .draining) ∧ s.saveRoom then some (s.beginHard c) else none

/-- LOAD. -/
def State.loadCtx (s : State) (c : Nat) : Option State :=
  let x := s.ctx c
  if 16 ≤ c then none
  else match x.st with
    | .saved | .waiting =>
      if s.occupied then some { s with cregs := { s.cregs with next := BitVec.ofNat 64 (16 + c) } }
      else some (s.setCtx c { x with st := if x.st = .saved then .loading else .running })
    | .free | .running | .draining | .saving | .loading => none

/-- The result of an action that may be refused. -/
def State.answered (s : State) (r : Option State) : State :=
  match r with
  | some s => s.ctxResult true
  | none => s.ctxResult false

/-- PREEMPT. -/
def State.cmdPreempt (s : State) (ctx : BitVec 32) : State := s.answered (s.preempt ctx.toNat)

/-- HARDSAVE. -/
def State.cmdHardsave (s : State) (ctx : BitVec 32) : State := s.answered (s.hardSave ctx.toNat)

/-- KILL: refused for a FREE context. -/
def State.cmdKill (s : State) (ctx : BitVec 32) : State :=
  s.answered (if ctx.toNat < 16 ∧ (s.ctx ctx.toNat).st ≠ .free then some (s.killCtx ctx.toNat) else none)

/-- LOAD. -/
def State.cmdLoad (s : State) (ctx : BitVec 32) : State := s.answered (s.loadCtx ctx.toNat)

/-- REQUEUE_JOB: soft pre-emption of one job that runs. -/
def State.cmdRequeueJob (s : State) (job : BitVec 32) : State :=
  s.answered (match s.job? job with
    | some j => if j.holds && j.killed.isNone && (s.ctx j.rec_.ctx).st == .running && !j.requeueing then
        some (s.softJob job true) else none
    | none => none)

/-- KILL_JOB (R197). -/
def State.cmdKillJob (s : State) (job : BitVec 32) : State :=
  s.answered (match s.job? job with
    | some j => if j.st = .retired then none else some (s.inCtx j.rec_.ctx (·.killJob job .contextKilled))
    | none => none)

/-- DROP: a SAVED or WAITING context becomes FREE, its jobs killed. -/
def State.cmdDrop (s : State) (ctx : BitVec 32) : State :=
  let c := ctx.toNat
  s.answered (match (s.ctx c).st with
    | .saved | .waiting => if c < 16 then some (s.clearCtx c).nextOnFree else none
    | .free | .running | .draining | .saving | .loading => none)

def execCtxCmdPreempt (ctx : BitVec 32) (s : State) : Out' := .next (s.cmdPreempt ctx)
def execCtxCmdHardsave (ctx : BitVec 32) (s : State) : Out' := .next (s.cmdHardsave ctx)
def execCtxCmdKill (ctx : BitVec 32) (s : State) : Out' := .next (s.cmdKill ctx)
def execCtxCmdLoad (ctx : BitVec 32) (s : State) : Out' := .next (s.cmdLoad ctx)
def execCtxCmdRequeueJob (job : BitVec 32) (s : State) : Out' := .next (s.cmdRequeueJob job)
def execCtxCmdKillJob (job : BitVec 32) (s : State) : Out' := .next (s.cmdKillJob job)
def execCtxCmdDrop (ctx : BitVec 32) (s : State) : Out' := .next (s.cmdDrop ctx)

/-- A write to CTX_CMD (R375): its action; a reserved one is ignored, and so is a write that finds BUSY. -/
def State.ctxCmd (s : State) (v : BitVec 64) : State :=
  let id : BitVec 32 := BitVec.ofNat 32 (field v 32 32)
  if field s.cregs.cmd 7 1 = 1 then s
  else match field v 0 4 with
  | 1 => s.cmdPreempt id
  | 2 => s.cmdHardsave id
  | 3 => s.cmdKill id
  | 4 => s.cmdLoad id
  | 5 => s.cmdRequeueJob id
  | 6 => s.cmdKillJob id
  | 7 => s.cmdDrop id
  | _ => { s with cregs := { s.cregs with cmd := setField s.cregs.cmd 8 8 3 } }

/-! ### The drain ends (R372, R375) -/

/-- Warps of a job or context that still hold a slot. -/
def State.anySlot (s : State) (p : Task → Bool) : Bool := s.tasks.any fun t => t.slot.isSome && p t

/-- The context in DRAINING, and the jobs whose requeue drains. -/
def State.draining (s : State) : Option Nat := (s.ctxs.find? fun x => x.2.st == .draining).map (·.1)

def State.requeues (s : State) : List Job := s.jobs.filter fun j => j.requeueing && j.holds && (s.ctx j.rec_.ctx).goes

/-- The first drain, of a context or of a job, that a test says has ended. -/
def State.endDrain (s : State) (ctxDone : Nat → Bool) (jobDone : Job → Bool) : Option State :=
  match s.draining.filter ctxDone with
  | some c => some (s.beginHard c)
  | none => (s.requeues.find? jobDone).map fun j => s.requeue j.id j.bump

def State.drained (s : State) : Option State :=
  s.endDrain (fun c => !s.anySlot fun t => s.ctxOf t == c) fun j => !s.anySlot fun t => t.job == j.id

def State.timedOut (s : State) : Option State :=
  s.endDrain (fun c => (s.ctx c).drainEnd ≤ s.timeNs.toNat) fun j => j.drainEnd ≤ s.timeNs.toNat

/-- SOFT_DRAIN_DONE. -/
def execSoftDrainDone (s : State) : Out' := .next (s.drained.getD s)

/-- SOFT_DRAIN_TIMEOUT. -/
def execSoftDrainTimeout (s : State) : Out' := .next (s.timedOut.getD s)

/-! ### Hard save (R372, R278, R279) -/

def State.saving (s : State) : Option Nat := (s.ctxs.find? fun x => x.2.st == .saving).map (·.1)

/-- Contributions of a job that stand in the slices' queues. -/
def State.queuedOf (s : State) (job : BitVec 32) : List Contrib :=
  s.contribs.filter fun c => c.job == job && c.spillAt.isNone

/-- A job's queued contributions go to its spill area; a job whose area cannot take them is killed. -/
def State.spillJob (s : State) (j : Job) : State :=
  let q := s.queuedOf j.id
  if q.isEmpty then s
  else if j.rec_.spillSize / 32 < q.length + (s.spilledOf j.id).length then s.killJob j.id .contextKilled
  else
    let s := { s with contribs := s.contribs.filter fun c => !(c.job == j.id && c.spillAt.isNone) }
    q.foldl (fun s c => s.spillContrib j.firstCore j c) s

/-- Stolen lines in flight are delivered, to be saved in the ready list (R217). -/
def State.deliver (s : State) : State :=
  let us := s.cores.flatMap fun (k, c) => c.agent.arriving.flatMap fun e => match e with
    | .group _ ms => ms.map fun u => (k, u)
    | .range _ _ _ _ => []
  let s := us.foldl (fun s (k, u) => s.modTask u fun t => { t with st := .staging, core := k, runnableAt := s.clk }) s
  { s with cores := s.cores.map fun (k, c) => (k, c.modAgent fun a => { a with arriving := [], probing := [] }) }

/-- A PSEL that has begun its list. -/
def EngOp.listBegun (o : EngOp) : Bool :=
  match o.kind with
  | .psel _ _ _ _ _ _ _ _ => 0 < o.credited
  | _ => false

/-- Segments of an operation performed and credited, up to `n` of them. -/
def State.finishOp (s : State) (core u : Nat) : Nat → State
  | 0 => s
  | n + 1 => match s.opOf core u with
    | none => s
    | some (o, t) => match s.segment core t o with
      | .error _ => s
      | .ok d => (d.s.creditSeg core o d).finishOp core u n

/-- A PSEL of the context that has begun its list finishes it before the save (R361). -/
def State.finishLists (s : State) (c : Nat) : State :=
  let ops := s.cores.flatMap fun (k, x) => (x.ops.filter (·.listBegun)).map fun o => (k, o)
  (ops.filter fun (_, o) => match s.task? o.owner with
    | some t => s.ctxOf t == c
    | none => false).foldl (fun s (k, o) => s.finishOp k o.uid (o.total / 512 + 1)) s

/-- Everything of the context stops where it stands, and what is on its way is settled. -/
def State.stopCtx (s : State) (c : Nat) : State :=
  let s := s.finishLists c
  let s := (s.tasks.filter fun t => s.ctxOf t == c).foldl (fun s t => s.stopWarp t.uid) s
  let keep (t : Task) : Task := if s.ctxOf t == c && t.st == .ending then { t with saved := true, endSaved := true } else t
  let s := { s with tasks := s.tasks.map keep }
  (s.jobs.filter fun j => j.rec_.ctx == c && j.st != .retired).foldl (fun s j => s.spillJob j) s.deliver

/-- HARD_SAVE_COMPLETE: the image is complete, the context SAVED. -/
def execHardSaveComplete (s : State) : Out' :=
  match s.saving with
  | none => .next s
  | some c =>
    if !s.imageWritable c then .next s
    else
      let s := s.stopCtx c
      let x := s.ctx c
      let base := field (spGet s.cregs.imageBase c) 21 27 * 2 ^ 21
      -- the image's bytes overwrite what the lines held
      let key := s.nextUid
      let s := s.openPa base s.part.imageSize
      let s := s.setCtx c { x with st := .saved, gang := false, image := (0, (s.core 0).part) :: (partsOf s.cores).filter (·.1 != 0),
                                   imageAt := base, imageOk := true, imageKey := key }
      -- the rest of every L1 is discarded (R21)
      let empty (x : Nat × Core) : Nat × Core := (x.1, { x.2 with l1 := [] })
      .next ({ s with cores := (joinCores s.cores []).map empty }.gangNext x.gang)

/-- IMAGE_WRITE_FAIL: the context is killed. -/
def execImageWriteFail (s : State) : Out' :=
  match s.saving with
  | none => .next s
  | some c => if s.imageWritable c then .next s else .next (s.killCtx c)

/-! ### Load (R374, R252) -/

def State.loading (s : State) : Option Nat := (s.ctxs.find? fun x => x.2.st == .loading).map (·.1)

/-- Tasks whose records are registered again: those that run, park or end first, each by order key. -/
def State.reregister (s : State) (c : Nat) : List Task :=
  let ts := s.tasks.filter fun t => s.ctxOf t == c && t.reserved && t.st != .done && t.killedBy.isNone && t.trapOf.isNone
  let first (t : Task) : Bool := match t.st with
    | .running | .parked | .ending => true
    | .spawned | .staging | .runnable | .done => false
  sortBy claimBefore (ts.filter first) ++ sortBy claimBefore (ts.filter fun t => !first t)

/-- Read a task's region list again; one that cannot be read kills the task as at its take. -/
def State.reread (s : State) (u : Nat) : State :=
  match s.task? u with
  | none => s
  | some t =>
    match s.job? t.job with
    | none => s
    | some j =>
      match s.readRegions t.core j t.line with
      | .ok rs => s.setTask { t with regions := rs }
      | .error (c, x) =>
        let s := match x with
          | some (va, e) => s.latchXlat t.core 3 j.rec_.ctx va e
          | none => s
        s.killTask u c

/-- Spilled contributions of a job go back to the queues that have room, in the order of their records (R278, R374); one
that its area no longer yields kills the job (R189). -/
def State.unspill (s : State) (j : Job) : State :=
  let at_ (c : Contrib) : Nat := c.spillAt.getD 0
  let cs := sortBy (fun a b => decide (at_ a < at_ b)) (s.contribs.filter fun c => c.job == j.id && c.spillAt.isSome)
  if cs.isEmpty then s
  else match s.firstBad j.firstCore j.rec_.ctx needR (cs.map fun c => (j.rec_.spillBase + 32 * at_ c, 32)) with
    | some (va, e) => (s.latchXlat j.firstCore 3 j.rec_.ctx va e).killJob j.id e.cause
    | none => cs.foldl (fun s c =>
        if s.queued c.slice < queueSize then
          { s with contribs := (s.contribs.filter (· != c)) ++ [{ c with spillAt := none }] }
        else s) s

/-- The jobs of a context that has been restored. -/
def State.unspillAll (s : State) (c : Nat) : State :=
  (s.jobs.filter fun j => j.rec_.ctx == c && j.st != .retired && j.killed.isNone).foldl (fun s j => s.unspill j) s

/-- Restore a context: its cores' parts, its region records, its LOADED planes (R324), its spilled contributions; a
CTXSAVE of its own completes (R391). -/
def State.restoreCtx (s : State) (c : Nat) : State :=
  let x := s.ctx c
  let s := { s with cores := joinCores s.cores x.image }
  let s := s.setCtx c { Ctx.free with st := .running }
  let s := (s.reregister c).foldl (fun s t => s.reread t.uid) s
  let s := (List.range s.part.dies).foldl State.highWater s
  let s := s.unspillAll c
  -- a remote segment in flight at the save is sent again
  let resend (x : Nat × Core) : Nat × Core := (x.1, { x.2 with ops := x.2.ops.map fun o => { o with sent := false } })
  let s := { s with cores := s.cores.map fun x => (resend x).map id Core.reloadPlanes }
  let s := s.wakeAll fun t k => k == Park.ctxLoad && s.ctxOf t == c
  if field s.cregs.gangStatus 0 3 = 4 then s.gangOver else s

/-- What stands at CTX_IMAGE_BASE is the image that was saved: its very bytes, every line of them readable. -/
def State.imageThere (s : State) (x : Ctx) (base : Nat) : Bool :=
  !(linesOf base s.part.imageSize).any (s.badLine ·) &&
  (x.imageAt == base && x.imageOk ||
   (List.range s.part.imageSize).all fun i =>
     s.memByte (base + i) == BitVec.ofNat 8 (Config.free x.imageKey (2 ^ 62 + (x.imageAt + i))))

/-- CONTEXT_LOAD_COMPLETE: the parts at CTX_IMAGE_BASE are restored; one whose check fails kills the context (R373). The
check is the device's: the model takes it to hold for the bytes that were saved and to fail for any others
(notes/assumptions/41.md). -/
def execContextLoadComplete (s : State) : Out' :=
  match s.loading with
  | none => .next s
  | some c =>
    let x := s.ctx c
    let base := field (spGet s.cregs.imageBase c) 21 27 * 2 ^ 21
    .next (if s.imageThere x base then s.restoreCtx c else s.killCtx c)

/-! ### The gang switch (R376) -/

/-- The context that a switch takes from the device: the one RUNNING or DRAINING. -/
def State.outgoing (s : State) : Option Nat := (s.ctxs.find? fun x => x.2.goes).map (·.1)

/-- Hard save at GANG_TIME; with no context on the device, CTX_NEXT is acted on. A save that R371 refuses ends the
switch. -/
def State.gangHard (s : State) : State :=
  match s.outgoing with
  | some c =>
    if s.saveRoom then (s.modCtx c fun x => { x with gang := true }).beginHard c else s.gangOver
  | none => if s.occupied then s else s.gangNext true

/-- Soft pre-emption of a gang switch. -/
def State.gangSoft (s : State) : State :=
  match s.outgoing with
  | some c =>
    if (s.ctx c).st = .running && s.saveRoom then (s.softCtx c s.cregs.gangTime.toNat true).gangState 2
    else s
  | none => s

/-- A switch is armed and its drain has not begun. -/
def State.armed (s : State) : Bool := field s.cregs.gangStatus 0 3 == 1

/-- GANG_TIME − GANG_DRAIN. -/
def State.gangDrainAt (s : State) : Nat := s.cregs.gangTime.toNat - field s.cregs.gangDrain 0 32

/-- The context can be drained for an armed switch. -/
def State.gangDrains (s : State) : Bool :=
  s.armed && s.gangDrainAt ≤ s.timeNs.toNat && s.timeNs.toNat < s.cregs.gangTime.toNat && s.saveRoom &&
  (match s.outgoing with
   | some c => (s.ctx c).st == .running
   | none => false)

/-- The time of an armed or draining switch has come. -/
def State.gangDue (s : State) : Bool :=
  (s.armed || field s.cregs.gangStatus 0 3 == 2) && s.cregs.gangTime.toNat ≤ s.timeNs.toNat &&
  (s.outgoing.isSome || !s.occupied)

/-- GANG_TIME is written: arm, replace or disarm; ignored once DRAINING has begun. -/
def State.writeGang (s : State) (v : BitVec 64) : State :=
  if 2 ≤ field s.cregs.gangStatus 0 3 then s
  else
    let s := { s with cregs := { s.cregs with gangTime := v } }
    if v = 0 then s.gangState 0
    else
      let s := s.gangState 1
      if v.toNat ≤ s.timeNs.toNat then
        (s.putGang (setField s.cregs.gangStatus 8 1 1)).gangHard
      else if s.gangDrainAt ≤ s.timeNs.toNat then s.gangSoft
      else s

/-- GANG_TIME_WRITE. -/
def execGangTimeWrite (v : BitVec 64) (s : State) : Out' := .next (s.writeGang v)

/-- GANG_DRAIN_START. -/
def execGangDrainStart (s : State) : Out' := if s.gangDrains then .next s.gangSoft else .next s

/-- GANG_TIME_REACHED. -/
def execGangTimeReached (s : State) : Out' := if s.gangDue then .next s.gangHard else .next s

end Sys2Proof.Machine
end

