-- ==== Sys2Proof/Machine/Debug.lean ====
section
/-! DEFINITION. The debugger's commands (16_system R379, R380): DBG_CMD on a task or on its cohort. -/

namespace Sys2Proof.Machine

/-- RESULT of DBG_CMD beside the task it named. -/
def State.dbgResult (s : State) (ident : BitVec 32) (n : Nat) : State :=
  { s with cregs := { s.cregs with dbgCmd := BitVec.ofNat 64 (2 ^ 32 * ident.toNat + 256 * n) } }

/-- A command on a task: 3 where there is none of that identifier, 2 where it is refused, 1 where it is done. -/
def State.dbgOn (s : State) (ident : BitVec 32) (f : Task → Option State) : State :=
  match s.taskByIdent ident with
  | none => s.dbgResult ident 3
  | some t => match f t with
    | some s => s.dbgResult ident 1
    | none => s.dbgResult ident 2

/-- HALT_REQUEST is posted to a task, behind what is posted to it already and after the halts of the members `after`:
at its next boundary it is raised, a PARKED warp saved into a frame with its wait (R365, R380). -/
def Task.askHalt (t : Task) (after : List Nat) : Task :=
  if t.posted.any (·.cause == .haltRequest) then t
  else { t with posted := t.posted ++ [Posted.mk .haltRequest 0 none false after] }

/-- Halt one task. One in ENDING has no boundary left: DESIGN CHOICE, it is refused (notes/assumptions/70.md). -/
def State.haltTask (s : State) (t : Task) : Option State :=
  if t.st = .ending then none else some (s.modTask t.uid (·.askHalt []))

/-- HALT. -/
def State.dbgHalt (s : State) (task : BitVec 32) : State := s.dbgOn task s.haltTask

/-- HALT_COHORT: each live member, and the records follow in ascending member index. -/
def State.dbgHaltCohort (s : State) (task : BitVec 32) : State :=
  s.dbgOn task fun t =>
    let ms := sortBy (fun a b => a.member < b.member) ((s.liveMembers t.cohort).filter (·.st != .ending))
    some (ms.foldl (fun s m => s.modTask m.uid (·.askHalt ((ms.filter (·.member < m.member)).map (·.uid)))) s)

/-- Halted by the debugger, or escalated: what RESUME, SKIP and KILL answer. -/
def Task.answerable (t : Task) : Bool :=
  match t.stop with
  | some x => x.halted || x.escalated
  | none => false

def State.dbgAnswer (s : State) (task : BitVec 32) (f : State → Nat → State) : State :=
  s.dbgOn task fun t => if t.answerable then some (s.inCtx (s.ctxOf t) fun s => f s t.uid) else none

/-- RESUME, as TRET.RESUME. -/
def State.dbgResume (s : State) (task : BitVec 32) : State := s.dbgAnswer task fun s u => s.returnFrom u .resume

/-- SKIP, as TRET.SKIP. -/
def State.dbgSkip (s : State) (task : BitVec 32) : State := s.dbgAnswer task fun s u => s.returnFrom u .skip

/-- KILL, as TKILL. -/
def State.dbgKill (s : State) (task : BitVec 32) : State := s.dbgAnswer task fun s u => s.killStopped u

/-- A halted task of the attached job. -/
def State.mayStep (s : State) (t : Task) : Bool :=
  field s.cregs.dbgCtl 0 32 == t.job.toNat && (match t.stop with
    | some x => x.halted
    | none => false)

/-- Release a halted task for one instruction: its frame's RW fields are restored, and it halts again when the
instruction completes. -/
def State.stepTask (s : State) (u : Nat) : State :=
  (s.returnFrom u .resume).modTask u fun t => { t with stepping := t.killedBy.isNone }

/-- STEP. -/
def State.dbgStep (s : State) (task : BitVec 32) : State :=
  s.dbgOn task fun t => if s.mayStep t then some (s.inCtx (s.ctxOf t) fun s => s.stepTask t.uid) else none

def execDbgCmdHalt (task : BitVec 32) (s : State) : Out' := .next (s.dbgHalt task)
def execDbgCmdHaltCohort (task : BitVec 32) (s : State) : Out' := .next (s.dbgHaltCohort task)
def execDbgCmdResume (task : BitVec 32) (s : State) : Out' := .next (s.dbgResume task)
def execDbgCmdSkip (task : BitVec 32) (s : State) : Out' := .next (s.dbgSkip task)
def execDbgCmdStep (task : BitVec 32) (s : State) : Out' := .next (s.dbgStep task)
def execDbgCmdKill (task : BitVec 32) (s : State) : Out' := .next (s.dbgKill task)

/-- A write to DBG_CMD (R380): its action on TASK; other actions are ignored. -/
def State.dbgCmd (s : State) (v : BitVec 64) : State :=
  let id : BitVec 32 := BitVec.ofNat 32 (field v 32 32)
  match field v 0 4 with
  | 1 => s.dbgHalt id
  | 2 => s.dbgHaltCohort id
  | 3 => s.dbgResume id
  | 4 => s.dbgSkip id
  | 5 => s.dbgStep id
  | 6 => s.dbgKill id
  | _ => { s with cregs := { s.cregs with dbgCmd := setField s.cregs.dbgCmd 32 32 id.toNat } }

end Sys2Proof.Machine
end

