-- ==== Sys2Proof/Machine/Boot.lean ====
section
/-! DEFINITION. Power, cold start and warm reset (18_platform R422 to R424, R427): what each step of the bring-up
changes, and the verification of the firmware image. -/

namespace Sys2Proof.Machine

/-! ### The registers of the bring-up -/

/-- CODE of BOOT_STATUS. -/
def State.bootCode (s : State) (n : Nat) : State :=
  { s with pregs := { s.pregs with bootStatus := setField s.pregs.bootStatus 0 4 n } }

/-- Set a bit of DEV_STATUS. -/
def State.setStatus (s : State) (i : Nat) : State :=
  { s with pregs := { s.pregs with devStatus := s.pregs.devStatus ||| BitVec.twoPow 64 i } }

def State.memReady (s : State) : Bool := s.pregs.devStatus.getLsbD 0

def State.setPhase (s : State) (p : BootPhase) : State := { s with boot := { s.boot with phase := p } }

/-- The longest image. -/
def imageMax : Nat := 2 ^ 26

/-! ### Resets -/

/-- On-chip state as at power-good, with what outlasts every reset: the part, the fuses, the host's memory and what has
gone out on the links; and the model's own fields. -/
def State.cleared (s : State) : State :=
  { State.reset with
    tick := s.tick, sched := s.sched, picks := s.picks, inputs := s.inputs, nextUid := s.nextUid,
    part := s.part, clk := s.clk, hostMem := s.hostMem, outs := s.outs,
    pregs := PlatRegs.reset s.part,
    boot := { State.reset.boot with fuseKey := s.boot.fuseKey, fuseSvn := s.boot.fuseSvn, fuseRepair := s.boot.fuseRepair } }

/-- Protected ranges that hold data, which a lost key leaves encrypted. -/
def State.keyRanges (s : State) : List (Nat × Nat) :=
  (List.range 16).filterMap fun c => if (spGet s.mregs.keyCtl c).getLsbD 2 then s.protRange c else none

/-- The bytes of [lo, hi) are what a lost key encrypted: open. -/
def State.loseRange (s : State) (lo hi : Nat) : State := s.openRange lo hi

/-- A warm reset is in progress. -/
def State.resetting (s : State) : Bool := s.boot.warm && (s.boot.phase == .training || s.boot.phase == .verifying)

/-- A warm reset of the running device (R424, steps 1 to 4): the cores stop, the memory-side caches are written back,
the on-chip state is reset. -/
def State.warmRestart (s : State) : State :=
  let s := s.msc.foldl (fun s e => s.mscEvict e.line) s
  let s := s.keyRanges.foldl (fun s (b, n) => s.loseRange b (b + n)) s
  { s.cleared with
    clkMHz := s.clkMHz, sensors := s.sensors, coolSince := s.coolSince, timeNs := s.timeNs, timeFrac := s.timeFrac,
    hbm := s.hbm, poison := s.poison, openBytes := s.openBytes
    boot := { s.boot with phase := .training, warm := true, length := 0 } }.setStatus 2

/-- A warm reset begins; one in progress is not begun again; during a cold start's step 4 or 5 it restarts that cold
start at step 3. -/
def State.warmReset (s : State) : State :=
  match s.boot.phase with
  | .off => s
  | .running => s.warmRestart
  | .training | .waiting | .verifying =>
    if s.resetting || s.boot.phase = .training then s
    else { s.cleared with
           clkMHz := s.clkMHz, sensors := s.sensors, coolSince := s.coolSince, timeNs := s.timeNs, timeFrac := s.timeFrac
           boot := { s.boot with phase := .training, warm := false, length := 0 } }

/-- RESET_CTL_WARM. -/
def execResetCtlWarm (v : BitVec 64) (s : State) : Out' := .next (if v.getLsbD 0 then s.warmReset else s)

/-- RESET_PIN. -/
def execResetPin (s : State) : Out' := .next s.warmReset

/-- Power is removed: everything goes but the fuses. -/
def State.powerOff (s : State) : State := s.cleared

/-- POWER_LOSS. -/
def execPowerLoss (s : State) : Out' := .next s.powerOff

/-- THERMAL_SHUTDOWN: 115 °C on a die of the part, a compute die or, numbered after those, an I/O die (R427). -/
def execThermalShutdown (die : Nat) (s : State) : Out' := .next (if die < s.part.dies + s.part.ioDies then s.powerOff else s)

/-! ### Cold start (R422) -/

/-- POWER_GOOD: steps 1 and 2, the repair maps among what the fuses give; the training of step 3 begins. A D36 that no
I/O die serves stays in reset (R15). -/
def execPowerGood (s : State) : Out' :=
  .next (if s.boot.phase = .off ∧ s.part.ioDies ≠ 0 then
      { s with boot := { s.boot with phase := .training, repair := s.boot.fuseRepair } } else s)

/-- HBM contents after a cold start's training: undefined. -/
def State.openMemory (s : State) : State := ({ s with hbm := [], poison := [], msc := [], openBytes := [] }).loseRange 0 s.memTop

/-- MEM_READY: the PHYs and links are trained; the boot ROM awaits an image, or verifies again the one in memory. -/
def execMemReady (s : State) : Out' :=
  if s.boot.phase ≠ .training then .next s
  else if s.boot.warm then .next ((s.setStatus 0).setPhase .verifying |>.bootCode 2)
  else .next ((s.openMemory.setStatus 0).setPhase .waiting)

/-- An image of a length is complete: its verification begins. -/
def State.imageIn (s : State) (n : Nat) : State :=
  { s with boot := { s.boot with phase := .verifying, warm := false, length := n } }.bootCode 2

/-- BOOT_IMAGE_FETCHED: an image has come over the management port; one that passes 64 MiB has a bad length. -/
def execBootImageFetched (bytes : List (BitVec 8)) (s : State) : Out' :=
  if s.boot.phase ≠ .waiting then .next s
  else if imageMax < bytes.length then .next (s.bootCode 8)
  else .next ((s.perform none 0 bytes).imageIn bytes.length)

/-- BOOT_RETRY: a second has passed without an image; the boot ROM tries again. Where a server answers (a pick), CODE is 1
and the file begins to arrive at address 0; where none does, a receipt that had begun has ended
(notes/assumptions/17.md). -/
def execBootRetry (s : State) : Out' :=
  if s.boot.phase ≠ .waiting then .next s
  else
    let (k, s) := s.pick 2
    if k = 1 then .next ((s.loseRange 0 imageMax).bootCode 1)
    else .next (if field s.pregs.bootStatus 0 4 = 1 then s.bootCode 0 else s)

/-- A write of BOOT_CTL: GO, while an image is awaited. -/
def State.bootGo (s : State) (v : BitVec 64) : State :=
  if s.boot.phase = .waiting && v.getLsbD 63 then s.imageIn (field v 0 27) else s

/-- BOOT_CTL_GO. -/
def execBootCtlGo (v : BitVec 64) (s : State) : Out' := .next (s.bootGo v)

/-! ### Verification (R423) -/

/-- The length that the image's LENGTH must equal. -/
def Boot.expected (b : Boot) : Nat := if b.warm then b.recorded else b.length

/-- The image's header or its ENTRY is not as the table gives it. -/
def State.headerBad (s : State) : Bool :=
  s.memNat 0 4 != 0x474D4946 || s.memNat 4 4 != 1 || !((s.memBytes 0x79 3975).all (· == 0)) ||
  s.memNat 0xC 4 ≤ s.memNat 0x10 8 + 96

/-- LENGTH does not meet its limits, or is not what was received or recorded. -/
def State.lengthBad (s : State) : Bool :=
  let n := s.memNat 0xC 4
  n % 4096 != 0 || imageMax < n || n != s.boot.expected

/-- The codes of BOOT_STATUS for everything that an image fails. -/
def State.imageFails (s : State) : List Nat :=
  let n := s.memNat 0xC 4
  let key := s.memBytes 0x18 97
  (if s.headerBad then [4] else []) ++
  (if s.lengthBad then [8] else []) ++
  (if s.memNat 8 4 < s.boot.fuseSvn then [7] else []) ++
  (if sha384 key ≠ s.boot.fuseKey then [6] else []) ++
  (if !ecdsaVerifies key (s.memBytes (n - 96) 96) (s.memBytes 0 (n - 96)) ||
      (linesOf 0 n).any (s.badLine ·) then [5] else [])

/-- IMAGE_VERIFY: the system cores are released at ENTRY, or the boot ROM waits for another image, its CODE naming a
check that failed. -/
def execImageVerify (s : State) : Out' :=
  if s.boot.phase ≠ .verifying then .next s
  else
    let fails := s.imageFails
    if fails.isEmpty then
      let boot := { s.boot with
        phase := .running, warm := false, recorded := s.memNat 0xC 4, entry := some (BitVec.ofNat 64 (s.memNat 0x10 8)) }
      let s : State := { s with boot := boot }
      .next ((s.setStatus 1).bootCode 3)
    else
      let (k, s) := s.pick fails.length
      .next ({ s with boot := { s.boot with phase := .waiting, warm := false } }.bootCode ((pickMod fails k).getD 4))

end Sys2Proof.Machine
end

