-- ==== Sys2Proof/Machine/Integer.lean ====
section
/-! DEFINITION. Class 0x1 (04_integer R85 to R101): integer arithmetic, logic, shifts, bit fields, comparison,
selection and address formation. -/

namespace Sys2Proof.Machine

/-- Distance of the plain integer instructions by type (R88). -/
def intDist (h : Hdr) (ty : Ty) : Nat := if h.u then 2 else if ty.regs = 1 then 4 else 6

/-- Distance of the multiplying instructions (R88). -/
def mulDist (h : Hdr) (ty : Ty) (wide : Bool) : Nat := if h.u then 4 else if wide then 8 else if ty.regs = 1 then 6 else 12

/-- A shape of two sources of one type. -/
def shapeAB (ty : Ty) (d a b : Opnd) : Shape := ⟨[(a, ty), (b, ty)], [], some (d, ty.regs), none⟩

/-! ### Addition (R90) -/

/-- The carry predicate as a destination, where CO asks for it. -/
def carryDst (co : Bool) (pk : BitVec 3) : Option (BitVec 3) := if co then some pk else none

/-- The complement of a value of a type. -/
def notIn (ty : Ty) (x : Nat) : Nat := 2 ^ ty.bits - 1 - x % 2 ^ ty.bits

/-- The saturated or wrapped result of an addition: `t` the sum of R90, `exact` the exact value. -/
def addRes (ty : Ty) (sat : Bool) (t : Nat) (exact : Int) : Res :=
  let carry := decide (2 ^ ty.bits ≤ t)
  if sat then
    let r := clampTo ty exact
    ⟨holdAs ty r.code, carry, r.flags⟩
  else ⟨holdAs ty (t % 2 ^ ty.bits), carry, 0⟩

/-- IADD (R90). -/
def execIadd (h : Hdr) (a : IaddArgs) (s : State) : Out' :=
  compute h s { shapeAB a.ty a.d a.a a.b with pdst := carryDst a.co a.pk } (intDist h a.ty) fun l =>
    let x := l.src a.a a.ty
    let y := l.src a.b a.ty
    addRes a.ty a.sat (x + y) (intOf a.ty x + intOf a.ty y)

/-- ISUB (R90): the carry-out is 1 exactly when there is no borrow. -/
def execIsub (h : Hdr) (a : IaddArgs) (s : State) : Out' :=
  compute h s { shapeAB a.ty a.d a.a a.b with pdst := carryDst a.co a.pk } (intDist h a.ty) fun l =>
    let x := l.src a.a a.ty
    let y := l.src a.b a.ty
    addRes a.ty a.sat (x + notIn a.ty y + 1) (intOf a.ty x - intOf a.ty y)

/-- IADDC (R90): the carry predicate is read even where it is not written. -/
def execIaddc (h : Hdr) (a : IaddcArgs) (s : State) : Out' :=
  compute h s { shapeAB a.ty a.d a.a a.b with preds := [a.pk], pdst := carryDst a.co a.pk } (intDist h a.ty) fun l =>
    let x := l.src a.a a.ty
    let y := l.src a.b a.ty
    addRes a.ty false (x + (if a.invb then notIn a.ty y else y) + (l.pred a.pk).toNat) 0

/-! ### Multiplication (R91) -/

/-- The 64-bit type of the same sign. -/
def wideTy (ty : Ty) : Ty := if ty.signed then .i64 else .n64

/-- IMAD (R91). -/
def execImad (h : Hdr) (a : ImadArgs) (s : State) : Out' :=
  let cty := if a.wide then wideTy a.ty else a.ty
  compute h s ⟨[(a.a, a.ty), (a.b, a.ty), (a.c, cty)], [], some (a.d, cty.regs), none⟩ (mulDist h a.ty a.wide) fun l =>
    let p := intOf a.ty (l.src a.a a.ty) * intOf a.ty (l.src a.b a.ty)
    Res.of (ofSigned cty.bits (p + (l.src a.c cty : Nat)))

/-- IMULH (R91). -/
def execImulh (h : Hdr) (a : TyDAB) (s : State) : Out' :=
  compute h s (shapeAB a.ty a.d a.a a.b) (mulDist h a.ty false) fun l =>
    let p := intOf a.ty (l.src a.a a.ty) * intOf a.ty (l.src a.b a.ty)
    Res.of (ofSigned (2 * a.ty.bits) p / 2 ^ a.ty.bits)

/-! ### Minimum, maximum, absolute value (R92) -/

/-- IMNMX (R92). -/
def execImnmx (h : Hdr) (a : ImnmxArgs) (s : State) : Out' :=
  compute h s (shapeAB a.ty a.d a.a a.b) (intDist h a.ty) fun l =>
    let x := l.src a.a a.ty
    let y := l.src a.b a.ty
    Res.of (holdAs a.ty (if intLess a.ty x y != a.max then x else y))

/-- IABS (R92). -/
def execIabs (h : Hdr) (a : IabsArgs) (s : State) : Out' :=
  compute h s ⟨[(a.a, a.ty)], [], some (a.d, a.ty.regs), none⟩ (intDist h a.ty) fun l =>
    let m : Int := (intOf a.ty (l.src a.a a.ty)).natAbs
    if a.sat then
      let r := clampTo a.ty m
      ⟨holdAs a.ty r.code, false, r.flags⟩
    else Res.of (holdAs a.ty (ofSigned a.ty.bits m))

/-! ### Logic (R93) -/

/-- D[j] := LUT[4 a[j] + 2 b[j] + c[j]] for the low `n` bits. -/
def log3 (lut : BitVec 8) (a b c : Nat) : Nat → Nat
  | 0 => 0
  | n + 1 =>
    let i := 4 * (natBit a n).toNat + 2 * (natBit b n).toNat + (natBit c n).toNat
    (if lut.getLsbD i then 2 ^ n else 0) + log3 lut a b c n

/-- LOG3 (R93). -/
def execLog3 (h : Hdr) (a : Log3Args) (s : State) : Out' :=
  compute h s ⟨[(a.a, a.ty), (a.b, a.ty), (a.c, a.ty)], [], some (a.d, a.ty.regs), none⟩ (intDist h a.ty) fun l =>
    Res.of (log3 a.lut (l.src a.a a.ty) (l.src a.b a.ty) (l.src a.c a.ty) a.ty.bits)

/-! ### Shifts (R94, R95) -/

/-- SHF: the funnel shift of H:L (R95). -/
def execShf (h : Hdr) (a : ShfArgs) (s : State) : Out' :=
  compute h s ⟨[(a.a, .n32), (a.b, .n32), (a.c, .n32)], [], some (a.d, 1), none⟩ (intDist h .n32) fun l =>
    let n := l.src a.c .n32
    let k := if a.wrap then n % 32 else min n 32
    let x := l.src a.b .n32 * 2 ^ 32 + l.src a.a .n32
    Res.of (if a.left then x * 2 ^ k / 2 ^ 32 % 2 ^ 32 else x / 2 ^ k % 2 ^ 32)

/-- SHL (R94). -/
def execShl (h : Hdr) (a : ShArgs) (s : State) : Out' :=
  compute h s ⟨[(a.a, a.ty), (a.b, .n32)], [], some (a.d, a.ty.regs), none⟩ (intDist h a.ty) fun l =>
    let n := l.src a.b .n32
    let w := a.ty.bits
    let k := if a.wrap then n % w else n
    Res.of (if w ≤ k then 0 else l.src a.a a.ty * 2 ^ k % 2 ^ w)

/-- SHR (R94): zeros for a natural type, copies of the sign for a signed one. -/
def execShr (h : Hdr) (a : ShArgs) (s : State) : Out' :=
  compute h s ⟨[(a.a, a.ty), (a.b, .n32)], [], some (a.d, a.ty.regs), none⟩ (intDist h a.ty) fun l =>
    let n := l.src a.b .n32
    let w := a.ty.bits
    let k := min (if a.wrap then n % w else n) w
    Res.of (ofSigned w (intOf a.ty (l.src a.a a.ty) / 2 ^ k))

/-! ### Bit fields and counts (R96, R97) -/

/-- BFX (R96). -/
def execBfx (h : Hdr) (a : TyDAB) (s : State) : Out' :=
  compute h s ⟨[(a.a, a.ty), (a.b, .n32)], [], some (a.d, a.ty.regs), none⟩ (intDist h a.ty) fun l =>
    let ctl := l.src a.b .n32
    let pos := natBits ctl 0 8
    let len := natBits ctl 8 8
    let w := a.ty.bits
    if w ≤ pos || len == 0 then Res.of 0
    else
      let n := min len (w - pos)
      let f := natBits (l.src a.a a.ty) pos n
      Res.of (if a.ty.signed then signExt n w f else f)

/-- BFI (R96). -/
def execBfi (h : Hdr) (a : BfiArgs) (s : State) : Out' :=
  compute h s ⟨[(a.a, a.ty), (a.b, .n32), (a.c, a.ty)], [], some (a.d, a.ty.regs), none⟩ (intDist h a.ty) fun l =>
    let ctl := l.src a.b .n32
    let pos := natBits ctl 0 8
    let len := natBits ctl 8 8
    let w := a.ty.bits
    let c := l.src a.c a.ty
    if w ≤ pos || len == 0 then Res.of c
    else
      let n := min len (w - pos)
      Res.of (c - natBits c pos n * 2 ^ pos + natBits (l.src a.a a.ty) 0 n * 2 ^ pos)

/-- POPC (R97). -/
def execPopc (h : Hdr) (a : TyDA) (s : State) : Out' :=
  compute h s ⟨[(a.a, a.ty)], [], some (a.d, 1), none⟩ (intDist h a.ty) fun l =>
    Res.of (popCount a.ty.bits (l.src a.a a.ty))

/-- CLZ (R97). -/
def execClz (h : Hdr) (a : TyDA) (s : State) : Out' :=
  compute h s ⟨[(a.a, a.ty)], [], some (a.d, 1), none⟩ (intDist h a.ty) fun l =>
    let x := l.src a.a a.ty
    Res.of (if x = 0 then a.ty.bits else a.ty.bits - 1 - Nat.log2 x)

/-- The low `n` bits of a number in reverse order. -/
def revBits (x : Nat) : Nat → Nat
  | 0 => 0
  | n + 1 => 2 * revBits x n + (natBit x n).toNat

/-- BREV (R97). -/
def execBrev (h : Hdr) (a : TyDA) (s : State) : Out' :=
  compute h s ⟨[(a.a, a.ty)], [], some (a.d, a.ty.regs), none⟩ (intDist h a.ty) fun l =>
    Res.of (revBits (l.src a.a a.ty) a.ty.bits)

/-! ### Comparison, selection, addresses (R98, R99, R101) -/

/-- ISETP (R98). -/
def execIsetp (h : Hdr) (a : IsetpArgs) (s : State) : Out' :=
  compute h s ⟨[(a.a, a.ty), (a.b, a.ty)], [a.comb], none, some a.pd⟩ (intDist h a.ty) fun l =>
    ⟨0, combine a.op (intCompare a.ty a.cmp (l.src a.a a.ty) (l.src a.b a.ty)) (l.pred a.comb != a.neg), 0⟩

/-- SEL (R99). The distance of .b128 is that of the 64-bit types: R88 names none (notes/assumptions/27.md). -/
def execSel (h : Hdr) (a : SelArgs) (s : State) : Out' :=
  compute h s { shapeAB a.ty a.d a.a a.b with preds := [a.p] } (intDist h a.ty) fun l =>
    Res.of (if l.pred a.p != a.neg then l.src a.a a.ty else l.src a.b a.ty)

/-- LEA (R101). -/
def execLea (h : Hdr) (a : LeaArgs) (s : State) : Out' :=
  compute h s ⟨[(a.a, .n64), (a.b, .n32)], [], some (a.d, 2), none⟩ (intDist h .n64) fun l =>
    let b := l.src a.b .n32
    let i := if a.nat then b else signExt 32 64 b
    Res.of ((l.src a.a .n64 + i * 2 ^ a.shift.toNat) % 2 ^ 64)

end Sys2Proof.Machine
end

