-- ==== Sys2Proof/Machine/Regs.lean ====
section
/-! DEFINITION. Registers as system software reads and writes them (00_scope R5; 16_system R375, R376, R380, R386;
17_memsys R401 to R409; 18_platform R412, R413, R418; 02_encoding R41; 09_scheduling R190, R217; 11_consistency R253,
R254): each register's fields, the device windows, and the changes that a write starts. -/

namespace Sys2Proof.Machine

/-- Write a register by its fields: RW bits take the value, W1C bits written 1 clear, all others stay (R5). -/
def regWrite (old v rw w1c : BitVec 64) : BitVec 64 := ((old &&& ~~~rw) ||| (v &&& rw)) &&& ~~~(v &&& w1c)

/-- Bits [lo + n - 1 : lo]. -/
def bitsMask (lo n : Nat) : BitVec 64 := BitVec.ofNat 64 ((2 ^ n - 1) * 2 ^ lo)

/-! ### Per-core and per-die registers -/

/-- A write to SCHED_CHECK sets ENABLE and clears EVENTS (R41). -/
def Core.writeSched (c : Core) (v : BitVec 64) : Core := { c with regs := { c.regs with schedCheck := v &&& 1 } }

/-- Fields that are written 0 clear, others stay (R217, R254). -/
def clearFields (old v : BitVec 64) : List (Nat × Nat) → BitVec 64
  | [] => old
  | (lo, n) :: l => clearFields (if field v lo n = 0 then setField old lo n 0 else old) v l

def stealFields : List (Nat × Nat) := [(0, 16), (16, 16), (32, 16), (48, 16)]

def Core.writeSteal (c : Core) (v : BitVec 64) : Core :=
  { c with regs := { c.regs with stealCounts := clearFields c.regs.stealCounts v stealFields } }

/-- HIGH_WATER and HOLDS. -/
def statFields : List (Nat × Nat) := [(16, 14), (32, 32)]

/-- TEL_REGION_STATS: a cleared HIGH_WATER starts again from IN_USE (R253). -/
def State.writeStats (s : State) (die : Nat) (v : BitVec 64) : State :=
  ({ s with dieStats := spSet s.dieStats die (clearFields (spGet s.dieStats die) v statFields) }).highWater die

/-- SCHED_CHECK_WRITE. -/
def execSchedCheckWrite (core : Nat) (v : BitVec 64) (s : State) : Out' :=
  .next (if core < s.part.cores then s.modCore core (·.writeSched v) else s)

/-- STEAL_COUNTS_WRITE. -/
def execStealCountsWrite (core : Nat) (v : BitVec 64) (s : State) : Out' :=
  .next (if core < s.part.cores then s.modCore core (·.writeSteal v) else s)

/-- TEL_REGION_STATS_WRITE. -/
def execTelRegionStatsWrite (die : Nat) (v : BitVec 64) (s : State) : Out' :=
  .next (if die < s.part.dies then s.writeStats die v else s)

/-! ### Computed registers (R376, R253, R421) -/

def CtxSt.code : CtxSt → Nat
  | .free => 0 | .running => 1 | .draining => 2 | .saving => 3 | .saved => 4 | .loading => 5 | .waiting => 6

/-- CTX_STATE. -/
def State.ctxStates (s : State) : BitVec 64 :=
  (List.range 16).foldl (fun r c => setField r (3 * c) 3 (s.ctx c).st.code) 0

/-- CTX_RUN: the context RUNNING, DRAINING or SAVING. -/
def State.ctxRun (s : State) : BitVec 64 :=
  match (List.range 16).find? fun c => (s.ctx c).goes || (s.ctx c).st == .saving with
  | some c => BitVec.ofNat 64 (16 + c)
  | none => 0

/-- TEL_REGION_STATS of a die. -/
def State.regionStats (s : State) (die : Nat) : BitVec 64 := setField (spGet s.dieStats die) 0 14 (s.inUse die)

/-! ### System registers by number (R386) -/

/-- A register of core scope, or of die scope, by its number. -/
def perCore (n : Nat) : Bool := n = 0x001 || n = 0x012 || (0x020 ≤ n && n ≤ 0x025) || (0x060 ≤ n && n ≤ 0x06B)

/-- Read a register of a core, or of its die. -/
def State.readCoreReg (s : State) (core n : Nat) : BitVec 64 :=
  let r := (s.core core).regs
  if n = 0x001 then r.schedCheck
  else if n = 0x012 then r.stealCounts
  else if n = 0x020 then r.dropped
  else if 0x021 ≤ n ∧ n ≤ 0x024 then spGet r.starve (n - 0x021)
  else if n = 0x025 then s.regionStats (dieOf core)
  else if 0x060 ≤ n ∧ n ≤ 0x067 then spGet r.bp (n - 0x060)
  else if 0x068 ≤ n ∧ n ≤ 0x06B then spGet r.wp (n - 0x068)
  else 0

/-- Fields of DBG_WP: KIND, LENGTH, BASE. -/
def wpMask : BitVec 64 := bitsMask 60 2 ||| bitsMask 32 20 ||| bitsMask 0 19

/-- Write a register of a core, or of its die. -/
def State.writeCoreReg (s : State) (core n : Nat) (v : BitVec 64) : State :=
  if n = 0x001 then s.modCore core (·.writeSched v)
  else if n = 0x012 then s.modCore core (·.writeSteal v)
  else if n = 0x025 then s.writeStats (dieOf core) v
  else if 0x060 ≤ n ∧ n ≤ 0x067 then
    s.modCore core fun c => { c with regs := { c.regs with bp := spSet c.regs.bp (n - 0x060) v } }
  else if 0x068 ≤ n ∧ n ≤ 0x06B then
    s.modCore core fun c => { c with regs := { c.regs with wp := spSet c.regs.wp (n - 0x068) (v &&& wpMask) } }
  else s

/-- Read a register of device scope. -/
def State.readDevReg (s : State) (n : Nat) : BitVec 64 :=
  let r := s.cregs
  if n = 0x010 then r.stealRounds
  else if n = 0x011 then r.stealThreshold
  else if n = 0x030 then r.preemptDrain
  else if n = 0x031 then r.gangTime
  else if n = 0x032 then r.gangDrain
  else if n = 0x033 then r.gangStatus
  else if n = 0x038 then r.priv
  else if n = 0x039 then r.next
  else if n = 0x03A then s.ctxRun
  else if n = 0x03B then s.ctxStates
  else if n = 0x03C then r.cmd
  else if n = 0x03D then r.escBase
  else if n = 0x03E then r.escHead
  else if n = 0x03F then r.escTail
  else if 0x040 ≤ n ∧ n ≤ 0x04F then spGet r.imageBase (n - 0x040)
  else if n = 0x050 then r.dbgCtl
  else if n = 0x051 then r.dbgCmd
  else if n = 0x052 then BitVec.ofNat 64 mailboxBase
  else 0

/-- Write a register of device scope. -/
def State.writeDevReg (s : State) (n : Nat) (v : BitVec 64) : State :=
  let r := s.cregs
  if n = 0x010 then { s with cregs := { r with stealRounds := v &&& bitsMask 0 8 } }
  else if n = 0x011 then { s with cregs := { r with stealThreshold := v &&& bitsMask 0 9 } }
  else if n = 0x030 then { s with cregs := { r with preemptDrain := v &&& bitsMask 0 32 } }
  else if n = 0x031 then s.writeGang v
  else if n = 0x032 then { s with cregs := { r with gangDrain := v &&& bitsMask 0 32 } }
  else if n = 0x033 then s.putGang (regWrite r.gangStatus v 0 0x300)
  else if n = 0x038 then { s with cregs := { r with priv := v &&& bitsMask 0 16 } }
  else if n = 0x039 then { s with cregs := { r with next := v &&& bitsMask 0 5 } }
  else if n = 0x03C then s.ctxCmd v
  else if n = 0x03D then { s with cregs := { r with escBase := v &&& bitsMask 12 36 } }
  else if n = 0x03F then
    State.flushEsc (s.escHeld.length + 1) { s with cregs := { r with escTail := v &&& bitsMask 0 32 } }
  else if 0x040 ≤ n ∧ n ≤ 0x04F then
    { s with cregs := { r with imageBase := spSet r.imageBase (n - 0x040) (v &&& bitsMask 21 27) } }
  else if n = 0x050 then { s with cregs := { r with dbgCtl := v &&& bitsMask 0 32 } }
  else if n = 0x051 then s.dbgCmd v
  else s

/-- SWR READ: the register of a number, of a core where it has core or die scope. -/
def State.readSwr (s : State) (core n : Nat) : BitVec 64 := if perCore n then s.readCoreReg core n else s.readDevReg n

/-- SWR WRITE. -/
def State.writeSwr (s : State) (core n : Nat) (v : BitVec 64) : State :=
  if perCore n then s.writeCoreReg core n v else s.writeDevReg n v

/-! ### Shootdowns (R403, R268) -/

/-- A write to XLAT_INV_CMD. -/
def State.invWrite (s : State) (v : BitVec 64) : State :=
  let m := s.mregs
  if m.invCmd.getLsbD 7 then { s with mregs := { m with invCmd := m.invCmd ||| BitVec.twoPow 64 9 } }
  else
    let r := regWrite m.invCmd v 0 0x300
    let scope := field v 5 2
    if scope = 3 then { s with mregs := { m with invCmd := r } }
    else { s with mregs := { m with invCmd := r ||| BitVec.twoPow 64 7, inv := some (m.invAddr, scope, field v 0 4) } }

/-- XLAT_INV_PAGE: SCOPE 0. -/
def execXlatInvPage (v : BitVec 64) (s : State) : Out' := .next (s.invWrite (setField v 5 2 0))

/-- XLAT_INV_CONTEXT: SCOPE 1. -/
def execXlatInvContext (v : BitVec 64) (s : State) : Out' := .next (s.invWrite (setField v 5 2 1))

/-- XLAT_INV_ALL: SCOPE 2. -/
def execXlatInvAll (v : BitVec 64) (s : State) : Out' := .next (s.invWrite (setField v 5 2 2))

/-- XLAT_INV_NONE: SCOPE 3. -/
def execXlatInvNone (v : BitVec 64) (s : State) : Out' := .next (s.invWrite (setField v 5 2 3))

/-- A cached leaf is one that the change removes. -/
def TlbEnt.inScope (e : TlbEnt) (va scope ctx : Nat) : Bool :=
  match scope with
  | 0 => e.ctx == ctx && e.vbase ≤ va && va < e.vbase + e.size
  | 1 => e.ctx == ctx
  | _ => true

/-- Every access issued under the old translation has performed: the stores of the tasks concerned. -/
def State.shotDown (s : State) (scope ctx : Nat) : Bool :=
  s.tasks.all fun t => (scope != 2 && s.ctxOf t != ctx) || s.drainedOut t

/-- SHOOTDOWN_COMPLETE: the entries are gone from every TLB, and DONE sets. What system software wrote before
happens-before every access from now on (R268), so no core keeps a copy that it does not own. -/
def execShootdownComplete (s : State) : Out' :=
  match s.mregs.inv with
  | none => .next s
  | some (a, scope, ctx) =>
    if !s.shotDown scope ctx then .next s
    else
      let keep (e : TlbEnt) : Bool := !e.inScope (field a 16 32 * 65536) scope ctx
      let r := (s.mregs.invCmd &&& ~~~(BitVec.twoPow 64 7)) ||| BitVec.twoPow 64 8
      let since (t : Task) : Task :=
        if scope = 2 ∨ s.ctxOf t = ctx then { t with priorFrom := s.hist.length } else t
      .next { s with
        tasks := s.tasks.map since
        cores := s.cores.map fun (k, c) => (k, { (c.acquire none) with tlb := c.tlb.filter keep })
        dieTlb := s.dieTlb.filter fun x => keep x.2
        mregs := { s.mregs with invCmd := r, inv := none } }

/-! ### Key slots (R406, R408) -/

/-- The state of a key slot may be changed: its context is FREE. -/
def State.keyFree (s : State) (ctx : Nat) : Bool := ctx < 16 && (s.ctx ctx).st == .free

/-- What a slot's range holds cannot be read under another key. -/
def State.spoil (s : State) (ctx : Nat) : State :=
  if (spGet s.mregs.keyCtl ctx).getLsbD 2 then
    match s.protRange ctx with
    | some (b, n) => { s with badMac := s.badMac ++ [(b, b + n, 0)] }
    | none => s
  else s

/-- A write to KEY_DATA: eight key bytes; the fourth sets VALID. -/
def State.keyWrite (s : State) (ctx : Nat) (v : BitVec 64) : State :=
  if !s.keyFree ctx then s
  else
    let i := (spGet s.mregs.keyCount ctx).toNat % 4
    let old := spGet s.mregs.keys ctx
    let new : BitVec 256 :=
      (old &&& ~~~((BitVec.ofNat 256 (2 ^ 64 - 1)) <<< (64 * i))) ||| ((v.setWidth 256) <<< (64 * i))
    let s := if new = old then s else s.spoil ctx
    let ctl := spGet s.mregs.keyCtl ctx
    { s with mregs := { s.mregs with
        keys := spSet s.mregs.keys ctx new
        keyCount := spSet s.mregs.keyCount ctx (BitVec.ofNat 64 ((i + 1) % 4))
        keyCtl := if i = 3 then spSet s.mregs.keyCtl ctx (ctl ||| 1) else s.mregs.keyCtl } }

/-- KEY_DATA_WRITE. -/
def execKeyDataWrite (ctx : Nat) (v : BitVec 64) (s : State) : Out' := .next (s.keyWrite ctx v)

/-- A write to KEY_CTL: the range, and ENABLE where a key is loaded; setting ENABLE clears READY. What an enabled range
held stays encrypted. -/
def State.keyCtlWrite (s : State) (ctx : Nat) (v : BitVec 64) : State :=
  if !s.keyFree ctx then s
  else
    let old := spGet s.mregs.keyCtl ctx
    let s := if old.getLsbD 2 then
        match s.protRange ctx with
        | some (b, n) => s.loseRange b (b + n)
        | none => s
      else s
    let range := bitsMask 48 16 ||| bitsMask 21 27
    let new := regWrite old v (if old.getLsbD 0 then range ||| 2 else range) 0
    let new := if old.getLsbD 0 && v.getLsbD 1 then new &&& ~~~(4 : BitVec 64) else new
    { s with mregs := { s.mregs with keyCtl := spSet s.mregs.keyCtl ctx new } }

/-- KEY_CTL_WRITE. -/
def execKeyCtlWrite (ctx : Nat) (v : BitVec 64) (s : State) : Out' := .next (s.keyCtlWrite ctx v)

/-- The range of an enabled slot that can be initialised: a multiple of 16 MiB, not empty, below MEM_TOP. -/
def State.rangeToZero (s : State) (ctx : Nat) : Option (Nat × Nat) :=
  if (spGet s.mregs.keyCtl ctx).getLsbD 2 then none
  else (s.protRange ctx).filter fun (b, n) => n != 0 && b % 2 ^ 24 == 0 && b + n ≤ s.memTop

/-- Zero a range: data, counters and tree. What the carve-out then holds for zeros is free values (R406, R407). -/
def State.zeroRange (s : State) (lo hi : Nat) : State :=
  State.openRange { s.zeroPages lo hi with
    minors := spErase s.minors (lo / 64) (hi / 64)
    majors := spErase s.majors (lo / 4096) (hi / 4096) } (lo + (hi - lo) / 8 * 7) hi

/-- KEY_RANGE_READY: the range is initialised, and READY sets. -/
def execKeyRangeReady (ctx : Nat) (s : State) : Out' :=
  if 16 ≤ ctx then .next s
  else match s.rangeToZero ctx with
    | none => .next s
    | some (b, n) =>
      let s := s.zeroRange b (b + n)
      .next { s with mregs := { s.mregs with keyCtl := spSet s.mregs.keyCtl ctx (spGet s.mregs.keyCtl ctx ||| 4) } }

/-! ### The device windows (R412) -/

/-- A place in the windows of registers, by the offset from 0xF000_0000_0000. -/
inductive Reg where
  | dev (n : Nat)
  | core (c n : Nat)
  | root (c : Nat)
  | invAddr | invCmd
  | keyCtl (c : Nat)
  | keyData (c : Nat)
  | plat (off : Nat)
  | jobLaunch (n : Nat)
  | jobStatus (n : Nat)
  | jobRetired (n : Nat)
  | route (n : Nat)
  | xlatFault (c : Nat)
  | errors (n : Nat)
  | ueAddr (n : Nat)
deriving DecidableEq, Repr

/-- The register at an offset of the device block. -/
def devBlock (part : Part) (r : Nat) : Option Reg :=
  if r < 0x4000 then (if swrListed (r / 8) && !perCore (r / 8) then some (.dev (r / 8)) else none)
  else if r < 0x4080 then some (.root ((r - 0x4000) / 8))
  else if r = 0x4080 then some .invAddr
  else if r = 0x4088 then some .invCmd
  else if 0x4100 ≤ r ∧ r < 0x4180 then some (.keyCtl ((r - 0x4100) / 8))
  else if 0x4180 ≤ r ∧ r < 0x4200 then some (.keyData ((r - 0x4180) / 8))
  else if 0x4200 ≤ r ∧ r < 0x4280 then some (.plat r)
  else if 0x4400 ≤ r ∧ r < 0x4600 then
    let n := (r - 0x4400) / 32
    if part.sysCores ≤ n then none
    else match (r - 0x4400) % 32 with
    | 0 => some (.jobLaunch n)
    | 8 => some (.jobStatus n)
    | 16 => some (.jobRetired n)
    | _ => none
  else if 0x8000 ≤ r ∧ r < 0x10000 then some (.route ((r - 0x8000) / 8))
  else none

/-- The register at an offset of the core blocks. -/
def State.coreBlock (s : State) (r : Nat) : Option Reg :=
  let c := r / 0x10000
  let o := r % 0x10000
  if s.part.cores ≤ c then none
  else if o < 0x4000 then (if swrListed (o / 8) && perCore (o / 8) then some (.core c (o / 8)) else none)
  else if o = 0x4000 then some (.xlatFault c)
  else none

/-- The register at an offset of the windows; none where nothing is assigned. -/
def State.regAt (s : State) (off : Nat) : Option Reg :=
  if off % 8 ≠ 0 then none
  else if 0x100000 ≤ off ∧ off < 0x110000 then devBlock s.part (off - 0x100000)
  else if 0x1000000 ≤ off ∧ off < 0x1000000 + 288 * 0x10000 then s.coreBlock (off - 0x1000000)
  else if 0x3000000 ≤ off ∧ off < 0x3000000 + s.nStacks * 0x1000 then
    let n := (off - 0x3000000) / 0x1000
    match (off - 0x3000000) % 0x1000 with
    | 0 => some (.errors n)
    | 8 => some (.ueAddr n)
    | _ => none
  else none

/-- A platform register (R413). -/
def State.readPlat (s : State) (off : Nat) : BitVec 64 :=
  let r := s.pregs
  if off = 0x4200 then r.devStatus
  else if off = 0x4208 then r.irqStatus
  else if off = 0x4210 then r.irqEnable
  else if off = 0x4228 then r.bootStatus
  else if off = 0x4230 then r.herricNode
  else if off = 0x4238 then r.rxBase
  else if off = 0x4240 then r.rxSize
  else if off = 0x4248 then s.timeNs
  else if off = 0x4250 then r.timeStatus
  else if off = 0x4258 then r.scrubCtl
  else if off = 0x4260 then r.telBase
  else if off = 0x4268 then r.telCtl
  else if off = 0x4270 then r.winBase
  else if off = 0x4278 then r.pwrCap
  else 0

def State.writePlat (s : State) (off : Nat) (v : BitVec 64) : State :=
  let r := s.pregs
  if off = 0x4208 then { s with pregs := { r with irqStatus := regWrite r.irqStatus v 0 (bitsMask 0 11) } }
  else if off = 0x4210 then { s with pregs := { r with irqEnable := v &&& bitsMask 0 11 } }
  else if off = 0x4218 then (if v.getLsbD 0 then s.warmReset else s)
  else if off = 0x4220 then s.bootGo v
  else if off = 0x4230 then { s with pregs := { r with herricNode := v &&& bitsMask 0 12 } }
  else if off = 0x4238 then { s with pregs := { r with rxBase := v &&& bitsMask 16 32 } }
  else if off = 0x4240 then { s with pregs := { r with rxSize := v &&& bitsMask 16 32 } }
  else if off = 0x4250 then { s with pregs := { r with timeStatus := regWrite r.timeStatus v 0 8 } }
  else if off = 0x4258 then { s with pregs := { r with scrubCtl := v &&& bitsMask 0 32 } }
  else if off = 0x4260 then { s with pregs := { r with telBase := v &&& bitsMask 12 36 } }
  else if off = 0x4268 then
    { s with pregs := { r with telCtl := regWrite r.telCtl v (bitsMask 8 24 ||| bitsMask 4 4 ||| 1) 0 } }
  else if off = 0x4270 then { s with pregs := { r with winBase := v &&& bitsMask 30 18 } }
  else if off = 0x4278 then { s with pregs := { r with pwrCap := v &&& bitsMask 0 16 } }
  else s

/-- Read a register: its value, and what a read of JOB_RETIRED removes. The value stands in `readData`. -/
def State.readReg (s : State) (r : Reg) : State :=
  let give (v : BitVec 64) : State := { s with readData := v }
  match r with
  | .dev n => give (s.readDevReg n)
  | .core c n => give (s.readCoreReg c n)
  | .root c => give (spGet s.mregs.root c)
  | .invAddr => give s.mregs.invAddr
  | .invCmd => give s.mregs.invCmd
  | .keyCtl c => give (spGet s.mregs.keyCtl c)
  | .keyData _ => give 0
  | .plat off => give (s.readPlat off)
  | .jobLaunch _ => give 0
  | .jobStatus n => give (s.sysSet n).status
  | .jobRetired n => s.retiredRead n
  | .route n => give (spGet s.pregs.route n)
  | .xlatFault c => give (s.core c).regs.xlatFault
  | .errors n => give (spGet s.mregs.errors n)
  | .ueAddr n => give (spGet s.mregs.ueAddr n)

/-- Write a register. -/
def State.writeReg (s : State) (r : Reg) (v : BitVec 64) : State :=
  let m := s.mregs
  match r with
  | .dev n => s.writeDevReg n v
  | .core c n => s.writeCoreReg c n v
  | .root c => { s with mregs := { m with root := spSet m.root c (v &&& (bitsMask 12 36 ||| 1)) } }
  | .invAddr => { s with mregs := { m with invAddr := v &&& bitsMask 16 32 } }
  | .invCmd => s.invWrite v
  | .keyCtl c => s.keyCtlWrite c v
  | .keyData c => s.keyWrite c v
  | .plat off => s.writePlat off v
  | .jobLaunch n => s.launchWrite n v
  | .jobStatus n => s.setSys n { s.sysSet n with status := regWrite (s.sysSet n).status v 0 0x10 }
  | .jobRetired _ => s
  | .route n => { s with pregs := { s.pregs with route := spSet s.pregs.route n (v &&& bitsMask 0 18) } }
  | .xlatFault c =>
    s.modCore c fun x => { x with regs := { x.regs with xlatFault := regWrite x.regs.xlatFault v 0 (bitsMask 48 2) } }
  | .errors n => { s with mregs := { m with errors := spSet m.errors n v } }
  | .ueAddr n => { s with mregs := { m with ueAddr := spSet m.ueAddr n (regWrite (spGet m.ueAddr n) v 0 1) } }

/-- REGISTER_WRITE: an aligned 8-byte write at an offset of the windows; one that names no register is ignored. -/
def execRegisterWrite (off : Nat) (v : BitVec 64) (s : State) : Out' :=
  match s.regAt off with
  | none => .next s
  | some r => .next (s.writeReg r v)

end Sys2Proof.Machine
end

