-- ==== Sys2Proof/Machine/Platform.lean ====
section
/-! DEFINITION. The host, the links and the background (18_platform R410 to R421, R425 to R427; 17_memsys R409): PCIe
windows, the query service, remote segments received, time corrections, thermal steps, scrubbing, telemetry, soft
errors, and what the system cores access. -/

namespace Sys2Proof.Machine

/-- Something goes out. -/
def State.out (s : State) (o : Out) : State := { s with outs := s.outs ++ [o] }

/-- HBM addresses [pa, pa + n) that nothing outside may touch: past MEM_TOP, or in a protected range (R406, R415). -/
def State.closed (s : State) (pa n : Nat) : Bool :=
  s.memTop < pa + n || (List.range 16).any fun c => match s.protRange c with
    | some (b, z) => max pa b < min (pa + n) (b + z)
    | none => false

/-- Every line of [pa, pa + n) can be read. -/
def State.readable (s : State) (pa n : Nat) : Bool := !(linesOf pa n).any (s.badLine ·)

/-! ### PCIe (R414, R415) -/

/-- BAR2's size. -/
def bar2Size : Nat := 2 ^ 36

/-- PCIE_WIN_BASE as an address. -/
def State.winAddr (s : State) (off : Nat) : Nat := field s.pregs.winBase 30 18 * 2 ^ 30 + off

/-- PCIE_BAR2_WRITE: performed at the home slice; discarded with a completer abort where the range is closed; an
Unsupported Request before MEM_READY. -/
def execPcieBar2Write (off : Nat) (data : List (BitVec 8)) (s : State) : Out' :=
  if bar2Size < off + data.length then .next s
  else if !s.memReady then .next (s.out (.host .unsupported []))
  else if s.closed (s.winAddr off) data.length then .next (s.out (.host .abort []))
  else .next ((s.perform none (s.winAddr off) data).out (.host .success []))

/-- PCIE_BAR2_READ: what cannot be read is answered with a completer abort (notes/assumptions/68.md). -/
def execPcieBar2Read (off len : Nat) (s : State) : Out' :=
  if bar2Size < off + len then .next s
  else if !s.memReady then .next (s.out (.host .unsupported []))
  else if s.closed (s.winAddr off) len || !s.readable (s.winAddr off) len then .next (s.out (.host .abort []))
  else .next (s.out (.host .success (s.memBytes (s.winAddr off) len)))

/-- An access of 4 or 8 bytes, aligned, within the mailbox. -/
def mailboxAccess (off size : Nat) : Bool := (size == 4 || size == 8) && off % size == 0 && off + size ≤ 4096

/-- Write bytes of the mailbox. -/
def State.mailboxWrite (s : State) (off size : Nat) (v : BitVec 64) : State :=
  { s with mailbox := spPutNat s.mailbox off size v.toNat }

/-- PCIE_BAR0_ACCESS. -/
def execPcieBar0Access (a : Access) (s : State) : Out' :=
  if !mailboxAccess a.addr a.size then .next (s.out (.host .unsupported []))
  else match a.write with
    | some v => .next ((s.mailboxWrite a.addr a.size v).out (.host .success []))
    | none => .next (s.out (.host .success (spTake s.mailbox a.addr a.size)))

/-! ### The query service (R417) -/

/-- LENGTH and OFFSET are as a request must have them. -/
def queryShape (off len : Nat) : Bool := 4 ≤ len && len ≤ 1024 && len % 4 == 0 && off % 4 == 0

/-- Records of the telemetry ring. -/
def State.telRecords (s : State) : Nat := 64 * 2 ^ field s.pregs.telCtl 4 4

/-- TEL_RING_BASE as an address. -/
def State.telAddr (s : State) : Nat := field s.pregs.telBase 12 36 * 4096

/-- The header of a response: OP + 0x80, STATUS, and the request's LENGTH, SEQ and OFFSET (R417). -/
def queryHeader (op status len : Nat) (q : QueryHead) : List Byte :=
  bytesOf 1 (op + 0x80) ++ bytesOf 1 status ++ bytesOf 2 len ++ bytesOf 4 q.seq.toNat ++ bytesOf 8 q.off

/-- QUERY_READ. -/
def execQueryRead (q : QueryHead) (len : Nat) (s : State) : Out' :=
  let off := q.off
  let reply (n : Nat) (bs : List Byte) : Out' := .next (s.out (.queryReply (queryHeader 1 n len q) bs))
  if !queryShape off len then reply 1 []
  else if off < 4096 then (if off + len ≤ 4096 then reply 0 (spTake s.mailbox off len) else reply 1 [])
  else if off < 0x10000 then reply 1 []
  else if !s.memReady then reply 3 []
  else
    let b := off - 0x10000
    if 64 * s.telRecords < b + len || s.memTop < s.telAddr + b + len then reply 1 []
    else reply 0 (s.devBytes (s.telAddr + b) len)

/-- Mailbox words that a query may write: DRD, HWR, and the lines 48 to 63. -/
def queryWritable (off : Nat) : Bool := off == 4 || off == 8 || (3072 ≤ off && off < 4096)

/-- QUERY_WRITE: every word is written, or none. -/
def execQueryWrite (q : QueryHead) (words : List (BitVec 32)) (s : State) : Out' :=
  let off := q.off
  let reply (s : State) (n : Nat) : Out' := .next (s.out (.queryReply (queryHeader 2 n (4 * words.length) q) []))
  if !queryShape off (4 * words.length) then reply s 1
  else if !((List.range words.length).all fun i => queryWritable (off + 4 * i)) then reply s 2
  else reply { s with mailbox := spPutBlock s.mailbox off (words.flatMap fun w => bytesOf 4 w.toNat) } 0

/-! ### Herric (R418 to R420) -/

/-- HERRIC_SEGMENT_RECEIVE: a segment is written into the inbound window and acknowledged, or refused. -/
def execHerricSegmentReceive (off : Nat) (data : List (BitVec 8)) (s : State) : Out' :=
  let pa := field s.pregs.rxBase 16 32 * 65536 + off
  if !s.memReady || field s.pregs.rxSize 16 32 * 65536 < off + data.length || s.closed pa data.length then
    .next (s.out (.ack false))
  else .next ((s.perform none pa data).out (.ack true))

/-- HERRIC_LANE_FAIL: the port goes on with 4 lanes. -/
def execHerricLaneFail (port : Nat) (s : State) : Out' :=
  if s.part.herricPorts ≤ port then .next s
  else .next ({ s with pregs := { s.pregs with lanes := spSet s.pregs.lanes port 4 } }.irq 7)

/-! ### Time (R421) -/

/-- Set LOCKED and SOURCE; a change of LOCKED is event 9. -/
def State.setLock (s : State) (locked : Bool) (source : Nat) : State :=
  let r := s.pregs.timeStatus
  let s : State := { s with pregs := { s.pregs with timeStatus := setField (setField r 0 1 locked.toNat) 1 2 source } }
  if r.getLsbD 0 = locked then s else s.irq 9

/-- The device's time differs from the reference by this many ns. -/
def State.timeError (s : State) (ns : BitVec 64) : Int := (ns.toNat : Int) - s.timeNs.toNat

/-- A correction steps the time: before MEM_READY, and forward where the error passes 1 µs. -/
def State.steps (s : State) (ns : BitVec 64) : Bool := !s.memReady || 1000 < s.timeError ns

/-- Correct the time by a source: stepped, or slewed. -/
def State.correct (s : State) (ns : BitVec 64) (source : Nat) : State :=
  let err := s.timeError ns
  if s.steps ns then
    let s : State := { s with timeNs := ns, timeFrac := 0, slew := 0 }
    let s : State := if err = 0 then s else
      { s with pregs := { s.pregs with timeStatus := s.pregs.timeStatus ||| 8 } }
    s.setLock true source
  else { s with slew := err * (10 * s.clkMHz) }.setLock (err.natAbs ≤ 50) source

/-- The device takes its time from IEEE 1588: it is the pod's source of beacons. -/
def State.beaconSource (s : State) : Bool := field s.pregs.timeStatus 1 2 == 2

/-- HERRIC_BEACON_SEND: the time of the device that takes it from IEEE 1588 goes out over every port. -/
def execHerricBeaconSend (s : State) : Out' := if s.beaconSource then .next (s.out (.beacon s.timeNs)) else .next s

/-- HERRIC_BEACON_RECEIVE: the time is corrected and the beacon passed on. -/
def execHerricBeaconReceive (ns : BitVec 64) (s : State) : Out' := .next ((s.correct ns 1).out (.beacon ns))

/-- PTP_MESSAGE. -/
def execPtpMessage (ns : BitVec 64) (s : State) : Out' := .next (s.correct ns 2)

/-- TIME_SOURCE_LOSS: the count runs free. -/
def execTimeSourceLoss (s : State) : Out' := .next ({ s with slew := 0 }.setLock false 0)

/-! ### Power and cooling (R427) -/

/-- The core clock without a thermal step, in MHz (R4). -/
def clkNominal : Nat := 1750

/-- Design power in W (R22), for the parts whose power the spec gives. -/
def Part.designPower : Part → Option Nat
  | .m288 => some 2800
  | .p144 => some 1450
  | .d36 _ => none

/-- The cap that PWR_CAP sets: a value above the part's design power acts as that power (R413). -/
def State.powerCap (s : State) : Nat :=
  let w := field s.pregs.pwrCap 0 16
  match s.part.designPower with
  | some d => min w d
  | none => w

/-- The temperatures of the part's dies that the sensors measured last. -/
def State.dieTemps (s : State) : List Nat :=
  (s.sensors.dieTemp.take s.part.dies ++ s.sensors.ioTemp.take s.part.ioDies).map (·.toNat)

/-- What the sensors measured last calls for a lower clock: a die of the part above 105 °C, or module power above the
cap. -/
def State.hot (s : State) : Bool := s.dieTemps.any (105 < ·) || s.powerCap < s.sensors.power.toNat

/-- While the condition holds, its time goes on (R427). -/
def State.noteHot (s : State) : State := if s.hot then { s with coolSince := s.timeNs.toNat } else s

/-- A step down is due: the condition holds, and a step is left (notes/assumptions/19.md). -/
def State.stepsDown (s : State) : Bool := s.hot && 125 < s.clkMHz

/-- A step up is due: the clock is below its nominal rate, and the condition has been clear for 1 ms. -/
def State.stepsUp (s : State) : Bool := !s.hot && s.clkMHz < clkNominal && s.coolSince + 1000000 ≤ s.timeNs.toNat

/-- THERMAL_STEP_DOWN: a step of 125 MHz. -/
def execThermalStepDown (s : State) : Out' :=
  if s.stepsDown then .next ((s.setClk (s.clkMHz - 125)).irq 8) else .next s

/-- THERMAL_STEP_UP: a step of 125 MHz. -/
def execThermalStepUp (s : State) : Out' :=
  if s.stepsUp then .next ((s.setClk (s.clkMHz + 125)).irq 8) else .next s

/-! ### Background work (R409, R425, R426) -/

/-- Add 1 to a 32-bit field of TEL_MEM_ERRORS, saturating. -/
def State.countError (s : State) (stack lo : Nat) : State :=
  let r := spGet s.mregs.errors stack
  if field r lo 32 + 1 < 2 ^ 32 then
    { s with mregs := { s.mregs with errors := spSet s.mregs.errors stack (setField r lo 32 (field r lo 32 + 1)) } }
  else s

/-- An uncorrectable line is found: poisoned, counted, its address latched (R409); event 5 where UE
rises (R413). -/
def State.uncorrectable (s : State) (stack line : Nat) : State :=
  if s.poison.contains line || s.stackOf (64 * line) ≠ stack || s.memTop ≤ 64 * line then s
  else
    let s : State := { s with poison := s.poison ++ [line] }
    let a := spGet s.mregs.ueAddr stack
    let s : State := if a.getLsbD 0 then s else
      { s with mregs := { s.mregs with ueAddr := spSet s.mregs.ueAddr stack (BitVec.ofNat 64 (64 * line + 1)) } }
    let t := s.countError stack 32
    if t.mregs.errors = s.mregs.errors then t else t.irq 5

/-- PATROL_SCRUB: a line of the stack is found good, corrected, or uncorrectable. -/
def execPatrolScrub (stack : Nat) (s : State) : Out' :=
  if s.nStacks ≤ stack then .next s
  else
    let (k, s) := s.pick 3
    if k = 0 then .next s
    else if k = 1 then .next (s.countError stack 0)
    else
      let (l, s) := s.pick (s.memTop / 64)
      .next (s.uncorrectable stack l)

/-- PHY_RECALIBRATION: a channel is unavailable for a time. -/
def execPhyRecalibration (_stack : Nat) (s : State) : Out' := .next s

/-- REFRESH: HBM keeps its contents. -/
def execRefresh (_stack : Nat) (s : State) : Out' := .next s

/-- Bytes of a list of sensors, `n` of them; those of absent parts read zero. -/
def sensorBytes (w n present : Nat) (l : List Nat) : List Byte :=
  (List.range n).flatMap fun i => bytesOf w (if i < present then l[i]?.getD 0 else 0)

/-- A telemetry record (R426). -/
def State.telRecord (s : State) (x : Sensors) : List Byte :=
  bytesOf 8 s.timeNs.toNat ++ bytesOf 4 (field s.pregs.telCtl 32 32) ++ bytesOf 2 x.power.toNat ++ bytesOf 2 s.clkMHz ++
  sensorBytes 2 8 s.part.dies (x.diePower.map (·.toNat)) ++ sensorBytes 1 8 s.part.dies (x.dieTemp.map (·.toNat)) ++
  sensorBytes 1 16 s.nStacks (x.stackTemp.map (·.toNat)) ++ bytesOf 8 0

/-- The sensors measure. -/
def State.measure (s : State) (x : Sensors) : State := { s.noteHot with sensors := x }.noteHot

/-- TELEMETRY_SAMPLE: the sensors measure, and at 115 °C on a die power is removed (R427); a record is written and HEAD
rises, while sampling is on. -/
def execTelemetrySample (x : Sensors) (s : State) : Out' :=
  let s := s.measure x
  if s.dieTemps.any (115 ≤ ·) then .next s.powerOff else
  let head := field s.pregs.telCtl 32 32
  let pa := s.telAddr + 64 * (head % s.telRecords)
  if !s.pregs.telCtl.getLsbD 0 || !s.memReady || s.memTop < pa + 64 then .next s
  else
    let s := s.perform none pa (s.telRecord x)
    .next { s with pregs := { s.pregs with telCtl := setField s.pregs.telCtl 32 32 (head + 1) } }

/-- SRAM_SOFT_ERROR (R409). -/
def execSramSoftError (e : SoftError) (s : State) : Out' :=
  match e with
  | .corrected => .next s
  | .inTask u => .next (s.post u .memoryUncorrectable 0)
  | .inDirtyLine pa =>
    if s.memTop ≤ pa then .next s
    else
      -- the slice's data are lost, and what it has sent on with them
      let s := s.mscEvict (pa / 64)
      let kept := s.slices.map fun (k, ls) => (k, ls.filter (· != pa / 128))
      .next { s with slices := kept, poison := s.poison.filter (· != pa / 64) ++ [pa / 64] }

/-! ### System cores (R410, R412) -/

/-- What stands in a carve-out was overwritten: which lines of its data part then fail their check is a free value, for
R406 does not place their MACs, counters and nodes (R408). -/
def State.tampered (s : State) (pa n : Nat) : State :=
  match (s.protOf (pa + n - 1)).bind s.protRange with
  | none => s
  | some (b, z) =>
    if b + z / 8 * 7 < pa + n then
      let (k, s) := s.fresh
      { s with badMac := s.badMac ++ [(b, b + z / 8 * 7, k + 1)] }
    else s

/-- A system core's access to HBM: at the home slice. A line that cannot be read gives a value the spec leaves open. -/
def State.sysHbm (s : State) (a : Access) : State :=
  match a.write with
  | some v => (s.perform none a.addr (bytesOf a.size v.toNat)).tampered a.addr a.size
  | none =>
    { s with readData := BitVec.ofNat 64 (if s.readable a.addr a.size then s.memNat a.addr a.size
                                          else Config.free s.tick (2 ^ 21) % 256 ^ a.size) }

/-- A system core's access to a register window: one aligned 8-byte access; a read of any other size, or of an
unassigned offset, returns zero, and such a write is ignored. -/
def State.sysWindow (s : State) (a : Access) : State :=
  match (if a.size = 8 then s.regAt (a.addr - mailboxBase) else none), a.write with
  | some r, some v => s.writeReg r v
  | some r, none => s.readReg r
  | none, some _ => s
  | none, none => { s with readData := 0 }

/-- The result of a read from outside. -/
def State.gave (s : State) (v : Nat) : State := { s with readData := BitVec.ofNat 64 v }

/-- A system core's access to the mailbox or to an outbound window: 4 or 8 bytes, aligned (R412). -/
def windowWord (a : Access) : Bool := (a.size == 4 || a.size == 8) && a.addr % a.size == 0

/-- The access is one that a system core can make. -/
def State.sysValid (s : State) (sys : Nat) (a : Access) : Bool := sys < s.part.sysCores && [1, 2, 4, 8].contains a.size

/-- An access to a protected range that is not yet READY waits (R408): the step leaves it among the inputs. -/
def State.sysWaits (s : State) (sys : Nat) (a : Access) : Bool :=
  s.boot.phase == .running && s.sysValid sys a && s.placeOf a.addr == .hbm && s.notReady a.addr

/-- SYSTEM_CORE_MEMORY_ACCESS: HBM, the mailbox, host memory, or a register, by the device-physical address. What the
host's memory answers to a read is a free value (notes/assumptions/22.md). -/
def execSystemCoreMemoryAccess (sys : Nat) (a : Access) (s : State) : Out' :=
  if !s.sysValid sys a then .next s
  else match s.placeOf a.addr with
    | .hbm => if s.notReady a.addr || s.memTop < a.addr + a.size then .next s else .next (s.sysHbm a)
    | .mailbox =>
      let off := a.addr - mailboxBase
      match windowWord a, a.write with
      | true, some v => .next (s.mailboxWrite off a.size v)
      | true, none => .next (s.gave (spNat s.mailbox off a.size))
      | false, some _ => .next s
      | false, none => .next (s.gave 0)
    | .outbound =>
      let off := a.addr - outboundBase
      match windowWord a, a.write with
      | true, some v => .next { s with hostMem := spPutNat s.hostMem off a.size v.toNat }
      | true, none => .next (s.gave (Config.free s.tick (2 ^ 21) % 256 ^ a.size))
      | false, some _ => .next s
      | false, none => .next (s.gave 0)
    | .window => .next (s.sysWindow a)
    | .unassigned => .next (if a.write.isSome then s else s.gave (Config.free s.tick (2 ^ 21) % 256 ^ a.size))

end Sys2Proof.Machine
end

