-- ==== Sys2Proof/Machine/Register.lean ====
section
/-! DEFINITION. Class 0x0 (03_registers R74 to R84): moves, index registers, lane exchange, votes, special registers
and the register count. -/

namespace Sys2Proof.Machine

/-- MOV (R76). -/
def execMov (h : Hdr) (a : MovArgs) (s : State) : Out' :=
  compute h s ⟨[(a.a, a.ty)], [], some (a.d, a.ty.regs), none⟩ (distOf h 4 2) fun l => Res.of (l.src a.a a.ty)

/-- What MOVI writes of its immediate (R76). -/
def moviVal (ty : Ty) (imm : BitVec 32) : Nat :=
  match ty with
  | .i64 => signExt 32 64 imm.toNat
  | _ => imm.toNat

/-- MOVI (R76). -/
def execMovi (h : Hdr) (a : MoviArgs) (s : State) : Out' :=
  compute h s ⟨[], [], some (a.d, a.ty.regs), none⟩ (distOf h 4 2) fun _ => Res.of (moviVal a.ty a.imm)

/-! ### MOVX (R77) -/

/-- Replace OFFSET, [9:0]. -/
def xOffset (x off : Nat) : Nat := x / 1024 * 1024 + off % 1024

/-- The writing forms of MOVX: `f` gives the new index register of its old value and the source. -/
def movx (h : Hdr) (a : XSetArgs) (s : State) (old : Bool) (f : Nat → Nat → Nat) : Out' :=
  issue h s (fun t lanes => lanes.flatMap fun l =>
      s.srcKeys t a.a 1 l ++ if old then [kx a.x.toNat l] else []) fun s t lanes =>
    match s.checkRegs t h [(a.a, 1)] lanes with
    | .error e => .error e
    | .ok () =>
      let ws : List RegWrite := lanes.map fun l =>
        ⟨kx a.x.toNat l, BitVec.ofNat 32 (f (s.xval t a.x l) (s.src t a.a .n32 l))⟩
      .ok (eff (s.pushResult t 4 ws))

/-- MOVX.SET: [31:30] of the source are ignored. -/
def execMovxSet (h : Hdr) (a : XSetArgs) (s : State) : Out' := movx h a s false fun _ v => v % 2 ^ 30

/-- MOVX.OFF. -/
def execMovxOff (h : Hdr) (a : XSetArgs) (s : State) : Out' := movx h a s true fun x v => xOffset x v

/-- MOVX.ADD. -/
def execMovxAdd (h : Hdr) (a : XSetArgs) (s : State) : Out' := movx h a s true fun x v => xOffset x (x + v)

/-- MOVX.GET. DESIGN CHOICE: R74 gives no least distance for its destination; the model takes 4, as for MOV
(notes/assumptions/61.md). -/
def execMovxGet (h : Hdr) (a : XGetArgs) (s : State) : Out' :=
  issue h s (fun _ lanes => lanes.flatMap fun l => kx a.x.toNat l :: dstReads a.d l) fun s t lanes =>
    match s.checkRegs t h [(a.d, 1)] lanes with
    | .error e => .error e
    | .ok () => .ok (eff (s.pushResult t 4 (lanes.flatMap fun l => s.dst t a.d 1 l (s.xval t a.x l))))

/-! ### SHFL (R78) -/

/-- The lane a lane reads: its own where the index falls outside the width. -/
def shflLane (mode : ShflMode) (width lane b : Nat) : Nat :=
  let k := b % 32
  let s : Int := match mode with
    | .idx => k
    | .up => (lane : Int) - k
    | .down => lane + k
    | .xor => (lane ^^^ k : Nat)
  if 0 ≤ s ∧ s < width then s.toNat else lane

/-- The lanes whose source register is checked: the lanes read, where OPA is indirect, else the effective ones. -/
def shflChecked (a : ShflArgs) (lanes read : List Nat) : List Nat :=
  match a.a with
  | .ind _ => read
  | .v _ | .g _ | .lit0 | .lit1 | .zero => lanes

/-- SHFL (R78). -/
def execShfl (h : Hdr) (a : ShflArgs) (s : State) : Out' :=
  let from_ (s : State) (t : Task) (l : Nat) : Nat := shflLane a.mode t.warp.width l (s.src t a.b .n32 l)
  issue h s (fun t lanes => lanes.flatMap fun l =>
      s.srcKeys t a.b 1 l ++ dstReads a.d l ++ s.srcKeys t a.a 1 (from_ s t l)) fun s t lanes =>
    let own (l : Nat) : List Bad := s.regBads t [(a.b, 1), (a.d, 1)] l
    let read := (lanes.filter fun l => (s.opBad t a.b 1 l).isNone).map (from_ s t)
    let src := shflChecked a lanes read
    let bads := (List.range 32).filterMap fun l =>
      (topBad ((if src.contains l then s.regBads t [(a.a, 1)] l else []) ++
        (if lanes.contains l then own l else []))).map fun b => (l, b)
    match raiseLanes false bads with
    | .error e => .error e
    | .ok () =>
      .ok (eff (s.pushResult t 36 (lanes.flatMap fun l => s.dst t a.d 1 l (s.src t a.a .n32 (from_ s t l)))))

/-! ### VOTE (R79) -/

/-- The lanes where the source predicate, inverted if so asked, holds. -/
def State.voteHeld (s : State) (t : Task) (a : VoteArgs) (lanes : List Nat) : List Nat :=
  lanes.filter fun l => s.readPred t (kp a.src.toNat l) != a.neg

/-- VOTE (R79): over the effective lanes, or over ACTIVE in the group-wide form. -/
def execVote (h : Hdr) (a : VoteArgs) (s : State) : Out' :=
  let among (t : Task) (lanes : List Nat) : List Nat := if h.u then lanesOf t.warp.active else lanes
  issue h s (fun t lanes => (among t lanes).map (kp a.src.toNat ·)) fun s t lanes =>
    let set := among t lanes
    let held := s.voteHeld t a set
    let pred (p : BitVec 3) (r : Bool) : List RegWrite :=
      (workLanes h lanes).map fun l => ⟨predKey h.u p l, bit32 r⟩
    let ws := match a.dst with
      | .all p => pred p (held.length == set.length)
      | .any p => pred p (!held.isEmpty)
      | .uni p => pred p (held.isEmpty || held.length == set.length)
      | .ballot d => s.dst t d 1 0 (maskOf held).toNat
    .ok (eff (s.pushResult t (distOf h 36 2) ws))

/-! ### RDLANE, SRD -/

/-- RDLANE (R80): the v register is checked whatever the active mask. -/
def execRdlane (h : Hdr) (a : RdlaneArgs) (s : State) : Out' :=
  let lane (s : State) (t : Task) : Nat := s.src t a.lane .n32 0
  issue h s (fun t _ => s.srcKeys t a.lane 1 0 ++
      if lane s t < t.warp.width then [kv a.v.toNat (lane s t)] else []) fun s t _ =>
    match s.checkRegs t h [(.v a.v, 1)] [] with
    | .error e => .error e
    | .ok () =>
      let x := if lane s t < t.warp.width then (s.readKey t (kv a.v.toNat (lane s t))).toNat else 0
      .ok (eff (s.pushResult t 2 (s.dst t a.d 1 0 x)))

/-- The value of a special register in a lane (R81), but for s.time. -/
def State.special (s : State) (t : Task) (sr : SReg) (lane : Nat) : Nat :=
  match sr with
  | .lane => lane
  | .task => t.ident.toNat
  | .cohort => ((s.cohort? t.cohort).map (·.ident)).getD 0 % 2 ^ 29 * 8 + t.member % 8
  | .orderkey => (t.line[2]?.getD 0).toNat
  | .width => t.warp.width
  | .livemask => t.warp.live.toNat
  | .activemask => t.warp.active.toNat
  | .regs => t.warp.count
  | .core => t.core
  | .cause => t.sCause.toNat
  | .faultlanes => t.sLanes.toNat
  | .futcause => t.sFut.toNat
  | .time => 0

/-- Time as a task reads it: reads of one task never decrease (R82, R394). -/
def State.timeFor (s : State) (t : Task) : Nat := max s.timeNs.toNat t.lastTime.toNat

/-- KIND of the record of a special register read (R382), where it has one. -/
def sregKind : SReg → Option Nat
  | .time => some 3
  | .task | .cohort | .core => some 10
  | _ => none

/-- SRD (R81, R82). -/
def execSrd (h : Hdr) (a : SrdArgs) (s : State) : Out' :=
  let k := if a.sr = .time then 2 else 1
  issue h s (fun _ lanes => (workLanes h lanes).flatMap (dstReads a.d ·)) fun s t lanes =>
    match s.checkRegs t h [(a.d, k)] lanes with
    | .error e => .error e
    | .ok () =>
      let val (l : Nat) : Nat := if a.sr = .time then s.timeFor t else s.special t a.sr l
      let ls := workLanes h lanes
      -- a recorded register is uniform: one record for the instruction
      let logged : M (State × List (Nat × Nat)) := match sregKind a.sr with
        | none => .ok (s, ls.map fun l => (l, val l))
        | some kd => match s.logged1 t ⟨kd, 0, false, val 0⟩ with
          | .error e => .error e
          | .ok (s, r) => .ok (s, ls.map fun l => (l, r.val))
      match logged with
      | .error e => .error e
      | .ok (s, vals) =>
        let s := if a.sr = .time then
            s.modTask t.uid fun t => { t with lastTime := BitVec.ofNat 64 ((vals.map (·.2)).foldl max t.lastTime.toNat) }
          else s
        .ok (eff (s.pushResult t (distOf h 4 2) (vals.flatMap fun (l, v) => s.dst t a.d k l v)))

/-! ### RCLAIM and RGIVE (R83, R84) -/

/-- n of R83 is valid for a change from a count to another. -/
def claimValid (n : Nat) : Bool := n % 4 == 0 && n != 0

/-- Another member of the cohort is live: it may claim, give or end in this clk. A claim then stands until the clk ends,
when the gives and the member ends have come and the claims are served by key (R72). -/
def State.claimRival (s : State) (t : Task) : Bool := (s.liveMembers t.cohort).any (·.uid != t.uid)

/-- The claim stands until the clk ends. -/
def State.claimStands (s : State) (u : Nat) (p : Park) : State :=
  s.modTask u fun t => { t with st := .parked, park := some p, parkedAt := s.clk, spinExpired := false }

/-- RCLAIM (R83): of a cohort's one live member it is served at once where the free count covers it, and else parks;
beside others it stands until the clk ends. -/
def execRclaim (h : Hdr) (a : CountArgs) (s : State) : Out' :=
  issue h s (fun t _ => s.srcKeys t a.n 1 0) fun s t _ =>
    let n := s.src t a.n .n32 0
    let free := ((s.cohort? t.cohort).map (·.free)).getD 0
    if !claimValid n || 640 < t.warp.count + n then throwC .regGiveInvalid
    else if s.claimRival t then .error (.done (s.claimStands t.uid (.rclaim (n / 4) (s.seqPc t) h.hint)))
    else if free < n / 4 then .error (.park (.rclaim (n / 4) (s.seqPc t) h.hint))
    else
      .ok (eff ((s.modCohort t.cohort fun c => { c with free := c.free - n / 4 }).modWarp t.uid (·.grow (n / 4))))

/-- The v registers [lo, hi) of every lane. -/
def vRange (lo hi : Nat) (k : RKey) : Bool := k.file == .v && 32 * lo ≤ k.key && k.key < 32 * hi

/-- A variable-latency result, or a queued MACR, still has to write some register of [lo, hi) (R83). -/
def State.owesV (_ : State) (t : Task) (lo hi : Nat) : Bool :=
  t.warp.inflight.any fun i => i.source != .pipe && i.writes.any fun x => vRange lo hi x.at_

/-- The highest `n` registers go: in-flight results land and are lost with them (R84). -/
def Warp.shrink (w : Warp) (n : Nat) : Warp :=
  let lo := w.count - n
  { w with count := lo, v := spErase w.v (32 * lo) (32 * w.count),
           inflight := w.inflight.map (·.without fun x => vRange lo w.count x.at_) }

/-- RGIVE (R83). -/
def execRgive (h : Hdr) (a : CountArgs) (s : State) : Out' :=
  issue h s (fun t _ => s.srcKeys t a.n 1 0) fun s t _ =>
    let n := s.src t a.n .n32 0
    if !claimValid n || t.warp.count < n + 4 then throwC .regGiveInvalid
    else if s.owesV t (t.warp.count - n) t.warp.count then .error .hold
    else
      .ok (eff ((s.modWarp t.uid (·.shrink n)).modCohort t.cohort fun c => { c with free := c.free + n / 4 }))

end Sys2Proof.Machine
end

