-- ==== Sys2Proof/Machine/System.lean ====
section
/-! DEFINITION. Class 0xB (16_system R386 to R392): TRAP, TRET, TKILL and BKPT, the system registers through SWR, TIME,
DBGSIG, CTXSAVE and CTXLOAD. Every instruction is group-wide. -/

namespace Sys2Proof.Machine

/-! ### Traps (R369, R387) -/

/-- Raise a cause of kind A: the instruction has completed, and its code stands in the frame. -/
def trapAfter (s : State) (t : Task) (c : Cause) (code : BitVec 8) : M Eff :=
  .error (.done (s.takeTrap t.uid (raise0 c) .after (s.seqPc t) (code := code.toNat)))

/-- TRAP. -/
def execTrap (h : Hdr) (a : CodeArgs) (s : State) : Out' :=
  issue h s (fun _ _ => []) fun s t _ => trapAfter s t .trapInstr a.code

/-- BKPT. -/
def execBkpt (h : Hdr) (a : CodeArgs) (s : State) : Out' :=
  issue h s (fun _ _ => []) fun s t _ => trapAfter s t .breakpoint a.code

/-- The end of a trap task: a release, its own end, and what it decides of the faulting task. -/
def trapEnd (f : State → Nat → State) (s : State) (t : Task) : M Eff :=
  if t.opened.isSome then throwC .spawnBadClosure
  else if !s.released t then .error .hold
  else
    let s := s.endTask t.uid
    match t.trapOf with
    | some u => .error (.done (f (s.modTask u fun x => { x with trapPos := t.logPos }) u))
    | none => .error (.done s)

/-- TRET.RESUME. -/
def execTretResume (h : Hdr) (s : State) : Out' :=
  issue h s (fun _ _ => []) fun s t _ => trapEnd (fun s u => s.returnFrom u .resume) s t

/-- TRET.SKIP. -/
def execTretSkip (h : Hdr) (s : State) : Out' :=
  issue h s (fun _ _ => []) fun s t _ => trapEnd (fun s u => s.returnFrom u .skip) s t

/-- TRET.ESCALATE. -/
def execTretEscalate (h : Hdr) (s : State) : Out' :=
  issue h s (fun _ _ => []) fun s t _ => trapEnd (fun s u => s.returnFrom u .escalate) s t

/-- TKILL. -/
def execTkill (h : Hdr) (s : State) : Out' :=
  issue h s (fun _ _ => []) fun s t _ => trapEnd (fun s u => s.killStopped u) s t

/-! ### SWR (R388) -/

/-- The core that SWR names: the operand's, or the executing one. -/
def State.swrCore (s : State) (t : Task) (a : SwrArgs) : Nat := if a.core = .zero then t.core else s.src t a.core .n32 0

/-- A core number that the part does not have, where the register is one of a core. -/
def State.swrBad (s : State) (t : Task) (a : SwrArgs) : Bool := perCore a.reg.toNat && s.part.cores ≤ s.swrCore t a

/-- SWR WRITE: first a wait as FENCE.REL's. -/
def execSwrWrite (h : Hdr) (a : SwrArgs) (s : State) : Out' :=
  issue h s (fun t _ => s.srcKeys t a.data 2 0 ++ s.srcKeys t a.core 1 0) fun s t _ =>
    if s.swrBad t a then throwC .reservedField
    else if !s.released t then .error .hold
    else .ok (eff (s.writeSwr (s.swrCore t a) a.reg.toNat (BitVec.ofNat 64 (s.src t a.data .n64 0))))

/-- SWR READ. -/
def execSwrRead (h : Hdr) (a : SwrArgs) (s : State) : Out' :=
  issue h s (fun t _ => s.srcKeys t a.core 1 0) fun s t _ =>
    if s.swrBad t a then throwC .reservedField
    else .ok (eff (s.putPair t a.data (s.readSwr (s.swrCore t a) a.reg.toNat).toNat))

/-! ### TIME and DBGSIG (R389, R390) -/

/-- TIME: successive results of a task never decrease. -/
def execTime (h : Hdr) (a : DstArgs) (s : State) : Out' :=
  issue h s (fun _ _ => []) fun s t _ =>
    match s.logged1 t ⟨3, 0, false, s.timeFor t⟩ with
    | .error e => .error e
    | .ok (s, r) =>
      let s := s.modTask t.uid fun t => { t with lastTime := BitVec.ofNat 64 (max t.lastTime.toNat r.val) }
      .ok (eff (s.putPair t a.d r.val))

/-- DBGSIG: a record of TYPE 5, or false where the mailbox is full. Raising DWR is a release (R442): the instruction
is held until the task's earlier accesses have performed (R260). -/
def execDbgsig (h : Hdr) (a : QArgs) (s : State) : Out' :=
  issue h s (fun t _ => s.srcKeys t a.a 1 0) fun s t _ =>
    let v := s.src t a.a .n32 0
    if !s.mailboxFull && !s.released t then .error .hold
    else match s.verdict t (!s.mailboxFull) with
    | .error e => .error e
    | .ok (s, false) => .ok (eff (s.putQ t a.q false))
    | .ok (s, true) =>
      let s := s.mailboxPost fun seq => recordBytes 5 0 t.core t.job t.ident t.warp.pc t.warp.active 0 v s.timeNs seq
      .ok (eff (s.putQ t a.q true))

/-! ### CTXSAVE and CTXLOAD (R391) -/

/-- The context that an operand names; bits [31:4] must be zero. -/
def State.ctxArg (s : State) (t : Task) (a : QArgs) : M Nat :=
  let v := s.src t a.a .n32 0
  if 16 ≤ v then throwC .reservedField else .ok v

/-- CTXSAVE: PREEMPT; one of the task's own context completes when that context runs again. -/
def execCtxsave (h : Hdr) (a : QArgs) (s : State) : Out' :=
  issue h s (fun t _ => s.srcKeys t a.a 1 0) fun s t _ =>
    match s.ctxArg t a with
    | .error e => .error e
    | .ok c =>
      match s.preempt c with
      | none => .ok (eff ((s.ctxResult false).putQ t a.q false))
      | some s1 =>
        if c ≠ s.ctxOf t then .ok (eff ((s1.ctxResult true).putQ t a.q true))
        else if t.opened.isSome then throwC .spawnBadClosure
        else
          let s2 := ((s1.ctxResult true).putQ t a.q true).finish t.uid h.hint (s.seqPc t) false
          .error (.done (s2.parkTask t.uid .ctxLoad))

/-- CTXLOAD: LOAD. -/
def execCtxload (h : Hdr) (a : QArgs) (s : State) : Out' :=
  issue h s (fun t _ => s.srcKeys t a.a 1 0) fun s t _ =>
    match s.ctxArg t a with
    | .error e => .error e
    | .ok c =>
      match s.loadCtx c with
      | none => .ok (eff ((s.ctxResult false).putQ t a.q false))
      | some s1 => .ok (eff ((s1.ctxResult true).putQ t a.q true))

end Sys2Proof.Machine
end

