-- ==== Sys2Proof/Machine/Dispatch.lean ====
section
/-! DEFINITION. What each instruction and event does: one arm per constructor, one meaning per arm. -/

namespace Sys2Proof.Machine

def exec (i : Instr) (s : State) : Host.Outcome State Fault Refusal :=
  match i with
  | .mov h a => Sys2Proof.Machine.execMov h a s
  | .movi h a => Sys2Proof.Machine.execMovi h a s
  | .movxSet h a => Sys2Proof.Machine.execMovxSet h a s
  | .movxOff h a => Sys2Proof.Machine.execMovxOff h a s
  | .movxAdd h a => Sys2Proof.Machine.execMovxAdd h a s
  | .movxGet h a => Sys2Proof.Machine.execMovxGet h a s
  | .shfl h a => Sys2Proof.Machine.execShfl h a s
  | .vote h a => Sys2Proof.Machine.execVote h a s
  | .rdlane h a => Sys2Proof.Machine.execRdlane h a s
  | .srd h a => Sys2Proof.Machine.execSrd h a s
  | .rclaim h a => Sys2Proof.Machine.execRclaim h a s
  | .rgive h a => Sys2Proof.Machine.execRgive h a s
  | .iadd h a => Sys2Proof.Machine.execIadd h a s
  | .iaddc h a => Sys2Proof.Machine.execIaddc h a s
  | .isub h a => Sys2Proof.Machine.execIsub h a s
  | .imad h a => Sys2Proof.Machine.execImad h a s
  | .imulh h a => Sys2Proof.Machine.execImulh h a s
  | .imnmx h a => Sys2Proof.Machine.execImnmx h a s
  | .iabs h a => Sys2Proof.Machine.execIabs h a s
  | .log3 h a => Sys2Proof.Machine.execLog3 h a s
  | .shf h a => Sys2Proof.Machine.execShf h a s
  | .shl h a => Sys2Proof.Machine.execShl h a s
  | .shr h a => Sys2Proof.Machine.execShr h a s
  | .bfx h a => Sys2Proof.Machine.execBfx h a s
  | .bfi h a => Sys2Proof.Machine.execBfi h a s
  | .popc h a => Sys2Proof.Machine.execPopc h a s
  | .clz h a => Sys2Proof.Machine.execClz h a s
  | .brev h a => Sys2Proof.Machine.execBrev h a s
  | .isetp h a => Sys2Proof.Machine.execIsetp h a s
  | .sel h a => Sys2Proof.Machine.execSel h a s
  | .lea h a => Sys2Proof.Machine.execLea h a s
  | .fadd h a => Sys2Proof.Machine.execFadd h a s
  | .fmul h a => Sys2Proof.Machine.execFmul h a s
  | .ffma h a => Sys2Proof.Machine.execFfma h a s
  | .fmnmx h a => Sys2Proof.Machine.execFmnmx h a s
  | .fsetp h a => Sys2Proof.Machine.execFsetp h a s
  | .fmf h a => Sys2Proof.Machine.execFmf h a s
  | .fcls h a => Sys2Proof.Machine.execFcls h a s
  | .hfma2 h a => Sys2Proof.Machine.execHfma2 h a s
  | .hadd2 h a => Sys2Proof.Machine.execHadd2 h a s
  | .hmul2 h a => Sys2Proof.Machine.execHmul2 h a s
  | .dadd h a => Sys2Proof.Machine.execDadd h a s
  | .dmul h a => Sys2Proof.Machine.execDmul h a s
  | .dfma h a => Sys2Proof.Machine.execDfma h a s
  | .tfenceCheck h => Sys2Proof.Machine.execTfenceCheck h s
  | .tfenceGet h a => Sys2Proof.Machine.execTfenceGet h a s
  | .tfencePut h a => Sys2Proof.Machine.execTfencePut h a s
  | .tfenceClear h a => Sys2Proof.Machine.execTfenceClear h a s
  | .cvt h a => Sys2Proof.Machine.execCvt h a s
  | .cvtn h a => Sys2Proof.Machine.execCvtn h a s
  | .pkn h a => Sys2Proof.Machine.execPkn h a s
  | .unpk h a => Sys2Proof.Machine.execUnpk h a s
  | .qsclFind h a => Sys2Proof.Machine.execQsclFind h a s
  | .qsclDiv h a => Sys2Proof.Machine.execQsclDiv h a s
  | .qsclMul h a => Sys2Proof.Machine.execQsclMul h a s
  | .cbdec h a => Sys2Proof.Machine.execCbdec h a s
  | .bra h a => Sys2Proof.Machine.execBra h a s
  | .brx h a => Sys2Proof.Machine.execBrx h a s
  | .call h a => Sys2Proof.Machine.execCall h a s
  | .callX h a => Sys2Proof.Machine.execCallX h a s
  | .ret h a => Sys2Proof.Machine.execRet h a s
  | .split h a => Sys2Proof.Machine.execSplit h a s
  | .elseI h a => Sys2Proof.Machine.execElseI h a s
  | .rejoin h a => Sys2Proof.Machine.execRejoin h a s
  | .exitI h => Sys2Proof.Machine.execExitI h s
  | .loopn h a => Sys2Proof.Machine.execLoopn h a s
  | .yieldI h => Sys2Proof.Machine.execYieldI h s
  | .nop h => Sys2Proof.Machine.execNop h s
  | .spawn h a => Sys2Proof.Machine.execSpawn h a s
  | .spawnT h a => Sys2Proof.Machine.execSpawnT h a s
  | .spawnr h a => Sys2Proof.Machine.execSpawnr h a s
  | .spawng h a => Sys2Proof.Machine.execSpawng h a s
  | .join h a => Sys2Proof.Machine.execJoin h a s
  | .poll h a => Sys2Proof.Machine.execPoll h a s
  | .futnewNew h a => Sys2Proof.Machine.execFutnewNew h a s
  | .futnewFree h a => Sys2Proof.Machine.execFutnewFree h a s
  | .fulfil h a => Sys2Proof.Machine.execFulfil h a s
  | .tend h => Sys2Proof.Machine.execTend h s
  | .tendV h a => Sys2Proof.Machine.execTendV h a s
  | .tself h a => Sys2Proof.Machine.execTself h a s
  | .deqd h a => Sys2Proof.Machine.execDeqd h a s
  | .cvset h a => Sys2Proof.Machine.execCvset h a s
  | .jlaunch h a => Sys2Proof.Machine.execJlaunch h a s
  | .jwait h a => Sys2Proof.Machine.execJwait h a s
  | .jyield h => Sys2Proof.Machine.execJyield h s
  | .ld h a => Sys2Proof.Machine.execLd h a s
  | .st h a => Sys2Proof.Machine.execSt h a s
  | .lds h a => Sys2Proof.Machine.execLds h a s
  | .sts h a => Sys2Proof.Machine.execSts h a s
  | .ldt h a => Sys2Proof.Machine.execLdt h a s
  | .stt h a => Sys2Proof.Machine.execStt h a s
  | .lda h a => Sys2Proof.Machine.execLda h a s
  | .strl h a => Sys2Proof.Machine.execStrl h a s
  | .fenceAcq h => Sys2Proof.Machine.execFenceAcq h s
  | .fenceRel h => Sys2Proof.Machine.execFenceRel h s
  | .fenceAcqrel h => Sys2Proof.Machine.execFenceAcqrel h s
  | .waitv h a => Sys2Proof.Machine.execWaitv h a s
  | .presTest h a => Sys2Proof.Machine.execPresTest h a s
  | .presSet h a => Sys2Proof.Machine.execPresSet h a s
  | .presClr h a => Sys2Proof.Machine.execPresClr h a s
  | .presWait h a => Sys2Proof.Machine.execPresWait h a s
  | .ifence h => Sys2Proof.Machine.execIfence h s
  | .atom h a => Sys2Proof.Machine.execAtom h a s
  | .atomf h a => Sys2Proof.Machine.execAtomf h a s
  | .atomp h a => Sys2Proof.Machine.execAtomp h a s
  | .atoms h a => Sys2Proof.Machine.execAtoms h a s
  | .red h a => Sys2Proof.Machine.execRed h a s
  | .rseal h a => Sys2Proof.Machine.execRseal h a s
  | .talloc h a => Sys2Proof.Machine.execTalloc h a s
  | .thand h a => Sys2Proof.Machine.execThand h a s
  | .trel h a => Sys2Proof.Machine.execTrel h a s
  | .tinfo h a => Sys2Proof.Machine.execTinfo h a s
  | .tstage h a => Sys2Proof.Machine.execTstage h a s
  | .tdrain h a => Sys2Proof.Machine.execTdrain h a s
  | .tcopy h a => Sys2Proof.Machine.execTcopy h a s
  | .ringdefDef h a => Sys2Proof.Machine.execRingdefDef h a s
  | .ringdefClr h a => Sys2Proof.Machine.execRingdefClr h a s
  | .slotwaitFull h a => Sys2Proof.Machine.execSlotwaitFull h a s
  | .slotwaitEmpty h a => Sys2Proof.Machine.execSlotwaitEmpty h a s
  | .slotsigFull h a => Sys2Proof.Machine.execSlotsigFull h a s
  | .slotsigEmpty h a => Sys2Proof.Machine.execSlotsigEmpty h a s
  | .acntGet h a => Sys2Proof.Machine.execAcntGet h a s
  | .acntSet h a => Sys2Proof.Machine.execAcntSet h a s
  | .acntAdd h a => Sys2Proof.Machine.execAcntAdd h a s
  | .acntWaitge h a => Sys2Proof.Machine.execAcntWaitge h a s
  | .mlease h a => Sys2Proof.Machine.execMlease h a s
  | .mleaseTry h a => Sys2Proof.Machine.execMleaseTry h a s
  | .mrel h => Sys2Proof.Machine.execMrel h s
  | .mldw h a => Sys2Proof.Machine.execMldw h a s
  | .mflip h a => Sys2Proof.Machine.execMflip h a s
  | .mma h a => Sys2Proof.Machine.execMma h a s
  | .mmas h a => Sys2Proof.Machine.execMmas h a s
  | .macz h a => Sys2Proof.Machine.execMacz h a s
  | .macr h a => Sys2Proof.Machine.execMacr h a s
  | .macrV h a => Sys2Proof.Machine.execMacrV h a s
  | .mq h a => Sys2Proof.Machine.execMq h a s
  | .mqwait h a => Sys2Proof.Machine.execMqwait h a s
  | .psumClr h a => Sys2Proof.Machine.execPsumClr h a s
  | .psumRebuild h a => Sys2Proof.Machine.execPsumRebuild h a s
  | .psel h a => Sys2Proof.Machine.execPsel h a s
  | .pgath h a => Sys2Proof.Machine.execPgath h a s
  | .gathl h a => Sys2Proof.Machine.execGathl h a s
  | .scatl h a => Sys2Proof.Machine.execScatl h a s
  | .trap h a => Sys2Proof.Machine.execTrap h a s
  | .tretResume h => Sys2Proof.Machine.execTretResume h s
  | .tretSkip h => Sys2Proof.Machine.execTretSkip h s
  | .tretEscalate h => Sys2Proof.Machine.execTretEscalate h s
  | .tkill h => Sys2Proof.Machine.execTkill h s
  | .bkpt h a => Sys2Proof.Machine.execBkpt h a s
  | .swrWrite h a => Sys2Proof.Machine.execSwrWrite h a s
  | .swrRead h a => Sys2Proof.Machine.execSwrRead h a s
  | .time h a => Sys2Proof.Machine.execTime h a s
  | .dbgsig h a => Sys2Proof.Machine.execDbgsig h a s
  | .ctxsave h a => Sys2Proof.Machine.execCtxsave h a s
  | .ctxload h a => Sys2Proof.Machine.execCtxload h a s
  | .registerResultReturn core idx => Sys2Proof.Machine.execRegisterResultReturn core idx s
  | .warpStarving core slot => Sys2Proof.Machine.execWarpStarving core slot s
  | .postedCauseTaken task => Sys2Proof.Machine.execPostedCauseTaken task s
  | .jobLaunch sys v => Sys2Proof.Machine.execJobLaunch sys v s
  | .jobLaunchComplete sys => Sys2Proof.Machine.execJobLaunchComplete sys s
  | .jobRetiredRead sys => Sys2Proof.Machine.execJobRetiredRead sys s
  | .jobAdmit job => Sys2Proof.Machine.execJobAdmit job s
  | .budgetExhausted job => Sys2Proof.Machine.execBudgetExhausted job s
  | .jobRetire job => Sys2Proof.Machine.execJobRetire job s
  | .taskTake core => Sys2Proof.Machine.execTaskTake core s
  | .stagingComplete task => Sys2Proof.Machine.execStagingComplete task s
  | .regionHoldReexamine task => Sys2Proof.Machine.execRegionHoldReexamine task s
  | .slotGrant core => Sys2Proof.Machine.execSlotGrant core s
  | .spinExpired task => Sys2Proof.Machine.execSpinExpired task s
  | .spinMove core => Sys2Proof.Machine.execSpinMove core s
  | .edgeActionsComplete task => Sys2Proof.Machine.execEdgeActionsComplete task s
  | .stealRound core => Sys2Proof.Machine.execStealRound core s
  | .crossDieRound core => Sys2Proof.Machine.execCrossDieRound core s
  | .stealBackoffExpiry core => Sys2Proof.Machine.execStealBackoffExpiry core s
  | .stealProbeAnswer victim thief => Sys2Proof.Machine.execStealProbeAnswer victim thief s
  | .stealArrival core => Sys2Proof.Machine.execStealArrival core s
  | .clockGate core => Sys2Proof.Machine.execClockGate core s
  | .storeBufferDrain core => Sys2Proof.Machine.execStoreBufferDrain core s
  | .storeAck core => Sys2Proof.Machine.execStoreAck core s
  | .waitvWake task => Sys2Proof.Machine.execWaitvWake task s
  | .mscEvict idx => Sys2Proof.Machine.execMscEvict idx s
  | .pageWalk core ctx va => Sys2Proof.Machine.execPageWalk core ctx va s
  | .zfuClaim core ctx va => Sys2Proof.Machine.execZfuClaim core ctx va s
  | .engineSegmentComplete core op => Sys2Proof.Machine.execEngineSegmentComplete core op s
  | .engineSegmentFault core op => Sys2Proof.Machine.execEngineSegmentFault core op s
  | .handleRecordFree core rec => Sys2Proof.Machine.execHandleRecordFree core rec s
  | .remoteSegmentAck core op => Sys2Proof.Machine.execRemoteSegmentAck core op s
  | .remoteAckTimeout core op => Sys2Proof.Machine.execRemoteAckTimeout core op s
  | .herricSegmentReceive off data => Sys2Proof.Machine.execHerricSegmentReceive off data s
  | .leaseGrant core => Sys2Proof.Machine.execLeaseGrant core s
  | .queueAdmit core => Sys2Proof.Machine.execQueueAdmit core s
  | .mmaDynStep core => Sys2Proof.Machine.execMmaDynStep core s
  | .matrixOpComplete core op => Sys2Proof.Machine.execMatrixOpComplete core op s
  | .planesEmptyAtCohortEnd core => Sys2Proof.Machine.execPlanesEmptyAtCohortEnd core s
  | .ctxCmdPreempt ctx => Sys2Proof.Machine.execCtxCmdPreempt ctx s
  | .ctxCmdHardsave ctx => Sys2Proof.Machine.execCtxCmdHardsave ctx s
  | .ctxCmdKill ctx => Sys2Proof.Machine.execCtxCmdKill ctx s
  | .ctxCmdLoad ctx => Sys2Proof.Machine.execCtxCmdLoad ctx s
  | .ctxCmdRequeueJob job => Sys2Proof.Machine.execCtxCmdRequeueJob job s
  | .ctxCmdKillJob job => Sys2Proof.Machine.execCtxCmdKillJob job s
  | .ctxCmdDrop ctx => Sys2Proof.Machine.execCtxCmdDrop ctx s
  | .gangTimeWrite v => Sys2Proof.Machine.execGangTimeWrite v s
  | .dbgCmdHalt task => Sys2Proof.Machine.execDbgCmdHalt task s
  | .dbgCmdHaltCohort task => Sys2Proof.Machine.execDbgCmdHaltCohort task s
  | .dbgCmdResume task => Sys2Proof.Machine.execDbgCmdResume task s
  | .dbgCmdSkip task => Sys2Proof.Machine.execDbgCmdSkip task s
  | .dbgCmdStep task => Sys2Proof.Machine.execDbgCmdStep task s
  | .dbgCmdKill task => Sys2Proof.Machine.execDbgCmdKill task s
  | .schedCheckWrite core v => Sys2Proof.Machine.execSchedCheckWrite core v s
  | .stealCountsWrite core v => Sys2Proof.Machine.execStealCountsWrite core v s
  | .telRegionStatsWrite die v => Sys2Proof.Machine.execTelRegionStatsWrite die v s
  | .xlatInvPage v => Sys2Proof.Machine.execXlatInvPage v s
  | .xlatInvContext v => Sys2Proof.Machine.execXlatInvContext v s
  | .xlatInvAll v => Sys2Proof.Machine.execXlatInvAll v s
  | .xlatInvNone v => Sys2Proof.Machine.execXlatInvNone v s
  | .keyDataWrite ctx v => Sys2Proof.Machine.execKeyDataWrite ctx v s
  | .keyCtlWrite ctx v => Sys2Proof.Machine.execKeyCtlWrite ctx v s
  | .keyRangeReady ctx => Sys2Proof.Machine.execKeyRangeReady ctx s
  | .registerWrite off v => Sys2Proof.Machine.execRegisterWrite off v s
  | .resetCtlWarm v => Sys2Proof.Machine.execResetCtlWarm v s
  | .bootImageFetched bytes => Sys2Proof.Machine.execBootImageFetched bytes s
  | .bootCtlGo v => Sys2Proof.Machine.execBootCtlGo v s
  | .pcieBar2Write off data => Sys2Proof.Machine.execPcieBar2Write off data s
  | .pcieBar2Read off len => Sys2Proof.Machine.execPcieBar2Read off len s
  | .pcieBar0Access a => Sys2Proof.Machine.execPcieBar0Access a s
  | .queryRead q len => Sys2Proof.Machine.execQueryRead q len s
  | .queryWrite q words => Sys2Proof.Machine.execQueryWrite q words s
  | .herricLaneFail port => Sys2Proof.Machine.execHerricLaneFail port s
  | .herricBeaconReceive ns => Sys2Proof.Machine.execHerricBeaconReceive ns s
  | .ptpMessage ns => Sys2Proof.Machine.execPtpMessage ns s
  | .thermalShutdown die => Sys2Proof.Machine.execThermalShutdown die s
  | .patrolScrub stack => Sys2Proof.Machine.execPatrolScrub stack s
  | .phyRecalibration stack => Sys2Proof.Machine.execPhyRecalibration stack s
  | .refresh stack => Sys2Proof.Machine.execRefresh stack s
  | .telemetrySample x => Sys2Proof.Machine.execTelemetrySample x s
  | .sramSoftError e => Sys2Proof.Machine.execSramSoftError e s
  | .systemCoreMemoryAccess sys a => Sys2Proof.Machine.execSystemCoreMemoryAccess sys a s
  | .admissionWaitLimit => Sys2Proof.Machine.execAdmissionWaitLimit s
  | .softDrainDone => Sys2Proof.Machine.execSoftDrainDone s
  | .softDrainTimeout => Sys2Proof.Machine.execSoftDrainTimeout s
  | .hardSaveComplete => Sys2Proof.Machine.execHardSaveComplete s
  | .imageWriteFail => Sys2Proof.Machine.execImageWriteFail s
  | .contextLoadComplete => Sys2Proof.Machine.execContextLoadComplete s
  | .gangDrainStart => Sys2Proof.Machine.execGangDrainStart s
  | .gangTimeReached => Sys2Proof.Machine.execGangTimeReached s
  | .shootdownComplete => Sys2Proof.Machine.execShootdownComplete s
  | .resetPin => Sys2Proof.Machine.execResetPin s
  | .powerGood => Sys2Proof.Machine.execPowerGood s
  | .memReady => Sys2Proof.Machine.execMemReady s
  | .bootRetry => Sys2Proof.Machine.execBootRetry s
  | .imageVerify => Sys2Proof.Machine.execImageVerify s
  | .herricBeaconSend => Sys2Proof.Machine.execHerricBeaconSend s
  | .timeSourceLoss => Sys2Proof.Machine.execTimeSourceLoss s
  | .thermalStepDown => Sys2Proof.Machine.execThermalStepDown s
  | .thermalStepUp => Sys2Proof.Machine.execThermalStepUp s
  | .powerLoss => Sys2Proof.Machine.execPowerLoss s

end Sys2Proof.Machine
end

