-- ==== Sys2Proof/Machine/Turns.lean ====
section
/-! DEFINITION. What may happen next: an input from outside, an event of the device whose condition holds, or the
issue of the warp a quadrant has chosen (07_control R142 to R144). The order in which they come is the schedule's
(notes/assumptions/3.md). What the units do by themselves between two such moves is `State.settle`. -/

namespace Sys2Proof.Machine

/-! ### The choice of a warp (07_control R142 to R144) -/

/-- The instruction of a task's next issue would find no copy descriptor, range or queue entry free (R298, R301, R331).
Classes 0x8 to 0xA alone take one. -/
def State.lacksRoom (s : State) (t : Task) : Bool :=
  match s.fetch t with
  | .run i pc b =>
    let cls := (b.slot (slotOf pc)).extractLsb' 92 4
    8 ≤ cls.toNat && cls.toNat ≤ 10 && (match exec i (s.atIssue t pc b) with
      | .next s => s.cur.full
      | .fault _ | .refused _ => false)
  | .raise _ _ _ | .pass _ => false

/-- R142: a warp is eligible. -/
def State.eligible (s : State) (t : Task) : Bool :=
  t.mayIssue s.clk && s.awake t.core && s.mayRun t && !s.lacksRoom t &&
  (match s.bundleOf t with
   | .error _ => true
   | .ok b =>
     !b.wellFormed || (match validSlot b t.warp.pc with
       | some k => waitMet t.warp (b.slot (hintSlot b k))
       | none => true))

/-- R143: the order of choice between two ready warps of a quadrant. -/
def chooseBefore (a b : Task) : Bool :=
  let prio (t : Task) : Bool := (t.line[0]?.getD 0).getLsbD 28
  let older := a.age < b.age || (a.age == b.age && a.slot.getD 0 < b.slot.getD 0)
  if a.giveWay != b.giveWay then b.giveWay
  else if a.isStarving != b.isStarving then a.isStarving
  else if a.isStarving then
    b.waitCount < a.waitCount || (a.waitCount == b.waitCount && a.slot.getD 0 < b.slot.getD 0)
  else if prio a != prio b then prio a
  else older

/-- Pipes of a quadrant (R142). -/
inductive Pipe where
  | uniform | lanes
deriving DecidableEq, Repr

/-- The pipe that an instruction word needs: the uniform one for a group-wide or class 0x4 instruction. -/
def pipeOf (word : SlotWord) : Pipe := if word.getLsbD 85 || word.extractLsb' 92 4 == 4 then .uniform else .lanes

/-- The pipe that a task's next instruction needs; none where it is not reached. -/
def State.pipeNext (s : State) (t : Task) : Option Pipe :=
  match s.bundleOf t with
  | .error _ => none
  | .ok b => if b.wellFormed then (validSlot b t.warp.pc).map fun k => pipeOf (b.slot k) else none

/-- The ready warps of a quadrant, one of whose pipes may be busy, in the order of R143. -/
def State.candidates (s : State) (core quad : Nat) (busy : Option Pipe) : List Task :=
  sortBy chooseBefore ((s.tasks.filter fun t => t.core == core && quadOf (t.slot.getD 0) == quad).filter fun t =>
    s.eligible t && (busy.isNone || s.pipeNext t != busy))

/-- Quadrants that hold an eligible warp and have not issued in this clk. -/
def State.readyQuads (s : State) : List (Nat × Nat) :=
  (((s.tasks.filter (s.eligible ·)).map fun t => (t.core, quadOf (t.slot.getD 0))).eraseDups).filter fun (c, q) =>
    !s.late c q && (s.core c).lastAdmit != some s.clk

/-- The first clk from now on, below `n` from now, at which a task is eligible, where nothing but time passes. -/
def State.eligibleFrom (s : State) (t : Task) (n : Nat) : Option Nat :=
  let times := s.clk :: t.readyAt :: (s.core t.core).wakeAt :: t.warp.inflight.filterMap (·.due)
  leastBy (· < ·) (times.filter fun c => s.clk ≤ c && c < s.clk + n &&
    ({ s with clk := c }).eligible { t with warp := t.warp.landDue c })

/-- `n` clk pass: every warp waits those in which it is eligible (R143). -/
def State.countWaits (s : State) (n : Nat) : State :=
  { s with tasks := s.tasks.map fun t => match s.eligibleFrom t n with
    | some c => { t with waitCount := min 255 (t.waitCount + (s.clk + n - c)) }
    | none => t }

/-- Results whose barriers are waited for are written as their clk come (R38). -/
def State.landDue (s : State) : State :=
  { s with tasks := s.tasks.map fun t => { t with warp := t.warp.landDue s.clk } }

/-! ### Events of the device that are enabled -/

/-- An event where a condition holds. -/
def evIf (b : Bool) (i : Instr) : List Instr := if b then [i] else []

/-- Engine credits may still come in this clk: they precede the instructions of the clk and what the matrix engine
admits in it (R300, R308, R331). -/
def State.creditsOpen (s : State) (core : Nat) : Bool := !s.late core 0 && (s.core core).lastAdmit != some s.clk

/-- Results, stores and operations of a core. -/
def State.coreEvents (s : State) (core : Nat) : List Instr :=
  let c := s.core core
  (List.range c.returns.length).map (Instr.registerResultReturn core ·) ++
  evIf (!(s.drainable core).isEmpty) (.storeBufferDrain core) ++
  evIf (!(s.ackable core).isEmpty) (.storeAck core) ++
  c.ops.flatMap (fun o => match s.opOf core o.uid with
    | none => []
    | some (o, t) => if s.opMoves t o && s.creditsOpen core then [.engineSegmentComplete core o.uid, .engineSegmentFault core o.uid] else []) ++
  (c.recs.filter (c.recFreeable ·)).map (fun r => Instr.handleRecordFree core r.idx) ++
  evIf (!c.mx.requests.isEmpty) (.leaseGrant core) ++
  evIf (c.nextAdmit.isSome && c.lastAdmit != some s.clk) (.queueAdmit core) ++
  evIf (s.dynOp core).isSome (.mmaDynStep core) ++
  c.mx.ops.map (fun o => Instr.matrixOpComplete core o.uid) ++
  evIf (s.planesDone core) (.planesEmptyAtCohortEnd core) ++
  evIf (!c.agent.arriving.isEmpty) (.stealArrival core) ++
  evIf c.agent.backoff.isSome (.stealBackoffExpiry core) ++
  (match s.probed core with
   | some v => evIf (!s.late v (rankSteal core)) (.stealProbeAnswer v core)
   | none => [])

/-- What a core of the part begins by itself. -/
def State.agentEvents (s : State) (core : Nat) : List Instr :=
  evIf (s.mayTake core && (s.takeable core).isSome) (.taskTake core) ++
  evIf (s.awake core && (s.nextGrant core).isSome) (.slotGrant core) ++
  evIf (s.spinVictim core).isSome (.spinMove core) ++
  evIf (s.agentFree core && !s.crossDue core) (.stealRound core) ++
  evIf (s.agentFree core && s.crossDue core) (.crossDieRound core) ++
  evIf (s.quiet core && !(s.core core).gated) (.clockGate core)

/-- What comes to a task. -/
def State.taskEvents (s : State) (t : Task) : List Instr :=
  evIf (t.slot.isSome && t.starves) (.warpStarving t.core (t.slot.getD 0)) ++
  evIf (s.takesPosted t) (.postedCauseTaken t.uid) ++
  evIf (s.stagedAll t && !t.everHeld && !s.heldNow t) (.stagingComplete t.uid) ++
  evIf (s.stagedAll t && t.everHeld && !s.heldNow t) (.regionHoldReexamine t.uid) ++
  evIf (s.spins t && !t.spinExpired) (.spinExpired t.uid) ++
  evIf (s.edgesDone t) (.edgeActionsComplete t.uid) ++
  evIf (s.wakesNow t) (.waitvWake t.uid)

/-- What comes to jobs and contexts. -/
def State.jobEvents (s : State) : List Instr :=
  (s.syscores.filter (·.2.pendingAddr.isSome)).map (fun x => Instr.jobLaunchComplete x.1) ++
  (s.considered.filter fun j => s.admissible j && !s.pushLate j).map (fun j => Instr.jobAdmit j.id) ++
  evIf s.waitOver .admissionWaitLimit ++
  (s.jobs.filter (s.budgetOut ·)).map (fun j => Instr.budgetExhausted j.id) ++
  (s.jobs.filter (s.mayRetire ·)).map (fun j => Instr.jobRetire j.id) ++
  evIf s.drained.isSome .softDrainDone ++
  evIf s.timedOut.isSome .softDrainTimeout ++
  (match s.saving with
   | some c => if s.imageWritable c then [.hardSaveComplete] else [.imageWriteFail]
   | none => []) ++
  evIf s.loading.isSome .contextLoadComplete ++
  evIf s.gangDrains .gangDrainStart ++
  evIf s.gangDue .gangTimeReached

/-- What the memory side and the platform do by themselves. -/
def State.platEvents (s : State) : List Instr :=
  (List.range s.msc.length).map Instr.mscEvict ++
  evIf s.mregs.inv.isSome .shootdownComplete ++
  ((List.range 16).filter fun c => (s.rangeToZero c).isSome).map Instr.keyRangeReady ++
  evIf s.beaconSource .herricBeaconSend ++
  evIf s.stepsDown .thermalStepDown ++
  evIf s.stepsUp .thermalStepUp ++
  (List.range s.nStacks).flatMap fun k => [.patrolScrub k, .phyRecalibration k, .refresh k]

/-- Every event that can happen now. -/
def State.events (s : State) : List Instr :=
  match s.boot.phase with
  | .off => []
  | .training => [.memReady]
  | .waiting => [.bootRetry]
  | .verifying => [.imageVerify]
  | .running =>
    s.cores.flatMap (fun x => s.coreEvents x.1) ++ (List.range s.part.cores).flatMap s.agentEvents ++
    s.tasks.flatMap s.taskEvents ++ s.jobEvents ++ s.platEvents

/-! ### Inputs from outside -/

/-- Events that come from system software: they need system cores that run. -/
def softwareInput : Instr → Bool
  | .jobLaunch _ _ | .jobRetiredRead _ | .ctxCmdPreempt _ | .ctxCmdHardsave _ | .ctxCmdKill _ | .ctxCmdLoad _
  | .ctxCmdRequeueJob _ | .ctxCmdKillJob _ | .ctxCmdDrop _ | .gangTimeWrite _ | .dbgCmdHalt _ | .dbgCmdHaltCohort _
  | .dbgCmdResume _ | .dbgCmdSkip _ | .dbgCmdStep _ | .dbgCmdKill _ | .schedCheckWrite _ _ | .stealCountsWrite _ _
  | .telRegionStatsWrite _ _ | .xlatInvPage _ | .xlatInvContext _ | .xlatInvAll _ | .xlatInvNone _ | .keyDataWrite _ _
  | .keyCtlWrite _ _ | .registerWrite _ _ | .resetCtlWarm _ | .systemCoreMemoryAccess _ _ => true
  | _ => false

/-- Events that come from the board, the host, the links and the sensors, while there is power. -/
def outsideInput : Instr → Bool
  | .resetPin | .bootImageFetched _ | .bootCtlGo _ | .pcieBar2Write _ _ | .pcieBar2Read _ _ | .pcieBar0Access _
  | .queryRead _ _ | .queryWrite _ _ | .herricSegmentReceive _ _ | .remoteSegmentAck _ _ | .remoteAckTimeout _ _
  | .herricLaneFail _ | .herricBeaconReceive _ | .ptpMessage _ | .timeSourceLoss | .thermalStepDown | .thermalStepUp
  | .thermalShutdown _ | .sramSoftError _ | .telemetrySample _ | .patrolScrub _ | .phyRecalibration _ | .refresh _
  | .powerLoss => true
  | _ => false

/-- An input that the device takes now; anything else that stands in the list is passed over. -/
def State.accepts (s : State) (i : Instr) : Bool :=
  match s.boot.phase with
  | .off => i == .powerGood
  | .training | .waiting | .verifying => outsideInput i
  | .running => softwareInput i || outsideInput i

/-! ### The choice -/

/-- One move of the device. -/
inductive Move where
  | input
  | event (i : Instr)
  | issue (core quad : Nat) (busy : Option Pipe)
deriving DecidableEq, Repr

/-- The first input that does not wait, with its place in the list. Behind an access of a system core that waits, that
core's own later accesses wait too. -/
def State.nextInputFrom (s : State) : Nat → List Nat → List Instr → Option (Nat × Instr)
  | _, _, [] => none
  | k, held, i :: is =>
    match i with
    | .systemCoreMemoryAccess sys a =>
      if held.contains sys || s.sysWaits sys a then s.nextInputFrom (k + 1) (sys :: held) is else some (k, i)
    | .remoteSegmentAck core _ => if s.creditsOpen core then some (k, i) else s.nextInputFrom (k + 1) held is
    | _ => some (k, i)

def State.nextInput (s : State) : Option (Nat × Instr) := s.nextInputFrom 0 [] s.inputs

def State.inputMove (s : State) : Option Move := s.nextInput.map fun _ => .input

def State.eventMove (s : State) (n : Nat) : Option Move := (pickMod s.events n).map .event

/-- The pipe of the chosen quadrant that the schedule finds busy. -/
def pipeBusy (n : Nat) : Option Pipe := if n % 3 = 1 then some .uniform else if n % 3 = 2 then some .lanes else none

/-- Warps issue while the device runs: a quadrant is chosen, and which of its pipes is busy, where some ready warp needs
another. -/
def State.issueMove (s : State) (n : Nat) : Option Move :=
  if s.boot.phase = .running then (pickMod s.readyQuads n).map fun (c, q) =>
    let busy := pipeBusy (n / s.readyQuads.length)
    .issue c q (if (s.candidates c q busy).isEmpty then none else busy)
  else none

/-- The move that a pick of the schedule names: `n % 3` is the kind it prefers, an issue, an event or an input, and
`n / 3` which one of them. Where there is none of the kind, another kind moves; none where nothing can. -/
def State.moveFor (s : State) (n : Nat) : Option Move :=
  let k := n / 3
  if n % 3 = 0 then (s.issueMove k).or (if s.events.isEmpty then s.inputMove else s.eventMove k)
  else if n % 3 = 1 then (s.eventMove k).or ((s.issueMove k).or s.inputMove)
  else s.inputMove.or ((s.issueMove k).or (s.eventMove k))

/-! ### What settles by itself -/

/-- The units of one core. -/
def State.settleCore (s : State) (core : Nat) : State :=
  (((((s.settleLease core).settleSigns core).settleGate core).settleAgent core).settleStaging core).settleArrivals core

/-- Claims are served (R72), the queue's first job is followed (R194), parked warps wake, each core's units take what
has become theirs, and killed tasks reach DONE. -/
def State.settle (s : State) : State :=
  let s := ((s.settleClaims false).refirst).wakeParked
  (((s.cores.map (·.1)).foldl State.settleCore s).settleHolds).settleKilled

/-- Cores that are quiet when a clk ends gate their clock (R218). -/
def State.gateQuiet (s : State) : State :=
  { s with cores := s.cores.map fun (k, c) => (k, if s.quiet k then { c with gated := true } else c) }

/-- The matrix engines admit what `n` clk let them (R332). -/
def State.admitAll (s : State) (n : Nat) : State := (s.cores.map (·.1)).foldl (State.admitDue n) s

/-- `n` clk pass: the changes of this clk are complete (R73, R218), heads are admitted (R332), eligible warps wait
(R143), budgets are spent (R196), time goes on, the clock's step back is put off where it is too hot (R427), and
results that barriers wait for are written (R38). -/
def State.elapse (s : State) (n : Nat) : State :=
  if n = 0 then s
  else (((((((s.settleClaims true).admitAll n).gateQuiet).countWaits n).spendBudgets n).passClk n).noteHot).landDue

end Sys2Proof.Machine
end

