-- ==== Sys2Proof/Machine/Place.lean ====
section
/-! DEFINITION. A program placed from outside: one running warp whose next bundle holds a given instruction word. The
device comes to run a program only through a boot and a job launch (notes/assumptions/24.md says which steps); this
stands for them, in the state that `State.withFetchWord` answers and in the witnesses. -/

namespace Sys2Proof.Machine

/-- Where the placed bundle stands, virtual and device-physical alike. -/
def placeBase : Nat := 0x10000

/-- A job record that names the placed code and nothing else. -/
def placeRec (core : Nat) : JobRec :=
  { mode := 0, ctx := 0, deadline := 0, budget := 0, period := 0, codeBase := placeBase, codeSize := 64, regionBase := 0,
    regionSize := 0, closureBase := 0, closureSize := 0, root := 0, trapEntry := 0, layoutBase := 0, layoutSize := 0,
    overflowBase := 0, saveBase := placeBase, spillBase := 0, spillSize := 0, logBase := 0, logSize := 0,
    coreSet := [core], regShare := 100, regionShare := 0 }

def placeJob (core : Nat) (id : BitVec 32) : Job :=
  { id := id, rec_ := placeRec core, st := .active, rootLine := [], depth := 0, parent := none, sys := 0, remaining := 2 ^ 40,
    killed := none, image := false, requeueing := false, bump := false, drainEnd := 0, homeDie := dieOf core, codeAt := 0, nextStream := 1, truncated := false,
    rootDone := false, rootKilled := none, budgetStop := false, reaped := false }

/-- A warp of full width at its start (R62, R145): 640 registers, all zero. -/
def placeWarp : Warp := { Warp.empty with count := 640, live := BitVec.allOnes 32, active := BitVec.allOnes 32 }

/-- A running task in slot 0 of a core; `trap` makes it the trap task of that task. -/
def placeTask (core uid : Nat) (ident job : BitVec 32) (trap : Option Nat) : Task :=
  { mkTask uid ident job (List.replicate 16 0) core uid 0 [] 0 with
    st := .running, slot := some 0, warp := placeWarp, everHeld := true, everRunnable := true, reserved := true,
    inPool := true, trapOf := trap }

/-- The leaf of the placed page. -/
def placeLeaf : TlbEnt := ⟨0, placeBase, 65536, placeBase, 8, true, true, true, 3⟩

/-- The bundle: the word in slot 0, the other slots invalid (R23, R24). -/
def placeBundle (w : Nat) : List Byte := bytesOf 12 w ++ bytesOf 36 0 ++ bytesOf 16 (2 ^ 124 + 2 ^ 123 + 2 ^ 118)

/-- The word is one that only system software, or only a trap task, may issue. -/
def needsPriv (w : Nat) : Bool :=
  match decode ⟨false, true⟩ (BitVec.ofNat 96 w) with
  | .error .privileged => true
  | _ => false
def needsTrap (w : Nat) : Bool :=
  match decode ⟨true, false⟩ (BitVec.ofNat 96 w) with
  | .error .privileged => true
  | _ => false

/-- A core on which no task stands, where there is one. -/
def State.placeCore (s : State) : Nat :=
  ((List.range s.part.cores).find? fun c => s.tasks.all fun t => t.core != c).getD 0

/-- The state with the placed job, task and bundle, on the device as it runs. -/
def State.place (s : State) (w : Nat) : State :=
  let core := s.placeCore
  let id : BitVec 32 := BitVec.ofNat 32 (s.jobs.foldl (fun m j => max m j.id.toNat) 0 + 1)
  let u := s.nextUid
  let ident := (s.newIdent core).1
  let t := placeTask core u ident id (if needsTrap w then some 0 else none)
  { s with
    nextUid := u + 1
    hbm := spPutBlock s.hbm placeBase (placeBundle w)
    mregs := { s.mregs with root := spSet s.mregs.root 0 (spGet s.mregs.root 0 ||| 1) }
    jobs := s.jobs ++ [{ placeJob core id with codeAt := s.hist.length }]
    tasks := s.tasks ++ [t]
    cohorts := s.cohorts ++ [Cohort.mk u u 1 (Task.granules t) 0 [u]]
    ctxs := alSet s.ctxs 0 { s.ctx 0 with st := .running }
    cregs := if needsPriv w then { s.cregs with priv := s.cregs.priv ||| 1 } else s.cregs
    pregs := { s.pregs with devStatus := s.pregs.devStatus ||| 3, bootStatus := 3 }
    boot := { s.boot with phase := .running }
    cores := alSet s.cores core { s.core core with tlb := placeLeaf :: (s.core core).tlb, gated := false, wakeAt := 0 } }

end Sys2Proof.Machine
end

