-- ==== Sys2Proof/Machine/Step.lean ====
section
/-! DEFINITION. One step of the device: the clk that the schedule's next turn lets pass, then the move that it picks
among those possible, then what settles by itself. `State.withFetchWord` places an instruction word where the next step
fetches. -/

namespace Sys2Proof.Machine

/-- The state in which the next turn's move is made: its clk have passed. -/
def State.turned (s : State) : State :=
  match s.sched with
  | [] => { s with tick := s.tick + 1 }
  | x :: rest => { s.elapse x.gap with sched := rest, tick := s.tick + 1 }

/-- The schedule's choice. -/
def State.choice (s : State) : Nat :=
  match s.sched with
  | [] => 0
  | x :: _ => x.pick

/-- The outcome of an event. -/
def settled (o : Host.Outcome State Fault Refusal) : Host.Outcome State Fault Refusal :=
  match o with
  | .next s => .next s.settle
  | .fault f => .fault f
  | .refused r => .refused r

/-- An instruction of `t` has been executed; none where it is held at issue. -/
def issued (t : Task) (o : Host.Outcome State Fault Refusal) : Option (Host.Outcome State Fault Refusal) :=
  match o with
  | .next s' => if s'.held t then none else some (.next (s'.chosenOne t).settle)
  | .fault f => some (.fault f)
  | .refused r => some (.refused r)

/-- A warp issues, where it is not held: its next instruction is fetched, decoded and executed. -/
def tryIssue (s : State) (t : Task) : Option (Host.Outcome State Fault Refusal) :=
  if s.codeWaits t then none
  else match s.fetch t with
  | .raise r pc pair =>
    some (.next (((s.codeFetched t pc).takeTrap t.uid r .precise pc (pair := pair)).chosenOne t).settle)
  | .pass pc => some (.next (s.modWarp t.uid fun w => { w with pc := pc }).settle)
  | .run i pc b => issued { t with warp := { t.warp with pc := pc } } (exec i (s.atIssue t pc b))

/-- The first warp that is not held issues; where every one is, the clk passes. -/
def issueStep (s : State) : List Task → Host.Outcome State Fault Refusal
  | [] => .next (s.elapse 1).settle
  | t :: ts => match tryIssue s t with
    | some o => o
    | none => issueStep s ts

/-- Take the first input that does not wait: one that the device does not take now is passed over. -/
def inputStep (s : State) : Host.Outcome State Fault Refusal :=
  match s.nextInput with
  | none => .next s
  | some (k, i) =>
    let s : State := { s with inputs := s.inputs.eraseIdx k }
    if s.accepts i then settled (exec i s) else .next s

def step (s : State) : Host.Outcome State Fault Refusal :=
  let s1 := s.turned
  match s1.moveFor s.choice with
  | none => .next (s1.elapse 1).settle
  | some .input => inputStep s1
  | some (.event i) => settled (exec i s1)
  | some (.issue core quad busy) => issueStep s1 (s1.candidates core quad busy)

/-- The state in which the next step fetches and runs the instruction whose bits are `w`. -/
def State.withFetchWord (s : State) (nbits w : Nat) : State :=
  let core := s.placeCore
  let s := s.place (w % 2 ^ nbits)
  { s with sched := ⟨0, 3 * s.readyQuads.idxOf (core, 0)⟩ :: s.sched }

end Sys2Proof.Machine
end

