-- ==== Sys2Proof/Safety.lean ====
section
/-! DEFINITION. What a safe run is: one whose steps answer next states; and the words in which statements about
instructions are made: when an instruction of a warp acts, when it only passes, and what a computing one leaves. -/

namespace Sys2Proof

/-- A step from `s` answers a next state: no fault and no refusal. -/
def SafeStep (s : Machine.State) : Prop := ∃ s', Machine.step s = .next s'

/-- `n` steps from `s` answer next states. -/
def SafeRun : Nat → Machine.State → Prop
  | 0, _ => True
  | n + 1, s => ∃ s', Machine.step s = .next s' ∧ SafeRun n s'

namespace Machine

/-! ### When an instruction acts -/

/-- The registers its guard is read from (02_encoding R33): one q, or a p of every active lane. -/
def guardKeys (h : Hdr) (t : Task) : List RKey :=
  if h.u then [guardKey h 0] else (lanesOf t.warp.active).map (guardKey h ·)

/-- The effective lanes it acts on; none for a group-wide form. -/
def State.actLanes (s : State) (h : Hdr) (t : Task) : List Nat := if h.u then [] else s.effLanes t h

/-- The guard holds, in some active lane for a lane form. -/
def State.guardHolds (s : State) (h : Hdr) (t : Task) : Bool :=
  if h.u then s.guardIn t h 0 else !(s.effLanes t h).isEmpty

/-- Task `t` is the one that issues, the barrier it sets is not at 63, and no register of a list is still to be written
by an earlier instruction (R37, R38). -/
structure Issues (s : State) (h : Hdr) (t : Task) (keys : List RKey) : Prop where
  task : s.curTask = some t
  room : barFull t h.hint = false
  settled : ∀ k ∈ guardKeys h t ++ (keys ++ s.cur.keys), s.pendingKey t k = false

/-- An instruction that reads `keys` issues in task `t` and acts: its guard holds. -/
structure Acts (s : State) (h : Hdr) (t : Task) (keys : List RKey) : Prop extends Issues s h t keys where
  holds : s.guardHolds h t = true

/-- An instruction issues in task `t` and its guard holds nowhere. -/
structure Passes (s : State) (h : Hdr) (t : Task) : Prop where
  task : s.curTask = some t
  room : barFull t h.hint = false
  settled : ∀ k ∈ guardKeys h t, s.pendingKey t k = false
  fails : s.guardHolds h t = false

/-- The state after an instruction of `t` with effect `s'` that continues in sequence: its distance passes, and its
barrier rises where `late` says that it completes later (R37 to R39). -/
def State.goesOn (s' s : State) (h : Hdr) (t : Task) (late : Bool := false) : State :=
  s'.finish t.uid h.hint (s.seqPc t) late

/-- The state after a taken transfer (R153, R155). -/
def State.goesTo (s' : State) (h : Hdr) (t : Task) (pc : BitVec 32) : State := s'.finish t.uid h.hint pc false 4

/-- The state after a cause of an instruction of `t` stopped it before it had any effect (R365, R367). -/
def State.traps (s : State) (t : Task) (r : Raise) : State :=
  s.takeTrap t.uid r .precise t.warp.pc (pair := s.cur.mq.isSome)

/-- What a computing instruction of shape `o` does on the lanes it acts on: the values of `f` go to its destination
after `dist`, and its flags merge into FPCTL (R37, R129). -/
def State.computed (s : State) (h : Hdr) (t : Task) (o : Shape) (dist : Nat) (f : Lane → Res) : State :=
  let rs := (workLanes h (s.actLanes h t)).map fun l => (l, f (s.lane t h.u l))
  (s.pushResult t dist (rs.flatMap fun (l, r) => s.resWrites t h.u o l r)).orFlags t.uid
    (rs.foldl (fun acc x => acc ||| x.2.flags) 0)

/-- Every register operand of a list is allocated, and lies in its window, in every lane it is used in (R65, R67). -/
def State.operandsOk (s : State) (h : Hdr) (t : Task) (ops : List (Opnd × Nat)) : Prop :=
  ∀ l ∈ workLanes h (s.actLanes h t), ∀ x ∈ ops, s.opBad t x.1 x.2 l = none

/-- Instruction `i` computes: wherever it acts on operands that are allocated, exec answers the next state in which `f`
has been computed in every lane and the machine goes on. -/
def Computes (i : Instr) (h : Hdr) (o : Shape) (dist : Nat) (f : Lane → Res) : Prop :=
  ∀ (s : State) (t : Task),
    Acts s h t ((workLanes h (s.actLanes h t)).flatMap (s.shapeKeys t h.u o)) → s.operandsOk h t o.ops →
    exec i s = .next ((s.computed h t o dist f).goesOn s h t)

/-- A warp's register files stand in canonical form: rising keys, no zero listed. -/
def Warp.canon (w : Warp) : Prop :=
  spWf w.v = true ∧ spWf w.g = true ∧ spWf w.x = true ∧ spWf w.p = true ∧ spWf w.q = true

/-- The memories of the device stand in their canonical form: HBM, the mailbox, and the host's behind its windows. -/
def State.memWf (s : State) : Bool := Memory.wf s.hbm && Memory.wf s.mailbox && Memory.wf s.hostMem

/-- The memories of a core stand in their canonical form: the scratchpad and the banks. -/
def Core.memWf (c : Core) : Bool := Memory.wf c.scratch && Memory.wf c.bankW && Memory.wf c.bankA && Memory.wf c.bankC

/-- What a core keeps stands in canonical form: its memories and its arrival counters. -/
def Core.canon (c : Core) : Prop := c.memWf = true ∧ spWf c.acnt = true

/-- What the units of the device keep stands in canonical form: every core, the cores' parts in the images of saved
contexts, and every warp's register files. -/
def State.unitsCanon (s : State) : Prop :=
  (∀ x ∈ s.cores, x.2.canon) ∧ (∀ x ∈ s.ctxs, ∀ y ∈ x.2.image, y.2.canon) ∧ ∀ t ∈ s.tasks, t.warp.canon

end Machine

end Sys2Proof
end

