-- ==== Sys2Proof/Certificates/Slice0/Obligations.lean ====
section
/-! DEFINITION. What is claimed of the model, one statement for each definition `Obligations.<Name>`; what they say in
words, with the rules they formalise, stands in OBLIGATIONS.json. The vocabulary is that of Sys2Proof/Safety.lean. -/

namespace Sys2Proof.Machine

/-! ### The instructions a warp issues -/

/-- U, guard and hints of an instruction that a warp issues; none for an event of the device. -/
def hdrOf : Instr → Option Hdr
  | .mov h _ | .movi h _ | .movxSet h _ | .movxOff h _ | .movxAdd h _ | .movxGet h _ | .shfl h _ | .vote h _
  | .rdlane h _ | .srd h _ | .rclaim h _ | .rgive h _ | .iadd h _ | .iaddc h _ | .isub h _ | .imad h _ | .imulh h _
  | .imnmx h _ | .iabs h _ | .log3 h _ | .shf h _ | .shl h _ | .shr h _ | .bfx h _ | .bfi h _ | .popc h _ | .clz h _
  | .brev h _ | .isetp h _ | .sel h _ | .lea h _ | .fadd h _ | .fmul h _ | .ffma h _ | .fmnmx h _ | .fsetp h _
  | .fmf h _ | .fcls h _ | .hfma2 h _ | .hadd2 h _ | .hmul2 h _ | .dadd h _ | .dmul h _ | .dfma h _ | .tfenceCheck h
  | .tfenceGet h _ | .tfencePut h _ | .tfenceClear h _ | .cvt h _ | .cvtn h _ | .pkn h _ | .unpk h _ | .qsclFind h _
  | .qsclDiv h _ | .qsclMul h _ | .cbdec h _ | .bra h _ | .brx h _ | .call h _ | .callX h _ | .ret h _ | .split h _
  | .elseI h _ | .rejoin h _ | .exitI h | .loopn h _ | .yieldI h | .nop h | .spawn h _ | .spawnT h _ | .spawnr h _
  | .spawng h _ | .join h _ | .poll h _ | .futnewNew h _ | .futnewFree h _ | .fulfil h _ | .tend h | .tendV h _
  | .tself h _ | .deqd h _ | .cvset h _ | .jlaunch h _ | .jwait h _ | .jyield h | .ld h _ | .st h _ | .lds h _
  | .sts h _ | .ldt h _ | .stt h _ | .lda h _ | .strl h _ | .fenceAcq h | .fenceRel h | .fenceAcqrel h | .waitv h _
  | .presTest h _ | .presSet h _ | .presClr h _ | .presWait h _ | .ifence h | .atom h _ | .atomf h _ | .atomp h _
  | .atoms h _ | .red h _ | .rseal h _ | .talloc h _ | .thand h _ | .trel h _ | .tinfo h _ | .tstage h _ | .tdrain h _
  | .tcopy h _ | .ringdefDef h _ | .ringdefClr h _ | .slotwaitFull h _ | .slotwaitEmpty h _ | .slotsigFull h _
  | .slotsigEmpty h _ | .acntGet h _ | .acntSet h _ | .acntAdd h _ | .acntWaitge h _ | .mlease h _ | .mleaseTry h _
  | .mrel h | .mldw h _ | .mflip h _ | .mma h _ | .mmas h _ | .macz h _ | .macr h _ | .macrV h _ | .mq h _ | .mqwait h _
  | .psumClr h _ | .psumRebuild h _ | .psel h _ | .pgath h _ | .gathl h _ | .scatl h _ | .trap h _ | .tretResume h
  | .tretSkip h | .tretEscalate h | .tkill h | .bkpt h _ | .swrWrite h _ | .swrRead h _ | .time h _ | .dbgsig h _
  | .ctxsave h _ | .ctxload h _ => some h
  | .registerResultReturn _ _ | .warpStarving _ _ | .postedCauseTaken _ | .jobLaunch _ _ | .jobLaunchComplete _
  | .jobRetiredRead _ | .jobAdmit _ | .admissionWaitLimit | .budgetExhausted _ | .jobRetire _ | .taskTake _
  | .stagingComplete _ | .regionHoldReexamine _ | .slotGrant _ | .spinExpired _ | .spinMove _ | .edgeActionsComplete _
  | .stealRound _ | .crossDieRound _ | .stealBackoffExpiry _ | .stealProbeAnswer _ _ | .stealArrival _ | .clockGate _
  | .storeBufferDrain _ | .storeAck _ | .waitvWake _ | .mscEvict _ | .pageWalk _ _ _ | .zfuClaim _ _ _
  | .engineSegmentComplete _ _ | .engineSegmentFault _ _ | .handleRecordFree _ _ | .remoteSegmentAck _ _
  | .remoteAckTimeout _ _ | .herricSegmentReceive _ _ | .leaseGrant _ | .queueAdmit _ | .mmaDynStep _
  | .matrixOpComplete _ _ | .planesEmptyAtCohortEnd _ | .ctxCmdPreempt _ | .ctxCmdHardsave _ | .ctxCmdKill _
  | .ctxCmdLoad _ | .ctxCmdRequeueJob _ | .ctxCmdKillJob _ | .ctxCmdDrop _ | .softDrainDone | .softDrainTimeout
  | .hardSaveComplete | .imageWriteFail | .contextLoadComplete | .gangTimeWrite _ | .gangDrainStart | .gangTimeReached
  | .dbgCmdHalt _ | .dbgCmdHaltCohort _ | .dbgCmdResume _ | .dbgCmdSkip _ | .dbgCmdStep _ | .dbgCmdKill _
  | .schedCheckWrite _ _ | .stealCountsWrite _ _ | .telRegionStatsWrite _ _ | .xlatInvPage _ | .xlatInvContext _
  | .xlatInvAll _ | .xlatInvNone _ | .shootdownComplete | .keyDataWrite _ _ | .keyCtlWrite _ _ | .keyRangeReady _
  | .registerWrite _ _ | .resetCtlWarm _ | .resetPin | .powerGood | .memReady | .bootImageFetched _ | .bootRetry
  | .bootCtlGo _ | .imageVerify | .pcieBar2Write _ _ | .pcieBar2Read _ _ | .pcieBar0Access _ | .queryRead _ _
  | .queryWrite _ _ | .herricLaneFail _ | .herricBeaconSend | .herricBeaconReceive _ | .ptpMessage _
  | .thermalStepDown | .thermalStepUp | .thermalShutdown _ | .patrolScrub _ | .phyRecalibration _ | .refresh _
  | .telemetrySample _ | .sramSoftError _ | .timeSourceLoss | .powerLoss | .systemCoreMemoryAccess _ _ => none

/-- BRA reads its guard itself (07_control R156). -/
def isBra : Instr → Bool
  | .bra _ _ => true
  | _ => false

/-- EXIT may be held at its issue whether or not its guard holds (07_control R149). -/
def isExit : Instr → Bool
  | .exitI _ => true
  | _ => false

/-- The class of an encoded instruction: OPCODE[9:6] of its word (02_encoding R45). -/
def wordClass (w : SlotWord) : Nat := (fieldsOf w).op.toNat / 64

end Sys2Proof.Machine

open Sys2Proof Sys2Proof.Machine

/-! ### Encoding -/

/-- A well-formed instruction of classes 0x0 to 0x3 is read back from its word. -/
def Obligations.RegisterClassesRoundTrip : Prop :=
  ∀ (i : Instr) (w : SlotWord), i.wf = true → encode i = some w → wordClass w < 4 → decode Privs.full w = .ok i

/-- A well-formed instruction of classes 0x4 to 0x7 is read back from its word. -/
def Obligations.ControlAndMemoryClassesRoundTrip : Prop :=
  ∀ (i : Instr) (w : SlotWord), i.wf = true → encode i = some w → 4 ≤ wordClass w → wordClass w < 8 →
    decode Privs.full w = .ok i

/-- A well-formed instruction of classes 0x8 to 0xB is read back from its word. -/
def Obligations.EngineAndSystemClassesRoundTrip : Prop :=
  ∀ (i : Instr) (w : SlotWord), i.wf = true → encode i = some w → 8 ≤ wordClass w → decode Privs.full w = .ok i

/-- Every well-formed instruction that a warp issues has a word, and no event has one. -/
def Sys2Proof.Machine.Rule.InstructionsHaveWords : Prop := ∀ i : Instr, (encode i).isSome = (hdrOf i).isSome

/-- What the decoder reads is well formed, and its word is the one that was read: no two words mean one instruction,
and no bit is ignored. -/
def Sys2Proof.Machine.Rule.DecodedWordsAreEncodings : Prop :=
  ∀ (w : SlotWord) (i : Instr), decode Privs.full w = .ok i → i.wf = true ∧ encode i = some w

/-- Without a privilege the decoder answers the same, or PRIVILEGED; and that for class 0xB alone. Classes 0xC to 0xF
are ILLEGAL_OPCODE. -/
def Sys2Proof.Machine.Rule.PrivilegeOnlyRestricts : Prop :=
  ∀ (p : Privs) (w : SlotWord),
    (decode p w = decode Privs.full w ∨ (decode p w = .error .privileged ∧ wordClass w = 11)) ∧
    (12 ≤ wordClass w → decode p w = .error .illegalOpcode)

/-- What decodes is well formed and its word is the one that was read; exactly the instructions have words; privileges
only restrict. -/
def Obligations.WordsAndInstructionsAgree : Prop := Rule.DecodedWordsAreEncodings ∧ Rule.InstructionsHaveWords ∧ Rule.PrivilegeOnlyRestricts

/-! ### The step, the reset state, and what every instruction shares -/

namespace Sys2Proof.Machine

/-- The schedule lets a quadrant issue, with one of its pipes busy or none; task `t` is the first of its ready warps and
`rest` are those after it (07_control R142, R143); the fetch waits for no protected range (17_memsys R408); and the first
valid slot at or after its pc is slot `k`, where no breakpoint matches, nor at the slot after it where the two are an MQ
pair (16_system R377). -/
structure Reaches (s : State) (core quad : Nat) (busy : Option Pipe) (t : Task) (rest : List Task) (b : Bundle) (k : Nat) :
    Prop where
  move : s.turned.moveFor s.choice = some (.issue core quad busy)
  warps : s.turned.candidates core quad busy = t :: rest
  ready : s.turned.codeWaits t = false
  bundle : s.turned.bundleOf t = .ok b
  format : b.wellFormed = true
  slot : validSlot b t.warp.pc = some k
  free : s.turned.pcBreak t (BitVec.ofNat 32 (bundleOff t.warp.pc + 12 * k)) = false
  next : b.isPair k = true → s.turned.pcBreak t (BitVec.ofNat 32 (bundleOff t.warp.pc + 12 * (k + 1))) = false

/-- The address of slot `k` of the bundle of a task. -/
def slotPc (t : Task) (k : Nat) : BitVec 32 := BitVec.ofNat 32 (bundleOff t.warp.pc + 12 * k)

/-- MQ issues as the slot after it (14_matrix R341). -/
def isMq : Instr → Bool
  | .mq _ _ => true
  | _ => false

end Sys2Proof.Machine

open Sys2Proof Sys2Proof.Machine

/-- A step of a warp whose next slot decodes runs exactly that instruction, in the state at its issue; around it the
step only ends the warp's wait and lets the units settle. Where the instruction is held at issue, the quadrant's next
ready warp is tried, and a clk passes where every one is held. -/
def Obligations.StepRunsDecoded : Prop :=
  ∀ (s : State) (core quad : Nat) (busy : Option Pipe) (t : Task) (rest : List Task) (b : Bundle) (k : Nat) (i : Instr)
    (here : Task) (o : Host.Outcome State Fault Refusal),
    Reaches s core quad busy t rest b k → b.unpaired k = false → decode (s.turned.privsOf t) (b.slot k) = .ok i →
    here = { t with warp := { t.warp with pc := slotPc t k } } → o = exec i (s.turned.atIssue t (slotPc t k) b) →
    (∀ s1, o = .next s1 → s1.held here = false → step s = .next (s1.chosenOne here).settle) ∧
    (∀ s1, o = .next s1 → s1.held here = true → step s = issueStep s.turned rest) ∧
    (∀ f, o = .fault f → step s = .fault f) ∧
    issueStep s.turned [] = .next (s.turned.elapse 1).settle

/-- A slot that fails its decode checks stops its task with the cause of the first check that failed, at the slot's
address; before them, an MQ that the slot after it does not complete is ILLEGAL_OPCODE (14_matrix R341). -/
def Obligations.DecodeFaultsTrap : Prop :=
  ∀ (s : State) (core quad : Nat) (busy : Option Pipe) (t : Task) (rest : List Task) (b : Bundle) (k : Nat),
    Reaches s core quad busy t rest b k →
    (∀ e, b.unpaired k = false → decode (s.turned.privsOf t) (b.slot k) = .error e →
      step s = .next ((((s.turned.codeFetched t (slotPc t k)).takeTrap t.uid (raise0 (DecodeFault.cause e)) .precise
        (slotPc t k) (pair := b.isPair k)).chosenOne t).settle)) ∧
    (b.unpaired k = true →
      step s = .next ((((s.turned.codeFetched t (slotPc t k)).takeTrap t.uid (raise0 .illegalOpcode) .precise
        (slotPc t k)).chosenOne t).settle))

/-- What reset leaves, where the spec gives the value: no job, no task, empty translation roots, DBG_CTL, DEV_STATUS,
BOOT_STATUS and the device's own registers 0, PREEMPT_DRAIN and GANG_DRAIN 200 000, STEAL_ROUNDS 4, STEAL_THRESHOLD 64,
SCRUB_CTL 86 400, PWR_CAP 2800, and every core's SCHED_CHECK, breakpoints and XLAT_FAULT 0. That the arrival counters are
0 and that HBM lists nothing is the model's choice (log entries 2 and 1). -/
def Obligations.ResetRegisters : Prop :=
  let s := State.reset
  s.jobs = [] ∧ s.tasks = [] ∧ s.cells = [] ∧ s.hbm = [] ∧ s.cregs.preemptDrain = 200000 ∧ s.cregs.gangDrain = 200000 ∧
  s.cregs.stealRounds = 4 ∧ s.cregs.stealThreshold = 64 ∧ s.cregs.priv = 0 ∧ s.cregs.cmd = 0 ∧ s.cregs.dbgCtl = 0 ∧
  s.cregs.escHead = 0 ∧ s.cregs.escTail = 0 ∧ s.pregs.devStatus = 0 ∧ s.pregs.irqStatus = 0 ∧ s.pregs.irqEnable = 0 ∧
  s.pregs.bootStatus = 0 ∧ s.pregs.scrubCtl = 86400 ∧ s.pregs.pwrCap = 2800 ∧ s.boot.phase = .off ∧
  (∀ c, spGet s.mregs.root c = 0 ∧ spGet s.mregs.keyCtl c = 0 ∧ (s.ctx c).st = .free) ∧
  (∀ k, (s.core k).regs.schedCheck = 0 ∧ (s.core k).regs.xlatFault = 0 ∧ (s.core k).storeBuf = [] ∧
    (s.core k).recs = [] ∧ ∀ i, spGet (s.core k).regs.bp i = 0 ∧ spGet (s.core k).regs.wp i = 0 ∧
    spGet (s.core k).acnt i = 0)

/-- Nothing the device does ends in a refusal, and nothing in a fault but an instruction that no task issues. -/
def Obligations.EveryMoveAnswers : Prop :=
  ∀ (i : Instr) (s : State),
    (∃ s', exec i s = .next s') ∨ (exec i s = .fault .noWarp ∧ (hdrOf i).isSome = true ∧ s.curTask = none)

/-- An instruction whose guard holds nowhere changes nothing but what its hints say: every instruction but BRA, which
reads its guard itself, EXIT, whose issue waits in any case (`LanesExit`), and MQ, which issues as its follower. -/
def Obligations.GuardFalseOnlyHints : Prop :=
  ∀ (i : Instr) (h : Hdr) (s : State) (t : Task), hdrOf i = some h → isBra i = false → isExit i = false →
    isMq i = false → Passes s h t → exec i s = .next (s.goesOn s h t)

/-- An instruction that would raise a barrier counter that stands at 63 does not issue. -/
def Sys2Proof.Machine.Rule.FullBarrierHolds : Prop :=
  ∀ (i : Instr) (h : Hdr) (s : State) (t : Task), hdrOf i = some h → isMq i = false →
    s.curTask = some t → h.hint.setb.toNat < 4 → spGet t.warp.bars h.hint.setb.toNat = 63 → exec i s = .next s

/-- With SCHED_CHECK.ENABLE, an instruction that reads its guard from a register still to be written is stopped before
it has any effect, with STALL_UNDERSIZED, and the read is counted in EVENTS. -/
def Sys2Proof.Machine.Rule.UndersizedGuardTraps : Prop :=
  ∀ (i : Instr) (h : Hdr) (s : State) (t : Task) (k : RKey), hdrOf i = some h → isMq i = false →
    s.curTask = some t → barFull t h.hint = false → k ∈ guardKeys h t → s.pendingKey t k = true →
    (s.core t.core).regs.schedCheck.getLsbD 0 = true →
    exec i s = .next ((s.countUndersized t).takeTrap t.uid (raise0 .stallUndersized) .precise t.warp.pc
      (pair := s.cur.mq.isSome))

/-- A full barrier counter holds an instruction, and a guard still to be written stops it with STALL_UNDERSIZED. -/
def Obligations.IssueWaits : Prop := Rule.FullBarrierHolds ∧ Rule.UndersizedGuardTraps

/-! ### Instructions that compute: what they write, after which distance, with which flags -/

namespace Sys2Proof.Machine

/-- A saturated integer result: the nearest value of the type, with INT_OVERFLOW where it is not the exact one. -/
def saturated (ty : Ty) (carry : Bool) (x : Int) : Res :=
  ⟨holdAs ty (ofSigned ty.bits (max (loOf ty) (min x (hiOf ty)))), carry,
    if loOf ty ≤ x ∧ x ≤ hiOf ty then 0 else fIntOverflow⟩

/-- A wrapped integer result of exact sum `t`, with its carry. -/
def wrapped (ty : Ty) (t : Nat) : Res := ⟨holdAs ty (t % 2 ^ ty.bits), decide (2 ^ ty.bits ≤ t), 0⟩

/-- Least distances of the integer class (04_integer R88): plain, and multiplying. -/
def plainDist (h : Hdr) (ty : Ty) : Nat := if h.u then 2 else if ty.regs = 1 then 4 else 6
def multDist (h : Hdr) (ty : Ty) (wide : Bool) : Nat :=
  if h.u then 4 else if wide then 8 else if ty.regs = 1 then 6 else 12

/-- One source and a destination of `k` registers. -/
def unary (a d : Opnd) (ty : Ty) (k : Nat) : Shape := ⟨[(a, ty)], [], some (d, k), none⟩

/-- Two sources and a destination of `k` registers. -/
def binary (a b d : Opnd) (ta tb : Ty) (k : Nat) : Shape := ⟨[(a, ta), (b, tb)], [], some (d, k), none⟩

/-- Three sources and a destination of `k` registers. -/
def ternary (a b c d : Opnd) (ta tb tc : Ty) (k : Nat) : Shape := ⟨[(a, ta), (b, tb), (c, tc)], [], some (d, k), none⟩

/-- Bits [pos + len - 1 : pos] of a value of `w` bits, with the length cut at its end; and that length. -/
def cutLen (w ctl : Nat) : Nat := min (natBits ctl 8 8) (w - natBits ctl 0 8)

/-- BFX and BFI name no bit. -/
def noBits (w ctl : Nat) : Bool := decide (w ≤ natBits ctl 0 8 ∨ natBits ctl 8 8 = 0)

/-- A float result. -/
def floatRes (r : FRes) : Res := ⟨r.code, false, r.flags⟩

end Sys2Proof.Machine

open Sys2Proof Sys2Proof.Machine

/-- MOV and MOVI: the source's value, and the immediate at the width of the type. -/
def Sys2Proof.Machine.Rule.MovesCompute : Prop :=
  (∀ h a, Computes (.mov h a) h (unary a.a a.d a.ty a.ty.regs) (if h.u then 2 else 4) fun l => Res.of (l.src a.a a.ty)) ∧
  (∀ h a, Computes (.movi h a) h ⟨[], [], some (a.d, a.ty.regs), none⟩ (if h.u then 2 else 4) fun _ =>
    Res.of (if a.ty = .i64 then signExt 32 64 a.imm.toNat else a.imm.toNat))

/-- IADD, ISUB and IADDC: the sum of R90 and its carry, wrapped, or the exact value brought into the type's range. -/
def Sys2Proof.Machine.Rule.AdditionsCompute : Prop :=
  (∀ h a, Computes (.iadd h a) h { binary a.a a.b a.d a.ty a.ty a.ty.regs with pdst := if a.co then some a.pk else none }
    (plainDist h a.ty) fun l =>
      let x := l.src a.a a.ty
      let y := l.src a.b a.ty
      if a.sat then saturated a.ty (decide (2 ^ a.ty.bits ≤ x + y)) (intOf a.ty x + intOf a.ty y)
      else wrapped a.ty (x + y)) ∧
  (∀ h a, Computes (.isub h a) h { binary a.a a.b a.d a.ty a.ty a.ty.regs with pdst := if a.co then some a.pk else none }
    (plainDist h a.ty) fun l =>
      let x := l.src a.a a.ty
      let y := l.src a.b a.ty
      let t := x + (2 ^ a.ty.bits - 1 - y % 2 ^ a.ty.bits) + 1
      if a.sat then saturated a.ty (decide (2 ^ a.ty.bits ≤ t)) (intOf a.ty x - intOf a.ty y) else wrapped a.ty t) ∧
  (∀ h a, Computes (.iaddc h a) h
    { binary a.a a.b a.d a.ty a.ty a.ty.regs with preds := [a.pk], pdst := if a.co then some a.pk else none }
    (plainDist h a.ty) fun l =>
      let y := l.src a.b a.ty
      wrapped a.ty (l.src a.a a.ty + (if a.invb then 2 ^ a.ty.bits - 1 - y % 2 ^ a.ty.bits else y) +
        (if l.pred a.pk then 1 else 0)))

/-- IMAD, IMULH, IMNMX and IABS. -/
def Sys2Proof.Machine.Rule.ProductsCompute : Prop :=
  (∀ h a, Computes (.imad h a) h
    (ternary a.a a.b a.c a.d a.ty a.ty (if a.wide then wideTy a.ty else a.ty) (if a.wide then wideTy a.ty else a.ty).regs)
    (multDist h a.ty a.wide) fun l =>
      let c := if a.wide then wideTy a.ty else a.ty
      Res.of (ofSigned c.bits (intOf a.ty (l.src a.a a.ty) * intOf a.ty (l.src a.b a.ty) + (l.src a.c c : Int)))) ∧
  (∀ h a, Computes (.imulh h a) h (binary a.a a.b a.d a.ty a.ty a.ty.regs) (multDist h a.ty false) fun l =>
    Res.of (ofSigned (2 * a.ty.bits) (intOf a.ty (l.src a.a a.ty) * intOf a.ty (l.src a.b a.ty)) / 2 ^ a.ty.bits)) ∧
  (∀ h a, Computes (.imnmx h a) h (binary a.a a.b a.d a.ty a.ty a.ty.regs) (plainDist h a.ty) fun l =>
    let x := l.src a.a a.ty
    let y := l.src a.b a.ty
    Res.of (holdAs a.ty (if a.max then (if intLess a.ty x y then y else x) else if intLess a.ty x y then x else y))) ∧
  (∀ h a, Computes (.iabs h a) h (unary a.a a.d a.ty a.ty.regs) (plainDist h a.ty) fun l =>
    let m : Int := (intOf a.ty (l.src a.a a.ty)).natAbs
    if a.sat then saturated a.ty false m else Res.of (holdAs a.ty (ofSigned a.ty.bits m)))

/-- MOV and MOVI, and the sums and products of class 0x1. -/
def Obligations.IntegerArithmeticComputes : Prop := Rule.MovesCompute ∧ Rule.AdditionsCompute ∧ Rule.ProductsCompute

/-- LOG3, bit by bit: bit j of the result is LUT[4 a[j] + 2 b[j] + c[j]], and there is none above the width. -/
def Sys2Proof.Machine.Rule.Log3Bits : Prop :=
  ∀ h a, ∃ f : Lane → Nat,
    Computes (.log3 h a) h (ternary a.a a.b a.c a.d a.ty a.ty a.ty a.ty.regs) (plainDist h a.ty) (fun l => Res.of (f l)) ∧
    ∀ l j, natBit (f l) j = (decide (j < a.ty.bits) &&
      a.lut.getLsbD (4 * (natBit (l.src a.a a.ty) j).toNat + 2 * (natBit (l.src a.b a.ty) j).toNat +
        (natBit (l.src a.c a.ty) j).toNat))

/-- SHF, SHL and SHR, with a count of the width or more. -/
def Sys2Proof.Machine.Rule.ShiftsCompute : Prop :=
  (∀ h a, Computes (.shf h a) h (ternary a.a a.b a.c a.d .n32 .n32 .n32 1) (plainDist h .n32) fun l =>
    let n := l.src a.c .n32
    let k := if a.wrap then n % 32 else min n 32
    let x := l.src a.b .n32 * 2 ^ 32 + l.src a.a .n32
    Res.of (if a.left then x * 2 ^ k / 2 ^ 32 % 2 ^ 32 else x / 2 ^ k % 2 ^ 32)) ∧
  (∀ h a, Computes (.shl h a) h (binary a.a a.b a.d a.ty .n32 a.ty.regs) (plainDist h a.ty) fun l =>
    let k := if a.wrap then l.src a.b .n32 % a.ty.bits else l.src a.b .n32
    Res.of (l.src a.a a.ty * 2 ^ k % 2 ^ a.ty.bits)) ∧
  (∀ h a, Computes (.shr h a) h (binary a.a a.b a.d a.ty .n32 a.ty.regs) (plainDist h a.ty) fun l =>
    let k := if a.wrap then l.src a.b .n32 % a.ty.bits else l.src a.b .n32
    Res.of (ofSigned a.ty.bits (intOf a.ty (l.src a.a a.ty) / 2 ^ k)))

/-- BFX, BFI, POPC, CLZ and BREV. -/
def Sys2Proof.Machine.Rule.BitFieldsCompute : Prop :=
  (∀ h a, Computes (.bfx h a) h (binary a.a a.b a.d a.ty .n32 a.ty.regs) (plainDist h a.ty) fun l =>
    let c := l.src a.b .n32
    let f := natBits (l.src a.a a.ty) (natBits c 0 8) (cutLen a.ty.bits c)
    Res.of (if noBits a.ty.bits c then 0 else if a.ty.signed then signExt (cutLen a.ty.bits c) a.ty.bits f else f)) ∧
  (∀ h a, Computes (.bfi h a) h (ternary a.a a.b a.c a.d a.ty .n32 a.ty a.ty.regs) (plainDist h a.ty) fun l =>
    let c := l.src a.b .n32
    let z := l.src a.c a.ty
    let p := natBits c 0 8
    let n := cutLen a.ty.bits c
    Res.of (if noBits a.ty.bits c then z else z - natBits z p n * 2 ^ p + l.src a.a a.ty % 2 ^ n * 2 ^ p)) ∧
  (∀ h a, Computes (.popc h a) h (unary a.a a.d a.ty 1) (plainDist h a.ty) fun l =>
    Res.of ((List.range a.ty.bits).countP (natBit (l.src a.a a.ty) ·))) ∧
  (∀ h a, Computes (.clz h a) h (unary a.a a.d a.ty 1) (plainDist h a.ty) fun l =>
    let x := l.src a.a a.ty
    Res.of (if x = 0 then a.ty.bits else a.ty.bits - 1 - Nat.log2 x)) ∧
  (∀ h a, ∃ f : Lane → Nat, Computes (.brev h a) h (unary a.a a.d a.ty a.ty.regs) (plainDist h a.ty) (fun l => Res.of (f l)) ∧
    ∀ l j, j < a.ty.bits → natBit (f l) j = natBit (l.src a.a a.ty) (a.ty.bits - 1 - j))

/-- LOG3, the shifts, and the bit fields and counts of class 0x1. -/
def Obligations.BitOperationsCompute : Prop := Rule.Log3Bits ∧ Rule.ShiftsCompute ∧ Rule.BitFieldsCompute

/-- ISETP (R98), SEL (R99) and LEA (R101), each after its least distance of R88. The distance of SEL of type b128, which
R88's table does not name, is the model's reading: that of the 64-bit types (log entry 27, deduced). -/
def Obligations.ComparisonsCompute : Prop :=
  (∀ h a, Computes (.isetp h a) h ⟨[(a.a, a.ty), (a.b, a.ty)], [a.comb], none, some a.pd⟩ (plainDist h a.ty) fun l =>
    ⟨0, combine a.op (intCompare a.ty a.cmp (l.src a.a a.ty) (l.src a.b a.ty)) (l.pred a.comb != a.neg), 0⟩) ∧
  (∀ h a, Computes (.sel h a) h { binary a.a a.b a.d a.ty a.ty a.ty.regs with preds := [a.p] } (plainDist h a.ty) fun l =>
    Res.of (l.src (if l.pred a.p != a.neg then a.a else a.b) a.ty)) ∧
  (∀ h a, Computes (.lea h a) h (binary a.a a.b a.d .n64 .n32 2) (plainDist h .n64) fun l =>
    let b := l.src a.b .n32
    Res.of ((l.src a.a .n64 + (if a.nat then b else signExt 32 64 b) * 2 ^ a.shift.toNat) % 2 ^ 64))

/-! ### Floating point -/

namespace Sys2Proof.Machine

/-- A float source after its modifiers: the magnitude first, then the sign (06_float R127). -/
def modified (l : Lane) (op : Opnd) (ty : Ty) (neg abs : Bool) : Nat := fmod (fmtOf ty) (l.src op ty) neg abs

/-- Element `i` of a packed pair after its modifiers (R137). -/
def modifiedHalf (l : Lane) (op : Opnd) (ty : Ty) (neg abs : Bool) (i : Nat) : Nat :=
  fmod (fmtOf ty) (natBits (l.src op .n32) (16 * i) 16) neg abs

/-- Both results of a packed pair, and the union of their flags. -/
def pairRes (lo hi : FRes) : Res := ⟨lo.code + 2 ^ 16 * hi.code, false, lo.flags ||| hi.flags⟩

/-- An operation on values, rounded once into a format (R124 to R126). -/
def rounded1 (f : FFmt) (rm : RM) (x : Exact) : FRes := f.finish rm x

/-- A two-source and a three-source float instruction. -/
def ComputesF2 (i : Hdr → FArgs → Instr) (d group : Nat) (op : RM → FVal → FVal → Exact) : Prop :=
  ∀ h a, Computes (i h a) h (binary a.a a.b a.d a.ty a.ty a.ty.regs) (if h.u then group else d) fun l =>
    floatRes (rounded1 (fmtOf a.ty) a.rm (op a.rm ((fmtOf a.ty).decode (modified l a.a a.ty a.nega a.absa))
      ((fmtOf a.ty).decode (modified l a.b a.ty a.negb a.absb))))

def ComputesF3 (i : Hdr → FmaArgs → Instr) (d group : Nat) : Prop :=
  ∀ h a, Computes (i h a) h (ternary a.a a.b a.c a.d a.ty a.ty a.ty a.ty.regs) (if h.u then group else d) fun l =>
    floatRes (rounded1 (fmtOf a.ty) a.rm (ffma a.rm ((fmtOf a.ty).decode (modified l a.a a.ty a.nega a.absa))
      ((fmtOf a.ty).decode (modified l a.b a.ty a.negb a.absb))
      ((fmtOf a.ty).decode (modified l a.c a.ty a.negc false))))

/-- A packed two-source instruction (R137). -/
def ComputesH2 (i : Hdr → FArgs → Instr) (op : RM → FVal → FVal → Exact) : Prop :=
  ∀ h a, Computes (i h a) h (binary a.a a.b a.d .n32 .n32 1) (if h.u then 3 else 5) fun l =>
    let one (k : Nat) : FRes := rounded1 (fmtOf a.ty) a.rm (op a.rm
      ((fmtOf a.ty).decode (modifiedHalf l a.a a.ty a.nega a.absa k))
      ((fmtOf a.ty).decode (modifiedHalf l a.b a.ty a.negb a.absb k)))
    pairRes (one 0) (one 1)

end Sys2Proof.Machine

open Sys2Proof Sys2Proof.Machine

/-- FADD, FMUL, FFMA and DADD, DMUL, DFMA: the exact sum, product or fused sum of the modified sources, rounded once. -/
def Sys2Proof.Machine.Rule.FloatArithmeticComputes : Prop :=
  ComputesF2 .fadd 5 3 fadd ∧ ComputesF2 .fmul 5 3 (fun _ => fmul) ∧ ComputesF3 .ffma 5 3 ∧
  ComputesF2 .dadd 10 4 fadd ∧ ComputesF2 .dmul 10 4 (fun _ => fmul) ∧ ComputesF3 .dfma 10 4

/-- HADD2, HMUL2 and HFMA2: the same of both halves. -/
def Sys2Proof.Machine.Rule.PackedHalvesCompute : Prop :=
  ComputesH2 .hadd2 fadd ∧ ComputesH2 .hmul2 (fun _ => fmul) ∧
  (∀ h a, Computes (.hfma2 h a) h (ternary a.a a.b a.c a.d .n32 .n32 .n32 1) (if h.u then 3 else 5) fun l =>
    let one (k : Nat) : FRes := rounded1 (fmtOf a.ty) a.rm (ffma a.rm
      ((fmtOf a.ty).decode (modifiedHalf l a.a a.ty a.nega a.absa k))
      ((fmtOf a.ty).decode (modifiedHalf l a.b a.ty a.negb a.absb k))
      ((fmtOf a.ty).decode (modifiedHalf l a.c a.ty a.negc false k)))
    pairRes (one 0) (one 1))

/-- Sums and products of class 0x2, of one element and of two. -/
def Obligations.FloatingArithmeticComputes : Prop := Rule.FloatArithmeticComputes ∧ Rule.PackedHalvesCompute

/-- FMNMX, FSETP, FMF and FCLS. -/
def Obligations.FloatTestsCompute : Prop :=
  (∀ h a, Computes (.fmnmx h a) h (binary a.a a.b a.d a.ty a.ty a.ty.regs) (if h.u then 2 else 4) fun l =>
    floatRes (fminmax (fmtOf a.ty) a.max a.prop (modified l a.a a.ty a.nega a.absa) (modified l a.b a.ty a.negb a.absb))) ∧
  (∀ h a, Computes (.fsetp h a) h ⟨[(a.a, a.ty), (a.b, a.ty)], [a.comb], none, some a.pd⟩ (if h.u then 2 else 4) fun l =>
    let r := fcompare a.cmp ((fmtOf a.ty).decode (modified l a.a a.ty false a.absa))
      ((fmtOf a.ty).decode (modified l a.b a.ty false a.absb))
    ⟨0, combine a.op r.1 (l.pred a.comb != a.neg), r.2⟩) ∧
  (∀ h a, Computes (.fmf h a) h (unary a.a a.d .f32 1) (if h.u then 8 else 18) fun l =>
    floatRes (fmfResult a.fn (modified l a.a .f32 a.nega a.absa))) ∧
  (∀ h a, Computes (.fcls h a) h (unary a.a a.d a.ty 1) (if h.u then 2 else 4) fun l =>
    Res.of (fclass (fmtOf a.ty) (l.src a.a a.ty)))

/-- Every finite number of a format rounds to itself, in every mode, saturating or not, without a flag. -/
def Obligations.FiniteValuesRoundToThemselves : Prop :=
  ∀ f ∈ [FFmt.fp64, .fp32, .fp16, .bf16, .e4m3, .e5m2, .e3m2, .e2m3, .e2m1], ∀ (rm : RM) (sat : Bool) (x : Nat),
    x < 2 ^ f.bits → (match f.decode x with | .fin _ _ _ _ => True | .inf _ | .nan _ => False) →
    f.round rm sat (f.decode x) = ⟨x, 0⟩

/-- CVT and CVTN, PKN and UNPK, QSCL.FIND, .DIV and .MUL, and CBDEC. -/
def Obligations.ConversionsCompute : Prop :=
  (∀ h a, Computes (.cvt h a) h (unary a.a a.d a.sf a.df.regs)
    (if a.df = .f64 ∨ a.sf = .f64 then (if h.u then 4 else 10) else if h.u then 2 else 4) fun l =>
      floatRes (convert a.df a.sf a.rm a.sat (l.src a.a a.sf))) ∧
  (∀ h a, Computes (.cvtn h a) h (unary a.a a.d .f32 1) (if h.u then 2 else 4) fun l =>
    floatRes ((NFmt.fmt a.df).round a.rm a.sat (FFmt.fp32.decode (l.src a.a .f32)))) ∧
  (∀ h a, Computes (.pkn h a) h (ternary a.a a.b a.d a.d .n32 .n32 .n32 1) (if h.u then 2 else 4) fun l =>
    let w := 2 * (elemOf a.df).bits
    let r := packPair (elemOf a.df) a.rm a.sat (l.src a.a .n32) (l.src a.b .n32)
    let d := l.src a.d .n32
    ⟨d - natBits d (w * a.k.toNat) w * 2 ^ (w * a.k.toNat) + r.code * 2 ^ (w * a.k.toNat), false, r.flags⟩) ∧
  (∀ h a, Computes (.unpk h a) h (unary a.a a.d .n32 2) (if h.u then 2 else 4) fun l =>
    let w := 2 * (elemOf a.sf).bits
    Res.of (unpackPair (elemOf a.sf) (natBits (l.src a.a .n32) (w * a.k.toNat) w))) ∧
  (∀ h a, Computes (.qsclFind h a) h (unary a.a a.d .f32 1) (if h.u then 4 else 6) fun l =>
    floatRes (findScale a.sf a.df (l.src a.a .f32))) ∧
  (∀ h a, Computes (.qsclDiv h a) h (binary a.a a.b a.d .f32 .n32 1) (if h.u then 4 else 6) fun l =>
    floatRes (divScale a.sf a.rm a.sat (l.src a.a .f32) (l.src a.b .n32 % 256))) ∧
  (∀ h a, Computes (.qsclMul h a) h (binary a.a a.b a.d .f32 .n32 1) (if h.u then 4 else 6) fun l =>
    floatRes (mulScale a.sf a.rm a.sat (l.src a.a .f32) (l.src a.b .n32 % 256))) ∧
  (∀ h a, Computes (.cbdec h a) h (binary a.a a.b a.d .n32 .n32 2) (if h.u then 2 else 4) fun l =>
    let es := decodeVq2 (l.src a.a .n32 % 2 ^ 16) (l.src a.b .n32 % 2 ^ 24)
    Res.of (match a.half with
      | none => (List.range 8).foldl (fun acc i => acc + ofSigned 8 (es[i]?.getD 0) * 2 ^ (8 * i)) 0
      | some k => (List.range 4).foldl (fun acc i => acc + halfUnits (es[4 * k.toNat + i]?.getD 0) * 2 ^ (16 * i)) 0))

/-- TFENCE waits for the task's flag-writing operations; then CHECK goes on where no enabled flag is set and traps with
the lowest one after it completes, GET reads FPCTL, PUT writes its bits, CLEAR clears those the source names. -/
def Obligations.FlagFencesAct : Prop :=
  (∀ h s t, Acts s h t [] → s.flagsOwed t = false → enabledFlags t.warp.fpctl = 0 →
    exec (.tfenceCheck h) s = .next (s.goesOn s h t)) ∧
  (∀ h s t, Acts s h t [] → s.flagsOwed t = false → ∀ i : Fin 6, natBit (enabledFlags t.warp.fpctl) i = true →
    (∀ j, j < i → natBit (enabledFlags t.warp.fpctl) j.val = false) →
    exec (.tfenceCheck h) s = .next ((s.modTask t.uid fun x => x.issued h.hint (s.seqPc t) false s.clk).takeTrap t.uid
      (raise0 (.arith i)) .after (s.seqPc t))) ∧
  (∀ h a s t, Acts s h t [] → s.flagsOwed t = false →
    exec (.tfenceGet h a) s = .next ((s.pushResult t 2 (s.dst t a.d 1 0 t.warp.fpctl.toNat)).goesOn s h t)) ∧
  (∀ h a s t, Acts s h t (s.srcKeys t a.a 1 0) → s.flagsOwed t = false →
    exec (.tfencePut h a) s = .next ((s.modWarp t.uid fun w =>
      { w with fpctl := BitVec.ofNat 32 (s.src t a.a .n32 0) &&& 0x3F3F }).goesOn s h t)) ∧
  (∀ h a s t, Acts s h t (s.srcKeys t a.a 1 0) → s.flagsOwed t = false →
    exec (.tfenceClear h a) s = .next ((s.modWarp t.uid fun w =>
      { w with fpctl := w.fpctl &&& ~~~(BitVec.ofNat 32 (s.src t a.a .n32 0 % 64)) }).goesOn s h t)) ∧
  (∀ i h a s t, i ∈ [Instr.tfenceGet h a, .tfenceCheck h] → Acts s h t [] → s.flagsOwed t = true → exec i s = .next s) ∧
  (∀ i h a s t, i ∈ [Instr.tfencePut h a, .tfenceClear h a] → Acts s h t (s.srcKeys t a.a 1 0) → s.flagsOwed t = true →
    exec i s = .next s)

/-! ### The frame of a computing instruction -/

namespace Sys2Proof.Machine

/-- Header, shape and distance of every instruction that computes. -/
def computeOf : Instr → Option (Hdr × Shape × Nat)
  | .mov h a => some (h, unary a.a a.d a.ty a.ty.regs, if h.u then 2 else 4)
  | .movi h a => some (h, ⟨[], [], some (a.d, a.ty.regs), none⟩, if h.u then 2 else 4)
  | .iadd h a | .isub h a => some (h, { binary a.a a.b a.d a.ty a.ty a.ty.regs with
      pdst := if a.co then some a.pk else none }, plainDist h a.ty)
  | .iaddc h a => some (h, { binary a.a a.b a.d a.ty a.ty a.ty.regs with
      preds := [a.pk], pdst := if a.co then some a.pk else none }, plainDist h a.ty)
  | .imad h a =>
    let c := if a.wide then wideTy a.ty else a.ty
    some (h, ternary a.a a.b a.c a.d a.ty a.ty c c.regs, multDist h a.ty a.wide)
  | .imulh h a => some (h, binary a.a a.b a.d a.ty a.ty a.ty.regs, multDist h a.ty false)
  | .imnmx h a => some (h, binary a.a a.b a.d a.ty a.ty a.ty.regs, plainDist h a.ty)
  | .iabs h a => some (h, unary a.a a.d a.ty a.ty.regs, plainDist h a.ty)
  | .log3 h a => some (h, ternary a.a a.b a.c a.d a.ty a.ty a.ty a.ty.regs, plainDist h a.ty)
  | .shf h a => some (h, ternary a.a a.b a.c a.d .n32 .n32 .n32 1, plainDist h .n32)
  | .shl h a | .shr h a => some (h, binary a.a a.b a.d a.ty .n32 a.ty.regs, plainDist h a.ty)
  | .bfx h a => some (h, binary a.a a.b a.d a.ty .n32 a.ty.regs, plainDist h a.ty)
  | .bfi h a => some (h, ternary a.a a.b a.c a.d a.ty .n32 a.ty a.ty.regs, plainDist h a.ty)
  | .popc h a | .clz h a => some (h, unary a.a a.d a.ty 1, plainDist h a.ty)
  | .brev h a => some (h, unary a.a a.d a.ty a.ty.regs, plainDist h a.ty)
  | .isetp h a => some (h, ⟨[(a.a, a.ty), (a.b, a.ty)], [a.comb], none, some a.pd⟩, plainDist h a.ty)
  | .sel h a => some (h, { binary a.a a.b a.d a.ty a.ty a.ty.regs with preds := [a.p] }, plainDist h a.ty)
  | .lea h a => some (h, binary a.a a.b a.d .n64 .n32 2, plainDist h .n64)
  | .fadd h a | .fmul h a => some (h, binary a.a a.b a.d a.ty a.ty a.ty.regs, if h.u then 3 else 5)
  | .ffma h a => some (h, ternary a.a a.b a.c a.d a.ty a.ty a.ty a.ty.regs, if h.u then 3 else 5)
  | .dadd h a | .dmul h a => some (h, binary a.a a.b a.d a.ty a.ty a.ty.regs, if h.u then 4 else 10)
  | .dfma h a => some (h, ternary a.a a.b a.c a.d a.ty a.ty a.ty a.ty.regs, if h.u then 4 else 10)
  | .fmnmx h a => some (h, binary a.a a.b a.d a.ty a.ty a.ty.regs, if h.u then 2 else 4)
  | .fsetp h a => some (h, ⟨[(a.a, a.ty), (a.b, a.ty)], [a.comb], none, some a.pd⟩, if h.u then 2 else 4)
  | .fmf h a => some (h, unary a.a a.d .f32 1, if h.u then 8 else 18)
  | .fcls h a => some (h, unary a.a a.d a.ty 1, if h.u then 2 else 4)
  | .hadd2 h a | .hmul2 h a => some (h, binary a.a a.b a.d .n32 .n32 1, if h.u then 3 else 5)
  | .hfma2 h a => some (h, ternary a.a a.b a.c a.d .n32 .n32 .n32 1, if h.u then 3 else 5)
  | .cvt h a => some (h, unary a.a a.d a.sf a.df.regs,
      if a.df = .f64 ∨ a.sf = .f64 then (if h.u then 4 else 10) else if h.u then 2 else 4)
  | .cvtn h a => some (h, unary a.a a.d .f32 1, if h.u then 2 else 4)
  | .pkn h a => some (h, ternary a.a a.b a.d a.d .n32 .n32 .n32 1, if h.u then 2 else 4)
  | .unpk h a => some (h, unary a.a a.d .n32 2, if h.u then 2 else 4)
  | .qsclFind h a => some (h, unary a.a a.d .f32 1, if h.u then 4 else 6)
  | .qsclDiv h a | .qsclMul h a => some (h, binary a.a a.b a.d .f32 .n32 1, if h.u then 4 else 6)
  | .cbdec h a => some (h, binary a.a a.b a.d .n32 .n32 2, if h.u then 2 else 4)
  | _ => none

/-- The registers an instruction of shape `o` writes. -/
def State.destKeys (s : State) (h : Hdr) (t : Task) (o : Shape) : List RKey :=
  (workLanes h (s.actLanes h t)).flatMap fun l =>
    (match o.dst with | some (a, k) => s.opRegs t a k l | none => []) ++
    (match o.pdst with | some p => [predKey h.u p l] | none => [])

/-- What no instruction that writes registers alone may change: every byte of memory and of the cores' own storage,
every register of the device, every other task, every job and every cell. -/
structure OnlyTask (s s' : State) (u : Nat) : Prop where
  mem : ∀ a, s'.memByte a = s.memByte a
  mailbox : s'.mailbox = s.mailbox
  hostMem : s'.hostMem = s.hostMem
  cores : ∀ c, s'.core c = s.core c
  tasks : ∀ v, v ≠ u → s'.task? v = s.task? v
  jobs : s'.jobs = s.jobs
  cells : s'.cells = s.cells
  cohorts : s'.cohorts = s.cohorts
  cregs : s'.cregs = s.cregs
  mregs : s'.mregs = s.mregs
  pregs : s'.pregs = s.pregs
  time : s'.timeNs = s.timeNs ∧ s'.clk = s.clk

/-- What an instruction without a control effect keeps of its warp: masks, width, registers allocated and counts. -/
structure SameWarp (w w' : Warp) : Prop where
  live : w'.live = w.live
  active : w'.active = w.active
  maskMap : w'.maskMap = w.maskMap
  width : w'.width = w.width
  count : w'.count = w.count
  issueIdx : w'.issueIdx = w.issueIdx

end Sys2Proof.Machine

open Sys2Proof Sys2Proof.Machine

/-- The frame of every computing instruction: beside its destination registers, the registers on which an earlier
result is still due, the flags [5:0] of FPCTL, the pc, and the barriers that SETB names or that an earlier result of
fixed latency lowers, nothing changes; flags are only set. -/
def Obligations.ComputingFrame : Prop :=
  ∀ (i : Instr) (h : Hdr) (o : Shape) (d : Nat) (s : State) (t : Task), computeOf i = some (h, o, d) →
    Acts s h t ((workLanes h (s.actLanes h t)).flatMap (s.shapeKeys t h.u o)) → s.operandsOk h t o.ops →
    t.stepping = false → t.warp.canon →
    ∃ s' t', exec i s = .next s' ∧ s'.task? t.uid = some t' ∧ t'.warp.canon ∧ OnlyTask s s' t.uid ∧ SameWarp t.warp t'.warp ∧
      (∀ k, k ∉ s.destKeys h t o → s.pendingKey t k = false → rget t'.warp k = rget t.warp k) ∧
      (∀ n, n ≠ h.hint.setb.toNat → (∀ x ∈ t.warp.inflight, x.bar ≠ some n) →
        spGet t'.warp.bars n = spGet t.warp.bars n) ∧
      t'.warp.fpctl &&& t.warp.fpctl = t.warp.fpctl ∧ t'.warp.fpctl &&& ~~~0x3F = t.warp.fpctl &&& ~~~0x3F ∧
      t'.warp.pc = s.seqPc t ∧ t'.st = t.st ∧ t'.names = t.names ∧ t'.regions = t.regions

/-- The result of a computing instruction stands in its destination once its distance has passed, whatever its stall
count is, and the results of earlier instructions to the same register never overwrite it. -/
def Obligations.ResultsArriveAfterTheirDistance : Prop :=
  ∀ (i : Instr) (h : Hdr) (o : Shape) (d : Nat) (f : Lane → Res) (s : State) (t : Task), Computes i h o d f →
    Acts s h t ((workLanes h (s.actLanes h t)).flatMap (s.shapeKeys t h.u o)) → s.operandsOk h t o.ops →
    t.stepping = false → t.warp.canon →
    ∀ op n, o.dst = some (op, n) → (∀ g, op = .g g → h.u = true) →
    ∃ s' t', exec i s = .next s' ∧ s'.task? t.uid = some t' ∧
      ∀ l ∈ workLanes h (s.actLanes h t), ∀ j k, (s.opRegs t op n l)[j]? = some k →
        rget (t'.warp.pass d) k = BitVec.ofNat 32 ((f (s.lane t h.u l)).val / 2 ^ (32 * j))

/-- A result for p7 or q7 is discarded: ISETP and FSETP with that destination change no register at all. -/
def Obligations.HardwiredPredicatesDiscard : Prop :=
  ∀ (i : Instr) (h : Hdr) (o : Shape) (d : Nat) (s : State) (t : Task), computeOf i = some (h, o, d) →
    o.dst = none → o.pdst = some 7 →
    Acts s h t ((workLanes h (s.actLanes h t)).flatMap (s.shapeKeys t h.u o)) → s.operandsOk h t o.ops →
    t.stepping = false → t.warp.canon →
    ∃ s' t', exec i s = .next s' ∧ s'.task? t.uid = some t' ∧
      (∀ k, s.pendingKey t k = false → rget t'.warp k = rget t.warp k) ∧ ∀ l, rget t'.warp (kp 7 l) = 1 ∧ rget t'.warp (kq 7) = 1

/-- An instruction that continues changes its own warp alone, and of it the pc, the results that land, the barrier it
sets, and when it may issue again: after STALL clk, or 1 (R37 to R39); that it is counted as undersized once, however
often it issued, ends with it (R41). The barrier rises where the instruction completes
later, or where its result of fixed latency has still to be written, which lowers it again. -/
def Obligations.InstructionsContinue : Prop :=
  ∀ (s s' : State) (h : Hdr) (t x : Task) (late : Bool), s'.task? t.uid = some x → x.stepping = false → x.warp.canon →
    spWf x.warp.bars = true →
    { s'.goesOn s h t late with tasks := s'.tasks } = s' ∧
    (∀ v, v ≠ t.uid → (s'.goesOn s h t late).task? v = s'.task? v) ∧
    ∃ y, (s'.goesOn s h t late).task? t.uid = some y ∧ SameWarp x.warp y.warp ∧ y.warp.canon ∧ y.warp.pc = s.seqPc t ∧ y.warp.fpctl = x.warp.fpctl ∧
      y.readyAt = s'.clk + max 1 h.hint.stall.toNat ∧ y.giveWay = h.hint.giveWay ∧
      ((∀ i ∈ x.warp.inflight, i.bar = none ∧ (i.due ≠ none ∨ late = true ∨ 4 ≤ h.hint.setb.toNat)) →
        ∀ n, spGet y.warp.bars n = spGet x.warp.bars n + if late = true ∧ n = h.hint.setb.toNat ∧ n < 4 then 1 else 0) ∧
      (∀ i, x.warp.inflight = [i] → i.due = none → late = false → h.hint.setb.toNat < 4 → ∀ d, d = max 1 h.hint.stall.toNat →
        (i.source = .pipe → i.left ≤ d → y.warp.inflight = [] ∧ ∀ n, spGet y.warp.bars n = spGet x.warp.bars n) ∧
        (d < i.left → y.warp.inflight =
            [{ i with left := i.left - d, due := some (s'.clk + i.left), bar := some h.hint.setb.toNat }] ∧
          ∀ n, spGet y.warp.bars n = spGet x.warp.bars n + if n = h.hint.setb.toNat then 1 else 0)) ∧
      (∀ k, (∀ i ∈ x.warp.inflight, ∀ w ∈ i.writes, w.at_ ≠ k) → rget y.warp k = rget x.warp k) ∧
      { y with warp := x.warp, readyAt := x.readyAt, giveWay := x.giveWay, counted := x.counted,
               skipMatch := x.skipMatch } = x

/-! ### The memory of the device -/

/-- Every step that answers a next state keeps the canonical form: of the device's memories; and of the scratchpads, the
tile banks and the arrival counters of its cores and of the contexts saved away, and of the warps' register files. -/
def Obligations.MemoryStaysCanonical : Prop :=
  (∀ s s' : State, s.memWf = true → step s = .next s' → s'.memWf = true) ∧
  ∀ s s' : State, s.unitsCanon → step s = .next s' → s'.unitsCanon

/-- At reset the memories, and what the units keep, have the canonical form. -/
def Obligations.ResetMemoryCanonical : Prop := State.reset.memWf = true ∧ State.reset.unitsCanon


/-! ### Index registers, lanes, special registers, the register count -/

namespace Sys2Proof.Machine

/-- Nothing an instruction reads is recorded or replayed: its job is in normal mode (16_system R382). -/
def State.unlogged (s : State) (t : Task) : Prop :=
  match s.job? t.job with
  | none => True
  | some j => j.rec_.mode = 0

/-- The index register that MOVX.SET, .OFF and .ADD leave (03_registers R77): x all of it, off its OFFSET alone. -/
def movxSetVal (_ v : Nat) : Nat := v % 2 ^ 30
def movxOffVal (x v : Nat) : Nat := x / 1024 * 1024 + v % 1024
def movxAddVal (x v : Nat) : Nat := x / 1024 * 1024 + (x + v) % 1024

/-- A writing form of MOVX. -/
def MovxActs (i : Hdr → XSetArgs → Instr) (old : Bool) (f : Nat → Nat → Nat) : Prop :=
  ∀ h a s t, Acts s h t ((s.actLanes h t).flatMap fun l => s.srcKeys t a.a 1 l ++ if old then [kx a.x.toNat l] else []) →
    s.operandsOk h t [(a.a, 1)] →
    exec (i h a) s = .next ((s.pushResult t 4 ((s.actLanes h t).map fun l =>
      ⟨kx a.x.toNat l, BitVec.ofNat 32 (f (s.xval t a.x l) (s.src t a.a .n32 l))⟩)).goesOn s h t)

/-- The lane that SHFL reads: the one its mode names, or its own where that lies outside the width (R78). -/
def shflReads (a : ShflArgs) (s : State) (t : Task) (l : Nat) : Nat := shflLane a.mode t.warp.width l (s.src t a.b .n32 l)

/-- The lanes a VOTE counts: the effective ones, or all of ACTIVE in the group-wide form (R79). -/
def voters (s : State) (h : Hdr) (t : Task) : List Nat := if h.u then lanesOf t.warp.active else s.effLanes t h

end Sys2Proof.Machine

open Sys2Proof Sys2Proof.Machine

/-- MOVX.SET, .OFF, .ADD and .GET. R74 gives .GET no least distance: its 4 is the model's choice (log entry 61). -/
def Sys2Proof.Machine.Rule.IndexRegistersMove : Prop :=
  MovxActs .movxSet false movxSetVal ∧ MovxActs .movxOff true movxOffVal ∧ MovxActs .movxAdd true movxAddVal ∧
  (∀ h a s t, Acts s h t ((s.actLanes h t).flatMap fun l => kx a.x.toNat l :: dstReads a.d l) →
    s.operandsOk h t [(a.d, 1)] → h.u = false →
    exec (.movxGet h a) s = .next ((s.pushResult t 4 ((s.actLanes h t).flatMap fun l =>
      s.dst t a.d 1 l (s.xval t a.x l))).goesOn s h t))

/-- SHFL gives each lane the source of the lane it reads; VOTE counts the lanes whose predicate holds; RDLANE reads one
lane of a v register, zero outside the width. -/
def Sys2Proof.Machine.Rule.LanesExchange : Prop :=
  (∀ h a s t, h.u = false →
    Acts s h t ((s.actLanes h t).flatMap fun l =>
      s.srcKeys t a.b 1 l ++ dstReads a.d l ++ s.srcKeys t a.a 1 (shflReads a s t l)) →
    (∀ l ∈ s.effLanes t h, s.opBad t a.b 1 l = none ∧ s.opBad t a.d 1 l = none ∧
      s.opBad t a.a 1 (match a.a with | .ind _ => shflReads a s t l | _ => l) = none) →
    exec (.shfl h a) s = .next ((s.pushResult t 36 ((s.effLanes t h).flatMap fun l =>
      s.dst t a.d 1 l (s.src t a.a .n32 (shflReads a s t l)))).goesOn s h t)) ∧
  (∀ h a s t, Acts s h t ((voters s h t).map (kp a.src.toNat ·)) →
    exec (.vote h a) s = .next ((s.pushResult t (if h.u then 2 else 36) (
      let held := (voters s h t).filter fun l => s.readPred t (kp a.src.toNat l) != a.neg
      let pred (p : BitVec 3) (r : Bool) : List RegWrite :=
        (workLanes h (s.actLanes h t)).map fun l => ⟨predKey h.u p l, bit32 r⟩
      match a.dst with
      | .all p => pred p (held.length == (voters s h t).length)
      | .any p => pred p (!held.isEmpty)
      | .uni p => pred p (held.isEmpty || held.length == (voters s h t).length)
      | .ballot d => s.dst t d 1 0 (maskOf held).toNat)).goesOn s h t)) ∧
  (∀ h a s t, h.u = true → Acts s h t (s.srcKeys t a.lane 1 0 ++
      if s.src t a.lane .n32 0 < t.warp.width then [kv a.v.toNat (s.src t a.lane .n32 0)] else []) →
    a.v.toNat + 1 ≤ t.warp.count →
    exec (.rdlane h a) s = .next ((s.pushResult t 2 (s.dst t a.d 1 0 (
      if s.src t a.lane .n32 0 < t.warp.width then (s.readKey t (kv a.v.toNat (s.src t a.lane .n32 0))).toNat
      else 0))).goesOn s h t))

/-- MOVX, SHFL, VOTE and RDLANE. -/
def Obligations.LanesAndIndexRegistersAct : Prop := Rule.IndexRegistersMove ∧ Rule.LanesExchange

/-- SRD writes the special register its operand names in every lane; s.time, of two registers, never runs back for a
task. Shown for tasks that record nothing. -/
def Sys2Proof.Machine.Rule.SpecialRegistersRead : Prop :=
  (∀ h a s t, Acts s h t ((workLanes h (s.actLanes h t)).flatMap (dstReads a.d ·)) → s.unlogged t → a.sr ≠ .time →
    s.operandsOk h t [(a.d, 1)] →
    exec (.srd h a) s = .next ((s.pushResult t (if h.u then 2 else 4) ((workLanes h (s.actLanes h t)).flatMap fun l =>
      s.dst t a.d 1 l (s.special t a.sr l))).goesOn s h t)) ∧
  (∀ h a s t v, Acts s h t ((workLanes h (s.actLanes h t)).flatMap (dstReads a.d ·)) → s.unlogged t → a.sr = .time →
    s.operandsOk h t [(a.d, 2)] → v = max s.timeNs.toNat t.lastTime.toNat →
    exec (.srd h a) s = .next (((s.modTask t.uid fun t => { t with lastTime := BitVec.ofNat 64 v }).pushResult t
      (if h.u then 2 else 4) ((workLanes h (s.actLanes h t)).flatMap fun l => s.dst t a.d 2 l v)).goesOn s h t)) ∧
  (∀ (s : State) (t : Task) (l : Nat), s.special t .lane l = l ∧ s.special t .task l = t.ident.toNat ∧
    s.special t .width l = t.warp.width ∧ s.special t .livemask l = t.warp.live.toNat ∧
    s.special t .activemask l = t.warp.active.toNat ∧ s.special t .regs l = t.warp.count ∧
    s.special t .core l = t.core ∧ s.special t .cause l = t.sCause.toNat ∧
    s.special t .orderkey l = (t.line[2]?.getD 0).toNat ∧ s.special t .cohort l % 8 = t.member % 8 ∧
    s.special t .faultlanes l = t.sLanes.toNat ∧ s.special t .futcause l = t.sFut.toNat)

/-- RCLAIM and RGIVE: a number of registers that is not a positive multiple of 4, a count above 640, and a give that
leaves fewer than 4 trap; a claim of a cohort's one live member is served at once where the free granules cover it,
and parks where they do not. Beside other live members a claim stands until its clk ends, when the claims of the clk
are served by order key: so the model forms R72's order (its choice, log entry 3). A give returns the highest
registers' granules, once no result is due to them, and a claim's new registers read zero. -/
def Sys2Proof.Machine.Rule.RegisterCountMoves : Prop :=
  (∀ h a s t n, Acts s h t (s.srcKeys t a.n 1 0) → s.src t a.n .n32 0 = n → n % 4 = 0 → n ≠ 0 → t.warp.count + n ≤ 640 →
    ∀ c, s.cohort? t.cohort = some c →
    (n / 4 ≤ c.free → s.claimRival t = false → exec (.rclaim h a) s = .next (((s.modCohort t.cohort fun c => { c with free := c.free - n / 4 }).modWarp
      t.uid fun w => { w with count := w.count + 4 * (n / 4),
                              v := spErase w.v (32 * w.count) (32 * (w.count + 4 * (n / 4))) }).goesOn s h t)) ∧
    (c.free < n / 4 → s.claimRival t = false → t.opened = none →
      exec (.rclaim h a) s = .next (s.parkTask t.uid (.rclaim (n / 4) (s.seqPc t) h.hint))) ∧
    (s.claimRival t = true →
      exec (.rclaim h a) s = .next (s.claimStands t.uid (.rclaim (n / 4) (s.seqPc t) h.hint)))) ∧
  (∀ h a s t n, Acts s h t (s.srcKeys t a.n 1 0) → s.src t a.n .n32 0 = n →
    n % 4 ≠ 0 ∨ n = 0 ∨ 640 < t.warp.count + n →
    exec (.rclaim h a) s = .next (s.traps t (raise0 .regGiveInvalid))) ∧
  (∀ h a s t n, Acts s h t (s.srcKeys t a.n 1 0) → s.src t a.n .n32 0 = n → n % 4 = 0 → n ≠ 0 → n + 4 ≤ t.warp.count →
    s.owesV t (t.warp.count - n) t.warp.count = false →
    exec (.rgive h a) s = .next (((s.modWarp t.uid (·.shrink n)).modCohort t.cohort fun c =>
      { c with free := c.free + n / 4 }).goesOn s h t)) ∧
  (∀ h a s t n, Acts s h t (s.srcKeys t a.n 1 0) → s.src t a.n .n32 0 = n → n % 4 = 0 → n ≠ 0 → n + 4 ≤ t.warp.count →
    s.owesV t (t.warp.count - n) t.warp.count = true → exec (.rgive h a) s = .next s) ∧
  (∀ h a s t n, Acts s h t (s.srcKeys t a.n 1 0) → s.src t a.n .n32 0 = n →
    n % 4 ≠ 0 ∨ n = 0 ∨ t.warp.count < n + 4 →
    exec (.rgive h a) s = .next (s.traps t (raise0 .regGiveInvalid)))

/-- SRD, RCLAIM and RGIVE. -/
def Obligations.SpecialRegistersAndCountsAct : Prop := Rule.SpecialRegistersRead ∧ Rule.RegisterCountMoves

/-! ### Control -/

namespace Sys2Proof.Machine

/-- A branch of task `t` may land at an address: bundle-aligned, readable code of its job, well formed, with LANDING
(02_encoding R30). -/
def State.landsAt (s : State) (t : Task) (target : BitVec 32) : Prop :=
  target.toNat % 64 = 0 ∧ ∃ j b, s.job? t.job = some j ∧ s.bundleAt t.core j target.toNat = .ok b ∧
    b.wellFormed = true ∧ b.landing = true

/-- The target of an offset: a signed number of bundles from the branching bundle (07_control R153). -/
def offTarget (t : Task) (off : BitVec 32) : BitVec 32 := BitVec.ofNat 32 (t.warp.pc.toNat / 64 * 64) + 64 * off

/-- BRA is taken (R156). -/
def taken (s : State) (h : Hdr) (t : Task) (all : Bool) : Bool :=
  if h.u then s.guardIn t h 0
  else if h.pred == 7 && !h.neg then true
  else if all then t.warp.active != 0 && decide (s.effLanes t h = lanesOf t.warp.active)
  else decide (s.effLanes t h ≠ [])

end Sys2Proof.Machine

open Sys2Proof Sys2Proof.Machine

/-- BRA is taken by its guard: group-wide, always, in some active lane, or in all of them; it goes to its target or on. -/
def Sys2Proof.Machine.Rule.BranchesGo : Prop :=
  ∀ h a s t, Issues s h t [] →
    (taken s h t a.all = true → s.landsAt t (offTarget t a.off) →
      exec (.bra h a) s = .next (s.goesTo h t (offTarget t a.off))) ∧
    (taken s h t a.all = false → exec (.bra h a) s = .next (s.goesOn s h t))

/-- BRX and RET go to the address in their source; CALL, of an offset or a source, also writes the address of the
bundle after its own. -/
def Sys2Proof.Machine.Rule.CallsAndReturnsGo : Prop :=
  (∀ h a s t p, Acts s h t (s.srcKeys t a.a 1 0) → p = BitVec.ofNat 32 (s.src t a.a .n32 0) → s.landsAt t p →
    exec (.brx h a) s = .next (s.goesTo h t p) ∧ exec (.ret h a) s = .next (s.goesTo h t p)) ∧
  (∀ h a s t, Acts s h t [] → s.landsAt t (offTarget t a.off) →
    exec (.call h a) s = .next ((s.pushResult t 2 (s.dst t a.d 1 0 (t.warp.pc.toNat / 64 * 64 + 64))).goesTo h t
      (offTarget t a.off))) ∧
  (∀ h a s t p, Acts s h t (s.srcKeys t a.a 1 0) → p = BitVec.ofNat 32 (s.src t a.a .n32 0) → s.landsAt t p →
    exec (.callX h a) s = .next ((s.pushResult t 2 (s.dst t a.d 1 0 (t.warp.pc.toNat / 64 * 64 + 64))).goesTo h t p))

/-- LOOPN counts its g register down and goes back while the count is above 1; at 1 or 0 it writes 0 and goes on. With
code 1023 for the register, it reads 0 and what it writes is discarded. -/
def Sys2Proof.Machine.Rule.LoopsCountDown : Prop :=
  ∀ h a s t n, Acts s h t (s.srcKeys t a.m 1 0) → n = s.src t a.m .n32 0 →
    (1 < n → s.landsAt t (offTarget t a.off) →
      exec (.loopn h a) s = .next ((s.pushResult t 2 (s.dst t a.m 1 0 (n - 1))).goesTo h t (offTarget t a.off))) ∧
    (n ≤ 1 → exec (.loopn h a) s = .next ((s.pushResult t 2 (s.dst t a.m 1 0 0)).goesOn s h t))

/-- A transfer that is taken to a bad target stops its instruction before any effect, with the first of R30's causes:
BRA, BRX, CALL, RET, LOOPN, SPLIT of no lane and ELSE of no lane. -/
def Sys2Proof.Machine.Rule.BadTargetsTrap : Prop :=
  ∀ (i : Instr) (h : Hdr) (s : State) (t : Task) (p : BitVec 32) (j : Job), s.job? t.job = some j →
    ((∃ a, i = .bra h a ∧ p = offTarget t a.off ∧ taken s h t a.all = true ∧ Issues s h t []) ∨
     (∃ a, i = .call h a ∧ p = offTarget t a.off ∧ Acts s h t []) ∨
     (∃ a, i ∈ [Instr.brx h a, .ret h a] ∧ p = BitVec.ofNat 32 (s.src t a.a .n32 0) ∧ Acts s h t (s.srcKeys t a.a 1 0)) ∨
     (∃ a, i = .callX h a ∧ p = BitVec.ofNat 32 (s.src t a.a .n32 0) ∧ Acts s h t (s.srcKeys t a.a 1 0)) ∨
     (∃ a, i = .loopn h a ∧ p = offTarget t a.off ∧ Acts s h t (s.srcKeys t a.m 1 0) ∧ 1 < s.src t a.m .n32 0) ∨
     (∃ a, i = .split h a ∧ p = offTarget t a.off ∧ Acts s h t ((lanesOf t.warp.active).map (kp a.p.toNat ·)) ∧
       maskOf ((lanesOf t.warp.active).filter fun l => s.readPred t (kp a.p.toNat l) != a.neg) = 0) ∨
     (∃ a, i = .elseI h a ∧ p = offTarget t a.off ∧ Acts s h t [kg (a.m.toNat + 1)] ∧
       s.readKey t (kg (a.m.toNat + 1)) &&& t.warp.live = 0)) →
    (p.toNat % 64 ≠ 0 → exec i s = .next (s.traps t (raise0 .misalignedTarget))) ∧
    (∀ b, p.toNat % 64 = 0 → s.bundleAt t.core j p.toNat = .ok b → b.wellFormed = false →
      exec i s = .next ((s.fetched t.core j p.toNat).traps t (raise0 .bundleFormat))) ∧
    (∀ b, p.toNat % 64 = 0 → s.bundleAt t.core j p.toNat = .ok b → b.wellFormed = true → b.landing = false →
      exec i s = .next (s.traps t (raise0 .landingDenied)))

/-- BRA, BRX, CALL, RET and LOOPN; and what any transfer to a bad target does. -/
def Obligations.TransfersGo : Prop :=
  Rule.BranchesGo ∧ Rule.CallsAndReturnsGo ∧ Rule.LoopsCountDown ∧ Rule.BadTargetsTrap

/-- SPLIT, ELSE and REJOIN (R148): SPLIT saves ACTIVE and the pending lanes and runs the lanes whose predicate holds, or
goes to the else part where none does; ELSE runs the pending lanes, or goes past them; REJOIN restores the saved mask.
ACTIVE is always ANDed with LIVE. -/
def Obligations.DivergenceNests : Prop :=
  (∀ h a s t set, Acts s h t ((lanesOf t.warp.active).map (kp a.p.toNat ·)) →
    set = maskOf ((lanesOf t.warp.active).filter fun l => s.readPred t (kp a.p.toNat l) != a.neg) →
    (set ≠ 0 → exec (.split h a) s = .next ((((s.pushResult t 2 [⟨kg a.m.toNat, t.warp.active⟩,
      ⟨kg (a.m.toNat + 1), t.warp.active &&& ~~~set⟩]).mark t a.m).setActive t set).goesOn s h t)) ∧
    (set = 0 → s.landsAt t (offTarget t a.off) →
      exec (.split h a) s = .next ((((s.pushResult t 2 [⟨kg a.m.toNat, t.warp.active⟩,
        ⟨kg (a.m.toNat + 1), 0⟩]).mark t a.m).setActive t t.warp.active).goesTo h t (offTarget t a.off)))) ∧
  (∀ h a s t e, Acts s h t [kg (a.m.toNat + 1)] → e = s.readKey t (kg (a.m.toNat + 1)) &&& t.warp.live →
    (e ≠ 0 → exec (.elseI h a) s =
      .next (((s.pushResult t 2 [⟨kg (a.m.toNat + 1), 0⟩]).setActive t e).goesOn s h t)) ∧
    (e = 0 → s.landsAt t (offTarget t a.off) → exec (.elseI h a) s = .next (s.goesTo h t (offTarget t a.off)))) ∧
  (∀ h a s t, Acts s h t [kg a.m.toNat] →
    exec (.rejoin h a) s = .next (((s.setActive t (s.readKey t (kg a.m.toNat))).unmark t a.m).goesOn s h t))

/-- EXIT takes its lanes (the effective ones; in the group-wide form those of ACTIVE, where its guard holds) out of LIVE,
ACTIVE and every mask-marked g register, and ends the task as TEND does with the last one; its issue waits while a result
is due to a g register. NOP has its hints alone; YIELD gives way, and is where a soft pre-emption may stop its task. -/
def Obligations.LanesExit : Prop :=
  (∀ h s t x, Issues s h t [] → s.owesG t = false →
    x = (if h.u then (if s.guardIn t h 0 then t.warp.active else 0) else maskOf (s.effLanes t h)) →
    (t.warp.live &&& ~~~x ≠ 0 →
      exec (.exitI h) s = .next ((s.modWarp t.uid fun w => w.landG.exitLanes x).goesOn s h t)) ∧
    (t.warp.live &&& ~~~x = 0 → t.opened = none → t.trapOf = none →
      exec (.exitI h) s = .next ((s.modWarp t.uid fun w => w.landG.exitLanes x).endTask t.uid)) ∧
    (∀ f, t.warp.live &&& ~~~x = 0 → t.opened = none → t.trapOf = some f →
      exec (.exitI h) s = .next (((s.modWarp t.uid fun w => w.landG.exitLanes x).endTask t.uid).escalate f)) ∧
    (t.warp.live &&& ~~~x = 0 → t.opened.isSome = true →
      exec (.exitI h) s = .next (s.traps t (raise0 .spawnBadClosure)))) ∧
  (∀ h s t, Issues s h t [] → s.owesG t = true → exec (.exitI h) s = .next s) ∧
  (∀ (w : Warp) (x : BitVec 32), (w.exitLanes x).live = w.live &&& ~~~x ∧ (w.exitLanes x).active = w.active &&& ~~~x ∧
    (spWf w.g = true → ∀ k < 128, spGet (w.exitLanes x).g k =
      if w.maskMap.getLsbD k then spGet w.g k &&& ~~~x else spGet w.g k)) ∧
  (∀ h s t, Acts s h t [] → exec (.nop h) s = .next (s.goesOn s h t)) ∧
  (∀ h s t, Acts s h t [] → exec (.yieldI h) s =
    .next (((s.goesOn s h t).modTask t.uid fun t => { t with giveWay := true }).yieldStop t.uid)) ∧
  (∀ (s : State) (t : Task), s.task? t.uid = some t → s.softStopping t = false → s.yieldStop t.uid = s)

/-! ### Tasks, futures and jobs -/

namespace Sys2Proof.Machine

/-- Task `t` runs in job `j`, which is in normal mode: nothing is recorded or replayed. -/
def State.inJob (s : State) (t : Task) (j : Job) : Prop := s.job? t.job = some j ∧ j.rec_.mode = 0

/-- A line that passes the checks of R162, of a task whose earlier accesses have performed. -/
structure MaySpawn (s : State) (t : Task) (j : Job) (l : Line) (how : Entering) : Prop where
  job : s.inJob t j
  line : s.checkLine t j l how = .ok ()
  released : s.released t = true

/-- The job has handed out streams for `n` more children. -/
def State.numbered (s : State) (j : Job) (n : Nat) : State :=
  s.modJob j.id fun j => { j with nextStream := j.nextStream + n }

/-- What JYIELD makes of its job: its admission ends early (09_jobs R205). -/
def Job.yielded (j : Job) : Job :=
  let r : JobRec := { j.rec_ with deadline := (j.rec_.deadline + j.rec_.period) % 2 ^ 64 }
  { j with remaining := j.rec_.budget, rec_ := r }

/-- A handle of a cell that is valid for the task's job and is not its own result future (R165, R181). -/
def State.names (s : State) (t : Task) (hd : BitVec 32) (c : Cell) : Prop :=
  s.validCell t.job hd = some c ∧ ownFuture t hd = false

/-- What SPAWN does with a line `l` that it has read in state `s0`, from an issue in `s`: a line that passes its checks
becomes a task, and the predicate true, where SRAM has a line free, or has one after a spill; where it has none, only the
predicate is written, false; it waits until the task's earlier accesses have performed; a line that fails a check stops
it. (`roomFor` spills where every line is taken; a spill that a fault ends has killed the job.) -/
def SpawnsLine (i : Instr) (q : BitVec 3) (h : Hdr) (s s0 : State) (t : Task) (j : Job) (l : Line) : Prop :=
  (MaySpawn s0 t j l .member → s0.sramLines t.core < 512 → s0.gone t.uid = false →
    exec i s = .next ((((s0.numbered j 1).spawnLine t l j.nextStream).putQ t q true).goesOn s h t)) ∧
  (MaySpawn s0 t j l .member → ∀ s1 room, s0.roomFor t.core = (s1, room) →
    (s1.gone t.uid = false → s1.inJob t j → room = true →
      exec i s = .next ((((s1.numbered j 1).spawnLine t l j.nextStream).putQ t q true).goesOn s h t)) ∧
    (s1.gone t.uid = false → s1.inJob t j → room = false →
      exec i s = .next ((s1.putQ t q false).goesOn s h t)) ∧
    (s1.gone t.uid = true → exec i s = .next s1)) ∧
  (s0.job? t.job = some j → s0.checkLine t j l .member = .ok () → s0.released t = false → exec i s = .next s) ∧
  (∀ c, s0.job? t.job = some j → s0.checkLine t j l .member = .error (.raise (raise0 c)) →
    exec i s = .next (s.traps t (raise0 c)))

/-- The line that SPAWN, SPAWNR and SPAWNG read from sixteen g registers. -/
def lineAt (s : State) (t : Task) (base : Nat) : Line := (List.range 16).map fun i => s.readKey t (kg (base + i))

/-- SPAWN in both forms; the template form traps where its closure lies outside the segment, or faults. -/
def Rule.SpawnsPush : Prop :=
  (∀ h a s t j, Acts s h t (gKeys a.base.toNat 16) →
    SpawnsLine (.spawn h a) a.q h s s t j (lineAt s t a.base.toNat)) ∧
  (∀ h a s t j tl, Acts s h t (gKeys a.base.toNat 13 ++ s.srcKeys t a.n 1 0) → s.job? t.job = some j →
    s.template t j (s.src t a.n .n32 0) = .ok tl →
    SpawnsLine (.spawnT h a) a.q h s (s.touchTemplate t j (s.src t a.n .n32 0)) t j
      (mergeLine tl ((List.range 13).map fun i => s.readKey t (kg (a.base.toNat + i))))) ∧
  (∀ h a s t j, Acts s h t (gKeys a.base.toNat 13 ++ s.srcKeys t a.n 1 0) → s.job? t.job = some j →
    j.rec_.closureSize / 64 ≤ s.src t a.n .n32 0 → exec (.spawnT h a) s = .next (s.traps t (raise0 .spawnBadClosure)))

/-- SPAWNR or SPAWNG traps with the cause of its line's first failed check, before a gate is looked at: R180 gives no
order between the two, and this one is the model's choice (log entry 60). -/
def TrapsOn (i : Instr) (s : State) (t : Task) (j : Job) (l : Line) : Prop :=
  ∀ c, s.job? t.job = some j → s.checkLine t j l .single = .error (.raise (raise0 c)) →
    exec i s = .next (s.traps t (raise0 c))

end Sys2Proof.Machine

open Sys2Proof Sys2Proof.Machine

/-- The checks of a closure line come in R162's order: its own fields, the number of regions, the region segment, the
cohort, the future. -/
def Sys2Proof.Machine.Rule.ClosureChecksInOrder : Prop :=
  ∀ (s : State) (t : Task) (j : Job) (l : Line) (how : Entering),
    (clShapeBad l = true → s.checkLine t j l how = throwC .spawnBadClosure) ∧
    (clShapeBad l = false → 16 < clRegions l → s.checkLine t j l how = throwC .regionTooMany) ∧
    (clShapeBad l = false → clRegions l ≤ 16 → j.rec_.regionSize < 16 * (clRlist l + clRegions l) →
      s.checkLine t j l how = throwC .spawnBadClosure) ∧
    (clShapeBad l = false → clRegions l ≤ 16 → 16 * (clRlist l + clRegions l) ≤ j.rec_.regionSize →
      s.cohortBad t l how = false → s.mayBind t (clFuture l) = false → s.checkLine t j l how = throwC .futureInvalid) ∧
    (clShapeBad l = false ↔ natBits (lineWord l 0) 30 2 = 0 ∧ natBits (lineWord l 3) 1 3 = 0 ∧
      natBits (lineWord l 4) 15 17 = 0 ∧ natBits (lineWord l 0) 26 2 ≠ 3 ∧ clCount l ≠ 0 ∧ clCount l ≤ 640)

/-- SPAWNR: a range whose indices are one deque entry; of no index, its future resolves at once; refused, it writes its
predicate false alone. SPAWNG: a task that waits for its gate; refused where the overflow area is full. Both wait until
the task's earlier accesses have performed, and trap on a line that fails a check (SPAWNG's before its gate is looked at,
the model's choice of log entry 60); SPAWNR traps in a diverged warp. Where the overflow area itself faults, SPAWNG's
end is the model's reading of log entry 31. -/
def Sys2Proof.Machine.Rule.RangesAndGatesSpawn : Prop :=
  (∀ h a s t j l n, Acts s h t (gKeys a.base.toNat 16 ++ s.srcKeys t a.n 1 0) → l = lineAt s t a.base.toNat →
    n = s.src t a.n .n32 0 → t.warp.active = t.warp.live →
    (MaySpawn s t j l .single → n = 0 ∨ s.sramLines t.core < 512 → s.gone t.uid = false →
      exec (.spawnr h a) s = .next ((((s.numbered j n).spawnRange t l n j.nextStream).putQ t a.q true).goesOn s h t)) ∧
    (MaySpawn s t j l .single → ∀ s1 room, (if n = 0 then (s, true) else s.roomFor t.core) = (s1, room) →
      (s1.gone t.uid = false → s1.inJob t j → room = true →
        exec (.spawnr h a) s = .next ((((s1.numbered j n).spawnRange t l n j.nextStream).putQ t a.q true).goesOn s h t)) ∧
      (s1.gone t.uid = false → s1.inJob t j → room = false →
        exec (.spawnr h a) s = .next ((s1.putQ t a.q false).goesOn s h t)) ∧
      (s1.gone t.uid = true → exec (.spawnr h a) s = .next s1)) ∧
    (s.job? t.job = some j → s.checkLine t j l .single = .ok () → s.released t = false →
      exec (.spawnr h a) s = .next s) ∧
    TrapsOn (.spawnr h a) s t j l) ∧
  (∀ h a s t, Acts s h t (gKeys a.base.toNat 16 ++ s.srcKeys t a.n 1 0) → t.warp.active ≠ t.warp.live →
    exec (.spawnr h a) s =
      .next (s.traps t ⟨.divergedEngineIssue, 0, t.warp.live &&& ~~~t.warp.active, 0, none⟩)) ∧
  (∀ h a s t j l gate, Acts s h t (gKeys a.base.toNat 16 ++ gKeys a.gate.toNat 2) → l = lineAt s t a.base.toNat →
    gate = s.readKey t (kg a.gate.toNat) →
    (∀ c, MaySpawn s t j l .single → s.validCell t.job gate = some c → s.areaFault t.core t.job = none →
      (s.areaLines t.core t.job < 16384 →
        exec (.spawng h a) s = .next ((((s.numbered j 1).spawnGate t l a c (s.readKey t (kg (a.gate.toNat + 1)))
          j.nextStream).putQ t a.q true).goesOn s h t)) ∧
      (16384 ≤ s.areaLines t.core t.job → exec (.spawng h a) s = .next ((s.putQ t a.q false).goesOn s h t))) ∧
    (∀ c s1, MaySpawn s t j l .single → s.validCell t.job gate = some c → s.areaFault t.core t.job = some s1 →
      exec (.spawng h a) s = .next s1) ∧
    (∀ c, s.job? t.job = some j → s.checkLine t j l .single = .ok () → s.validCell t.job gate = some c →
      s.released t = false → exec (.spawng h a) s = .next s) ∧
    (s.job? t.job = some j → s.checkLine t j l .single = .ok () → s.validCell t.job gate = none →
      exec (.spawng h a) s = .next (s.traps t (raise0 .futureInvalid))) ∧
    TrapsOn (.spawng h a) s t j l)

/-- SPAWN, SPAWNR and SPAWNG, and the order of a closure line's checks. -/
def Obligations.SpawnsAct : Prop := Rule.SpawnsPush ∧ Rule.ClosureChecksInOrder ∧ Rule.RangesAndGatesSpawn

/-- JOIN of a READY cell reads its value, is an acquire, and frees the cell unless KEEP says not; of a PENDING cell it
parks; of a BROKEN one it raises FUTURE_BROKEN with the cause in s.futcause. POLL reads as JOIN does and never parks. -/
def Sys2Proof.Machine.Rule.JoinsAndPollsRead : Prop :=
  (∀ h a s t hd c, Acts s h t (s.srcKeys t a.a 1 0) → hd = BitVec.ofNat 32 (s.src t a.a .n32 0) → s.names t hd c →
    (c.st = .ready → ∀ s1, s1 = ((s.acquire t.core (some c.from_)).putPair t a.d c.val.toNat).cellRead c.key t.uid →
      exec (.join h a) s = .next ((if a.keep then s1 else s1.cellFree c.key).goesOn s h t)) ∧
    (c.st = .pending → t.opened = none → exec (.join h a) s = .next (s.parkTask t.uid (.join (handleOf c)))) ∧
    (c.st = .broken → exec (.join h a) s = .next (((s.cellRead c.key t.uid).modTask t.uid fun t =>
      { t with sFut := c.cause.setWidth 32 }).takeTrap t.uid (raise0 .futureBroken) .precise t.warp.pc
        (pair := s.cur.mq.isSome)))) ∧
  (∀ h a s t hd c j, Acts s h t (s.srcKeys t a.a 1 0) → hd = BitVec.ofNat 32 (s.src t a.a .n32 0) → s.names t hd c →
    s.inJob t j →
    (c.st = .ready → exec (.poll h a) s = .next (((((s.acquire t.core (some c.from_)).putPair t a.d c.val.toNat).putQ t a.q
      true).cellRead c.key t.uid).goesOn s h t)) ∧
    (c.st = .pending → exec (.poll h a) s = .next ((s.putQ t a.q false).goesOn s h t)) ∧
    (c.st = .broken → exec (.poll h a) s = .next (((s.cellRead c.key t.uid).modTask t.uid fun t =>
      { t with sFut := c.cause.setWidth 32 }).takeTrap t.uid (raise0 .futureBroken) .precise t.warp.pc
        (pair := s.cur.mq.isSome)))) ∧
  (∀ h a s t b, Acts s h t (s.srcKeys t a.a 1 0) → b.a = a.a →
    s.validCell t.job (BitVec.ofNat 32 (s.src t a.a .n32 0)) = none ∨
      ownFuture t (BitVec.ofNat 32 (s.src t a.a .n32 0)) = true →
    exec (.join h a) s = .next (s.traps t (raise0 .futureInvalid)) ∧
    exec (.poll h b) s = .next (s.traps t (raise0 .futureInvalid)))

/-- FUTNEW.NEW makes a free cell of the core's die PENDING and unbound and gives its handle; FUTNEW.FREE of 0 does
nothing, of a resolved cell asks for its free, of a bound pending one traps; FULFIL resolves an unbound pending cell and
latches the value of the task's own. -/
def Sys2Proof.Machine.Rule.FuturesChange : Prop :=
  (∀ h a s t j k s1, Acts s h t [] → s.inJob t j → s.freeCell (dieOf t.core) = (some k, s1) → ∀ hd s2,
    s1.allocCell t.job k (match s1.cell? k with | some c => c.gen | none => 0) = (hd, s2) →
    exec (.futnewNew h a) s = .next (((s2.putRegs t (s2.dst t a.d 1 0 hd.toNat)).putQ t a.q true).goesOn s h t)) ∧
  (∀ h a s t j s1, Acts s h t [] → s.inJob t j → s.freeCell (dieOf t.core) = (none, s1) →
    exec (.futnewNew h a) s = .next (((s1.putRegs t (s1.dst t a.d 1 0 0)).putQ t a.q false).goesOn s h t)) ∧
  (∀ h a s t hd, Acts s h t (s.srcKeys t a.a 1 0) → hd = BitVec.ofNat 32 (s.src t a.a .n32 0) →
    (hd = 0 → exec (.futnewFree h a) s = .next (s.goesOn s h t)) ∧
    (∀ c, hd ≠ 0 → s.validCell t.job hd = some c → c.st = .ready ∨ c.st = .broken →
      exec (.futnewFree h a) s = .next ((s.cellFree c.key).goesOn s h t)) ∧
    (∀ c, hd ≠ 0 → s.validCell t.job hd = some c → c.st = .pending → c.bound ≠ .none →
      exec (.futnewFree h a) s = .next (s.traps t (raise0 .futureInvalid)))) ∧
  (∀ h a s t hd c v, Acts s h t (s.srcKeys t a.a 1 0 ++ s.srcKeys t a.b 2 0) →
    hd = BitVec.ofNat 32 (s.src t a.a .n32 0) → v = BitVec.ofNat 64 (s.src t a.b .n64 0) →
    s.validCell t.job hd = some c → c.st = .pending →
    (c.bound = .none → s.released t = true →
      exec (.fulfil h a) s = .next ((s.resolve t.uid hd (.ready v)).goesOn s h t)) ∧
    (c.bound = .none → s.released t = false → exec (.fulfil h a) s = .next s) ∧
    (c.bound = .task t.uid → c.latched = none →
      exec (.fulfil h a) s = .next ((s.setCell { c with latched := some v }).goesOn s h t)))

/-- JOIN, POLL, FUTNEW and FULFIL. -/
def Obligations.FuturesAct : Prop := Rule.JoinsAndPollsRead ∧ Rule.FuturesChange

/-- TEND ends the task, and a trap task so escalates the one that faulted; TEND.v first gives its result future the value,
discards it where the task never had one, and traps where it has handed its own over or is a child of a range that has
one; with a cohort open both trap. -/
def Sys2Proof.Machine.Rule.TasksEnd : Prop :=
  (∀ h s t, Acts s h t [] → t.opened = none → t.trapOf = none → exec (.tend h) s = .next (s.endTask t.uid)) ∧
  (∀ h s t f, Acts s h t [] → t.opened = none → t.trapOf = some f →
    exec (.tend h) s = .next ((s.endTask t.uid).escalate f)) ∧
  (∀ h s t o, Acts s h t [] → t.opened = some o → exec (.tend h) s = .next (s.traps t (raise0 .spawnBadClosure))) ∧
  (∀ h a s t s1, Acts s h t (s.srcKeys t a.a 2 0) → t.range = none ∨ clFuture t.line = 0 →
    (t.fut = 0 ∧ t.handed = false ∧ s1 = s) ∨ (∃ c, t.fut ≠ 0 ∧ s.validCell t.job t.fut = some c ∧ c.st = .pending ∧
      c.bound = .task t.uid ∧ c.latched = none ∧
      s1 = s.setCell { c with latched := some (BitVec.ofNat 64 (s.src t a.a .n64 0)) }) →
    (t.opened = none → t.trapOf = none → exec (.tendV h a) s = .next (s1.endTask t.uid)) ∧
    (∀ f, t.opened = none → t.trapOf = some f → exec (.tendV h a) s = .next ((s1.endTask t.uid).escalate f)) ∧
    (t.opened.isSome = true → exec (.tendV h a) s = .next (s.traps t (raise0 .spawnBadClosure)))) ∧
  (∀ h a s t, Acts s h t (s.srcKeys t a.a 2 0) →
    (t.range.isSome = true ∧ clFuture t.line ≠ 0) ∨ (t.fut = 0 ∧ t.handed = true) →
    exec (.tendV h a) s = .next (s.traps t (raise0 .futureInvalid)))

/-- TSELF reads a word of the task's own closure line, DEQD the job's lines in the core's deque; CVSET sets up a free
convergence register for the cohort. -/
def Sys2Proof.Machine.Rule.TaskInstructionsRead : Prop :=
  (∀ h a s t, Acts s h t [] →
    exec (.tself h a) s = .next ((s.putRegs t (s.dst t a.d 1 0 (t.line[a.w.toNat]?.getD 0).toNat)).goesOn s h t)) ∧
  (∀ h a s t j, Acts s h t [] → s.inJob t j →
    exec (.deqd h a) s = .next ((s.putRegs t (s.dst t a.d 1 0 (s.occupancy t.core t.job))).goesOn s h t)) ∧
  (∀ h a s t, Acts s h t [] → (s.core t.core).cvs.find? (·.idx == a.c.toNat) = none →
    a.n.toNat + 1 ≤ (s.liveMembers t.cohort).length →
    exec (.cvset h a) s = .next ((s.modCore t.core fun c => { c with
      cvs := ⟨a.c.toNat, a.n.toNat + 1, t.cohort, none, [], [], none⟩ :: c.cvs.filter (·.idx != a.c.toNat) }).goesOn s h t)) ∧
  (∀ h a s t, Acts s h t [] → (s.liveMembers t.cohort).length < a.n.toNat + 1 →
    exec (.cvset h a) s = .next (s.traps t (raise0 .cvMismatch)))

/-- TEND, TSELF, DEQD and CVSET. -/
def Obligations.TasksEndAndRead : Prop := Rule.TasksEnd ∧ Rule.TaskInstructionsRead

/-- JLAUNCH of a well-formed record launches a child job and gives its identifier and RESULT; at depth 16 it traps.
JWAIT reaps a retired child with its exit status, parks on one that runs, and answers false for no child. JYIELD adds
PERIOD to the job's deadline and fills its budget, and starts its soft pre-emption where an earlier job is kept waiting. -/
def Obligations.JobInstructionsAct : Prop :=
  (∀ h a s t j va, Acts s h t (gKeys a.a.toNat 2) → va = s.src t (.g a.a) .n64 0 → s.inJob t j →
    s.recordBads t va = [] → (pieces va 256).any (fun x => s.accessWaits t.core (s.ctxOf t) x.1) = false →
    s.released t = true →
    j.depth ≠ 16 → ∀ s1 s2 id res, s1 = s.touchSpan t.core (s.ctxOf t) va 256 → s1.inJob t j →
    s1.launchChild j (s1.recordBytesAt t va) none = (s2, id, res) →
    exec (.jlaunch h a) s = .next (((((if res = 1 then (s1.launchChild j (s1.recordBytesAt t va) (some id)).1 else s1).putPair
      t a.d (id.toNat + 2 ^ 32 * res)).putQ t a.q (res == 1))).goesOn s h t)) ∧
  (∀ h a s t j va, Acts s h t (gKeys a.a.toNat 2) → va = s.src t (.g a.a) .n64 0 → s.job? t.job = some j →
    s.recordBads t va = [] → j.depth = 16 → exec (.jlaunch h a) s = .next (s.traps t (raise0 .jobDepth))) ∧
  (∀ h a s t j id, Acts s h t (s.srcKeys t a.a 1 0) → id = BitVec.ofNat 32 (s.src t a.a .n32 0) → s.inJob t j →
    (∀ x s1, s.childOf t id = some x → x.st = .retired → s1 = s.acquire t.core none →
      exec (.jwait h a) s = .next ((((s1.putRegs t (s1.dst t a.d 1 0 x.exitStatus)).putQ t a.q true).reap id).goesOn
        s h t)) ∧
    (∀ x, s.childOf t id = some x → x.st ≠ .retired → t.opened = none →
      exec (.jwait h a) s = .next (s.parkTask t.uid (.jwait id))) ∧
    (s.childOf t id = none → exec (.jwait h a) s = .next ((s.putQ t a.q false).goesOn s h t))) ∧
  (∀ h s t j s1, Acts s h t [] → s.job? t.job = some j → s1 = s.modJob j.id (fun _ => j.yielded) →
    exec (.jyield h) s = .next ((if s1.pressed j.yielded then s1.softJob j.id false else s1).goesOn s h t))

/-! ### Memory -/

namespace Sys2Proof.Machine

/-- Every lane's access of `n` bytes at `addr` passes the checks of R228: its registers are allocated, its address
translates with the permission it needs, lies in regions that allow it, meets no lock and is aligned; and neither its
walk nor what it reaches lies in a protected range that is not ready (17_memsys R408). -/
def State.clean (s : State) (h : Hdr) (t : Task) (k : AccKind) (window : Bool) (n : Nat) (ops : List (Opnd × Nat))
    (addr : Nat → Nat) : Prop :=
  ∀ l ∈ workLanes h (s.actLanes h t), s.regBads t ops l = [] ∧ s.globalBads t k window n (addr l) = [] ∧
    s.accessWaits t.core (s.ctxOf t) (addr l) = false

/-- The same of an access to the scratchpad; `settled`: no line it touches is still to be filled (10_memory R226). -/
def State.cleanScratch (s : State) (h : Hdr) (t : Task) (k : ScrKind) (n : Nat) (ops : List (Opnd × Nat))
    (addr : Nat → Nat) : Prop :=
  ∀ l ∈ workLanes h (s.actLanes h t), s.regBads t ops l = [] ∧ s.scratchBads t k n (addr l) = [] ∧
    ∀ x ∈ scratchLines (addr l) n, (s.core t.core).lineSt x ≠ .pending

/-- The same of an access to the tile of a name. -/
def State.cleanTile (s : State) (h : Hdr) (t : Task) (a : TileArgs) (store : Bool) (r : HRec) : Prop :=
  s.handle t a.h.toNat [1, 2] = .ok r ∧ ∀ l ∈ workLanes h (s.actLanes h t),
    s.regBads t [(a.idx, 1), (a.d, a.ty.regs)] l = [] ∧
    s.tileBads t a.h.toNat store (tyBytes a.ty) (s.tileEa t a.idx a.off l) = []

/-- The pages of these addresses are mapped and already claimed. -/
def State.claimed (s : State) (t : Task) (addrs : List Nat) : Prop :=
  ∀ a ∈ addrs, ∃ f, s.foundLeaf t.core (s.ctxOf t) a = .ok f ∧ f.zfu = false

/-- LD or LDA. -/
def LoadActs (i : Hdr → MemArgs → Instr) (fresh : Bool) : Prop :=
  ∀ h a s t s1 ps s2 s3, Acts s h t (loadKeys h s a 2 t (s.actLanes h t)) →
    s.clean h t .load true (tyBytes a.ty) [(a.base, 2), (a.idx, 1), (a.d, a.ty.regs)] (s.ea t a.base a.idx a.off) →
    s.placeAll t (workLanes h (s.actLanes h t)) (s.ea t a.base a.idx a.off) = (s1, ps) →
    s3 = (if fresh then s2.acquire t.core none else s2) →
    (∀ vals, s1.readAll t fresh (tyBytes a.ty) ps = (s2, .ok vals) →
      exec (i h a) s = .next ((s3.pushReturn t (s3.loadWrites t a.ty a.d vals) (barOf h.hint)).goesOn s h t true)) ∧
    (∀ c va, s1.readAll t fresh (tyBytes a.ty) ps = (s2, .error (c, va)) →
      exec (i h a) s = .next (((s3.pushReturn t [] (barOf h.hint)).post t.uid c va).goesOn s h t true))

/-- ST or STRL. -/
def StoreActs (i : Hdr → MemArgs → Instr) (release : Bool) : Prop :=
  ∀ h a s t s1 ps es, Acts s h t (storeKeys h s a 2 t (s.actLanes h t)) →
    s.clean h t .store true (tyBytes a.ty) [(a.base, 2), (a.idx, 1), (a.d, a.ty.regs)] (s.ea t a.base a.idx a.off) →
    (release = true → s.released t = true) →
    s.placeAll t (workLanes h (s.actLanes h t)) (s.ea t a.base a.idx a.off) = (s1, ps) →
    es = storeEntries t.uid [] (ps.map fun p => (p.pa, bytesOf (tyBytes a.ty) (s.src t a.d a.ty p.lane))) →
    (s.storeRoom t es.length = true → exec (i h a) s =
      .next (((s1.bufferStores t h es).noteStores t.uid (storesOf (tyBytes a.ty) ps)).goesOn s h t true)) ∧
    (s.storeRoom t es.length = false → exec (i h a) s = .next s)

end Sys2Proof.Machine

open Sys2Proof Sys2Proof.Machine

/-- LD and LDA translate, read, and return the values later, held as their type says; LDA reads the owner's value and is
an acquire; data that cannot be returned posts its cause and still lowers the barrier. -/
def Sys2Proof.Machine.Rule.LoadsReturn : Prop := LoadActs .ld false ∧ LoadActs .lda true

/-- What a load reads: the task's own latest buffered store to the byte, whatever the core holds of other tasks; else, for
a task without one and a core without a copy of the line, coherent memory, but for bytes that a WRITE or WRITE_FORWARD
region covers and the task has not itself stored: those as they stood at some moment at or before the task's take (R244),
though not before their zeroing, a shootdown's completion or what an earlier load of the task has seen. Which moment is
the device's choice; that the bytes of one access share it is the model's (log entry 11). -/
def Sys2Proof.Machine.Rule.LoadsSeeStoresInOrder : Prop :=
  (∀ (s : State) (t : Task) (fresh : Bool) (pa : Nat) (e : StoreEnt) (es later : List StoreEnt) (b : Byte),
    (s.core t.core).drained ++ (s.core t.core).storeBuf = es ++ e :: later → e.owner = t.uid → e.byte pa = some b →
    (∀ x ∈ later, x.owner = t.uid → x.byte pa = none) → s.loadByte t fresh pa = b) ∧
  (∀ (s : State) (t : Task) (fresh : Bool) (lane va pa n : Nat), pa + n ≤ s.memTop →
    (∀ e ∈ (s.core t.core).drained ++ (s.core t.core).storeBuf, e.owner ≠ t.uid) →
    (∀ l ∈ (s.core t.core).l1, l.line < pa / 128 ∨ (pa + n) / 128 < l.line) →
    (fresh = true → s.loadNat t fresh lane va pa n = s.memNat pa n) ∧
    (fresh = false → ∃ k, s.priorFloor t pa n ≤ k ∧ k ≤ max t.takenAt (s.priorFloor t pa n) ∧
      s.loadNat t fresh lane va pa n = natOf ((List.range n).map fun i =>
        if t.unstored (va + i) (pa + i) then s.byteAt k (pa + i) else s.memByte (pa + i)))) ∧
  (∀ (e : StoreEnt) (pa : Nat) (bs : List Byte) (i : Nat), pa / 128 = e.line → pa % 128 + bs.length ≤ 128 →
    i < bs.length → (e.put pa bs).byte (pa + i) = some (bs[i]?.getD 0))

/-- ST and STRL put their bytes into the store buffer, one entry a line, where it has room, and wait where it has not;
STRL first waits until the task's earlier accesses have performed. -/
def Sys2Proof.Machine.Rule.StoresEnterTheBuffer : Prop :=
  StoreActs .st false ∧ StoreActs .strl true ∧
  (∀ h a s t, Acts s h t (storeKeys h s a 2 t (s.actLanes h t)) →
    s.clean h t .store true (tyBytes a.ty) [(a.base, 2), (a.idx, 1), (a.d, a.ty.regs)] (s.ea t a.base a.idx a.off) →
    s.released t = false → exec (.strl h a) s = .next s)

/-- LD and LDA, ST and STRL. -/
def Obligations.LoadsAndStoresAct : Prop := Rule.LoadsReturn ∧ Rule.StoresEnterTheBuffer

/-- A global store changes no byte of memory when it issues, no scratchpad, bank or register: its bytes stand in the
store buffer alone. -/
def Obligations.StoreIssueFrame : Prop :=
  ∀ h a s t i, i = Instr.st h a ∨ i = Instr.strl h a → Acts s h t (storeKeys h s a 2 t (s.actLanes h t)) →
    s.clean h t .store true (tyBytes a.ty) [(a.base, 2), (a.idx, 1), (a.d, a.ty.regs)] (s.ea t a.base a.idx a.off) →
    s.claimed t ((workLanes h (s.actLanes h t)).map (s.ea t a.base a.idx a.off)) → s.released t = true →
    s.storeRoom t 32 = true → t.stepping = false → t.warp.canon →
    ∃ s' t', exec i s = .next s' ∧ s'.task? t.uid = some t' ∧ (∀ x, s'.memByte x = s.memByte x) ∧
      s'.mailbox = s.mailbox ∧ s'.hostMem = s.hostMem ∧ s'.cregs = s.cregs ∧ s'.mregs = s.mregs ∧ s'.pregs = s.pregs ∧
      s'.cells = s.cells ∧ s'.jobs = s.jobs ∧
      (∀ c, (s'.core c).scratch = (s.core c).scratch ∧ (s'.core c).lines = (s.core c).lines ∧
        (s'.core c).bankW = (s.core c).bankW ∧ (s'.core c).bankA = (s.core c).bankA ∧
        (s'.core c).bankC = (s.core c).bankC ∧ (s'.core c).acnt = (s.core c).acnt) ∧
      (∀ k, s.pendingKey t k = false → rget t'.warp k = rget t.warp k) ∧ t'.warp.fpctl = t.warp.fpctl ∧
      t'.warp.active = t.warp.active ∧ t'.warp.live = t.warp.live ∧ (∀ v, v ≠ t.uid → s'.task? v = s.task? v)

/-- LDS, STS, LDT and STT: a load returns the bytes of its place; a store lays its lanes' bytes down in ascending lane
order. That a load's bytes are those at its issue, and that a store acts in the step of its issue, is the model's choice
(log entry 4; R231 says that it performs when it completes). -/
def Obligations.LocalAccessesAct : Prop :=
  (∀ h a s t, Acts s h t (loadKeys h s a 1 t (s.actLanes h t)) →
    s.cleanScratch h t .load (tyBytes a.ty) [(a.base, 1), (a.idx, 1), (a.d, a.ty.regs)] (s.scratchEa t a.base a.idx a.off) →
    exec (.lds h a) s = .next ((s.pushReturn t (s.loadWrites t a.ty a.d ((workLanes h (s.actLanes h t)).map fun l =>
      (l, natOf (spTake (s.core t.core).scratch (s.scratchEa t a.base a.idx a.off l) (tyBytes a.ty)))))
      (barOf h.hint)).goesOn s h t true)) ∧
  (∀ h a s t, Acts s h t (storeKeys h s a 1 t (s.actLanes h t)) →
    s.cleanScratch h t .store (tyBytes a.ty) [(a.base, 1), (a.idx, 1), (a.d, a.ty.regs)] (s.scratchEa t a.base a.idx a.off) →
    exec (.sts h a) s = .next ((s.modCore t.core fun c => (workLanes h (s.actLanes h t)).foldl (fun c l =>
      c.scratchPut (s.scratchEa t a.base a.idx a.off l) (bytesOf (tyBytes a.ty) (s.src t a.d a.ty l))) c).goesOn s h t)) ∧
  (∀ h a s t r, Acts s h t ((workLanes h (s.actLanes h t)).flatMap fun l => s.srcKeys t a.idx 1 l ++ dstReads a.d l) →
    s.cleanTile h t a false r →
    exec (.ldt h a) s = .next ((s.pushReturn t (s.loadWrites t a.ty a.d ((workLanes h (s.actLanes h t)).map fun l =>
      (l, natOf ((s.core t.core).tileBytes r (s.tileEa t a.idx a.off l) (tyBytes a.ty))))) (barOf h.hint)
      (some r.idx)).goesOn s h t true)) ∧
  (∀ h a s t r, Acts s h t ((workLanes h (s.actLanes h t)).flatMap fun l =>
      s.srcKeys t a.idx 1 l ++ s.srcKeys t a.d a.ty.regs l) → s.cleanTile h t a true r →
    exec (.stt h a) s = .next ((s.modCore t.core fun c => (workLanes h (s.actLanes h t)).foldl (fun c l =>
      c.tilePut r (s.tileEa t a.idx a.off l) (bytesOf (tyBytes a.ty) (s.src t a.d a.ty l))) c).goesOn s h t))

/-- A scratchpad store changes no byte but those its lanes store, and nothing else of the device but the presence of
the lines it touches; the last lane to store a byte decides it. The bytes stand there in the state that its issue
answers: the model's choice (log entry 4; R231 says when it completes). -/
def Obligations.ScratchStoreFrame : Prop :=
  ∀ h a s t n ea, Acts s h t (storeKeys h s a 1 t (s.actLanes h t)) → n = tyBytes a.ty →
    ea = s.scratchEa t a.base a.idx a.off →
    s.cleanScratch h t .store n [(a.base, 1), (a.idx, 1), (a.d, a.ty.regs)] ea →
    spWf (s.core t.core).scratch = true → t.stepping = false → t.warp.canon →
    ∃ s' t', exec (.sts h a) s = .next s' ∧ s'.task? t.uid = some t' ∧
      (∀ x, (∀ l ∈ workLanes h (s.actLanes h t), x < ea l ∨ ea l + n ≤ x) →
        spGet (s'.core t.core).scratch x = spGet (s.core t.core).scratch x) ∧
      (∀ l ls, workLanes h (s.actLanes h t) = ls ++ [l] → ∀ i < n,
        spGet (s'.core t.core).scratch (ea l + i) = BitVec.ofNat 8 (s.src t a.d a.ty l / 256 ^ i)) ∧
      spWf (s'.core t.core).scratch = true ∧ (∀ c, c ≠ t.core → s'.core c = s.core c) ∧
      (∀ x, s'.memByte x = s.memByte x) ∧ s'.mailbox = s.mailbox ∧ s'.cregs = s.cregs ∧ s'.mregs = s.mregs ∧
      s'.pregs = s.pregs ∧ (s'.core t.core).bankA = (s.core t.core).bankA ∧
      (s'.core t.core).bankC = (s.core t.core).bankC ∧ (s'.core t.core).storeBuf = (s.core t.core).storeBuf ∧
      (∀ k, s.pendingKey t k = false → rget t'.warp k = rget t.warp k) ∧ t'.warp.fpctl = t.warp.fpctl

/-- FENCE, IFENCE: they go on once what they order has performed, and wait until then; an acquire drops the copies its
core does not own, and code that IFENCE's job fetches from then on is no older than the moment. -/
def Obligations.FencesOrder : Prop :=
  (∀ h s t, Acts s h t [] → s.loadsBack t = true →
    exec (.fenceAcq h) s = .next ((s.acquire t.core none).goesOn s h t)) ∧
  (∀ h s t, Acts s h t [] → s.loadsBack t = false → exec (.fenceAcq h) s = .next s) ∧
  (∀ h s t, Acts s h t [] → s.released t = true → exec (.fenceRel h) s = .next (s.goesOn s h t)) ∧
  (∀ h s t, Acts s h t [] → s.released t = true → s.loadsBack t = true →
    exec (.fenceAcqrel h) s = .next ((s.acquire t.core none).goesOn s h t)) ∧
  (∀ h s t, Acts s h t [] → s.released t = true → exec (.ifence h) s = .next ((s.modCore t.core fun c =>
    { c with fences := alSet c.fences t.job.toNat s.hist.length }).goesOn s h t)) ∧
  (∀ i h s t, i ∈ [Instr.fenceRel h, .fenceAcqrel h, .ifence h] → Acts s h t [] → s.released t = false →
    exec i s = .next s) ∧
  (∀ h s t, Acts s h t [] → s.loadsBack t = false → exec (.fenceAcqrel h) s = .next s) ∧
  (∀ (c : Core) (l : L1Line), l ∈ (c.acquire none).l1 → l.valid = l.owned ∧ l.owned ≠ 0)

/-- WAITV goes on with the value it read, as an acquire, where the comparison holds; else it parks and its word is
watched. PRES.TEST, .SET, .CLR and .WAIT act on their lines. -/
def Obligations.WaitsAndPresence : Prop :=
  (∀ h a s t j s1 p s2 v, Acts s h t ([kg a.base.toNat, kg (a.base.toNat + 1)] ++ s.srcKeys t a.c (waitvTy a).regs 0) →
    h.u = true → s.inJob t j →
    s.clean h t .load false (tyBytes (waitvTy a)) [(a.c, (waitvTy a).regs), (a.d, (waitvTy a).regs)] (fun _ => waitvEa s t a) →
    s.placeAll t [0] (fun _ => waitvEa s t a) = (s1, [p]) → s2 = s1.unwatch t.uid → s2.inJob t j →
    (s2.readAll t true (tyBytes (waitvTy a)) [p]).2 = .ok [(0, v)] →
    (cmpNat a.cmp v (s.src t a.c (waitvTy a) 0) = true → exec (.waitv h a) s =
      .next ((((s2.noteSight t.uid (s2.sights t true (tyBytes (waitvTy a)) [p])).putRegs t
        (s2.dst t a.d (waitvTy a).regs 0 v)).acquire t.core none).goesOn s h t)) ∧
    (cmpNat a.cmp v (s.src t a.c (waitvTy a) 0) = false → t.opened = none → ∀ s3, s3 = { s2 with
      watches := s2.watches ++ [Watch.mk t.uid p.pa (tyBytes (waitvTy a)) false] } →
      exec (.waitv h a) s = .next (s3.parkTask t.uid .waitv))) ∧
  (∀ h s t o n off, off = s.src t o .n32 0 → Acts s h t (s.srcKeys t o 1 0) → off % 128 = 0 →
    off + 128 * (n.toNat + 1) ≤ 524288 → ∀ ls, ls = (List.range (n.toNat + 1)).map (off / 128 + ·) →
    (∀ d, exec (.presTest h ⟨d, o, n⟩) s = .next ((s.putRegs t (s.dst t d 1 0 (ls.foldr (fun x acc =>
      (if (s.core t.core).lineSt x = .present then 1 else 0) + 2 * acc) 0))).goesOn s h t)) ∧
    exec (.presSet h ⟨o, n⟩) s = .next ((s.modCore t.core (·.markLines .present ls)).goesOn s h t) ∧
    exec (.presClr h ⟨o, n⟩) s = .next ((s.modCore t.core (·.markLines .absent ls)).goesOn s h t) ∧
    ((∀ x ∈ ls, (s.core t.core).lineSt x = .present) → exec (.presWait h ⟨o, n⟩) s = .next (s.goesOn s h t)) ∧
    (∀ pend, pend = ls.filter (fun x => (s.core t.core).lineSt x == .pending) → pend ≠ [] →
      (∀ x ∈ ls, (s.core t.core).lineSt x ≠ .absent) → t.opened = none →
      exec (.presWait h ⟨o, n⟩) s = .next (s.parkTask t.uid (.lines pend.eraseDups))) ∧
    ((∃ x ∈ ls, (s.core t.core).lineSt x = .absent) →
      exec (.presWait h ⟨o, n⟩) s = .next (s.traps t ⟨.scratchBounds, off, 0, 0, none⟩)))

/-! ### Atomics -/

namespace Sys2Proof.Machine

/-- A global atomic's lanes are clean, no store of the task to their words is still to perform, and a release it asks
for is done (12_atomics R271, R276). -/
def State.cleanAtom (s : State) (h : Hdr) (t : Task) (k : AccKind) (n : Nat) (ops : List (Opnd × Nat))
    (addr : Nat → Nat) (rel : Bool) : Prop :=
  s.clean h t k false n ops addr ∧ (rel = true → s.released t = true) ∧
  ∀ l ∈ workLanes h (s.actLanes h t), s.ownStorePending t (s.paOf t (addr l)) n = false

/-- The registers an integer atomic reads: the third source of CAS alone. -/
def atomKeys (s : State) (h : Hdr) (t : Task) (op : AOp) (base b c d : Opnd) (k basek : Nat) : List RKey :=
  (workLanes h (s.actLanes h t)).flatMap fun l => s.srcKeys t base basek l ++ s.srcKeys t b k l ++ dstReads d l ++
    (casOps op c k).flatMap fun (c, k) => s.srcKeys t c k l

/-- What an atomic of `ty` stores over an old value (R274). -/
def atomicStore (op : AOp) (ty : Ty) (old b c : Nat) : Option Nat :=
  match op with
  | .cas => if old = b then some c else none
  | .exch => some b
  | .add => some ((old + b) % 2 ^ ty.bits)
  | .and => some (old &&& b)
  | .or => some (old ||| b)
  | .xor => some (old ^^^ b)
  | .min => some (if intLess ty (old % 2 ^ ty.bits) (b % 2 ^ ty.bits) then old else b)
  | .max => some (if intLess ty (old % 2 ^ ty.bits) (b % 2 ^ ty.bits) then b else old)

end Sys2Proof.Machine

open Sys2Proof Sys2Proof.Machine

/-- ATOM, ATOMP and ATOMS perform lane by lane in ascending order and return the old values; ATOMP stores the smaller
value and its predicate says where. Shown for tasks that record nothing and words that can be read. -/
def Sys2Proof.Machine.Rule.AtomicsPerform : Prop :=
  (∀ h a s t s1 ps f s2 rs, Acts s h t (atomKeys s h t a.op a.base a.b a.c a.d a.ty.regs 2) →
    s.cleanAtom h t .atomic (tyBytes a.ty) ([(a.base, 2), (a.b, a.ty.regs), (a.d, a.ty.regs)] ++
      casOps a.op a.c a.ty.regs) (s.atomEa t a.base a.off) a.rel →
    s.placeAll t (workLanes h (s.actLanes h t)) (s.atomEa t a.base a.off) = (s1, ps) → s1.unlogged t →
    s1.badWord t (tyBytes a.ty) ps = none →
    f = (fun l old => atomicStore a.op a.ty old (s1.src t a.b a.ty l) (s1.src t a.c a.ty l)) →
    s1.runAtoms t.core (tyBytes a.ty) false f ps = (s2, rs) → ∀ s3 s4, s3 = s2.noteStores t.uid (storesOf (tyBytes a.ty) ps) →
    s4 = (if a.acq then s3.acquire t.core none else s3) →
    exec (.atom h a) s = .next ((s4.pushReturn t (if a.d = .zero then [] else rs.flatMap fun r =>
      s3.dst t a.d a.ty.regs r.lane (holdAs a.ty r.old)) (barOf h.hint)).goesOn s h t true)) ∧
  (∀ h a s t s1 ps s2 rs, Acts s h t ((workLanes h (s.actLanes h t)).flatMap fun l =>
      s.srcKeys t a.base 2 l ++ s.srcKeys t a.b 2 l ++ dstReads a.d l) →
    s.cleanAtom h t .atomic 8 [(a.base, 2), (a.b, 2), (a.d, 2)] (s.atomEa t a.base a.off) a.rel →
    s.placeAll t (workLanes h (s.actLanes h t)) (s.atomEa t a.base a.off) = (s1, ps) → s1.unlogged t →
    s1.badWord t 8 ps = none →
    s1.runAtoms t.core 8 true (fun l old => if s1.src t a.b .n64 l < old then some (s1.src t a.b .n64 l) else none) ps =
      (s2, rs) →
    ∀ s3 s4, s3 = s2.noteStores t.uid (storesOf 8 ps) → s4 = (if a.acq then s3.acquire t.core none else s3) →
    exec (.atomp h a) s = .next ((s4.pushReturn t (rs.flatMap fun r => s3.dst t a.d 2 r.lane r.old ++
      [⟨predKey h.u a.p r.lane, bit32 r.wrote⟩]) (barOf h.hint)).goesOn s h t true)) ∧
  (∀ h a s t f c rs, Acts s h t (atomKeys s h t a.op a.base a.b a.c a.d a.ty.regs 1) →
    s.cleanScratch h t .both (tyBytes a.ty) ([(a.base, 1), (a.b, a.ty.regs), (a.d, a.ty.regs)] ++
      casOps a.op a.c a.ty.regs) (s.atomsEa t a.base a.off) → s.unlogged t →
    f = (fun l old => atomicStore a.op a.ty old (s.src t a.b a.ty l) (s.src t a.c a.ty l)) →
    (s.core t.core).runScratch (tyBytes a.ty) f ((workLanes h (s.actLanes h t)).map fun l =>
      (l, s.atomsEa t a.base a.off l)) = (c, rs) → ∀ s1, s1 = s.setCore t.core c →
    exec (.atoms h a) s = .next ((s1.pushReturn t (rs.flatMap fun r =>
      s1.dst t a.d a.ty.regs r.lane (holdAs a.ty r.old)) (barOf h.hint)).goesOn s h t true))

/-- RED hands its values to the memory-side cache; ATOMF.ADD makes one contribution a lane, with the warp's issue index,
which it raises; RSEAL folds the contributions to its words and merges the flags. -/
def Sys2Proof.Machine.Rule.ReductionsPerform : Prop :=
  (∀ h a s t s1 ps, Acts s h t ((workLanes h (s.actLanes h t)).flatMap fun l =>
      s.srcKeys t a.base 2 l ++ s.srcKeys t a.b a.ty.regs l) →
    s.cleanAtom h t .red (tyBytes a.ty) [(a.base, 2), (a.b, a.ty.regs)] (s.atomEa t a.base a.off) false →
    s.placeAll t (workLanes h (s.actLanes h t)) (s.atomEa t a.base a.off) = (s1, ps) →
    exec (.red h a) s = .next (((ps.foldl (fun s' p =>
      s'.performRed t.core p.pa a.op a.ty (s1.src t a.b a.ty p.lane)) s1).noteStores t.uid
        (storesOf (tyBytes a.ty) ps)).goesOn s h t)) ∧
  (∀ h a s t j s1 ps cs, Acts s h t ((workLanes h (s.actLanes h t)).flatMap fun l =>
      s.srcKeys t a.base 2 l ++ s.srcKeys t a.b 1 l) →
    s.cleanAtom h t .fold 4 [(a.base, 2), (a.b, 1)] (s.atomEa t a.base a.off) false → s.job? t.job = some j →
    s.placeAll t (workLanes h (s.actLanes h t)) (s.atomEa t a.base a.off) = (s1, ps) →
    cs = (ps.map fun p => t.contrib p.pa (s1.sliceOf t p.va p.pa) p.lane (s1.src t a.b .f32 p.lane)) →
    s1.contribRoom j (cs.map (·.slice)) = true → (s1.contributeAll t j cs).gone t.uid = false →
    exec (.atomf h a) s = .next ((s1.contributeAll t j cs).goesOn s h t)) ∧
  (∀ h a s t va n s1 s2 f, Acts s h t (s.srcKeys t a.base 2 0 ++ s.srcKeys t a.n 1 0) →
    va = s.atomEa t a.base a.off 0 → n = s.src t a.n .n32 0 → s.regBads t [(a.base, 2), (a.n, 1)] 0 = [] →
    s.rangeBads t .fold va n = [] → (∀ x ∈ pieces va n, s.accessWaits t.core (s.ctxOf t) x.1 = false) →
    s.released t = true →
    s1 = s.touchAll t.core (s.ctxOf t) ((pieces va n).map (·.1)) →
    s1.foldWords t.core (s1.sealedWords t va n) = (s2, f) →
    exec (.rseal h a) s = .next ((s2.orFlags t.uid f).goesOn s h t))

/-- ATOM, ATOMP and ATOMS; RED, ATOMF and RSEAL. -/
def Obligations.AtomicsAndReductionsPerform : Prop := Rule.AtomicsPerform ∧ Rule.ReductionsPerform

/-- The fold of contributions is their sum in the order of key, lane, issue index and task, one rounding each; it does
not depend on the order in which they arrived. -/
def Obligations.FoldOrderIsFixed : Prop :=
  ∀ (s s' : State) (core pa : Nat), { s with contribs := [] } = { s' with contribs := [] } →
    (s.contribs.filter (·.addr == pa)).Perm (s'.contribs.filter (·.addr == pa)) →
    ((s.contribs.filter (·.addr == pa)).map fun c => (c.key, c.lane, c.idx, c.task, c.elem)).Nodup →
    (s.foldWord core pa).2 = (s'.foldWord core pa).2 ∧
    { (s.foldWord core pa).1 with contribs := [] } = { (s'.foldWord core pa).1 with contribs := [] }

/-! ### Tiles and the engines -/

namespace Sys2Proof.Machine

/-- The four descriptor words at a g base. -/
def State.descWords (s : State) (t : Task) (base : BitVec 7) : List Nat :=
  (List.range 4).map fun i => (s.readKey t (kg (base.toNat + i))).toNat

/-- The cohort's live member of an index. -/
def State.liveMember (s : State) (t : Task) (m : Nat) (x : Task) : Prop :=
  ∃ c, s.cohort? t.cohort = some c ∧ m < c.size ∧ c.members[m]?.bind s.task? = some x ∧ x.isLive = true

/-- The registers that TSTAGE and TDRAIN read. -/
def State.stageKeys (s : State) (t : Task) (side : TSide) (addr : BitVec 7) (lay : Opnd) : List RKey :=
  s.sideKeys t side ++ gKeys addr.toNat 2 ++ s.srcKeys t lay 1 0

/-- The state of an instruction that is held at its issue: where it is for want of a descriptor, a range or a queue entry
(`full`), its warp is not eligible (13_tiles R298, R301). -/
def State.heldAt (s : State) (full : Bool) : State := if full then { s with cur := { s.cur with full := true } } else s

/-- An engine operation of `t` that the range-lock table takes now: its warp has not diverged, its stores have
performed, no signal of this clk has changed its slot, its own source and destination lie apart, and nothing holds it
(13_tiles R301, R302, R308, R311). -/
structure EngineTakes (s : State) (t : Task) (n : NewOp) : Prop where
  whole : t.warp.active = t.warp.live
  drained : s.drainedOut t = true
  unspent : (s.core t.core).slotSpent s.clk n.ringSlot = false
  apart : n.selfLocked = false
  free : (s.core t.core).opHeld n = false

/-- Instruction `i`, issued in `s` and checked in `s1`, where its layout has been read, enters the operation `n`; it is
held at its issue while the table or its own stores keep it. -/
def EntersOp (i : Instr) (h : Hdr) (s s1 : State) (t : Task) (n : NewOp) : Prop :=
  (EngineTakes s1 t n → exec i s = .next ((s1.startOp t n).goesOn s h t (0 < n.kind.total))) ∧
  (t.warp.active = t.warp.live → n.selfLocked = false → s1.drainedOut t = false → exec i s = .next s) ∧
  (t.warp.active = t.warp.live → n.selfLocked = false → s1.drainedOut t = true →
    (s1.core t.core).slotSpent s1.clk n.ringSlot = false → (s1.core t.core).opHeld n = true →
    exec i s = .next (s.heldAt ((s1.core t.core).opFull n)))

/-- What the state is once an instruction has read layout `k` of its job: its pages translated and claimed. -/
def State.reads (s : State) (t : Task) (j : Job) (k : Nat) : State := s.touchLayout t.core j k

end Sys2Proof.Machine

open Sys2Proof Sys2Proof.Machine

/-- TALLOC allocates the lowest free run (R290) and the lowest free record for a sound descriptor, or answers false; which
free record it takes is the model's choice (log entry 80). THAND hands a record to a
member of the cohort; TREL releases a name; TINFO reads its record. Shown for tasks that record nothing. -/
def Obligations.TilesChangeHands : Prop :=
  (∀ h a s t w d, Acts s h t (gKeys a.base.toNat 4) → s.unlogged t → w = s.descWords t a.base → d = descOf w →
    (∀ r, t.recOf a.h.toNat = some r → exec (.talloc h a) s = .next ((s.putQ t a.q false).goesOn s h t)) ∧
    (t.recOf a.h.toNat = none → s.descBads t w = [] →
      (∀ c r, (s.core t.core).allocTile d (d.scaleName.bind t.recOf) (d.bookName.bind t.recOf) = some (c, r) →
        exec (.talloc h a) s =
          .next ((((s.setCore t.core c).setName t.uid a.h.toNat (.mapped r)).putQ t a.q true).goesOn s h t)) ∧
      ((s.core t.core).freeRec = none ∨ (s.core t.core).freeRun d.bank d.size = none →
        exec (.talloc h a) s = .next ((s.putQ t a.q false).goesOn s h t)))) ∧
  (∀ (c c' : Core) (d : Desc) (x y : Option Nat) (r : Nat), c.allocTile d x y = some (c', r) →
    c.recUsed r = false ∧ (∀ i < r, c.recUsed i = true) ∧ ∃ n, c'.rec? r = some n ∧ n.desc = d ∧ n.st = .allocated ∧
      n.gen = ((c.rec? r).map (·.gen)).getD 0 ∧ c.runFree d.bank n.base d.size = true ∧
      (∀ b < n.base, c.runFree d.bank b d.size = false) ∧ ∀ g < d.size, zeroKey d.bank (n.base + g) ∈ c'.zeroed) ∧
  (∀ h a s t r m, Acts s h t (s.srcKeys t a.m 1 0) → s.unlogged t → s.nameRec t a.h.toNat = .ok r →
    m = s.src t a.m .n32 0 % 8 →
    (∀ x, s.liveMember t m x → x.recOf a.n.toNat = none → exec (.thand h a) s = .next
      ((((s.setName t.uid a.h.toNat .unmapped).setName x.uid a.n.toNat (.mapped r.idx)).putQ t a.q true).goesOn s h t)) ∧
    ((∀ x, s.liveMember t m x → x.recOf a.n.toNat ≠ none) →
      exec (.thand h a) s = .next ((s.putQ t a.q false).goesOn s h t))) ∧
  (∀ h a s t r, Acts s h t [] → s.nameRec t a.h.toNat = .ok r → exec (.trel h a) s =
    .next (((s.modCore t.core (·.releaseRec r.idx)).setName t.uid a.h.toNat .released).goesOn s h t)) ∧
  (∀ h a s t c, Acts s h t [] → s.nameRec t a.h.toNat = .error c →
    exec (.trel h a) s = .next (s.traps t (raise0 c)) ∧
    (c = if t.name a.h.toNat = .released then .handleReleased else .handleUnallocated)) ∧
  (∀ h a s t ws, Acts s h t [] → s.unlogged t →
    (match t.name a.h.toNat with
      | .unmapped => ws = [0, 0, 0, 0]
      | .released => ws = [0, 0, 2 ^ 30, 0]
      | .mapped r => ∃ x, (s.core t.core).rec? r = some x ∧ ws = x.words) →
    exec (.tinfo h a) s = .next ((s.putRegs t (ws.mapIdx fun i w =>
      ⟨kg (a.base.toNat + i), BitVec.ofNat 32 w⟩)).goesOn s h t))

/-- RINGDEF defines or clears a ring that is not busy: a busy ring or a bad descriptor is refused before its handles are
looked at, the model's reading (log entry 44). SLOTWAIT goes on in the state it waits for, as an acquire, and parks else;
SLOTSIG, once it has released, makes its slot FULL, or counts an EMPTY signal; a failed slot traps. -/
def Sys2Proof.Machine.Rule.RingsAndSlotsAct : Prop :=
  (∀ h a s t w, Acts s h t (gKeys a.base.toNat 4) → w = s.descWords t a.base →
    ((s.core t.core).ringBusy a.ring.toNat = true ∨ ringOf a.ring.toNat w = none →
      exec (.ringdefDef h a) s = .next ((s.putQ t a.q false).goesOn s h t)) ∧
    (∀ r, (s.core t.core).ringBusy a.ring.toNat = false → ringOf a.ring.toNat w = some r →
      (∀ x ∈ s.ringRecs t r, ∃ y, x = .ok y) →
      exec (.ringdefDef h a) s = .next (((s.modCore t.core (·.setRing a.ring.toNat (some { r with
        recs := (s.ringRecs t r).filterMap okRec }))).putQ t a.q true).goesOn s h t))) ∧
  (∀ h a s t, Acts s h t [] →
    ((s.core t.core).ringBusy a.ring.toNat = false → exec (.ringdefClr h a) s =
      .next (((s.modCore t.core (·.setRing a.ring.toNat none)).putQ t a.q true).goesOn s h t)) ∧
    ((s.core t.core).ringBusy a.ring.toNat = true →
      exec (.ringdefClr h a) s = .next ((s.putQ t a.q false).goesOn s h t))) ∧
  (∀ h a s t v r st, Acts s h t (s.srcKeys t a.slot 1 0) → v = s.src t a.slot .n32 0 → r = a.ring.toNat →
    st = (s.core t.core).slotSt r v →
    (st = .full → exec (.slotwaitFull h a) s = .next ((s.acquire t.core none).goesOn s h t)) ∧
    (st = .empty → exec (.slotwaitEmpty h a) s = .next ((s.acquire t.core none).goesOn s h t)) ∧
    (st ≠ .full → st ≠ .failed → t.opened = none →
      exec (.slotwaitFull h a) s = .next (s.parkTask t.uid (.slotWait r v .full (s.seqPc t) h.hint)) ∧
      exec (.slotsigEmpty h a) s = .next (s.parkTask t.uid (.slot r v .full))) ∧
    (st ≠ .empty → st ≠ .failed → t.opened = none →
      exec (.slotwaitEmpty h a) s = .next (s.parkTask t.uid (.slotWait r v .empty (s.seqPc t) h.hint)) ∧
      exec (.slotsigFull h a) s = .next (s.parkTask t.uid (.slot r v .empty))) ∧
    (st = .empty → s.released t = true → exec (.slotsigFull h a) s = .next ((s.modCore t.core fun c =>
      (c.setSlot r (c.slotIdx r v) .full).noteSignal s.clk r (c.slotIdx r v)).goesOn s h t)) ∧
    (st = .full → s.released t = true → exec (.slotsigEmpty h a) s = .next ((s.modCore t.core fun c =>
      (c.emptySignal r (c.slotIdx r v)).noteSignal s.clk r (c.slotIdx r v)).goesOn s h t)) ∧
    (st = .full → s.released t = false → exec (.slotsigEmpty h a) s = .next s) ∧
    (st = .failed → ∀ i ∈ [Instr.slotwaitFull h a, .slotwaitEmpty h a, .slotsigFull h a, .slotsigEmpty h a],
      exec i s = .next (s.traps t (raise0 .slotFailed)))) ∧
  (∀ (c : Core) (r k : Nat) (x : Ring) (n : Nat), c.ring? r = some x → x.states[k]? = some (.full, n) →
    (x.consumers ≤ n + 1 → ((c.emptySignal r k).ring? r).bind (·.states[k]?) = some (.empty, 0)) ∧
    (n + 1 < x.consumers → ((c.emptySignal r k).ring? r).bind (·.states[k]?) = some (.full, n + 1)))

/-- ACNT.GET reads a counter as an acquire; SET and ADD write it, modulo 2^32; WAITGE goes on, as an acquire, at a
value that is reached, and parks else. -/
def Sys2Proof.Machine.Rule.ArrivalCountersAct : Prop :=
  (∀ h a s t, Acts s h t [] → exec (.acntGet h a) s = .next (((s.putRegs t (s.dst t a.d 1 0
    (spGet (s.core t.core).acnt a.c.toNat).toNat)).acquire t.core none).goesOn s h t)) ∧
  (∀ h a s t v, Acts s h t (s.srcKeys t a.v 1 0) → v = s.src t a.v .n32 0 →
    exec (.acntSet h a) s = .next ((s.modCore t.core fun c =>
      { c with acnt := spSet c.acnt a.c.toNat (BitVec.ofNat 32 v) }).goesOn s h t) ∧
    exec (.acntAdd h a) s = .next ((s.modCore t.core fun c =>
      { c with acnt := spSet c.acnt a.c.toNat (spGet c.acnt a.c.toNat + BitVec.ofNat 32 v) }).goesOn s h t) ∧
    (v ≤ (spGet (s.core t.core).acnt a.c.toNat).toNat →
      exec (.acntWaitge h a) s = .next ((s.acquire t.core none).goesOn s h t)) ∧
    ((spGet (s.core t.core).acnt a.c.toNat).toNat < v → t.opened = none →
      exec (.acntWaitge h a) s = .next (s.parkTask t.uid (.acnt a.c.toNat v (s.seqPc t) h.hint))))

/-- RINGDEF, SLOTWAIT, SLOTSIG and ACNT. -/
def Obligations.RingsAndCountersAct : Prop := Rule.RingsAndSlotsAct ∧ Rule.ArrivalCountersAct

/-- TSTAGE, TDRAIN and TCOPY enter their operation, with its locks, where their checks pass and nothing holds it; held for
want of room, their warp is not eligible. -/
def Sys2Proof.Machine.Rule.TileCopiesIssue : Prop :=
  (∀ h a s t j k l x addr n s1, Acts s h t (s.stageKeys t a.side a.addr a.layout) → s.job? t.job = some j →
    addr = s.src t (.g a.addr) .n64 0 → k = s.src t a.layout .n32 0 → s.layoutAt t.core j k = .ok l → s1 = s.reads t j k →
    x = s.tileSide t a.side [0, 1] → x.bads = [] → x.fits l (x.stageFmt l) = [] →
    State.layoutBads t l .load addr (l.bounds addr) = [] →
    n = NewOp.mk (.stage (x.side.getD (.scratch 0)) l addr) (rangeSpan (s1.ctxOf t) (l.bounds addr)) (x.span l) (creditOf a.cr)
      (barOf h.hint) x.slot false →
    (s1.sideReady t x .empty = .ok () → EntersOp (.tstage h a) h s s1 t n) ∧
    (∀ p, s1.sideReady t x .empty = .error (.park p) → t.warp.active = t.warp.live → n.selfLocked = false →
      t.opened = none → exec (.tstage h a) s = .next (s.parkTask t.uid p))) ∧
  (∀ h a s t j k l x addr n s1, Acts s h t (s.stageKeys t a.side a.addr a.layout) → s.job? t.job = some j →
    addr = s.src t (.g a.addr) .n64 0 → k = s.src t a.layout .n32 0 → s.layoutAt t.core j k = .ok l → s1 = s.reads t j k →
    x = s.tileSide t a.side [2] → x.bads = [] → x.fits l (fun d => drainPair d.format l) = [] →
    State.layoutBads t l .store addr (l.drainBounds addr) = [] →
    n = NewOp.mk (.drain (x.side.getD (.scratch 0)) l addr a.rm a.sat) (x.drainSpan l) (rangeSpan (s1.ctxOf t) (l.drainBounds addr))
      (creditOf a.cr) (barOf h.hint) x.slot false →
    (s1.sideReady t x .full = .ok () → EntersOp (.tdrain h a) h s s1 t n) ∧
    (∀ p, s1.sideReady t x .full = .error (.park p) → t.warp.active = t.warp.live → n.selfLocked = false →
      t.opened = none → exec (.tdrain h a) s = .next (s.parkTask t.uid p))) ∧
  (∀ h a s t d c k dst n, Acts s h t (gKeys a.dst.toNat 2 ++ gKeys a.src.toNat 2 ++ s.srcKeys t a.len 1 0 ++
      (match a.node with | some o => s.srcKeys t o 1 0 | none => [])) →
    d = s.src t (.g a.dst) .n64 0 → c = s.src t (.g a.src) .n64 0 → k = s.src t a.len .n32 0 →
    dst = (if a.node.isSome then none else byteRange d k) →
    d % 16 = 0 → c % 16 = 0 → k % 16 = 0 → t.declaresRange .load (byteRange c k) = true → t.declaresRange .store dst = true →
    n = NewOp.mk (.copy d c k (a.node.map fun o => s.src t o .n32 0)) (rangeSpan (s.ctxOf t) (byteRange c k))
      (rangeSpan (s.ctxOf t) dst) (creditOf a.cr) (barOf h.hint) none false →
    EntersOp (.tcopy h a) h s s t n) ∧
  (∀ i h s t, t.warp.active ≠ t.warp.live →
    (∃ a, i = Instr.tstage h a ∧ Acts s h t (s.stageKeys t a.side a.addr a.layout)) ∨
      (∃ a, i = Instr.tdrain h a ∧ Acts s h t (s.stageKeys t a.side a.addr a.layout)) ∨
      (∃ a, i = Instr.tcopy h a ∧ Acts s h t (gKeys a.dst.toNat 2 ++ gKeys a.src.toNat 2 ++ s.srcKeys t a.len 1 0 ++
        (match a.node with | some o => s.srcKeys t o 1 0 | none => []))) →
    exec i s = .next (s.traps t ⟨.divergedEngineIssue, 0, t.warp.live &&& ~~~t.warp.active, 0, none⟩)) ∧
  (∀ (s : State) (t : Task) (n : NewOp), n.kind.total ≠ 0 → ∃ o, o.kind = n.kind ∧ o.owner = t.uid ∧ o.credited = 0 ∧
    o.total = n.kind.total ∧ o.credit = n.credit ∧ o.bar = n.bar ∧ o.paused = false ∧ o.pc = t.warp.pc ∧
    ((s.startOp t n).core t.core).ops = (s.core t.core).ops ++ [o] ∧ ((s.startOp t n).core t.core).locks =
      (s.core t.core).locks ++ n.reads.map (Lock.mk o.uid · false) ++ n.writes.map (Lock.mk o.uid · true))

/-- PSUM.CLR and .REBUILD write the summaries of their pages once the task's earlier accesses have performed; PSEL,
PGATH, GATHL and SCATL enter their operation where their checks pass and nothing holds it. That PSUM's checks cover its
whole range at once is log entry 43's reading; that the lists of PGATH, GATHL and SCATL are read at the issue, and that
PGATH asks no alignment of a summary layout, is log entry 44's (R356 reads when the operation begins). -/
def Sys2Proof.Machine.Rule.SelectionIssues : Prop :=
  (∀ h a s t j k l w addr p n i re s1, (i = Instr.psumClr h a ∧ re = false) ∨ (i = Instr.psumRebuild h a ∧ re = true) →
    Acts s h t (gKeys a.base.toNat 4 ++ s.srcKeys t a.layout 1 0) → s.job? t.job = some j →
    w = s.blockWords t a.base.toNat 4 → addr = blockAddr w → p = blockWord w 2 → n = blockWord w 3 →
    k = s.src t a.layout .n32 0 → s.layoutAt t.core j k = .ok l → s1 = s.reads t j k → l.summary = true → p + n ≤ l.size2 →
    psumBads t l addr p n re = [] → ∀ held, held = (s1.core t.core).psumHeld (psumSpans (s1.ctxOf t) l addr p n re).1
      (psumSpans (s1.ctxOf t) l addr p n re).2 →
    (s1.released t = false → exec i s = .next s) ∧
    (s1.released t = true → held = true → exec i s = .next (s.heldAt ((s1.core t.core).psumFull
      (psumSpans (s1.ctxOf t) l addr p n re).1 (psumSpans (s1.ctxOf t) l addr p n re).2))) ∧
    (s1.released t = true → held = false → ∀ s2, s1.sumPages t.core (s1.ctxOf t) t.uid l addr re
      ((List.range n).map (p + ·)) = (s2, none) → exec i s = .next (s2.goesOn s h t))) ∧
  (∀ h a s t j k l w addr list q range n s1, Acts s h t (s.srcKeys t a.list 1 0 ++ gKeys a.base.toNat 8 ++ s.srcKeys t a.layout 1 0) →
    s.job? t.job = some j → w = s.blockWords t a.base.toNat 8 → addr = blockAddr w → list = s.src t a.list .n32 0 →
    q = blockWord w 4 → k = s.src t a.layout .n32 0 → s.layoutAt t.core j k = .ok l → s1 = s.reads t j k →
    pselFits l w = true →
    range = boundsOf 512 (l.sumAddrs addr (blockWord w 2) (blockWord w 3)) →
    n = NewOp.mk (.psel list l addr (blockWord w 2) (blockWord w 3) q (blockWord w 5) (blockWord w 6))
      (rangeSpan (s1.ctxOf t) range ++ scratchSpan q (2 * l.size0)) (scratchSpan list (16 + 4 * blockWord w 3)) (creditOf a.cr)
      (barOf h.hint) none false →
    State.layoutBads t l .load addr range = [] → list % 16 = 0 → s1.sourceBads t q (2 * l.size0) = [] →
    destBads list (16 + 4 * blockWord w 3) = [] → s1.sourcePending t q (2 * l.size0) = false →
    EntersOp (.psel h a) h s s1 t n) ∧
  (∀ h a s t j k l r w addr list e m pages n s1, Acts s h t (gKeys a.base.toNat 4 ++ s.srcKeys t a.layout 1 0) →
    s.job? t.job = some j → w = s.blockWords t a.base.toNat 4 → addr = blockAddr w → list = blockWord w 2 →
    e = list + 16 + 4 * blockWord w 3 → s.handle t a.h.toNat [1] = .ok r →
    k = s.src t a.layout .n32 0 → s.layoutAt t.core j k = .ok l → s1 = s.reads t j k →
    l.size1 = 64 → l.size3 = 1 → l.w32 = false →
    r.desc.format = l.format → r.desc.block = l.block → r.desc.cols = l.size0 → r.desc.rows % 64 = 0 → list % 16 = 0 →
    m = r.desc.rows / 64 → s1.sourceBads t list 16 = [] → s1.sourceBads t e (4 * m) = [] →
    s1.sourcePending t list 16 = false → s1.sourcePending t e (4 * m) = false →
    pages = s1.listPages t.core list (blockWord w 3) m → (∀ p ∈ pages, p < l.size2) →
    t.declaresRange .load (l.pagesBounds addr pages) = true →
    n = NewOp.mk (.pgath r.idx l addr pages r.desc.rows)
      (rangeSpan (s1.ctxOf t) (l.pagesBounds addr pages) ++ scratchSpan list 16 ++ scratchSpan e (4 * m))
      (if 64 * pages.length * r.desc.pitch = 0 then [] else [.tile r.idx 0 (64 * pages.length * r.desc.pitch)]) (creditOf a.cr)
      (barOf h.hint) none false → EntersOp (.pgath h a) h s s1 t n) ∧
  (∀ h a s t w x side tile k dst n, Acts s h t (s.gsideKeys t a.side ++ gKeys a.base.toNat 4 ++ s.srcKeys t a.stride 1 0) →
    w = s.blockWords t a.base.toNat 4 → s.gatherSide t a.side = .ok (side, tile) →
    listArgs w (s.src t a.stride .n32 0) = some x → (∀ r, tile = some r → x.n * x.e ≤ r.desc.extent) →
    s.sourcePending t x.list (4 * x.n) = false → s.listBads t x .load = [] → k = OpKind.gathl side x.e (s.listAddrs t.core x) →
    (match side with
      | .scratch off => off % 128 = 0 ∧ destBads off k.total = [] ∧ dst = scratchSpan off k.total
      | .record r => dst = if k.total = 0 then [] else [.tile r 0 k.total]) →
    n = NewOp.mk k (rangeSpan (s.ctxOf t) (s.listRange t.core x) ++ scratchSpan x.list (4 * x.n)) dst (creditOf a.cr)
      (barOf h.hint) none false → EntersOp (.gathl h a) h s s t n) ∧
  (∀ h a s t w x off n, Acts s h t (s.srcKeys t a.off 1 0 ++ gKeys a.base.toNat 4 ++ s.srcKeys t a.stride 1 0) →
    off = s.src t a.off .n32 0 → w = s.blockWords t a.base.toNat 4 → listArgs w (s.src t a.stride .n32 0) = some x →
    a.mode.sizeOk x.e = true → s.sourcePending t x.list (4 * x.n) = false → s.sourcePending t off (x.n * x.e) = false →
    s.listBads t x a.mode.kind = [] → off % 128 = 0 → s.sourceBads t off (x.n * x.e) = [] →
    n = NewOp.mk (.scatl off a.mode x.e t.warp.issueIdx.toNat (s.listAddrs t.core x))
      (scratchSpan off (x.n * x.e) ++ scratchSpan x.list (4 * x.n)) (rangeSpan (s.ctxOf t) (s.listRange t.core x))
      (creditOf a.cr) (barOf h.hint) none false →
    (EngineTakes s t n → ∀ s1, s1 = (if a.mode = .plain then s.startOp t n
        else (s.startOp t n).modWarp t.uid fun w => { w with issueIdx := w.issueIdx + 1 }) →
      exec (.scatl h a) s = .next (s1.goesOn s h t (0 < n.kind.total))) ∧
    (t.warp.active = t.warp.live → n.selfLocked = false → s.drainedOut t = false → exec (.scatl h a) s = .next s) ∧
    (t.warp.active = t.warp.live → n.selfLocked = false → s.drainedOut t = true → (s.core t.core).opHeld n = true →
      exec (.scatl h a) s = .next (s.heldAt ((s.core t.core).opFull n))))

/-- TSTAGE, TDRAIN, TCOPY and the instructions of class 0xA. -/
def Obligations.EngineOperationsIssue : Prop := Rule.TileCopiesIssue ∧ Rule.SelectionIssues

/-! ### The matrix engine -/

namespace Sys2Proof.Machine

/-- What a matrix instruction issues, its parts checked against the records of its handles (14_matrix R322, R342). -/
structure MatForm where
  sign : Sign
  /-- The instruction less its header, and the operand values it reads, as signers compare them (R336). -/
  bare : Instr
  vals : List Nat
  keys : List RKey
  handles : List (Nat × List Nat)
  build : List HRec → Option MKind

/-- The registers of a product, and its two parameter words. -/
def State.mmaParts (s : State) (t : Task) (a : MmaArgs) : List RKey × List Nat × Nat :=
  (s.srcKeys t a.rows 1 0 ++ gKeys a.par.toNat 2, s.parWords t a.par.toNat 2, s.src t a.rows .n32 0)

/-- The form of each matrix instruction. -/
def matForm (s : State) (t : Task) : Instr → Option (Hdr × MatForm)
  | .mldw h a =>
    let p := s.src t a.pos .n32 0
    let row := natBits p 0 12
    let col := natBits p 12 12
    some (h, ⟨a.sg, .mldw noHdr a, [p], s.srcKeys t a.pos 1 0, [(a.h.toNat, [0])], fun rs => match rs with
      | [w] => if p < 2 ^ 24 ∧ col % 64 = 0 ∧ row + planeN w.desc.format ≤ w.desc.rows ∧
          col + planeK w.desc.format ≤ w.desc.cols then some (.mldw w.idx row col) else none
      | _ => none⟩)
  | .mflip h a => some (h, ⟨a.sg, .mflip noHdr a, [], [], [], fun _ => some .mflip⟩)
  | .mma h a =>
    let (ks, p, rows) := s.mmaParts t a
    some (h, ⟨a.sg, .mma noHdr a, rows :: p, ks, [(a.c.toNat, [2]), (a.a.toNat, [1])], fun rs => match rs with
      | [c, x] => if mmaFits p rows c x 128 = true ∧ par p 1 24 8 = 0 then some (mmaKind a p rows c x none) else none
      | _ => none⟩)
  | .mmas h a =>
    let (ks, p, rows) := s.mmaParts t a.mma
    let l1 := a.l1.toNat
    let l2 := a.l2.toNat
    some (h, ⟨a.mma.sg, .mmas noHdr a, rows :: p, ks, [(a.mma.c.toNat, [2]), (a.mma.a.toNat, [1]), (par p 1 24 6, [0])], fun rs => match rs with
      | [c, x, m] => if mmaFits p rows c x (logicalLen 128 l1 l2) = true ∧ par p 1 30 2 = 0 ∧ m.desc.format = 5 ∧
          planeN x.desc.format ≤ m.desc.rows ∧ ceilDiv (metaBits 128 l1 l2) 8 ≤ m.desc.cols then
          some (mmaKind a.mma p rows c x (some (m.idx, l1, l2))) else none
      | _ => none⟩)
  | .macz h a =>
    let f := s.src t a.first .n32 0 % 4096
    let n := s.src t a.rows .n32 0 % 8192
    some (h, ⟨a.sg, .macz noHdr a, [s.src t a.first .n32 0, s.src t a.rows .n32 0], s.srcKeys t a.first 1 0 ++ s.srcKeys t a.rows 1 0, [(a.c.toNat, [2])], fun rs => match rs with
      | [c] => if n ≤ 4096 ∧ f + n ≤ c.desc.rows then some (.macz c.idx f n) else none
      | _ => none⟩)
  | .macr h a =>
    let p := s.parWords t a.par.toNat 4
    let rows := par p 3 0 12 + 1
    let cols := par p 3 12 12 + 1
    some (h, ⟨a.sg, .macr noHdr a, p, gKeys a.par.toNat 4, [(a.c.toNat, [2]), (a.a.toNat, [1])], fun rs => match rs with
      | [c, x] => if macrFits p c rows cols = true ∧ par p 3 24 8 = 0 ∧ macrTakes p x c rows cols = true then
          some (.macr x.idx c.idx p a.rm a.sat) else none
      | _ => none⟩)
  | .macrV h a =>
    let p := s.parWords t a.par.toNat 4
    let n := par p 3 0 5 + 1
    some (h, ⟨⟨false, 0⟩, .macrV noHdr a, p, gKeys a.par.toNat 4, [(a.c.toNat, [2])], fun rs => match rs with
      | [c] => if a.d.toNat + n ≤ t.warp.count ∧ macrFits p c 1 (n * t.warp.width) = true ∧ par p 3 5 27 = 0 then
          some (.macrV a.d.toNat c.idx p a.rm a.sat) else none
      | _ => none⟩)
  | _ => none

/-- The records that the handles of a form name, each in a bank that its place admits. -/
def State.namesAll (s : State) (t : Task) (hs : List (Nat × List Nat)) (rs : List HRec) : Prop :=
  hs.map (fun x => s.handle t x.1 x.2) = rs.map Except.ok

/-- A matrix instruction of an undiverged warp whose cohort holds the lease (R330, R342). -/
structure MatMay (s : State) (h : Hdr) (t : Task) (f : MatForm) : Prop extends Acts s h t f.keys where
  whole : t.warp.active = t.warp.live
  leased : s.leased t = true

/-- What MQ hands its follower: the state at the pair's issue, and the follower's header. -/
def mqState (s : State) (t : Task) (a : MqArgs) : State :=
  { s with cur := { s.cur with
      mq := some (a.high, a.trig.map fun (c, v) => (c.toNat, s.src t v .n32 0)),
      keys := (match a.trig with | some (_, v) => s.srcKeys t v 1 0 | none => []), pre := some a } }

/-- A signing (R336): the values compared, whether the signer is the last, and whether it signs what was signed. -/
def signVals (s : State) (f : MatForm) : List Nat := f.vals ++ ((s.cur.mq.bind (·.2)).map (·.2)).toList

def signsSame (s : State) (t : Task) (f : MatForm) (r : CReg) : Prop :=
  t.uid ∉ r.signers.map (·.1) ∧
  (r.signers = [] ∨ (r.instr = some f.bare ∧ r.vals = signVals s f ∧ r.pre = s.cur.pre))

end Sys2Proof.Machine

open Sys2Proof Sys2Proof.Machine

/-- MLEASE and MLEASE.TRY get the lease where it is free for their cohort, or a new count where their cohort holds it and
no request waits: it is held with its count, and both planes are EMPTY but for the cohort that held it last. Else MLEASE
parks, behind the requests that wait, and MLEASE.TRY answers false; a holder's request gives its lease up. MREL gives it
back; MQWAIT goes on once few enough operations are left. -/
def Obligations.LeasesPass : Prop :=
  (∀ h a s t n, Acts s h t (s.srcKeys t a.a 1 0) → n = leaseCount (s.src t a.a .n32 0) →
    (s.core t.core).mx.lease.holder = none → (s.core t.core).mx.requests = [] → (s.core t.core).leaseOpen t.cohort = true →
    exec (.mlease h a) s = .next ((s.modCore t.core (·.grantLease t.cohort n)).goesOn s h t)) ∧
  (∀ h a s t n, Acts s h t (s.srcKeys t a.a 1 0) → n = leaseCount (s.src t a.a .n32 0) →
    (s.core t.core).mx.lease.holder = some t.cohort → (s.core t.core).mx.requests = [] →
    exec (.mlease h a) s = .next ((s.modCore t.core (·.modMx fun m =>
      { m with lease := { m.lease with count := n } })).goesOn s h t)) ∧
  (∀ h a s t n, Acts s h t (s.srcKeys t a.a 1 0) → n = leaseCount (s.src t a.a .n32 0) → t.opened = none →
    (s.core t.core).mx.lease.holder = some t.cohort → (s.core t.core).mx.requests ≠ [] →
    exec (.mlease h a) s = .next ((s.modCore t.core fun c => c.freeLease.modMx fun m =>
      { m with requests := m.requests ++ [(t.uid, n)] }).parkTask t.uid (.lease n (s.seqPc t) h.hint))) ∧
  (∀ h a s t n, Acts s h t (s.srcKeys t a.a 1 0) → n = leaseCount (s.src t a.a .n32 0) → t.opened = none →
    (s.core t.core).mx.lease.holder = none →
    (s.core t.core).mx.requests ≠ [] ∨ (s.core t.core).leaseOpen t.cohort = false →
    exec (.mlease h a) s = .next ((s.modCore t.core (·.modMx fun m =>
      { m with requests := m.requests ++ [(t.uid, n)] })).parkTask t.uid (.lease n (s.seqPc t) h.hint))) ∧
  (∀ h a s t n o, Acts s h t (s.srcKeys t a.a 1 0) → n = leaseCount (s.src t a.a .n32 0) → t.opened = none →
    (s.core t.core).mx.lease.holder = some o → o ≠ t.cohort →
    exec (.mlease h a) s = .next ((s.modCore t.core (·.modMx fun m =>
      { m with requests := m.requests ++ [(t.uid, n)] })).parkTask t.uid (.lease n (s.seqPc t) h.hint))) ∧
  (∀ h a s t n, Acts s h t (s.srcKeys t a.a 1 0) → s.unlogged t → n = leaseCount (s.src t a.a .n32 0) →
    ((s.core t.core).mx.lease.holder = none → (s.core t.core).mx.requests = [] →
      (s.core t.core).leaseOpen t.cohort = true →
      exec (.mleaseTry h a) s = .next (((s.modCore t.core (·.grantLease t.cohort n)).putQ t a.q true).goesOn s h t)) ∧
    (∀ o, (s.core t.core).mx.lease.holder = some o → o ≠ t.cohort → ∀ s1, s1 = s.setCore t.core (s.core t.core) →
      exec (.mleaseTry h a) s = .next ((s1.putQ t a.q false).goesOn s h t))) ∧
  (∀ (c : Core) (k n : Nat), (c.grantLease k n).mx.lease = ⟨some k, some k, n⟩ ∧
    (c.mx.lease.last ≠ some k → (c.grantLease k n).mx.active = Plane.none ∧ (c.grantLease k n).mx.shadow = Plane.none) ∧
    (c.mx.lease.last = some k → (c.grantLease k n).mx.active = c.mx.active ∧
      (c.grantLease k n).mx.shadow = c.mx.shadow)) ∧
  (∀ h s t, Acts s h t [] → exec (.mrel h) s = .next ((s.modCore t.core fun c =>
    if c.mx.lease.holder = some t.cohort then c.freeLease else c).goesOn s h t)) ∧
  (∀ h a s t n, Acts s h t (s.srcKeys t a.a 1 0) → n = s.src t a.a .n32 0 →
    (((s.core t.core).mx.ops.filter (·.owner == t.uid)).length ≤ n →
      exec (.mqwait h a) s = .next ((s.acquire t.core none).goesOn s h t)) ∧
    (n < ((s.core t.core).mx.ops.filter (·.owner == t.uid)).length → t.opened = none →
      exec (.mqwait h a) s = .next (s.parkTask t.uid (.mq n))))

/-- MLDW, MFLIP, MMA, MMAS, MACZ and MACR, unsigned, enter their queue where handles and geometry serve and nothing
holds them, and are held else; a geometry that does not serve and a missing lease trap. That K and N of a plane are
left to the admission, and that handle causes come before CV_MISMATCH, is the model's reading (log entry 45). MQ gives
its follower queue and trigger; without a follower it is ILLEGAL_OPCODE, and a follower that does not decode gives the
pair its cause. -/
def Sys2Proof.Machine.Rule.MatrixOperationsIssue : Prop :=
  (∀ i h s t f rs k, matForm s t i = some (h, f) → f.sign.sign = false → MatMay s h t f → s.namesAll t f.handles rs →
    f.build rs = some k → s.matHeld t k = false →
    exec i s = .next ((s.enqueueMat t k (barList t h.hint)).goesOn s h t true)) ∧
  (∀ i h s t f rs k, matForm s t i = some (h, f) → f.sign.sign = false → MatMay s h t f → s.namesAll t f.handles rs →
    f.build rs = some k → s.matHeld t k = true → exec i s = .next (s.heldAt (s.matFull t k))) ∧
  (∀ i h s t f rs, matForm s t i = some (h, f) → f.sign.sign = false → MatMay s h t f → s.namesAll t f.handles rs →
    (∀ h a, i ≠ .macrV h a) → f.build rs = none → exec i s = .next (s.traps t (raise0 .handleFormat))) ∧
  (∀ i h s t f, matForm s t i = some (h, f) → Acts s h t f.keys → t.warp.active = t.warp.live → s.leased t = false →
    exec i s = .next (s.traps t (raise0 .leaseViolation))) ∧
  (∀ h a s t i q, s.curTask = some t → s.follower t = .found i → q = mqState s t a →
    exec (.mq h a) s = runFollower h i q ∧
    (∀ hf f r rs k, matForm q t i = some (hf, f) → f.sign.sign = false → r = Hdr.mk h.u h.neg h.pred hf.hint →
      MatMay q r t f → q.namesAll t f.handles rs → f.build rs = some k → q.matHeld t k = false →
      exec (.mq h a) s = .next ((q.enqueueMat t k (barList t hf.hint)).goesOn q r t true))) ∧
  (∀ h a s t, s.curTask = some t →
    (s.follower t = .none →
      exec (.mq h a) s = .next (s.takeTrap t.uid (raise0 .illegalOpcode) .precise t.warp.pc)) ∧
    (∀ c, s.follower t = .bad c →
      exec (.mq h a) s = .next (s.takeTrap t.uid (raise0 c) .precise t.warp.pc (pair := true)))) ∧
  (∀ (s : State) (t : Task) (k : MKind) (bars : List (Nat × Nat)), ∃ o, o.kind = k ∧ o.owner = t.uid ∧
    o.cohort = t.cohort ∧ o.high = (s.cur.mq.map (·.1)).getD false ∧ o.trig = s.cur.mq.bind (·.2) ∧ o.admitted = false ∧
    o.done = 0 ∧ o.bars = bars ∧ ((s.enqueueMat t k bars).core t.core).mx.ops = (s.core t.core).mx.ops ++ [o] ∧
    ((s.enqueueMat t k bars).core t.core).mx.lease.count = (s.core t.core).mx.lease.count - 1)

/-- Signed issue: every signer but the last parks with its signature recorded; the last one launches the operation with
every signer's barrier, and they go on, or is held while the queue is; a signer of something else, or one that has signed,
traps, and so does a geometry that does not serve, after the causes of handles (log entry 45). A name that no signer maps
yet waits for a later one. -/
def Sys2Proof.Machine.Rule.SignedIssueMeets : Prop :=
  ∀ (i : Instr) (h : Hdr) (s : State) (t : Task) (f : MatForm) (r : CReg) (rs : List (Option HRec)),
    matForm s t i = some (h, f) → f.sign.sign = true → MatMay s h t f →
    (s.core t.core).cv? f.sign.cv.toNat = some r → r.count ≠ 0 → r.owner = t.cohort →
    f.handles.map (fun x => s.signedRec t (r.signers.map (·.1)) (decide (r.count ≤ r.signers.length + 1)) x.1 x.2) =
      rs.map Except.ok →
    (∀ recs, rs = recs.map some → f.build recs = none → exec i s = .next (s.traps t (raise0 .handleFormat))) ∧
    (none ∈ rs ∨ (∃ recs k, rs = recs.map some ∧ f.build recs = some k) →
      (¬ signsSame s t f r → exec i s = .next (s.traps t (raise0 .cvMismatch))) ∧
      (signsSame s t f r → r.signers.length + 1 < r.count → t.opened = none → exec i s = .next ((s.modCore t.core (·.setCv
        { r with instr := some f.bare, vals := signVals s f, pre := s.cur.pre,
                 signers := r.signers ++ [(t.uid, barOf h.hint)] })).parkTask t.uid
          (.sign f.sign.cv.toNat (s.seqPc t) h.hint)))) ∧
    (∀ recs k, rs = recs.map some → f.build recs = some k → signsSame s t f r → r.count ≤ r.signers.length + 1 →
      (s.matHeld t k = true → exec i s = .next (s.heldAt (s.matFull t k))) ∧
      (s.matHeld t k = false → ∀ s1 s2 bars,
        bars = (r.signers.filterMap fun (u, b) => b.map fun b => (u, b)) ++ barList t h.hint →
        s1 = (s.enqueueMat t k bars).modCore t.core (fun c => { c with cvs := c.cvs.filter (·.idx != f.sign.cv.toNat) }) →
        s2 = r.signers.foldl State.signerGoes s1 → exec i s = .next (s2.goesOn s h t true)))

/-- The matrix operations, alone and signed by a cohort. -/
def Obligations.MatrixInstructionsIssue : Prop := Rule.MatrixOperationsIssue ∧ Rule.SignedIssueMeets

/-! ### Traps and the system instructions -/

namespace Sys2Proof.Machine

/-- The frame that a stop writes. -/
def stopFrame (r : Raise) (kind : Kind) (pc : BitVec 32) (pair opaddr : Bool) (code : Nat) : FrameArgs :=
  ⟨r.cause, kind, r.faddr, r.lanes, pc, none, 0xFFFFFFFF, pair, opaddr, code⟩

/-- A task as a cause `r` stops it: its saved pc, and what its own s.cause, s.faultlanes and s.futcause read from then on
(08_tasks R170, 16_system R367). -/
def stoppedBy (t : Task) (r : Raise) (pc : BitVec 32) : Task :=
  { t with warp := { t.warp with pc := pc }, counted := false, sCause := BitVec.ofNat 32 r.cause.code, sLanes := r.lanes,
           sFut := if r.cause = .futureBroken then t.sFut else 0 }

/-- The number at an offset of a frame. -/
def frameNat (bs : List Byte) (off n : Nat) : Nat := natOf ((bs.drop off).take n)

/-- The registers of a warp hold what their width admits (03_registers R58, R60). -/
structure Warp.fits (w : Warp) : Prop where
  x : ∀ k, (spGet w.x k).toNat < 2 ^ 30
  p : ∀ k, spGet w.p k = 0 ∨ spGet w.p k = 1
  q : ∀ k, spGet w.q k = 0 ∨ spGet w.q k = 1
  count : 32 * w.count ≤ 20480 ∧ w.count % 4 = 0
  width : w.width ≤ 32

/-- The next instruction of a stopped task is the one after a precise cause's (R369). -/
def State.skipPc (s : State) (t : Task) (x : Stop) : BitVec 32 :=
  if x.kind = .precise then s.afterPc t t.warp.pc x.pair else t.warp.pc

/-- The warp that a stopped task goes on with: the frame's fields, for the registers it held at the stop, and over them
the flags and results that its operations gave meanwhile (14_matrix R327, R343). -/
def restored (t : Task) (x : Stop) (bs : List Byte) : Warp :=
  let w := { restoreWarp { t.warp with count := x.count } bs with count := t.warp.count }
  putWrites { w with fpctl := w.fpctl ||| x.flags } x.writes

/-- Where a system register takes a written value, and which of its bits (16_system R386, 02_encoding R41). -/
def plainRegs : List (Nat × BitVec 64) :=
  [(0x010, bitsMask 0 8), (0x011, bitsMask 0 9), (0x030, bitsMask 0 32), (0x032, bitsMask 0 32), (0x038, bitsMask 0 16),
   (0x039, bitsMask 0 5), (0x03D, bitsMask 12 36), (0x040, bitsMask 21 27), (0x04F, bitsMask 21 27), (0x050, bitsMask 0 32),
   (0x001, 1), (0x060, bitsMask 0 64), (0x067, bitsMask 0 64), (0x068, wpMask), (0x06B, wpMask)]

end Sys2Proof.Machine

open Sys2Proof Sys2Proof.Machine

/-- What taking a trap does: the warp is saved into a frame of its job's save area, its task PARKED with the saved pc,
and a trap task built at TRAP_ENTRY, 32 lanes wide with 4 registers, its g registers as R367 lists them. Memory changes by
the frame's bytes alone: that the 8 KiB behind them keep theirs is the model's choice (log entry 14). Shown for a task
without a debugger, in a job with room in its save area. -/
def Obligations.TrapsSaveAndEnter : Prop :=
  ∀ (s : State) (u : Nat) (r : Raise) (kind : Kind) (pc : BitVec 32) (pair opaddr : Bool) (code : Nat) (s0 s1 s2 : State)
    (t x : Task) (j : Job) (frame : Nat),
    s0 = s.landAll u → s0.task? u = some t → t.st = .running → t.park = none → t.saveAt = none → t.trapOf = none →
    t.stepping = false → s0.job? t.job = some j → j.rec_.trapEntry < 2 ^ 26 → field s.cregs.dbgCtl 0 32 = 0 → r.latch = none →
    s0.savePlace j t.core (saveBytes t.warp.count) = (some frame, s1) →
    x = stoppedBy t r pc →
    s1.vwrite t.core j.rec_.ctx frame (frameBytes s1 x (stopFrame r kind pc pair opaddr code)) needRW = .ok s2 →
    ∀ s', s' = s.takeTrap u r kind pc (pair := pair) (opaddr := opaddr) (code := code) →
    (∀ a, s'.memByte a = s2.memByte a) ∧
    (∃ y, s'.task? u = some { x with
        st := .parked, slot := none, saved := true, inPool := false, stop := some y
        saveAt := some (frame, saveBytes t.warp.count) } ∧ y.cause = r.cause ∧ y.kind = kind ∧
      y.frame = some frame ∧ y.halted = false ∧ y.escalated = false) ∧
    ∃ tt, s'.tasks.getLast? = some tt ∧ tt.trapOf = some u ∧ tt.st = .runnable ∧ tt.job = t.job ∧ tt.core = t.core ∧
      clEntry tt.line = 64 * j.rec_.trapEntry ∧ clWidth tt.line = 32 ∧ clCount tt.line = 4 ∧ clRegions tt.line = 0 ∧
      tt.regions = [] ∧ tt.fut = 0 ∧ natBit (lineWord tt.line 0) 28 = true ∧ clKey tt.line = clKey t.line ∧
      clSize tt.line = 1 ∧ lineWord tt.line 5 + 2 ^ 32 * lineWord tt.line 6 = frame % 2 ^ 64 ∧
      lineWord tt.line 7 = r.cause.code ∧ lineWord tt.line 8 = kind.code ∧ lineWord tt.line 9 = t.ident.toNat ∧
      (∀ i, 10 ≤ i → lineWord tt.line i = 0) ∧ tt.sCause.toNat = r.cause.code ∧ tt.sLanes = r.lanes ∧ tt.sFut = x.sFut

/-- The layout of a trap frame, every field of R368 at its offset, and that the fields RESUME reads back restore the
registers they were saved from. -/
def Obligations.FramesSaveAndRestore : Prop :=
  ∀ (s : State) (t : Task) (a : FrameArgs) (bs : List Byte), t.warp.fits → bs = frameBytes s t a →
    bs.length = 0x700 + 128 * t.warp.count ∧ frameNat bs 0 1 = a.cause.code ∧ frameNat bs 1 1 = a.kind.code ∧
    frameNat bs 2 2 = a.op.isSome.toNat + 2 * a.pair.toNat + 4 * a.opaddr.toNat ∧ frameNat bs 4 4 = t.ident.toNat ∧ frameNat bs 8 4 = a.lanes.toNat ∧ frameNat bs 0x0C 4 = a.pc.toNat ∧
    frameNat bs 0x10 8 = a.faddr % 2 ^ 64 ∧ frameNat bs 0x18 4 = clKey t.line ∧
    frameNat bs 0x1C 4 = t.warp.fpctl.toNat ∧ frameNat bs 0x20 4 = t.warp.live.toNat ∧
    frameNat bs 0x24 4 = t.warp.active.toNat ∧ frameNat bs 0x28 16 = t.warp.maskMap.toNat ∧
    (∀ n < 32, natBit (frameNat bs 0x38 4) n = (decide (n < 7) && (spGet t.warp.q n).getLsbD 0)) ∧
    (∀ n < 4, natBits (frameNat bs 0x3C 4) (6 * n) 6 = (spGet t.warp.bars n).toNat) ∧
    (∀ n < 7, ∀ l < 32, natBit (frameNat bs (0x40 + 4 * n) 4) l = (spGet t.warp.p (32 * n + l)).getLsbD 0) ∧
    natBits (frameNat bs 0x5C 4) 0 8 = t.warp.width ∧ natBits (frameNat bs 0x5C 4) 8 8 = t.warp.count / 4 ∧
    frameNat bs 0x60 4 = t.warp.issueIdx.toNat ∧ frameNat bs 0x64 4 = t.sFut.toNat ∧
    frameNat bs 0x68 4 = a.opref % 2 ^ 32 ∧ frameNat bs 0x6C 4 = t.core % 2 ^ 32 ∧
    frameNat bs 0x70 8 = s.timeNs.toNat ∧ frameNat bs 0x78 4 = a.code % 2 ^ 32 ∧ (∀ i < 132, bs[0x7C + i]? = some 0) ∧
    (∀ k < 128, frameNat bs (0x100 + 4 * k) 4 = (spGet t.warp.g k).toNat) ∧
    (∀ n < 8, ∀ l < 32, frameNat bs (0x300 + 128 * n + 4 * l) 4 = (spGet t.warp.x (32 * n + l)).toNat) ∧
    (∀ n < t.warp.count, ∀ l < 32, frameNat bs (0x700 + 128 * n + 4 * l) 4 = (spGet t.warp.v (32 * n + l)).toNat) ∧
    ∀ w, w = restoreWarp t.warp bs →
      (∀ k < 128, spGet w.g k = spGet t.warp.g k) ∧
      (∀ n < t.warp.count, ∀ l < t.warp.width, spGet w.v (32 * n + l) = spGet t.warp.v (32 * n + l)) ∧
      (∀ n < 8, ∀ l < t.warp.width, spGet w.x (32 * n + l) = spGet t.warp.x (32 * n + l)) ∧
      (∀ n < 7, ∀ l < t.warp.width, spGet w.p (32 * n + l) = spGet t.warp.p (32 * n + l)) ∧
      (∀ n < 7, spGet w.q n = spGet t.warp.q n) ∧ w.fpctl = t.warp.fpctl &&& 0x3F3F ∧
      w.canon ∧ w.pc = t.warp.pc ∧ w.live = t.warp.live ∧ w.active = t.warp.active

/-- TRAP and BKPT stop after the instruction; TRET and TKILL wait for a release, end the trap task, and resume, skip,
escalate or kill the task that faulted; resuming reads the frame back, and lays over it the flags and results that the
task's operations gave meanwhile: the model's reading (log entry 55). -/
def Obligations.TrapInstructionsAct : Prop :=
  (∀ h a s t, Acts s h t [] →
    exec (.trap h a) s = .next (s.takeTrap t.uid (raise0 .trapInstr) .after (s.seqPc t) (code := a.code.toNat)) ∧
    exec (.bkpt h a) s = .next (s.takeTrap t.uid (raise0 .breakpoint) .after (s.seqPc t) (code := a.code.toNat))) ∧
  (∀ h s t u s1, Acts s h t [] → t.opened = none → s.released t = true → t.trapOf = some u →
    s1 = (s.endTask t.uid).modTask u (fun x => { x with trapPos := t.logPos }) →
    exec (.tretResume h) s = .next (s1.returnFrom u .resume) ∧ exec (.tretSkip h) s = .next (s1.returnFrom u .skip) ∧
    exec (.tretEscalate h) s = .next (s1.escalate u) ∧ exec (.tkill h) s = .next (s1.killStopped u)) ∧
  (∀ i h s t, Acts s h t [] → t.opened = none → s.released t = false →
    i ∈ [Instr.tretResume h, .tretSkip h, .tretEscalate h, .tkill h] → exec i s = .next s) ∧
  (∀ (s : State) (u f : Nat) (t : Task) (x : Stop) (j : Job) (bs : List Byte), s.task? u = some t → t.stop = some x →
    x.op = none → x.budget = false → x.frame = some f → t.killedBy = none → t.st = .parked → t.park = none → t.slot = none →
    s.job? t.job = some j → s.vread t.core j.rec_.ctx f (0x700 + 128 * x.count) needRW = .ok bs →
    (∃ y, (s.returnFrom u .resume).task? u = some y ∧ y.stop = none ∧ y.st = .runnable ∧
      y.warp = restored t x bs ∧ (y.skipMatch = true ↔ x.kind = .precise)) ∧
    ∃ y, (s.returnFrom u .skip).task? u = some y ∧ y.stop = none ∧ y.st = .runnable ∧ y.skipMatch = false ∧
      y.warp = { restored t x bs with pc := s.skipPc t x }) ∧
  (∀ (s : State) (u : Nat) (t : Task) (x : Stop), s.task? u = some t → t.stop = some x → x.budget = false →
    s.killStopped u = s.killTask u x.cause)

/-- SWR writes and reads a system register; a plain one reads back its writable bits. TIME never runs back for a task;
DBGSIG posts a record where the mailbox has room, once the task's earlier accesses have performed; CTXSAVE and CTXLOAD
command a context and answer whether they could; a task that pre-empts its own context completes when that runs again.
-/
def Obligations.SystemInstructionsAct : Prop :=
  (∀ h a s t c, Acts s h t (s.srcKeys t a.data 2 0 ++ s.srcKeys t a.core 1 0) → c = s.swrCore t a → s.swrBad t a = false →
    s.released t = true → exec (.swrWrite h a) s =
      .next ((s.writeSwr c a.reg.toNat (BitVec.ofNat 64 (s.src t a.data .n64 0))).goesOn s h t)) ∧
  (∀ h a s t c, Acts s h t (s.srcKeys t a.core 1 0) → c = s.swrCore t a →
    (s.swrBad t a = false → exec (.swrRead h a) s =
      .next ((s.putPair t a.data (s.readSwr c a.reg.toNat).toNat).goesOn s h t)) ∧
    (s.swrBad t a = true → exec (.swrRead h a) s = .next (s.traps t (raise0 .reservedField)))) ∧
  (∀ (s : State) (c : Nat) (v : BitVec 64), spWf s.cregs.imageBase = true → spWf (s.core c).regs.bp = true →
    spWf (s.core c).regs.wp = true → ∀ x ∈ plainRegs, ((s.writeSwr c x.1 v).readSwr c x.1) = v &&& x.2) ∧
  (∀ h a s t v, Acts s h t [] → s.unlogged t → v = max s.timeNs.toNat t.lastTime.toNat →
    ∀ n, n = BitVec.ofNat 64 v →
    exec (.time h a) s = .next (((s.modTask t.uid fun t => { t with lastTime := n }).putPair t a.d v).goesOn s h t)) ∧
  (∀ h a s t v, Acts s h t (s.srcKeys t a.a 1 0) → s.unlogged t → v = s.src t a.a .n32 0 →
    (s.mailboxFull = false → s.released t = false → exec (.dbgsig h a) s = .next s) ∧
    (s.mailboxFull = false → s.released t = true → exec (.dbgsig h a) s = .next (((s.mailboxPost fun seq =>
      recordBytes 5 0 t.core t.job t.ident t.warp.pc t.warp.active 0 v s.timeNs seq).putQ t a.q true).goesOn s h t)) ∧
    (s.mailboxFull = true → exec (.dbgsig h a) s = .next ((s.putQ t a.q false).goesOn s h t))) ∧
  (∀ h a s t c, Acts s h t (s.srcKeys t a.a 1 0) → s.src t a.a .n32 0 = c → c < 16 →
    ((s.ctx c).st ≠ .running → exec (.ctxsave h a) s = .next (((s.ctxResult false).putQ t a.q false).goesOn s h t)) ∧
    (∀ s1, s.preempt c = some s1 → c ≠ s.ctxOf t →
      exec (.ctxsave h a) s = .next (((s1.ctxResult true).putQ t a.q true).goesOn s h t)) ∧
    (∀ s1, s.preempt c = some s1 → c = s.ctxOf t → t.opened = none → exec (.ctxsave h a) s =
      .next ((((s1.ctxResult true).putQ t a.q true).finish t.uid h.hint (s.seqPc t) false).parkTask t.uid .ctxLoad)) ∧
    ((s.ctx c).st ≠ .saved → (s.ctx c).st ≠ .waiting →
      exec (.ctxload h a) s = .next (((s.ctxResult false).putQ t a.q false).goesOn s h t)) ∧
    (∀ s1, (s.ctx c).st = .saved → s.occupied = true → s1 = { s with cregs := { s.cregs with next := BitVec.ofNat 64 (16 + c) } } →
      exec (.ctxload h a) s = .next (((s1.ctxResult true).putQ t a.q true).goesOn s h t))) ∧
  (∀ i h a s t, i ∈ [Instr.ctxsave h a, .ctxload h a] → Acts s h t (s.srcKeys t a.a 1 0) → 16 ≤ s.src t a.a .n32 0 →
    exec i s = .next (s.traps t (raise0 .reservedField)))

/-! ### What the device does by itself -/

namespace Sys2Proof.Machine

/-- What a result leaves: the registers written that its request brings, but for those a later instruction has written
(R37), and its barrier one lower (R38). -/
def State.landReturn (s : State) (r : Return) : State :=
  let s := s.modWarp r.task (·.landOf fun i => i.source == .request r.uid)
  match r.bar with
  | some b => s.dropBar r.task b
  | none => s

/-- The acknowledgement of a drained entry: its bytes perform, its barriers fall, its owner owes one less (R230). -/
def State.ackEntry (s : State) (core : Nat) (e : StoreEnt) : State :=
  let s := (runsOf e.cells).foldl (fun s x => s.perform (some core) x.1 x.2) s
  (e.tokens.foldl (fun s id => s.spendToken core id) s).modTask e.owner fun t => { t with unacked := t.unacked - 1 }

/-- A state after at most one choice of the device. -/
def State.chose (s s1 : State) : Prop := s1 = s ∨ ∃ p l, s.picks = p :: l ∧ s1 = { s with picks := l }

/-- A task that stands READY in the task list. -/
def State.hasTask (s : State) (u : Nat) (t : Task) : Prop := s.task? u = some t

end Sys2Proof.Machine

open Sys2Proof Sys2Proof.Machine

/-- Returning results write their registers and lower their barrier; where their slot has gone on they are dropped,
and counted where they would have written registers; starving warps are marked; posted causes are taken in order;
entries drain and are acknowledged; watched warps wake; lines leave the memory-side cache; walks and claims fill. -/
def Obligations.CoreUnitsDeliver : Prop :=
  (∀ s core i r s1, (s.core core).returns[i]? = some r →
    s1 = s.modCore core (fun c => { c with returns := c.returns.eraseIdx i }) →
    (spGet (s.core core).gens r.slot = r.gen → exec (.registerResultReturn core i) s = .next (s1.landReturn r)) ∧
    (spGet (s.core core).gens r.slot ≠ r.gen →
      exec (.registerResultReturn core i) s = .next (if r.regs then s1.modCore core (·.countDropped) else s1))) ∧
  (∀ s core slot t, s.inSlot core slot = some t → t.starves = true →
    exec (.warpStarving core slot) s = .next (s.setTask { t with starving := true })) ∧
  (∀ t : Task, 64 ≤ t.waitCount → t.isStarving = true ∧ (t.starves = !t.starving)) ∧
  (∀ s u t p ps s1, s.hasTask u t → s.takesPosted t = true → t.posted = p :: ps → s1 = s.setTask { t with posted := ps } →
    exec (.postedCauseTaken u) s = .next (s1.takeTrap t.uid ⟨p.cause, p.faddr, 0, 0, none⟩ .posted t.warp.pc p.op
      (opaddr := p.opaddr))) ∧
  (∀ s core, s.drainable core ≠ [] → ∃ i e s1, i ∈ s.drainable core ∧ (s.core core).storeBuf[i]? = some e ∧ s.chose s1 ∧
    exec (.storeBufferDrain core) s = .next ((s1.modCore core fun c =>
      { c with storeBuf := c.storeBuf.eraseIdx i, drained := c.drained ++ [e] }).modTask e.owner fun t =>
        { t with unacked := t.unacked + 1 })) ∧
  (∀ s core, s.ackable core ≠ [] → ∃ i e s1, i ∈ s.ackable core ∧ (s.core core).drained[i]? = some e ∧ s.chose s1 ∧
    exec (.storeAck core) s = .next ((s1.modCore core fun c => { c with drained := c.drained.eraseIdx i }).ackEntry core e)) ∧
  (∀ s u t, s.hasTask u t → s.wakesNow t = true → exec (.waitvWake u) s = .next ((s.unwatch u).wake u)) ∧
  (∀ s i e, s.msc[i]? = some e → exec (.mscEvict i) s = .next (s.mscEvict e.line) ∧
    ∀ x ∈ (s.mscEvict e.line).msc, x.line ≠ e.line) ∧
  (∀ s core ctx va, exec (.pageWalk core ctx va) s = .next (s.touch core ctx va)) ∧
  (∀ s core ctx va f, s.foundLeaf core ctx va = .ok f → f.zfu = true →
    exec (.zfuClaim core ctx va) s = .next (s.touch core ctx va))

/-- A performed write reads back at its addresses and nowhere else, and keeps memory's canonical form, whatever bytes no
one has written yet; shown where the memory-side caches have room for its lines and hold no reduction that is still
pending on one of them. -/
def Sys2Proof.Machine.Rule.PerformedWritesRead : Prop :=
  ∀ (s : State) (core : Option Nat) (pa : Nat) (bs : List Byte), spWf s.hbm = true → s.placeOf pa = .hbm →
    s.msc.length + (linesOf pa bs.length).length ≤ mscLimit →
    (∀ e ∈ s.msc, pa / 64 ≤ e.line → 64 * e.line < pa + bs.length →
      (∀ x ∈ e.words, ∃ m d, x.2 = .bytes m d) ∧ ∀ a, a / 64 = e.line → openByte s.openBytes a = none) →
    ∀ s', s' = s.perform core pa bs →
    (∀ a, s'.memByte a = if pa ≤ a ∧ a < pa + bs.length then bs[a - pa]?.getD 0 else s.memByte a) ∧
    spWf s'.hbm = true ∧ s'.tasks = s.tasks ∧ s'.jobs = s.jobs ∧ s'.mailbox = s.mailbox ∧ s'.cregs = s.cregs ∧
    ∀ w ∈ s'.watches, w.addr < pa + bs.length → pa < w.addr + w.bytes → w.hit = true

/-- What a load sees, and what a performed write leaves. -/
def Obligations.MemoryReadsWhatWasWritten : Prop := Rule.LoadsSeeStoresInOrder ∧ Rule.PerformedWritesRead

/-- A take places the first entry that may go, once in a clk; a staged task that nothing holds becomes RUNNABLE, held or
not before; a slot is granted to the first in order; a spinning warp expires and moves; edge actions end a task; a quiet
core is gated; and the rounds of stealing begin, are answered by a grant or a refusal, arrive and back off. -/
def Obligations.TasksMoveThroughCores : Prop :=
  (∀ s core s1, s.mayTake core = true → s.takeable core = some s1 →
    exec (.taskTake core) s = .next ((s1.ranked core rankTake).modCore core fun c => { c with lastTake := some s1.clk })) ∧
  (∀ s u t s1, s.hasTask u t → s.stagedAll t = true → s.heldNow t = false →
    s1 = s.setTask { t with st := .runnable, everRunnable := true, runnableAt := s.clk } →
    (t.everHeld = false → exec (.stagingComplete u) s = .next s1) ∧
    (t.everHeld = true → exec (.regionHoldReexamine u) s = .next s1)) ∧
  (∀ s core t slots, s.awake core = true → s.nextGrant core = some (t, slots) → slots ≠ [] → ∃ k s1, k ∈ slots ∧
    s.chose s1 ∧ exec (.slotGrant core) s = .next (s1.grantTo t k)) ∧
  (∀ s u t, s.hasTask u t → s.spins t = true → t.spinExpired = false →
    exec (.spinExpired u) s = .next (s.setTask { t with spinExpired := true })) ∧
  (∀ s core t s0 s1 x, s.spinVictim core = some t → s0 = s.modCore core (fun c => { c with lastSpin := some s.clk }) →
    s1 = s0.moveOut t.uid → s1.task? t.uid = some x → x.slot = none →
    x.killedBy = none → exec (.spinMove core) s = .next ((s1.unwatch t.uid).setTask
      { x with st := .runnable, park := none, spinExpired := false, runnableAt := s1.clk })) ∧
  (∀ s u t, s.hasTask u t → s.edgesDone t = true →
    exec (.edgeActionsComplete u) s = .next ((s.forwardLinesOf t).reachDone u)) ∧
  (∀ s core, s.quiet core = true → exec (.clockGate core) s = .next (s.modCore core fun c => { c with gated := true })) ∧
  (∀ s core, s.agentFree core = true →
    (s.crossDue core = false → exec (.stealRound core) s = .next (s.modCore core (·.modAgent fun a =>
      { a with probing := localRound core, cross := false }))) ∧
    (s.crossDue core = true → exec (.crossDieRound core) s = .next (s.modCore core (·.modAgent fun a =>
      { a with probing := crossRound s.part (dieOf core), cross := true })))) ∧
  (∀ s core e, (s.core core).agent.backoff = some e → e ≤ s.clk →
    exec (.stealBackoffExpiry core) s = .next (s.modCore core (·.modAgent fun a => { a with backoff := none }))) ∧
  (∀ s victim thief, s.probed thief = some victim → s.late victim (rankSteal thief) = false → s.idle thief = false →
    exec (.stealProbeAnswer victim thief) s = .next (s.modCore thief (·.modAgent fun a => { a with probing := [] }))) ∧
  (∀ s victim thief, s.probed thief = some victim → s.late victim (rankSteal thief) = false → s.idle thief = true →
    (s.offered victim thief (s.core thief).agent.cross = none →
      exec (.stealProbeAnswer victim thief) s = .next (s.probeRefused victim thief)) ∧
    (∀ i e, s.offered victim thief (s.core thief).agent.cross = some (i, e) →
      i < (s.core victim).deque.length ∨ s.areaFault victim e.job = none →
      exec (.stealProbeAnswer victim thief) s = .next (s.stealGrant victim thief i e)) ∧
    (∀ i e s1, s.offered victim thief (s.core thief).agent.cross = some (i, e) → (s.core victim).deque.length ≤ i →
      s.areaFault victim e.job = some s1 → exec (.stealProbeAnswer victim thief) s = .next s1)) ∧
  (∀ s core e us es, (s.core core).agent.arriving = e :: es →
    us = (match e with | .group _ ms => ms | .range _ _ _ _ => []) → ∀ s1,
    s1 = s.modCore core (·.modAgent fun a => { a with arriving := es, failed := 0 }) → exec (.stealArrival core) s =
      .next (us.foldl (fun s u => s.modTask u fun t => { t with st := .staging, core := core, runnableAt := s.clk }) s1))

namespace Sys2Proof.Machine

/-- A task gives its slot up; one that ran waits for another, RUNNABLE (09_jobs R196). -/
def State.leavesSlot (s : State) (u : Nat) : State := (s.moveOut u).modTask u fun x =>
  if x.slot.isNone && x.st == .running then { x with st := .runnable, runnableAt := s.clk } else x

end Sys2Proof.Machine

open Sys2Proof Sys2Proof.Machine

/-- JOB_LAUNCH starts a launch, or is an overrun; its completion gives RESULT 1 and the identifier of a queued job, 2
where the queue is full, or 3 for a record that is not good (3 also where the record lies outside HBM, in a protected
range or in a line that cannot be read: the model's choice, log entry 62, where R190 does not say), and is event 1;
JOB_RETIRED reads the oldest record; the queue admits; the first job waits 1 ms at most; a spent budget stops its job; a
job whose tasks are done and children retired retires. -/
def Obligations.JobsComeAndGo : Prop :=
  (∀ s sys v x, sys < s.part.sysCores → s.sysSet sys = x →
    (x.pendingAddr = none → exec (.jobLaunch sys v) s = .next (s.setSys sys
      { x with status := setField x.status 3 1 1, pendingAddr := some (64 * field v 6 42) })) ∧
    (∀ a, x.pendingAddr = some a →
      exec (.jobLaunch sys v) s = .next (s.setSys sys { x with status := setField x.status 4 1 1 }))) ∧
  (∀ s sys x pa, s.sysSet sys = x → x.pendingAddr = some pa → s.launchReady pa = true →
    ((s.launchRecord pa).bind s.goodRecord = none → exec (.jobLaunchComplete sys) s = .next ((s.setSys sys
      { x with pendingAddr := none, status := setField (setField x.status 3 1 0) 0 3 3 }).irq 1)) ∧
    (∀ r, (s.launchRecord pa).bind s.goodRecord = some r → s.queueFull = true →
      exec (.jobLaunchComplete sys) s = .next ((s.setSys sys
        { x with pendingAddr := none, status := setField (setField x.status 3 1 0) 0 3 2 }).irq 1)) ∧
    (∀ r l st, (s.launchRecord pa).bind s.goodRecord = some (r, l) → s.queueFull = false →
      st = setField (setField (setField x.status 3 1 0) 0 3 1) 32 32 s.rootId.toNat → ∀ s1,
      s1 = (({ s with lastRootId := s.rootId }).touchRoot r).enqueue (newJob s.rootId r l none 1 sys) →
      exec (.jobLaunchComplete sys) s = .next ((s1.setSys sys { x with pendingAddr := none, status := st }).irq 1))) ∧
  (∀ s sys x, s.sysSet sys = x →
    (x.retired = [] → exec (.jobRetiredRead sys) s = .next { s with readData := 0 }) ∧
    (∀ r rs, x.retired = r :: rs → ∃ s1, exec (.jobRetiredRead sys) s = .next s1 ∧
      s1.readData = (if x.overflow then setField r 30 1 1 else r) ∧
      s1.jobs = s.jobs.filter (·.id != BitVec.ofNat 32 (field r 32 32)))) ∧
  (∀ s j js, s.considered = j :: js → s.admissible j = true → s.pushLate j = false → j.image = true →
    exec (.jobAdmit j.id) s = .next (s.modJob j.id fun x =>
      { x with st := if x.rootDone then .retiring else .active, remaining := x.rec_.budget, image := false,
               budgetStop := false })) ∧
  (∀ s j js s1, s.considered = j :: js → s.admissible j = true → s.pushLate j = false → j.image = false →
    s.roomFor j.firstCore = (s1, true) → (s1.job? j.id).isSome = true → exec (.jobAdmit j.id) s = .next (s1.admitJob j)) ∧
  (∀ s, s.waitOver = true → exec .admissionWaitLimit s = .next
    { s with stuck := (s.firstJob.map (·.1)).toList ++ s.stuck }) ∧
  (∀ s j t s1 s2, s.job? j.id = some j → s.budgetOut j = true → s.budgetVictim j.id = some t →
    s1 = s.modJob j.id (fun j => { j with budgetStop := true }) →
    s2 = s1.takeTrap t.uid (raise0 .budgetExhausted) .precise t.warp.pc (pair := s1.atPair t) (budget := true) →
    exec (.budgetExhausted j.id) s = .next ((s2.tasks.filter fun x =>
      x.job == j.id && x.slot.isSome && x.uid != t.uid).foldl (fun s x => s.leavesSlot x.uid) s2)) ∧
  (∀ s j, s.job? j.id = some j → s.mayRetire j = true →
    exec (.jobRetire j.id) s = .next ((s.retireJob j).settleCtx j.rec_.ctx))

/-- A segment of an engine operation performs and is credited, or is sent; one that faults pauses its operation and
posts the cause; a remote one is credited at its acknowledgement, or times out; records without users free; segments
from other devices are written and acknowledged, or refused. -/
def Sys2Proof.Machine.Rule.EnginesAdvance : Prop :=
  (∀ s core u o t, s.opOf core u = some (o, t) → s.opMoves t o = true →
    (∀ d, s.nextSeg core t o = .ok d →
      (o.node = none → exec (.engineSegmentComplete core u) s = .next (d.s.creditSeg core o d)) ∧
      (o.node ≠ none → exec (.engineSegmentComplete core u) s =
        .next (d.s.modCore core (·.modOp o.uid fun o => { o with sent := true })))) ∧
    (∀ va x, s.nextSeg core t o = .error (.fault va x) →
      exec (.engineSegmentFault core u) s = .next (s.pauseOp core t o .copyFault va x)) ∧
    (∀ va, s.nextSeg core t o = .error (.unreachable va) →
      exec (.engineSegmentFault core u) s = .next (s.pauseOp core t o .remoteUnreachable va none))) ∧
  (∀ s core u o t, s.opOf core u = some (o, t) → o.sent = true →
    exec (.remoteSegmentAck core u) s = .next (s.creditSeg core o ⟨s, 0, []⟩) ∧
    exec (.remoteAckTimeout core u) s = .next (s.pauseOp core t o .remoteUnreachable o.farAddr none)) ∧
  (∀ s core r x, (s.core core).rec? r = some x → (s.core core).recFreeable x = true →
    exec (.handleRecordFree core r) s =
      .next (s.modCore core fun c => c.putRec ⟨r, Desc.none, .free, x.gen + 1, 0, none, none⟩)) ∧
  (∀ s off data pa, pa = field s.pregs.rxBase 16 32 * 65536 + off →
    (s.memReady = true → off + data.length ≤ field s.pregs.rxSize 16 32 * 65536 → s.closed pa data.length = false →
      exec (.herricSegmentReceive off data) s = .next ((s.perform none pa data).out (.ack true))) ∧
    (s.memReady = false ∨ field s.pregs.rxSize 16 32 * 65536 < off + data.length ∨ s.closed pa data.length = true →
      exec (.herricSegmentReceive off data) s = .next (s.out (.ack false)))) ∧
  (∀ (o : EngOp), o.credited * 512 < o.total → o.bytes = 512 * o.credited ∧
    (o.atLast = true ↔ o.total ≤ 512 * (o.credited + 1)))

/-- The lease goes to the first request; a ready head is admitted; a DYN product takes its next 8 rows; an operation
that its predecessors let go runs its rows, up to a step that the device chooses, or to their end, and completes; planes a
dead cohort left behind are EMPTY. That a turn may end after a number of steps of 8 rows is the model's own way to let a
kill or a save find an operation begun (log entries 12 and 45); the spec names no such step for an operation without DYN. -/
def Sys2Proof.Machine.Rule.MatrixEngineAdvances : Prop :=
  (∀ s core u n rest t k next hint s1, (s.core core).mx.requests = (u, n) :: rest → s.task? u = some t →
    (s.core core).leaseOpen t.cohort = true → t.park = some (.lease k next hint) →
    s1 = s.modCore core (fun c => (c.grantLease t.cohort n).modMx fun m => { m with requests := rest }) →
    exec (.leaseGrant core) s = .next (s1.parkDone u next hint)) ∧
  (∀ s core o, (s.core core).nextAdmit = some o → s.unitsRun o.owner = true →
    exec (.queueAdmit core) s = .next (s.admitMat core o)) ∧
  (∀ s core o c a rows ar cr kc nc cnt dyn sp hi fin, s.dynOp core = some o →
    o.kind = .mma c a rows ar cr kc nc cnt dyn sp → (s.core core).dynNext o cnt rows = some (hi, fin) →
    exec (.mmaDynStep core) s = .next (s.runRows core o hi fin)) ∧
  (∀ s core o, (s.core core).mx.ops.find? (·.uid == o.uid) = some o → s.matGoes core o = true →
    s.unitsRun o.owner = true → o.kind = .mflip → o.done = 0 → o.fin = false →
    ∃ s1, exec (.matrixOpComplete core o.uid) s = .next s1 ∧ (s1.core core).mx.active = (s.core core).mx.shadow ∧
      (s1.core core).mx.shadow = (s.core core).mx.active ∧ ∀ x ∈ (s1.core core).mx.ops, x.uid ≠ o.uid) ∧
  (∀ s core o rows, (s.core core).mx.ops.find? (·.uid == o.uid) = some o → s.matGoes core o = true →
    s.unitsRun o.owner = true → o.dynWaits = false → rows = (if o.fin then o.done else o.kind.rows) → ∃ s0 k, s.chose s0 ∧
    k ≤ ceilDiv (rows - o.done) 8 ∧ ∀ s1, s1 = s0.runRows core o (if k = 0 then rows else
      o.done + 8 * (ceilDiv (rows - o.done) 8 - k)) o.fin →
    (k ≠ 0 → exec (.matrixOpComplete core o.uid) s = .next s1) ∧
    (k = 0 → ∀ s2 f flags, s1.matFinish core o = (s2, f) →
      flags = (((s2.core core).mx.ops.find? (·.uid == o.uid)).map (·.flags)).getD 0 →
      exec (.matrixOpComplete core o.uid) s = .next (s2.matDone core o (flags ||| f)))) ∧
  (∀ s core, s.planesDone core = true → exec (.planesEmptyAtCohortEnd core) s = .next (s.modCore core (·.modMx fun m =>
    { m with active := Plane.none, shadow := Plane.none, lease := { m.lease with last := none } })))

/-- The copy engines and the matrix engine by themselves. -/
def Obligations.EnginesMakeProgress : Prop := Rule.EnginesAdvance ∧ Rule.MatrixEngineAdvances

/-- What a context becomes when its save completes, at an address and with the number of its bytes' free values: SAVED,
with each core's part as it stood (R372, R373). -/
def Sys2Proof.Machine.State.savedAs (s : State) (x : Ctx) (base key : Nat) : Ctx :=
  { x with st := .saved, gang := false, image := (0, (s.core 0).part) :: (partsOf s.cores).filter (·.1 != 0)
           imageAt := base, imageOk := true, imageKey := key }

/-- The contexts' commands: PREEMPT, HARDSAVE, KILL, LOAD, DROP, of a context in a state that admits them; REQUEUE and
KILL of a job; in a FREE context, and of no job, they answer 2. A drain, of a context or of a requeued job, ends when its
warps have left or its time is over; a save keeps each core's part of the context and empties the cores; a load restores
them or, where the check of what stands in memory fails, kills; a gang switch is armed, drains and comes due. What the
check finds is the model's reading (log entry 41, deduced from R373): it holds exactly where the very bytes that were
saved stand at CTX_IMAGE_BASE and can be read. -/
def Sys2Proof.Machine.Rule.ContextsAreCommanded : Prop :=
  (∀ s id c, c = id.toNat → c < 16 →
    (∀ s1, s.preempt c = some s1 → exec (.ctxCmdPreempt id) s = .next (s1.ctxResult true)) ∧
    ((s.ctx c).st = .running → s.saveRoom = true → exec (.ctxCmdHardsave id) s = .next ((s.beginHard c).ctxResult true)) ∧
    ((s.ctx c).st ≠ .free → exec (.ctxCmdKill id) s = .next ((s.killCtx c).ctxResult true)) ∧
    (∀ s1, s.loadCtx c = some s1 → exec (.ctxCmdLoad id) s = .next (s1.ctxResult true)) ∧
    ((s.ctx c).st = .saved ∨ (s.ctx c).st = .waiting →
      exec (.ctxCmdDrop id) s = .next ((s.clearCtx c).nextOnFree.ctxResult true)) ∧
    ((s.ctx c).st = .free → ∀ i ∈ [Instr.ctxCmdPreempt id, .ctxCmdHardsave id, .ctxCmdKill id, .ctxCmdLoad id,
      .ctxCmdDrop id], exec i s = .next (s.ctxResult false)) ∧
    ((s.ctx c).st = .saved → s.occupied = false → ∃ s1, s.loadCtx c = some s1 ∧ (s1.ctx c).st = .loading)) ∧
  (∀ s id, s.job? id = none → exec (.ctxCmdRequeueJob id) s = .next (s.ctxResult false) ∧
    exec (.ctxCmdKillJob id) s = .next (s.ctxResult false)) ∧
  (∀ s id j, s.job? id = some j →
    (j.holds = true → j.killed = none → (s.ctx j.rec_.ctx).st = .running → j.requeueing = false →
      exec (.ctxCmdRequeueJob id) s = .next ((s.softJob id true).ctxResult true)) ∧
    (j.st ≠ .retired → exec (.ctxCmdKillJob id) s =
      .next ((s.inCtx j.rec_.ctx (·.killJob id .contextKilled)).ctxResult true))) ∧
  (∀ (s : State) (ok : Bool), field (s.ctxResult ok).cregs.cmd 8 8 = if ok then 1 else 2) ∧
  (∀ s c, s.draining = some c →
    ((∀ t ∈ s.tasks, t.slot ≠ none → s.ctxOf t ≠ c) → exec .softDrainDone s = .next (s.beginHard c)) ∧
    ((s.ctx c).drainEnd ≤ s.timeNs.toNat → exec .softDrainTimeout s = .next (s.beginHard c))) ∧
  (∀ s j js, s.draining = none → s.requeues = j :: js →
    ((∀ t ∈ s.tasks, t.slot ≠ none → t.job ≠ j.id) → exec .softDrainDone s = .next (s.requeue j.id j.bump)) ∧
    (j.drainEnd ≤ s.timeNs.toNat → exec .softDrainTimeout s = .next (s.requeue j.id j.bump))) ∧
  (∀ s c, s.saving = some c →
    (s.imageWritable c = true → ∀ s0 base s1 x s2 s3, s0 = s.stopCtx c →
      base = field (spGet s0.cregs.imageBase c) 21 27 * 2 ^ 21 → s1 = s0.openPa base s0.part.imageSize →
      x = s1.savedAs (s0.ctx c) base s0.nextUid → s2 = s1.setCtx c x →
      s3 = { s2 with cores := (joinCores s2.cores []).map fun (y : Nat × Core) => (y.1, { y.2 with l1 := [] }) } →
      exec .hardSaveComplete s = .next (s3.gangNext (s0.ctx c).gang)) ∧
    (s.imageWritable c = false → exec .imageWriteFail s = .next (s.killCtx c))) ∧
  (∀ s c base, s.loading = some c → base = field (spGet s.cregs.imageBase c) 21 27 * 2 ^ 21 →
    (s.imageThere (s.ctx c) base = false → exec .contextLoadComplete s = .next (s.killCtx c)) ∧
    (s.imageThere (s.ctx c) base = true → exec .contextLoadComplete s = .next (s.restoreCtx c))) ∧
  (∀ s v, (2 ≤ field s.cregs.gangStatus 0 3 → exec (.gangTimeWrite v) s = .next s) ∧
    (field s.cregs.gangStatus 0 3 < 2 → s.timeNs.toNat < v.toNat - field s.cregs.gangDrain 0 32 → ∃ s1,
      exec (.gangTimeWrite v) s = .next s1 ∧ s1.cregs.gangTime = v ∧ field s1.cregs.gangStatus 0 3 = 1 ∧
      s1.ctxs = s.ctxs)) ∧
  (∀ s c, s.gangDrains = true → s.outgoing = some c → exec .gangDrainStart s =
    .next ((s.softCtx c s.cregs.gangTime.toNat true).gangState 2)) ∧
  (∀ s c, s.gangDue = true → s.outgoing = some c → s.saveRoom = true →
    exec .gangTimeReached s = .next ((s.modCtx c fun x => { x with gang := true }).beginHard c))

/-- DBG_CMD on a task that is not there answers 3. HALT posts HALT_REQUEST behind what is posted already; HALT_COHORT does
so for every member, each to be raised after the halts of the members with a lower index; RESUME, SKIP and KILL answer a
halted or escalated task; STEP releases a halted one of the attached job for one instruction. TASK of the register reads
as the command named it (log entry 42), and a HALT of a task in ENDING, which has no boundary left, is refused with 2
(log entry 70): the model's choices. -/
def Sys2Proof.Machine.Rule.DebuggerCommands : Prop :=
  (∀ s id, s.taskByIdent id = none → ∀ i ∈ [Instr.dbgCmdHalt id, .dbgCmdHaltCohort id, .dbgCmdResume id, .dbgCmdSkip id,
    .dbgCmdStep id, .dbgCmdKill id], exec i s = .next (s.dbgResult id 3)) ∧
  (∀ (s : State) (id : BitVec 32) (n : Nat), n < 256 → field (s.dbgResult id n).cregs.dbgCmd 8 8 = n ∧
    field (s.dbgResult id n).cregs.dbgCmd 32 32 = id.toNat) ∧
  (∀ s id t, s.taskByIdent id = some t →
    (t.st ≠ .ending → exec (.dbgCmdHalt id) s = .next ((s.modTask t.uid (·.askHalt [])).dbgResult id 1)) ∧
    (t.st = .ending → exec (.dbgCmdHalt id) s = .next (s.dbgResult id 2)) ∧
    (∀ ms, ms = sortBy (fun (a b : Task) => decide (a.member < b.member))
        ((s.liveMembers t.cohort).filter (·.st != .ending)) →
      exec (.dbgCmdHaltCohort id) s = .next ((ms.foldl (fun s m =>
        s.modTask m.uid (·.askHalt ((ms.filter fun x => decide (x.member < m.member)).map (·.uid)))) s).dbgResult id 1)) ∧
    (∀ after, (t.askHalt after).posted = if ∃ p ∈ t.posted, p.cause = .haltRequest then t.posted
      else t.posted ++ [Posted.mk .haltRequest 0 none false after]) ∧
    (t.answerable = true →
      exec (.dbgCmdResume id) s = .next ((s.inCtx (s.ctxOf t) fun s => s.returnFrom t.uid .resume).dbgResult id 1) ∧
      exec (.dbgCmdSkip id) s = .next ((s.inCtx (s.ctxOf t) fun s => s.returnFrom t.uid .skip).dbgResult id 1) ∧
      exec (.dbgCmdKill id) s = .next ((s.inCtx (s.ctxOf t) fun s => s.killStopped t.uid).dbgResult id 1)) ∧
    (t.answerable = false → ∀ i ∈ [Instr.dbgCmdResume id, .dbgCmdSkip id, .dbgCmdKill id],
      exec i s = .next (s.dbgResult id 2)) ∧
    (s.mayStep t = true →
      exec (.dbgCmdStep id) s = .next ((s.inCtx (s.ctxOf t) fun s => s.stepTask t.uid).dbgResult id 1)) ∧
    (s.mayStep t = false → exec (.dbgCmdStep id) s = .next (s.dbgResult id 2)))

/-- What CTX_CMD, the gang switch and DBG_CMD do. -/
def Obligations.CommandsAct : Prop := Rule.ContextsAreCommanded ∧ Rule.DebuggerCommands

/-- Writes of SCHED_CHECK, STEAL_COUNTS and TEL_REGION_STATS; shootdowns, which begin, overrun, and complete by removing
every entry in scope; a key slot's data, which take effect word by word (the model's reading, log entry 47, as is that
READY stays where ENABLE is written 0), its control, and its range's initialisation, after which the data part reads zero;
and registers by address. -/
def Obligations.RegistersAreWritten : Prop :=
  (∀ s c v, c < s.part.cores → ∃ s1, exec (.schedCheckWrite c v) s = .next s1 ∧ (s1.core c).regs.schedCheck = v &&& 1) ∧
  (∀ s c v, c < s.part.cores → ∃ s1, exec (.stealCountsWrite c v) s = .next s1 ∧ ∀ k < 4,
    field (s1.core c).regs.stealCounts (16 * k) 16 =
      if field v (16 * k) 16 = 0 then 0 else field (s.core c).regs.stealCounts (16 * k) 16) ∧
  (∀ s d v, d < s.part.dies → spWf s.dieStats = true → ∃ s1, exec (.telRegionStatsWrite d v) s = .next s1 ∧
    field (spGet s1.dieStats d) 16 14 = (if field v 16 14 = 0 then 0 else field (spGet s.dieStats d) 16 14) ∧
    field (spGet s1.dieStats d) 32 32 = (if field v 32 32 = 0 then 0 else field (spGet s.dieStats d) 32 32)) ∧
  (∀ s v, s.mregs.invCmd.getLsbD 7 = false → ∃ a b c d, exec (.xlatInvPage v) s = .next a ∧
    exec (.xlatInvContext v) s = .next b ∧ exec (.xlatInvAll v) s = .next c ∧ exec (.xlatInvNone v) s = .next d ∧
    a.mregs.inv = some (s.mregs.invAddr, 0, field v 0 4) ∧ b.mregs.inv = some (s.mregs.invAddr, 1, field v 0 4) ∧
    c.mregs.inv = some (s.mregs.invAddr, 2, field v 0 4) ∧ d.mregs.inv = s.mregs.inv ∧
    a.mregs.invCmd.getLsbD 7 = true ∧ d.mregs.invCmd.getLsbD 7 = false) ∧
  (∀ s v, s.mregs.invCmd.getLsbD 7 = true → ∀ i ∈ [Instr.xlatInvPage v, .xlatInvContext v, .xlatInvAll v, .xlatInvNone v],
    ∃ a, exec i s = .next a ∧ a.mregs.inv = s.mregs.inv ∧ a.mregs.invCmd = s.mregs.invCmd ||| 0x200) ∧
  (∀ s a scope ctx, s.mregs.inv = some (a, scope, ctx) → s.shotDown scope ctx = true → ∃ s1,
    exec .shootdownComplete s = .next s1 ∧ s1.mregs.inv = none ∧ s1.mregs.invCmd.getLsbD 7 = false ∧
    s1.mregs.invCmd.getLsbD 8 = true ∧
    (∀ x ∈ s1.dieTlb, x.2.inScope (field a 16 32 * 65536) scope ctx = false) ∧
    ∀ x ∈ s1.cores, ∀ e ∈ x.2.tlb, e.inScope (field a 16 32 * 65536) scope ctx = false) ∧
  (∀ s c v i, s.keyFree c = true → spWf s.mregs.keys = true → spWf s.mregs.keyCount = true → spWf s.mregs.keyCtl = true →
    i = (spGet s.mregs.keyCount c).toNat % 4 → ∃ s1, exec (.keyDataWrite c v) s = .next s1 ∧
    (∀ j < 4, (spGet s1.mregs.keys c).extractLsb' (64 * j) 64 =
      if j = i then v else (spGet s.mregs.keys c).extractLsb' (64 * j) 64) ∧
    (spGet s1.mregs.keyCount c).toNat = (i + 1) % 4 ∧
    spGet s1.mregs.keyCtl c = if i = 3 then spGet s.mregs.keyCtl c ||| 1 else spGet s.mregs.keyCtl c) ∧
  (∀ s c v old, s.keyFree c = true → spWf s.mregs.keyCtl = true → old = spGet s.mregs.keyCtl c →
    ∃ s1 new, exec (.keyCtlWrite c v) s = .next s1 ∧ new = spGet s1.mregs.keyCtl c ∧
    field new 48 16 = field v 48 16 ∧ field new 21 27 = field v 21 27 ∧ field new 3 18 = field old 3 18 ∧
    new.getLsbD 0 = old.getLsbD 0 ∧ new.getLsbD 1 = (if old.getLsbD 0 then v.getLsbD 1 else old.getLsbD 1) ∧
    new.getLsbD 2 = (old.getLsbD 2 && !(old.getLsbD 0 && v.getLsbD 1))) ∧
  (∀ s c v, s.keyFree c = false → exec (.keyDataWrite c v) s = .next s ∧ exec (.keyCtlWrite c v) s = .next s) ∧
  (∀ s c b n, c < 16 → s.rangeToZero c = some (b, n) → spWf s.hbm = true → spWf s.mregs.keyCtl = true → ∃ s1,
    exec (.keyRangeReady c) s = .next s1 ∧ (spGet s1.mregs.keyCtl c).getLsbD 2 = true ∧
    (∀ a, b ≤ a → a < b + n / 8 * 7 → s1.memByte a = 0) ∧
    ((∀ k < 16, k ≠ c → ∀ b' n', s.protRange k = some (b', n') → b' + n' ≤ b ∨ b + n ≤ b') →
      ∀ a, a < b ∨ b + n ≤ a → spGet s1.hbm a = spGet s.hbm a)) ∧
  (∀ s off v, (s.regAt off = none → exec (.registerWrite off v) s = .next s) ∧
    ∀ r, s.regAt off = some r → exec (.registerWrite off v) s = .next (s.writeReg r v))

/-! ### Boot, resets and the platform -/

/-- Power-good, training, an image received and verified, and GO bring the device up in that order: each step where the
boot stands at it. A warm reset of the running device keeps HBM and verifies again, during a cold start's later steps it
begins that cold start anew, and elsewhere it changes nothing; power loss and a shutdown leave the reset state. A retry
either finds a server, whose file then begins to arrive, or not. The model's choices among these: that a retry's outcome
is a pick and that the file's arrival makes its first 64 MiB open (log entries 12 and 17), the code of an image above
64 MiB (17), that one of several failed checks names the code (49), what outlasts a reset beside HBM, the fuses among it
(18, 49), and that HBM without power lists nothing (1). -/
def Obligations.BootProceeds : Prop :=
  (∀ s, s.boot.phase = .off → s.part.ioDies ≠ 0 → exec .powerGood s =
    .next { s with boot := { s.boot with phase := .training, repair := s.boot.fuseRepair } }) ∧
  (∀ s, s.boot.phase = .training → ∃ s1, exec .memReady s = .next s1 ∧ s1.pregs.devStatus.getLsbD 0 = true ∧
    (s.boot.warm = false → s1.boot.phase = .waiting) ∧
    (s.boot.warm = true → s1.boot.phase = .verifying ∧ s1.hbm = s.hbm ∧ field s1.pregs.bootStatus 0 4 = 2)) ∧
  (∀ s bytes, s.boot.phase = .waiting →
    (bytes.length ≤ 2 ^ 26 → ∃ s1, exec (.bootImageFetched bytes) s = .next s1 ∧ s1.boot.phase = .verifying ∧
      s1.boot.length = bytes.length ∧ field s1.pregs.bootStatus 0 4 = 2 ∧ s1.hbm = (s.perform none 0 bytes).hbm) ∧
    (2 ^ 26 < bytes.length → ∃ s1, exec (.bootImageFetched bytes) s = .next s1 ∧ s1.boot.phase = .waiting ∧
      field s1.pregs.bootStatus 0 4 = 8)) ∧
  (∀ s, s.boot.phase = .waiting → ∃ s1 s2, s.chose s1 ∧ exec .bootRetry s = .next s2 ∧ s2.boot.phase = .waiting ∧
    (s2 = (s1.loseRange 0 (2 ^ 26)).bootCode 1 ∨ s2 = s1.bootCode 0 ∨ s2 = s1) ∧
    (s2 = s1 → field s1.pregs.bootStatus 0 4 ≠ 1)) ∧
  (∀ s v, s.boot.phase = .waiting → v.getLsbD 63 = true → ∃ s1, exec (.bootCtlGo v) s = .next s1 ∧
    s1.boot.phase = .verifying ∧ s1.boot.length = field v 0 27 ∧ field s1.pregs.bootStatus 0 4 = 2) ∧
  (∀ s, s.boot.phase = .verifying → ∃ s1, exec .imageVerify s = .next s1 ∧
    if s.imageFails = [] then
      s1.boot.phase = .running ∧ s1.pregs.devStatus.getLsbD 1 = true ∧ field s1.pregs.bootStatus 0 4 = 3 ∧
      s1.boot.recorded = s.memNat 0xC 4 ∧ s1.boot.entry = some (BitVec.ofNat 64 (s.memNat 0x10 8))
    else s1.boot.phase = .waiting ∧ field s1.pregs.bootStatus 0 4 ∈ s.imageFails) ∧
  (∀ i s, i = Instr.resetPin ∨ (∃ v, i = .resetCtlWarm v ∧ v.getLsbD 0 = true) →
    (s.boot.phase = .running → ∃ s1, exec i s = .next s1 ∧ s1.boot.phase = .training ∧ s1.boot.warm = true ∧
      (s.keyRanges = [] → s1.hbm = (s.msc.foldl (fun s e => s.mscEvict e.line) s).hbm ∧ (s.msc = [] → s1.hbm = s.hbm)) ∧
      s1.tasks = [] ∧ s1.jobs = [] ∧ s1.cores = [] ∧ s1.pregs.devStatus = 4 ∧ s1.timeNs = s.timeNs) ∧
    (s.boot.phase = .waiting ∨ (s.boot.phase = .verifying ∧ s.boot.warm = false) → ∃ s1, exec i s = .next s1 ∧
      s1.boot.phase = .training ∧ s1.boot.warm = false ∧ s1.tasks = [] ∧ s1.jobs = [] ∧ s1.pregs.devStatus = 0 ∧
      s1.timeNs = s.timeNs) ∧
    (s.boot.phase = .off ∨ s.boot.phase = .training ∨ (s.boot.phase = .verifying ∧ s.boot.warm = true) →
      exec i s = .next s)) ∧
  (∀ s v, v.getLsbD 0 = false → exec (.resetCtlWarm v) s = .next s) ∧
  (∀ i s, i = Instr.powerLoss ∨ (∃ d < s.part.dies + s.part.ioDies, i = .thermalShutdown d) →
    ∃ s1, exec i s = .next s1 ∧
    s1.boot.phase = .off ∧ s1.tasks = [] ∧ s1.jobs = [] ∧ s1.hbm = [] ∧ s1.mailbox = [] ∧ s1.cregs = CtxRegs.reset ∧
    s1.mregs = MemRegs.reset ∧ s1.pregs = PlatRegs.reset s.part ∧ s1.boot.fuseKey = s.boot.fuseKey)

/-- The host's windows and the query service: every request is answered, in range with what it asked for, and else with
the answer that its rule names. STATUS 1 for an offset between 4 KiB and 64 KiB and for a LENGTH or OFFSET that is not a
multiple of 4, and STATUS 2 with nothing written where one word may not be, are the model's reading (log entry 46). -/
def Sys2Proof.Machine.Rule.HostRequestsAnswered : Prop :=
  (∀ s off data, off + data.length ≤ 2 ^ 36 →
    (s.memReady = true → s.closed (s.winAddr off) data.length = false →
      exec (.pcieBar2Write off data) s = .next ((s.perform none (s.winAddr off) data).out (.host .success []))) ∧
    (s.memReady = true → s.closed (s.winAddr off) data.length = true →
      exec (.pcieBar2Write off data) s = .next (s.out (.host .abort []))) ∧
    (s.memReady = false → exec (.pcieBar2Write off data) s = .next (s.out (.host .unsupported [])))) ∧
  (∀ s off n, off + n ≤ 2 ^ 36 →
    (s.memReady = true → s.closed (s.winAddr off) n = false → s.readable (s.winAddr off) n = true →
      exec (.pcieBar2Read off n) s = .next (s.out (.host .success (s.memBytes (s.winAddr off) n)))) ∧
    (s.memReady = true → s.closed (s.winAddr off) n = true →
      exec (.pcieBar2Read off n) s = .next (s.out (.host .abort []))) ∧
    (s.memReady = false → exec (.pcieBar2Read off n) s = .next (s.out (.host .unsupported [])))) ∧
  (∀ s a, mailboxAccess a.addr a.size = true →
    (a.write = none → exec (.pcieBar0Access a) s = .next (s.out (.host .success (spTake s.mailbox a.addr a.size)))) ∧
    (∀ v, a.write = some v →
      exec (.pcieBar0Access a) s = .next ((s.mailboxWrite a.addr a.size v).out (.host .success [])))) ∧
  (∀ s (q : QueryHead) n r, r = (fun (st : Nat) (bs : List Byte) => s.out (.queryReply (queryHeader 1 st n q) bs)) →
    (queryShape q.off n = false → exec (.queryRead q n) s = .next (r 1 [])) ∧
    (queryShape q.off n = true → q.off + n ≤ 4096 → exec (.queryRead q n) s = .next (r 0 (spTake s.mailbox q.off n))) ∧
    (queryShape q.off n = true → 4096 < q.off + n → q.off < 0x10000 → exec (.queryRead q n) s = .next (r 1 [])) ∧
    (queryShape q.off n = true → 0x10000 ≤ q.off → s.memReady = false → exec (.queryRead q n) s = .next (r 3 [])) ∧
    (queryShape q.off n = true → 0x10000 ≤ q.off → s.memReady = true → q.off - 0x10000 + n ≤ 64 * s.telRecords →
      s.telAddr + (q.off - 0x10000) + n ≤ s.memTop → s.readable (s.telAddr + (q.off - 0x10000)) n = true →
      exec (.queryRead q n) s = .next (r 0 (s.memBytes (s.telAddr + (q.off - 0x10000)) n)))) ∧
  (∀ s (q : QueryHead) (ws : List (BitVec 32)) r,
    r = (fun (s : State) (st : Nat) => s.out (.queryReply (queryHeader 2 st (4 * ws.length) q) [])) →
    (queryShape q.off (4 * ws.length) = false → exec (.queryWrite q ws) s = .next (r s 1)) ∧
    (queryShape q.off (4 * ws.length) = true →
      ((∀ i < ws.length, queryWritable (q.off + 4 * i) = true) → ∀ s1,
        s1 = { s with mailbox := spPutBlock s.mailbox q.off (ws.flatMap fun (w : BitVec 32) => bytesOf 4 w.toNat) } →
        exec (.queryWrite q ws) s = .next (r s1 0)) ∧
      (∀ i < ws.length, queryWritable (q.off + 4 * i) = false → exec (.queryWrite q ws) s = .next (r s 2)))) ∧
  (∀ op st n (q : QueryHead), queryHeader op st n q =
    bytesOf 1 (op + 0x80) ++ bytesOf 1 st ++ bytesOf 2 n ++ bytesOf 4 q.seq.toNat ++ bytesOf 8 q.off)

/-- Lanes, beacons and time, thermal steps, scrubbing, telemetry and soft errors. That a beacon's time is taken as it
stands is log entry 51, what a scrub finds is a pick (log entry 50, as is that a soft error in a dirty line poisons it),
and the least clock is log entry 19: the model's choices. -/
def Sys2Proof.Machine.Rule.BackgroundActs : Prop :=
  (∀ s p, p < s.part.herricPorts → spWf s.pregs.lanes = true → ∃ s1, exec (.herricLaneFail p) s = .next s1 ∧
    spGet s1.pregs.lanes p = 4 ∧ s1.pregs.irqStatus.getLsbD 7 = true) ∧
  (∀ s, (field s.pregs.timeStatus 1 2 = 2 → exec .herricBeaconSend s = .next (s.out (.beacon s.timeNs))) ∧
    (field s.pregs.timeStatus 1 2 ≠ 2 → exec .herricBeaconSend s = .next s)) ∧
  (∀ s ns, ∃ a b, exec (.herricBeaconReceive ns) s = .next a ∧ exec (.ptpMessage ns) s = .next b ∧
    field a.pregs.timeStatus 1 2 = 1 ∧ field b.pregs.timeStatus 1 2 = 2 ∧ a.outs.getLast? = some (.beacon ns) ∧
    (s.steps ns = true → a.timeNs = ns ∧ b.timeNs = ns ∧ a.slew = 0 ∧ b.slew = 0) ∧
    (s.steps ns = false → a.timeNs = s.timeNs ∧ b.timeNs = s.timeNs)) ∧
  (∀ (s : State) (ns : BitVec 64), s.steps ns = true ↔ s.memReady = false ∨ s.timeNs.toNat + 1000 < ns.toNat) ∧
  (∀ s, ∃ s1, exec .timeSourceLoss s = .next s1 ∧ s1.slew = 0 ∧ field s1.pregs.timeStatus 0 3 = 0 ∧ s1.timeNs = s.timeNs) ∧
  (∀ s, s.hot = true → 125 < s.clkMHz → ∃ s1, exec .thermalStepDown s = .next s1 ∧ s1.clkMHz = s.clkMHz - 125 ∧
    s1.pregs.irqStatus.getLsbD 8 = true) ∧
  (∀ s, s.hot = false → s.clkMHz < 1750 → s.coolSince + 1000000 ≤ s.timeNs.toNat → ∃ s1,
    exec .thermalStepUp s = .next s1 ∧ s1.clkMHz = s.clkMHz + 125 ∧ s1.pregs.irqStatus.getLsbD 8 = true) ∧
  (∀ s k, k < s.nStacks → ∃ s1, s.chose s1 ∧ (exec (.patrolScrub k) s = .next s1 ∨
    exec (.patrolScrub k) s = .next (s1.countError k 0) ∨
    ∃ s2 l, s1.chose s2 ∧ exec (.patrolScrub k) s = .next (s2.uncorrectable k l))) ∧
  (∀ s k, exec (.phyRecalibration k) s = .next s ∧ exec (.refresh k) s = .next s) ∧
  (∀ s x m head pa, m = s.measure x → head = field m.pregs.telCtl 32 32 → pa = m.telAddr + 64 * (head % m.telRecords) →
    m.sensors = x ∧
    (m.dieTemps.any (115 ≤ ·) = true → exec (.telemetrySample x) s = .next m.powerOff) ∧
    (m.dieTemps.any (115 ≤ ·) = false → m.pregs.telCtl.getLsbD 0 = true → m.memReady = true → pa + 64 ≤ m.memTop → ∃ s1,
      exec (.telemetrySample x) s = .next s1 ∧ s1.hbm = (m.perform none pa (m.telRecord x)).hbm ∧
        field s1.pregs.telCtl 32 32 = (head + 1) % 2 ^ 32) ∧
    (m.dieTemps.any (115 ≤ ·) = false → m.pregs.telCtl.getLsbD 0 = false → exec (.telemetrySample x) s = .next m)) ∧
  (∀ s u pa, exec (.sramSoftError .corrected) s = .next s ∧
    exec (.sramSoftError (.inTask u)) s = .next (s.post u .memoryUncorrectable 0) ∧
    (pa < s.memTop → ∃ s1, exec (.sramSoftError (.inDirtyLine pa)) s = .next s1 ∧ pa / 64 ∈ s1.poison))

/-- A system core's access, of 1, 2, 4 or 8 bytes, to HBM, the mailbox, a window to the host, or a register. A write of
HBM outside every protected range changes nothing else. What a window to the host answers to a read is any value of the
access's width, and what is written there is kept apart (log entry 22): no rule says what stands behind it. -/
def Sys2Proof.Machine.Rule.SystemCoresAccess : Prop :=
  ∀ (s : State) (k : Nat) (a : Access), k < s.part.sysCores → a.size ∈ [1, 2, 4, 8] →
    (s.placeOf a.addr = .hbm → s.notReady a.addr = false → a.addr + a.size ≤ s.memTop →
      (∀ v, a.write = some v → exec (.systemCoreMemoryAccess k a) s =
        .next ((s.perform none a.addr (bytesOf a.size v.toNat)).tampered a.addr a.size)) ∧
      (∀ s' : State, s'.protOf (a.addr + a.size - 1) = none → s'.tampered a.addr a.size = s') ∧
      (a.write = none → s.readable a.addr a.size = true → exec (.systemCoreMemoryAccess k a) s =
        .next { s with readData := BitVec.ofNat 64 (s.memNat a.addr a.size) })) ∧
    (s.placeOf a.addr = .mailbox → windowWord a = true →
      (∀ v, a.write = some v →
        exec (.systemCoreMemoryAccess k a) s = .next (s.mailboxWrite (a.addr - mailboxBase) a.size v)) ∧
      (a.write = none → exec (.systemCoreMemoryAccess k a) s =
        .next { s with readData := BitVec.ofNat 64 (spNat s.mailbox (a.addr - mailboxBase) a.size) })) ∧
    (s.placeOf a.addr = .outbound → windowWord a = true →
      (∀ v, a.write = some v → exec (.systemCoreMemoryAccess k a) s =
        .next { s with hostMem := spPutNat s.hostMem (a.addr - outboundBase) a.size v.toNat }) ∧
      (a.write = none → ∃ v < 256 ^ a.size, exec (.systemCoreMemoryAccess k a) s =
        .next { s with readData := BitVec.ofNat 64 v })) ∧
    (s.placeOf a.addr = .window → ∀ r, a.size = 8 → s.regAt (a.addr - mailboxBase) = some r →
      (∀ v, a.write = some v → exec (.systemCoreMemoryAccess k a) s = .next (s.writeReg r v)) ∧
      (a.write = none → exec (.systemCoreMemoryAccess k a) s = .next (s.readReg r)))

/-- The host's requests, the links, the background work, and the system cores. -/
def Obligations.PlatformActs : Prop :=
  Rule.HostRequestsAnswered ∧ Rule.BackgroundActs ∧ Rule.SystemCoresAccess

namespace Sys2Proof.Machine

/-- A header guarded by p7 or q7, with a barrier to set and a stall count. -/
def plainHdr (u : Bool) (setb : BitVec 3) (stall : BitVec 4) : Hdr := ⟨u, false, 7, ⟨0, setb, 0, false, stall⟩⟩

end Sys2Proof.Machine

open Sys2Proof Sys2Proof.Machine

/-- The words that the worked examples of the manual write out from their fields decode to the instructions they stand
for: one of each class that a warp issues. -/
def Obligations.WrittenWordsDecode : Prop :=
  decode Privs.full 0x000E04FF0001000000000701#96 = .ok (.mov (plainHdr false 7 1) ⟨.n32, .v 9, .lit0⟩) ∧
  decode Privs.full 0x10160200A030000000000704#96 =
    .ok (.iadd ⟨false, true, 3, ⟨0, 7, 0, false, 4⟩⟩ ⟨.i32, .v 4, .v 5, .v 6, false, 0, false⟩) ∧
  decode Privs.full 0x208E0500401C000022020705#96 =
    .ok (.ffma (plainHdr false 7 5) ⟨.f32, .v 10, .v 2, .v 3, .v 4, .rz, false, true, false, false, false⟩) ∧
  decode Privs.full 0x308E0400401C000820000704#96 =
    .ok (.pkn (plainHdr false 7 4) ⟨.v 8, .v 2, .v 3, .rn, true, .narrow .e4m3, 1⟩) ∧
  decode Privs.full 0x412E0A002000000000010701#96 = .ok (.split (plainHdr true 7 1) ⟨20, 1, false, 2⟩) ∧
  decode Privs.full 0x52EE0F030010000000000701#96 = .ok (.jlaunch (plainHdr true 7 1) ⟨.g 30, 24, 2⟩) ∧
  decode Privs.full 0x600E05508039800000200001#96 = .ok (.ld (plainHdr false 0 1) ⟨.n64, .v 10, .g 4, .v 7, 64⟩) ∧
  decode Privs.full 0x700E02014029000408000101#96 =
    .ok (.atom (plainHdr false 1 1) ⟨.n32, .v 4, .v 10, .v 5, .add, true, false, .v 0, 8⟩) ∧
  decode Privs.full 0x812E02829FC00000C8000101#96 =
    .ok (.tstage (plainHdr true 1 1) ⟨.handle 5, 20, .lit0, ⟨4, true, true⟩⟩) ∧
  decode Privs.full 0x912E0400BFC00000000F0201#96 =
    .ok (.mma (plainHdr true 2 1) ⟨8, 5, .lit0, 30, 0, false, ⟨false, 0⟩⟩) ∧
  decode Privs.full 0xA06FFC061FC800004A000701#96 =
    .ok (.psel (plainHdr true 7 1) ⟨.lit0, 48, .lit1, ⟨5, true, false⟩⟩) ∧
  decode Privs.full 0xB12E00029FF8000000188701#96 = .ok (.swrWrite (plainHdr true 7 1) ⟨.g 20, .zero, 0x31⟩)
end

