-- ==== Sys2Proof/Laws/State.lean ====
section
/-! SUPPORT. One lemma for every field of State and every update of it: what the update writes, and that it leaves every
other field. -/

namespace Sys2Proof.Machine

/-! ### State.setCore -/

@[simp] theorem State.setCore_tick (s : State) (c : Nat) (x : Core) : (s.setCore c x).tick = s.tick := rfl
@[simp] theorem State.setCore_sched (s : State) (c : Nat) (x : Core) : (s.setCore c x).sched = s.sched := rfl
@[simp] theorem State.setCore_picks (s : State) (c : Nat) (x : Core) : (s.setCore c x).picks = s.picks := rfl
@[simp] theorem State.setCore_inputs (s : State) (c : Nat) (x : Core) : (s.setCore c x).inputs = s.inputs := rfl
@[simp] theorem State.setCore_cur (s : State) (c : Nat) (x : Core) : (s.setCore c x).cur = s.cur := rfl
@[simp] theorem State.setCore_readData (s : State) (c : Nat) (x : Core) : (s.setCore c x).readData = s.readData := rfl
@[simp] theorem State.setCore_nextUid (s : State) (c : Nat) (x : Core) : (s.setCore c x).nextUid = s.nextUid := rfl
@[simp] theorem State.setCore_part (s : State) (c : Nat) (x : Core) : (s.setCore c x).part = s.part := rfl
@[simp] theorem State.setCore_clk (s : State) (c : Nat) (x : Core) : (s.setCore c x).clk = s.clk := rfl
@[simp] theorem State.setCore_clkMHz (s : State) (c : Nat) (x : Core) : (s.setCore c x).clkMHz = s.clkMHz := rfl
@[simp] theorem State.setCore_timeNs (s : State) (c : Nat) (x : Core) : (s.setCore c x).timeNs = s.timeNs := rfl
@[simp] theorem State.setCore_timeFrac (s : State) (c : Nat) (x : Core) : (s.setCore c x).timeFrac = s.timeFrac := rfl
@[simp] theorem State.setCore_slew (s : State) (c : Nat) (x : Core) : (s.setCore c x).slew = s.slew := rfl
@[simp] theorem State.setCore_sensors (s : State) (c : Nat) (x : Core) : (s.setCore c x).sensors = s.sensors := rfl
@[simp] theorem State.setCore_coolSince (s : State) (c : Nat) (x : Core) : (s.setCore c x).coolSince = s.coolSince := rfl
@[simp] theorem State.setCore_hbm (s : State) (c : Nat) (x : Core) : (s.setCore c x).hbm = s.hbm := rfl
@[simp] theorem State.setCore_hostMem (s : State) (c : Nat) (x : Core) : (s.setCore c x).hostMem = s.hostMem := rfl
@[simp] theorem State.setCore_mailbox (s : State) (c : Nat) (x : Core) : (s.setCore c x).mailbox = s.mailbox := rfl
@[simp] theorem State.setCore_msc (s : State) (c : Nat) (x : Core) : (s.setCore c x).msc = s.msc := rfl
@[simp] theorem State.setCore_poison (s : State) (c : Nat) (x : Core) : (s.setCore c x).poison = s.poison := rfl
@[simp] theorem State.setCore_badMac (s : State) (c : Nat) (x : Core) : (s.setCore c x).badMac = s.badMac := rfl
@[simp] theorem State.setCore_slices (s : State) (c : Nat) (x : Core) : (s.setCore c x).slices = s.slices := rfl
@[simp] theorem State.setCore_openBytes (s : State) (c : Nat) (x : Core) : (s.setCore c x).openBytes = s.openBytes := rfl
@[simp] theorem State.setCore_hist (s : State) (c : Nat) (x : Core) : (s.setCore c x).hist = s.hist := rfl
@[simp] theorem State.setCore_majors (s : State) (c : Nat) (x : Core) : (s.setCore c x).majors = s.majors := rfl
@[simp] theorem State.setCore_minors (s : State) (c : Nat) (x : Core) : (s.setCore c x).minors = s.minors := rfl
@[simp] theorem State.setCore_contribs (s : State) (c : Nat) (x : Core) : (s.setCore c x).contribs = s.contribs := rfl
@[simp] theorem State.setCore_watches (s : State) (c : Nat) (x : Core) : (s.setCore c x).watches = s.watches := rfl
@[simp] theorem State.setCore_cells (s : State) (c : Nat) (x : Core) : (s.setCore c x).cells = s.cells := rfl
@[simp] theorem State.setCore_tasks (s : State) (c : Nat) (x : Core) : (s.setCore c x).tasks = s.tasks := rfl
@[simp] theorem State.setCore_cohorts (s : State) (c : Nat) (x : Core) : (s.setCore c x).cohorts = s.cohorts := rfl
@[simp] theorem State.setCore_ranges (s : State) (c : Nat) (x : Core) : (s.setCore c x).ranges = s.ranges := rfl
@[simp] theorem State.setCore_gates (s : State) (c : Nat) (x : Core) : (s.setCore c x).gates = s.gates := rfl
@[simp] theorem State.setCore_jobs (s : State) (c : Nat) (x : Core) : (s.setCore c x).jobs = s.jobs := rfl
@[simp] theorem State.setCore_lastRootId (s : State) (c : Nat) (x : Core) : (s.setCore c x).lastRootId = s.lastRootId := rfl
@[simp] theorem State.setCore_firstJob (s : State) (c : Nat) (x : Core) : (s.setCore c x).firstJob = s.firstJob := rfl
@[simp] theorem State.setCore_stuck (s : State) (c : Nat) (x : Core) : (s.setCore c x).stuck = s.stuck := rfl
@[simp] theorem State.setCore_syscores (s : State) (c : Nat) (x : Core) : (s.setCore c x).syscores = s.syscores := rfl
@[simp] theorem State.setCore_dieStats (s : State) (c : Nat) (x : Core) : (s.setCore c x).dieStats = s.dieStats := rfl
@[simp] theorem State.setCore_dieTlb (s : State) (c : Nat) (x : Core) : (s.setCore c x).dieTlb = s.dieTlb := rfl
@[simp] theorem State.setCore_cores (s : State) (c : Nat) (x : Core) : (s.setCore c x).cores = alSet s.cores c x := rfl
@[simp] theorem State.setCore_ctxs (s : State) (c : Nat) (x : Core) : (s.setCore c x).ctxs = s.ctxs := rfl
@[simp] theorem State.setCore_escHeld (s : State) (c : Nat) (x : Core) : (s.setCore c x).escHeld = s.escHeld := rfl
@[simp] theorem State.setCore_cregs (s : State) (c : Nat) (x : Core) : (s.setCore c x).cregs = s.cregs := rfl
@[simp] theorem State.setCore_mregs (s : State) (c : Nat) (x : Core) : (s.setCore c x).mregs = s.mregs := rfl
@[simp] theorem State.setCore_pregs (s : State) (c : Nat) (x : Core) : (s.setCore c x).pregs = s.pregs := rfl
@[simp] theorem State.setCore_boot (s : State) (c : Nat) (x : Core) : (s.setCore c x).boot = s.boot := rfl
@[simp] theorem State.setCore_outs (s : State) (c : Nat) (x : Core) : (s.setCore c x).outs = s.outs := rfl
/-! ### State.modCore -/

@[simp] theorem State.modCore_tick (s : State) (c : Nat) (f : Core → Core) : (s.modCore c f).tick = s.tick := rfl
@[simp] theorem State.modCore_sched (s : State) (c : Nat) (f : Core → Core) : (s.modCore c f).sched = s.sched := rfl
@[simp] theorem State.modCore_picks (s : State) (c : Nat) (f : Core → Core) : (s.modCore c f).picks = s.picks := rfl
@[simp] theorem State.modCore_inputs (s : State) (c : Nat) (f : Core → Core) : (s.modCore c f).inputs = s.inputs := rfl
@[simp] theorem State.modCore_cur (s : State) (c : Nat) (f : Core → Core) : (s.modCore c f).cur = s.cur := rfl
@[simp] theorem State.modCore_readData (s : State) (c : Nat) (f : Core → Core) : (s.modCore c f).readData = s.readData := rfl
@[simp] theorem State.modCore_nextUid (s : State) (c : Nat) (f : Core → Core) : (s.modCore c f).nextUid = s.nextUid := rfl
@[simp] theorem State.modCore_part (s : State) (c : Nat) (f : Core → Core) : (s.modCore c f).part = s.part := rfl
@[simp] theorem State.modCore_clk (s : State) (c : Nat) (f : Core → Core) : (s.modCore c f).clk = s.clk := rfl
@[simp] theorem State.modCore_clkMHz (s : State) (c : Nat) (f : Core → Core) : (s.modCore c f).clkMHz = s.clkMHz := rfl
@[simp] theorem State.modCore_timeNs (s : State) (c : Nat) (f : Core → Core) : (s.modCore c f).timeNs = s.timeNs := rfl
@[simp] theorem State.modCore_timeFrac (s : State) (c : Nat) (f : Core → Core) : (s.modCore c f).timeFrac = s.timeFrac := rfl
@[simp] theorem State.modCore_slew (s : State) (c : Nat) (f : Core → Core) : (s.modCore c f).slew = s.slew := rfl
@[simp] theorem State.modCore_sensors (s : State) (c : Nat) (f : Core → Core) : (s.modCore c f).sensors = s.sensors := rfl
@[simp] theorem State.modCore_coolSince (s : State) (c : Nat) (f : Core → Core) : (s.modCore c f).coolSince = s.coolSince := rfl
@[simp] theorem State.modCore_hbm (s : State) (c : Nat) (f : Core → Core) : (s.modCore c f).hbm = s.hbm := rfl
@[simp] theorem State.modCore_hostMem (s : State) (c : Nat) (f : Core → Core) : (s.modCore c f).hostMem = s.hostMem := rfl
@[simp] theorem State.modCore_mailbox (s : State) (c : Nat) (f : Core → Core) : (s.modCore c f).mailbox = s.mailbox := rfl
@[simp] theorem State.modCore_msc (s : State) (c : Nat) (f : Core → Core) : (s.modCore c f).msc = s.msc := rfl
@[simp] theorem State.modCore_poison (s : State) (c : Nat) (f : Core → Core) : (s.modCore c f).poison = s.poison := rfl
@[simp] theorem State.modCore_badMac (s : State) (c : Nat) (f : Core → Core) : (s.modCore c f).badMac = s.badMac := rfl
@[simp] theorem State.modCore_slices (s : State) (c : Nat) (f : Core → Core) : (s.modCore c f).slices = s.slices := rfl
@[simp] theorem State.modCore_openBytes (s : State) (c : Nat) (f : Core → Core) : (s.modCore c f).openBytes = s.openBytes := rfl
@[simp] theorem State.modCore_hist (s : State) (c : Nat) (f : Core → Core) : (s.modCore c f).hist = s.hist := rfl
@[simp] theorem State.modCore_majors (s : State) (c : Nat) (f : Core → Core) : (s.modCore c f).majors = s.majors := rfl
@[simp] theorem State.modCore_minors (s : State) (c : Nat) (f : Core → Core) : (s.modCore c f).minors = s.minors := rfl
@[simp] theorem State.modCore_contribs (s : State) (c : Nat) (f : Core → Core) : (s.modCore c f).contribs = s.contribs := rfl
@[simp] theorem State.modCore_watches (s : State) (c : Nat) (f : Core → Core) : (s.modCore c f).watches = s.watches := rfl
@[simp] theorem State.modCore_cells (s : State) (c : Nat) (f : Core → Core) : (s.modCore c f).cells = s.cells := rfl
@[simp] theorem State.modCore_tasks (s : State) (c : Nat) (f : Core → Core) : (s.modCore c f).tasks = s.tasks := rfl
@[simp] theorem State.modCore_cohorts (s : State) (c : Nat) (f : Core → Core) : (s.modCore c f).cohorts = s.cohorts := rfl
@[simp] theorem State.modCore_ranges (s : State) (c : Nat) (f : Core → Core) : (s.modCore c f).ranges = s.ranges := rfl
@[simp] theorem State.modCore_gates (s : State) (c : Nat) (f : Core → Core) : (s.modCore c f).gates = s.gates := rfl
@[simp] theorem State.modCore_jobs (s : State) (c : Nat) (f : Core → Core) : (s.modCore c f).jobs = s.jobs := rfl
@[simp] theorem State.modCore_lastRootId (s : State) (c : Nat) (f : Core → Core) : (s.modCore c f).lastRootId = s.lastRootId := rfl
@[simp] theorem State.modCore_firstJob (s : State) (c : Nat) (f : Core → Core) : (s.modCore c f).firstJob = s.firstJob := rfl
@[simp] theorem State.modCore_stuck (s : State) (c : Nat) (f : Core → Core) : (s.modCore c f).stuck = s.stuck := rfl
@[simp] theorem State.modCore_syscores (s : State) (c : Nat) (f : Core → Core) : (s.modCore c f).syscores = s.syscores := rfl
@[simp] theorem State.modCore_dieStats (s : State) (c : Nat) (f : Core → Core) : (s.modCore c f).dieStats = s.dieStats := rfl
@[simp] theorem State.modCore_dieTlb (s : State) (c : Nat) (f : Core → Core) : (s.modCore c f).dieTlb = s.dieTlb := rfl
@[simp] theorem State.modCore_cores (s : State) (c : Nat) (f : Core → Core) : (s.modCore c f).cores = alSet s.cores c (f (s.core c)) := rfl
@[simp] theorem State.modCore_ctxs (s : State) (c : Nat) (f : Core → Core) : (s.modCore c f).ctxs = s.ctxs := rfl
@[simp] theorem State.modCore_escHeld (s : State) (c : Nat) (f : Core → Core) : (s.modCore c f).escHeld = s.escHeld := rfl
@[simp] theorem State.modCore_cregs (s : State) (c : Nat) (f : Core → Core) : (s.modCore c f).cregs = s.cregs := rfl
@[simp] theorem State.modCore_mregs (s : State) (c : Nat) (f : Core → Core) : (s.modCore c f).mregs = s.mregs := rfl
@[simp] theorem State.modCore_pregs (s : State) (c : Nat) (f : Core → Core) : (s.modCore c f).pregs = s.pregs := rfl
@[simp] theorem State.modCore_boot (s : State) (c : Nat) (f : Core → Core) : (s.modCore c f).boot = s.boot := rfl
@[simp] theorem State.modCore_outs (s : State) (c : Nat) (f : Core → Core) : (s.modCore c f).outs = s.outs := rfl
/-! ### State.setTask -/

@[simp] theorem State.setTask_tick (s : State) (t : Task) : (s.setTask t).tick = s.tick := rfl
@[simp] theorem State.setTask_sched (s : State) (t : Task) : (s.setTask t).sched = s.sched := rfl
@[simp] theorem State.setTask_picks (s : State) (t : Task) : (s.setTask t).picks = s.picks := rfl
@[simp] theorem State.setTask_inputs (s : State) (t : Task) : (s.setTask t).inputs = s.inputs := rfl
@[simp] theorem State.setTask_cur (s : State) (t : Task) : (s.setTask t).cur = s.cur := rfl
@[simp] theorem State.setTask_readData (s : State) (t : Task) : (s.setTask t).readData = s.readData := rfl
@[simp] theorem State.setTask_nextUid (s : State) (t : Task) : (s.setTask t).nextUid = s.nextUid := rfl
@[simp] theorem State.setTask_part (s : State) (t : Task) : (s.setTask t).part = s.part := rfl
@[simp] theorem State.setTask_clk (s : State) (t : Task) : (s.setTask t).clk = s.clk := rfl
@[simp] theorem State.setTask_clkMHz (s : State) (t : Task) : (s.setTask t).clkMHz = s.clkMHz := rfl
@[simp] theorem State.setTask_timeNs (s : State) (t : Task) : (s.setTask t).timeNs = s.timeNs := rfl
@[simp] theorem State.setTask_timeFrac (s : State) (t : Task) : (s.setTask t).timeFrac = s.timeFrac := rfl
@[simp] theorem State.setTask_slew (s : State) (t : Task) : (s.setTask t).slew = s.slew := rfl
@[simp] theorem State.setTask_sensors (s : State) (t : Task) : (s.setTask t).sensors = s.sensors := rfl
@[simp] theorem State.setTask_coolSince (s : State) (t : Task) : (s.setTask t).coolSince = s.coolSince := rfl
@[simp] theorem State.setTask_hbm (s : State) (t : Task) : (s.setTask t).hbm = s.hbm := rfl
@[simp] theorem State.setTask_hostMem (s : State) (t : Task) : (s.setTask t).hostMem = s.hostMem := rfl
@[simp] theorem State.setTask_mailbox (s : State) (t : Task) : (s.setTask t).mailbox = s.mailbox := rfl
@[simp] theorem State.setTask_msc (s : State) (t : Task) : (s.setTask t).msc = s.msc := rfl
@[simp] theorem State.setTask_poison (s : State) (t : Task) : (s.setTask t).poison = s.poison := rfl
@[simp] theorem State.setTask_badMac (s : State) (t : Task) : (s.setTask t).badMac = s.badMac := rfl
@[simp] theorem State.setTask_slices (s : State) (t : Task) : (s.setTask t).slices = s.slices := rfl
@[simp] theorem State.setTask_openBytes (s : State) (t : Task) : (s.setTask t).openBytes = s.openBytes := rfl
@[simp] theorem State.setTask_hist (s : State) (t : Task) : (s.setTask t).hist = s.hist := rfl
@[simp] theorem State.setTask_majors (s : State) (t : Task) : (s.setTask t).majors = s.majors := rfl
@[simp] theorem State.setTask_minors (s : State) (t : Task) : (s.setTask t).minors = s.minors := rfl
@[simp] theorem State.setTask_contribs (s : State) (t : Task) : (s.setTask t).contribs = s.contribs := rfl
@[simp] theorem State.setTask_watches (s : State) (t : Task) : (s.setTask t).watches = s.watches := rfl
@[simp] theorem State.setTask_cells (s : State) (t : Task) : (s.setTask t).cells = s.cells := rfl
@[simp] theorem State.setTask_tasks (s : State) (t : Task) : (s.setTask t).tasks = putTask s.tasks t := rfl
@[simp] theorem State.setTask_cohorts (s : State) (t : Task) : (s.setTask t).cohorts = s.cohorts := rfl
@[simp] theorem State.setTask_ranges (s : State) (t : Task) : (s.setTask t).ranges = s.ranges := rfl
@[simp] theorem State.setTask_gates (s : State) (t : Task) : (s.setTask t).gates = s.gates := rfl
@[simp] theorem State.setTask_jobs (s : State) (t : Task) : (s.setTask t).jobs = s.jobs := rfl
@[simp] theorem State.setTask_lastRootId (s : State) (t : Task) : (s.setTask t).lastRootId = s.lastRootId := rfl
@[simp] theorem State.setTask_firstJob (s : State) (t : Task) : (s.setTask t).firstJob = s.firstJob := rfl
@[simp] theorem State.setTask_stuck (s : State) (t : Task) : (s.setTask t).stuck = s.stuck := rfl
@[simp] theorem State.setTask_syscores (s : State) (t : Task) : (s.setTask t).syscores = s.syscores := rfl
@[simp] theorem State.setTask_dieStats (s : State) (t : Task) : (s.setTask t).dieStats = s.dieStats := rfl
@[simp] theorem State.setTask_dieTlb (s : State) (t : Task) : (s.setTask t).dieTlb = s.dieTlb := rfl
@[simp] theorem State.setTask_cores (s : State) (t : Task) : (s.setTask t).cores = s.cores := rfl
@[simp] theorem State.setTask_ctxs (s : State) (t : Task) : (s.setTask t).ctxs = s.ctxs := rfl
@[simp] theorem State.setTask_escHeld (s : State) (t : Task) : (s.setTask t).escHeld = s.escHeld := rfl
@[simp] theorem State.setTask_cregs (s : State) (t : Task) : (s.setTask t).cregs = s.cregs := rfl
@[simp] theorem State.setTask_mregs (s : State) (t : Task) : (s.setTask t).mregs = s.mregs := rfl
@[simp] theorem State.setTask_pregs (s : State) (t : Task) : (s.setTask t).pregs = s.pregs := rfl
@[simp] theorem State.setTask_boot (s : State) (t : Task) : (s.setTask t).boot = s.boot := rfl
@[simp] theorem State.setTask_outs (s : State) (t : Task) : (s.setTask t).outs = s.outs := rfl
/-! ### State.modCohort -/

@[simp] theorem State.modCohort_tick (s : State) (u : Nat) (f : Cohort → Cohort) : (s.modCohort u f).tick = s.tick := rfl
@[simp] theorem State.modCohort_sched (s : State) (u : Nat) (f : Cohort → Cohort) : (s.modCohort u f).sched = s.sched := rfl
@[simp] theorem State.modCohort_picks (s : State) (u : Nat) (f : Cohort → Cohort) : (s.modCohort u f).picks = s.picks := rfl
@[simp] theorem State.modCohort_inputs (s : State) (u : Nat) (f : Cohort → Cohort) : (s.modCohort u f).inputs = s.inputs := rfl
@[simp] theorem State.modCohort_cur (s : State) (u : Nat) (f : Cohort → Cohort) : (s.modCohort u f).cur = s.cur := rfl
@[simp] theorem State.modCohort_readData (s : State) (u : Nat) (f : Cohort → Cohort) : (s.modCohort u f).readData = s.readData := rfl
@[simp] theorem State.modCohort_nextUid (s : State) (u : Nat) (f : Cohort → Cohort) : (s.modCohort u f).nextUid = s.nextUid := rfl
@[simp] theorem State.modCohort_part (s : State) (u : Nat) (f : Cohort → Cohort) : (s.modCohort u f).part = s.part := rfl
@[simp] theorem State.modCohort_clk (s : State) (u : Nat) (f : Cohort → Cohort) : (s.modCohort u f).clk = s.clk := rfl
@[simp] theorem State.modCohort_clkMHz (s : State) (u : Nat) (f : Cohort → Cohort) : (s.modCohort u f).clkMHz = s.clkMHz := rfl
@[simp] theorem State.modCohort_timeNs (s : State) (u : Nat) (f : Cohort → Cohort) : (s.modCohort u f).timeNs = s.timeNs := rfl
@[simp] theorem State.modCohort_timeFrac (s : State) (u : Nat) (f : Cohort → Cohort) : (s.modCohort u f).timeFrac = s.timeFrac := rfl
@[simp] theorem State.modCohort_slew (s : State) (u : Nat) (f : Cohort → Cohort) : (s.modCohort u f).slew = s.slew := rfl
@[simp] theorem State.modCohort_sensors (s : State) (u : Nat) (f : Cohort → Cohort) : (s.modCohort u f).sensors = s.sensors := rfl
@[simp] theorem State.modCohort_coolSince (s : State) (u : Nat) (f : Cohort → Cohort) : (s.modCohort u f).coolSince = s.coolSince := rfl
@[simp] theorem State.modCohort_hbm (s : State) (u : Nat) (f : Cohort → Cohort) : (s.modCohort u f).hbm = s.hbm := rfl
@[simp] theorem State.modCohort_hostMem (s : State) (u : Nat) (f : Cohort → Cohort) : (s.modCohort u f).hostMem = s.hostMem := rfl
@[simp] theorem State.modCohort_mailbox (s : State) (u : Nat) (f : Cohort → Cohort) : (s.modCohort u f).mailbox = s.mailbox := rfl
@[simp] theorem State.modCohort_msc (s : State) (u : Nat) (f : Cohort → Cohort) : (s.modCohort u f).msc = s.msc := rfl
@[simp] theorem State.modCohort_poison (s : State) (u : Nat) (f : Cohort → Cohort) : (s.modCohort u f).poison = s.poison := rfl
@[simp] theorem State.modCohort_badMac (s : State) (u : Nat) (f : Cohort → Cohort) : (s.modCohort u f).badMac = s.badMac := rfl
@[simp] theorem State.modCohort_slices (s : State) (u : Nat) (f : Cohort → Cohort) : (s.modCohort u f).slices = s.slices := rfl
@[simp] theorem State.modCohort_openBytes (s : State) (u : Nat) (f : Cohort → Cohort) : (s.modCohort u f).openBytes = s.openBytes := rfl
@[simp] theorem State.modCohort_hist (s : State) (u : Nat) (f : Cohort → Cohort) : (s.modCohort u f).hist = s.hist := rfl
@[simp] theorem State.modCohort_majors (s : State) (u : Nat) (f : Cohort → Cohort) : (s.modCohort u f).majors = s.majors := rfl
@[simp] theorem State.modCohort_minors (s : State) (u : Nat) (f : Cohort → Cohort) : (s.modCohort u f).minors = s.minors := rfl
@[simp] theorem State.modCohort_contribs (s : State) (u : Nat) (f : Cohort → Cohort) : (s.modCohort u f).contribs = s.contribs := rfl
@[simp] theorem State.modCohort_watches (s : State) (u : Nat) (f : Cohort → Cohort) : (s.modCohort u f).watches = s.watches := rfl
@[simp] theorem State.modCohort_cells (s : State) (u : Nat) (f : Cohort → Cohort) : (s.modCohort u f).cells = s.cells := rfl
@[simp] theorem State.modCohort_tasks (s : State) (u : Nat) (f : Cohort → Cohort) : (s.modCohort u f).tasks = s.tasks := rfl
@[simp] theorem State.modCohort_cohorts (s : State) (u : Nat) (f : Cohort → Cohort) :
    (s.modCohort u f).cohorts = mapFirst (·.uid == u) f s.cohorts := rfl
@[simp] theorem State.modCohort_ranges (s : State) (u : Nat) (f : Cohort → Cohort) : (s.modCohort u f).ranges = s.ranges := rfl
@[simp] theorem State.modCohort_gates (s : State) (u : Nat) (f : Cohort → Cohort) : (s.modCohort u f).gates = s.gates := rfl
@[simp] theorem State.modCohort_jobs (s : State) (u : Nat) (f : Cohort → Cohort) : (s.modCohort u f).jobs = s.jobs := rfl
@[simp] theorem State.modCohort_lastRootId (s : State) (u : Nat) (f : Cohort → Cohort) : (s.modCohort u f).lastRootId = s.lastRootId := rfl
@[simp] theorem State.modCohort_firstJob (s : State) (u : Nat) (f : Cohort → Cohort) : (s.modCohort u f).firstJob = s.firstJob := rfl
@[simp] theorem State.modCohort_stuck (s : State) (u : Nat) (f : Cohort → Cohort) : (s.modCohort u f).stuck = s.stuck := rfl
@[simp] theorem State.modCohort_syscores (s : State) (u : Nat) (f : Cohort → Cohort) : (s.modCohort u f).syscores = s.syscores := rfl
@[simp] theorem State.modCohort_dieStats (s : State) (u : Nat) (f : Cohort → Cohort) : (s.modCohort u f).dieStats = s.dieStats := rfl
@[simp] theorem State.modCohort_dieTlb (s : State) (u : Nat) (f : Cohort → Cohort) : (s.modCohort u f).dieTlb = s.dieTlb := rfl
@[simp] theorem State.modCohort_cores (s : State) (u : Nat) (f : Cohort → Cohort) : (s.modCohort u f).cores = s.cores := rfl
@[simp] theorem State.modCohort_ctxs (s : State) (u : Nat) (f : Cohort → Cohort) : (s.modCohort u f).ctxs = s.ctxs := rfl
@[simp] theorem State.modCohort_escHeld (s : State) (u : Nat) (f : Cohort → Cohort) : (s.modCohort u f).escHeld = s.escHeld := rfl
@[simp] theorem State.modCohort_cregs (s : State) (u : Nat) (f : Cohort → Cohort) : (s.modCohort u f).cregs = s.cregs := rfl
@[simp] theorem State.modCohort_mregs (s : State) (u : Nat) (f : Cohort → Cohort) : (s.modCohort u f).mregs = s.mregs := rfl
@[simp] theorem State.modCohort_pregs (s : State) (u : Nat) (f : Cohort → Cohort) : (s.modCohort u f).pregs = s.pregs := rfl
@[simp] theorem State.modCohort_boot (s : State) (u : Nat) (f : Cohort → Cohort) : (s.modCohort u f).boot = s.boot := rfl
@[simp] theorem State.modCohort_outs (s : State) (u : Nat) (f : Cohort → Cohort) : (s.modCohort u f).outs = s.outs := rfl
/-! ### State.modRange -/

@[simp] theorem State.modRange_tick (s : State) (u : Nat) (f : Range → Range) : (s.modRange u f).tick = s.tick := rfl
@[simp] theorem State.modRange_sched (s : State) (u : Nat) (f : Range → Range) : (s.modRange u f).sched = s.sched := rfl
@[simp] theorem State.modRange_picks (s : State) (u : Nat) (f : Range → Range) : (s.modRange u f).picks = s.picks := rfl
@[simp] theorem State.modRange_inputs (s : State) (u : Nat) (f : Range → Range) : (s.modRange u f).inputs = s.inputs := rfl
@[simp] theorem State.modRange_cur (s : State) (u : Nat) (f : Range → Range) : (s.modRange u f).cur = s.cur := rfl
@[simp] theorem State.modRange_readData (s : State) (u : Nat) (f : Range → Range) : (s.modRange u f).readData = s.readData := rfl
@[simp] theorem State.modRange_nextUid (s : State) (u : Nat) (f : Range → Range) : (s.modRange u f).nextUid = s.nextUid := rfl
@[simp] theorem State.modRange_part (s : State) (u : Nat) (f : Range → Range) : (s.modRange u f).part = s.part := rfl
@[simp] theorem State.modRange_clk (s : State) (u : Nat) (f : Range → Range) : (s.modRange u f).clk = s.clk := rfl
@[simp] theorem State.modRange_clkMHz (s : State) (u : Nat) (f : Range → Range) : (s.modRange u f).clkMHz = s.clkMHz := rfl
@[simp] theorem State.modRange_timeNs (s : State) (u : Nat) (f : Range → Range) : (s.modRange u f).timeNs = s.timeNs := rfl
@[simp] theorem State.modRange_timeFrac (s : State) (u : Nat) (f : Range → Range) : (s.modRange u f).timeFrac = s.timeFrac := rfl
@[simp] theorem State.modRange_slew (s : State) (u : Nat) (f : Range → Range) : (s.modRange u f).slew = s.slew := rfl
@[simp] theorem State.modRange_sensors (s : State) (u : Nat) (f : Range → Range) : (s.modRange u f).sensors = s.sensors := rfl
@[simp] theorem State.modRange_coolSince (s : State) (u : Nat) (f : Range → Range) : (s.modRange u f).coolSince = s.coolSince := rfl
@[simp] theorem State.modRange_hbm (s : State) (u : Nat) (f : Range → Range) : (s.modRange u f).hbm = s.hbm := rfl
@[simp] theorem State.modRange_hostMem (s : State) (u : Nat) (f : Range → Range) : (s.modRange u f).hostMem = s.hostMem := rfl
@[simp] theorem State.modRange_mailbox (s : State) (u : Nat) (f : Range → Range) : (s.modRange u f).mailbox = s.mailbox := rfl
@[simp] theorem State.modRange_msc (s : State) (u : Nat) (f : Range → Range) : (s.modRange u f).msc = s.msc := rfl
@[simp] theorem State.modRange_poison (s : State) (u : Nat) (f : Range → Range) : (s.modRange u f).poison = s.poison := rfl
@[simp] theorem State.modRange_badMac (s : State) (u : Nat) (f : Range → Range) : (s.modRange u f).badMac = s.badMac := rfl
@[simp] theorem State.modRange_slices (s : State) (u : Nat) (f : Range → Range) : (s.modRange u f).slices = s.slices := rfl
@[simp] theorem State.modRange_openBytes (s : State) (u : Nat) (f : Range → Range) : (s.modRange u f).openBytes = s.openBytes := rfl
@[simp] theorem State.modRange_hist (s : State) (u : Nat) (f : Range → Range) : (s.modRange u f).hist = s.hist := rfl
@[simp] theorem State.modRange_majors (s : State) (u : Nat) (f : Range → Range) : (s.modRange u f).majors = s.majors := rfl
@[simp] theorem State.modRange_minors (s : State) (u : Nat) (f : Range → Range) : (s.modRange u f).minors = s.minors := rfl
@[simp] theorem State.modRange_contribs (s : State) (u : Nat) (f : Range → Range) : (s.modRange u f).contribs = s.contribs := rfl
@[simp] theorem State.modRange_watches (s : State) (u : Nat) (f : Range → Range) : (s.modRange u f).watches = s.watches := rfl
@[simp] theorem State.modRange_cells (s : State) (u : Nat) (f : Range → Range) : (s.modRange u f).cells = s.cells := rfl
@[simp] theorem State.modRange_tasks (s : State) (u : Nat) (f : Range → Range) : (s.modRange u f).tasks = s.tasks := rfl
@[simp] theorem State.modRange_cohorts (s : State) (u : Nat) (f : Range → Range) : (s.modRange u f).cohorts = s.cohorts := rfl
@[simp] theorem State.modRange_ranges (s : State) (u : Nat) (f : Range → Range) :
    (s.modRange u f).ranges = mapFirst (·.uid == u) f s.ranges := rfl
@[simp] theorem State.modRange_gates (s : State) (u : Nat) (f : Range → Range) : (s.modRange u f).gates = s.gates := rfl
@[simp] theorem State.modRange_jobs (s : State) (u : Nat) (f : Range → Range) : (s.modRange u f).jobs = s.jobs := rfl
@[simp] theorem State.modRange_lastRootId (s : State) (u : Nat) (f : Range → Range) : (s.modRange u f).lastRootId = s.lastRootId := rfl
@[simp] theorem State.modRange_firstJob (s : State) (u : Nat) (f : Range → Range) : (s.modRange u f).firstJob = s.firstJob := rfl
@[simp] theorem State.modRange_stuck (s : State) (u : Nat) (f : Range → Range) : (s.modRange u f).stuck = s.stuck := rfl
@[simp] theorem State.modRange_syscores (s : State) (u : Nat) (f : Range → Range) : (s.modRange u f).syscores = s.syscores := rfl
@[simp] theorem State.modRange_dieStats (s : State) (u : Nat) (f : Range → Range) : (s.modRange u f).dieStats = s.dieStats := rfl
@[simp] theorem State.modRange_dieTlb (s : State) (u : Nat) (f : Range → Range) : (s.modRange u f).dieTlb = s.dieTlb := rfl
@[simp] theorem State.modRange_cores (s : State) (u : Nat) (f : Range → Range) : (s.modRange u f).cores = s.cores := rfl
@[simp] theorem State.modRange_ctxs (s : State) (u : Nat) (f : Range → Range) : (s.modRange u f).ctxs = s.ctxs := rfl
@[simp] theorem State.modRange_escHeld (s : State) (u : Nat) (f : Range → Range) : (s.modRange u f).escHeld = s.escHeld := rfl
@[simp] theorem State.modRange_cregs (s : State) (u : Nat) (f : Range → Range) : (s.modRange u f).cregs = s.cregs := rfl
@[simp] theorem State.modRange_mregs (s : State) (u : Nat) (f : Range → Range) : (s.modRange u f).mregs = s.mregs := rfl
@[simp] theorem State.modRange_pregs (s : State) (u : Nat) (f : Range → Range) : (s.modRange u f).pregs = s.pregs := rfl
@[simp] theorem State.modRange_boot (s : State) (u : Nat) (f : Range → Range) : (s.modRange u f).boot = s.boot := rfl
@[simp] theorem State.modRange_outs (s : State) (u : Nat) (f : Range → Range) : (s.modRange u f).outs = s.outs := rfl
/-! ### State.modJob -/

@[simp] theorem State.modJob_tick (s : State) (i : BitVec 32) (f : Job → Job) : (s.modJob i f).tick = s.tick := rfl
@[simp] theorem State.modJob_sched (s : State) (i : BitVec 32) (f : Job → Job) : (s.modJob i f).sched = s.sched := rfl
@[simp] theorem State.modJob_picks (s : State) (i : BitVec 32) (f : Job → Job) : (s.modJob i f).picks = s.picks := rfl
@[simp] theorem State.modJob_inputs (s : State) (i : BitVec 32) (f : Job → Job) : (s.modJob i f).inputs = s.inputs := rfl
@[simp] theorem State.modJob_cur (s : State) (i : BitVec 32) (f : Job → Job) : (s.modJob i f).cur = s.cur := rfl
@[simp] theorem State.modJob_readData (s : State) (i : BitVec 32) (f : Job → Job) : (s.modJob i f).readData = s.readData := rfl
@[simp] theorem State.modJob_nextUid (s : State) (i : BitVec 32) (f : Job → Job) : (s.modJob i f).nextUid = s.nextUid := rfl
@[simp] theorem State.modJob_part (s : State) (i : BitVec 32) (f : Job → Job) : (s.modJob i f).part = s.part := rfl
@[simp] theorem State.modJob_clk (s : State) (i : BitVec 32) (f : Job → Job) : (s.modJob i f).clk = s.clk := rfl
@[simp] theorem State.modJob_clkMHz (s : State) (i : BitVec 32) (f : Job → Job) : (s.modJob i f).clkMHz = s.clkMHz := rfl
@[simp] theorem State.modJob_timeNs (s : State) (i : BitVec 32) (f : Job → Job) : (s.modJob i f).timeNs = s.timeNs := rfl
@[simp] theorem State.modJob_timeFrac (s : State) (i : BitVec 32) (f : Job → Job) : (s.modJob i f).timeFrac = s.timeFrac := rfl
@[simp] theorem State.modJob_slew (s : State) (i : BitVec 32) (f : Job → Job) : (s.modJob i f).slew = s.slew := rfl
@[simp] theorem State.modJob_sensors (s : State) (i : BitVec 32) (f : Job → Job) : (s.modJob i f).sensors = s.sensors := rfl
@[simp] theorem State.modJob_coolSince (s : State) (i : BitVec 32) (f : Job → Job) : (s.modJob i f).coolSince = s.coolSince := rfl
@[simp] theorem State.modJob_hbm (s : State) (i : BitVec 32) (f : Job → Job) : (s.modJob i f).hbm = s.hbm := rfl
@[simp] theorem State.modJob_hostMem (s : State) (i : BitVec 32) (f : Job → Job) : (s.modJob i f).hostMem = s.hostMem := rfl
@[simp] theorem State.modJob_mailbox (s : State) (i : BitVec 32) (f : Job → Job) : (s.modJob i f).mailbox = s.mailbox := rfl
@[simp] theorem State.modJob_msc (s : State) (i : BitVec 32) (f : Job → Job) : (s.modJob i f).msc = s.msc := rfl
@[simp] theorem State.modJob_poison (s : State) (i : BitVec 32) (f : Job → Job) : (s.modJob i f).poison = s.poison := rfl
@[simp] theorem State.modJob_badMac (s : State) (i : BitVec 32) (f : Job → Job) : (s.modJob i f).badMac = s.badMac := rfl
@[simp] theorem State.modJob_slices (s : State) (i : BitVec 32) (f : Job → Job) : (s.modJob i f).slices = s.slices := rfl
@[simp] theorem State.modJob_openBytes (s : State) (i : BitVec 32) (f : Job → Job) : (s.modJob i f).openBytes = s.openBytes := rfl
@[simp] theorem State.modJob_hist (s : State) (i : BitVec 32) (f : Job → Job) : (s.modJob i f).hist = s.hist := rfl
@[simp] theorem State.modJob_majors (s : State) (i : BitVec 32) (f : Job → Job) : (s.modJob i f).majors = s.majors := rfl
@[simp] theorem State.modJob_minors (s : State) (i : BitVec 32) (f : Job → Job) : (s.modJob i f).minors = s.minors := rfl
@[simp] theorem State.modJob_contribs (s : State) (i : BitVec 32) (f : Job → Job) : (s.modJob i f).contribs = s.contribs := rfl
@[simp] theorem State.modJob_watches (s : State) (i : BitVec 32) (f : Job → Job) : (s.modJob i f).watches = s.watches := rfl
@[simp] theorem State.modJob_cells (s : State) (i : BitVec 32) (f : Job → Job) : (s.modJob i f).cells = s.cells := rfl
@[simp] theorem State.modJob_tasks (s : State) (i : BitVec 32) (f : Job → Job) : (s.modJob i f).tasks = s.tasks := rfl
@[simp] theorem State.modJob_cohorts (s : State) (i : BitVec 32) (f : Job → Job) : (s.modJob i f).cohorts = s.cohorts := rfl
@[simp] theorem State.modJob_ranges (s : State) (i : BitVec 32) (f : Job → Job) : (s.modJob i f).ranges = s.ranges := rfl
@[simp] theorem State.modJob_gates (s : State) (i : BitVec 32) (f : Job → Job) : (s.modJob i f).gates = s.gates := rfl
@[simp] theorem State.modJob_jobs (s : State) (i : BitVec 32) (f : Job → Job) : (s.modJob i f).jobs = mapFirst (·.id == i) f s.jobs := rfl
@[simp] theorem State.modJob_lastRootId (s : State) (i : BitVec 32) (f : Job → Job) : (s.modJob i f).lastRootId = s.lastRootId := rfl
@[simp] theorem State.modJob_firstJob (s : State) (i : BitVec 32) (f : Job → Job) : (s.modJob i f).firstJob = s.firstJob := rfl
@[simp] theorem State.modJob_stuck (s : State) (i : BitVec 32) (f : Job → Job) : (s.modJob i f).stuck = s.stuck := rfl
@[simp] theorem State.modJob_syscores (s : State) (i : BitVec 32) (f : Job → Job) : (s.modJob i f).syscores = s.syscores := rfl
@[simp] theorem State.modJob_dieStats (s : State) (i : BitVec 32) (f : Job → Job) : (s.modJob i f).dieStats = s.dieStats := rfl
@[simp] theorem State.modJob_dieTlb (s : State) (i : BitVec 32) (f : Job → Job) : (s.modJob i f).dieTlb = s.dieTlb := rfl
@[simp] theorem State.modJob_cores (s : State) (i : BitVec 32) (f : Job → Job) : (s.modJob i f).cores = s.cores := rfl
@[simp] theorem State.modJob_ctxs (s : State) (i : BitVec 32) (f : Job → Job) : (s.modJob i f).ctxs = s.ctxs := rfl
@[simp] theorem State.modJob_escHeld (s : State) (i : BitVec 32) (f : Job → Job) : (s.modJob i f).escHeld = s.escHeld := rfl
@[simp] theorem State.modJob_cregs (s : State) (i : BitVec 32) (f : Job → Job) : (s.modJob i f).cregs = s.cregs := rfl
@[simp] theorem State.modJob_mregs (s : State) (i : BitVec 32) (f : Job → Job) : (s.modJob i f).mregs = s.mregs := rfl
@[simp] theorem State.modJob_pregs (s : State) (i : BitVec 32) (f : Job → Job) : (s.modJob i f).pregs = s.pregs := rfl
@[simp] theorem State.modJob_boot (s : State) (i : BitVec 32) (f : Job → Job) : (s.modJob i f).boot = s.boot := rfl
@[simp] theorem State.modJob_outs (s : State) (i : BitVec 32) (f : Job → Job) : (s.modJob i f).outs = s.outs := rfl
/-! ### State.setCell -/

@[simp] theorem State.setCell_tick (s : State) (c : Cell) : (s.setCell c).tick = s.tick := rfl
@[simp] theorem State.setCell_sched (s : State) (c : Cell) : (s.setCell c).sched = s.sched := rfl
@[simp] theorem State.setCell_picks (s : State) (c : Cell) : (s.setCell c).picks = s.picks := rfl
@[simp] theorem State.setCell_inputs (s : State) (c : Cell) : (s.setCell c).inputs = s.inputs := rfl
@[simp] theorem State.setCell_cur (s : State) (c : Cell) : (s.setCell c).cur = s.cur := rfl
@[simp] theorem State.setCell_readData (s : State) (c : Cell) : (s.setCell c).readData = s.readData := rfl
@[simp] theorem State.setCell_nextUid (s : State) (c : Cell) : (s.setCell c).nextUid = s.nextUid := rfl
@[simp] theorem State.setCell_part (s : State) (c : Cell) : (s.setCell c).part = s.part := rfl
@[simp] theorem State.setCell_clk (s : State) (c : Cell) : (s.setCell c).clk = s.clk := rfl
@[simp] theorem State.setCell_clkMHz (s : State) (c : Cell) : (s.setCell c).clkMHz = s.clkMHz := rfl
@[simp] theorem State.setCell_timeNs (s : State) (c : Cell) : (s.setCell c).timeNs = s.timeNs := rfl
@[simp] theorem State.setCell_timeFrac (s : State) (c : Cell) : (s.setCell c).timeFrac = s.timeFrac := rfl
@[simp] theorem State.setCell_slew (s : State) (c : Cell) : (s.setCell c).slew = s.slew := rfl
@[simp] theorem State.setCell_sensors (s : State) (c : Cell) : (s.setCell c).sensors = s.sensors := rfl
@[simp] theorem State.setCell_coolSince (s : State) (c : Cell) : (s.setCell c).coolSince = s.coolSince := rfl
@[simp] theorem State.setCell_hbm (s : State) (c : Cell) : (s.setCell c).hbm = s.hbm := rfl
@[simp] theorem State.setCell_hostMem (s : State) (c : Cell) : (s.setCell c).hostMem = s.hostMem := rfl
@[simp] theorem State.setCell_mailbox (s : State) (c : Cell) : (s.setCell c).mailbox = s.mailbox := rfl
@[simp] theorem State.setCell_msc (s : State) (c : Cell) : (s.setCell c).msc = s.msc := rfl
@[simp] theorem State.setCell_poison (s : State) (c : Cell) : (s.setCell c).poison = s.poison := rfl
@[simp] theorem State.setCell_badMac (s : State) (c : Cell) : (s.setCell c).badMac = s.badMac := rfl
@[simp] theorem State.setCell_slices (s : State) (c : Cell) : (s.setCell c).slices = s.slices := rfl
@[simp] theorem State.setCell_openBytes (s : State) (c : Cell) : (s.setCell c).openBytes = s.openBytes := rfl
@[simp] theorem State.setCell_hist (s : State) (c : Cell) : (s.setCell c).hist = s.hist := rfl
@[simp] theorem State.setCell_majors (s : State) (c : Cell) : (s.setCell c).majors = s.majors := rfl
@[simp] theorem State.setCell_minors (s : State) (c : Cell) : (s.setCell c).minors = s.minors := rfl
@[simp] theorem State.setCell_contribs (s : State) (c : Cell) : (s.setCell c).contribs = s.contribs := rfl
@[simp] theorem State.setCell_watches (s : State) (c : Cell) : (s.setCell c).watches = s.watches := rfl
@[simp] theorem State.setCell_cells (s : State) (c : Cell) : (s.setCell c).cells = insertCell c s.cells := rfl
@[simp] theorem State.setCell_tasks (s : State) (c : Cell) : (s.setCell c).tasks = s.tasks := rfl
@[simp] theorem State.setCell_cohorts (s : State) (c : Cell) : (s.setCell c).cohorts = s.cohorts := rfl
@[simp] theorem State.setCell_ranges (s : State) (c : Cell) : (s.setCell c).ranges = s.ranges := rfl
@[simp] theorem State.setCell_gates (s : State) (c : Cell) : (s.setCell c).gates = s.gates := rfl
@[simp] theorem State.setCell_jobs (s : State) (c : Cell) : (s.setCell c).jobs = s.jobs := rfl
@[simp] theorem State.setCell_lastRootId (s : State) (c : Cell) : (s.setCell c).lastRootId = s.lastRootId := rfl
@[simp] theorem State.setCell_firstJob (s : State) (c : Cell) : (s.setCell c).firstJob = s.firstJob := rfl
@[simp] theorem State.setCell_stuck (s : State) (c : Cell) : (s.setCell c).stuck = s.stuck := rfl
@[simp] theorem State.setCell_syscores (s : State) (c : Cell) : (s.setCell c).syscores = s.syscores := rfl
@[simp] theorem State.setCell_dieStats (s : State) (c : Cell) : (s.setCell c).dieStats = s.dieStats := rfl
@[simp] theorem State.setCell_dieTlb (s : State) (c : Cell) : (s.setCell c).dieTlb = s.dieTlb := rfl
@[simp] theorem State.setCell_cores (s : State) (c : Cell) : (s.setCell c).cores = s.cores := rfl
@[simp] theorem State.setCell_ctxs (s : State) (c : Cell) : (s.setCell c).ctxs = s.ctxs := rfl
@[simp] theorem State.setCell_escHeld (s : State) (c : Cell) : (s.setCell c).escHeld = s.escHeld := rfl
@[simp] theorem State.setCell_cregs (s : State) (c : Cell) : (s.setCell c).cregs = s.cregs := rfl
@[simp] theorem State.setCell_mregs (s : State) (c : Cell) : (s.setCell c).mregs = s.mregs := rfl
@[simp] theorem State.setCell_pregs (s : State) (c : Cell) : (s.setCell c).pregs = s.pregs := rfl
@[simp] theorem State.setCell_boot (s : State) (c : Cell) : (s.setCell c).boot = s.boot := rfl
@[simp] theorem State.setCell_outs (s : State) (c : Cell) : (s.setCell c).outs = s.outs := rfl
/-! ### State.setCtx -/

@[simp] theorem State.setCtx_tick (s : State) (c : Nat) (x : Ctx) : (s.setCtx c x).tick = s.tick := rfl
@[simp] theorem State.setCtx_sched (s : State) (c : Nat) (x : Ctx) : (s.setCtx c x).sched = s.sched := rfl
@[simp] theorem State.setCtx_picks (s : State) (c : Nat) (x : Ctx) : (s.setCtx c x).picks = s.picks := rfl
@[simp] theorem State.setCtx_inputs (s : State) (c : Nat) (x : Ctx) : (s.setCtx c x).inputs = s.inputs := rfl
@[simp] theorem State.setCtx_cur (s : State) (c : Nat) (x : Ctx) : (s.setCtx c x).cur = s.cur := rfl
@[simp] theorem State.setCtx_readData (s : State) (c : Nat) (x : Ctx) : (s.setCtx c x).readData = s.readData := rfl
@[simp] theorem State.setCtx_nextUid (s : State) (c : Nat) (x : Ctx) : (s.setCtx c x).nextUid = s.nextUid := rfl
@[simp] theorem State.setCtx_part (s : State) (c : Nat) (x : Ctx) : (s.setCtx c x).part = s.part := rfl
@[simp] theorem State.setCtx_clk (s : State) (c : Nat) (x : Ctx) : (s.setCtx c x).clk = s.clk := rfl
@[simp] theorem State.setCtx_clkMHz (s : State) (c : Nat) (x : Ctx) : (s.setCtx c x).clkMHz = s.clkMHz := rfl
@[simp] theorem State.setCtx_timeNs (s : State) (c : Nat) (x : Ctx) : (s.setCtx c x).timeNs = s.timeNs := rfl
@[simp] theorem State.setCtx_timeFrac (s : State) (c : Nat) (x : Ctx) : (s.setCtx c x).timeFrac = s.timeFrac := rfl
@[simp] theorem State.setCtx_slew (s : State) (c : Nat) (x : Ctx) : (s.setCtx c x).slew = s.slew := rfl
@[simp] theorem State.setCtx_sensors (s : State) (c : Nat) (x : Ctx) : (s.setCtx c x).sensors = s.sensors := rfl
@[simp] theorem State.setCtx_coolSince (s : State) (c : Nat) (x : Ctx) : (s.setCtx c x).coolSince = s.coolSince := rfl
@[simp] theorem State.setCtx_hbm (s : State) (c : Nat) (x : Ctx) : (s.setCtx c x).hbm = s.hbm := rfl
@[simp] theorem State.setCtx_hostMem (s : State) (c : Nat) (x : Ctx) : (s.setCtx c x).hostMem = s.hostMem := rfl
@[simp] theorem State.setCtx_mailbox (s : State) (c : Nat) (x : Ctx) : (s.setCtx c x).mailbox = s.mailbox := rfl
@[simp] theorem State.setCtx_msc (s : State) (c : Nat) (x : Ctx) : (s.setCtx c x).msc = s.msc := rfl
@[simp] theorem State.setCtx_poison (s : State) (c : Nat) (x : Ctx) : (s.setCtx c x).poison = s.poison := rfl
@[simp] theorem State.setCtx_badMac (s : State) (c : Nat) (x : Ctx) : (s.setCtx c x).badMac = s.badMac := rfl
@[simp] theorem State.setCtx_slices (s : State) (c : Nat) (x : Ctx) : (s.setCtx c x).slices = s.slices := rfl
@[simp] theorem State.setCtx_openBytes (s : State) (c : Nat) (x : Ctx) : (s.setCtx c x).openBytes = s.openBytes := rfl
@[simp] theorem State.setCtx_hist (s : State) (c : Nat) (x : Ctx) : (s.setCtx c x).hist = s.hist := rfl
@[simp] theorem State.setCtx_majors (s : State) (c : Nat) (x : Ctx) : (s.setCtx c x).majors = s.majors := rfl
@[simp] theorem State.setCtx_minors (s : State) (c : Nat) (x : Ctx) : (s.setCtx c x).minors = s.minors := rfl
@[simp] theorem State.setCtx_contribs (s : State) (c : Nat) (x : Ctx) : (s.setCtx c x).contribs = s.contribs := rfl
@[simp] theorem State.setCtx_watches (s : State) (c : Nat) (x : Ctx) : (s.setCtx c x).watches = s.watches := rfl
@[simp] theorem State.setCtx_cells (s : State) (c : Nat) (x : Ctx) : (s.setCtx c x).cells = s.cells := rfl
@[simp] theorem State.setCtx_tasks (s : State) (c : Nat) (x : Ctx) : (s.setCtx c x).tasks = s.tasks := rfl
@[simp] theorem State.setCtx_cohorts (s : State) (c : Nat) (x : Ctx) : (s.setCtx c x).cohorts = s.cohorts := rfl
@[simp] theorem State.setCtx_ranges (s : State) (c : Nat) (x : Ctx) : (s.setCtx c x).ranges = s.ranges := rfl
@[simp] theorem State.setCtx_gates (s : State) (c : Nat) (x : Ctx) : (s.setCtx c x).gates = s.gates := rfl
@[simp] theorem State.setCtx_jobs (s : State) (c : Nat) (x : Ctx) : (s.setCtx c x).jobs = s.jobs := rfl
@[simp] theorem State.setCtx_lastRootId (s : State) (c : Nat) (x : Ctx) : (s.setCtx c x).lastRootId = s.lastRootId := rfl
@[simp] theorem State.setCtx_firstJob (s : State) (c : Nat) (x : Ctx) : (s.setCtx c x).firstJob = s.firstJob := rfl
@[simp] theorem State.setCtx_stuck (s : State) (c : Nat) (x : Ctx) : (s.setCtx c x).stuck = s.stuck := rfl
@[simp] theorem State.setCtx_syscores (s : State) (c : Nat) (x : Ctx) : (s.setCtx c x).syscores = s.syscores := rfl
@[simp] theorem State.setCtx_dieStats (s : State) (c : Nat) (x : Ctx) : (s.setCtx c x).dieStats = s.dieStats := rfl
@[simp] theorem State.setCtx_dieTlb (s : State) (c : Nat) (x : Ctx) : (s.setCtx c x).dieTlb = s.dieTlb := rfl
@[simp] theorem State.setCtx_cores (s : State) (c : Nat) (x : Ctx) : (s.setCtx c x).cores = s.cores := rfl
@[simp] theorem State.setCtx_ctxs (s : State) (c : Nat) (x : Ctx) : (s.setCtx c x).ctxs = alSet s.ctxs c x := rfl
@[simp] theorem State.setCtx_escHeld (s : State) (c : Nat) (x : Ctx) : (s.setCtx c x).escHeld = s.escHeld := rfl
@[simp] theorem State.setCtx_cregs (s : State) (c : Nat) (x : Ctx) : (s.setCtx c x).cregs = s.cregs := rfl
@[simp] theorem State.setCtx_mregs (s : State) (c : Nat) (x : Ctx) : (s.setCtx c x).mregs = s.mregs := rfl
@[simp] theorem State.setCtx_pregs (s : State) (c : Nat) (x : Ctx) : (s.setCtx c x).pregs = s.pregs := rfl
@[simp] theorem State.setCtx_boot (s : State) (c : Nat) (x : Ctx) : (s.setCtx c x).boot = s.boot := rfl
@[simp] theorem State.setCtx_outs (s : State) (c : Nat) (x : Ctx) : (s.setCtx c x).outs = s.outs := rfl
/-! ### State.irq -/

@[simp] theorem State.irq_tick (s : State) (i : Nat) : (s.irq i).tick = s.tick := rfl
@[simp] theorem State.irq_sched (s : State) (i : Nat) : (s.irq i).sched = s.sched := rfl
@[simp] theorem State.irq_picks (s : State) (i : Nat) : (s.irq i).picks = s.picks := rfl
@[simp] theorem State.irq_inputs (s : State) (i : Nat) : (s.irq i).inputs = s.inputs := rfl
@[simp] theorem State.irq_cur (s : State) (i : Nat) : (s.irq i).cur = s.cur := rfl
@[simp] theorem State.irq_readData (s : State) (i : Nat) : (s.irq i).readData = s.readData := rfl
@[simp] theorem State.irq_nextUid (s : State) (i : Nat) : (s.irq i).nextUid = s.nextUid := rfl
@[simp] theorem State.irq_part (s : State) (i : Nat) : (s.irq i).part = s.part := rfl
@[simp] theorem State.irq_clk (s : State) (i : Nat) : (s.irq i).clk = s.clk := rfl
@[simp] theorem State.irq_clkMHz (s : State) (i : Nat) : (s.irq i).clkMHz = s.clkMHz := rfl
@[simp] theorem State.irq_timeNs (s : State) (i : Nat) : (s.irq i).timeNs = s.timeNs := rfl
@[simp] theorem State.irq_timeFrac (s : State) (i : Nat) : (s.irq i).timeFrac = s.timeFrac := rfl
@[simp] theorem State.irq_slew (s : State) (i : Nat) : (s.irq i).slew = s.slew := rfl
@[simp] theorem State.irq_sensors (s : State) (i : Nat) : (s.irq i).sensors = s.sensors := rfl
@[simp] theorem State.irq_coolSince (s : State) (i : Nat) : (s.irq i).coolSince = s.coolSince := rfl
@[simp] theorem State.irq_hbm (s : State) (i : Nat) : (s.irq i).hbm = s.hbm := rfl
@[simp] theorem State.irq_hostMem (s : State) (i : Nat) : (s.irq i).hostMem = s.hostMem := rfl
@[simp] theorem State.irq_mailbox (s : State) (i : Nat) : (s.irq i).mailbox = s.mailbox := rfl
@[simp] theorem State.irq_msc (s : State) (i : Nat) : (s.irq i).msc = s.msc := rfl
@[simp] theorem State.irq_poison (s : State) (i : Nat) : (s.irq i).poison = s.poison := rfl
@[simp] theorem State.irq_badMac (s : State) (i : Nat) : (s.irq i).badMac = s.badMac := rfl
@[simp] theorem State.irq_slices (s : State) (i : Nat) : (s.irq i).slices = s.slices := rfl
@[simp] theorem State.irq_openBytes (s : State) (i : Nat) : (s.irq i).openBytes = s.openBytes := rfl
@[simp] theorem State.irq_hist (s : State) (i : Nat) : (s.irq i).hist = s.hist := rfl
@[simp] theorem State.irq_majors (s : State) (i : Nat) : (s.irq i).majors = s.majors := rfl
@[simp] theorem State.irq_minors (s : State) (i : Nat) : (s.irq i).minors = s.minors := rfl
@[simp] theorem State.irq_contribs (s : State) (i : Nat) : (s.irq i).contribs = s.contribs := rfl
@[simp] theorem State.irq_watches (s : State) (i : Nat) : (s.irq i).watches = s.watches := rfl
@[simp] theorem State.irq_cells (s : State) (i : Nat) : (s.irq i).cells = s.cells := rfl
@[simp] theorem State.irq_tasks (s : State) (i : Nat) : (s.irq i).tasks = s.tasks := rfl
@[simp] theorem State.irq_cohorts (s : State) (i : Nat) : (s.irq i).cohorts = s.cohorts := rfl
@[simp] theorem State.irq_ranges (s : State) (i : Nat) : (s.irq i).ranges = s.ranges := rfl
@[simp] theorem State.irq_gates (s : State) (i : Nat) : (s.irq i).gates = s.gates := rfl
@[simp] theorem State.irq_jobs (s : State) (i : Nat) : (s.irq i).jobs = s.jobs := rfl
@[simp] theorem State.irq_lastRootId (s : State) (i : Nat) : (s.irq i).lastRootId = s.lastRootId := rfl
@[simp] theorem State.irq_firstJob (s : State) (i : Nat) : (s.irq i).firstJob = s.firstJob := rfl
@[simp] theorem State.irq_stuck (s : State) (i : Nat) : (s.irq i).stuck = s.stuck := rfl
@[simp] theorem State.irq_syscores (s : State) (i : Nat) : (s.irq i).syscores = s.syscores := rfl
@[simp] theorem State.irq_dieStats (s : State) (i : Nat) : (s.irq i).dieStats = s.dieStats := rfl
@[simp] theorem State.irq_dieTlb (s : State) (i : Nat) : (s.irq i).dieTlb = s.dieTlb := rfl
@[simp] theorem State.irq_cores (s : State) (i : Nat) : (s.irq i).cores = s.cores := rfl
@[simp] theorem State.irq_ctxs (s : State) (i : Nat) : (s.irq i).ctxs = s.ctxs := rfl
@[simp] theorem State.irq_escHeld (s : State) (i : Nat) : (s.irq i).escHeld = s.escHeld := rfl
@[simp] theorem State.irq_cregs (s : State) (i : Nat) : (s.irq i).cregs = s.cregs := rfl
@[simp] theorem State.irq_mregs (s : State) (i : Nat) : (s.irq i).mregs = s.mregs := rfl
@[simp] theorem State.irq_pregs (s : State) (i : Nat) :
    (s.irq i).pregs = { s.pregs with irqStatus := s.pregs.irqStatus ||| BitVec.twoPow 64 i } := rfl
@[simp] theorem State.irq_boot (s : State) (i : Nat) : (s.irq i).boot = s.boot := rfl
@[simp] theorem State.irq_outs (s : State) (i : Nat) :
    (s.irq i).outs = if s.pregs.irqEnable.getLsbD i then s.outs ++ [.msix i] else s.outs := rfl
/-! ### State.modTask -/

@[simp] theorem State.modTask_tick (s : State) (u : Nat) (f : Task → Task) : (s.modTask u f).tick = s.tick := by unfold State.modTask; split <;> rfl
@[simp] theorem State.modTask_sched (s : State) (u : Nat) (f : Task → Task) : (s.modTask u f).sched = s.sched := by unfold State.modTask; split <;> rfl
@[simp] theorem State.modTask_picks (s : State) (u : Nat) (f : Task → Task) : (s.modTask u f).picks = s.picks := by unfold State.modTask; split <;> rfl
@[simp] theorem State.modTask_inputs (s : State) (u : Nat) (f : Task → Task) : (s.modTask u f).inputs = s.inputs := by unfold State.modTask; split <;> rfl
@[simp] theorem State.modTask_cur (s : State) (u : Nat) (f : Task → Task) : (s.modTask u f).cur = s.cur := by unfold State.modTask; split <;> rfl
@[simp] theorem State.modTask_readData (s : State) (u : Nat) (f : Task → Task) : (s.modTask u f).readData = s.readData := by unfold State.modTask; split <;> rfl
@[simp] theorem State.modTask_nextUid (s : State) (u : Nat) (f : Task → Task) : (s.modTask u f).nextUid = s.nextUid := by unfold State.modTask; split <;> rfl
@[simp] theorem State.modTask_part (s : State) (u : Nat) (f : Task → Task) : (s.modTask u f).part = s.part := by unfold State.modTask; split <;> rfl
@[simp] theorem State.modTask_clk (s : State) (u : Nat) (f : Task → Task) : (s.modTask u f).clk = s.clk := by unfold State.modTask; split <;> rfl
@[simp] theorem State.modTask_clkMHz (s : State) (u : Nat) (f : Task → Task) : (s.modTask u f).clkMHz = s.clkMHz := by unfold State.modTask; split <;> rfl
@[simp] theorem State.modTask_timeNs (s : State) (u : Nat) (f : Task → Task) : (s.modTask u f).timeNs = s.timeNs := by unfold State.modTask; split <;> rfl
@[simp] theorem State.modTask_timeFrac (s : State) (u : Nat) (f : Task → Task) : (s.modTask u f).timeFrac = s.timeFrac := by unfold State.modTask; split <;> rfl
@[simp] theorem State.modTask_slew (s : State) (u : Nat) (f : Task → Task) : (s.modTask u f).slew = s.slew := by unfold State.modTask; split <;> rfl
@[simp] theorem State.modTask_sensors (s : State) (u : Nat) (f : Task → Task) : (s.modTask u f).sensors = s.sensors := by unfold State.modTask; split <;> rfl
@[simp] theorem State.modTask_coolSince (s : State) (u : Nat) (f : Task → Task) : (s.modTask u f).coolSince = s.coolSince := by unfold State.modTask; split <;> rfl
@[simp] theorem State.modTask_hbm (s : State) (u : Nat) (f : Task → Task) : (s.modTask u f).hbm = s.hbm := by unfold State.modTask; split <;> rfl
@[simp] theorem State.modTask_hostMem (s : State) (u : Nat) (f : Task → Task) : (s.modTask u f).hostMem = s.hostMem := by unfold State.modTask; split <;> rfl
@[simp] theorem State.modTask_mailbox (s : State) (u : Nat) (f : Task → Task) : (s.modTask u f).mailbox = s.mailbox := by unfold State.modTask; split <;> rfl
@[simp] theorem State.modTask_msc (s : State) (u : Nat) (f : Task → Task) : (s.modTask u f).msc = s.msc := by unfold State.modTask; split <;> rfl
@[simp] theorem State.modTask_poison (s : State) (u : Nat) (f : Task → Task) : (s.modTask u f).poison = s.poison := by unfold State.modTask; split <;> rfl
@[simp] theorem State.modTask_badMac (s : State) (u : Nat) (f : Task → Task) : (s.modTask u f).badMac = s.badMac := by unfold State.modTask; split <;> rfl
@[simp] theorem State.modTask_slices (s : State) (u : Nat) (f : Task → Task) : (s.modTask u f).slices = s.slices := by unfold State.modTask; split <;> rfl
@[simp] theorem State.modTask_openBytes (s : State) (u : Nat) (f : Task → Task) : (s.modTask u f).openBytes = s.openBytes := by unfold State.modTask; split <;> rfl
@[simp] theorem State.modTask_hist (s : State) (u : Nat) (f : Task → Task) : (s.modTask u f).hist = s.hist := by unfold State.modTask; split <;> rfl
@[simp] theorem State.modTask_majors (s : State) (u : Nat) (f : Task → Task) : (s.modTask u f).majors = s.majors := by unfold State.modTask; split <;> rfl
@[simp] theorem State.modTask_minors (s : State) (u : Nat) (f : Task → Task) : (s.modTask u f).minors = s.minors := by unfold State.modTask; split <;> rfl
@[simp] theorem State.modTask_contribs (s : State) (u : Nat) (f : Task → Task) : (s.modTask u f).contribs = s.contribs := by unfold State.modTask; split <;> rfl
@[simp] theorem State.modTask_watches (s : State) (u : Nat) (f : Task → Task) : (s.modTask u f).watches = s.watches := by unfold State.modTask; split <;> rfl
@[simp] theorem State.modTask_cells (s : State) (u : Nat) (f : Task → Task) : (s.modTask u f).cells = s.cells := by unfold State.modTask; split <;> rfl
@[simp] theorem State.modTask_cohorts (s : State) (u : Nat) (f : Task → Task) : (s.modTask u f).cohorts = s.cohorts := by unfold State.modTask; split <;> rfl
@[simp] theorem State.modTask_ranges (s : State) (u : Nat) (f : Task → Task) : (s.modTask u f).ranges = s.ranges := by unfold State.modTask; split <;> rfl
@[simp] theorem State.modTask_gates (s : State) (u : Nat) (f : Task → Task) : (s.modTask u f).gates = s.gates := by unfold State.modTask; split <;> rfl
@[simp] theorem State.modTask_jobs (s : State) (u : Nat) (f : Task → Task) : (s.modTask u f).jobs = s.jobs := by unfold State.modTask; split <;> rfl
@[simp] theorem State.modTask_lastRootId (s : State) (u : Nat) (f : Task → Task) : (s.modTask u f).lastRootId = s.lastRootId := by unfold State.modTask; split <;> rfl
@[simp] theorem State.modTask_firstJob (s : State) (u : Nat) (f : Task → Task) : (s.modTask u f).firstJob = s.firstJob := by unfold State.modTask; split <;> rfl
@[simp] theorem State.modTask_stuck (s : State) (u : Nat) (f : Task → Task) : (s.modTask u f).stuck = s.stuck := by unfold State.modTask; split <;> rfl
@[simp] theorem State.modTask_syscores (s : State) (u : Nat) (f : Task → Task) : (s.modTask u f).syscores = s.syscores := by unfold State.modTask; split <;> rfl
@[simp] theorem State.modTask_dieStats (s : State) (u : Nat) (f : Task → Task) : (s.modTask u f).dieStats = s.dieStats := by unfold State.modTask; split <;> rfl
@[simp] theorem State.modTask_dieTlb (s : State) (u : Nat) (f : Task → Task) : (s.modTask u f).dieTlb = s.dieTlb := by unfold State.modTask; split <;> rfl
@[simp] theorem State.modTask_cores (s : State) (u : Nat) (f : Task → Task) : (s.modTask u f).cores = s.cores := by unfold State.modTask; split <;> rfl
@[simp] theorem State.modTask_ctxs (s : State) (u : Nat) (f : Task → Task) : (s.modTask u f).ctxs = s.ctxs := by unfold State.modTask; split <;> rfl
@[simp] theorem State.modTask_escHeld (s : State) (u : Nat) (f : Task → Task) : (s.modTask u f).escHeld = s.escHeld := by unfold State.modTask; split <;> rfl
@[simp] theorem State.modTask_cregs (s : State) (u : Nat) (f : Task → Task) : (s.modTask u f).cregs = s.cregs := by unfold State.modTask; split <;> rfl
@[simp] theorem State.modTask_mregs (s : State) (u : Nat) (f : Task → Task) : (s.modTask u f).mregs = s.mregs := by unfold State.modTask; split <;> rfl
@[simp] theorem State.modTask_pregs (s : State) (u : Nat) (f : Task → Task) : (s.modTask u f).pregs = s.pregs := by unfold State.modTask; split <;> rfl
@[simp] theorem State.modTask_boot (s : State) (u : Nat) (f : Task → Task) : (s.modTask u f).boot = s.boot := by unfold State.modTask; split <;> rfl
@[simp] theorem State.modTask_outs (s : State) (u : Nat) (f : Task → Task) : (s.modTask u f).outs = s.outs := by unfold State.modTask; split <;> rfl
/-! ### State.modWarp -/

@[simp] theorem State.modWarp_tick (s : State) (u : Nat) (f : Warp → Warp) : (s.modWarp u f).tick = s.tick := State.modTask_tick s u _
@[simp] theorem State.modWarp_sched (s : State) (u : Nat) (f : Warp → Warp) : (s.modWarp u f).sched = s.sched := State.modTask_sched s u _
@[simp] theorem State.modWarp_picks (s : State) (u : Nat) (f : Warp → Warp) : (s.modWarp u f).picks = s.picks := State.modTask_picks s u _
@[simp] theorem State.modWarp_inputs (s : State) (u : Nat) (f : Warp → Warp) : (s.modWarp u f).inputs = s.inputs := State.modTask_inputs s u _
@[simp] theorem State.modWarp_cur (s : State) (u : Nat) (f : Warp → Warp) : (s.modWarp u f).cur = s.cur := State.modTask_cur s u _
@[simp] theorem State.modWarp_readData (s : State) (u : Nat) (f : Warp → Warp) : (s.modWarp u f).readData = s.readData := State.modTask_readData s u _
@[simp] theorem State.modWarp_nextUid (s : State) (u : Nat) (f : Warp → Warp) : (s.modWarp u f).nextUid = s.nextUid := State.modTask_nextUid s u _
@[simp] theorem State.modWarp_part (s : State) (u : Nat) (f : Warp → Warp) : (s.modWarp u f).part = s.part := State.modTask_part s u _
@[simp] theorem State.modWarp_clk (s : State) (u : Nat) (f : Warp → Warp) : (s.modWarp u f).clk = s.clk := State.modTask_clk s u _
@[simp] theorem State.modWarp_clkMHz (s : State) (u : Nat) (f : Warp → Warp) : (s.modWarp u f).clkMHz = s.clkMHz := State.modTask_clkMHz s u _
@[simp] theorem State.modWarp_timeNs (s : State) (u : Nat) (f : Warp → Warp) : (s.modWarp u f).timeNs = s.timeNs := State.modTask_timeNs s u _
@[simp] theorem State.modWarp_timeFrac (s : State) (u : Nat) (f : Warp → Warp) : (s.modWarp u f).timeFrac = s.timeFrac := State.modTask_timeFrac s u _
@[simp] theorem State.modWarp_slew (s : State) (u : Nat) (f : Warp → Warp) : (s.modWarp u f).slew = s.slew := State.modTask_slew s u _
@[simp] theorem State.modWarp_sensors (s : State) (u : Nat) (f : Warp → Warp) : (s.modWarp u f).sensors = s.sensors := State.modTask_sensors s u _
@[simp] theorem State.modWarp_coolSince (s : State) (u : Nat) (f : Warp → Warp) : (s.modWarp u f).coolSince = s.coolSince := State.modTask_coolSince s u _
@[simp] theorem State.modWarp_hbm (s : State) (u : Nat) (f : Warp → Warp) : (s.modWarp u f).hbm = s.hbm := State.modTask_hbm s u _
@[simp] theorem State.modWarp_hostMem (s : State) (u : Nat) (f : Warp → Warp) : (s.modWarp u f).hostMem = s.hostMem := State.modTask_hostMem s u _
@[simp] theorem State.modWarp_mailbox (s : State) (u : Nat) (f : Warp → Warp) : (s.modWarp u f).mailbox = s.mailbox := State.modTask_mailbox s u _
@[simp] theorem State.modWarp_msc (s : State) (u : Nat) (f : Warp → Warp) : (s.modWarp u f).msc = s.msc := State.modTask_msc s u _
@[simp] theorem State.modWarp_poison (s : State) (u : Nat) (f : Warp → Warp) : (s.modWarp u f).poison = s.poison := State.modTask_poison s u _
@[simp] theorem State.modWarp_badMac (s : State) (u : Nat) (f : Warp → Warp) : (s.modWarp u f).badMac = s.badMac := State.modTask_badMac s u _
@[simp] theorem State.modWarp_slices (s : State) (u : Nat) (f : Warp → Warp) : (s.modWarp u f).slices = s.slices := State.modTask_slices s u _
@[simp] theorem State.modWarp_openBytes (s : State) (u : Nat) (f : Warp → Warp) : (s.modWarp u f).openBytes = s.openBytes := State.modTask_openBytes s u _
@[simp] theorem State.modWarp_hist (s : State) (u : Nat) (f : Warp → Warp) : (s.modWarp u f).hist = s.hist := State.modTask_hist s u _
@[simp] theorem State.modWarp_majors (s : State) (u : Nat) (f : Warp → Warp) : (s.modWarp u f).majors = s.majors := State.modTask_majors s u _
@[simp] theorem State.modWarp_minors (s : State) (u : Nat) (f : Warp → Warp) : (s.modWarp u f).minors = s.minors := State.modTask_minors s u _
@[simp] theorem State.modWarp_contribs (s : State) (u : Nat) (f : Warp → Warp) : (s.modWarp u f).contribs = s.contribs := State.modTask_contribs s u _
@[simp] theorem State.modWarp_watches (s : State) (u : Nat) (f : Warp → Warp) : (s.modWarp u f).watches = s.watches := State.modTask_watches s u _
@[simp] theorem State.modWarp_cells (s : State) (u : Nat) (f : Warp → Warp) : (s.modWarp u f).cells = s.cells := State.modTask_cells s u _
@[simp] theorem State.modWarp_cohorts (s : State) (u : Nat) (f : Warp → Warp) : (s.modWarp u f).cohorts = s.cohorts := State.modTask_cohorts s u _
@[simp] theorem State.modWarp_ranges (s : State) (u : Nat) (f : Warp → Warp) : (s.modWarp u f).ranges = s.ranges := State.modTask_ranges s u _
@[simp] theorem State.modWarp_gates (s : State) (u : Nat) (f : Warp → Warp) : (s.modWarp u f).gates = s.gates := State.modTask_gates s u _
@[simp] theorem State.modWarp_jobs (s : State) (u : Nat) (f : Warp → Warp) : (s.modWarp u f).jobs = s.jobs := State.modTask_jobs s u _
@[simp] theorem State.modWarp_lastRootId (s : State) (u : Nat) (f : Warp → Warp) : (s.modWarp u f).lastRootId = s.lastRootId := State.modTask_lastRootId s u _
@[simp] theorem State.modWarp_firstJob (s : State) (u : Nat) (f : Warp → Warp) : (s.modWarp u f).firstJob = s.firstJob := State.modTask_firstJob s u _
@[simp] theorem State.modWarp_stuck (s : State) (u : Nat) (f : Warp → Warp) : (s.modWarp u f).stuck = s.stuck := State.modTask_stuck s u _
@[simp] theorem State.modWarp_syscores (s : State) (u : Nat) (f : Warp → Warp) : (s.modWarp u f).syscores = s.syscores := State.modTask_syscores s u _
@[simp] theorem State.modWarp_dieStats (s : State) (u : Nat) (f : Warp → Warp) : (s.modWarp u f).dieStats = s.dieStats := State.modTask_dieStats s u _
@[simp] theorem State.modWarp_dieTlb (s : State) (u : Nat) (f : Warp → Warp) : (s.modWarp u f).dieTlb = s.dieTlb := State.modTask_dieTlb s u _
@[simp] theorem State.modWarp_cores (s : State) (u : Nat) (f : Warp → Warp) : (s.modWarp u f).cores = s.cores := State.modTask_cores s u _
@[simp] theorem State.modWarp_ctxs (s : State) (u : Nat) (f : Warp → Warp) : (s.modWarp u f).ctxs = s.ctxs := State.modTask_ctxs s u _
@[simp] theorem State.modWarp_escHeld (s : State) (u : Nat) (f : Warp → Warp) : (s.modWarp u f).escHeld = s.escHeld := State.modTask_escHeld s u _
@[simp] theorem State.modWarp_cregs (s : State) (u : Nat) (f : Warp → Warp) : (s.modWarp u f).cregs = s.cregs := State.modTask_cregs s u _
@[simp] theorem State.modWarp_mregs (s : State) (u : Nat) (f : Warp → Warp) : (s.modWarp u f).mregs = s.mregs := State.modTask_mregs s u _
@[simp] theorem State.modWarp_pregs (s : State) (u : Nat) (f : Warp → Warp) : (s.modWarp u f).pregs = s.pregs := State.modTask_pregs s u _
@[simp] theorem State.modWarp_boot (s : State) (u : Nat) (f : Warp → Warp) : (s.modWarp u f).boot = s.boot := State.modTask_boot s u _
@[simp] theorem State.modWarp_outs (s : State) (u : Nat) (f : Warp → Warp) : (s.modWarp u f).outs = s.outs := State.modTask_outs s u _
end Sys2Proof.Machine
end

