-- ==== Sys2Proof/Laws/Access.lean ====
section
/-! SUPPORT. Reading back what was put: keyed lists, cores, contexts, tasks, jobs and cohorts. -/

namespace Sys2Proof.Machine

theorem alGet_alSet {α : Type} (l : List (Nat × α)) (a b : Nat) (x : α) :
    alGet (alSet l a x) b = if b = a then some x else alGet l b := by
  induction l with
  | nil => simp [alSet, alGet]
  | cons e l ih =>
    obtain ⟨k, v⟩ := e
    simp only [alSet]
    split
    · simp [alGet]
    · split
      · subst_vars
        by_cases hb : b = k <;> simp [alGet, hb]
      · simp only [alGet, ih]
        by_cases hb : b = k
        · have : b ≠ a := by omega
          simp [hb]; omega
        · simp [hb]

theorem core_setCore (s : State) (c d : Nat) (x : Core) :
    (s.setCore c x).core d = if d = c then x else s.core d := by
  simp only [State.core, State.setCore, alGet_alSet]
  split <;> rfl

@[simp] theorem core_setCore_same (s : State) (c : Nat) (x : Core) : (s.setCore c x).core c = x := by
  simp [core_setCore]

theorem core_modCore (s : State) (c d : Nat) (f : Core → Core) :
    (s.modCore c f).core d = if d = c then f (s.core c) else s.core d := core_setCore _ _ _ _

@[simp] theorem core_modCore_same (s : State) (c : Nat) (f : Core → Core) : (s.modCore c f).core c = f (s.core c) := by
  simp [core_modCore]

theorem ctx_setCtx (s : State) (c d : Nat) (x : Ctx) : (s.setCtx c x).ctx d = if d = c then x else s.ctx d := by
  simp only [State.ctx, State.setCtx, alGet_alSet]
  split <;> rfl

theorem ctx_modCtx (s : State) (c d : Nat) (f : Ctx → Ctx) :
    (s.modCtx c f).ctx d = if d = c then f (s.ctx c) else s.ctx d := ctx_setCtx _ _ _ _

theorem findTask_uid {l : List Task} {u : Nat} {t : Task} (h : findTask l u = some t) : t.uid = u := by
  induction l with
  | nil => cases h
  | cons x l ih =>
    simp only [findTask] at h
    split at h
    · cases h; assumption
    · exact ih h

theorem task?_uid {s : State} {u : Nat} {t : Task} (h : s.task? u = some t) : t.uid = u := findTask_uid h

theorem findTask_putTask {l : List Task} {t : Task} (v : Nat) {y : Task} (h : findTask l t.uid = some y) :
    findTask (putTask l t) v = if v = t.uid then some t else findTask l v := by
  induction l with
  | nil => cases h
  | cons x l ih =>
    by_cases hx : x.uid = t.uid
    · by_cases hv : v = t.uid
      · simp [putTask, findTask, hx, hv]
      · simp [putTask, findTask, hx, hv, Ne.symm hv]
    · have h' : findTask l t.uid = some y := by simpa [findTask, hx] using h
      by_cases hv : v = t.uid
      · subst hv; simpa [putTask, findTask, hx] using ih h'
      · simp [putTask, findTask, hx, hv, ih h']

/-- A task put back stands where it stood, and no other changes. -/
theorem task?_setTask {s : State} {t y : Task} (v : Nat) (h : s.task? t.uid = some y) :
    (s.setTask t).task? v = if v = t.uid then some t else s.task? v := findTask_putTask v h

theorem task?_modTask {s : State} {u : Nat} {t : Task} (v : Nat) (f : Task → Task) (h : s.task? u = some t)
    (hf : (f t).uid = t.uid) : (s.modTask u f).task? v = if v = u then some (f t) else s.task? v := by
  have hu := task?_uid h
  unfold State.modTask
  rw [h]
  have h' : s.task? (f t).uid = some t := by rw [hf, hu, h]
  rw [task?_setTask v h', hf, hu]

theorem modTask_same {s : State} {u : Nat} {t : Task} (f : Task → Task) (h : s.task? u = some t)
    (hf : (f t).uid = t.uid) : (s.modTask u f).task? u = some (f t) := by
  rw [task?_modTask u f h hf, if_pos rfl]

theorem findJob_id {l : List Job} {i : BitVec 32} {j : Job} (h : findJob l i = some j) : j.id = i := by
  induction l with
  | nil => cases h
  | cons x l ih =>
    simp only [findJob] at h
    split at h
    · cases h; assumption
    · exact ih h

theorem findJob_map {l : List Job} {i : BitVec 32} (k : BitVec 32) (f : Job → Job) (hf : ∀ x, (f x).id = x.id) :
    findJob (mapFirst (·.id == i) f l) k = if k = i then (findJob l i).map f else findJob l k := by
  induction l with
  | nil => simp [mapFirst, findJob]
  | cons x l ih =>
    by_cases hx : x.id = i
    · by_cases hk : k = i
      · simp [mapFirst, findJob, hx, hk, hf]
      · have : x.id ≠ k := fun e => hk (e.symm.trans hx)
        simp [mapFirst, findJob, hx, hk, hf, Ne.symm hk]
    · by_cases hk : k = i
      · subst hk; simpa [mapFirst, findJob, hx] using ih
      · simp [mapFirst, findJob, hx, hk, ih]

/-- A job put back stands where it stood, and no other changes. -/
theorem job?_modJob (s : State) (i k : BitVec 32) (f : Job → Job) (hf : ∀ x, (f x).id = x.id) :
    (s.modJob i f).job? k = if k = i then (s.job? i).map f else s.job? k := findJob_map k f hf

end Sys2Proof.Machine
end

