-- ==== Sys2Proof/Laws/Exec.lean ====
section
/-! SUPPORT. Which meaning exec calls for each instruction and event. -/

namespace Sys2Proof.Machine

theorem exec_mov (h) (a) (s : State) : exec (.mov h a) s = execMov h a s := rfl
theorem exec_movi (h) (a) (s : State) : exec (.movi h a) s = execMovi h a s := rfl
theorem exec_movxSet (h) (a) (s : State) : exec (.movxSet h a) s = execMovxSet h a s := rfl
theorem exec_movxOff (h) (a) (s : State) : exec (.movxOff h a) s = execMovxOff h a s := rfl
theorem exec_movxAdd (h) (a) (s : State) : exec (.movxAdd h a) s = execMovxAdd h a s := rfl
theorem exec_movxGet (h) (a) (s : State) : exec (.movxGet h a) s = execMovxGet h a s := rfl
theorem exec_shfl (h) (a) (s : State) : exec (.shfl h a) s = execShfl h a s := rfl
theorem exec_vote (h) (a) (s : State) : exec (.vote h a) s = execVote h a s := rfl
theorem exec_rdlane (h) (a) (s : State) : exec (.rdlane h a) s = execRdlane h a s := rfl
theorem exec_srd (h) (a) (s : State) : exec (.srd h a) s = execSrd h a s := rfl
theorem exec_rclaim (h) (a) (s : State) : exec (.rclaim h a) s = execRclaim h a s := rfl
theorem exec_rgive (h) (a) (s : State) : exec (.rgive h a) s = execRgive h a s := rfl
theorem exec_iadd (h) (a) (s : State) : exec (.iadd h a) s = execIadd h a s := rfl
theorem exec_iaddc (h) (a) (s : State) : exec (.iaddc h a) s = execIaddc h a s := rfl
theorem exec_isub (h) (a) (s : State) : exec (.isub h a) s = execIsub h a s := rfl
theorem exec_imad (h) (a) (s : State) : exec (.imad h a) s = execImad h a s := rfl
theorem exec_imulh (h) (a) (s : State) : exec (.imulh h a) s = execImulh h a s := rfl
theorem exec_imnmx (h) (a) (s : State) : exec (.imnmx h a) s = execImnmx h a s := rfl
theorem exec_iabs (h) (a) (s : State) : exec (.iabs h a) s = execIabs h a s := rfl
theorem exec_log3 (h) (a) (s : State) : exec (.log3 h a) s = execLog3 h a s := rfl
theorem exec_shf (h) (a) (s : State) : exec (.shf h a) s = execShf h a s := rfl
theorem exec_shl (h) (a) (s : State) : exec (.shl h a) s = execShl h a s := rfl
theorem exec_shr (h) (a) (s : State) : exec (.shr h a) s = execShr h a s := rfl
theorem exec_bfx (h) (a) (s : State) : exec (.bfx h a) s = execBfx h a s := rfl
theorem exec_bfi (h) (a) (s : State) : exec (.bfi h a) s = execBfi h a s := rfl
theorem exec_popc (h) (a) (s : State) : exec (.popc h a) s = execPopc h a s := rfl
theorem exec_clz (h) (a) (s : State) : exec (.clz h a) s = execClz h a s := rfl
theorem exec_brev (h) (a) (s : State) : exec (.brev h a) s = execBrev h a s := rfl
theorem exec_isetp (h) (a) (s : State) : exec (.isetp h a) s = execIsetp h a s := rfl
theorem exec_sel (h) (a) (s : State) : exec (.sel h a) s = execSel h a s := rfl
theorem exec_lea (h) (a) (s : State) : exec (.lea h a) s = execLea h a s := rfl
theorem exec_fadd (h) (a) (s : State) : exec (.fadd h a) s = execFadd h a s := rfl
theorem exec_fmul (h) (a) (s : State) : exec (.fmul h a) s = execFmul h a s := rfl
theorem exec_ffma (h) (a) (s : State) : exec (.ffma h a) s = execFfma h a s := rfl
theorem exec_fmnmx (h) (a) (s : State) : exec (.fmnmx h a) s = execFmnmx h a s := rfl
theorem exec_fsetp (h) (a) (s : State) : exec (.fsetp h a) s = execFsetp h a s := rfl
theorem exec_fmf (h) (a) (s : State) : exec (.fmf h a) s = execFmf h a s := rfl
theorem exec_fcls (h) (a) (s : State) : exec (.fcls h a) s = execFcls h a s := rfl
theorem exec_hfma2 (h) (a) (s : State) : exec (.hfma2 h a) s = execHfma2 h a s := rfl
theorem exec_hadd2 (h) (a) (s : State) : exec (.hadd2 h a) s = execHadd2 h a s := rfl
theorem exec_hmul2 (h) (a) (s : State) : exec (.hmul2 h a) s = execHmul2 h a s := rfl
theorem exec_dadd (h) (a) (s : State) : exec (.dadd h a) s = execDadd h a s := rfl
theorem exec_dmul (h) (a) (s : State) : exec (.dmul h a) s = execDmul h a s := rfl
theorem exec_dfma (h) (a) (s : State) : exec (.dfma h a) s = execDfma h a s := rfl
theorem exec_tfenceCheck (h) (s : State) : exec (.tfenceCheck h) s = execTfenceCheck h s := rfl
theorem exec_tfenceGet (h) (a) (s : State) : exec (.tfenceGet h a) s = execTfenceGet h a s := rfl
theorem exec_tfencePut (h) (a) (s : State) : exec (.tfencePut h a) s = execTfencePut h a s := rfl
theorem exec_tfenceClear (h) (a) (s : State) : exec (.tfenceClear h a) s = execTfenceClear h a s := rfl
theorem exec_cvt (h) (a) (s : State) : exec (.cvt h a) s = execCvt h a s := rfl
theorem exec_cvtn (h) (a) (s : State) : exec (.cvtn h a) s = execCvtn h a s := rfl
theorem exec_pkn (h) (a) (s : State) : exec (.pkn h a) s = execPkn h a s := rfl
theorem exec_unpk (h) (a) (s : State) : exec (.unpk h a) s = execUnpk h a s := rfl
theorem exec_qsclFind (h) (a) (s : State) : exec (.qsclFind h a) s = execQsclFind h a s := rfl
theorem exec_qsclDiv (h) (a) (s : State) : exec (.qsclDiv h a) s = execQsclDiv h a s := rfl
theorem exec_qsclMul (h) (a) (s : State) : exec (.qsclMul h a) s = execQsclMul h a s := rfl
theorem exec_cbdec (h) (a) (s : State) : exec (.cbdec h a) s = execCbdec h a s := rfl
theorem exec_bra (h) (a) (s : State) : exec (.bra h a) s = execBra h a s := rfl
theorem exec_brx (h) (a) (s : State) : exec (.brx h a) s = execBrx h a s := rfl
theorem exec_call (h) (a) (s : State) : exec (.call h a) s = execCall h a s := rfl
theorem exec_callX (h) (a) (s : State) : exec (.callX h a) s = execCallX h a s := rfl
theorem exec_ret (h) (a) (s : State) : exec (.ret h a) s = execRet h a s := rfl
theorem exec_split (h) (a) (s : State) : exec (.split h a) s = execSplit h a s := rfl
theorem exec_elseI (h) (a) (s : State) : exec (.elseI h a) s = execElseI h a s := rfl
theorem exec_rejoin (h) (a) (s : State) : exec (.rejoin h a) s = execRejoin h a s := rfl
theorem exec_exitI (h) (s : State) : exec (.exitI h) s = execExitI h s := rfl
theorem exec_loopn (h) (a) (s : State) : exec (.loopn h a) s = execLoopn h a s := rfl
theorem exec_yieldI (h) (s : State) : exec (.yieldI h) s = execYieldI h s := rfl
theorem exec_nop (h) (s : State) : exec (.nop h) s = execNop h s := rfl
theorem exec_spawn (h) (a) (s : State) : exec (.spawn h a) s = execSpawn h a s := rfl
theorem exec_spawnT (h) (a) (s : State) : exec (.spawnT h a) s = execSpawnT h a s := rfl
theorem exec_spawnr (h) (a) (s : State) : exec (.spawnr h a) s = execSpawnr h a s := rfl
theorem exec_spawng (h) (a) (s : State) : exec (.spawng h a) s = execSpawng h a s := rfl
theorem exec_join (h) (a) (s : State) : exec (.join h a) s = execJoin h a s := rfl
theorem exec_poll (h) (a) (s : State) : exec (.poll h a) s = execPoll h a s := rfl
theorem exec_futnewNew (h) (a) (s : State) : exec (.futnewNew h a) s = execFutnewNew h a s := rfl
theorem exec_futnewFree (h) (a) (s : State) : exec (.futnewFree h a) s = execFutnewFree h a s := rfl
theorem exec_fulfil (h) (a) (s : State) : exec (.fulfil h a) s = execFulfil h a s := rfl
theorem exec_tend (h) (s : State) : exec (.tend h) s = execTend h s := rfl
theorem exec_tendV (h) (a) (s : State) : exec (.tendV h a) s = execTendV h a s := rfl
theorem exec_tself (h) (a) (s : State) : exec (.tself h a) s = execTself h a s := rfl
theorem exec_deqd (h) (a) (s : State) : exec (.deqd h a) s = execDeqd h a s := rfl
theorem exec_cvset (h) (a) (s : State) : exec (.cvset h a) s = execCvset h a s := rfl
theorem exec_jlaunch (h) (a) (s : State) : exec (.jlaunch h a) s = execJlaunch h a s := rfl
theorem exec_jwait (h) (a) (s : State) : exec (.jwait h a) s = execJwait h a s := rfl
theorem exec_jyield (h) (s : State) : exec (.jyield h) s = execJyield h s := rfl
theorem exec_ld (h) (a) (s : State) : exec (.ld h a) s = execLd h a s := rfl
theorem exec_st (h) (a) (s : State) : exec (.st h a) s = execSt h a s := rfl
theorem exec_lds (h) (a) (s : State) : exec (.lds h a) s = execLds h a s := rfl
theorem exec_sts (h) (a) (s : State) : exec (.sts h a) s = execSts h a s := rfl
theorem exec_ldt (h) (a) (s : State) : exec (.ldt h a) s = execLdt h a s := rfl
theorem exec_stt (h) (a) (s : State) : exec (.stt h a) s = execStt h a s := rfl
theorem exec_lda (h) (a) (s : State) : exec (.lda h a) s = execLda h a s := rfl
theorem exec_strl (h) (a) (s : State) : exec (.strl h a) s = execStrl h a s := rfl
theorem exec_fenceAcq (h) (s : State) : exec (.fenceAcq h) s = execFenceAcq h s := rfl
theorem exec_fenceRel (h) (s : State) : exec (.fenceRel h) s = execFenceRel h s := rfl
theorem exec_fenceAcqrel (h) (s : State) : exec (.fenceAcqrel h) s = execFenceAcqrel h s := rfl
theorem exec_waitv (h) (a) (s : State) : exec (.waitv h a) s = execWaitv h a s := rfl
theorem exec_presTest (h) (a) (s : State) : exec (.presTest h a) s = execPresTest h a s := rfl
theorem exec_presSet (h) (a) (s : State) : exec (.presSet h a) s = execPresSet h a s := rfl
theorem exec_presClr (h) (a) (s : State) : exec (.presClr h a) s = execPresClr h a s := rfl
theorem exec_presWait (h) (a) (s : State) : exec (.presWait h a) s = execPresWait h a s := rfl
theorem exec_ifence (h) (s : State) : exec (.ifence h) s = execIfence h s := rfl
theorem exec_atom (h) (a) (s : State) : exec (.atom h a) s = execAtom h a s := rfl
theorem exec_atomf (h) (a) (s : State) : exec (.atomf h a) s = execAtomf h a s := rfl
theorem exec_atomp (h) (a) (s : State) : exec (.atomp h a) s = execAtomp h a s := rfl
theorem exec_atoms (h) (a) (s : State) : exec (.atoms h a) s = execAtoms h a s := rfl
theorem exec_red (h) (a) (s : State) : exec (.red h a) s = execRed h a s := rfl
theorem exec_rseal (h) (a) (s : State) : exec (.rseal h a) s = execRseal h a s := rfl
theorem exec_talloc (h) (a) (s : State) : exec (.talloc h a) s = execTalloc h a s := rfl
theorem exec_thand (h) (a) (s : State) : exec (.thand h a) s = execThand h a s := rfl
theorem exec_trel (h) (a) (s : State) : exec (.trel h a) s = execTrel h a s := rfl
theorem exec_tinfo (h) (a) (s : State) : exec (.tinfo h a) s = execTinfo h a s := rfl
theorem exec_tstage (h) (a) (s : State) : exec (.tstage h a) s = execTstage h a s := rfl
theorem exec_tdrain (h) (a) (s : State) : exec (.tdrain h a) s = execTdrain h a s := rfl
theorem exec_tcopy (h) (a) (s : State) : exec (.tcopy h a) s = execTcopy h a s := rfl
theorem exec_ringdefDef (h) (a) (s : State) : exec (.ringdefDef h a) s = execRingdefDef h a s := rfl
theorem exec_ringdefClr (h) (a) (s : State) : exec (.ringdefClr h a) s = execRingdefClr h a s := rfl
theorem exec_slotwaitFull (h) (a) (s : State) : exec (.slotwaitFull h a) s = execSlotwaitFull h a s := rfl
theorem exec_slotwaitEmpty (h) (a) (s : State) : exec (.slotwaitEmpty h a) s = execSlotwaitEmpty h a s := rfl
theorem exec_slotsigFull (h) (a) (s : State) : exec (.slotsigFull h a) s = execSlotsigFull h a s := rfl
theorem exec_slotsigEmpty (h) (a) (s : State) : exec (.slotsigEmpty h a) s = execSlotsigEmpty h a s := rfl
theorem exec_acntGet (h) (a) (s : State) : exec (.acntGet h a) s = execAcntGet h a s := rfl
theorem exec_acntSet (h) (a) (s : State) : exec (.acntSet h a) s = execAcntSet h a s := rfl
theorem exec_acntAdd (h) (a) (s : State) : exec (.acntAdd h a) s = execAcntAdd h a s := rfl
theorem exec_acntWaitge (h) (a) (s : State) : exec (.acntWaitge h a) s = execAcntWaitge h a s := rfl
theorem exec_mlease (h) (a) (s : State) : exec (.mlease h a) s = execMlease h a s := rfl
theorem exec_mleaseTry (h) (a) (s : State) : exec (.mleaseTry h a) s = execMleaseTry h a s := rfl
theorem exec_mrel (h) (s : State) : exec (.mrel h) s = execMrel h s := rfl
theorem exec_mldw (h) (a) (s : State) : exec (.mldw h a) s = execMldw h a s := rfl
theorem exec_mflip (h) (a) (s : State) : exec (.mflip h a) s = execMflip h a s := rfl
theorem exec_mma (h) (a) (s : State) : exec (.mma h a) s = execMma h a s := rfl
theorem exec_mmas (h) (a) (s : State) : exec (.mmas h a) s = execMmas h a s := rfl
theorem exec_macz (h) (a) (s : State) : exec (.macz h a) s = execMacz h a s := rfl
theorem exec_macr (h) (a) (s : State) : exec (.macr h a) s = execMacr h a s := rfl
theorem exec_macrV (h) (a) (s : State) : exec (.macrV h a) s = execMacrV h a s := rfl
theorem exec_mq (h) (a) (s : State) : exec (.mq h a) s = execMq h a s := rfl
theorem exec_mqwait (h) (a) (s : State) : exec (.mqwait h a) s = execMqwait h a s := rfl
theorem exec_psumClr (h) (a) (s : State) : exec (.psumClr h a) s = execPsumClr h a s := rfl
theorem exec_psumRebuild (h) (a) (s : State) : exec (.psumRebuild h a) s = execPsumRebuild h a s := rfl
theorem exec_psel (h) (a) (s : State) : exec (.psel h a) s = execPsel h a s := rfl
theorem exec_pgath (h) (a) (s : State) : exec (.pgath h a) s = execPgath h a s := rfl
theorem exec_gathl (h) (a) (s : State) : exec (.gathl h a) s = execGathl h a s := rfl
theorem exec_scatl (h) (a) (s : State) : exec (.scatl h a) s = execScatl h a s := rfl
theorem exec_trap (h) (a) (s : State) : exec (.trap h a) s = execTrap h a s := rfl
theorem exec_tretResume (h) (s : State) : exec (.tretResume h) s = execTretResume h s := rfl
theorem exec_tretSkip (h) (s : State) : exec (.tretSkip h) s = execTretSkip h s := rfl
theorem exec_tretEscalate (h) (s : State) : exec (.tretEscalate h) s = execTretEscalate h s := rfl
theorem exec_tkill (h) (s : State) : exec (.tkill h) s = execTkill h s := rfl
theorem exec_bkpt (h) (a) (s : State) : exec (.bkpt h a) s = execBkpt h a s := rfl
theorem exec_swrWrite (h) (a) (s : State) : exec (.swrWrite h a) s = execSwrWrite h a s := rfl
theorem exec_swrRead (h) (a) (s : State) : exec (.swrRead h a) s = execSwrRead h a s := rfl
theorem exec_time (h) (a) (s : State) : exec (.time h a) s = execTime h a s := rfl
theorem exec_dbgsig (h) (a) (s : State) : exec (.dbgsig h a) s = execDbgsig h a s := rfl
theorem exec_ctxsave (h) (a) (s : State) : exec (.ctxsave h a) s = execCtxsave h a s := rfl
theorem exec_ctxload (h) (a) (s : State) : exec (.ctxload h a) s = execCtxload h a s := rfl
theorem exec_registerResultReturn (core) (idx) (s : State) : exec (.registerResultReturn core idx) s = execRegisterResultReturn core idx s :=
    rfl
theorem exec_warpStarving (core) (slot) (s : State) : exec (.warpStarving core slot) s = execWarpStarving core slot s :=
    rfl
theorem exec_postedCauseTaken (task) (s : State) : exec (.postedCauseTaken task) s = execPostedCauseTaken task s :=
    rfl
theorem exec_jobLaunch (sys) (v) (s : State) : exec (.jobLaunch sys v) s = execJobLaunch sys v s := rfl
theorem exec_jobLaunchComplete (sys) (s : State) : exec (.jobLaunchComplete sys) s = execJobLaunchComplete sys s :=
    rfl
theorem exec_jobRetiredRead (sys) (s : State) : exec (.jobRetiredRead sys) s = execJobRetiredRead sys s := rfl
theorem exec_jobAdmit (job) (s : State) : exec (.jobAdmit job) s = execJobAdmit job s := rfl
theorem exec_budgetExhausted (job) (s : State) : exec (.budgetExhausted job) s = execBudgetExhausted job s := rfl
theorem exec_jobRetire (job) (s : State) : exec (.jobRetire job) s = execJobRetire job s := rfl
theorem exec_taskTake (core) (s : State) : exec (.taskTake core) s = execTaskTake core s := rfl
theorem exec_stagingComplete (task) (s : State) : exec (.stagingComplete task) s = execStagingComplete task s := rfl
theorem exec_regionHoldReexamine (task) (s : State) : exec (.regionHoldReexamine task) s = execRegionHoldReexamine task s :=
    rfl
theorem exec_slotGrant (core) (s : State) : exec (.slotGrant core) s = execSlotGrant core s := rfl
theorem exec_spinExpired (task) (s : State) : exec (.spinExpired task) s = execSpinExpired task s := rfl
theorem exec_spinMove (core) (s : State) : exec (.spinMove core) s = execSpinMove core s := rfl
theorem exec_edgeActionsComplete (task) (s : State) : exec (.edgeActionsComplete task) s = execEdgeActionsComplete task s :=
    rfl
theorem exec_stealRound (core) (s : State) : exec (.stealRound core) s = execStealRound core s := rfl
theorem exec_crossDieRound (core) (s : State) : exec (.crossDieRound core) s = execCrossDieRound core s := rfl
theorem exec_stealBackoffExpiry (core) (s : State) : exec (.stealBackoffExpiry core) s = execStealBackoffExpiry core s :=
    rfl
theorem exec_stealProbeAnswer (victim) (thief) (s : State) : exec (.stealProbeAnswer victim thief) s = execStealProbeAnswer victim thief s :=
    rfl
theorem exec_stealArrival (core) (s : State) : exec (.stealArrival core) s = execStealArrival core s := rfl
theorem exec_clockGate (core) (s : State) : exec (.clockGate core) s = execClockGate core s := rfl
theorem exec_storeBufferDrain (core) (s : State) : exec (.storeBufferDrain core) s = execStoreBufferDrain core s :=
    rfl
theorem exec_storeAck (core) (s : State) : exec (.storeAck core) s = execStoreAck core s := rfl
theorem exec_waitvWake (task) (s : State) : exec (.waitvWake task) s = execWaitvWake task s := rfl
theorem exec_mscEvict (idx) (s : State) : exec (.mscEvict idx) s = execMscEvict idx s := rfl
theorem exec_pageWalk (core) (ctx) (va) (s : State) : exec (.pageWalk core ctx va) s = execPageWalk core ctx va s :=
    rfl
theorem exec_zfuClaim (core) (ctx) (va) (s : State) : exec (.zfuClaim core ctx va) s = execZfuClaim core ctx va s :=
    rfl
theorem exec_engineSegmentComplete (core) (op) (s : State) : exec (.engineSegmentComplete core op) s = execEngineSegmentComplete core op s :=
    rfl
theorem exec_engineSegmentFault (core) (op) (s : State) : exec (.engineSegmentFault core op) s = execEngineSegmentFault core op s :=
    rfl
theorem exec_handleRecordFree (core) (rec) (s : State) : exec (.handleRecordFree core rec) s = execHandleRecordFree core rec s :=
    rfl
theorem exec_remoteSegmentAck (core) (op) (s : State) : exec (.remoteSegmentAck core op) s = execRemoteSegmentAck core op s :=
    rfl
theorem exec_remoteAckTimeout (core) (op) (s : State) : exec (.remoteAckTimeout core op) s = execRemoteAckTimeout core op s :=
    rfl
theorem exec_herricSegmentReceive (off) (data) (s : State) : exec (.herricSegmentReceive off data) s = execHerricSegmentReceive off data s :=
    rfl
theorem exec_leaseGrant (core) (s : State) : exec (.leaseGrant core) s = execLeaseGrant core s := rfl
theorem exec_queueAdmit (core) (s : State) : exec (.queueAdmit core) s = execQueueAdmit core s := rfl
theorem exec_mmaDynStep (core) (s : State) : exec (.mmaDynStep core) s = execMmaDynStep core s := rfl
theorem exec_matrixOpComplete (core) (op) (s : State) : exec (.matrixOpComplete core op) s = execMatrixOpComplete core op s :=
    rfl
theorem exec_planesEmptyAtCohortEnd (core) (s : State) : exec (.planesEmptyAtCohortEnd core) s = execPlanesEmptyAtCohortEnd core s :=
    rfl
theorem exec_ctxCmdPreempt (ctx) (s : State) : exec (.ctxCmdPreempt ctx) s = execCtxCmdPreempt ctx s := rfl
theorem exec_ctxCmdHardsave (ctx) (s : State) : exec (.ctxCmdHardsave ctx) s = execCtxCmdHardsave ctx s := rfl
theorem exec_ctxCmdKill (ctx) (s : State) : exec (.ctxCmdKill ctx) s = execCtxCmdKill ctx s := rfl
theorem exec_ctxCmdLoad (ctx) (s : State) : exec (.ctxCmdLoad ctx) s = execCtxCmdLoad ctx s := rfl
theorem exec_ctxCmdRequeueJob (job) (s : State) : exec (.ctxCmdRequeueJob job) s = execCtxCmdRequeueJob job s := rfl
theorem exec_ctxCmdKillJob (job) (s : State) : exec (.ctxCmdKillJob job) s = execCtxCmdKillJob job s := rfl
theorem exec_ctxCmdDrop (ctx) (s : State) : exec (.ctxCmdDrop ctx) s = execCtxCmdDrop ctx s := rfl
theorem exec_gangTimeWrite (v) (s : State) : exec (.gangTimeWrite v) s = execGangTimeWrite v s := rfl
theorem exec_dbgCmdHalt (task) (s : State) : exec (.dbgCmdHalt task) s = execDbgCmdHalt task s := rfl
theorem exec_dbgCmdHaltCohort (task) (s : State) : exec (.dbgCmdHaltCohort task) s = execDbgCmdHaltCohort task s :=
    rfl
theorem exec_dbgCmdResume (task) (s : State) : exec (.dbgCmdResume task) s = execDbgCmdResume task s := rfl
theorem exec_dbgCmdSkip (task) (s : State) : exec (.dbgCmdSkip task) s = execDbgCmdSkip task s := rfl
theorem exec_dbgCmdStep (task) (s : State) : exec (.dbgCmdStep task) s = execDbgCmdStep task s := rfl
theorem exec_dbgCmdKill (task) (s : State) : exec (.dbgCmdKill task) s = execDbgCmdKill task s := rfl
theorem exec_schedCheckWrite (core) (v) (s : State) : exec (.schedCheckWrite core v) s = execSchedCheckWrite core v s :=
    rfl
theorem exec_stealCountsWrite (core) (v) (s : State) : exec (.stealCountsWrite core v) s = execStealCountsWrite core v s :=
    rfl
theorem exec_telRegionStatsWrite (die) (v) (s : State) : exec (.telRegionStatsWrite die v) s = execTelRegionStatsWrite die v s :=
    rfl
theorem exec_xlatInvPage (v) (s : State) : exec (.xlatInvPage v) s = execXlatInvPage v s := rfl
theorem exec_xlatInvContext (v) (s : State) : exec (.xlatInvContext v) s = execXlatInvContext v s := rfl
theorem exec_xlatInvAll (v) (s : State) : exec (.xlatInvAll v) s = execXlatInvAll v s := rfl
theorem exec_xlatInvNone (v) (s : State) : exec (.xlatInvNone v) s = execXlatInvNone v s := rfl
theorem exec_keyDataWrite (ctx) (v) (s : State) : exec (.keyDataWrite ctx v) s = execKeyDataWrite ctx v s := rfl
theorem exec_keyCtlWrite (ctx) (v) (s : State) : exec (.keyCtlWrite ctx v) s = execKeyCtlWrite ctx v s := rfl
theorem exec_keyRangeReady (ctx) (s : State) : exec (.keyRangeReady ctx) s = execKeyRangeReady ctx s := rfl
theorem exec_registerWrite (off) (v) (s : State) : exec (.registerWrite off v) s = execRegisterWrite off v s := rfl
theorem exec_resetCtlWarm (v) (s : State) : exec (.resetCtlWarm v) s = execResetCtlWarm v s := rfl
theorem exec_bootImageFetched (bytes) (s : State) : exec (.bootImageFetched bytes) s = execBootImageFetched bytes s :=
    rfl
theorem exec_bootCtlGo (v) (s : State) : exec (.bootCtlGo v) s = execBootCtlGo v s := rfl
theorem exec_pcieBar2Write (off) (data) (s : State) : exec (.pcieBar2Write off data) s = execPcieBar2Write off data s :=
    rfl
theorem exec_pcieBar2Read (off) (len) (s : State) : exec (.pcieBar2Read off len) s = execPcieBar2Read off len s := rfl
theorem exec_pcieBar0Access (a) (s : State) : exec (.pcieBar0Access a) s = execPcieBar0Access a s := rfl
theorem exec_queryRead (off) (len) (s : State) : exec (.queryRead off len) s = execQueryRead off len s := rfl
theorem exec_queryWrite (off) (words) (s : State) : exec (.queryWrite off words) s = execQueryWrite off words s := rfl
theorem exec_herricLaneFail (port) (s : State) : exec (.herricLaneFail port) s = execHerricLaneFail port s := rfl
theorem exec_herricBeaconReceive (ns) (s : State) : exec (.herricBeaconReceive ns) s = execHerricBeaconReceive ns s :=
    rfl
theorem exec_ptpMessage (ns) (s : State) : exec (.ptpMessage ns) s = execPtpMessage ns s := rfl
theorem exec_thermalShutdown (die) (s : State) : exec (.thermalShutdown die) s = execThermalShutdown die s := rfl
theorem exec_patrolScrub (stack) (s : State) : exec (.patrolScrub stack) s = execPatrolScrub stack s := rfl
theorem exec_phyRecalibration (stack) (s : State) : exec (.phyRecalibration stack) s = execPhyRecalibration stack s :=
    rfl
theorem exec_refresh (stack) (s : State) : exec (.refresh stack) s = execRefresh stack s := rfl
theorem exec_telemetrySample (x) (s : State) : exec (.telemetrySample x) s = execTelemetrySample x s := rfl
theorem exec_sramSoftError (e) (s : State) : exec (.sramSoftError e) s = execSramSoftError e s := rfl
theorem exec_systemCoreMemoryAccess (sys) (a) (s : State) : exec (.systemCoreMemoryAccess sys a) s = execSystemCoreMemoryAccess sys a s :=
    rfl
theorem exec_admissionWaitLimit (s : State) : exec (.admissionWaitLimit) s = execAdmissionWaitLimit s := rfl
theorem exec_softDrainDone (s : State) : exec (.softDrainDone) s = execSoftDrainDone s := rfl
theorem exec_softDrainTimeout (s : State) : exec (.softDrainTimeout) s = execSoftDrainTimeout s := rfl
theorem exec_hardSaveComplete (s : State) : exec (.hardSaveComplete) s = execHardSaveComplete s := rfl
theorem exec_imageWriteFail (s : State) : exec (.imageWriteFail) s = execImageWriteFail s := rfl
theorem exec_contextLoadComplete (s : State) : exec (.contextLoadComplete) s = execContextLoadComplete s := rfl
theorem exec_gangDrainStart (s : State) : exec (.gangDrainStart) s = execGangDrainStart s := rfl
theorem exec_gangTimeReached (s : State) : exec (.gangTimeReached) s = execGangTimeReached s := rfl
theorem exec_shootdownComplete (s : State) : exec (.shootdownComplete) s = execShootdownComplete s := rfl
theorem exec_resetPin (s : State) : exec (.resetPin) s = execResetPin s := rfl
theorem exec_powerGood (s : State) : exec (.powerGood) s = execPowerGood s := rfl
theorem exec_memReady (s : State) : exec (.memReady) s = execMemReady s := rfl
theorem exec_bootRetry (s : State) : exec (.bootRetry) s = execBootRetry s := rfl
theorem exec_imageVerify (s : State) : exec (.imageVerify) s = execImageVerify s := rfl
theorem exec_herricBeaconSend (s : State) : exec (.herricBeaconSend) s = execHerricBeaconSend s := rfl
theorem exec_thermalStepDown (s : State) : exec (.thermalStepDown) s = execThermalStepDown s := rfl
theorem exec_thermalStepUp (s : State) : exec (.thermalStepUp) s = execThermalStepUp s := rfl
theorem exec_timeSourceLoss (s : State) : exec (.timeSourceLoss) s = execTimeSourceLoss s := rfl
theorem exec_powerLoss (s : State) : exec (.powerLoss) s = execPowerLoss s := rfl

end Sys2Proof.Machine
end

