-- ==== Sys2Proof/Laws/Issue.lean ====
section
/-! SUPPORT. The frame of an issue: what `issueIf`, `issue` and `compute` answer where an instruction acts, passes or
is stopped by what its body finds. -/

namespace Sys2Proof.Machine

theorem guardKeys_settled {s : State} {h : Hdr} {t : Task} {keys : List RKey} (hI : Issues s h t keys) :
    ∀ k ∈ guardKeys h t, s.pendingKey t k = false := fun k hk => hI.settled k (by simp [hk])

/-- What the frame answers where the instruction acts: the answer of its body. -/
theorem issueIf_acts {al : Bool} {h : Hdr} {s : State} {t : Task} {keys : Task → List Nat → List RKey}
    {body : State → Task → List Nat → M Eff} (hI : Issues s h t (keys t (s.actLanes h t)))
    (ha : (al || s.guardHolds h t) = true) :
    issueIf al h s keys body = match body s t (s.actLanes h t) with
      | .ok e => .next (e.s.finish t.uid h.hint (e.pc.getD (s.seqPc t)) e.late (if e.pc.isSome then 4 else 1))
      | .error (.raise r) => .next (s.traps t r)
      | .error .hold => .next s
      | .error .full => .next { s with cur := { s.cur with full := true } }
      | .error (.park p) =>
        if t.opened.isSome then .next (s.traps t (raise0 .spawnBadClosure))
        else .next (s.parkTask t.uid p)
      | .error (.parkIn s2 p) =>
        if t.opened.isSome then .next (s.traps t (raise0 .spawnBadClosure))
        else .next (s2.parkTask t.uid p)
      | .error (.raiseIn s2 r) => .next (s2.takeTrap t.uid r .precise t.warp.pc (pair := s.cur.mq.isSome))
      | .error (.done s2) => .next s2 := by
  have hu : (guardKeys h t ++ (keys t (s.actLanes h t) ++ s.cur.keys)).any (s.pendingKey t ·) = false := by
    rw [List.any_eq_false]; intro k hk; simpa using hI.settled k hk
  unfold issueIf
  rw [hI.task]
  simp only [hI.room, Bool.false_eq_true, if_false]
  have ha' : (al || if h.u = true then s.guardIn t h 0 else !(if h.u = true then [] else s.effLanes t h).isEmpty) = true := by
    unfold State.guardHolds at ha
    cases hh : h.u <;> simpa [hh] using ha
  unfold guardKeys State.actLanes at hu
  unfold State.actLanes
  simp only [ha', if_true, hu, Bool.false_and, Bool.not_true, Bool.false_eq_true, if_false]
  rfl

theorem issue_acts {h : Hdr} {s : State} {t : Task} {keys : Task → List Nat → List RKey}
    {body : State → Task → List Nat → M Eff} (hA : Acts s h t (keys t (s.actLanes h t))) :
    issue h s keys body = match body s t (s.actLanes h t) with
      | .ok e => .next (e.s.finish t.uid h.hint (e.pc.getD (s.seqPc t)) e.late (if e.pc.isSome then 4 else 1))
      | .error (.raise r) => .next (s.traps t r)
      | .error .hold => .next s
      | .error .full => .next { s with cur := { s.cur with full := true } }
      | .error (.park p) =>
        if t.opened.isSome then .next (s.traps t (raise0 .spawnBadClosure))
        else .next (s.parkTask t.uid p)
      | .error (.parkIn s2 p) =>
        if t.opened.isSome then .next (s.traps t (raise0 .spawnBadClosure))
        else .next (s2.parkTask t.uid p)
      | .error (.raiseIn s2 r) => .next (s2.takeTrap t.uid r .precise t.warp.pc (pair := s.cur.mq.isSome))
      | .error (.done s2) => .next s2 :=
  issueIf_acts hA.toIssues (by simp [hA.holds])

/-- An instruction whose body succeeds in sequence. -/
theorem issue_ok {h : Hdr} {s s' : State} {t : Task} {keys : Task → List Nat → List RKey}
    {body : State → Task → List Nat → M Eff} (late : Bool) (hA : Acts s h t (keys t (s.actLanes h t)))
    (hb : body s t (s.actLanes h t) = .ok ⟨s', none, late⟩) :
    issue h s keys body = .next (s'.goesOn s h t late) := by
  rw [issue_acts hA, hb]; rfl

/-- An instruction that transfers control. -/
theorem issue_branch {h : Hdr} {s s' : State} {t : Task} {keys : Task → List Nat → List RKey}
    {body : State → Task → List Nat → M Eff} {pc : BitVec 32} (hA : Acts s h t (keys t (s.actLanes h t)))
    (hb : body s t (s.actLanes h t) = .ok ⟨s', some pc, false⟩) :
    issue h s keys body = .next (s'.goesTo h t pc) := by
  rw [issue_acts hA, hb]; rfl

/-- An instruction that ends its warp, or answers a state of its own. -/
theorem issue_done {h : Hdr} {s s' : State} {t : Task} {keys : Task → List Nat → List RKey}
    {body : State → Task → List Nat → M Eff} (hA : Acts s h t (keys t (s.actLanes h t)))
    (hb : body s t (s.actLanes h t) = .error (.done s')) :
    issue h s keys body = .next s' := by
  rw [issue_acts hA, hb]

/-- An instruction that raises a cause. -/
theorem issue_raise {h : Hdr} {s : State} {t : Task} {keys : Task → List Nat → List RKey}
    {body : State → Task → List Nat → M Eff} {r : Raise} (hA : Acts s h t (keys t (s.actLanes h t)))
    (hb : body s t (s.actLanes h t) = .error (.raise r)) :
    issue h s keys body = .next (s.traps t r) := by
  rw [issue_acts hA, hb]

/-- An instruction that is held at issue. -/
theorem issue_hold {h : Hdr} {s : State} {t : Task} {keys : Task → List Nat → List RKey}
    {body : State → Task → List Nat → M Eff} (hA : Acts s h t (keys t (s.actLanes h t)))
    (hb : body s t (s.actLanes h t) = .error .hold) :
    issue h s keys body = .next s := by
  rw [issue_acts hA, hb]

/-- An instruction that is held for want of room. -/
theorem issue_full {h : Hdr} {s : State} {t : Task} {keys : Task → List Nat → List RKey}
    {body : State → Task → List Nat → M Eff} (hA : Acts s h t (keys t (s.actLanes h t)))
    (hb : body s t (s.actLanes h t) = .error .full) :
    issue h s keys body = .next { s with cur := { s.cur with full := true } } := by
  rw [issue_acts hA, hb]

/-- An instruction that parks its warp. -/
theorem issue_park {h : Hdr} {s : State} {t : Task} {keys : Task → List Nat → List RKey}
    {body : State → Task → List Nat → M Eff} {p : Park} (hA : Acts s h t (keys t (s.actLanes h t)))
    (ho : t.opened = none) (hb : body s t (s.actLanes h t) = .error (.park p)) :
    issue h s keys body = .next (s.parkTask t.uid p) := by
  rw [issue_acts hA, hb]; simp [ho]

theorem issue_parkIn {h : Hdr} {s s2 : State} {t : Task} {keys : Task → List Nat → List RKey}
    {body : State → Task → List Nat → M Eff} {p : Park} (hA : Acts s h t (keys t (s.actLanes h t)))
    (ho : t.opened = none) (hb : body s t (s.actLanes h t) = .error (.parkIn s2 p)) :
    issue h s keys body = .next (s2.parkTask t.uid p) := by
  rw [issue_acts hA, hb]; simp [ho]

/-- An instruction whose guard holds nowhere has no effect but its hints. -/
theorem issue_passes {h : Hdr} {s : State} {t : Task} {keys : Task → List Nat → List RKey}
    {body : State → Task → List Nat → M Eff} (hP : Passes s h t) :
    issue h s keys body = .next (s.goesOn s h t) := by
  have hu : (guardKeys h t).any (s.pendingKey t ·) = false := by
    rw [List.any_eq_false]; intro k hk; simpa using hP.settled k hk
  have hg := hP.fails
  unfold issue issueIf
  rw [hP.task]
  simp only [hP.room, Bool.false_eq_true, if_false]
  have hg' : (false || if h.u = true then s.guardIn t h 0 else !(if h.u = true then [] else s.effLanes t h).isEmpty) = false := by
    unfold State.guardHolds at hg
    cases hh : h.u <;> simpa [hh] using hg
  unfold guardKeys at hu
  simp only [hg', Bool.false_eq_true, if_false, List.append_nil, hu, Bool.false_and, Bool.not_false, if_true]
  rfl

/-! ### Operand checks -/

theorem leastBy_nil {α : Type} (lt : α → α → Bool) : leastBy lt ([] : List α) = none := rfl

theorem raiseLanes_nil (u : Bool) : raiseLanes u [] = .ok () := rfl

theorem regBads_nil {s : State} {t : Task} {ops : List (Opnd × Nat)} {l : Nat}
    (h : ∀ x ∈ ops, s.opBad t x.1 x.2 l = none) : s.regBads t ops l = [] := by
  unfold State.regBads
  rw [List.filterMap_eq_nil_iff]
  rintro ⟨op, k⟩ hx
  simp [h _ hx]

/-- Registers that are allocated raise nothing. -/
theorem checkRegs_ok {s : State} {t : Task} {h : Hdr} {ops : List (Opnd × Nat)}
    (hop : s.operandsOk h t ops) : s.checkRegs t h ops (s.actLanes h t) = .ok () := by
  have : ((workLanes h (s.actLanes h t)).filterMap fun l => (topBad (s.regBads t ops l)).map fun b => (l, b)) = [] := by
    rw [List.filterMap_eq_nil_iff]
    intro l hl
    rw [regBads_nil (hop l hl)]
    rfl
  unfold State.checkRegs
  rw [this]; rfl

/-- What a computing instruction answers. -/
theorem compute_acts {h : Hdr} {s : State} {t : Task} {o : Shape} {dist : Nat} {f : Lane → Res}
    (hA : Acts s h t ((workLanes h (s.actLanes h t)).flatMap (s.shapeKeys t h.u o))) (hop : s.operandsOk h t o.ops) :
    compute h s o dist f = .next ((s.computed h t o dist f).goesOn s h t) := by
  unfold compute
  refine issue_ok false hA ?_
  simp only [checkRegs_ok hop]
  rfl

end Sys2Proof.Machine
end

