-- ==== Sys2Proof/Laws/Sparse.lean ====
section
/-! SUPPORT. Sparse storage: a read after a write, and every operation keeps the canonical form, so that equal contents
are equal lists. -/

namespace Sys2Proof

variable {w : Nat}

theorem spWfFrom_mono {m : Sparse w} {lo lo' : Nat} (hl : lo' ≤ lo) (h : spWfFrom lo m = true) :
    spWfFrom lo' m = true := by
  cases m with
  | nil => rfl
  | cons e m =>
    simp only [spWfFrom, Bool.and_eq_true, decide_eq_true_eq] at h ⊢
    exact ⟨⟨by omega, h.1.2⟩, h.2⟩

theorem spWfFrom.wf {m : Sparse w} {lo : Nat} (h : spWfFrom lo m = true) : spWf m = true :=
  spWfFrom_mono (Nat.zero_le _) h

/-- Below the first key a list reads zero. -/
theorem spGet_below {m : Sparse w} {lo a : Nat} (h : spWfFrom lo m = true) (ha : a < lo) : spGet m a = 0 := by
  cases m with
  | nil => rfl
  | cons e m =>
    obtain ⟨k, v⟩ := e
    simp only [spWfFrom, Bool.and_eq_true, decide_eq_true_eq] at h
    have : a < k := by omega
    simp [spGet, this]

theorem spWfFrom_spSet {m : Sparse w} {lo a : Nat} (x : BitVec w) (h : spWfFrom lo m = true) (ha : lo ≤ a) :
    spWfFrom lo (spSet m a x) = true := by
  induction m generalizing lo with
  | nil => unfold spSet; split <;> simp_all [spWfFrom]
  | cons e m ih =>
    obtain ⟨k, v⟩ := e
    have h0 := h
    simp only [spWfFrom, Bool.and_eq_true, decide_eq_true_eq] at h
    unfold spSet
    split
    · split
      · exact h0
      · have : a + 1 ≤ k := by omega
        simp_all [spWfFrom]
    · split
      · rename_i hk; subst hk
        split
        · exact spWfFrom_mono (by omega) h.2
        · simp_all [spWfFrom]
      · have := ih h.2 (by omega)
        simp_all [spWfFrom]

/-- A write keeps the canonical form. -/
theorem spWf_spSet {m : Sparse w} (a : Nat) (x : BitVec w) (h : spWf m = true) : spWf (spSet m a x) = true :=
  spWfFrom_spSet x h (Nat.zero_le _)

/-- Reading after a write: the value at its key, what was there at every other. -/
theorem spGet_spSet_from {m : Sparse w} {lo : Nat} (a : Nat) (x : BitVec w) (b : Nat) (h : spWfFrom lo m = true) :
    spGet (spSet m a x) b = if b = a then x else spGet m b := by
  induction m generalizing lo with
  | nil =>
    by_cases hx : x = 0#w
    · simp [spSet, spGet, hx]
    · by_cases hb : b = a <;> simp [spSet, spGet, hx, hb]
  | cons e m ih =>
    obtain ⟨k, v⟩ := e
    simp only [spWfFrom, Bool.and_eq_true, decide_eq_true_eq] at h
    by_cases h1 : a < k
    · by_cases hx : x = 0#w
      · by_cases hb : b = a
        · subst hb; simp [spSet, spGet, h1, hx]
        · simp [spSet, h1, hx, hb]
      · by_cases hb : b = a
        · subst hb; simp [spSet, spGet, h1, hx]
        · by_cases hlt : b < a
          · have : b < k := by omega
            simp [spSet, spGet, h1, hx, hb, hlt, this]
          · simp [spSet, spGet, h1, hx, hb, hlt]
    · by_cases h2 : a = k
      · subst h2
        by_cases hx : x = 0#w
        · by_cases hb : b = a
          · subst hb; simp [spSet, hx, spGet_below h.2 (Nat.lt_succ_self _)]
          · by_cases hlt : b < a
            · have := spGet_below h.2 (show b < a + 1 by omega)
              simp [spSet, spGet, hx, hb, hlt, this]
            · simp [spSet, spGet, hx, hb, hlt]
        · by_cases hb : b = a
          · subst hb; simp [spSet, spGet, hx]
          · by_cases hlt : b < a <;> simp [spSet, spGet, hx, hb, hlt]
      · have := ih h.2
        by_cases hb : b = a
        · subst hb; simp [spSet, spGet, h1, h2, this]
        · by_cases hlt : b < k
          · simp [spSet, spGet, h1, h2, hb, hlt]
          · simp [spSet, spGet, h1, h2, hb, hlt, this]

theorem spGet_spSet {m : Sparse w} (a : Nat) (x : BitVec w) (b : Nat) (h : spWf m = true) :
    spGet (spSet m a x) b = if b = a then x else spGet m b := spGet_spSet_from a x b h

/-- Lists in canonical form with the same contents are the same list. -/
theorem spWfFrom_ext {m n : Sparse w} {lo lo' : Nat} (hm : spWfFrom lo m = true) (hn : spWfFrom lo' n = true)
    (h : ∀ a, spGet m a = spGet n a) : m = n := by
  induction m generalizing n lo lo' with
  | nil =>
    cases n with
    | nil => rfl
    | cons e n =>
      obtain ⟨k, v⟩ := e
      have := h k
      simp_all [spWfFrom, spGet]
  | cons e m ih =>
    obtain ⟨k, v⟩ := e
    cases n with
    | nil =>
      have := h k
      simp_all [spWfFrom, spGet]
    | cons f n =>
      obtain ⟨l, u⟩ := f
      simp only [spWfFrom, Bool.and_eq_true, decide_eq_true_eq, bne_iff_ne] at hm hn
      have hk := h k
      have hl := h l
      simp only [spGet, Nat.lt_irrefl, if_true, if_false] at hk hl
      rcases Nat.lt_trichotomy k l with hkl | hkl | hkl
      · rw [if_pos hkl] at hk; exact absurd hk hm.1.2
      · subst hkl
        simp only [Nat.lt_irrefl, if_true, if_false] at hk
        subst hk
        congr 1
        refine ih hm.2 hn.2 fun a => ?_
        by_cases ha : a ≤ k
        · rw [spGet_below hm.2 (by omega), spGet_below hn.2 (by omega)]
        · have := h a
          simpa [spGet, show ¬a < k by omega, show ¬a = k by omega] using this
      · rw [if_pos hkl] at hl; exact absurd hl.symm hn.1.2

theorem spWf_ext {m n : Sparse w} (hm : spWf m = true) (hn : spWf n = true) (h : ∀ a, spGet m a = spGet n a) : m = n :=
  spWfFrom_ext hm hn h

/-! ### Erasing -/

theorem spWfFrom_filter {m : Sparse w} {lo : Nat} (p : Nat × BitVec w → Bool) (h : spWfFrom lo m = true) :
    spWfFrom lo (m.filter p) = true := by
  induction m generalizing lo with
  | nil => rfl
  | cons e m ih =>
    simp only [spWfFrom, Bool.and_eq_true, decide_eq_true_eq] at h
    by_cases hp : p e
    · rw [List.filter_cons_of_pos hp]
      simp only [spWfFrom, Bool.and_eq_true, decide_eq_true_eq]
      exact ⟨h.1, ih h.2⟩
    · rw [List.filter_cons_of_neg hp]
      exact ih (spWfFrom_mono (by omega) h.2)

theorem spWf_spErase {m : Sparse w} (lo hi : Nat) (h : spWf m = true) : spWf (spErase m lo hi) = true :=
  spWfFrom_filter _ h

/-- Erased keys read zero, others are untouched. -/
theorem spGet_spErase_from {m : Sparse w} {b0 : Nat} (lo hi b : Nat) (h : spWfFrom b0 m = true) :
    spGet (spErase m lo hi) b = if lo ≤ b ∧ b < hi then 0 else spGet m b := by
  induction m generalizing b0 with
  | nil => simp [spErase, spGet]
  | cons e m ih =>
    obtain ⟨k, v⟩ := e
    simp only [spWfFrom, Bool.and_eq_true, decide_eq_true_eq] at h
    have hi' := ih h.2
    unfold spErase at hi' ⊢
    by_cases hp : k < lo ∨ hi ≤ k
    · have e1 : List.filter (fun e : Nat × BitVec w => decide (e.1 < lo) || decide (hi ≤ e.1)) ((k, v) :: m) =
          (k, v) :: List.filter (fun e => decide (e.1 < lo) || decide (hi ≤ e.1)) m :=
        List.filter_cons_of_pos (by simpa using hp)
      rw [e1]
      simp only [spGet, hi']
      by_cases h1 : b < k
      · simp [h1]
      · by_cases h2 : b = k
        · subst h2; simp; intro; omega
        · simp [h1, h2]
    · have e1 : List.filter (fun e : Nat × BitVec w => decide (e.1 < lo) || decide (hi ≤ e.1)) ((k, v) :: m) =
          List.filter (fun e => decide (e.1 < lo) || decide (hi ≤ e.1)) m :=
        List.filter_cons_of_neg (by simpa using hp)
      rw [e1, hi']
      by_cases h1 : b < k
      · simp [spGet, h1, spGet_below h.2 (show b < k + 1 by omega)]
      · by_cases h2 : b = k
        · subst h2; rw [if_pos (by omega), if_pos (by omega)]
        · simp [spGet, h1, h2]

theorem spGet_spErase {m : Sparse w} (lo hi b : Nat) (h : spWf m = true) :
    spGet (spErase m lo hi) b = if lo ≤ b ∧ b < hi then 0 else spGet m b := spGet_spErase_from lo hi b h

/-! ### Lists and blocks of values -/

theorem spWf_spPutList {m : Sparse w} (a : Nat) (xs : List (BitVec w)) (h : spWf m = true) :
    spWf (spPutList m a xs) = true := by
  induction xs generalizing m a with
  | nil => exact h
  | cons x xs ih => exact ih (a + 1) (spWf_spSet a x h)

/-- The value at an index of a list, zero past its end. -/
def atOr0 (xs : List (BitVec w)) (i : Nat) : BitVec w := xs[i]?.getD 0

theorem spGet_spPutList {m : Sparse w} (a : Nat) (xs : List (BitVec w)) (b : Nat) (h : spWf m = true) :
    spGet (spPutList m a xs) b = if a ≤ b ∧ b < a + xs.length then atOr0 xs (b - a) else spGet m b := by
  induction xs generalizing m a with
  | nil => rw [if_neg (fun h => by have := h.2; simp only [List.length_nil] at this; omega)]; rfl
  | cons x xs ih =>
    rw [spPutList, ih (a + 1) (spWf_spSet a x h), spGet_spSet a x b h]
    by_cases h1 : b = a
    · subst h1; rw [if_neg (by omega), if_pos rfl, if_pos (by simp)]; simp [atOr0]
    · by_cases h2 : a + 1 ≤ b ∧ b < a + 1 + xs.length
      · have e : b - a = (b - (a + 1)) + 1 := by omega
        rw [if_pos h2, if_pos (by simp; omega), e]
        simp [atOr0]
      · rw [if_neg h2, if_neg h1, if_neg (by simp; omega)]

theorem spWfFrom_spNonzero (a : Nat) (xs : List (BitVec w)) : spWfFrom a (spNonzero a xs) = true := by
  induction xs generalizing a with
  | nil => rfl
  | cons x xs ih =>
    unfold spNonzero
    split
    · exact spWfFrom_mono (by omega) (ih (a + 1))
    · rename_i hx
      simp only [spWfFrom, ih (a + 1), Bool.and_true, Bool.and_eq_true, decide_eq_true_eq, bne_iff_ne]
      exact ⟨Nat.le_refl a, hx⟩

theorem spGet_spNonzero (a : Nat) (xs : List (BitVec w)) (b : Nat) :
    spGet (spNonzero a xs) b = if a ≤ b ∧ b < a + xs.length then atOr0 xs (b - a) else 0 := by
  induction xs generalizing a with
  | nil => rw [if_neg (by simp)]; rfl
  | cons x xs ih =>
    have hih := ih (a + 1)
    have key : spGet (spNonzero a (x :: xs)) b = if b = a then x else spGet (spNonzero (a + 1) xs) b := by
      rw [spNonzero]
      split
      · rename_i hx
        split
        · rename_i hb; subst hb
          rw [spGet_below (spWfFrom_spNonzero (b + 1) xs) (Nat.lt_succ_self _), hx]
        · rfl
      · by_cases h1 : b < a
        · have : b ≠ a := by omega
          simp [spGet, h1, this, spGet_below (spWfFrom_spNonzero (a + 1) xs) (show b < a + 1 by omega)]
        · simp [spGet, h1]
    rw [key, hih]
    by_cases h1 : b = a
    · subst h1; simp [atOr0]
    · by_cases h2 : a + 1 ≤ b ∧ b < a + 1 + xs.length
      · have e : b - a = (b - (a + 1)) + 1 := by omega
        rw [if_neg h1, if_pos h2, if_pos (by simp; omega), e]
        simp [atOr0]
      · rw [if_neg h1, if_neg h2, if_neg (by simp; omega)]

theorem spWfFrom_spDropBelow {m : Sparse w} {lo : Nat} (hi : Nat) (h : spWfFrom lo m = true) :
    spWfFrom (max lo hi) (spDropBelow hi m) = true := by
  induction m generalizing lo with
  | nil => rfl
  | cons e m ih =>
    obtain ⟨k, v⟩ := e
    have h0 := h
    simp only [spWfFrom, Bool.and_eq_true, decide_eq_true_eq] at h
    unfold spDropBelow
    split
    · exact spWfFrom_mono (by omega) (ih h.2)
    · simp only [spWfFrom, Bool.and_eq_true, decide_eq_true_eq]
      exact ⟨⟨by omega, h.1.2⟩, h.2⟩

theorem spGet_spDropBelow {m : Sparse w} {lo : Nat} (hi b : Nat) (h : spWfFrom lo m = true) (hb : hi ≤ b) :
    spGet (spDropBelow hi m) b = spGet m b := by
  induction m generalizing lo with
  | nil => rfl
  | cons e m ih =>
    obtain ⟨k, v⟩ := e
    simp only [spWfFrom, Bool.and_eq_true, decide_eq_true_eq] at h
    unfold spDropBelow
    split
    · rw [ih h.2]; simp [spGet, show ¬b < k by omega, show ¬b = k by omega]
    · rfl

theorem spWfFrom_append {m n : Sparse w} {lo mid : Nat} (hm : spWfFrom lo m = true) (hn : spWfFrom mid n = true)
    (hb : ∀ e ∈ m, e.1 < mid) (hlo : lo ≤ mid) : spWfFrom lo (m ++ n) = true := by
  induction m generalizing lo with
  | nil => exact spWfFrom_mono hlo hn
  | cons e m ih =>
    simp only [spWfFrom, Bool.and_eq_true, decide_eq_true_eq, List.cons_append] at hm ⊢
    have := hb e (by simp)
    exact ⟨hm.1, ih hm.2 (fun x hx => hb x (by simp [hx])) (by omega)⟩

theorem spGet_append {m n : Sparse w} {lo mid : Nat} (b : Nat) (hm : spWfFrom lo m = true)
    (hn : spWfFrom mid n = true) (hb : ∀ e ∈ m, e.1 < mid) :
    spGet (m ++ n) b = if b < mid then spGet m b else spGet n b := by
  induction m generalizing lo with
  | nil =>
    split
    · rename_i h; simpa [spGet] using spGet_below hn h
    · rfl
  | cons e m ih =>
    obtain ⟨k, v⟩ := e
    simp only [spWfFrom, Bool.and_eq_true, decide_eq_true_eq] at hm
    have hk := hb (k, v) (by simp)
    have := ih hm.2 fun x hx => hb x (by simp [hx])
    simp only [List.cons_append, spGet, this]
    by_cases h1 : b < k
    · simp [h1, show b < mid by simp at hk; omega]
    · by_cases h2 : b = k
      · subst h2; simp at hk; simp [hk]
      · simp [h1, h2]

theorem spNonzero_keys (a : Nat) (xs : List (BitVec w)) : ∀ e ∈ spNonzero a xs, e.1 < a + xs.length := by
  induction xs generalizing a with
  | nil => simp [spNonzero]
  | cons x xs ih =>
    intro e he
    unfold spNonzero at he
    simp only [List.length_cons]
    split at he
    · have := ih (a + 1) e he; omega
    · rcases List.mem_cons.1 he with rfl | h
      · simp
      · have := ih (a + 1) e h; omega

theorem spPutBlock_spec {m : Sparse w} {lo : Nat} (a : Nat) (bs : List (BitVec w)) (h : spWfFrom lo m = true) :
    spWfFrom (min lo a) (spPutBlock m a bs) = true ∧
      ∀ b, spGet (spPutBlock m a bs) b = if a ≤ b ∧ b < a + bs.length then atOr0 bs (b - a) else spGet m b := by
  induction m generalizing lo with
  | nil =>
    refine ⟨spWfFrom_mono (by omega) (spWfFrom_spNonzero a bs), fun b => ?_⟩
    simpa [spPutBlock, spGet] using spGet_spNonzero a bs b
  | cons e m ih =>
    obtain ⟨k, v⟩ := e
    have h0 := h
    simp only [spWfFrom, Bool.and_eq_true, decide_eq_true_eq] at h
    unfold spPutBlock
    split
    · rename_i hk
      obtain ⟨h1, h2⟩ := ih h.2
      refine ⟨?_, fun b => ?_⟩
      · simp only [spWfFrom, Bool.and_eq_true, decide_eq_true_eq]
        exact ⟨⟨by omega, h.1.2⟩, spWfFrom_mono (by omega) h1⟩
      · simp only [spGet, h2]
        by_cases h3 : b < k
        · simp [h3]; intro; omega
        · by_cases h4 : b = k
          · subst h4; simp; intro; omega
          · simp [h3, h4]
    · rename_i hk
      have hd := spWfFrom_spDropBelow (a + bs.length) h0
      have hn := spWfFrom_spNonzero a bs
      have hd' : spWfFrom (a + bs.length) (spDropBelow (a + bs.length) ((k, v) :: m)) = true :=
        spWfFrom_mono (by omega) hd
      refine ⟨spWfFrom_mono (by omega) (spWfFrom_append hn hd' (spNonzero_keys a bs) (by omega)), fun b => ?_⟩
      rw [spGet_append b hn hd' (spNonzero_keys a bs), spGet_spNonzero]
      by_cases h3 : b < a + bs.length
      · by_cases h4 : a ≤ b
        · simp [h3, h4]
        · have : spGet ((k, v) :: m) b = 0 := by simp [spGet, show b < k by omega]
          simp [h3, h4, this]
      · rw [if_neg h3, if_neg (by omega), spGet_spDropBelow _ b h0 (by omega)]

theorem spWf_spPutBlock {m : Sparse w} (a : Nat) (bs : List (BitVec w)) (h : spWf m = true) :
    spWf (spPutBlock m a bs) = true := by
  have := (spPutBlock_spec a bs h).1
  simpa [spWf] using this

theorem spGet_spPutBlock {m : Sparse w} (a : Nat) (bs : List (BitVec w)) (b : Nat) (h : spWf m = true) :
    spGet (spPutBlock m a bs) b = if a ≤ b ∧ b < a + bs.length then atOr0 bs (b - a) else spGet m b :=
  (spPutBlock_spec a bs h).2 b

theorem spWf_spPutNat {m : Sparse 8} (a n x : Nat) (h : spWf m = true) : spWf (spPutNat m a n x) = true :=
  spWf_spPutList a _ h

theorem bytesOf_length (n x : Nat) : (bytesOf n x).length = n := by
  induction n generalizing x with
  | zero => rfl
  | succ n ih => simp [bytesOf, ih]

theorem natOf_bytesOf (n x : Nat) : natOf (bytesOf n x) = x % 256 ^ n := by
  induction n generalizing x with
  | zero => simp [bytesOf, natOf, Nat.mod_one]
  | succ n ih =>
    have h := Nat.mod_mul (x := x) (a := 256) (b := 256 ^ n)
    simp only [bytesOf, natOf, ih, BitVec.toNat_ofNat, Nat.pow_succ]
    rw [Nat.mul_comm (256 ^ n) 256, h]

end Sys2Proof
end

