-- ==== Sys2Proof/Laws/Memory.lean ====
section
/-! SUPPORT. Every operation on the device's memories keeps their canonical form, which memory at reset has; and what a
byte reads as after a write. -/

namespace Sys2Proof.Machine

/-! ### The device's memories -/

theorem memWf_iff (s : State) : s.memWf = true ↔ spWf s.hbm = true ∧ spWf s.mailbox = true ∧ spWf s.hostMem = true := by
  simp [State.memWf, Memory.wf, and_assoc]

/-- States with the same memories. -/
theorem memWf_of_eq {s s' : State} (h : s.memWf = true) (h1 : s'.hbm = s.hbm) (h2 : s'.mailbox = s.mailbox)
    (h3 : s'.hostMem = s.hostMem) : s'.memWf = true := by
  rw [memWf_iff] at *; rw [h1, h2, h3]; exact h

/-- A state that differs in its HBM alone. -/
theorem memWf_hbm {s s' : State} (h : s.memWf = true) (h1 : spWf s'.hbm = true) (h2 : s'.mailbox = s.mailbox)
    (h3 : s'.hostMem = s.hostMem) : s'.memWf = true := by
  rw [memWf_iff] at *; rw [h2, h3]; exact ⟨h1, h.2⟩

theorem hbmWf {s : State} (h : s.memWf = true) : spWf s.hbm = true := ((memWf_iff s).1 h).1

/-- A fold of operations that keep the form keeps it. -/
theorem memWf_foldl {α : Type} (f : State → α → State) (hf : ∀ s a, s.memWf = true → (f s a).memWf = true) (l : List α)
    {s : State} (h : s.memWf = true) : (l.foldl f s).memWf = true := by
  induction l generalizing s with
  | nil => exact h
  | cons a l ih => exact ih (hf s a h)

theorem spWf_settleWord {m : Memory} (kw : Nat × MscWord) (h : spWf m = true) : spWf (settleWord m kw) = true :=
  spWf_spPutNat _ _ _ h

theorem spWf_settleWords {m : Memory} (l : List (Nat × MscWord)) (h : spWf m = true) :
    spWf (l.foldl settleWord m) = true := by
  induction l generalizing m with
  | nil => exact h
  | cons a l ih => exact ih (spWf_settleWord a h)

theorem memWf_openRange {s : State} (lo hi : Nat) (h : s.memWf = true) : (s.openRange lo hi).memWf = true :=
  memWf_hbm h (spWf_spErase _ _ (hbmWf h)) rfl rfl

theorem memWf_countWrite (s : State) (line : Nat) (h : s.memWf = true) : (s.countWrite line).memWf = true := by
  unfold State.countWrite
  split
  · exact h
  · split
    · exact h
    · split
      · exact h
      · exact memWf_openRange _ _ (memWf_of_eq h rfl rfl rfl)

theorem memWf_mscEvict {s : State} (line : Nat) (h : s.memWf = true) : (s.mscEvict line).memWf = true := by
  unfold State.mscEvict
  split
  · exact h
  · rename_i e _
    extract_lets s1
    have h1 : s1.memWf = true := memWf_hbm h (spWf_settleWords _ (hbmWf h)) rfl rfl
    clear_value s1
    apply memWf_countWrite
    split
    · exact memWf_of_eq h1 rfl rfl rfl
    · exact h1

theorem memWf_mscRoom {s : State} (line : Nat) (h : s.memWf = true) : (s.mscRoom line).memWf = true := by
  unfold State.mscRoom
  dsimp only
  split
  · split
    · exact memWf_mscEvict _ h
    · exact h
  · exact h

theorem memWf_memPutByte {s : State} (pa : Nat) (b : Byte) (h : s.memWf = true) : (s.memPutByte pa b).memWf = true := by
  unfold State.memPutByte
  split
  · exact memWf_of_eq (memWf_mscRoom _ h) rfl rfl rfl
  · dsimp only
    split
    · exact memWf_of_eq h rfl rfl rfl
    · exact memWf_of_eq h rfl rfl rfl
    · exact memWf_hbm h (spWf_settleWord _ (hbmWf h)) rfl rfl

theorem memWf_memPutEach (bs : List Byte) {s : State} (pa : Nat) (h : s.memWf = true) :
    (s.memPutEach pa bs).memWf = true := by
  induction bs generalizing s pa with
  | nil => exact h
  | cons b bs ih => exact ih (pa + 1) (memWf_memPutByte pa b h)

theorem memWf_memPutRaw {s : State} (pa : Nat) (bs : List Byte) (h : s.memWf = true) : (s.memPutRaw pa bs).memWf = true :=
  memWf_memPutEach bs pa h

theorem memWf_remember {s : State} (pa n : Nat) (h : s.memWf = true) : (s.remember pa n).memWf = true := by
  unfold State.remember
  split
  · exact h
  · exact memWf_of_eq h rfl rfl rfl

theorem memWf_rememberBlock {s : State} (lo hi : Nat) (z : Bool) (h : s.memWf = true) :
    (s.rememberBlock lo hi z).memWf = true :=
  memWf_of_eq h rfl rfl rfl

theorem memWf_thaw {s : State} (pa n : Nat) (h : s.memWf = true) : (s.thaw pa n).memWf = true := by
  unfold State.thaw
  split
  · exact h
  · exact memWf_hbm h (spWf_spPutBlock _ _ (hbmWf h)) rfl rfl

theorem memWf_markImages {s : State} (pa n : Nat) (h : s.memWf = true) : (s.markImages pa n).memWf = true := by
  unfold State.markImages
  split
  · exact h
  · exact memWf_of_eq h rfl rfl rfl

theorem memWf_memPut {s : State} (pa : Nat) (bs : List Byte) (h : s.memWf = true) : (s.memPut pa bs).memWf = true :=
  memWf_markImages pa bs.length (memWf_memPutRaw pa bs (memWf_remember pa bs.length (memWf_thaw pa bs.length h)))

theorem memWf_hitWatches {s : State} (pa n : Nat) (h : s.memWf = true) : (s.hitWatches pa n).memWf = true := by
  unfold State.hitWatches
  split
  · exact h
  · exact memWf_of_eq h rfl rfl rfl

theorem memWf_performHbm {s : State} (core : Option Nat) (pa : Nat) (bs : List Byte) (h : s.memWf = true) :
    (s.performHbm core pa bs).memWf = true := by
  unfold State.performHbm
  have h1 : ((s.memPut pa bs).revokeOthers core pa bs.length).memWf = true :=
    memWf_of_eq (memWf_memPut pa bs h) rfl rfl rfl
  apply memWf_hitWatches
  cases core with
  | none => exact h1
  | some c => exact memWf_of_eq h1 rfl rfl rfl

/-- A write that performs keeps the form, wherever it lies. -/
theorem memWf_perform {s : State} (core : Option Nat) (pa : Nat) (bs : List Byte) (h : s.memWf = true) :
    (s.perform core pa bs).memWf = true := by
  unfold State.perform
  have h' := (memWf_iff s).1 h
  split
  · exact memWf_performHbm core pa bs h
  · rw [memWf_iff]; exact ⟨h'.1, spWf_spPutBlock _ _ h'.2.1, h'.2.2⟩
  · rw [memWf_iff]; exact ⟨h'.1, h'.2.1, spWf_spPutBlock _ _ h'.2.2⟩
  · exact h
  · exact h

theorem memWf_zeroPages {s : State} (lo hi : Nat) (h : s.memWf = true) : (s.zeroPages lo hi).memWf = true := by
  unfold State.zeroPages
  extract_lets out s1 s2
  have h1 : s1.memWf = true := memWf_rememberBlock lo hi true h
  have h2 : s2.memWf = true := by
    unfold s2
    split
    · exact memWf_foldl _ memWf_countWrite _ h1
    · exact h1
  exact memWf_hitWatches _ _ (memWf_hbm h2 (spWf_spErase _ _ (hbmWf h2)) rfl rfl)

theorem memWf_zfuClaim {s : State} (f : Found) (h : s.memWf = true) : (s.zfuClaim f).memWf = true := by
  unfold State.zfuClaim
  extract_lets old s1
  have h1 : s1.memWf = true := memWf_zeroPages _ _ h
  split
  · exact memWf_perform _ _ _ h1
  · exact h1

theorem memWf_touchFrom (fuel : Nat) {s : State} (core ctx va : Nat) (h : s.memWf = true) :
    (State.touchFrom fuel s core ctx va).memWf = true := by
  induction fuel generalizing s with
  | zero => exact h
  | succ n ih =>
    unfold State.touchFrom
    split
    · exact h
    · split
      · exact ih (memWf_zfuClaim _ h)
      · unfold State.tlbFill
        dsimp only
        split
        · exact memWf_of_eq h rfl rfl rfl
        · exact memWf_of_eq h rfl rfl rfl

theorem memWf_combineAt {s : State} (pa : Nat) (op : AOp) (ty : Ty) (v : Nat) (e : MscEnt) (olds : List (Nat × MscWord)) (n : Nat)
    (h : s.memWf = true) : (State.mscRed.combineAt s pa op ty v e olds n).memWf = true := by
  have hs := spWf_settleWords olds (hbmWf h)
  unfold State.mscRed.combineAt
  dsimp only
  split
  · exact memWf_hbm h (spWf_spPutNat _ _ _ hs) rfl rfl
  · exact memWf_hbm h hs rfl rfl

theorem memWf_mscRed {s : State} (pa : Nat) (op : AOp) (ty : Ty) (v : Nat) (h : s.memWf = true) :
    (s.mscRed pa op ty v).memWf = true := by
  unfold State.mscRed
  extract_lets n line s1 e put pend
  have h1 : s1.memWf = true := by
    unfold s1
    split
    · exact memWf_mscRoom _ h
    · exact h
  have hp (ws : List (Nat × MscWord)) : (put s1.hbm ws).memWf = true := memWf_of_eq h1 rfl rfl rfl
  clear_value s1 put
  split
  · exact hp _
  · split
    · split
      · exact hp _
      · exact memWf_combineAt pa op ty v _ _ _ h1
    · exact memWf_combineAt pa op ty v _ _ _ h1

theorem memWf_performRed {s : State} (core pa : Nat) (op : AOp) (ty : Ty) (v : Nat) (h : s.memWf = true) :
    (s.performRed core pa op ty v).memWf = true := by
  unfold State.performRed
  extract_lets n s1
  have h1 : s1.memWf = true := memWf_of_eq (memWf_mscRed pa op ty v (memWf_remember pa n (memWf_thaw pa n h))) rfl rfl rfl
  exact memWf_of_eq (memWf_hitWatches pa n h1) rfl rfl rfl

theorem memWf_loseRange {s : State} (lo hi : Nat) (h : s.memWf = true) : (s.loseRange lo hi).memWf = true :=
  memWf_openRange lo hi h

theorem memWf_openPa {s : State} (pa n : Nat) (h : s.memWf = true) : (s.openPa pa n).memWf = true := by
  unfold State.openPa
  dsimp only
  apply memWf_hitWatches
  have h1 : s.fresh.2.memWf = true := memWf_of_eq h rfl rfl rfl
  have h2 := memWf_markImages pa n (memWf_foldl _ memWf_countWrite (linesOf pa n) (memWf_rememberBlock pa (pa + n) false
    (memWf_foldl _ (fun s (e : MscEnt) hs => memWf_mscEvict e.line hs)
      (s.fresh.2.msc.filter fun e => pa < 64 * e.line + 64 && 64 * e.line < pa + n) h1)))
  exact memWf_hbm h2 (spWf_spErase _ _ (hbmWf h2)) rfl rfl

theorem memWf_touchSpan {s : State} (core ctx va n : Nat) (h : s.memWf = true) :
    (s.touchSpan core ctx va n).memWf = true :=
  memWf_foldl _ (fun _ va hs => memWf_touchFrom 8 core ctx va hs) _ h

theorem memWf_openVa {s : State} (core ctx va n : Nat) (h : s.memWf = true) : (s.openVa core ctx va n).memWf = true := by
  unfold State.openVa
  apply memWf_foldl _ _ _ (memWf_touchSpan core ctx va n h)
  intro s p hs
  split
  · split
    · exact memWf_openPa _ _ hs
    · exact hs
  · exact hs

theorem memWf_zeroRange {s : State} (lo hi : Nat) (h : s.memWf = true) : (s.zeroRange lo hi).memWf = true :=
  memWf_openRange _ _ (memWf_of_eq (memWf_zeroPages lo hi h) rfl rfl rfl)

theorem memWf_openMemory {s : State} (h : s.memWf = true) : s.openMemory.memWf = true := by
  apply memWf_loseRange
  exact memWf_hbm h rfl rfl rfl

/-- Memory at reset has the canonical form. -/
theorem memWf_reset : State.reset.memWf = true := rfl

theorem memWf_cleared {s : State} (h : s.memWf = true) : s.cleared.memWf = true := by
  rw [memWf_iff] at *; exact ⟨rfl, rfl, h.2.2⟩

theorem memWf_warmRestart {s : State} (h : s.memWf = true) : s.warmRestart.memWf = true := by
  unfold State.warmRestart
  extract_lets s1 s2
  have h1 : s1.memWf = true := memWf_foldl _ (fun s (e : MscEnt) hs => memWf_mscEvict e.line hs) s.msc h
  have h2 : s2.memWf = true := memWf_foldl _ (fun s (x : Nat × Nat) hs => memWf_loseRange _ _ hs) s1.keyRanges h1
  rw [memWf_iff] at *
  exact ⟨h2.1, rfl, h2.2.2⟩

theorem memWf_warmReset {s : State} (h : s.memWf = true) : s.warmReset.memWf = true := by
  unfold State.warmReset
  split
  · exact h
  · exact memWf_warmRestart h
  all_goals
    split
    · exact h
    · exact memWf_of_eq (memWf_cleared h) rfl rfl rfl

theorem memWf_mailboxWrite {s : State} (off size : Nat) (v : BitVec 64) (h : s.memWf = true) :
    (s.mailboxWrite off size v).memWf = true := by
  rw [memWf_iff] at *; exact ⟨h.1, spWf_spPutNat _ _ _ h.2.1, h.2.2⟩

theorem memWf_mailbox {s s' : State} (h : s.memWf = true) (h1 : s'.hbm = s.hbm) (h2 : spWf s'.mailbox = true)
    (h3 : s'.hostMem = s.hostMem) : s'.memWf = true := by
  rw [memWf_iff] at *; rw [h1, h3]; exact ⟨h.1, h2, h.2.2⟩

theorem memWf_mailboxPost {s : State} (mk : Nat → List Byte) (h : s.memWf = true) : (s.mailboxPost mk).memWf = true := by
  have hm := ((memWf_iff s).1 h).2.1
  unfold State.mailboxPost
  extract_lets dwr drd m
  have hm' : spWf m = true := spWf_spPutBlock _ _ hm
  clear_value m
  split
  · exact memWf_mailbox h rfl (spWf_spPutNat _ _ _ hm) rfl
  · exact memWf_mailbox h rfl (spWf_spPutNat _ _ _ hm') rfl

/-! ### The memories of a core -/

theorem Core.memWf_iff (c : Core) : c.memWf = true ↔
    spWf c.scratch = true ∧ spWf c.bankW = true ∧ spWf c.bankA = true ∧ spWf c.bankC = true := by
  simp [Core.memWf, Memory.wf, and_assoc]

theorem Core.memWf_bank {c : Core} (b : Nat) (h : c.memWf = true) : spWf (c.bank b) = true := by
  have h := c.memWf_iff.1 h
  unfold Core.bank
  split
  · exact h.2.1
  · exact h.2.2.1
  · exact h.2.2.2

theorem Core.memWf_setBank {c : Core} (b : Nat) {m : Memory} (h : c.memWf = true) (hm : spWf m = true) :
    (c.setBank b m).memWf = true := by
  rw [Core.memWf_iff] at *
  unfold Core.setBank
  split
  · exact ⟨h.1, hm, h.2.2⟩
  · exact ⟨h.1, h.2.1, hm, h.2.2.2⟩
  · exact ⟨h.1, h.2.1, h.2.2.1, hm⟩

theorem Core.memWf_scratch {c : Core} {m : Memory} (h : c.memWf = true) (hm : spWf m = true) :
    ({ c with scratch := m } : Core).memWf = true := by
  rw [Core.memWf_iff] at *; exact ⟨hm, h.2⟩

theorem Core.memWf_clearZero {c : Core} (b g : Nat) (h : c.memWf = true) : (c.clearZero b g).memWf = true := by
  unfold Core.clearZero
  split
  · exact Core.memWf_setBank b h (spWf_spErase _ _ (Core.memWf_bank b h))
  · exact h

theorem Core.memWf_foldl {α : Type} (f : Core → α → Core) (hf : ∀ c a, c.memWf = true → (f c a).memWf = true) (l : List α)
    {c : Core} (h : c.memWf = true) : (l.foldl f c).memWf = true := by
  induction l generalizing c with
  | nil => exact h
  | cons a l ih => exact ih (hf c a h)

theorem Core.memWf_bankPut {c : Core} (b a : Nat) (bs : List Byte) (h : c.memWf = true) : (c.bankPut b a bs).memWf = true := by
  have h1 := Core.memWf_foldl (fun c g => c.clearZero b g) (fun c g hc => Core.memWf_clearZero b g hc)
    (granulesOf a bs.length) h
  exact Core.memWf_setBank b h1 (spWf_spPutBlock _ _ (Core.memWf_bank b h1))

theorem Core.memWf_tilePut {c : Core} (r : HRec) (off : Nat) (bs : List Byte) (h : c.memWf = true) :
    (c.tilePut r off bs).memWf = true := Core.memWf_bankPut _ _ _ h

theorem Core.memWf_setLine {c : Core} (k : Nat) (x : LineSt) (h : c.memWf = true) : (c.setLine k x).memWf = true := by
  unfold Core.setLine; split <;> exact h

theorem Core.memWf_scratchPut {c : Core} (a : Nat) (bs : List Byte) (h : c.memWf = true) : (c.scratchPut a bs).memWf = true := by
  unfold Core.scratchPut
  refine Core.memWf_foldl _ (fun c k hc => ?_) _
    (Core.memWf_scratch h (spWf_spPutBlock a bs (c.memWf_iff.1 h).1))
  split
  · exact Core.memWf_setLine _ _ hc
  · exact hc

theorem Core.memWf_sidePut {c : Core} (x : Side) (off : Nat) (bs : List Byte) (h : c.memWf = true) :
    (c.sidePut x off bs).memWf = true := by
  unfold Core.sidePut
  split
  · exact Core.memWf_scratch h (spWf_spPutBlock _ _ (c.memWf_iff.1 h).1)
  · split
    · exact Core.memWf_tilePut _ _ _ h
    · exact h

theorem Core.memWf_sidePutAll {c : Core} (x : Side) (ws : List (Nat × List Byte)) (h : c.memWf = true) :
    (c.sidePutAll x ws).memWf = true :=
  Core.memWf_foldl _ (fun _ _ hc => Core.memWf_sidePut x _ _ hc) ws h

theorem Core.memWf_runScratch {c : Core} (n : Nat) (f : Nat → Nat → Option Nat) (ps : List (Nat × Nat)) (h : c.memWf = true) :
    (c.runScratch n f ps).1.memWf = true := by
  induction ps generalizing c with
  | nil => exact h
  | cons p ps ih =>
    obtain ⟨l, a⟩ := p
    unfold Core.runScratch
    dsimp only
    apply ih
    split
    · exact Core.memWf_scratch h (spWf_spPutBlock _ _ (c.memWf_iff.1 h).1)
    · exact h

theorem Core.memWf_reset : Core.reset.memWf = true := rfl

/-! ### Reading after a write -/

/-- Where no line stands in a memory-side cache and no byte is open, a byte reads as HBM holds it. -/
theorem memByte_plain {s : State} (hm : s.msc = []) (ho : s.openBytes = []) (a : Nat) : s.memByte a = spGet s.hbm a := by
  simp [State.memByte, findMsc, hm, State.hbmByte, openByte, ho]

end Sys2Proof.Machine
end

