-- ==== Sys2Proof/Laws/Registers.lean ====
section
/-! SUPPORT. What writes of registers do: a write reads back, p7 and q7 stay true, every other register stays, the
files stay canonical, and what else a warp holds stays; the same of a list of writes, of results that land and of the
passing of a distance. -/

namespace Sys2Proof.Machine

/-- What a write of register `k` leaves in `k` (03_registers R58, R60). -/
def written (k : RKey) (x : BitVec 32) : BitVec 32 :=
  match k.file with
  | .v | .g => x
  | .x => x &&& 0x3FFFFFFF
  | .p => if 224 ≤ k.key then 1 else x
  | .q => if 7 ≤ k.key then 1 else x

theorem canon_rset {w : Warp} (k : RKey) (x : BitVec 32) (h : w.canon) : (rset w k x).canon := by
  obtain ⟨hv, hg, hx, hp, hq⟩ := h
  obtain ⟨f, n⟩ := k
  cases f <;> simp only [rset]
  · exact ⟨spWf_spSet _ _ hv, hg, hx, hp, hq⟩
  · exact ⟨hv, spWf_spSet _ _ hg, hx, hp, hq⟩
  · exact ⟨hv, hg, spWf_spSet _ _ hx, hp, hq⟩
  · split
    · exact ⟨hv, hg, hx, hp, hq⟩
    · exact ⟨hv, hg, hx, spWf_spSet _ _ hp, hq⟩
  · split
    · exact ⟨hv, hg, hx, hp, hq⟩
    · exact ⟨hv, hg, hx, hp, spWf_spSet _ _ hq⟩

theorem rget_rset_same {w : Warp} (k : RKey) (x : BitVec 32) (h : w.canon) : rget (rset w k x) k = written k x := by
  obtain ⟨hv, hg, hx, hp, hq⟩ := h
  obtain ⟨f, n⟩ := k
  cases f <;> simp only [rset, rget, written]
  · simp [spGet_spSet _ _ _ hv]
  · simp [spGet_spSet _ _ _ hg]
  · simp [spGet_spSet _ _ _ hx]
  · split <;> simp [spGet_spSet _ _ _ hp, *]
  · split <;> simp [spGet_spSet _ _ _ hq, *]

theorem rget_rset_other {w : Warp} {k k' : RKey} (x : BitVec 32) (h : w.canon) (hk : k ≠ k') :
    rget (rset w k x) k' = rget w k' := by
  obtain ⟨hv, hg, hx, hp, hq⟩ := h
  obtain ⟨f, n⟩ := k
  obtain ⟨f', n'⟩ := k'
  by_cases hf : f = f'
  · subst hf
    have hn : n' ≠ n := by rintro rfl; exact hk rfl
    cases f <;> simp only [rset, rget]
    · rw [spGet_spSet _ _ _ hv, if_neg hn]
    · rw [spGet_spSet _ _ _ hg, if_neg hn]
    · rw [spGet_spSet _ _ _ hx, if_neg hn]
    · split
      · rfl
      · split
        · rfl
        · rw [spGet_spSet _ _ _ hp, if_neg hn]
    · split
      · rfl
      · split
        · rfl
        · rw [spGet_spSet _ _ _ hq, if_neg hn]
  · cases f <;> cases f' <;> simp only [rset, rget] <;> (first | (exact absurd rfl hf) | rfl | (repeat' split) <;> rfl)

theorem canon_putWrites {w : Warp} (l : List RegWrite) (h : w.canon) : (putWrites w l).canon := by
  induction l generalizing w with
  | nil => exact h
  | cons x l ih => exact ih (canon_rset _ _ h)

theorem rget_putWrites_other {w : Warp} {k : RKey} (l : List RegWrite) (h : w.canon) (hk : ∀ x ∈ l, x.at_ ≠ k) :
    rget (putWrites w l) k = rget w k := by
  induction l generalizing w with
  | nil => rfl
  | cons x l ih =>
    rw [putWrites, ih (canon_rset _ _ h) (fun y hy => hk y (by simp [hy])),
      rget_rset_other _ h (hk x (by simp))]

/-- The last write to a register decides it. -/
theorem rget_putWrites_last {w : Warp} {k : RKey} (l l' : List RegWrite) (x : BitVec 32) (h : w.canon)
    (hk : ∀ y ∈ l', y.at_ ≠ k) : rget (putWrites w (l ++ ⟨k, x⟩ :: l')) k = written k x := by
  induction l generalizing w with
  | nil => rw [List.nil_append, putWrites, rget_putWrites_other _ (canon_rset _ _ h) hk, rget_rset_same _ _ h]
  | cons y l ih => exact ih (canon_rset _ _ h)

/-- What writes of registers keep of a warp. -/
theorem putWrites_keeps (w : Warp) (l : List RegWrite) :
    ∃ v g x p q, putWrites w l = { w with v := v, g := g, x := x, p := p, q := q } := by
  induction l generalizing w with
  | nil => exact ⟨w.v, w.g, w.x, w.p, w.q, rfl⟩
  | cons y l ih =>
    obtain ⟨v, g, x, p, q, e⟩ := ih (rset w y.at_ y.val)
    refine ⟨v, g, x, p, q, ?_⟩
    rw [putWrites, e]
    cases hf : y.at_.file <;> simp only [rset, hf] <;> (try split) <;> rfl

/-- Barriers that fall change no register. -/
theorem rget_fall (w : Warp) (l : List Nat) (k : RKey) : rget (w.fall l) k = rget w k := by
  cases hf : k.file <;> simp [rget, hf, Warp.fall]

theorem canon_land {w : Warp} (now rest : List Inflight) (h : w.canon) : (w.land now rest).canon := canon_putWrites _ h

theorem canon_pass {w : Warp} (d : Nat) (h : w.canon) : (w.pass d).canon := canon_land _ _ h

/-- A register that none of the landing results writes stays. -/
theorem rget_land_other {w : Warp} {k : RKey} (now rest : List Inflight) (h : w.canon)
    (hk : ∀ i ∈ now, ∀ x ∈ i.writes, x.at_ ≠ k) : rget (w.land now rest) k = rget w k := by
  unfold Warp.land
  rw [rget_fall, rget_putWrites_other _ (by exact h)]
  · rfl
  · intro x hx
    obtain ⟨i, hi, hx⟩ := List.mem_flatMap.mp hx
    exact hk i hi x hx

/-- A register that no result in flight writes stays as distances pass. -/
theorem rget_pass_other {w : Warp} {k : RKey} (d : Nat) (h : w.canon)
    (hk : ∀ i ∈ w.inflight, ∀ x ∈ i.writes, x.at_ ≠ k) : rget (w.pass d) k = rget w k := by
  unfold Warp.pass
  exact rget_land_other _ _ h fun i hi => hk i (List.mem_filter.mp hi).1

/-- What results that land keep of a warp: they write registers and lower barriers. -/
theorem land_keeps (w : Warp) (now rest : List Inflight) :
    ∃ v g x p q b, w.land now rest = { w with v := v, g := g, x := x, p := p, q := q, bars := b, inflight := rest } := by
  obtain ⟨v, g, x, p, q, e⟩ := putWrites_keeps { w with inflight := rest } (now.flatMap (·.writes))
  unfold Warp.land
  rw [e]
  exact ⟨v, g, x, p, q, _, rfl⟩

/-- What the passing of a distance keeps of a warp. -/
theorem pass_keeps (w : Warp) (d : Nat) :
    ∃ v g x p q b i, w.pass d = { w with v := v, g := g, x := x, p := p, q := q, bars := b, inflight := i } := by
  obtain ⟨v, g, x, p, q, b, e⟩ := land_keeps w (w.inflight.filter (·.spent d))
    ((staying (·.spent d) w.inflight).map fun i => { i with left := i.left - d })
  exact ⟨v, g, x, p, q, b, _, e⟩

end Sys2Proof.Machine
end

