-- ==== Sys2Proof/Tests/Slice0.lean ====
section
/-! SUPPORT. Tests of one instruction or one step each: what WellFormed refuses, words written out from the encoding
tables, the fetch of a placed word; and, for every statement with hypotheses, a state and operands that meet them. The
words of the decode tests are those of the worked examples of chapters 02 to 20. -/

namespace Sys2Proof.Machine

/-! ### What WellFormed refuses -/

def hG : Hdr := plainHdr true 7 1
def hL : Hdr := plainHdr false 7 1

/-- One ill-formed term for each check of `Instr.wf`: form, reserved SETB, type, destination, source, alignment, field
ranges, and fields that must be zero. -/
def illFormed : List Instr :=
  [.rgive hL ⟨.lit0⟩, .movxSet hG ⟨0, .v 1⟩, .mov (plainHdr false 4 1) ⟨.n32, .v 1, .v 2⟩,
   .mov hL ⟨.i32, .v 1, .v 2⟩, .mov hL ⟨.n32, .lit0, .v 2⟩, .mov hL ⟨.n64, .v 1, .v 2⟩, .mov hL ⟨.n64, .v 2, .v 1⟩,
   .mov hL ⟨.n32, .v 640, .v 2⟩, .mov hG ⟨.n32, .v 1, .g 2⟩, .mov hL ⟨.n32, .g 1, .v 2⟩, .mov hL ⟨.b128, .v 4, .lit0⟩,
   .movi hL ⟨.b128, .v 4, 0⟩, .movxGet hL ⟨.g 1, 0⟩, .shfl hL ⟨.idx, .v 1, .v 2, .v 640⟩, .vote hL ⟨.ballot (.g 1), 0, false⟩,
   .rdlane hG ⟨.g 1, 640, .g 2⟩, .srd hG ⟨.g 1, .lane⟩, .srd hG ⟨.g 1, .time⟩, .rclaim hG ⟨.v 1⟩,
   .iadd hL ⟨.i32, .v 1, .v 2, .v 3, false, 1, false⟩, .iadd hL ⟨.i32, .v 1, .v 2, .v 3, true, 1, true⟩,
   .imad hL ⟨.i64, .v 2, .v 4, .v 6, .v 8, true⟩, .iabs hL ⟨.n32, .v 1, .v 2, false⟩,
   .log3 hL ⟨.i32, .v 1, .v 2, .v 3, .v 4, 0⟩, .shl hL ⟨.i16, .v 1, .v 2, .v 3, false⟩, .lea hL ⟨.v 1, .v 2, .v 3, 0, false⟩,
   .fadd hL ⟨.f64, .v 2, .v 4, .v 6, .rn, false, false, false, false⟩, .tfenceGet hL ⟨.g 1⟩,
   .cvt hL ⟨.v 1, .v 4, .rn, false, .n32, .b128⟩, .pkn hL ⟨.v 1, .v 2, .v 3, .rn, false, .wide .f16, 1⟩,
   .pkn hL ⟨.v 1, .v 2, .v 3, .rz, false, .narrow .i4, 0⟩, .qsclFind hL ⟨.v 1, .v 2, .narrow .e4m3, .e4m3⟩,
   .bra hG ⟨true, 0⟩, .split hG ⟨1, 0, false, 0⟩, .spawn hG ⟨0, 8⟩, .spawnT hG ⟨0, 116, .lit0⟩, .spawng hG ⟨0, 16, 1, .eq, false, false⟩,
   .tself hG ⟨.g 1, 5⟩, .jlaunch hG ⟨.g 1, 2, 0⟩, .ld hL ⟨.f32, .v 1, .v 2, .v 3, 0⟩, .ld hL ⟨.n32, .v 1, .v 3, .v 3, 0⟩,
   .lda hL ⟨.n16, .v 1, .v 2, .v 3, 0⟩, .ldt hG ⟨.n32, .g 1, 0, .g 2, 0⟩, .waitv hG ⟨.g 1, 1, .g 2, .eq, false, 0⟩,
   .atom hL ⟨.n32, .v 1, .v 2, .v 3, .add, false, false, .v 4, 0⟩, .red hL ⟨.n32, .v 2, .v 3, .cas, 0⟩,
   .talloc hG ⟨0, 2, 0⟩, .tstage hG ⟨.handle 0, 0, .lit0, ⟨0, false, true⟩⟩, .tcopy hG ⟨1, 2, .lit0, none, ⟨0, false, false⟩⟩,
   .mma hL ⟨0, 1, .lit0, 2, 0, false, ⟨false, 0⟩⟩, .macrV hG ⟨640, 0, 4, .rn, false⟩, .mq (plainHdr true 7 1) ⟨false, none⟩,
   .psel hG ⟨.lit0, 4, .lit1, ⟨0, false, false⟩⟩, .gathl hG ⟨.scratch (.v 1), 4, .lit0, ⟨0, false, false⟩⟩,
   .swrWrite hG ⟨.g 1, .zero, 1⟩, .swrRead hG ⟨.g 2, .zero, 2⟩, .time hG ⟨.g 1⟩, .ctxsave hL ⟨.g 1, 0⟩]

theorem test_ill_formed_refused : illFormed.all (fun i => !i.wf) = true := by decide

/-- Ill-formed instructions have no word that decodes back to them. -/
theorem test_ill_formed_words : illFormed.all (fun i => match encode i with
  | none => true
  | some w => match decode Privs.full w with
    | .ok j => decide (j ≠ i)
    | .error _ => true) = true := by decide +kernel

/-! ### Decoding -/

theorem test_decode_mov : decode Privs.full 0x000E04FF0001000000000701#96 = .ok (.mov hL ⟨.n32, .v 9, .lit0⟩) := rfl
theorem test_decode_rgive : decode Privs.full 0x022E007F0000000000000701#96 = .ok (.rgive hG ⟨.lit0⟩) := rfl
theorem test_decode_log3 : decode Privs.full 0x11CE0080401900012C020704#96 =
    .ok (.log3 (plainHdr false 7 4) ⟨.n32, .v 1, .v 2, .v 3, .v 4, 0x96⟩) := rfl
theorem test_decode_spawn_template : decode Privs.full 0x502201851FC0800000000701#96 =
    .ok (.spawnT ⟨true, false, 1, ⟨0, 7, 0, false, 1⟩⟩ ⟨3, 40, .lit0⟩) := rfl
theorem test_decode_atomp : decode Privs.full 0x70AFFF85C141808020000701#96 =
    .ok (.atomp hG ⟨.zero, .g 46, .g 40, 2, false, false, 0x100⟩) := rfl
theorem test_decode_thand : decode Privs.full 0x806E007FE010000006000701#96 = .ok (.thand hG ⟨0, .zero, 2, 3⟩) := rfl
/-- An all-zero word is a MOV of type code 0x0: ILLEGAL_OPCODE (02_encoding R45). -/
theorem test_decode_zero : decode Privs.full 0 = .error .illegalOpcode := rfl
/-- SETB 4 raises RESERVED_FIELD (R36). -/
theorem test_decode_setb : decode Privs.full 0x000E04FF0001000000000401#96 = .error .reservedField := rfl
/-- SWR without the context's privilege (R43, check 4). -/
theorem test_decode_privilege : decode ⟨false, true⟩ 0xB12E00029FF8000000188701#96 = .error .privileged := rfl

end Sys2Proof.Machine

namespace Sys2Proof.Machine

/-! ### A scene: one running task -/

/-- The task of the scene: width 32, every lane active, 640 registers, all zero. -/
def hero : Task := placeTask 0 1 (State.reset.newIdent 0).1 1 none

/-- The device with that task about to issue, in job 1 of context 0 on core 0. -/
def scene : State := { State.reset.place 0 with cur := { State.reset.cur with task := 1 } }

/-- The scene with its task, its job and its core changed. -/
def sceneWith (f : Task → Task) (j : Job → Job := id) (c : Core → Core := id) : State :=
  ({ scene with tasks := [f hero], jobs := scene.jobs.map j } : State).modCore 0 c

theorem scene_cur : scene.curTask = some hero := by decide

/-- An unguarded instruction without hints acts wherever no result of its task is outstanding and a lane is active. -/
theorem acts_of {s : State} {t : Task} (u : Bool) (n : BitVec 4) (keys : List RKey) (hc : s.curTask = some t)
    (hi : t.warp.inflight = []) (ha : lanesOf t.warp.active ≠ []) : Acts s (plainHdr u 7 n) t keys where
  task := hc
  room := by simp [barFull, plainHdr]
  settled := by intro k _; simp [State.pendingKey, Warp.inFlight, hi]
  holds := by
    have hg : ∀ l, s.guardIn t (plainHdr u 7 n) l = true := by
      intro l
      cases u <;>
        simp [State.guardIn, State.readPred, State.readKey, State.readWide, guardKey, plainHdr, hi, rget, kp, kq]
    have he : s.effLanes t (plainHdr u 7 n) = lanesOf t.warp.active := List.filter_eq_self.mpr fun l _ => hg l
    unfold State.guardHolds
    cases u
    · simp [he, plainHdr] at *; simpa [plainHdr] using ha
    · simpa [plainHdr] using hg 0

theorem acts (u : Bool) (n : BitVec 4) (keys : List RKey) : Acts scene (plainHdr u 7 n) hero keys :=
  acts_of u n keys scene_cur rfl (by decide)

/-! ### A placed word runs -/

/-- A check of the state that a step answers. -/
def nextIs (o : Host.Outcome State Fault Refusal) (p : State → Bool) : Bool :=
  match o with
  | .next s => p s
  | .fault _ | .refused _ => false

/-- `movi.n32 v4, 5 &s=4`, OPCODE 0x001 and EXT 5, placed after reset: the next step runs it, and its distance of 4 is
covered by its own stall count (R74, R76). -/
theorem test_placed_word_runs : nextIs (step (State.reset.withFetchWord 96 0x004E02000001000000028704)) (fun s =>
    match s.task? 1 with
    | none => false
    | some t => rget t.warp (kv 4 31) == 5 && rget t.warp (kv 5 0) == 0 && t.warp.pc == 64) = true := by decide +kernel

/-- The same word placed in a state that already runs a task. -/
theorem test_placed_beside : nextIs (step (scene.withFetchWord 96 0x004E02000001000000028704)) (fun s =>
    match s.task? 2 with
    | none => false
    | some t => rget t.warp (kv 4 0) == 5) = true := by decide +kernel

end Sys2Proof.Machine

namespace Sys2Proof.Machine

/-! ### What meets the hypotheses of the statements -/

/-- Encoding: a well-formed instruction with a word, at the first and the last class of each statement. -/
theorem meets_round_trips :
    ([(Instr.mov hL ⟨.n32, .v 639, .lit1⟩, 0), (.cbdec hG ⟨.g 126, .g 127, .zero, some true⟩, 3), (.bra hL ⟨true, 0xFFFFFFFF⟩, 4),
      (.rseal hG ⟨.g 126, .lit0, 0xFFFF⟩, 7), (.talloc hG ⟨63, 124, 7⟩, 8), (.ctxload hG ⟨.g 127, 7⟩, 11)] :
      List (Instr × Nat)).all (fun (i, c) => i.wf && ((encode i).map wordClass == some c)) = true := by decide

theorem meets_decoded_words : decode Privs.full 0x52EE0F030010000000000701#96 = .ok (.jlaunch hG ⟨.g 30, 24, 2⟩) ∧
    wordClass 0xC00E00000000000000000701#96 = 12 ∧ wordClass 0xFFFFFFFFFFFFFFFFFFFFFFFF#96 = 15 := ⟨rfl, by decide, by decide⟩

/-- A step that fetches a MOVI, and one that fetches a word which is no instruction. -/
def fetching (w : Nat) : State := State.reset.withFetchWord 96 w

/-- The bundle that `fetching` places. -/
def fetched (w : Nat) : Option Bundle :=
  match (fetching w).turned.bundleOf hero with
  | .ok b => some b
  | .error _ => none

def reachesNow (w : Nat) (ok : Bool) : Bool :=
  let s := (fetching w).turned
  match fetched w with
  | none => false
  | some b => decide (s.moveFor (fetching w).choice = some (.issue 0 0 none)) && decide (s.candidates 0 0 none = [hero]) &&
      b.wellFormed && decide (validSlot b hero.warp.pc = some 0) && !s.codeWaits hero && !s.pcBreak hero 0 &&
      !s.pcBreak hero 12 &&
      (match decode (s.privsOf hero) (b.slot 0) with | .ok _ => ok | .error _ => !ok)

theorem meets_step_runs : reachesNow 0x004E02000001000000028704 true = true := by decide +kernel
theorem meets_decode_faults : reachesNow 0 false = true := by decide +kernel

/-- An MQ without a slot after it; and an instruction that its full barrier holds. -/
theorem meets_unpaired_and_held :
    (match (encode (.mq ⟨true, false, 7, Hint.plain⟩ ⟨true, none⟩)) with
     | some w => ((fetched w.toNat).map (·.unpaired 0)) == some true
     | none => false) = true ∧ scene.held hero = true ∧
    (let f : Task → Task := fun t => { t with readyAt := 1 }
     (sceneWith f).held hero = false) := by decide +kernel

/-- An instruction that passes: its guard is p7 inverted. -/
theorem meets_guard_false : hdrOf (.nop ⟨false, true, 7, ⟨0, 7, 0, false, 1⟩⟩) = some ⟨false, true, 7, ⟨0, 7, 0, false, 1⟩⟩ ∧
    Passes scene ⟨false, true, 7, ⟨0, 7, 0, false, 1⟩⟩ hero := by
  refine ⟨rfl, scene_cur, by decide, ?_, by decide⟩
  intro k _
  simp [State.pendingKey, Warp.inFlight, show hero.warp.inflight = [] from rfl]

/-- A barrier counter at 63, and a guard in flight on a core that checks. -/
theorem meets_issue_waits :
    (let f : Task → Task := fun t => { t with warp := { t.warp with bars := [(3, 63)] } }
     (sceneWith f).curTask = some (f hero) ∧ spGet (f hero).warp.bars 3 = 63) ∧
    (let f : Task → Task := fun t => { t with warp := { t.warp with inflight := [⟨[⟨kq 2, 1⟩], 3, none, none, .pipe⟩] } }
     let c : Core → Core := fun c => { c with regs := { c.regs with schedCheck := 1 } }
     let h : Hdr := ⟨true, false, 2, ⟨0, 7, 0, false, 1⟩⟩
     (sceneWith f id c).curTask = some (f hero) ∧ barFull (f hero) h.hint = false ∧
     ((sceneWith f id c).core 0).regs.schedCheck.getLsbD 0 = true ∧
     ∃ k ∈ guardKeys h (f hero), (sceneWith f id c).pendingKey (f hero) k = true) := by
  refine ⟨⟨by decide, by decide⟩, by decide, by decide, by decide, kq 2, by decide, by decide⟩

/-- Group-wide forms of the computing instructions, at the ends of the g file, and per-lane forms. -/
def computing : List Instr :=
  let h := hG
  [.mov h ⟨.b128, .g 124, .g 0⟩, .movi h ⟨.i64, .g 126, 0x80000000⟩, .iadd h ⟨.i64, .g 126, .g 0, .lit0, true, 7, false⟩,
   .iaddc h ⟨.n64, .g 126, .g 0, .lit0, true, 7, true⟩, .isub h ⟨.i8, .g 127, .g 0, .zero, false, 0, true⟩,
   .imad h ⟨.i32, .g 126, .g 127, .g 0, .g 2, true⟩, .imulh h ⟨.n64, .g 126, .g 0, .g 2⟩, .imnmx h ⟨.n8, .g 127, .g 0, .g 1, true⟩,
   .iabs h ⟨.i64, .g 126, .g 0, true⟩, .log3 h ⟨.n64, .g 126, .g 0, .g 2, .g 4, 0x96⟩, .shf h ⟨.g 127, .g 0, .g 1, .g 2, true, true⟩,
   .shl h ⟨.n64, .g 126, .g 0, .g 2, false⟩, .shr h ⟨.i64, .g 126, .g 0, .g 2, false⟩, .bfx h ⟨.i64, .g 126, .g 0, .g 2⟩,
   .bfi h ⟨.n64, .g 126, .g 0, .g 2, .g 4⟩, .popc h ⟨.n64, .g 127, .g 0⟩, .clz h ⟨.n64, .g 127, .g 0⟩, .brev h ⟨.n64, .g 126, .g 0⟩,
   .isetp h ⟨.i64, 7, .g 0, .g 2, .lt, 7, .and, false⟩, .sel h ⟨.b128, .g 124, .g 0, .g 4, 7, true⟩, .lea h ⟨.g 126, .g 0, .g 2, 7, true⟩,
   .fadd h ⟨.f32, .g 127, .g 0, .g 1, .ro, true, true, true, true⟩, .fmul h ⟨.f32, .g 127, .g 0, .g 1, .rn, true, true, true, true⟩,
   .ffma h ⟨.f32, .g 127, .g 0, .g 1, .g 2, .rn, true, true, true, true, true⟩, .dadd h ⟨.f64, .g 126, .g 0, .g 2, .rn, false, false, false, false⟩,
   .dmul h ⟨.f64, .g 126, .g 0, .g 2, .rn, false, false, false, false⟩, .dfma h ⟨.f64, .g 126, .g 0, .g 2, .g 4, .rn, false, false, false, false, false⟩,
   .fmnmx h ⟨.f64, .g 126, .g 0, .g 2, true, true, true, true, true, true⟩, .fsetp h ⟨.f64, 7, .g 0, .g 2, .geu, 0, .xor, true, true, true⟩,
   .fmf h ⟨.g 127, .g 0, .tanh, true, true⟩, .fcls h ⟨.f64, .g 127, .g 0⟩, .hadd2 h ⟨.f16, .g 127, .g 0, .g 1, .rn, true, true, true, true⟩,
   .hmul2 h ⟨.bf16, .g 127, .g 0, .g 1, .rn, true, true, true, true⟩, .hfma2 h ⟨.f16, .g 127, .g 0, .g 1, .g 2, .rn, true, true, true, true, true⟩,
   .cvt h ⟨.g 126, .g 0, .rd, true, .f64, .i64⟩, .cvtn h ⟨.g 127, .g 0, .ro, true, .e2m1⟩, .pkn h ⟨.g 127, .g 0, .g 1, .rn, false, .narrow .t5, 3⟩,
   .unpk h ⟨.g 126, .g 0, .narrow .e2m1, 3⟩, .qsclFind h ⟨.g 127, .g 0, .narrow .t5, .e8m0⟩, .qsclDiv h ⟨.g 127, .g 0, .g 1, .rn, true, .ue4m3⟩,
   .qsclMul h ⟨.g 127, .g 0, .g 1, .rn, true, .e8m0⟩, .cbdec h ⟨.g 126, .g 0, .g 1, some true⟩,
   .isetp hL ⟨.n32, 7, .v 0, .v 639, .eq, 0, .or, true⟩, .movi hL ⟨.f32, .v 639, 1⟩]

/-- Every computing instruction has a scene in which it acts on operands that are allocated. -/
theorem meets_computes : computing.all (fun i => match computeOf i with
    | none => false
    | some (h, o, _) => i.wf && (workLanes h (scene.actLanes h hero)).all fun l =>
        o.ops.all fun x => decide (scene.opBad hero x.1 x.2 l = none)) = true := by decide

theorem meets_computes_acts (keys : List RKey) : Acts scene hG hero keys ∧ Acts scene hL hero keys ∧
    hero.stepping = false ∧ hero.warp.canon := ⟨acts _ _ _, acts _ _ _, rfl, by decide, by decide, by decide, by decide, by decide⟩

/-- A destination, and none but p7, among them. -/
theorem meets_arrival_and_discard :
    (computeOf (.movi hL ⟨.f32, .v 639, 1⟩)).map (fun x => x.2.1.dst) = some (some (.v 639, 1)) ∧
    (computeOf (.isetp hL ⟨.n32, 7, .v 0, .v 639, .eq, 0, .or, true⟩)).map (fun x => (x.2.1.dst, x.2.1.pdst)) =
      some (none, some 7) := by decide

theorem meets_finite_values : FFmt.fp64 ∈ [FFmt.fp64, .fp32, .fp16, .bf16, .e4m3, .e5m2, .e3m2, .e2m3, .e2m1] ∧
    0xFFEFFFFFFFFFFFFF < 2 ^ FFmt.fp64.bits ∧
    (match FFmt.fp64.decode 0xFFEFFFFFFFFFFFFF with | .fin _ _ _ _ => True | .inf _ | .nan _ => False) ∧
    (match FFmt.e2m1.decode 0xF with | .fin _ _ _ _ => True | .inf _ | .nan _ => False) :=
  ⟨by simp, by decide, trivial, trivial⟩

/-- TFENCE: no flag enabled; the last flag alone; and an operation that still owes its flags. -/
theorem meets_flag_fences :
    (scene.flagsOwed hero = false ∧ enabledFlags hero.warp.fpctl = 0) ∧
    (let w : BitVec 32 := 0x2020
     natBit (enabledFlags w) 5 = true ∧ ∀ j < 5, natBit (enabledFlags w) j = false) ∧
    (let o : EngOp := ⟨1, 0, 1, .psel 0 ⟨1, 64, 1, 1, 0, 0, 0, 0, 1, 64, 0, 0, true, 0, false⟩ 0 0 1 0 0 0, false, 20, 0, none, none, none, false,
       false, 0, 0, []⟩
     (sceneWith id id fun c => { c with ops := [o] }).flagsOwed hero = true) := by
  refine ⟨by decide, by decide, by decide⟩

end Sys2Proof.Machine

namespace Sys2Proof.Machine

/-! Register and control instructions. -/

/-- The scene with literal 0 of the bundle. -/
def withLit (n : BitVec 48) (s : State := scene) : State := { s with cur := { s.cur with lit0 := n } }

theorem acts_lit (u : Bool) (k : BitVec 4) (n : BitVec 48) (keys : List RKey) :
    Acts (withLit n) (plainHdr u 7 k) hero keys :=
  acts_of u k keys scene_cur rfl (by decide)

/-- The scene whose task has been changed. -/
def heroWith (f : Task → Task) (n : BitVec 48 := 0) : State := withLit n (sceneWith f)

theorem meets_lanes : (∀ l < 32, scene.opBad hero (.v 639) 1 l = none) ∧ (withLit 31).src hero .lit0 .n32 0 < hero.warp.width ∧
    ¬ (withLit 32).src hero .lit0 .n32 0 < hero.warp.width ∧ (639#10).toNat + 1 ≤ hero.warp.count ∧
    (hL.u = false) ∧ (hG.u = true) := by decide

theorem meets_special_registers : scene.unlogged hero ∧ SReg.lane ≠ .time ∧
    (∀ l ∈ workLanes hL (scene.actLanes hL hero), ∀ x ∈ [(Opnd.v 638, 2)], scene.opBad hero x.1 x.2 l = none) :=
  ⟨(rfl : (placeRec 0).mode = 0), by decide, by decide⟩

/-- RCLAIM of the last 4 registers, with a granule free and with none; counts that trap; RGIVE that leaves 4. -/
theorem meets_register_counts :
    (let f : Task → Task := fun t => { t with warp := { t.warp with count := 636 } }
     let s := heroWith f 4
     s.curTask = some (f hero) ∧ s.src (f hero) .lit0 .n32 0 = 4 ∧ (f hero).warp.count + 4 ≤ 640 ∧
     (s.cohort? 1).map (·.free) = some 0 ∧ (f hero).opened = none) ∧
    ((withLit 640).src hero .lit0 .n32 0 = 640 ∧ 640 % 4 = 0 ∧ (withLit 3).src hero .lit0 .n32 0 % 4 ≠ 0) ∧
    ((withLit 636).src hero .lit0 .n32 0 + 4 ≤ hero.warp.count ∧ (withLit 636).owesV hero 4 640 = false ∧
     hero.warp.count < (withLit 640).src hero .lit0 .n32 0 + 4) := by decide

/-- A granule that is free, with no other member about to claim; with one that claimed in this clk; and registers that a
result is still due to. -/
theorem meets_register_claims :
    (let f : Task → Task := fun t => { t with warp := { t.warp with count := 636 } }
     let s := heroWith f 4
     let s : State := { s with cohorts := s.cohorts.map fun (c : Cohort) => { c with free := 1 } }
     (s.cohort? 1).map (·.free) = some 1 ∧ s.claimRival (f hero) = false ∧
     (let o : Task := { hero with uid := 9, slot := some 48, park := some (.rclaim 1 12 hL.hint) }
      ({ s with tasks := s.tasks ++ [o] } : State).claimRival (f hero) = true)) ∧
    (let f : Task → Task := fun t => { t with warp := { t.warp with inflight := [⟨[⟨kv 639 31, 1⟩], 0, none, none, .request 5⟩] } }
     (sceneWith f).owesV (f hero) 636 640 = true) := by
  decide

/-- A target in the placed bundle; one that is no bundle's address; and bundles that are ill formed or without LANDING. -/
def landing (s : State) (p : BitVec 32) : Bool :=
  match s.job? 1 with
  | none => false
  | some j => match s.bundleAt 0 j p.toNat with
    | .ok b => decide (p.toNat % 64 = 0) && b.wellFormed && b.landing
    | .error _ => false

theorem meets_transfers : landing scene 0 = true ∧ offTarget hero 0 = 0 ∧ taken scene hG hero false = true ∧
    taken scene hL hero true = true ∧ taken scene ⟨false, true, 7, hL.hint⟩ hero false = false ∧
    (scene.readKey hero (kg 5)).toNat ≤ 1 ∧
    (let f : Task → Task := fun t => { t with warp := { t.warp with g := [(5, 2)] } }
     1 < ((sceneWith f).readKey (f hero) (kg 5)).toNat) := by decide +kernel

theorem meets_bad_targets : (scene.job? hero.job).isSome = true ∧ (withLit 4).src hero .lit0 .n32 0 % 64 ≠ 0 ∧
    (let s := sceneWith id fun j => { j with rec_ := { j.rec_ with codeSize := 128 } }
     match s.job? 1 with
     | none => false
     | some j => match s.bundleAt 0 j 64 with | .ok b => !b.wellFormed | .error _ => false) = true ∧
    (let s : State := { scene with hbm := [(placeBase + 63, 0x10)] }
     match s.job? 1 with
     | none => false
     | some j => match s.bundleAt 0 j 0 with | .ok b => b.wellFormed && !b.landing | .error _ => false) = true := by decide +kernel

/-- A predicate that holds in every lane and one that holds in none; an else part with its last lane; one with none. -/
theorem meets_divergence :
    maskOf ((lanesOf hero.warp.active).filter fun l => scene.readPred hero (kp 7 l) != false) = 0xFFFFFFFF#32 ∧
    maskOf ((lanesOf hero.warp.active).filter fun l => scene.readPred hero (kp 0 l) != false) = 0#32 ∧
    (let f : Task → Task := fun t => { t with warp := { t.warp with g := [(21, 0x80000000)] } }
     (sceneWith f).readKey (f hero) (kg 21) &&& (f hero).warp.live ≠ 0) ∧
    scene.readKey hero (kg 21) &&& hero.warp.live = 0 := by decide

theorem meets_exits : scene.owesG hero = false ∧ hero.opened = none ∧ hero.trapOf = none ∧
    hero.warp.live &&& ~~~hero.warp.active = 0 ∧ scene.softStopping hero = false ∧ hero.stepping = false ∧
    (let f : Task → Task := fun t => { t with warp := { t.warp with active := 1 } }
     (f hero).warp.live &&& ~~~(f hero).warp.active ≠ 0) ∧
    (let f : Task → Task := fun t => { t with warp := { t.warp with inflight := [⟨[⟨kg 127, 1⟩], 0, none, none, .request 5⟩] } }
     (sceneWith f).owesG (f hero) = true) := by decide

/-- A last lane's EXIT with a cohort open, and in a trap task; a task that a soft pre-emption stops. -/
theorem meets_last_exits :
    (let f : Task → Task := fun t => { t with opened := some (2, 2, [1]) }
     (f hero).opened.isSome = true) ∧
    (let f : Task → Task := fun t => { t with trapOf := some 7 }
     (f hero).trapOf = some 7 ∧ (f hero).opened = none) ∧
    ({ scene with ctxs := alSet scene.ctxs 0 { scene.ctx 0 with st := .draining } } : State).softStopping hero = true := by decide

/-! Tasks, futures and jobs. -/

/-- A closure line of one task: 32 lanes, 4 registers. -/
def soloLine : Line := [0x08000000, 0, 0, 0, 0x10, 0, 0, 0, 0, 0, 0, 0, 0, 0, 0, 0]

def g16 (base : Nat) (l : Line) : Sparse 32 := (l.mapIdx fun i w => (base + i, w)).filter (·.2 != 0)

def lineTask (t : Task) : Task := { t with warp := { t.warp with g := g16 112 soloLine } }

/-- The line read, its checks passed, room for it. -/
def spawnable (s : State) (t : Task) (l : Line) (how : Entering) : Bool :=
  match s.job? t.job with
  | none => false
  | some j => decide (j.rec_.mode = 0) && (match s.checkLine t j l how with | .ok _ => true | .error _ => false) &&
      s.released t && decide (s.sramLines t.core < 512) && t.killedBy.isNone

theorem meets_spawns :
    (let s := sceneWith lineTask
     let t := lineTask hero
     s.curTask = some t ∧ (List.range 16).map (fun i => s.readKey t (kg (112 + i))) = soloLine ∧
     spawnable s t soloLine .member = true ∧ spawnable s t soloLine .single = true ∧ t.warp.active = t.warp.live) ∧
    (match scene.job? 1 with
     | none => false
     | some j => match scene.checkLine hero j (List.replicate 16 0) .member with
       | .error (.raise r) => decide (r = raise0 .spawnBadClosure)
       | .error _ | .ok _ => false) = true ∧
    (let f : Task → Task := fun t => { t with warp := { t.warp with active := 1 } }
     (f hero).warp.active ≠ (f hero).warp.live) := by decide

/-- Entries of 256 lines: two fill the SRAM, 64 an overflow area. -/
def crowd (n : Nat) : List Entry := List.replicate n (.group 1 (List.replicate 256 7))

/-- A full overflow area refuses; one that is not mapped ends the job. -/
theorem meets_full_areas :
    (let s := sceneWith id id fun c => { c with deque := crowd 2, spilled := crowd 64 }
     (s.roomFor 0).2 = false ∧ (s.roomFor 0).1.gone 1 = false ∧ 16384 ≤ s.areaLines 0 1 ∧ s.areaLines 0 1 ≤ 16384) := by decide +kernel

theorem meets_area_faults :
    (let s := sceneWith id id fun c => { c with deque := crowd 2 }
     (s.areaFault 0 1).isSome = true ∧ (s.roomFor 0).1.gone 1 = true) ∧
    (scene.sramLines 0 < 512 ∧ scene.gone 1 = false ∧ (withLit 0).src hero .lit0 .n32 0 = 0) := by decide +kernel

/-- SPAWN.T: the last template of a job's closure segment. -/
theorem meets_spawn_template :
    (let s := withLit 1 (sceneWith id fun j => { j with rec_ := { j.rec_ with closureBase := placeBase, closureSize := 128 } })
     match s.job? 1 with
     | none => false
     | some j => match s.template hero j (s.src hero .lit0 .n32 0) with | .ok _ => true | .error _ => false) = true := by decide

/-- Each check of a closure line decides for some line, the others having passed. -/
theorem meets_closure_checks :
    clShapeBad (List.replicate 16 0) = true ∧ clShapeBad soloLine = false ∧
    (let l := soloLine.set 3 1 |>.set 4 0x11
     clShapeBad l = false ∧ clRegions l = 17) ∧
    (let l := soloLine.set 3 1
     clShapeBad l = false ∧ clRegions l = 16 ∧ (placeRec 0).regionSize < 16 * (clRlist l + clRegions l)) ∧
    (let l := soloLine.set 1 1
     clRegions l = 0 ∧ 16 * (clRlist l + clRegions l) ≤ (placeRec 0).regionSize ∧ scene.cohortBad hero l .member = false ∧
     scene.mayBind hero (clFuture l) = false) := by decide

/-- A cell of die 0, and its handle. -/
def aCell (st : CellSt) (b : Bound) : Cell := ⟨5, st, 3, 1, b, none, 42, 0xA0, false, [], 0⟩

def withCell (c : Cell) (n : BitVec 48 := 0) (s : State := scene) : State := withLit n { s with cells := [c] }

/-- READY, PENDING and BROKEN cells, bound and unbound, that a handle of the task names; handles that name none. -/
theorem meets_futures :
    ([.ready, .pending, .broken] : List CellSt).all (fun st =>
      let c := aCell st (.task 9)
      let s := withCell c ((handleOf c).setWidth 48)
      decide (s.validCell hero.job (BitVec.ofNat 32 (s.src hero .lit0 .n32 0)) = some c) &&
        !ownFuture hero (BitVec.ofNat 32 (s.src hero .lit0 .n32 0))) = true ∧
    (let c := aCell .pending .none
     (withCell c).validCell hero.job (handleOf c) = some c ∧ handleOf c ≠ 0) ∧
    (let c := aCell .pending (.task 1)
     c.bound = .task hero.uid ∧ c.latched = none) ∧
    scene.validCell hero.job 0 = none ∧ (scene.freeCell (dieOf hero.core)).1.isSome = true ∧
    (let s : State := { scene with cells := [aCell .pending (.task 1)] }
     let f : Task → Task := fun t => { t with fut := handleOf (aCell .pending (.task 1)) }
     s.validCell hero.job (f hero).fut = some (aCell .pending (.task 1)) ∧ (f hero).fut ≠ 0 ∧ (f hero).range = none) := by
  decide

/-- A gate on a cell, with the overflow area mapped; and unfinished stores, for what waits for a release. -/
theorem meets_gates :
    (let c := aCell .pending .none
     let s := withCell c 0 (sceneWith (fun t => { lineTask t with warp := { (lineTask t).warp with g := (2, handleOf c) :: g16 112 soloLine } })
       (fun j => { j with rec_ := { j.rec_ with overflowBase := 2 ^ 30 } })
       (fun c => { c with tlb := ⟨0, 2 ^ 30, 2 ^ 30, 2 ^ 30, 8, true, true, true, 1⟩ :: c.tlb }))
     match s.task? 1 with
     | none => false
     | some t => decide (s.validCell t.job (s.readKey t (kg 2)) = some c) && (s.areaFault 0 1).isNone &&
         decide (s.areaLines 0 1 < 16384) && spawnable s t soloLine .single) = true ∧
    (let f : Task → Task := fun t => { t with unacked := 1 }
     (sceneWith f).released (f hero) = false) := by decide +kernel

/-- A task that has handed its result future over, and a child of a range that has one. -/
theorem meets_refused_values :
    (let f : Task → Task := fun t => { t with handed := true }
     (f hero).fut = 0 ∧ (f hero).handed = true) ∧
    (let f : Task → Task := fun t => { t with range := some (2, 0), line := soloLine.set 1 1 }
     (f hero).range.isSome = true ∧ clFuture (f hero).line ≠ 0) ∧ hero.handed = false ∧
    (let s : State := { scene with picks := [3], cells := [aCell .pending .none] }
     (s.freeCell 0).1 = some 4 ∧ hero.opened = none) := by decide

theorem meets_task_ends :
    (let f : Task → Task := fun t => { t with opened := some (2, 2, [1]) }
     (f hero).opened = some (2, 2, [1])) ∧ hero.fut = 0 ∧ hero.range = none ∧
    (let f : Task → Task := fun t => { t with trapOf := some 7 }
     (f hero).trapOf = some 7) ∧
    (scene.core 0).cvs.find? (·.idx == 3) = none ∧ (0#3).toNat + 1 ≤ (scene.liveMembers hero.cohort).length ∧
    (scene.liveMembers hero.cohort).length < (1#3).toNat + 1 := by decide

/-- A job record at the scene's page, well formed; a parent at depth 16; children that have retired, run, and are none. -/
theorem meets_jobs :
    (let s := sceneWith fun t =>
       { t with warp := { t.warp with g := [(2, 0x10100)] }, regions := [⟨0x10000, 0x10000, .read, 0, 0⟩] }
     match s.task? 1 with
     | none => false
     | some t => decide (s.src t (.g 2) .n64 0 = 0x10100) && decide (s.recordBads t 0x10100 = [])) = true ∧
    (placeJob 0 1).depth ≠ 16 ∧
    (let s : State := { withLit 2 with jobs := [placeJob 0 1, { placeJob 0 2 with parent := some 1, depth := 1, st := .retired }] }
     (s.childOf hero 2).map (·.st) = some .retired) ∧
    scene.childOf hero 2 = none ∧
    (let j' := (placeJob 0 1).yielded
     (scene.modJob 1 fun _ => j').pressed j' = false) ∧
    (let p : Job := { placeJob 0 9 with st := .pending, rec_ := { placeRec 0 with deadline := 0 } }
     let s : State := { scene with jobs := [{ placeJob 0 1 with rec_ := { placeRec 0 with deadline := 1 } }, p] }
     (match s.job? 1 with
      | some j => s.pressed j
      | none => false) = true) ∧
    (let j := { placeJob 0 1 with depth := 16 }
     j.depth = 16) := by decide

end Sys2Proof.Machine

namespace Sys2Proof.Machine

/-! Memory, atomics and tiles. -/

/-- A region of the scene's page in a mode, and its address in g2:g3. -/
def inRegion (m : Mode) (t : Task) : Task :=
  { t with warp := { t.warp with g := [(2, 0x10100)] }, regions := [⟨0x10000, 0x10000, m, 0, 0⟩] }

def memScene (m : Mode) (n : BitVec 48 := 0) : State := withLit n (sceneWith (inRegion m))

theorem acts_mem (m : Mode) (n : BitVec 48) (keys : List RKey) : Acts (memScene m n) hG (inRegion m hero) keys :=
  acts_of true 1 keys (show (sceneWith (inRegion m)).curTask = _ by cases m <;> decide) rfl
    (show lanesOf hero.warp.active ≠ [] by decide)

theorem meets_global_accesses :
    (memScene .read).clean hG (inRegion .read hero) .load true 16 [(.g 2, 2), (.zero, 1), (.g 124, 4)]
      ((memScene .read).ea (inRegion .read hero) (.g 2) .zero 0xFEF0) ∧
    (memScene .sync).clean hG (inRegion .sync hero) .store true 8 [(.g 2, 2), (.zero, 1), (.g 126, 2)]
      ((memScene .sync).ea (inRegion .sync hero) (.g 2) .zero 0xFFFFFF00) ∧
    (memScene .sync).claimed (inRegion .sync hero) [0x10100] ∧
    (memScene .sync).released (inRegion .sync hero) = true ∧ (memScene .sync).storeRoom (inRegion .sync hero) 32 = true ∧
    (inRegion .sync hero).warp.canon := by
  refine ⟨by unfold State.clean; decide +kernel, by unfold State.clean; decide +kernel, ?_, by decide, by decide, ?_⟩
  · intro a ha
    simp only [List.mem_singleton] at ha
    subst ha
    exact ⟨_, rfl, rfl⟩
  · exact ⟨by decide, by decide, by decide, by decide, by decide⟩

/-- A load that returns its value, and one that meets a poisoned line. -/
theorem meets_loads :
    (let s := memScene .read
     let ps := (s.placeAll (inRegion .read hero) [0] fun _ => 0x10100).2
     (match (s.readAll (inRegion .read hero) false 8 ps).2 with
      | .ok vs => vs == [(0, 0)]
      | .error _ => false) &&
     (match (({ s with poison := [0x10100 / 64] } : State).readAll (inRegion .read hero) false 8 ps).2 with
      | .ok _ => false
      | .error _ => true)) = true := by decide +kernel

/-- Bytes of a WRITE region that the task has not stored, and one that it has. -/
theorem meets_unstored :
    (∀ i < 16, (inRegion .write hero).unstored (0x10100 + i) (0x10100 + i) = true) ∧
    (let t := { inRegion .write hero with wrote := [(0x10100, 0x10101)] }
     t.unstored 0x10100 0x10100 = false) ∧ (inRegion .read hero).unstored 0x10100 0x10100 = false ∧
    0x10100 + 16 ≤ (memScene .write).memTop := by decide +kernel

/-- The store buffer: an entry of the task, none, and one that is full. -/
theorem meets_buffered_stores :
    (let e : StoreEnt := ⟨1, 0x202, 1, 0x55, []⟩
     let s := sceneWith id id fun c => { c with storeBuf := [e] }
     (s.core hero.core).drained ++ (s.core hero.core).storeBuf = [] ++ [e] ∧ e.owner = hero.uid ∧ e.byte 0x10100 = some 0x55 ∧
     s.released hero = false) ∧
    (let e : StoreEnt := ⟨1, 0x202, 1, 0x55, []⟩
     let s := sceneWith id id fun c => { c with storeBuf := [e, ⟨1, 0x202, 2, 0x5500, []⟩, ⟨2, 0x202, 1, 0x66, []⟩] }
     (s.core hero.core).drained ++ (s.core hero.core).storeBuf = [] ++ e :: [⟨1, 0x202, 2, 0x5500, []⟩, ⟨2, 0x202, 1, 0x66, []⟩] ∧
     ∀ x ∈ [(⟨1, 0x202, 2, 0x5500, []⟩ : StoreEnt), ⟨2, 0x202, 1, 0x66, []⟩], x.owner = hero.uid → x.byte 0x10100 = none) ∧
    ((scene.core hero.core).drained ++ (scene.core hero.core).storeBuf = [] ∧ (scene.core 0).l1 = [] ∧
      scene.memTop - 8 + 8 ≤ scene.memTop) ∧
    (let e : StoreEnt := ⟨2, 0x202, 1, 0x55, []⟩
     let s := sceneWith id id fun c => { c with storeBuf := List.replicate 128 e }
     s.storeRoom hero 1 = false) ∧
    (0x10170 / 128 = 0x202 ∧ 0x10170 % 128 + 16 ≤ 128) := by decide +kernel

/-- The last line of the scratchpad, present; a record of bank A under name 63. -/
def aTile : HRec := ⟨0, ⟨1, 0, 4, 4, 64, false, 0, 0, 1⟩, .valid, 0, 0, none, none⟩

def named (t : Task) : Task := { t with names := [(63, .mapped 0)] }

def local_ : State := sceneWith named id fun c => { c with lines := [(4095, .present)], recs := [aTile] }

theorem meets_local_accesses :
    local_.cleanScratch hG (named hero) .load 16 [(.zero, 1), (.zero, 1), (.g 0, 4)]
      (local_.scratchEa (named hero) .zero .zero 524272) ∧
    local_.cleanScratch hG (named hero) .store 16 [(.zero, 1), (.zero, 1), (.g 0, 4)]
      (local_.scratchEa (named hero) .zero .zero 524272) ∧
    local_.cleanScratch hG (named hero) .both 8 [(.zero, 1), (.g 0, 2), (.g 2, 2)] (fun _ => 524280) ∧
    spWf (local_.core 0).scratch = true ∧
    (local_.handle (named hero) 63 [1, 2] = .ok aTile ∧ ∀ l < 32,
      local_.tileBads (named hero) 63 true 16 (local_.tileEa (named hero) .zero 1008 l) = []) := by
  refine ⟨by unfold State.cleanScratch; decide +kernel, by unfold State.cleanScratch; decide +kernel,
    by unfold State.cleanScratch; decide +kernel, by decide, rfl, by decide +kernel⟩

theorem meets_fences : scene.loadsBack hero = true ∧ scene.released hero = true ∧
    (sceneWith id id fun c => { c with returns := [⟨5, 1, 0, 0, true, none, none⟩] }).loadsBack hero = false := by
  decide

theorem meets_waits_and_presence :
    (memScene .read).inJob (inRegion .read hero) (placeJob 0 1) ∧
    (memScene .read).clean hG (inRegion .read hero) .load false 4 [(.zero, 1), (.g 0, 1)] (fun _ => 0x10100) ∧
    cmpNat .eq 0 0 = true ∧ cmpNat .ne 0 0 = false ∧
    (let off := 524288 - 128 * 32
     off % 128 = 0 ∧ off + 128 * ((31#5).toNat + 1) ≤ 524288) ∧
    ((local_.core 0).lineSt 4095 = .present ∧ (local_.core 0).lineSt 4094 = .absent) ∧
    ((sceneWith id id fun c => { c with lines := [(4095, .pending)] }).core 0).lineSt 4095 = .pending := by
  refine ⟨⟨by decide, rfl⟩, by unfold State.clean; decide +kernel, by decide, by decide, by decide, by decide, by decide⟩

theorem meets_atomics :
    (memScene .sync).cleanAtom hG (inRegion .sync hero) .atomic 8 [(.g 2, 2), (.g 4, 2), (.g 6, 2), (.g 8, 2)]
      ((memScene .sync).atomEa (inRegion .sync hero) (.g 2) 0xFF00) true ∧
    (memScene .reduce).cleanAtom hG (inRegion .reduce hero) .red 8 [(.g 2, 2), (.g 4, 2)]
      ((memScene .reduce).atomEa (inRegion .reduce hero) (.g 2) 0) false ∧
    (memScene .reduce).cleanAtom hG (inRegion .reduce hero) .fold 4 [(.g 2, 2), (.g 4, 1)]
      ((memScene .reduce).atomEa (inRegion .reduce hero) (.g 2) 0) false ∧
    ((memScene .reduce 64).regBads (inRegion .reduce hero) [(.g 2, 2), (.lit0, 1)] 0 = [] ∧
      (memScene .reduce 64).rangeBads (inRegion .reduce hero) .fold 0x10100 64 = []) ∧
    (memScene .sync).unlogged (inRegion .sync hero) ∧
    (memScene .sync).badWord (inRegion .sync hero) 8 [] = none := by
  refine ⟨⟨by unfold State.clean; decide +kernel, fun _ => by decide, by decide +kernel⟩,
    ⟨by unfold State.clean; decide +kernel, fun h => absurd h (by decide), by decide +kernel⟩,
    ⟨by unfold State.clean; decide +kernel, fun h => absurd h (by decide), by decide +kernel⟩, by decide +kernel,
    (rfl : (placeRec 0).mode = 0), by decide⟩

/-- Two contributions in two orders of arrival. -/
theorem meets_fold_order :
    (let c (k : BitVec 32) : Contrib := ⟨0x10100, 0, k, 0, 0, 1, 1, 0x3F800000, none, 0⟩
     let s : State := { scene with contribs := [c 1, c 2] }
     let s' : State := { scene with contribs := [c 2, c 1] }
     { s with contribs := [] } = { s' with contribs := [] } ∧
     (s.contribs.filter (·.addr == 0x10100)).Perm (s'.contribs.filter (·.addr == 0x10100)) ∧
     ((s.contribs.filter (·.addr == 0x10100)).map fun c => (c.key, c.lane, c.idx, c.task, c.elem)).Nodup) := by
  refine ⟨rfl, List.Perm.swap _ _ _, by decide⟩

end Sys2Proof.Machine

namespace Sys2Proof.Machine

/-! Tiles, engines and the matrix engine. -/

/-- A layout of two key pages with summaries: 16 channels of FP16, 64 tokens. -/
def pages : List Byte :=
  bytesOf 2 16 ++ bytesOf 2 64 ++ bytesOf 2 2 ++ bytesOf 2 1 ++ bytesOf 4 64 ++ bytesOf 4 4608 ++ bytesOf 4 0 ++ bytesOf 4 0 ++
    bytesOf 2 16 ++ bytesOf 2 64 ++ bytesOf 4 64

def lay : Layout := layoutOf pages

/-- A task with registers, a region over the scene's page and records 0 to 3 under names 60 to 63. -/
def engTask (g : Sparse 32) (t : Task) : Task :=
  { t with warp := { t.warp with g := g }, regions := [⟨0x10000, 0x10000, .readWrite, 0, 0⟩],
           names := [(60, .mapped 3), (61, .mapped 2), (62, .mapped 1), (63, .mapped 0)] }

/-- A tile of bank A for gathered pages, one of bank C, one of bank W, one of bank A for products. -/
def tileA : HRec := ⟨0, ⟨1, 0, 0, 128, 16, false, 0, 0, 4⟩, .valid, 0, 0, none, none⟩
def tileC : HRec := ⟨1, ⟨2, 0, 0, 128, 128, false, 0, 0, 64⟩, .valid, 0, 0, none, none⟩
def tileW : HRec := ⟨2, ⟨0, 0, 5, 128, 128, false, 0, 0, 16⟩, .valid, 0, 0, none, none⟩

def tileX : HRec := ⟨3, ⟨1, 0, 4, 128, 128, false, 0, 0, 16⟩, .valid, 0, 16, none, none⟩

/-- The scene with those tiles, the layout in memory, present scratchpad lines and the two literals. -/
def engScene (g : Sparse 32) (n m : BitVec 48) (c : Core → Core := id) : State :=
  let s := sceneWith (engTask g) (fun j => { j with rec_ := { j.rec_ with layoutBase := 0x10400, layoutSize := 32 } }) fun x =>
    c { x with recs := [tileA, tileC, tileW, tileX], lines := (List.range 64).map fun i => (i, .present) }
  { s with hbm := spPutBlock s.hbm 0x10400 pages, cur := { s.cur with lit0 := n, lit1 := m } }

def handleIs (s : State) (t : Task) (h : Nat) (banks : List Nat) (r : HRec) : Bool :=
  match s.handle t h banks with | .ok x => decide (x = r) | .error _ => false

def hasLayout (s : State) : Bool :=
  match s.job? 1 with
  | none => false
  | some j => match s.layoutAt 0 j 0 with | .ok l => decide (l = lay) | .error _ => false

/-- TALLOC: a mapped name; a sound descriptor with room; a full bank. THAND to the task itself. Names of every state. -/
theorem meets_tiles :
    (let g : Sparse 32 := [(124, 66061121), (127, 1)]
     let s := engScene g 0 0
     let t := engTask g hero
     let w := s.descWords t 124
     t.recOf 63 = some 0 ∧ t.recOf 5 = none ∧ s.descBads t w = [] ∧ ((s.core 0).allocTile (descOf w) none none).isSome = true ∧
     (let c := { s.core 0 with recs := [{ tileA with desc := { tileA.desc with size := 1024 } }] }
      c.freeRun 1 1 = none) ∧
     (scene.cohort? hero.cohort).map (·.members) = some [1] ∧ hero.isLive = true) ∧
    (hero.name 0 = .unmapped ∧ (engTask [] hero).name 63 = .mapped 0 ∧
     ({ hero with names := [(0, .released)] } : Task).name 0 = .released ∧ ((engScene [] 0 0).core 0).rec? 0 = some tileA) := by
  decide +kernel

/-- Rings: undefined, bad, and with slots in each state; the last consumer's signal and one before it. -/
theorem meets_rings :
    (scene.core 0).ringBusy 15 = false ∧ ringOf 15 [0, 0, 0, 0] = none ∧ (ringOf 15 [0, 0, 128, 0]).isSome = true ∧
    (let r : Ring := ⟨15, 5, false, 2, 0, 128, [], [(.full, 1), (.empty, 0), (.failed, 0), (.filling, 0), (.full, 0)]⟩
     let c := (sceneWith id id fun c => { c with rings := [r] }).core 0
     c.ringBusy 15 = true ∧ c.slotSt 15 0 = .full ∧ c.slotSt 15 1 = .empty ∧ c.slotSt 15 2 = .failed ∧ c.slotSt 15 3 = .filling ∧
     c.ring? 15 = some r ∧ r.states[0]? = some (.full, 1) ∧ r.consumers ≤ 1 + 1 ∧ r.states[4]? = some (.full, 0) ∧
     0 + 1 < r.consumers) := by decide

theorem meets_counters : (withLit 0).src hero .lit0 .n32 0 ≤ (spGet (scene.core 0).acnt 31).toNat ∧
    (spGet (scene.core 0).acnt 31).toNat < (withLit 1).src hero .lit0 .n32 0 := by decide

/-- What the range-lock table takes at once. -/
def takes (s : State) (t : Task) (n : NewOp) : Bool :=
  decide (t.warp.active = t.warp.live) && s.drainedOut t && !(s.core t.core).slotSpent s.clk n.ringSlot && !n.selfLocked &&
  !(s.core t.core).opHeld n

/-- TSTAGE and TDRAIN between memory and the scratchpad; TCOPY within memory. -/
theorem meets_copies :
    (let g : Sparse 32 := [(2, 0x11000)]
     let s := engScene g 0 0
     let t := engTask g hero
     let x := s.tileSide t (.scratch .lit0) [0, 1]
     let y := s.tileSide t (.scratch .lit0) [2]
     hasLayout s = true ∧ s.src t (.g 2) .n64 0 = 0x11000 ∧ x.bads = [] ∧ y.bads = [] ∧
     x.fits lay (fun d => d.format == lay.format && d.block == lay.block && !lay.w32) = [] ∧
     y.fits lay (fun d => drainPair d.format lay) = [] ∧
     State.layoutBads t lay .load 0x11000 (lay.bounds 0x11000) = [] ∧
     State.layoutBads t lay .store 0x11000 (lay.drainBounds 0x11000) = [] ∧
     (match s.sideReady t x .empty, s.sideReady t y .full with | .ok (), .ok () => true | _, _ => false) = true ∧
     takes s t ⟨.stage (x.side.getD (.scratch 0)) lay 0x11000, rangeSpan 0 (lay.bounds 0x11000), x.span lay, none, none, x.slot,
       false⟩ = true ∧
     takes s t ⟨.drain (y.side.getD (.scratch 0)) lay 0x11000 .rn true, y.span lay, rangeSpan 0 (lay.drainBounds 0x11000), none,
       none, y.slot, false⟩ = true) ∧
    (let g : Sparse 32 := [(2, 0x11000), (4, 0x12000)]
     let s := engScene g 512 0
     let t := engTask g hero
     s.src t .lit0 .n32 0 = 512 ∧ t.declaresRange .load (byteRange 0x12000 512) = true ∧
     t.declaresRange .store (byteRange 0x11000 512) = true ∧
     takes s t ⟨.copy 0x11000 0x12000 512 none, rangeSpan 0 (byteRange 0x12000 512), rangeSpan 0 (byteRange 0x11000 512), none,
       none, none, false⟩ = true ∧ (OpKind.copy 0x11000 0x12000 512 none).total ≠ 0) := by decide +kernel

/-- An operation that a lock holds, and one that finds the table full: TCOPY and PSUM. -/
theorem meets_held_copies :
    (let g : Sparse 32 := [(2, 0x11000), (4, 0x12000)]
     let n : NewOp := ⟨.copy 0x11000 0x12000 512 none, rangeSpan 0 (byteRange 0x12000 512), rangeSpan 0 (byteRange 0x11000 512),
       none, none, none, false⟩
     let c (k : Nat) : Core := (engScene g 512 0 fun c => { c with locks := List.replicate k ⟨9, .global 0 0x11000 0x11200, true⟩ }).core 0
     n.selfLocked = false ∧ (c 1).opHeld n = true ∧ (c 1).opFull n = false ∧ (c 255).opFull n = true ∧
     (c 1).slotSpent 0 n.ringSlot = false ∧
     (c 1).psumHeld (psumSpans 0 lay 0x11000 0 2 true).1 (psumSpans 0 lay 0x11000 0 2 true).2 = true ∧
     (c 255).psumFull (psumSpans 0 lay 0x11000 0 2 true).1 (psumSpans 0 lay 0x11000 0 2 true).2 = true) := by decide +kernel

/-- PSUM of both pages; PSEL of both, best first; PGATH through an empty list; GATHL and SCATL of 16 elements. -/
theorem meets_selection :
    (let g : Sparse 32 := [(4, 0x11000), (7, 2)]
     let s := engScene g 0 0
     let t := engTask g hero
     psumBads t lay 0x11000 0 2 true = [] ∧ lay.summary = true ∧ 0 + 2 ≤ lay.size2 ∧
     (s.core 0).conflicts (psumSpans 0 lay 0x11000 0 2 true).1 (psumSpans 0 lay 0x11000 0 2 true).2 (fun _ => false) = false ∧
     (s.sumPages 0 0 1 lay 0x11000 false [0, 1]).2.isNone = true) ∧
    (let g : Sparse 32 := [(8, 0x11000), (11, 2), (14, 1)]
     let s := engScene g 4096 0
     let t := engTask g hero
     let w := s.blockWords t 8 8
     let range := boundsOf 512 (lay.sumAddrs 0x11000 0 2)
     blockAddr w = 0x11000 ∧ pselFits lay w = true ∧ State.layoutBads t lay .load 0x11000 range = [] ∧
     s.sourceBads t 0 (2 * lay.size0) = [] ∧ destBads 4096 (16 + 4 * 2) = [] ∧ s.sourcePending t 0 32 = false ∧
     takes s t ⟨.psel 4096 lay 0x11000 0 2 0 0 1, rangeSpan 0 range ++ scratchSpan 0 32, scratchSpan 4096 24, none, none, none,
       false⟩ = true) ∧
    (let g : Sparse 32 := [(8, 0x11000), (10, 4096), (11, 0)]
     let s := engScene g 0 0
     let t := engTask g hero
     handleIs s t 63 [1] tileA = true ∧ tileA.desc.cols = lay.size0 ∧ tileA.desc.rows % 64 = 0 ∧ s.sourceBads t 4096 16 = [] ∧
     s.sourceBads t 4112 8 = [] ∧ s.listPages 0 4096 0 2 = [] ∧ t.declaresRange .load (lay.pagesBounds 0x11000 []) = true ∧
     takes s t ⟨.pgath 0 lay 0x11000 [] 128, rangeSpan 0 (lay.pagesBounds 0x11000 []) ++ scratchSpan 4096 16 ++ scratchSpan 4112 8,
       [], none, none, none, false⟩ = true) ∧
    (let g : Sparse 32 := [(8, 0x11000), (10, 1024), (11, 16 + 2 ^ 14)]
     let s := engScene g 0 4
     let t := engTask g hero
     listArgs (s.blockWords t 8 4) (s.src t .lit1 .n32 0) = some ⟨0x11000, 1024, 16, 4, 4⟩ ∧ s.sourcePending t 1024 64 = false ∧
     s.listBads t ⟨0x11000, 1024, 16, 4, 4⟩ .load = [] ∧ s.listBads t ⟨0x11000, 1024, 16, 4, 4⟩ .store = [] ∧
     SMode.plain.sizeOk 4 = true ∧ s.sourceBads t 0 64 = [] ∧ destBads 0 64 = [] ∧
     takes s t ⟨.gathl (.scratch 0) 4 (s.listAddrs 0 ⟨0x11000, 1024, 16, 4, 4⟩),
       rangeSpan 0 (s.listRange 0 ⟨0x11000, 1024, 16, 4, 4⟩) ++ scratchSpan 1024 64, scratchSpan 0 128, none, none, none,
       false⟩ = true ∧
     takes s t ⟨.scatl 0 .plain 4 0 (s.listAddrs 0 ⟨0x11000, 1024, 16, 4, 4⟩), scratchSpan 0 64 ++ scratchSpan 1024 64,
       rangeSpan 0 (s.listRange 0 ⟨0x11000, 1024, 16, 4, 4⟩), none, none, none, false⟩ = true) := by decide +kernel

/-- The lease: free; held by another cohort; the last holder's. -/
theorem meets_leases :
    (scene.core 0).mx.lease.holder = none ∧ (scene.core 0).mx.requests = [] ∧ (scene.core 0).leaseOpen hero.cohort = true ∧
    ((sceneWith id id fun c => { c with mx := { c.mx with lease := ⟨some 9, some 9, 4⟩ } }).core 0).mx.lease.holder = some 9 ∧
    (9 : Nat) ≠ hero.cohort ∧ ((scene.core 0).mx.ops.filter (·.owner == hero.uid)).length ≤ 0 ∧
    (let o : MatOp := ⟨5, 1, 1, .mflip, false, none, false, 0, false, [], 0, 0, none⟩
     0 < (((sceneWith id id fun c => { c with mx := { c.mx with ops := [o] } }).core 0).mx.ops.filter (·.owner == hero.uid)).length) := by
  decide

/-- The lease held by the task's own cohort, with and without a request before it; free with a request before it; and
free while the last holder's operations are not complete. -/
theorem meets_lease_waits :
    (let c (l : Lease) (r : List (Nat × Nat)) (os : List MatOp) : Core :=
       (sceneWith id id fun c => { c with mx := { c.mx with lease := l, requests := r, ops := os } }).core 0
     (c ⟨some 1, some 1, 4⟩ [] []).mx.lease.holder = some hero.cohort ∧ (c ⟨some 1, some 1, 4⟩ [] []).mx.requests = [] ∧
     (c ⟨some 1, some 1, 4⟩ [(9, 4)] []).mx.requests ≠ [] ∧ (c ⟨none, none, 0⟩ [(9, 4)] []).mx.lease.holder = none ∧
     (let o : MatOp := ⟨5, 9, 9, .mflip, false, none, false, 0, false, [], 0, 0, none⟩
      (c ⟨none, some 9, 0⟩ [] [o]).leaseOpen hero.cohort = false)) := by decide

/-- A cohort that holds the lease. -/
def leasedScene (g : Sparse 32) (n : BitVec 48) (c : Core → Core := id) : State :=
  engScene g n 0 fun x => c { x with mx := { x.mx with lease := ⟨some 1, some 1, 16⟩ } }

/-- Geometries that serve: MLDW, MMA, MACZ and MACR of the tiles; one that does not; a full queue. -/
theorem meets_matrix :
    (let s := leasedScene [] 0
     let t := engTask [] hero
     s.leased t = true ∧ (engScene [] 0 0).leased t = false ∧
     handleIs s t 61 [0] tileW = true ∧ handleIs s t 62 [2] tileC = true ∧ handleIs s t 63 [1] tileA = true ∧
     ((matForm s t (.mldw hG ⟨61, .lit0, ⟨false, 0⟩⟩)).bind fun f => f.2.build [tileW]) = some (.mldw 2 0 0) ∧
     ((matForm s t (.macz hG ⟨62, .lit0, .lit0, ⟨false, 0⟩⟩)).bind fun f => f.2.build [tileC]) = some (.macz 1 0 0) ∧
     ((matForm s t (.mma hG ⟨62, 60, .lit0, 0, 0, false, ⟨false, 0⟩⟩)).bind fun f => f.2.build [tileC, tileX]).isSome = true ∧
     ((matForm s t (.macr hG ⟨63, 62, 0, .rn, false, ⟨false, 0⟩⟩)).bind fun f => f.2.build [tileC, tileA]) =
       some (.macr 0 1 [0, 0, 0, 0] .rn false) ∧
     ((matForm (leasedScene [] 4096) t (.mldw hG ⟨61, .lit0, ⟨false, 0⟩⟩)).bind fun f => f.2.build [tileW]) = none ∧
     ((matForm s t (.mflip hG ⟨⟨false, 0⟩⟩)).bind fun f => f.2.build []) = some .mflip ∧ s.matHeld t .mflip = false) ∧
    (let o : MatOp := ⟨5, 1, 1, .mflip, false, none, false, 0, false, [], 0, 0, none⟩
     (leasedScene [] 0 fun c => { c with mx := { c.mx with ops := List.replicate 16 o } }).matHeld (engTask [] hero) .mflip = true) := by
  decide +kernel

/-- MQ with a follower: an MFLIP in the next slot of the bundle. -/
theorem meets_prefix :
    (match (encode (.mq ⟨true, false, 7, Hint.plain⟩ ⟨true, none⟩)), encode (.mflip hG ⟨⟨false, 0⟩⟩) with
     | some a, some b =>
       let s := leasedScene [] 0
       let bytes := bytesOf 12 a.toNat ++ bytesOf 12 b.toNat ++ bytesOf 24 0 ++ bytesOf 16 (2 ^ 124 + 2 ^ 123 + 3 * 2 ^ 118)
       let s := { s with hbm := spPutBlock s.hbm placeBase bytes, cur := { s.cur with valid := 3 } }
       (match s.follower (engTask [] hero) with
        | .found i => decide (i = .mflip hG ⟨⟨false, 0⟩⟩)
        | _ => false)
     | _, _ => false) = true := by decide +kernel

/-- A convergence register that the cohort owns: nobody has signed; the last one signs the same; and something else. -/
theorem meets_signing :
    (let r : CReg := ⟨3, 2, 1, none, [], [], none⟩
     let c := (leasedScene [] 0 fun c => { c with cvs := [r] }).core 0
     c.cv? 3 = some r ∧ r.count ≠ 0 ∧ r.owner = hero.cohort ∧ r.signers = [] ∧ 1 < r.count) ∧
    (let r : CReg := ⟨3, 2, 1, some (.mflip noHdr ⟨⟨true, 3⟩⟩), [], [(9, none)], none⟩
     (∀ x ∈ r.signers, x.1 ≠ hero.uid) ∧ r.signers ≠ [] ∧ r.instr = some (.mflip noHdr ⟨⟨true, 3⟩⟩) ∧ r.vals = [] ∧
     r.count = r.signers.length + 1 ∧ r.instr ≠ some (.mflip noHdr ⟨⟨true, 4⟩⟩)) := by decide

/-- The record of a signing's name: the signer's own, one that a later signer is to map, an earlier signer's. -/
theorem meets_signed_names :
    (let s := leasedScene [] 0
     let own (x : Except Cause (Option HRec)) (r : Option HRec) : Bool := match x with
       | .ok y => decide (y = r)
       | .error _ => false
     own (s.signedRec (engTask [] hero) [] false 61 [0]) (some tileW) = true ∧
     own (s.signedRec hero [] false 5 [0]) none = true ∧ own (s.signedRec hero [1] true 61 [0]) (some tileW) = true) := by
  decide +kernel

end Sys2Proof.Machine

namespace Sys2Proof.Machine

/-! Traps, system instructions, and what the device does by itself. -/

/-- The task of the scene with 4 registers; its job saves into a mapped area. -/
def small (t : Task) : Task := { t with warp := { t.warp with count := 4 } }

def saving_ (f : Task → Task) (c : Core → Core := id) : State :=
  sceneWith (fun t => f (small t)) (fun j => { j with rec_ := { j.rec_ with saveBase := 2 ^ 30, overflowBase := 2 ^ 30 } })
    fun x => c { x with tlb := ⟨0, 2 ^ 30, 2 ^ 30, 2 ^ 30, 8, true, true, true, 1⟩ :: x.tlb }

/-- A task that takes a trap: what it owes has landed, its save area has room and its frame can be written. -/
theorem meets_traps :
    (let s := saving_ id
     let s0 := s.landAll 1
     let t := small hero
     match s0.task? 1, s0.job? 1 with
     | some x, some j =>
       (match s0.savePlace j t.core (saveBytes t.warp.count) with
        | (some frame, s1) =>
          decide (x = t) && decide (j.rec_.trapEntry < 2 ^ 26) && decide (field s.cregs.dbgCtl 0 32 = 0) && decide (frame = 2 ^ 30) &&
          (match s1.vwrite t.core j.rec_.ctx frame (frameBytes s1 { t with sLanes := 1 }
             (stopFrame ⟨.trapInstr, 0, 1, 0, none⟩ .precise t.warp.pc false false 0)) needRW with
           | .ok _ => true
           | .error _ => false)
        | (none, _) => false)
     | _, _ => false) = true := by decide +kernel

theorem meets_frames : hero.warp.fits := by
  have h : ∀ {n : Nat} (k : Nat), spGet ([] : Sparse n) k = 0 := fun _ => rfl
  refine ⟨fun k => ?_, fun k => Or.inl ?_, fun k => Or.inl ?_, by decide, by decide⟩ <;>
    simp [hero, placeTask, placeWarp, Warp.empty, h]

/-- A stopped task with its frame in memory; the trap task that answers it; one that still owes a store. -/
def stopped (kind : Kind) (t : Task) : Task :=
  { t with st := .parked, slot := none, stop := some ⟨.trapInstr, kind, some (2 ^ 30), saveBytes 4, none, false, false, false, false, 0, []⟩,
           saveAt := some (2 ^ 30, saveBytes 4) }

theorem meets_trap_instructions :
    (let t := { hero with trapOf := some 7 }
     hero.opened = none ∧ scene.released t = true ∧ t.trapOf = some 7) ∧
    (let f : Task → Task := fun t => { t with unacked := 1 }
     (sceneWith f).released (f hero) = false) ∧
    (let s := saving_ (stopped .precise)
     match s.task? 1, s.job? 1 with
     | some t, some j => decide (t = stopped .precise (small hero)) && (match t.stop with
         | some x => x.op.isNone && !x.budget && decide (x.frame = some (2 ^ 30))
         | none => false) && t.killedBy.isNone && t.park.isNone &&
         (match s.vread t.core j.rec_.ctx (2 ^ 30) (0x700 + 128 * t.warp.count) needRW with
          | .ok _ => true
          | .error _ => false)
     | _, _ => false) = true := by
  refine ⟨⟨rfl, by decide, rfl⟩, by decide, by decide +kernel⟩

/-- SWR of the last core and of one past it; TIME; a mailbox with room and a full one; contexts in every state. -/
theorem meets_system_instructions :
    (withLit 287).swrBad hero ⟨.g 0, .lit0, 0x060⟩ = false ∧ (withLit 288).swrBad hero ⟨.g 0, .lit0, 0x060⟩ = true ∧ scene.released hero = true ∧
    spWf scene.cregs.imageBase = true ∧ spWf (scene.core 0).regs.bp = true ∧ spWf (scene.core 0).regs.wp = true ∧
    scene.mailboxFull = false ∧
    (let f : Task → Task := fun t => { t with unacked := 1 }
     (sceneWith f).mailboxFull = false ∧ (sceneWith f).released (f hero) = false) ∧
    ({ scene with mailbox := spPutBlock [] 0 (bytesOf 4 47) } : State).mailboxFull = true ∧
    ((withLit 15).src hero .lit0 .n32 0 = 15 ∧ (scene.ctx 15).st ≠ .running ∧ (scene.ctx 15).st ≠ .saved ∧
      (scene.ctx 15).st ≠ .waiting ∧ scene.ctxOf hero ≠ 15) ∧
    (let s : State := { scene with ctxs := alSet scene.ctxs 3 { scene.ctx 3 with st := .running } }
     (s.preempt 3).isSome = true) ∧
    (let s : State := { scene with ctxs := alSet scene.ctxs 3 { scene.ctx 3 with st := .saved } }
     (s.ctx 3).st = .saved ∧ s.occupied = true) ∧
    16 ≤ (withLit 16).src hero .lit0 .n32 0 ∧ (scene.preempt 0).isSome = true ∧ scene.ctxOf hero = 0 := by decide

/-- A result that returns to its own slot, and one whose slot has gone on; a warp that has waited; a posted cause; entries
to drain and to acknowledge; a watched word that was written; a cached line; pages. -/
theorem meets_core_units :
    (let r : Return := ⟨5, 1, 0, 0, true, some 3, none⟩
     let s := sceneWith id id fun c => { c with returns := [r] }
     (s.core 0).returns[0]? = some r ∧ spGet (s.core 0).gens r.slot = r.gen ∧
     spGet ((sceneWith id id fun c => { c with returns := [r], gens := [(0, 4095)] }).core 0).gens r.slot ≠ r.gen) ∧
    (let f : Task → Task := fun t => { t with waitCount := 64 }
     (sceneWith f).inSlot 0 0 = some (f hero) ∧ (f hero).starving = false) ∧
    (let f : Task → Task := fun t => { t with posted := [⟨.memoryUncorrectable, 0, none, false, []⟩] }
     (sceneWith f).takesPosted (f hero) = true) ∧
    (let e : StoreEnt := ⟨1, 0x202, 1, 0x55, []⟩
     (sceneWith id id fun c => { c with storeBuf := [e] }).drainable 0 ≠ [] ∧
     (sceneWith id id fun c => { c with drained := [e] }).ackable 0 ≠ []) ∧
    (let f : Task → Task := fun t => { t with park := some .waitv }
     ({ sceneWith f with watches := [⟨1, 0x10100, 8, true⟩] } : State).wakesNow (f hero) = true) ∧
    ({ scene with msc := [⟨0x202, []⟩] } : State).msc[0]? = some ⟨0x202, []⟩ ∧
    (let e : TlbEnt := ⟨0, 2 ^ 30, 65536, 2 ^ 30, 8, true, true, true, 3⟩
     match (sceneWith id id fun c => { c with tlb := [e] }).foundLeaf 0 0 (2 ^ 30) with
     | .ok _ => true
     | .error _ => false) = true := by decide +kernel

/-- A page that its first access has still to zero (R402): a walk of two levels to a leaf of 1 GiB with ZFU. -/
theorem meets_zero_on_use :
    (let hbm := spPutBlock (spPutBlock scene.hbm 0x4000000 (bytesOf 8 0x4001001)) 0x4001008 (bytesOf 8 (2 ^ 63 + 2 ^ 30 + 15))
     let s := { sceneWith id id fun c => { c with tlb := [] } with hbm := hbm, mregs := { scene.mregs with root := [(0, 0x4000001)] } }
     match s.foundLeaf 0 0 (2 ^ 30) with
     | .ok f => f.zfu
     | .error _ => false) = true := by decide +kernel

/-- A device whose memory is open from 0x20000 on, with a cached line that the write meets. -/
def halfOpen : State :=
  { scene with msc := [⟨0x404, [(0x4040, .bytes 15 5)]⟩], openBytes := [(0x20000, 2 ^ 30, 7)] }

theorem meets_performed_writes : spWf halfOpen.hbm = true ∧ halfOpen.placeOf 0x10100 = .hbm ∧
    halfOpen.msc.length + (linesOf 0x10100 4).length ≤ mscLimit ∧
    (∀ e ∈ halfOpen.msc, 0x10100 / 64 ≤ e.line → 64 * e.line < 0x10100 + 4 →
      (∀ x ∈ e.words, ∃ m d, x.2 = MscWord.bytes m d) ∧ ∀ a, a / 64 = e.line → openByte halfOpen.openBytes a = none) ∧
    (let s : State := { scene with watches := [⟨1, 0x10103, 4, false⟩] }
     ∃ w ∈ s.watches, w.addr < 0x10100 + 4 ∧ 0x10100 < w.addr + w.bytes) := by
  refine ⟨by decide +kernel, by decide, by decide, fun e he _ _ => ?_, ⟨_, List.mem_cons_self, by decide, by decide⟩⟩
  obtain rfl : e = ⟨0x404, [(0x4040, .bytes 15 5)]⟩ := by simpa [halfOpen] using he
  refine ⟨fun x hx => ?_, fun a ha => ?_⟩
  · obtain rfl : x = (0x4040, MscWord.bytes 15 5) := by simpa using hx
    exact ⟨_, _, rfl⟩
  · have : a / 64 = 0x404 := ha
    simp [halfOpen, openByte]
    omega

end Sys2Proof.Machine

namespace Sys2Proof.Machine

/-- A take; a staged task that nothing holds, new and once held; a grant with a slot to give; a warp that spins; edge
actions that are done. -/
theorem meets_cores :
    (let f : Task → Task := fun t => { t with st := .spawned, slot := none, inPool := false, reserved := false, line := soloLine }
     let s := sceneWith f (fun j => { j with rec_ := { j.rec_ with regionShare := 100 } })
       fun c => { c with deque := [.group 1 [1]] }
     s.mayTake 0 = true ∧ (s.takeable 0).isSome = true) ∧
    (let f (h : Bool) : Task → Task := fun t =>
       { t with st := .staging, slot := none, everHeld := h, everRunnable := false }
     (sceneWith (f false)).stagedAll (f false hero) = true ∧ (sceneWith (f false)).heldNow (f false hero) = false ∧
     (sceneWith (f true)).stagedAll (f true hero) = true ∧ (sceneWith (f true)).heldNow (f true hero) = false) ∧
    (let f : Task → Task := fun t => { t with st := .runnable, slot := none }
     let s := sceneWith f
     s.awake 0 = true ∧ (match s.nextGrant 0 with
       | some (_, slots) => !slots.isEmpty
       | none => false) = true) ∧
    (let f : Task → Task := fun t => { t with park := some .waitv, parkedAt := 0 }
     let s : State := { sceneWith f with clk := 3000 }
     s.spins (f hero) = true ∧ (f hero).spinExpired = false) ∧
    (let f : Task → Task := fun t => { t with st := .ending, slot := none }
     (sceneWith f).edgesDone (f hero) = true) ∧
    (let f : Task → Task := fun t => { t with st := .done, slot := none }
     (sceneWith f).quiet 0 = true) := by decide +kernel

/-- A core whose slots are all held, with a spinning warp among them and a task that wants one. -/
theorem meets_spin_move :
    (let spin (k : Nat) (t : Task) : Task := { small t with uid := k + 1, slot := some k, park := some .waitv, spinExpired := true }
     let s := saving_ id
     let s : State := { s with clk := 3000, tasks := (List.range 191).map (fun k => spin k hero) ++
       [{ small hero with uid := 999, st := .runnable, slot := none }] }
     match s.spinVictim 0 with
     | none => false
     | some t => match (s.moveOut t.uid).task? t.uid with
       | none => false
       | some x => x.slot.isNone && x.killedBy.isNone) = true := by decide +kernel

/-- Agents: between rounds, local and across dies; at the end of a back-off; probing a victim that offers nothing and one
that offers a group; with lines arriving. -/
theorem meets_stealing :
    (let s := sceneWith id id fun c => { c with agent := { c.agent with backoff := some 0 } }
     scene.agentFree 1 = true ∧ scene.crossDue 1 = false ∧ (s.core 0).agent.backoff = some 0 ∧ 0 ≤ s.clk) ∧
    (let s := scene.modCore 1 (·.modAgent fun a => { a with failed := 255 })
     s.agentFree 1 = true ∧ s.crossDue 1 = true) ∧
    (let f : Task → Task := fun t => { t with st := .spawned, slot := none, inPool := false, reserved := false, line := soloLine }
     let s := (sceneWith f (fun j => { j with rec_ := { j.rec_ with coreSet := [0, 1] } })
       fun c => { c with deque := [.group 1 [1]] }).modCore 1 (·.modAgent fun a => { a with probing := [0] })
     s.probed 1 = some 0 ∧ s.idle 1 = true ∧ s.offered 0 1 (s.core 1).agent.cross = some (0, .group 1 [1]) ∧
     0 < (s.core 0).deque.length ∧
     s.late 0 (rankSteal 1) = false ∧ (s.areaFault 0 1).isSome = true ∧ ({ s with jobs := [] } : State).areaFault 0 1 = none ∧
     ({ s with jobs := [] } : State).offered 0 1 false = none) ∧
    (let s := sceneWith id id fun c => { c with agent := { c.agent with probing := [1] } }
     (let f : Task → Task := fun t => { t with st := .runnable, slot := none }
      ({ s with tasks := [f hero] } : State).idle 0 = false) ∧ s.probed 0 = some 1 ∧ s.late 1 (rankSteal 0) = false) ∧
    (let s := scene.modCore 1 (·.modAgent fun a => { a with arriving := [.group 1 [1]] })
     (s.core 1).agent.arriving = Entry.group 1 [1] :: []) := by decide +kernel

/-- A launch that starts, one in flight whose record is bad, a retired record, a queued job that fits, with and without an
image; a wait that is over, a budget spent, a job that may retire. -/
theorem meets_job_events :
    ((scene.sysSet 15).pendingAddr = none ∧ (scene.sysSet 15).retired = [] ∧
     (let s : State := scene.setSys 15 { SysSet.reset with pendingAddr := some 64 }
      (s.sysSet 15).pendingAddr = some 64 ∧ ((s.launchRecord 64).bind s.goodRecord).isNone = true) ∧
     (let s : State := scene.setSys 15 { SysSet.reset with retired := [1] }
      (s.sysSet 15).retired = [1])) ∧
    (let f (im : Bool) : Job → Job := fun j => { j with st := .pending, image := im }
     let s (im : Bool) : State := sceneWith id (f im)
     (s false).considered = [f false (placeJob 0 1)] ∧ (s false).admissible (f false (placeJob 0 1)) = true ∧
     ((s false).roomFor 0).2 = true ∧ (((s false).roomFor 0).1.job? 1).isSome = true ∧
     (s false).pushLate (f false (placeJob 0 1)) = false ∧ (s true).pushLate (f true (placeJob 0 1)) = false ∧
     (s true).considered = [f true (placeJob 0 1)] ∧ (s true).admissible (f true (placeJob 0 1)) = true ∧
     ({ s false with firstJob := some (1, 0), timeNs := 1000000 } : State).waitOver = true) ∧
    (let j := { placeJob 0 1 with rec_ := { placeRec 0 with budget := 1 }, remaining := 0 }
     let s := saving_ id
     let s : State := { s with jobs := s.jobs.map fun (x : Job) => { x with rec_ := { x.rec_ with budget := 1 }, remaining := 0 } }
     s.budgetOut { j with rec_ := { j.rec_ with saveBase := 2 ^ 30, overflowBase := 2 ^ 30 } } = true ∧ s.budgetVictim 1 = some (small hero)) ∧
    (let f : Job → Job := fun j => { j with st := .retiring }
     let s := sceneWith (fun t => { t with st := .done }) f
     s.mayRetire (f (placeJob 0 1)) = true) := by decide +kernel

end Sys2Proof.Machine

namespace Sys2Proof.Machine

/-- An engine operation of the task. -/
def anOp (k : OpKind) (sent : Bool) : EngOp :=
  ⟨5, 0, 1, k, false, 512, 0, none, none, none, false, sent, 0, 0, []⟩

def opScene (o : EngOp) : State := sceneWith id id fun c => { c with ops := [o] }

/-- What the next segment of the scene's operation comes to: 0 bytes moved, 1 a fault, 2 no route. -/
def segIs (s : State) (n : Nat) : Bool :=
  match s.opOf 0 5 with
  | none => false
  | some (o, t) => s.opMoves t o && (match s.nextSeg 0 t o with
    | .ok _ => n == 0
    | .error (.fault _ _) => n == 1
    | .error (.unreachable _) => n == 2
    | .error .wait => false)

/-- A copy whose segment goes, at home and to another node; one whose source faults; one without a route; one that is
sent; a record nothing uses; a receive window. -/
theorem meets_engine_events :
    segIs (opScene (anOp (.copy 0x10200 0x10000 512 none) false)) 0 = true ∧
    (let o := anOp (.copy 0x10200 0x10000 512 (some 4095)) false
     let s := { opScene o with pregs := { scene.pregs with route := [(4095, 1)] } }
     segIs s 0 = true ∧ o.node ≠ none) ∧
    segIs (opScene (anOp (.copy 0x10200 0x40000 512 none) false)) 1 = true ∧
    segIs (opScene (anOp (.copy 0x10200 0x10000 512 (some 7)) false)) 2 = true ∧
    (let o := anOp (.copy 0x10200 0x10000 512 (some 4095)) true
     (opScene o).opOf 0 5 = some (o, hero) ∧ o.credited * 512 < o.total) ∧
    (let x : HRec := { aTile with st := .released }
     let s := sceneWith id id fun c => { c with recs := [x] }
     (s.core 0).rec? 0 = some x ∧ (s.core 0).recFreeable x = true) ∧
    (let s : State := { scene with pregs := { scene.pregs with rxSize := 2 ^ 16 } }
     s.memReady = true ∧ 65536 - 512 + 512 ≤ field s.pregs.rxSize 16 32 * 65536 ∧
     s.closed (field s.pregs.rxBase 16 32 * 65536 + (65536 - 512)) 512 = false ∧
     field s.pregs.rxSize 16 32 * 65536 < 65536 - 511 + 512) := by decide +kernel

/-- A request for a free lease; a queued operation; a DYN product with rows to take; a flip that goes; planes that a dead
cohort left. -/
theorem meets_matrix_events :
    (let f : Task → Task := fun t => { t with park := some (.lease 4 12 hL.hint), st := .parked }
     let s := sceneWith f id fun c => { c with mx := { c.mx with requests := [(1, 4)] } }
     (s.core 0).mx.requests = [(1, 4)] ∧ s.task? 1 = some (f hero) ∧ (s.core 0).leaseOpen (f hero).cohort = true ∧
     (f hero).stepping = false) ∧
    (let o : MatOp := ⟨5, 1, 1, .mflip, false, none, false, 0, false, [], 0, 0, none⟩
     let s := leasedScene [] 0 fun c => { c with mx := { c.mx with ops := [o] } }
     (s.core 0).nextAdmit = some o ∧ s.unitsRun o.owner = true) ∧
    (let k : MKind := .mma 1 3 16 0 0 0 0 2 true none
     let o : MatOp := ⟨5, 1, 1, k, false, none, true, 0, false, [], 0, 0, none⟩
     let s := leasedScene [] 0 fun c => { c with acnt := [(2, 8)], mx := { c.mx with ops := [o] } }
     s.dynOp 0 = some o ∧ (s.core 0).dynNext o 2 16 = some (8, false)) ∧
    (let o : MatOp := ⟨5, 1, 1, .mflip, false, none, true, 0, false, [], 0, 0, none⟩
     let s := leasedScene [] 0 fun c => { c with mx := { c.mx with ops := [o] } }
     (s.core 0).mx.ops.find? (·.uid == 5) = some o ∧ s.matGoes 0 o = true ∧ s.unitsRun o.owner = true) ∧
    (let s := sceneWith id id fun c =>
       { c with mx := { c.mx with active := { Plane.none with st := .loaded }, lease := ⟨Option.none, some 9, 0⟩ } }
     s.planesDone 0 = true) := by decide +kernel

/-- The scene with context 3 in a state, its image's place at 1 GiB. -/
def ctxScene (st : CtxSt) : State :=
  { scene with
    ctxs := alSet scene.ctxs 3 { scene.ctx 3 with st := st, imageAt := 2 ^ 30, imageOk := true }
    cregs := { scene.cregs with imageBase := [(3, BitVec.ofNat 64 (2 ^ 30))] } }

/-- Contexts in every state of a command; jobs to requeue and to kill; drains at their end; images that can be written and
that cannot; gang switches to arm, draining and due. -/
theorem meets_contexts :
    ((ctxScene .running).preempt 3).isSome = true ∧ (ctxScene .running).saveRoom = true ∧
    ((ctxScene .saved).loadCtx 3).isSome = true ∧ (scene.ctx 15).st = .free ∧
    (let s : State := { ctxScene .saved with jobs := [], ctxs := [(3, { scene.ctx 3 with st := .saved })] }
     s.occupied = false ∧ (s.ctx 3).st = .saved) ∧
    scene.job? 9 = none ∧ scene.job? 1 = some (placeJob 0 1) ∧ (placeJob 0 1).holds = true ∧
    (scene.ctx 0).st = .running ∧
    ((ctxScene .draining).draining = some 3 ∧ (∀ t ∈ (ctxScene .draining).tasks, t.slot ≠ none → (ctxScene .draining).ctxOf t ≠ 3) ∧
      ((ctxScene .draining).ctx 3).drainEnd ≤ (ctxScene .draining).timeNs.toNat) ∧
    ((ctxScene .saving).saving = some 3 ∧ (ctxScene .saving).imageWritable 3 = true ∧ ((ctxScene .saving).ctx 3).gang = false ∧
      (ctxScene .saving).cregs.next.getLsbD 4 = false ∧
      ({ ctxScene .saving with cregs := { scene.cregs with imageBase := [] } } : State).imageWritable 3 = false) ∧
    ((ctxScene .loading).loading = some 3 ∧ ((ctxScene .loading).ctx 3).imageOk = true ∧
      ((ctxScene .loading).ctx 3).imageAt = field (spGet (ctxScene .loading).cregs.imageBase 3) 21 27 * 2 ^ 21) ∧
    (field scene.cregs.gangStatus 0 3 < 2 ∧
      scene.timeNs.toNat < (300000#64).toNat - field scene.cregs.gangDrain 0 32) ∧
    (let j : Job := { placeJob 0 1 with requeueing := true }
     let s : State := { scene with jobs := [j], tasks := [{ hero with slot := none }] }
     s.draining = none ∧ s.requeues = [j] ∧ (∀ t ∈ s.tasks, t.slot ≠ none → t.job ≠ j.id) ∧ j.drainEnd ≤ s.timeNs.toNat) ∧
    (let s : State := { scene with cregs := { scene.cregs with gangTime := 150000, gangStatus := 1 } }
     s.gangDrains = true ∧ s.outgoing = some 0) ∧
    (let s : State := { scene with timeNs := 150000, cregs := { scene.cregs with gangTime := 150000, gangStatus := 2 } }
     s.gangDue = true ∧ s.outgoing = some 0 ∧ s.saveRoom = true) := by decide +kernel

/-- An image that stands where it was saved; and one whose lines a changed key leaves unreadable. -/
theorem meets_images :
    (ctxScene .loading).imageThere ((ctxScene .loading).ctx 3) (2 ^ 30) = true ∧
    (let s : State := { ctxScene .loading with badMac := [(2 ^ 30, 2 ^ 30 + 64, 0)] }
     s.imageThere (s.ctx 3) (2 ^ 30) = false) := by
  refine ⟨?_, ?_⟩
  · have h : ∀ l, (ctxScene .loading).badLine l = false := fun l => by
      simp [State.badLine, State.failsMac, show (ctxScene .loading).poison = [] by decide,
        show (ctxScene .loading).badMac = [] by decide]
    simp [State.imageThere, h, show ((ctxScene .loading).ctx 3).imageAt = 2 ^ 30 by decide,
      show ((ctxScene .loading).ctx 3).imageOk = true by decide]
  · let s : State := { ctxScene .loading with badMac := [(2 ^ 30, 2 ^ 30 + 64, 0)] }
    have h : s.badLine (2 ^ 24) = true := by decide
    have hm : 2 ^ 24 ∈ linesOf (2 ^ 30) s.part.imageSize := by
      unfold linesOf
      rw [if_neg (by decide)]
      exact List.mem_map.mpr ⟨0, by simp, by decide⟩
    have ha : (linesOf (2 ^ 30) s.part.imageSize).any (s.badLine ·) = true := List.any_eq_true.mpr ⟨_, hm, h⟩
    show s.imageThere (s.ctx 3) (2 ^ 30) = false
    simp only [State.imageThere, ha, Bool.not_true, Bool.false_and]

/-- Tasks that run, are parked, ending, halted, escalated; one that may be stepped. -/
theorem meets_debugger :
    (let id := hero.ident
     scene.taskByIdent (id + 1) = none ∧ scene.taskByIdent id = some hero ∧ hero.st = .running ∧ hero.answerable = false ∧
     (let f : Task → Task := fun t => { t with st := .parked }
      (sceneWith f).taskByIdent id = some (f hero) ∧ (f hero).stop = none ∧ (sceneWith f).mayRun (f hero) = true) ∧
     (let f : Task → Task := fun t => { t with st := .ending }
      (sceneWith f).taskByIdent id = some (f hero)) ∧
     scene.liveMembers hero.cohort = [hero] ∧ scene.task? hero.uid = some hero ∧
     (let f : Task → Task := fun t => stopped .posted (small t)
      let g : Task → Task := fun t => { f t with stop := (f t).stop.map fun x => { x with halted := true } }
      let s : State := { saving_ g with cregs := { scene.cregs with dbgCtl := 1 } }
      s.taskByIdent id = some (g (small hero)) ∧ (g (small hero)).answerable = true ∧ s.mayStep (g (small hero)) = true)) := by
  decide +kernel

/-- Cores, dies and key slots at the ends of their ranges; a shootdown that runs and one that may end; a range to zero;
registers by address. -/
theorem meets_register_writes :
    287 < scene.part.cores ∧ 7 < scene.part.dies ∧ spWf scene.dieStats = true ∧ scene.mregs.invCmd.getLsbD 7 = false ∧
    (let s : State := { scene with mregs := { scene.mregs with invCmd := 0x80, inv := some (0x10000, 0, 0) } }
     s.mregs.invCmd.getLsbD 7 = true ∧ s.mregs.inv = some (0x10000, 0, 0) ∧ s.shotDown 0 0 = true) ∧
    spWf scene.mregs.keys = true ∧ spWf scene.mregs.keyCount = true ∧ spWf scene.mregs.keyCtl = true ∧
    (let s : State := { scene with mregs := { scene.mregs with keyCount := [(15, 3)] } }
     s.keyFree 15 = true ∧ 3 = (spGet s.mregs.keyCount 15).toNat % 4) ∧
    scene.keyFree 15 = true ∧ scene.keyFree 0 = false ∧
    (let v : BitVec 64 := BitVec.ofNat 64 (2 ^ 48 + 2 ^ 30 + 3)
     let s : State := { scene with mregs := { scene.mregs with keyCtl := [(15, v)] } }
     s.rangeToZero 15 = some (2 ^ 30, 2 ^ 24) ∧ spWf s.hbm = true ∧ spWf s.mregs.keyCtl = true ∧
     ∀ k < 16, k ≠ 15 → s.protRange k = none) ∧
    (scene.regAt 3).isNone = true := by decide +kernel

/-- Each phase of the boot; an image that is too long is one byte past 64 MiB. -/
theorem meets_boot :
    State.reset.boot.phase = .off ∧
    (∀ (p : BootPhase) (w : Bool), (let s : State := { State.reset with boot := { State.reset.boot with phase := p, warm := w } }
      s.boot.phase = p ∧ s.boot.warm = w)) ∧
    (List.replicate (2 ^ 26 + 1) (0 : Byte)).length = 2 ^ 26 + 1 ∧ scene.boot.phase = .running ∧ scene.msc = [] ∧
    (let s : State := { scene with mregs := { scene.mregs with keyCtl := [] } }
     s.keyRanges = []) ∧ 0 < scene.part.dies := by
  refine ⟨by decide, fun _ _ => ⟨rfl, rfl⟩, List.length_replicate, by decide, by decide, by decide, by decide⟩

/-- A device that takes its time from IEEE 1588; a hot die; power above the cap; the parts that come up; a telemetry ring
that a query passes. -/
theorem meets_sources :
    field ({ scene with pregs := { scene.pregs with timeStatus := 4 } } : State).pregs.timeStatus 1 2 = 2 ∧
    field scene.pregs.timeStatus 1 2 ≠ 2 ∧ scene.hot = false ∧
    ({ scene with sensors := { scene.sensors with dieTemp := [106] } } : State).hot = true ∧
    ({ scene with sensors := { scene.sensors with power := 2801 } } : State).hot = true ∧
    State.reset.part.ioDies ≠ 0 ∧ (Part.d36 none).ioDies = 0 ∧ 17 < scene.part.herricPorts ∧
    (scene.regAt 0x104250).isSome = true ∧ windowWord ⟨mailboxBase + 4088, 8, none⟩ = true ∧
    scene.closed scene.memTop 1 = true := by decide +kernel

/-- Windows that are open and closed, a query at the ends of its regions, steps of the clock, a ring to sample into. -/
theorem meets_platform :
    scene.memReady = true ∧ scene.closed (scene.winAddr 0x10000) 64 = false ∧ scene.readable (scene.winAddr 0x10000) 64 = true ∧
    State.reset.memReady = false ∧ mailboxAccess 4088 8 = true ∧ mailboxAccess 4089 8 = false ∧
    queryShape 3072 1024 = true ∧ 3072 + 1024 ≤ 4096 ∧ queryShape 0x10000 4 = true ∧
    (∀ i < 256, queryWritable (3072 + 4 * i) = true) ∧ queryWritable 0 = false ∧ queryWritable (0 + 4 * 0) = false ∧
    spWf scene.pregs.lanes = true ∧ 125 < scene.clkMHz ∧
    (let s : State := { scene with clkMHz := 1625, timeNs := 1000000 }
     s.clkMHz < 1750 ∧ s.coolSince + 1000000 ≤ s.timeNs.toNat) ∧
    (let s : State := { scene with pregs := { scene.pregs with telCtl := 1 } }
     s.pregs.telCtl.getLsbD 0 = true ∧ s.memReady = true ∧
     s.telAddr + 64 * (field s.pregs.telCtl 32 32 % s.telRecords) + 64 ≤ s.memTop ∧
     (s.measure ⟨0, [], [114], [], [114]⟩).dieTemps.any (115 ≤ ·) = false ∧
     (s.measure ⟨0, [], [], [], [0, 115]⟩).dieTemps.any (115 ≤ ·) = true) ∧
    scene.readable (scene.telAddr + 0) 4 = true ∧ scene.placeOf outboundBase = .outbound ∧
    windowWord ⟨outboundBase, 4, none⟩ = true ∧
    scene.protOf (scene.memTop - 1) = none ∧
    scene.placeOf (scene.memTop - 8) = .hbm ∧ scene.notReady (scene.memTop - 8) = false ∧
    scene.readable (scene.memTop - 8) 8 = true ∧ 15 < scene.part.sysCores ∧ 15 < scene.nStacks := by decide +kernel

/-- A step that answers a next state from a state in canonical form, and a task that continues. -/
theorem meets_invariants : State.reset.memWf = true ∧ State.reset.unitsCanon ∧ nextIs (step State.reset) (fun _ => true) = true ∧
    scene.task? hero.uid = some hero ∧ hero.stepping = false ∧ spWf hero.warp.bars = true := by
  refine ⟨by decide, ?_, by decide +kernel, by decide +kernel, by decide, by decide⟩
  exact ⟨by simp [State.reset], by simp [State.reset], by simp [State.reset]⟩

end Sys2Proof.Machine
end

section
/-! Proofs. What is common to the proofs about single instructions: the task that issues, the lanes worked in, and the
check of the operands of those lanes. -/

namespace Sys2Proof.Machine

/-! ### The task that issues -/

/-- The task that issues stands among the tasks under its own uid. -/
theorem Issues.found {s : State} {h : Hdr} {t : Task} {keys : List RKey} (hI : Issues s h t keys) :
    s.task? t.uid = some t := by
  have hc : s.task? s.cur.task = some t := hI.task
  rw [task?_uid hc, hc]

theorem actLanes_lane {h : Hdr} (s : State) (t : Task) (hu : h.u = false) : s.actLanes h t = s.effLanes t h := by
  simp [State.actLanes, hu]

theorem workLanes_lane {h : Hdr} (l : List Nat) (hu : h.u = false) : workLanes h l = l := by simp [workLanes, hu]

theorem workLanes_group {h : Hdr} (l : List Nat) (hu : h.u = true) : workLanes h l = [0] := by simp [workLanes, hu]

/-- An instruction that acts works in some lane. -/
theorem Acts.workLanes_ne_nil {s : State} {h : Hdr} {t : Task} {keys : List RKey} (hA : Acts s h t keys) :
    workLanes h (s.actLanes h t) ≠ [] := by
  have hg := hA.holds
  cases hu : h.u with
  | true => simp [workLanes_group _ hu]
  | false => simpa [workLanes_lane _ hu, actLanes_lane s t hu, State.guardHolds, hu] using hg

/-- Changes of a task that agree on it leave the same state. -/
theorem modTask_congr {s : State} {u : Nat} {t : Task} {f g : Task → Task} (h : s.task? u = some t) (hfg : f t = g t) :
    s.modTask u f = s.modTask u g := by
  simp only [State.modTask, h, hfg]

/-- Registers that are allocated in the lanes worked in raise nothing, whichever lanes are effective. -/
theorem checkRegs_allocated {s : State} {t : Task} {h : Hdr} {ops : List (Opnd × Nat)} {lanes : List Nat}
    (hop : ∀ l ∈ workLanes h lanes, ∀ x ∈ ops, s.opBad t x.1 x.2 l = none) : s.checkRegs t h ops lanes = .ok () := by
  have : ((workLanes h lanes).filterMap fun l => (topBad (s.regBads t ops l)).map fun b => (l, b)) = [] :=
    List.filterMap_eq_nil_iff.mpr fun l hl => by rw [regBads_nil (hop l hl)]; rfl
  rw [State.checkRegs, this, raiseLanes_nil]

end Sys2Proof.Machine
end

section
/-! Proofs. O25: index registers and lanes (03_registers R77 to R80). -/

namespace Sys2Proof.Machine

/-! ### Index registers (03_registers R77) -/

/-- What a writing form of MOVX answers. -/
theorem movx_acts {h : Hdr} {a : XSetArgs} {s : State} {t : Task} {old : Bool} {f : Nat → Nat → Nat}
    (hA : Acts s h t ((s.actLanes h t).flatMap fun l => s.srcKeys t a.a 1 l ++ if old then [kx a.x.toNat l] else []))
    (hop : s.operandsOk h t [(a.a, 1)]) :
    movx h a s old f = .next ((s.pushResult t 4 ((s.actLanes h t).map fun l =>
      ⟨kx a.x.toNat l, BitVec.ofNat 32 (f (s.xval t a.x l) (s.src t a.a .n32 l))⟩)).goesOn s h t) := by
  unfold movx
  refine issue_ok false hA ?_
  simp only [checkRegs_ok hop]
  rfl

theorem execMovxGet_acts {h : Hdr} {a : XGetArgs} {s : State} {t : Task}
    (hA : Acts s h t ((s.actLanes h t).flatMap fun l => kx a.x.toNat l :: dstReads a.d l))
    (hop : s.operandsOk h t [(a.d, 1)]) :
    execMovxGet h a s = .next ((s.pushResult t 4 ((s.actLanes h t).flatMap fun l =>
      s.dst t a.d 1 l (s.xval t a.x l))).goesOn s h t) := by
  unfold execMovxGet
  refine issue_ok false hA ?_
  simp only [checkRegs_ok hop]
  rfl

/-- MOVX writes and reads index registers as R77 says. -/
theorem indexRegistersMove : Rule.IndexRegistersMove :=
  ⟨fun h a s _ hA hop => (exec_movxSet h a s).trans (movx_acts hA hop),
   fun h a s _ hA hop => (exec_movxOff h a s).trans (movx_acts hA hop),
   fun h a s _ hA hop => (exec_movxAdd h a s).trans (movx_acts hA hop),
   fun h a s _ hA hop _ => (exec_movxGet h a s).trans (execMovxGet_acts hA hop)⟩

/-! ### Lanes (R78 to R80) -/

/-- The lanes whose source register SHFL checks: of an indirect source those that some lane with a good index reads. -/
def shflSources (h : Hdr) (a : ShflArgs) (s : State) (t : Task) : List Nat :=
  shflChecked a (s.effLanes t h) (((s.effLanes t h).filter fun l => (s.opBad t a.b 1 l).isNone).map (shflReads a s t))

/-- The operands of a SHFL are allocated, its source where it is read. -/
def ShflOk (h : Hdr) (a : ShflArgs) (s : State) (t : Task) : Prop :=
  ∀ l ∈ s.effLanes t h, s.opBad t a.b 1 l = none ∧ s.opBad t a.d 1 l = none ∧
    s.opBad t a.a 1 (match a.a with | .ind _ => shflReads a s t l | _ => l) = none

theorem shflSources_allocated {h : Hdr} {a : ShflArgs} {s : State} {t : Task} {l : Nat} (hok : ShflOk h a s t)
    (hl : l ∈ shflSources h a s t) : s.opBad t a.a 1 l = none := by
  have hsrc := fun l hl => (hok l hl).2.2
  unfold shflSources shflChecked at hl
  cases ha : a.a with
  | ind x =>
    rw [ha] at hl hsrc
    obtain ⟨m, hm, rfl⟩ := List.mem_map.mp hl
    exact hsrc m (List.mem_filter.mp hm).1
  | v _ | g _ | lit0 | lit1 | zero => rw [ha] at hl hsrc; exact hsrc l hl

/-- No lane of a SHFL with allocated operands raises a cause. -/
theorem shfl_noBad {h : Hdr} {a : ShflArgs} {s : State} {t : Task} (hok : ShflOk h a s t) (l : Nat) :
    (if (shflSources h a s t).contains l then s.regBads t [(a.a, 1)] l else []) ++
      (if (s.effLanes t h).contains l then s.regBads t [(a.b, 1), (a.d, 1)] l else []) = [] := by
  refine List.append_eq_nil_iff.mpr ⟨?_, ?_⟩
  · split
    next hl => exact regBads_nil (by simpa using shflSources_allocated hok (by simpa using hl))
    next => rfl
  · split
    next hl =>
      obtain ⟨hb, hd, -⟩ := hok l (by simpa using hl)
      exact regBads_nil (by simp [hb, hd])
    next => rfl

/-- SHFL, VOTE and RDLANE: each body succeeds, and leaves the writes that its rule says. -/
theorem lanesExchange : Rule.LanesExchange := by
  refine ⟨fun h a s t hu hA hok => ?_, fun h a s t hA => ?_, fun h a s t _ hA hv => ?_⟩
  · have hclean := shfl_noBad hok
    unfold shflSources shflReads at hclean
    rw [exec_shfl, execShfl]
    refine issue_ok false hA ?_
    simp only [actLanes_lane s t hu, hclean]
    rfl
  · have hset : (if h.u then lanesOf t.warp.active else s.actLanes h t) = voters s h t := by
      cases hu : h.u <;> simp [voters, State.actLanes, hu]
    rw [exec_vote, execVote]
    rw [← hset] at hA ⊢
    exact issue_ok false hA rfl
  · have hchk : s.checkRegs t h [(.v a.v, 1)] [] = .ok () :=
      checkRegs_allocated fun l _ => by simp [State.opBad, Nat.not_lt.mpr hv]
    rw [exec_rdlane, execRdlane]
    refine issue_ok false hA ?_
    simp only [hchk]
    rfl

/-- Settles O25: each body succeeds on allocated operands, and the frame of an issue answers its writes. -/
theorem lanesAndIndexRegistersAct : Obligations.LanesAndIndexRegistersAct :=
  ⟨indexRegistersMove, lanesExchange⟩

end Sys2Proof.Machine
end

section
/-! Proofs. O26: special registers and the register count (03_registers R81 to R84). -/

namespace Sys2Proof.Machine

/-! ### Special registers (R81, R82) -/

/-- A result of a task that records and replays nothing is received as it is. -/
theorem logged1_unlogged {s : State} {t : Task} (r : LogRec) (h : s.unlogged t) : s.logged1 t r = .ok (s, r) := by
  unfold State.unlogged at h
  unfold State.logged1 State.logged
  cases hj : s.job? t.job with
  | none => rfl
  | some j => rw [hj] at h; simp [h]

/-- A special register that is recorded reads the same in every lane. -/
theorem special_uniform {sr : SReg} {kd : Nat} (s : State) (t : Task) (h : sregKind sr = some kd) :
    ∃ v, ∀ l, s.special t sr l = v := by
  cases sr with
  | time | task | cohort | core => exact ⟨_, fun _ => rfl⟩
  | _ => cases h

/-- The registers that a destination names are found in the task given, whatever stands in the state under its uid. -/
theorem dst_modTask (s : State) (u : Nat) (f : Task → Task) (t : Task) (op : Opnd) (k l v : Nat) :
    (s.modTask u f).dst t op k l v = s.dst t op k l v := by
  have hr : ∀ key, (s.modTask u f).readKey t key = s.readKey t key := fun key => by
    simp [State.readKey, State.readWide]
  cases op <;> simp [State.dst, State.opRegs, State.xval, hr]

/-- The latest of the times that the lanes of an SRD read is the one that they all read. -/
theorem foldl_max_lanes {ls : List Nat} {m v : Nat} (hls : ls ≠ []) (hm : m ≤ v) :
    ((ls.map fun l => (l, v)).map (·.2)).foldl max m = v := by
  induction ls generalizing m with
  | nil => exact absurd rfl hls
  | cons l ls ih =>
    rw [List.map_cons, List.map_cons, List.foldl_cons, Nat.max_eq_right hm]
    cases ls with
    | nil => rfl
    | cons => exact ih (List.cons_ne_nil _ _) (Nat.le_refl v)

/-- SRD of every register but s.time. -/
theorem execSrd_special {h : Hdr} {a : SrdArgs} {s : State} {t : Task}
    (hA : Acts s h t ((workLanes h (s.actLanes h t)).flatMap (dstReads a.d ·))) (hlog : s.unlogged t)
    (htime : a.sr ≠ .time) (hop : s.operandsOk h t [(a.d, 1)]) :
    execSrd h a s = .next ((s.pushResult t (if h.u then 2 else 4) ((workLanes h (s.actLanes h t)).flatMap fun l =>
      s.dst t a.d 1 l (s.special t a.sr l))).goesOn s h t) := by
  unfold execSrd
  refine issue_ok false hA ?_
  simp only [htime, if_false, checkRegs_ok hop]
  cases hk : sregKind a.sr with
  | none => simp only [List.flatMap_map]; rfl
  | some kd =>
    obtain ⟨v, hv⟩ := special_uniform s t hk
    simp only [logged1_unlogged _ hlog, List.flatMap_map, hv]
    rfl

/-- SRD of s.time: the later of the time now and the last the task has read, which it becomes. -/
theorem execSrd_time {h : Hdr} {a : SrdArgs} {s : State} {t : Task} {v : Nat}
    (hA : Acts s h t ((workLanes h (s.actLanes h t)).flatMap (dstReads a.d ·))) (hlog : s.unlogged t)
    (htime : a.sr = .time) (hop : s.operandsOk h t [(a.d, 2)]) (hv : v = max s.timeNs.toNat t.lastTime.toNat) :
    execSrd h a s = .next (((s.modTask t.uid fun t => { t with lastTime := BitVec.ofNat 64 v }).pushResult t
      (if h.u then 2 else 4) ((workLanes h (s.actLanes h t)).flatMap fun l => s.dst t a.d 2 l v)).goesOn s h t) := by
  have htf : s.timeFor t = v := hv.symm
  have hlast : ((((workLanes h (s.actLanes h t)).map fun l => (l, v)).map (·.2)).foldl max t.lastTime.toNat) = v :=
    foldl_max_lanes hA.workLanes_ne_nil (hv ▸ Nat.le_max_right _ _)
  unfold execSrd
  refine issue_ok false hA ?_
  simp only [htime, if_true, checkRegs_ok hop, sregKind, logged1_unlogged _ hlog, htf, dst_modTask, List.flatMap_map]
  rw [modTask_congr hA.found (g := fun t => { t with lastTime := BitVec.ofNat 64 v }) (by rw [hlast])]
  rfl

/-- SRD, and what the special registers read. -/
theorem specialRegistersRead : Rule.SpecialRegistersRead := by
  refine ⟨fun h a s _ hA hlog htime hop => (exec_srd h a s).trans (execSrd_special hA hlog htime hop),
    fun h a s _ _ hA hlog htime hop hv => (exec_srd h a s).trans (execSrd_time hA hlog htime hop hv), fun s t l => ?_⟩
  have hmember : s.special t .cohort l % 8 = t.member % 8 := by
    simp only [State.special]; omega
  exact ⟨rfl, rfl, rfl, rfl, rfl, rfl, rfl, rfl, rfl, hmember, rfl, rfl⟩

/-! ### The register count (R83, R84) -/

/-- R83 refuses a number that is no positive multiple of 4, and one past the bound of its instruction. -/
theorem count_refused {n lo hi : Nat} (h : n % 4 ≠ 0 ∨ n = 0 ∨ lo < hi) :
    (!claimValid n || decide (lo < hi)) = true := by
  simp only [claimValid, Bool.or_eq_true, Bool.not_eq_true', Bool.and_eq_false_iff, decide_eq_true_eq,
    beq_eq_false_iff_ne, bne_eq_false_iff_eq]
  omega

/-- R83 takes every positive multiple of 4 within the bound. -/
theorem count_taken {n lo hi : Nat} (h4 : n % 4 = 0) (h0 : n ≠ 0) (h : hi ≤ lo) :
    (!claimValid n || decide (lo < hi)) = false := by
  simp [claimValid, h4, h0, h]

/-- A claim that R83 takes: served, parked, or standing until the clk ends. -/
theorem rclaim_taken {h : Hdr} {a : CountArgs} {s : State} {t : Task} {n : Nat} {c : Cohort}
    (hA : Acts s h t (s.srcKeys t a.n 1 0)) (hn : s.src t a.n .n32 0 = n)
    (hok : (!claimValid n || decide (640 < t.warp.count + n)) = false) (hc : s.cohort? t.cohort = some c) :
    (n / 4 ≤ c.free → s.claimRival t = false → exec (.rclaim h a) s = .next (((s.modCohort t.cohort fun c =>
      { c with free := c.free - n / 4 }).modWarp t.uid (·.grow (n / 4))).goesOn s h t)) ∧
    (c.free < n / 4 → s.claimRival t = false → t.opened = none →
      exec (.rclaim h a) s = .next (s.parkTask t.uid (.rclaim (n / 4) (s.seqPc t) h.hint))) ∧
    (s.claimRival t = true →
      exec (.rclaim h a) s = .next (s.claimStands t.uid (.rclaim (n / 4) (s.seqPc t) h.hint))) := by
  rw [exec_rclaim, execRclaim]
  refine ⟨fun hfree hr => issue_ok false hA ?_, fun hfree hr ho => issue_park hA ho ?_, fun hr => issue_done hA ?_⟩
  · simp only [hn, hok, hr, hc, Option.map_some, Option.getD_some, Nat.not_lt.mpr hfree, Bool.false_eq_true, if_false]
    rfl
  · simp only [hn, hok, hr, hc, Option.map_some, Option.getD_some, hfree, Bool.false_eq_true, if_false, if_true]
  · simp only [hn, hok, hr, Bool.false_eq_true, if_false, if_true]

/-- RCLAIM and RGIVE: what is refused traps, and what is taken does what its rule says. -/
theorem registerCountMoves : Rule.RegisterCountMoves := by
  refine ⟨fun h a s t n hA hn h4 h0 hmax c hc => rclaim_taken hA hn (count_taken h4 h0 hmax) hc,
    fun h a s t n hA hn hbad => ?_, fun h a s t n hA hn h4 h0 hmin howe => ?_,
    fun h a s t n hA hn h4 h0 hmin howe => ?_, fun h a s t n hA hn hbad => ?_⟩
  · rw [exec_rclaim, execRclaim]
    refine issue_raise hA ?_
    simp only [hn, count_refused hbad, if_true]
    rfl
  · rw [exec_rgive, execRgive]
    refine issue_ok false hA ?_
    simp only [hn, count_taken h4 h0 hmin, howe, Bool.false_eq_true, if_false]
    rfl
  · rw [exec_rgive, execRgive]
    refine issue_hold hA ?_
    simp only [hn, count_taken h4 h0 hmin, howe, Bool.false_eq_true, if_false, if_true]
  · rw [exec_rgive, execRgive]
    refine issue_raise hA ?_
    simp only [hn, count_refused hbad, if_true]
    rfl

/-- Settles O26: SRD receives what it reads where nothing is recorded, and the bodies of RCLAIM and RGIVE branch on
R83's conditions alone. -/
theorem specialRegistersAndCountsAct : Obligations.SpecialRegistersAndCountsAct :=
  ⟨specialRegistersRead, registerCountMoves⟩

end Sys2Proof.Machine
end

section
/-! Proofs. O21: which registers a computing instruction leaves alone, and that writes of p7 and q7 are lost
(03_registers R60, 04_integer R98, 06_float R134). -/

namespace Sys2Proof.Machine

/-! ### Results in flight and the registers they leave alone (R37, R60) -/

/-- p7 and q7 read true (R60). -/
@[simp] theorem rget_p7 (w : Warp) (l : Nat) : rget w (kp 7 l) = 1 := by
  simp [rget, kp]

@[simp] theorem rget_q7 (w : Warp) : rget w (kq 7) = 1 := by simp [rget, kq]

/-- A write to p7 or q7 reaches no register. -/
theorem predKey_seven_lost (u : Bool) (l : Nat) : (predKey u 7 l).lost = true := by
  cases u <;> simp [predKey, RKey.lost, kp, kq]

/-- A key for which no result is pending is written by none in flight. -/
theorem pendingKey_eq_false {s : State} {t : Task} {k : RKey} :
    s.pendingKey t k = false ↔ ∀ i ∈ t.warp.inflight, ∀ x ∈ i.writes, x.at_ ≠ k := by
  simp [State.pendingKey, Warp.inFlight, writesKey]

/-- What a launch keeps of a warp: results in flight get their clk and their barrier, and write what they wrote. -/
theorem launch_keeps (w : Warp) (clk : Nat) (bar : Option Nat) :
    ∃ (g : Inflight → Inflight) (b : Sparse 6), (∀ i, (g i).writes = i.writes) ∧
      w.launch clk bar = { w with inflight := w.inflight.map g, bars := b } := by
  unfold Warp.launch
  cases bar with
  | none => exact ⟨_, w.bars, fun i => by dsimp only; split <;> rfl, rfl⟩
  | some n =>
    dsimp only
    split
    · exact ⟨_, w.bars, fun i => by split <;> rfl, rfl⟩
    · exact ⟨_, _, fun i => by split <;> rfl, rfl⟩

/-- A register that no result in flight writes stays as a launched warp's distance passes. -/
theorem rget_launch_pass_other {w : Warp} {k : RKey} (clk : Nat) (bar : Option Nat) (d : Nat) (hcanon : w.canon)
    (hk : ∀ i ∈ w.inflight, ∀ x ∈ i.writes, x.at_ ≠ k) : rget ((w.launch clk bar).pass d) k = rget w k := by
  obtain ⟨g, b, hg, hl⟩ := launch_keeps w clk bar
  rw [hl, rget_pass_other d (by exact hcanon)]
  · rfl
  · intro i hi
    obtain ⟨j, hj, rfl⟩ := List.mem_map.mp hi
    rw [hg]
    exact hk j hj

/-- A register that no result in flight writes stays as an instruction issues. -/
theorem rget_issued_other {t : Task} {k : RKey} (h : Hint) (pc : BitVec 32) (late : Bool) (clk least : Nat)
    (hcanon : t.warp.canon) (hk : ∀ i ∈ t.warp.inflight, ∀ x ∈ i.writes, x.at_ ≠ k) :
    rget (t.issued h pc late clk least).warp k = rget t.warp k := by
  rw [← rget_launch_pass_other clk (if late || 3 < h.setb.toNat then none else some h.setb.toNat)
    (max least h.stall.toNat) hcanon hk]
  unfold Task.issued
  dsimp only
  split <;> rfl

/-! ### The task that a computing instruction leaves -/

/-- The task after an instruction that goes on, where no debugger steps it. -/
theorem task?_goesOn {s s' : State} {h : Hdr} {t x : Task} (late : Bool) (hx : s'.task? t.uid = some x)
    (hs : x.stepping = false) :
    (s'.goesOn s h t late).task? t.uid = some (x.issued h.hint (s.seqPc t) late s'.clk) := by
  have hm : (s'.modTask t.uid fun y => y.issued h.hint (s.seqPc t) late s'.clk).task? t.uid =
      some (x.issued h.hint (s.seqPc t) late s'.clk) := modTask_same _ hx rfl
  have hs' : (x.issued h.hint (s.seqPc t) late s'.clk).stepping = false := hs
  simp only [State.goesOn, State.finish, State.stepEnd, hm, hs', Bool.false_and, Bool.false_eq_true, if_false]

/-- A task with one more result in flight, due after a distance. -/
def Task.owing (t : Task) (d : Nat) (ws : List RegWrite) : Task :=
  { t with warp := { t.warp with inflight := t.warp.inflight ++ [⟨keptWrites ws, d, none, none, .pipe⟩] } }

theorem task?_pushResult {s : State} {t : Task} (d : Nat) (ws : List RegWrite) (ht : s.task? t.uid = some t) :
    (s.pushResult t d ws).task? t.uid = some (t.owing d ws) := modTask_same _ ht rfl

/-- Flags that merge change FPCTL alone: of the warp, or of the frame its task stands in. -/
theorem orFlags_keeps (t : Task) (f : BitVec 32) :
    ∃ st fp, t.orFlags f = { t with stop := st, warp := { t.warp with fpctl := fp } } := by
  unfold Task.orFlags
  split
  · split <;> exact ⟨_, _, rfl⟩
  · exact ⟨_, _, rfl⟩

theorem task?_orFlags {s : State} {u : Nat} {t : Task} (f : BitVec 32) (ht : s.task? u = some t) :
    ∃ st fp, (s.orFlags u f).task? u = some { t with stop := st, warp := { t.warp with fpctl := fp } } := by
  obtain ⟨st, fp, hf⟩ := orFlags_keeps t f
  unfold State.orFlags
  split
  · exact ⟨t.stop, t.warp.fpctl, ht⟩
  · exact ⟨st, fp, by rw [modTask_same _ ht (by rw [hf]), hf]⟩

/-- The register writes of a computing instruction. -/
def State.computedWrites (s : State) (h : Hdr) (t : Task) (o : Shape) (f : Lane → Res) : List RegWrite :=
  (workLanes h (s.actLanes h t)).flatMap fun l => s.resWrites t h.u o l (f (s.lane t h.u l))

/-- The state after a computation has the writes of every lane in flight. -/
theorem computed_eq (s : State) (h : Hdr) (t : Task) (o : Shape) (d : Nat) (f : Lane → Res) :
    ∃ fl, s.computed h t o d f = (s.pushResult t d (s.computedWrites h t o f)).orFlags t.uid fl :=
  ⟨_, by simp only [State.computed, State.computedWrites, List.flatMap_map]; rfl⟩

/-- A computing instruction changes, of the registers on which nothing is pending, only those its kept writes name. -/
theorem rget_computed_other {s : State} {h : Hdr} {t : Task} (o : Shape) (d : Nat) (f : Lane → Res)
    (ht : s.task? t.uid = some t) (hs : t.stepping = false) (hcanon : t.warp.canon) :
    ∃ y, ((s.computed h t o d f).goesOn s h t).task? t.uid = some y ∧
      ∀ k, s.pendingKey t k = false → (∀ x ∈ keptWrites (s.computedWrites h t o f), x.at_ ≠ k) →
        rget y.warp k = rget t.warp k := by
  obtain ⟨fl, hc⟩ := computed_eq s h t o d f
  obtain ⟨st, fp, hx⟩ := task?_orFlags fl (task?_pushResult d (s.computedWrites h t o f) ht)
  rw [← hc] at hx
  refine ⟨_, task?_goesOn false hx hs, fun k hk hw => ?_⟩
  rw [rget_issued_other]
  · rfl
  · exact hcanon
  · intro i hi
    rcases List.mem_append.mp hi with hold | hnew
    · exact pendingKey_eq_false.mp hk i hold
    · rw [List.mem_singleton.mp hnew]
      exact hw

/-! ### Instructions that write a predicate alone (R60, R98, R134) -/

/-- ISETP and FSETP are the computing instructions without a register destination: what they compute in a lane is a
predicate. -/
theorem exec_of_no_dst {i : Instr} {h : Hdr} {o : Shape} {d : Nat} (hi : computeOf i = some (h, o, d))
    (hdst : o.dst = none) : ∃ f, ∀ s, exec i s = compute h s o d f := by
  unfold computeOf at hi
  split at hi <;> simp only [Option.some.injEq, Prod.mk.injEq, reduceCtorEq] at hi <;> obtain ⟨rfl, rfl, rfl⟩ := hi
  all_goals cases hdst
  · exact ⟨_, fun s => exec_isetp _ _ s⟩
  · exact ⟨_, fun s => exec_fsetp _ _ s⟩

/-- A result whose one destination is p7 or q7 reaches no register. -/
theorem keptWrites_computedWrites_discarded {o : Shape} (s : State) (h : Hdr) (t : Task) (f : Lane → Res)
    (hdst : o.dst = none) (hp : o.pdst = some 7) : keptWrites (s.computedWrites h t o f) = [] := by
  refine List.filter_eq_nil_iff.mpr fun x hx => ?_
  obtain ⟨l, -, hl⟩ := List.mem_flatMap.mp hx
  simp only [State.resWrites, hdst, hp, List.nil_append, List.mem_singleton] at hl
  simpa [hl] using predKey_seven_lost h.u l

/-- Settles O21: the writes of ISETP and FSETP to p7 and q7 are lost before they are in flight, and the issue of an
instruction changes no register but those that results in flight write. -/
theorem hardwiredPredicatesDiscard : Obligations.HardwiredPredicatesDiscard := by
  intro i h o d s t hi hdst hp hA hop hs hcanon
  obtain ⟨f, hexec⟩ := exec_of_no_dst hi hdst
  obtain ⟨y, hy, hkeep⟩ := rget_computed_other o d f hA.found hs hcanon
  refine ⟨_, y, (hexec s).trans (compute_acts hA hop), hy, fun k hk => hkeep k hk ?_,
    fun l => ⟨rget_p7 _ l, rget_q7 _⟩⟩
  simp [keptWrites_computedWrites_discarded s h t f hdst hp]

end Sys2Proof.Machine
end

section
/-! Proofs. What O11 to O13 share: a computing instruction from the shape and the value of its `compute`, and integers
of a type's width (04_integer R85 to R95). -/

namespace Sys2Proof.Machine

/-- An instruction whose meaning is a `compute` computes the function it names. -/
theorem computes_of_exec {i : Instr} {h : Hdr} {o : Shape} {d : Nat} {f : Lane → Res}
    (hexec : ∀ s, exec i s = compute h s o d f) : Computes i h o d f :=
  fun s _ hA hop => (hexec s).trans (compute_acts hA hop)

/-- It computes every function that has the same results. -/
theorem Computes.congr {i : Instr} {h : Hdr} {o : Shape} {d : Nat} {f g : Lane → Res}
    (hg : Computes i h o d g) (hfg : ∀ l, g l = f l) : Computes i h o d f :=
  funext hfg ▸ hg

/-! ### Values of a type as integers -/

theorem toSigned_bounds (w x : Nat) : -2 ^ w ≤ toSigned w x ∧ toSigned w x < 2 ^ w := by
  have hlt : x % 2 ^ w < 2 ^ w := Nat.mod_lt _ (Nat.two_pow_pos w)
  have hcast : ((2 ^ w : Nat) : Int) = 2 ^ w := by norm_cast
  simp only [toSigned]
  split <;> omega

/-- The integer that a value of a type stands for has no more bits than the type, beside its sign. -/
theorem intOf_bounds (ty : Ty) (x : Nat) : -2 ^ ty.bits ≤ intOf ty x ∧ intOf ty x < 2 ^ ty.bits := by
  unfold intOf
  split
  · exact toSigned_bounds _ _
  · have hlt : x % 2 ^ ty.bits < 2 ^ ty.bits := Nat.mod_lt _ (Nat.two_pow_pos _)
    have hcast : ((2 ^ ty.bits : Nat) : Int) = 2 ^ ty.bits := by norm_cast
    omega

theorem loOf_le_hiOf (ty : Ty) : loOf ty ≤ hiOf ty := by cases ty <;> decide

/-- Clamp brings a value to the nearer end of its type's range, with INT_OVERFLOW where that changes it. -/
theorem clampTo_eq (ty : Ty) (x : Int) : clampTo ty x =
    ⟨ofSigned ty.bits (max (loOf ty) (min x (hiOf ty))), if loOf ty ≤ x ∧ x ≤ hiOf ty then 0 else fIntOverflow⟩ := by
  have hle := loOf_le_hiOf ty
  unfold clampTo
  split
  case isTrue hlow => rw [show max (loOf ty) (min x (hiOf ty)) = loOf ty by omega, if_neg (by omega)]
  case isFalse hlow =>
    split
    case isTrue hhigh => rw [show max (loOf ty) (min x (hiOf ty)) = hiOf ty by omega, if_neg (by omega)]
    case isFalse hhigh => rw [show max (loOf ty) (min x (hiOf ty)) = x by omega, if_pos (by omega)]

/-- A clamped result is the saturated one. -/
theorem clampTo_saturated (ty : Ty) (carry : Bool) (x : Int) :
    (⟨holdAs ty (clampTo ty x).code, carry, (clampTo ty x).flags⟩ : Res) = saturated ty carry x := by
  rw [clampTo_eq]; rfl

end Sys2Proof.Machine
end

section
/-! Proofs. O11: moves, sums and products (03_registers R76, 04_integer R90 to R92). -/

namespace Sys2Proof.Machine

/-- MOVI extends its immediate's sign for the one type that is wider and signed. -/
theorem moviVal_eq (ty : Ty) (imm : BitVec 32) :
    moviVal ty imm = if ty = .i64 then signExt 32 64 imm.toNat else imm.toNat := by
  cases ty <;> simp [moviVal]

/-- MOV and MOVI. -/
theorem movesCompute : Rule.MovesCompute :=
  ⟨fun h a => computes_of_exec (exec_mov h a),
    fun h a => (computes_of_exec (exec_movi h a)).congr fun _ => congrArg Res.of (moviVal_eq a.ty a.imm)⟩

/-- The result of an addition, by its SAT. -/
theorem addRes_eq (ty : Ty) (sat : Bool) (t : Nat) (x : Int) :
    addRes ty sat t x = if sat then saturated ty (decide (2 ^ ty.bits ≤ t)) x else wrapped ty t := by
  cases sat with
  | true => simp only [addRes, if_true, clampTo_saturated]
  | false => simp only [addRes, Bool.false_eq_true, if_false, wrapped]

/-- IADD, ISUB and IADDC. -/
theorem additionsCompute : Rule.AdditionsCompute :=
  ⟨fun h a => (computes_of_exec (exec_iadd h a)).congr fun _ => addRes_eq a.ty a.sat _ _,
    fun h a => (computes_of_exec (exec_isub h a)).congr fun _ => addRes_eq a.ty a.sat _ _,
    fun h a => (computes_of_exec (exec_iaddc h a)).congr fun l => by
      simp only [addRes_eq, Bool.toNat, Bool.cond_eq_ite]
      rfl⟩

/-- IMNMX keeps its first source where it is the lesser, and where the greater is asked for, where it is not. -/
theorem ite_bne_eq_ite_ite {α : Type} (less max : Bool) (x y : α) :
    (if less != max then x else y) = if max then (if less then y else x) else if less then x else y := by
  cases less <;> cases max <;> rfl

/-- IMAD, IMULH, IMNMX and IABS. -/
theorem productsCompute : Rule.ProductsCompute :=
  ⟨fun h a => computes_of_exec (exec_imad h a), fun h a => computes_of_exec (exec_imulh h a),
    fun h a => (computes_of_exec (exec_imnmx h a)).congr fun _ =>
      congrArg (fun x => Res.of (holdAs a.ty x)) (ite_bne_eq_ite_ite _ _ _ _),
    fun h a => (computes_of_exec (exec_iabs h a)).congr fun _ => by simp only [clampTo_saturated]⟩

/-- Settles O11: each instruction's meaning is a `compute` at the distance of its row; a clamped value is the saturated
one of R90 and R92, and every other value is the rule's as it stands. -/
theorem integerArithmeticComputes : Obligations.IntegerArithmeticComputes :=
  ⟨movesCompute, additionsCompute, productsCompute⟩

end Sys2Proof.Machine
end

section
/-! Proofs. O12: logic, shifts, bit fields and counts (04_integer R93 to R97). -/

namespace Sys2Proof.Machine

theorem natBit_eq_testBit (x i : Nat) : natBit x i = x.testBit i := by
  rw [Nat.testBit_eq_decide_div_mod_eq, natBit, Bool.beq_eq_decide_eq]

/-! ### Logic (R93) -/

theorem log3_lt (lut : BitVec 8) (a b c n : Nat) : log3 lut a b c n < 2 ^ n := by
  induction n with
  | zero => exact Nat.zero_lt_one
  | succ n ih =>
    rw [log3, Nat.pow_succ]
    split <;> omega

/-- LOG3 bit by bit. -/
theorem natBit_log3 (lut : BitVec 8) (a b c n j : Nat) : natBit (log3 lut a b c n) j = (decide (j < n) &&
    lut.getLsbD (4 * (natBit a j).toNat + 2 * (natBit b j).toNat + (natBit c j).toNat)) := by
  induction n with
  | zero => simp [log3, natBit]
  | succ n ih =>
    have hlow := log3_lt lut a b c n
    rw [natBit_eq_testBit] at ih ⊢
    obtain hj | rfl | hj := Nat.lt_trichotomy j n
    · rw [log3]
      split
      · rw [Nat.testBit_two_pow_add_gt hj, ih]; simp [hj, Nat.lt_succ_of_lt hj]
      · rw [Nat.zero_add, ih]; simp [hj, Nat.lt_succ_of_lt hj]
    · rw [log3]
      split
      next hbit => rw [Nat.testBit_two_pow_add_eq, Nat.testBit_lt_two_pow hlow]; simp [hbit]
      next hbit => rw [Nat.zero_add, Nat.testBit_lt_two_pow hlow]; simp [hbit]
    · have hnext : 2 ^ (n + 1) ≤ 2 ^ j := Nat.pow_le_pow_right Nat.two_pos hj
      rw [Nat.testBit_lt_two_pow (Nat.lt_of_lt_of_le (log3_lt lut a b c (n + 1)) hnext)]
      simp [Nat.not_lt.mpr hj]

/-- LOG3. -/
theorem log3Bits : Rule.Log3Bits := fun h a =>
  ⟨fun l => log3 a.lut (l.src a.a a.ty) (l.src a.b a.ty) (l.src a.c a.ty) a.ty.bits,
    computes_of_exec (exec_log3 h a), fun _ j => natBit_log3 a.lut _ _ _ a.ty.bits j⟩

/-! ### Shifts (R94, R95) -/

/-- A left shift by the width or more leaves none of the value's bits. -/
theorem shl_eq (w k x : Nat) : (if w ≤ k then 0 else x * 2 ^ k % 2 ^ w) = x * 2 ^ k % 2 ^ w := by
  split
  case isTrue hk => exact (Nat.mod_eq_zero_of_dvd (Nat.dvd_mul_left_of_dvd (Nat.pow_dvd_pow 2 hk) x)).symm
  case isFalse => rfl

/-- A right shift of an integer of `w` bits by the width or more leaves its sign alone. -/
theorem ediv_two_pow_of_le {x : Int} {w k : Nat} (hlo : -2 ^ w ≤ x) (hhi : x < 2 ^ w) (hk : w ≤ k) :
    x / 2 ^ k = if x < 0 then -1 else 0 := by
  have hpow : (2 : Int) ^ w ≤ 2 ^ k := by exact_mod_cast Nat.pow_le_pow_right Nat.two_pos hk
  split
  case isTrue hneg => exact Int.ediv_eq_neg_one_of_neg_of_le hneg (by omega)
  case isFalse hneg => exact Int.ediv_eq_zero_of_lt (by omega) (by omega)

/-- A right shift by more than the width is one by the width. -/
theorem intOf_ediv_two_pow_min (ty : Ty) (x k : Nat) : intOf ty x / 2 ^ min k ty.bits = intOf ty x / 2 ^ k := by
  obtain ⟨hlo, hhi⟩ := intOf_bounds ty x
  obtain hk | hk := Nat.le_total k ty.bits
  · rw [Nat.min_eq_left hk]
  · rw [Nat.min_eq_right hk, ediv_two_pow_of_le hlo hhi (Nat.le_refl _), ediv_two_pow_of_le hlo hhi hk]

/-- SHF, SHL and SHR. -/
theorem shiftsCompute : Rule.ShiftsCompute :=
  ⟨fun h a => computes_of_exec (exec_shf h a),
    fun h a => (computes_of_exec (exec_shl h a)).congr fun _ => congrArg Res.of (shl_eq _ _ _),
    fun h a => (computes_of_exec (exec_shr h a)).congr fun _ =>
      congrArg (fun x => Res.of (ofSigned a.ty.bits x)) (intOf_ediv_two_pow_min a.ty _ _)⟩

/-! ### Bit fields and counts (R96, R97) -/

/-- Where BFX and BFI name no bit, as the model asks it. -/
theorem ite_noBits {α : Type} (w ctl : Nat) (x y : α) :
    (if w ≤ natBits ctl 0 8 || natBits ctl 8 8 == 0 then x else y) = if noBits w ctl then x else y := by
  simp [noBits]

theorem natBits_zero (x n : Nat) : natBits x 0 n = x % 2 ^ n := by rw [natBits, Nat.pow_zero, Nat.div_one]

theorem popCount_eq_countP (n x : Nat) : popCount n x = (List.range n).countP (natBit x ·) := by
  induction n with
  | zero => rfl
  | succ n ih => rw [popCount, List.range_succ, List.countP_append, ih, List.countP_singleton, Nat.add_comm]

theorem natBit_zero_two_mul_add (x : Nat) (b : Bool) : natBit (2 * x + b.toNat) 0 = b := by
  cases b <;> simp [natBit]

theorem natBit_succ_two_mul_add (x : Nat) (b : Bool) (j : Nat) : natBit (2 * x + b.toNat) (j + 1) = natBit x j := by
  have hhalf : (2 * x + b.toNat) / 2 = x := by have := b.toNat_lt; omega
  rw [natBit, Nat.pow_succ', ← Nat.div_div_eq_div_mul, hhalf, natBit]

/-- BREV bit by bit: each bit of the low `n` comes from its mirror image. -/
theorem natBit_revBits {x n j : Nat} (hj : j < n) : natBit (revBits x n) j = natBit x (n - 1 - j) := by
  induction n generalizing j with
  | zero => exact absurd hj (Nat.not_lt_zero j)
  | succ n ih =>
    rw [revBits]
    cases j with
    | zero => exact natBit_zero_two_mul_add _ _
    | succ j =>
      rw [natBit_succ_two_mul_add, ih (Nat.lt_of_succ_lt_succ hj)]
      congr 1
      omega

/-- BFX, BFI, POPC, CLZ and BREV. -/
theorem bitFieldsCompute : Rule.BitFieldsCompute :=
  ⟨fun h a => (computes_of_exec (exec_bfx h a)).congr fun _ => by
      simp only [ite_noBits, apply_ite Res.of]
      rfl,
    fun h a => (computes_of_exec (exec_bfi h a)).congr fun _ => by
      simp only [ite_noBits, natBits_zero _ (min _ _), apply_ite Res.of]
      rfl,
    fun h a => (computes_of_exec (exec_popc h a)).congr fun _ => congrArg Res.of (popCount_eq_countP a.ty.bits _),
    fun h a => computes_of_exec (exec_clz h a),
    fun h a => ⟨fun l => revBits (l.src a.a a.ty) a.ty.bits, computes_of_exec (exec_brev h a),
      fun _ _ hj => natBit_revBits hj⟩⟩

/-- Settles O12: LOG3 and BREV by induction on the width, bit by bit; a shift past the width leaves no bit but copies of
the sign; a count is a sum over the bits. -/
theorem bitOperationsCompute : Obligations.BitOperationsCompute :=
  ⟨log3Bits, shiftsCompute, bitFieldsCompute⟩

end Sys2Proof.Machine
end

section
/-! Proofs. O13: comparison, selection and addresses (04_integer R98, R99, R101). -/

namespace Sys2Proof.Machine

/-- Settles O13: the meanings of ISETP, SEL and LEA are the `compute` of the rules' own values. -/
theorem comparisonsCompute : Obligations.ComparisonsCompute :=
  ⟨fun h a => computes_of_exec (exec_isetp h a),
    fun h a => (computes_of_exec (exec_sel h a)).congr fun l =>
      congrArg Res.of (apply_ite (fun op => l.src op a.ty) _ a.a a.b).symm,
    fun h a => computes_of_exec (exec_lea h a)⟩

end Sys2Proof.Machine
end

section
/-! Proofs. O16: a finite code of a format is rounded into the format as itself (05_formats R102, R112 to R114). -/

namespace Sys2Proof.Machine

/-! ### The codes of a format (R102) -/

/-- The exponent and the mantissa of a code are its bits below the sign. -/
theorem natBits_exp_mul_add_mantissa (f : FFmt) (x : Nat) :
    natBits x f.mb f.eb * 2 ^ f.mb + natBits x 0 f.mb = x % 2 ^ (f.eb + f.mb) := by
  rw [natBits_zero, natBits, Nat.add_comm f.eb, Nat.pow_add, Nat.mod_mul, Nat.mul_comm, Nat.add_comm]

/-- The sign of a code is its bit above them. -/
theorem mod_add_signBit {f : FFmt} {x : Nat} (hx : x < 2 ^ f.bits) :
    x % 2 ^ (f.eb + f.mb) + f.signBit (natBit x (f.eb + f.mb)) = x := by
  have htop : x / 2 ^ (f.eb + f.mb) < 2 := by
    rwa [Nat.div_lt_iff_lt_mul (Nat.two_pow_pos _), ← Nat.pow_add_one', Nat.add_comm _ 1, ← Nat.add_assoc]
  have hsplit := Nat.mod_add_div x (2 ^ (f.eb + f.mb))
  obtain h0 | h1 := Nat.le_one_iff_eq_zero_or_eq_one.mp (Nat.le_of_lt_succ htop)
  · have hbit : natBit x (f.eb + f.mb) = false := by rw [natBit, h0]; rfl
    rw [hbit]
    rwa [h0, Nat.mul_zero] at hsplit
  · have hbit : natBit x (f.eb + f.mb) = true := by rw [natBit, h1]; rfl
    rw [hbit]
    rwa [h1, Nat.mul_one] at hsplit

/-- `num` steps of the spacing that is 2^k times the subnormals', in the format's own terms: no more bits than the
format has, none to spare above the least spacing, and not beyond the largest finite code. -/
structure FFmt.Holds (f : FFmt) (num k : Nat) : Prop where
  short : num < 2 ^ (f.mb + 1)
  full : k = 0 ∨ 2 ^ f.mb ≤ num
  finite : k * 2 ^ f.mb + num ≤ f.maxCode

/-- The value of exponent field `e` and mantissa field `m` (R102). -/
def FFmt.number (f : FFmt) (neg : Bool) (e m : Nat) : FVal :=
  if e = 0 then .fin neg m 1 (f.emin - f.mb) else .fin neg (2 ^ f.mb + m) 1 ((e : Int) - f.bias - f.mb)

/-- Below the exponent field of all ones a magnitude is below the code of infinity. -/
theorem mod_lt_infCode {f : FFmt} {x : Nat} (he : natBits x f.mb f.eb ≠ 2 ^ f.eb - 1) :
    x % 2 ^ (f.eb + f.mb) < f.infCode := by
  have hm : natBits x 0 f.mb < 2 ^ f.mb := Nat.mod_lt _ (Nat.two_pow_pos _)
  have hlt : natBits x f.mb f.eb < 2 ^ f.eb := Nat.mod_lt _ (Nat.two_pow_pos _)
  calc x % 2 ^ (f.eb + f.mb)
      = natBits x f.mb f.eb * 2 ^ f.mb + natBits x 0 f.mb := (natBits_exp_mul_add_mantissa f x).symm
    _ < (natBits x f.mb f.eb + 1) * 2 ^ f.mb := by rw [Nat.add_one_mul]; omega
    _ ≤ f.infCode := Nat.mul_le_mul_right _ (by omega)

theorem infCode_add_two_pow (f : FFmt) : f.infCode + 2 ^ f.mb = 2 ^ (f.eb + f.mb) := by
  rw [FFmt.infCode, ← Nat.add_one_mul, Nat.sub_add_cancel (Nat.two_pow_pos _), Nat.pow_add]

/-- A code that stands for a number has the value of its fields, and its magnitude is a finite code. -/
theorem decode_eq_fin {f : FFmt} {x num den : Nat} {neg : Bool} {exp : Int}
    (hd : f.decode x = .fin neg num den exp) :
    f.number (natBit x (f.eb + f.mb)) (natBits x f.mb f.eb) (natBits x 0 f.mb) = .fin neg num den exp ∧
      x % 2 ^ (f.eb + f.mb) ≤ f.maxCode := by
  have hmag := natBits_exp_mul_add_mantissa f x
  have hm : natBits x 0 f.mb < 2 ^ f.mb := Nat.mod_lt _ (Nat.two_pow_pos _)
  have hinf := infCode_add_two_pow f
  unfold FFmt.decode at hd
  unfold FFmt.maxCode
  cases hsp : f.sp with
  | ieee =>
    simp only [hsp] at hd
    split at hd
    · split at hd <;> cases hd
    next hne => exact ⟨hd, Nat.le_sub_one_of_lt (mod_lt_infCode hne)⟩
  | nanOnly =>
    simp only [hsp] at hd
    split at hd
    · cases hd
    next hne =>
      refine ⟨hd, ?_⟩
      dsimp only
      by_cases he : natBits x f.mb f.eb = 2 ^ f.eb - 1
      · have hlast : natBits x 0 f.mb ≠ 2 ^ f.mb - 1 := fun heq => hne ⟨he, heq⟩
        rw [he, ← FFmt.infCode] at hmag
        omega
      · have hlt := mod_lt_infCode he
        omega
  | none =>
    simp only [hsp] at hd
    exact ⟨hd, Nat.le_sub_one_of_lt (Nat.mod_lt _ (Nat.two_pow_pos _))⟩

/-- A code that stands for a number holds it: its magnitude counts the spacings below it, and its sign is that of the
number. -/
theorem holds_of_decode {f : FFmt} {x num den : Nat} {neg : Bool} {exp : Int} (hx : x < 2 ^ f.bits)
    (hd : f.decode x = .fin neg num den exp) :
    ∃ k, f.Holds num k ∧ den = 1 ∧ exp = f.emin - f.mb + k ∧ x = k * 2 ^ f.mb + num + f.signBit neg := by
  obtain ⟨hnum, hmax⟩ := decode_eq_fin hd
  have hmag := natBits_exp_mul_add_mantissa f x
  have hsign := mod_add_signBit hx
  have hm : natBits x 0 f.mb < 2 ^ f.mb := Nat.mod_lt _ (Nat.two_pow_pos _)
  have hpow : 2 ^ (f.mb + 1) = 2 * 2 ^ f.mb := Nat.pow_succ'
  unfold FFmt.number at hnum
  split at hnum <;> cases hnum
  case isTrue he =>
    rw [he, Nat.zero_mul, Nat.zero_add] at hmag
    exact ⟨0, ⟨by omega, .inl rfl, by omega⟩, rfl, (Int.add_zero _).symm, by omega⟩
  case isFalse he =>
    obtain ⟨k, hk⟩ := Nat.exists_eq_succ_of_ne_zero he
    rw [hk, Nat.succ_mul] at hmag
    refine ⟨k, ⟨by omega, .inr (Nat.le_add_right _ _), by omega⟩, rfl, ?_, by omega⟩
    rw [hk, FFmt.emin]
    omega

/-! ### Rounding what a format holds (R112 to R114) -/

/-- An integer is rounded to itself in every mode. -/
theorem roundInt_one (rm : RM) (neg : Bool) (a : Nat) : roundInt rm neg a 1 = a := by
  cases rm <;> simp [roundInt, Nat.mod_one]

/-- An integer is exact: it sets no flag. -/
theorem flagIf_mod_one (a : Nat) (fl : BitVec 32) : flagIf (a % 1 != 0) fl = 0 := by
  rw [Nat.mod_one]; rfl

/-- On a grid no coarser than its own spacing an integer stays one. -/
theorem onGrid_of_le (num : Nat) {exp q : Int} (h : q ≤ exp) : onGrid num 1 exp q = (num * 2 ^ (exp - q).toNat, 1) := by
  rw [onGrid, if_pos h]

/-- An integer is at least the power of two at its highest bit. -/
theorem onGrid_log2_le {num : Nat} (h0 : num ≠ 0) :
    (onGrid num 1 0 (Nat.log2 num)).2 ≤ (onGrid num 1 0 (Nat.log2 num)).1 := by
  unfold onGrid
  split
  · exact Nat.mul_pos (Nat.pos_of_ne_zero h0) (Nat.two_pow_pos _)
  · simpa only [Int.sub_zero, Int.toNat_natCast, Nat.one_mul] using Nat.log2_self_le h0

/-- The exponent of an integer is that of its highest bit. -/
theorem expOf_one {num : Nat} (h0 : num ≠ 0) (exp : Int) : expOf num 1 exp = exp + Nat.log2 num := by
  have hlog : (Nat.log2 num : Int) - Nat.log2 1 = Nat.log2 num := Int.sub_zero _
  simp only [expOf, hlog, Nat.not_lt.mpr (onGrid_log2_le h0), if_false]

/-- Shifted up to `n + 1` bits an integer carries into none beyond. -/
theorem mul_two_pow_sub_log2_lt {num n : Nat} (h : Nat.log2 num ≤ n) : num * 2 ^ (n - Nat.log2 num) < 2 ^ (n + 1) :=
  calc num * 2 ^ (n - Nat.log2 num)
      < 2 ^ (Nat.log2 num + 1) * 2 ^ (n - Nat.log2 num) :=
        Nat.mul_lt_mul_of_pos_right Nat.lt_log2_self (Nat.two_pow_pos _)
    _ = 2 ^ (n + 1) := by rw [← Nat.pow_add]; congr 1; omega

/-- A number with fewer bits than the format has is a subnormal: it is tiny, and stays on the subnormals' grid. -/
theorem roundFin_subnormal {f : FFmt} {num : Nat} (rm : RM) (sat neg : Bool) (h0 : num ≠ 0) (hlt : num < 2 ^ f.mb) :
    f.roundFin rm sat neg num 1 (f.emin - f.mb) = ⟨num + f.signBit neg, 0⟩ := by
  have hlog : Nat.log2 num < f.mb := (Nat.log2_lt h0).mpr hlt
  have hfine : f.emin - f.mb + Nat.log2 num - f.mb ≤ f.emin - f.mb := by omega
  have hshift : (f.emin - f.mb - (f.emin - f.mb + Nat.log2 num - f.mb)).toNat = f.mb - Nat.log2 num := by omega
  have hcarry : num * 2 ^ (f.mb - Nat.log2 num) ≠ 2 ^ (f.mb + 1) :=
    Nat.ne_of_lt (mul_two_pow_sub_log2_lt (Nat.le_of_lt hlog))
  have htiny : f.emin - f.mb + Nat.log2 num - f.mb < f.emin - f.mb := by omega
  simp only [FFmt.roundFin, expOf_one h0, onGrid_of_le num hfine, hshift, onGrid_of_le num (Int.le_refl (f.emin - f.mb)),
    roundInt_one]
  rw [if_pos ⟨htiny, by simp only [hcarry, and_false, decide_false, Bool.not_false]⟩]
  simp only [Int.sub_self, Int.toNat_zero, Nat.pow_zero, Nat.mul_one, flagIf_mod_one]

/-- A number with all the bits of the format is normal: it is rounded on its own spacing. -/
theorem roundFin_normal {f : FFmt} {num k : Nat} (rm : RM) (sat neg : Bool) (h : f.Holds num k) (hle : 2 ^ f.mb ≤ num) :
    f.roundFin rm sat neg num 1 (f.emin - f.mb + k) = ⟨k * 2 ^ f.mb + num + f.signBit neg, 0⟩ := by
  have h0 : num ≠ 0 := Nat.ne_of_gt (Nat.lt_of_lt_of_le (Nat.two_pow_pos _) hle)
  have hlog : Nat.log2 num = f.mb := (Nat.log2_eq_iff h0).mpr ⟨hle, h.short⟩
  have hnormal : ¬(f.emin - f.mb + k < f.emin - f.mb) := by omega
  have hcarry : num ≠ 2 ^ (f.mb + 1) := Nat.ne_of_lt h.short
  have hmax : ¬(f.maxCode < k * 2 ^ f.mb + num) := Nat.not_lt.mpr h.finite
  have hexp : expOf num 1 (f.emin - f.mb + k) - f.mb = f.emin - f.mb + k := by rw [expOf_one h0, hlog]; omega
  have hgrid : onGrid num 1 (f.emin - f.mb + k) (f.emin - f.mb + k) = (num, 1) := by
    rw [onGrid_of_le num (Int.le_refl _), Int.sub_self, Int.toNat_zero, Nat.pow_zero, Nat.mul_one]
  have hsteps : (f.emin - f.mb + k - (f.emin - f.mb)).toNat = k := by omega
  simp only [FFmt.roundFin, hexp, hgrid, roundInt_one, hnormal, hcarry, hsteps, hmax, false_and, if_false,
    flagIf_mod_one]

/-- What a format holds is rounded to its code, without a flag. -/
theorem round_of_holds {f : FFmt} {num k : Nat} (rm : RM) (sat neg : Bool) (h : f.Holds num k) :
    f.round rm sat (.fin neg num 1 (f.emin - f.mb + k)) = ⟨k * 2 ^ f.mb + num + f.signBit neg, 0⟩ := by
  simp only [FFmt.round]
  obtain hlt | hle := Nat.lt_or_ge num (2 ^ f.mb)
  · obtain rfl : k = 0 := h.full.resolve_right (Nat.not_le.mpr hlt)
    rw [show f.emin - f.mb + (0 : Nat) = f.emin - f.mb from Int.add_zero _, Nat.zero_mul, Nat.zero_add]
    split
    next hz => rw [hz, Nat.zero_add]
    next h0 => exact roundFin_subnormal rm sat neg h0 hlt
  · rw [if_neg (Nat.ne_of_gt (Nat.lt_of_lt_of_le (Nat.two_pow_pos _) hle)), roundFin_normal rm sat neg h hle]

/-- Settles O16: a finite code's value is a whole number of its spacing with no more bits than the format has, and
rounding leaves such a number as it is. It holds of every format of the shape of R102. -/
theorem finiteValuesRoundToThemselves : Obligations.FiniteValuesRoundToThemselves := by
  intro f _ rm sat x hx hfin
  cases hd : f.decode x with
  | nan s => rw [hd] at hfin; exact hfin.elim
  | inf neg => rw [hd] at hfin; exact hfin.elim
  | fin neg num den exp =>
    obtain ⟨k, hholds, rfl, rfl, hcode⟩ := holds_of_decode hx hd
    rw [round_of_holds rm sat neg hholds, ← hcode]

end Sys2Proof.Machine
end

section
/-! Proofs. O17: conversions, packing, block scales and the codebook (05_formats R117 to R123). -/

namespace Sys2Proof.Machine

/-- The least distance of CVT (R117): the longer one where either type is .f64. -/
theorem cvtDist_eq (h : Hdr) (df sf : Ty) :
    (if df = .f64 || sf = .f64 then distOf h 10 4 else distOf h 4 2) =
      if df = .f64 ∨ sf = .f64 then (if h.u then 4 else 10) else if h.u then 2 else 4 := by
  simp only [distOf, Bool.or_eq_true, decide_eq_true_eq]

/-- CVT (R118). -/
theorem cvtComputes (h : Hdr) (a : CvtArgs) : Computes (.cvt h a) h (unary a.a a.d a.sf a.df.regs)
    (if a.df = .f64 ∨ a.sf = .f64 then (if h.u then 4 else 10) else if h.u then 2 else 4) fun l =>
      floatRes (convert a.df a.sf a.rm a.sat (l.src a.a a.sf)) :=
  cvtDist_eq h a.df a.sf ▸ computes_of_exec (exec_cvt h a)

/-- Settles O17: each instruction's meaning is a `compute` of its rule's value, at the distance of its row in R117. -/
theorem conversionsCompute : Obligations.ConversionsCompute :=
  ⟨cvtComputes,
    fun h a => computes_of_exec (exec_cvtn h a),
    fun h a => computes_of_exec (exec_pkn h a),
    fun h a => computes_of_exec (exec_unpk h a),
    fun h a => computes_of_exec (exec_qsclFind h a),
    fun h a => computes_of_exec (exec_qsclDiv h a),
    fun h a => computes_of_exec (exec_qsclMul h a),
    fun h a => computes_of_exec (exec_cbdec h a)⟩

end Sys2Proof.Machine
end

section
/-! Proofs. O14: sums, products and fused sums, of one element and of packed pairs (06_float R124 to R127, R132, R137,
R138). -/

namespace Sys2Proof.Machine

/-! ### One element (R132, R138) -/

/-- The sum that the model takes of two modified codes is the exact one of their values, rounded once. -/
theorem floatAdd_eq (a : FArgs) (l : Lane) : floatAdd a l = floatRes (rounded1 (fmtOf a.ty) a.rm
    (fadd a.rm ((fmtOf a.ty).decode (modified l a.a a.ty a.nega a.absa))
      ((fmtOf a.ty).decode (modified l a.b a.ty a.negb a.absb)))) := rfl

theorem floatMul_eq (a : FArgs) (l : Lane) : floatMul a l = floatRes (rounded1 (fmtOf a.ty) a.rm
    (fmul ((fmtOf a.ty).decode (modified l a.a a.ty a.nega a.absa))
      ((fmtOf a.ty).decode (modified l a.b a.ty a.negb a.absb)))) := rfl

/-- The fused sum keeps the product exact: there is no rounding before the one of the sum. -/
theorem floatFma_eq (a : FmaArgs) (l : Lane) : floatFma a l = floatRes (rounded1 (fmtOf a.ty) a.rm
    (ffma a.rm ((fmtOf a.ty).decode (modified l a.a a.ty a.nega a.absa))
      ((fmtOf a.ty).decode (modified l a.b a.ty a.negb a.absb))
      ((fmtOf a.ty).decode (modified l a.c a.ty a.negc false)))) := rfl

/-- FADD, FMUL, FFMA and the same of doubles. -/
theorem floatArithmeticComputes : Rule.FloatArithmeticComputes :=
  ⟨fun h a => (computes_of_exec (exec_fadd h a)).congr (floatAdd_eq a),
    fun h a => (computes_of_exec (exec_fmul h a)).congr (floatMul_eq a),
    fun h a => (computes_of_exec (exec_ffma h a)).congr (floatFma_eq a),
    fun h a => (computes_of_exec (exec_dadd h a)).congr (floatAdd_eq a),
    fun h a => (computes_of_exec (exec_dmul h a)).congr (floatMul_eq a),
    fun h a => (computes_of_exec (exec_dfma h a)).congr (floatFma_eq a)⟩

/-! ### Packed pairs (R137) -/

/-- An operation on both halves answers both results and the union of their flags. -/
theorem onHalves_eq (f : Nat → FRes) : onHalves f = pairRes (f 0) (f 1) := rfl

/-- HADD2, HMUL2 and HFMA2. -/
theorem packedHalvesCompute : Rule.PackedHalvesCompute :=
  ⟨fun h a => (computes_of_exec (exec_hadd2 h a)).congr fun _ => onHalves_eq _,
    fun h a => (computes_of_exec (exec_hmul2 h a)).congr fun _ => onHalves_eq _,
    fun h a => (computes_of_exec (exec_hfma2 h a)).congr fun _ => onHalves_eq _⟩

/-- Settles O14: every form is a `compute` of the exact operation on its modified sources, rounded once; the packed
forms do so in both halves. -/
theorem floatingArithmeticComputes : Obligations.FloatingArithmeticComputes :=
  ⟨floatArithmeticComputes, packedHalvesCompute⟩

end Sys2Proof.Machine
end

section
/-! Proofs. O15: minimum, comparison, function unit and class (06_float R133 to R136). -/

namespace Sys2Proof.Machine

/-- Settles O15: each instruction's meaning is a `compute` of its rule's value on the modified sources. -/
theorem floatTestsCompute : Obligations.FloatTestsCompute :=
  ⟨fun h a => computes_of_exec (exec_fmnmx h a),
    fun h a => computes_of_exec (exec_fsetp h a),
    fun h a => computes_of_exec (exec_fmf h a),
    fun h a => computes_of_exec (exec_fcls h a)⟩

end Sys2Proof.Machine
end

section
/-! Proofs. O18: TFENCE (06_float R139). -/

namespace Sys2Proof.Machine

/-! ### The lowest enabled flag -/

theorem lowestFlag_zero : lowestFlag 0 = none := by decide

/-- The flag that CHECK reports is the one that is set with none set below it. -/
theorem lowestFlag_eq_some {m : Nat} {i : Fin 6} (hset : natBit m i = true)
    (hlow : ∀ j, j < i → natBit m j.val = false) : lowestFlag m = some i := by
  refine List.find?_eq_some_iff_getElem.mpr ⟨hset, i, by simp, by simp, fun j hj => ?_⟩
  simpa using hlow ⟨j, Nat.lt_trans hj i.isLt⟩ hj

/-! ### The four forms, where no flag is still to be merged -/

theorem execTfenceCheck_clean {h : Hdr} {s : State} {t : Task} (hA : Acts s h t []) (hfree : s.flagsOwed t = false)
    (hnone : lowestFlag (enabledFlags t.warp.fpctl) = none) : execTfenceCheck h s = .next (s.goesOn s h t) := by
  unfold execTfenceCheck
  refine issue_ok false hA ?_
  simp only [hfree, hnone, Bool.false_eq_true, if_false]
  rfl

theorem execTfenceCheck_flagged {h : Hdr} {s : State} {t : Task} {i : Fin 6} (hA : Acts s h t [])
    (hfree : s.flagsOwed t = false) (hsome : lowestFlag (enabledFlags t.warp.fpctl) = some i) :
    execTfenceCheck h s = .next ((s.modTask t.uid fun x => x.issued h.hint (s.seqPc t) false s.clk).takeTrap t.uid
      (raise0 (.arith i)) .after (s.seqPc t)) := by
  unfold execTfenceCheck
  refine issue_done hA ?_
  simp only [hfree, hsome, Bool.false_eq_true, if_false, State.afterTrap]

/-- A form that only has to wait for the flags goes on with its effect. -/
theorem issue_fence_free {h : Hdr} {s : State} {t : Task} {keys : Task → List Nat → List RKey}
    {f : State → Task → State} (hA : Acts s h t (keys t (s.actLanes h t))) (hfree : s.flagsOwed t = false) :
    issue h s keys (fun s t _ => if s.flagsOwed t then .error .hold else .ok (eff (f s t))) =
      .next ((f s t).goesOn s h t) :=
  issue_ok false hA (by simp only [hfree, Bool.false_eq_true, if_false]; rfl)

/-! ### Every form, while flags are still to be merged -/

/-- A form waits for the operations that still merge flags, whatever it then does. -/
theorem issue_fence_owed {h : Hdr} {s : State} {t : Task} {keys : Task → List Nat → List RKey}
    {g : State → Task → M Eff} (hA : Acts s h t (keys t (s.actLanes h t))) (howed : s.flagsOwed t = true) :
    issue h s keys (fun s t _ => if s.flagsOwed t then .error .hold else g s t) = .next s :=
  issue_hold hA (by simp only [howed, if_true])

/-- Settles O18: the four forms are one wait for the flags owed, and then each its own effect; of the enabled flags
CHECK finds the lowest. -/
theorem flagFencesAct : Obligations.FlagFencesAct := by
  refine ⟨fun h s t hA hfree hclean => ?_, fun h s t hA hfree i hset hlow => ?_,
    fun h a s t hA hfree => (exec_tfenceGet h a s).trans (issue_fence_free hA hfree),
    fun h a s t hA hfree => (exec_tfencePut h a s).trans (issue_fence_free hA hfree),
    fun h a s t hA hfree => (exec_tfenceClear h a s).trans (issue_fence_free hA hfree),
    fun i h a s t hi hA howed => ?_, fun i h a s t hi hA howed => ?_⟩
  · exact (exec_tfenceCheck h s).trans (execTfenceCheck_clean hA hfree (by rw [hclean, lowestFlag_zero]))
  · exact (exec_tfenceCheck h s).trans (execTfenceCheck_flagged hA hfree (lowestFlag_eq_some hset hlow))
  · obtain rfl | rfl : i = .tfenceGet h a ∨ i = .tfenceCheck h := by simpa using hi
    · exact (exec_tfenceGet h a s).trans (issue_fence_owed hA howed)
    · exact (exec_tfenceCheck h s).trans (issue_fence_owed hA howed)
  · obtain rfl | rfl : i = .tfencePut h a ∨ i = .tfenceClear h a := by simpa using hi
    · exact (exec_tfencePut h a s).trans (issue_fence_owed hA howed)
    · exact (exec_tfenceClear h a s).trans (issue_fence_owed hA howed)

end Sys2Proof.Machine
end

section
/-! Proofs. What memory and address translation leave alone: their operations change bytes, caches, watches, page
translations and serial numbers, and nothing that an instruction in issue is made of. -/

namespace Sys2Proof.Machine

/-- A state without what writes to memory and translations change. -/
def State.besideMemory (s : State) : State :=
  { s with nextUid := 0, hbm := [], hostMem := [], mailbox := [], msc := [], poison := [], badMac := [], slices := [],
           openBytes := [], hist := [], majors := [], minors := [], watches := [], dieTlb := [], cores := [], ctxs := [] }

/-- States that agree beside memory have the same instruction in issue. -/
theorem cur_of_besideMemory {s s' : State} (h : s'.besideMemory = s.besideMemory) : s'.cur = s.cur := by
  simpa only [State.besideMemory] using congrArg State.cur h

theorem besideMemory_foldl {α : Type} {f : State → α → State} (hf : ∀ s a, (f s a).besideMemory = s.besideMemory)
    (l : List α) (s : State) : (l.foldl f s).besideMemory = s.besideMemory := by
  induction l generalizing s with
  | nil => rfl
  | cons a l ih => rw [List.foldl_cons, ih, hf]

/-! ### The memory-side cache -/

@[simp] theorem besideMemory_countWrite (s : State) (line : Nat) :
    (s.countWrite line).besideMemory = s.besideMemory := by
  unfold State.countWrite
  split
  · rfl
  · split
    · rfl
    · split <;> rfl

@[simp] theorem besideMemory_mscEvict (s : State) (line : Nat) : (s.mscEvict line).besideMemory = s.besideMemory := by
  unfold State.mscEvict
  split
  · rfl
  · rw [besideMemory_countWrite]
    split <;> rfl

@[simp] theorem besideMemory_mscRoom (s : State) (line : Nat) : (s.mscRoom line).besideMemory = s.besideMemory := by
  unfold State.mscRoom
  dsimp only
  split
  · split
    · exact besideMemory_mscEvict s _
    · rfl
  · rfl

@[simp] theorem besideMemory_memPutByte (s : State) (pa : Nat) (b : Byte) :
    (s.memPutByte pa b).besideMemory = s.besideMemory := by
  unfold State.memPutByte
  split
  · exact besideMemory_mscRoom s _
  · dsimp only
    split <;> rfl

@[simp] theorem besideMemory_memPutEach (s : State) (pa : Nat) (bs : List Byte) :
    (s.memPutEach pa bs).besideMemory = s.besideMemory := by
  induction bs generalizing s pa with
  | nil => rfl
  | cons b bs ih => rw [State.memPutEach, ih, besideMemory_memPutByte]

/-! ### Writes that perform -/

@[simp] theorem besideMemory_thaw (s : State) (pa n : Nat) : (s.thaw pa n).besideMemory = s.besideMemory := by
  unfold State.thaw
  split <;> rfl

@[simp] theorem besideMemory_remember (s : State) (pa n : Nat) : (s.remember pa n).besideMemory = s.besideMemory := by
  unfold State.remember
  split <;> rfl

@[simp] theorem besideMemory_markImages (s : State) (pa n : Nat) :
    (s.markImages pa n).besideMemory = s.besideMemory := by
  unfold State.markImages
  split <;> rfl

@[simp] theorem besideMemory_hitWatches (s : State) (pa n : Nat) :
    (s.hitWatches pa n).besideMemory = s.besideMemory := by
  unfold State.hitWatches
  split <;> rfl

@[simp] theorem besideMemory_revokeOthers (s : State) (core : Option Nat) (pa n : Nat) :
    (s.revokeOthers core pa n).besideMemory = s.besideMemory := rfl

@[simp] theorem besideMemory_modCore (s : State) (c : Nat) (f : Core → Core) :
    (s.modCore c f).besideMemory = s.besideMemory := rfl

@[simp] theorem besideMemory_memPut (s : State) (pa : Nat) (bs : List Byte) :
    (s.memPut pa bs).besideMemory = s.besideMemory := by
  simp [State.memPut, State.memPutRaw]

@[simp] theorem besideMemory_performHbm (s : State) (core : Option Nat) (pa : Nat) (bs : List Byte) :
    (s.performHbm core pa bs).besideMemory = s.besideMemory := by
  unfold State.performHbm
  cases core <;> simp

@[simp] theorem besideMemory_perform (s : State) (core : Option Nat) (pa : Nat) (bs : List Byte) :
    (s.perform core pa bs).besideMemory = s.besideMemory := by
  unfold State.perform
  split
  · exact besideMemory_performHbm s core pa bs
  all_goals rfl

/-! ### Translations -/

@[simp] theorem besideMemory_zeroPages (s : State) (lo hi : Nat) :
    (s.zeroPages lo hi).besideMemory = s.besideMemory := by
  unfold State.zeroPages
  rw [besideMemory_hitWatches]
  dsimp only
  split
  · exact besideMemory_foldl besideMemory_countWrite _ (s.rememberBlock lo hi true)
  · rfl

@[simp] theorem besideMemory_zfuClaim (s : State) (f : Found) : (s.zfuClaim f).besideMemory = s.besideMemory := by
  unfold State.zfuClaim
  dsimp only
  split <;> simp

@[simp] theorem besideMemory_tlbFill (s : State) (core : Nat) (e : TlbEnt) :
    (s.tlbFill core e).besideMemory = s.besideMemory := by
  unfold State.tlbFill
  dsimp only
  split <;> rfl

@[simp] theorem besideMemory_touchFrom (fuel : Nat) (s : State) (core ctx va : Nat) :
    (State.touchFrom fuel s core ctx va).besideMemory = s.besideMemory := by
  induction fuel generalizing s with
  | zero => rfl
  | succ fuel ih =>
    unfold State.touchFrom
    split
    · rfl
    · split
      · rw [ih, besideMemory_zfuClaim]
      · exact besideMemory_tlbFill s core _

/-- The fetch of a bundle leaves its translation behind, and nothing else (R402, R405). -/
theorem besideMemory_fetched (s : State) (core : Nat) (j : Job) (off : Nat) :
    (s.fetched core j off).besideMemory = s.besideMemory := by
  unfold State.fetched
  split
  · rfl
  · exact besideMemory_touchFrom 8 s core _ _

@[simp] theorem fetched_cur (s : State) (core : Nat) (j : Job) (off : Nat) : (s.fetched core j off).cur = s.cur :=
  cur_of_besideMemory (besideMemory_fetched s core j off)

end Sys2Proof.Machine
end

section
/-! Proofs. What is common to the instructions of class 0x4: an issue that its body stops, and the checks of a taken
branch's target (02_encoding R30). -/

namespace Sys2Proof.Machine

/-! ### An issue that its body stops -/

/-- The state that the frame of an issue answers where its body stops. -/
def State.stoppedBy (s : State) (t : Task) : Halt → State
  | .raise r => s.traps t r
  | .hold => s
  | .full => { s with cur := { s.cur with full := true } }
  | .park p => if t.opened.isSome then s.traps t (raise0 .spawnBadClosure) else s.parkTask t.uid p
  | .parkIn s2 p => if t.opened.isSome then s.traps t (raise0 .spawnBadClosure) else s2.parkTask t.uid p
  | .raiseIn s2 r => s2.takeTrap t.uid r .precise t.warp.pc (pair := s.cur.mq.isSome)
  | .done s2 => s2

theorem issueIf_stops {al : Bool} {h : Hdr} {s : State} {t : Task} {keys : Task → List Nat → List RKey}
    {body : State → Task → List Nat → M Eff} {e : Halt} (hI : Issues s h t (keys t (s.actLanes h t)))
    (ha : (al || s.guardHolds h t) = true) (hb : body s t (s.actLanes h t) = .error e) :
    issueIf al h s keys body = .next (s.stoppedBy t e) := by
  rw [issueIf_acts hI ha, hb]
  cases e with
  | raise | hold | full | raiseIn | done => rfl
  | park | parkIn =>
    simp only [State.stoppedBy]
    split <;> rfl

theorem issue_stops {h : Hdr} {s : State} {t : Task} {keys : Task → List Nat → List RKey}
    {body : State → Task → List Nat → M Eff} {e : Halt} (hA : Acts s h t (keys t (s.actLanes h t)))
    (hb : body s t (s.actLanes h t) = .error e) : issue h s keys body = .next (s.stoppedBy t e) :=
  issueIf_stops hA.toIssues (by simp [hA.holds]) hb

/-- An instruction that reads its guard itself, and goes on. -/
theorem issueAlways_ok {h : Hdr} {s s' : State} {t : Task} {keys : Task → List Nat → List RKey}
    {body : State → Task → List Nat → M Eff} (hI : Issues s h t (keys t (s.actLanes h t)))
    (hb : body s t (s.actLanes h t) = .ok (eff s')) : issueIf true h s keys body = .next (s'.goesOn s h t) := by
  rw [issueIf_acts hI rfl, hb]; rfl

/-! ### The target of a branch (R30) -/

theorem branchCheck_lands {s : State} {t : Task} {p : BitVec 32} (h : s.landsAt t p) : s.branchCheck t p = .ok () := by
  obtain ⟨h64, j, b, hj, hb, hwf, hland⟩ := h
  simp [State.branchCheck, hj, h64, hb, hwf, hland]

theorem branchCheck_misaligned {s : State} {t : Task} {p : BitVec 32} {j : Job} (hj : s.job? t.job = some j)
    (h64 : p.toNat % 64 ≠ 0) : s.branchCheck t p = .error (.raise (raise0 .misalignedTarget)) := by
  simp [State.branchCheck, hj, h64, throwC]

theorem branchCheck_malformed {s : State} {t : Task} {p : BitVec 32} {j : Job} {b : Bundle}
    (hj : s.job? t.job = some j) (h64 : p.toNat % 64 = 0) (hb : s.bundleAt t.core j p.toNat = .ok b)
    (hwf : b.wellFormed = false) :
    s.branchCheck t p = .error (.raiseIn (s.fetched t.core j p.toNat) (raise0 .bundleFormat)) := by
  simp [State.branchCheck, hj, h64, hb, hwf]

theorem branchCheck_noLanding {s : State} {t : Task} {p : BitVec 32} {j : Job} {b : Bundle}
    (hj : s.job? t.job = some j) (h64 : p.toNat % 64 = 0) (hb : s.bundleAt t.core j p.toNat = .ok b)
    (hwf : b.wellFormed = true) (hland : b.landing = false) :
    s.branchCheck t p = .error (.raise (raise0 .landingDenied)) := by
  simp [State.branchCheck, hj, h64, hb, hwf, hland, throwC]

theorem branchTo_lands {s : State} {t : Task} {p : BitVec 32} (h : s.landsAt t p) :
    branchTo s t p = .ok ⟨s, some p, false⟩ := by
  simp only [branchTo, branchCheck_lands h]

theorem branchTo_error {s : State} {t : Task} {p : BitVec 32} {e : Halt} (h : s.branchCheck t p = .error e) :
    branchTo s t p = .error e := by
  simp only [branchTo, h]

theorem callTo_lands {s : State} {t : Task} {d : Opnd} {p : BitVec 32} (h : s.landsAt t p) :
    callTo s t d p = .ok ⟨s.pushResult t 2 (s.dst t d 1 0 (bundleOff t.warp.pc + 64)), some p, false⟩ := by
  simp only [callTo, branchTo_lands h]

theorem callTo_error {s : State} {t : Task} {d : Opnd} {p : BitVec 32} {e : Halt} (h : s.branchCheck t p = .error e) :
    callTo s t d p = .error e := by
  simp only [callTo, branchTo_error h]

/-- The target of an offset, as the model and as the statements write it (R153). -/
theorem branchTarget_eq_offTarget (t : Task) (off : BitVec 32) : branchTarget t.warp.pc off = offTarget t off := rfl

end Sys2Proof.Machine
end

section
/-! Proofs. O27: transfers (07_control R156 to R158, 02_encoding R30). -/

namespace Sys2Proof.Machine

/-- The guard holds in as many active lanes as there are just where it holds in all of them. -/
theorem braTaken_eq_taken (s : State) (h : Hdr) (t : Task) (all : Bool) : braTaken s t h all = taken s h t all := by
  have hall : ((s.effLanes t h).length == (lanesOf t.warp.active).length) =
      decide (s.effLanes t h = lanesOf t.warp.active) := by
    rw [Bool.eq_iff_iff, beq_iff_eq, decide_eq_true_eq]
    exact ⟨List.filter_sublist.eq_of_length, congrArg List.length⟩
  have hsome : (!(s.effLanes t h).isEmpty) = decide (s.effLanes t h ≠ []) := by
    rw [Bool.eq_iff_iff]; simp
  simp only [braTaken, taken, hall, hsome]

/-- BRA (R156). -/
theorem branchesGo : Rule.BranchesGo := by
  intro h a s t hI
  rw [exec_bra, execBra]
  refine ⟨fun ht hl => ?_, fun ht => issueAlways_ok hI ?_⟩
  · rw [issueIf_acts hI rfl]
    simp only [braTaken_eq_taken, ht, branchTarget_eq_offTarget, branchTo_lands hl, if_true]
    rfl
  · simp only [braTaken_eq_taken, ht, Bool.false_eq_true, if_false]

/-- BRX, RET and CALL (R157). -/
theorem callsAndReturnsGo : Rule.CallsAndReturnsGo := by
  refine ⟨fun h a s t p hA hp hl => ?_, fun h a s t hA hl => ?_, fun h a s t p hA hp hl => ?_⟩
  · subst hp
    exact ⟨(exec_brx h a s).trans (issue_branch hA (branchTo_lands hl)),
      (exec_ret h a s).trans (issue_branch hA (branchTo_lands hl))⟩
  · exact (exec_call h a s).trans (issue_branch hA (callTo_lands hl))
  · subst hp
    exact (exec_callX h a s).trans (issue_branch hA (callTo_lands hl))

/-- LOOPN (R158). -/
theorem loopsCountDown : Rule.LoopsCountDown := by
  intro h a s t n hA hn
  rw [exec_loopn, execLoopn]
  refine ⟨fun h1 hl => issue_branch hA ?_, fun h1 => issue_ok false hA ?_⟩
  · simp only [← hn, h1, if_true, branchTarget_eq_offTarget, branchTo_lands hl]
  · simp only [← hn, Nat.not_lt.mpr h1, if_false]
    rfl

/-- Every transfer that is taken makes the checks of R30 before anything else, so each stops with what they find. -/
theorem badTargetsTrap : Rule.BadTargetsTrap := by
  intro i h s t p j hj htaken
  have hstop : ∀ e, s.branchCheck t p = .error e → exec i s = .next (s.stoppedBy t e) := by
    intro e he
    obtain ⟨a, rfl, rfl, ht, hI⟩ | ⟨a, rfl, rfl, hA⟩ | ⟨a, hi, rfl, hA⟩ | ⟨a, rfl, rfl, hA⟩ | ⟨a, rfl, rfl, hA, h1⟩ |
      ⟨a, rfl, rfl, hA, hset⟩ | ⟨a, rfl, rfl, hA, hlive⟩ := htaken
    · rw [exec_bra, execBra]
      refine issueIf_stops hI rfl ?_
      simp only [braTaken_eq_taken, ht, branchTarget_eq_offTarget, branchTo_error he, if_true]
    · exact (exec_call h a s).trans (issue_stops hA (callTo_error he))
    · obtain rfl | rfl : i = .brx h a ∨ i = .ret h a := by simpa using hi
      · exact (exec_brx h a s).trans (issue_stops hA (branchTo_error he))
      · exact (exec_ret h a s).trans (issue_stops hA (branchTo_error he))
    · exact (exec_callX h a s).trans (issue_stops hA (callTo_error he))
    · rw [exec_loopn, execLoopn]
      refine issue_stops hA ?_
      simp only [h1, if_true, branchTarget_eq_offTarget, branchTo_error he]
    · rw [exec_split, execSplit]
      refine issue_stops hA ?_
      simp only [hset, ne_eq, not_true_eq_false, if_false, branchTarget_eq_offTarget, branchTo_error he]
    · rw [exec_elseI, execElseI]
      refine issue_stops hA ?_
      simp only [hlive, ne_eq, not_true_eq_false, if_false, branchTarget_eq_offTarget, branchTo_error he]
  refine ⟨fun h64 => hstop _ (branchCheck_misaligned hj h64), fun b h64 hb hwf => ?_,
    fun b h64 hb hwf hland => hstop _ (branchCheck_noLanding hj h64 hb hwf hland)⟩
  rw [hstop _ (branchCheck_malformed hj h64 hb hwf), State.stoppedBy, State.traps, fetched_cur]

/-- Settles O27: a body that transfers control is the checks of R30 on its target, and its writes only behind them. -/
theorem transfersGo : Obligations.TransfersGo := ⟨branchesGo, callsAndReturnsGo, loopsCountDown, badTargetsTrap⟩

end Sys2Proof.Machine
end

section
/-! Proofs. O28: structured divergence (07_control R145, R148). -/

namespace Sys2Proof.Machine

/-- SPLIT with a lane in which the predicate holds. -/
theorem execSplit_then {h : Hdr} {a : SplitArgs} {s : State} {t : Task} {set : BitVec 32}
    (hA : Acts s h t ((lanesOf t.warp.active).map (kp a.p.toNat ·)))
    (hset : set = maskOf ((lanesOf t.warp.active).filter fun l => s.readPred t (kp a.p.toNat l) != a.neg))
    (h0 : set ≠ 0) :
    execSplit h a s = .next ((((s.pushResult t 2 [⟨kg a.m.toNat, t.warp.active⟩,
      ⟨kg (a.m.toNat + 1), t.warp.active &&& ~~~set⟩]).mark t a.m).setActive t set).goesOn s h t) := by
  unfold execSplit
  refine issue_ok false hA ?_
  simp only [← hset, h0, ne_eq, not_false_eq_true, if_true]
  rfl

/-- SPLIT with none: every active lane is pending, and runs at once. -/
theorem execSplit_else {h : Hdr} {a : SplitArgs} {s : State} {t : Task}
    (hA : Acts s h t ((lanesOf t.warp.active).map (kp a.p.toNat ·)))
    (hset : maskOf ((lanesOf t.warp.active).filter fun l => s.readPred t (kp a.p.toNat l) != a.neg) = 0)
    (hl : s.landsAt t (offTarget t a.off)) :
    execSplit h a s = .next ((((s.pushResult t 2 [⟨kg a.m.toNat, t.warp.active⟩,
      ⟨kg (a.m.toNat + 1), 0⟩]).mark t a.m).setActive t t.warp.active).goesTo h t (offTarget t a.off)) := by
  have hrest : t.warp.active &&& ~~~0 = t.warp.active := BitVec.and_allOnes
  unfold execSplit
  refine issue_branch hA ?_
  simp only [hset, hrest, ne_eq, not_true_eq_false, if_false, branchTarget_eq_offTarget, branchTo_lands hl]

/-- Settles O28: SPLIT and ELSE each branch on whether the lanes they would run are none, and REJOIN does not branch. -/
theorem divergenceNests : Obligations.DivergenceNests := by
  refine ⟨fun h a s t set hA hset => ⟨fun h0 => (exec_split h a s).trans (execSplit_then hA hset h0),
      fun h0 hl => (exec_split h a s).trans (execSplit_else hA (hset ▸ h0) hl)⟩,
    fun h a s t e hA he => ?_, fun h a s t hA => (exec_rejoin h a s).trans (issue_ok false hA rfl)⟩
  rw [exec_elseI, execElseI]
  refine ⟨fun h0 => issue_ok false hA ?_, fun h0 hl => issue_branch hA ?_⟩
  · simp only [← he, h0, ne_eq, not_false_eq_true, if_true]
    rfl
  · simp only [← he, h0, ne_eq, not_true_eq_false, if_false, branchTarget_eq_offTarget, branchTo_lands hl]

end Sys2Proof.Machine
end

section
/-! Proofs. O29: EXIT, NOP and YIELD (07_control R146, R149, R159, R160). -/

namespace Sys2Proof.Machine

/-! ### The mask-marked registers that lanes leave (R149) -/

/-- Lanes leave a register that is marked. -/
def clearMarked (marked : Nat → Bool) (x : BitVec 32) (g : Sparse 32) (k : Nat) : Sparse 32 :=
  if marked k then spSet g k (spGet g k &&& ~~~x) else g

/-- What lanes leave of the contents of a register. -/
def leftMarked (marked : Nat → Bool) (x : BitVec 32) (g : Sparse 32) (k : Nat) : BitVec 32 :=
  if marked k then spGet g k &&& ~~~x else spGet g k

theorem exitLanes_g (w : Warp) (x : BitVec 32) :
    (w.exitLanes x).g = (List.range 128).foldl (clearMarked w.maskMap.getLsbD x) w.g := by
  unfold Warp.exitLanes clearMarked
  rfl

theorem spWf_clearMarked {marked : Nat → Bool} {x : BitVec 32} {g : Sparse 32} (k : Nat) (hg : spWf g = true) :
    spWf (clearMarked marked x g k) = true := by
  unfold clearMarked
  split
  · exact spWf_spSet _ _ hg
  · exact hg

theorem spGet_clearMarked {marked : Nat → Bool} {x : BitVec 32} {g : Sparse 32} (k b : Nat) (hg : spWf g = true) :
    spGet (clearMarked marked x g k) b = if b = k then leftMarked marked x g b else spGet g b := by
  unfold clearMarked leftMarked
  by_cases hk : marked k
  · rw [if_pos hk, spGet_spSet _ _ _ hg]
    split
    next hb => rw [hb, if_pos hk]
    next => rfl
  · rw [if_neg hk]
    split
    next hb => rw [hb, if_neg hk]
    next => rfl

/-- Each register is cleared once, from what it held at the start. -/
theorem foldl_clearMarked {marked : Nat → Bool} {x : BitVec 32} {g : Sparse 32} (n : Nat) (hg : spWf g = true) :
    spWf ((List.range n).foldl (clearMarked marked x) g) = true ∧
    ∀ b, spGet ((List.range n).foldl (clearMarked marked x) g) b = if b < n then leftMarked marked x g b else spGet g b := by
  induction n with
  | zero => exact ⟨hg, fun b => rfl⟩
  | succ n ih =>
    obtain ⟨hwf, hget⟩ := ih
    rw [List.range_succ, List.foldl_append, List.foldl_cons, List.foldl_nil]
    refine ⟨spWf_clearMarked n hwf, fun b => ?_⟩
    rw [spGet_clearMarked n b hwf, leftMarked, hget]
    obtain hb | rfl | hb := Nat.lt_trichotomy b n
    · rw [if_neg (Nat.ne_of_lt hb), if_pos hb, if_pos (Nat.lt_succ_of_lt hb)]
    · rw [if_pos rfl, if_neg (Nat.lt_irrefl b), if_pos (Nat.lt_succ_self b), leftMarked]
    · rw [if_neg (Nat.ne_of_gt hb), if_neg (Nat.lt_asymm hb), if_neg (Nat.not_lt.mpr hb)]

theorem spGet_exitLanes {w : Warp} (x : BitVec 32) (hg : spWf w.g = true) {k : Nat} (hk : k < 128) :
    spGet (w.exitLanes x).g k = if w.maskMap.getLsbD k then spGet w.g k &&& ~~~x else spGet w.g k := by
  rw [exitLanes_g, (foldl_clearMarked 128 hg).2, if_pos hk, leftMarked]

/-! ### EXIT (R146, R149) -/

/-- The lanes that an EXIT takes: the effective ones, or in the group-wide form those of ACTIVE where its guard holds. -/
def exiting (h : Hdr) (s : State) (t : Task) : BitVec 32 :=
  if h.u then (if s.guardIn t h 0 then t.warp.active else 0) else maskOf (s.effLanes t h)

/-- The lanes as the body of EXIT takes them. -/
theorem exiting_eq (h : Hdr) (s : State) (t : Task) :
    (if !h.u then maskOf (s.actLanes h t) else if s.guardIn t h 0 then t.warp.active else 0) = exiting h s t := by
  cases hu : h.u <;> simp [exiting, State.actLanes, hu]

/-- EXIT with lanes still live. -/
theorem execExitI_live {h : Hdr} {s : State} {t : Task} (hI : Issues s h t []) (howe : s.owesG t = false)
    (hlive : t.warp.live &&& ~~~exiting h s t ≠ 0) :
    execExitI h s = .next ((s.modWarp t.uid fun w => w.landG.exitLanes (exiting h s t)).goesOn s h t) := by
  unfold execExitI
  refine issueAlways_ok hI ?_
  simp only [howe, exiting_eq, hlive, Bool.false_eq_true, if_false]

/-- EXIT of the last lanes ends the task. -/
theorem execExitI_last {h : Hdr} {s s' : State} {t : Task} (hI : Issues s h t []) (howe : s.owesG t = false)
    (hlast : t.warp.live &&& ~~~exiting h s t = 0)
    (hend : endWarp (s.modWarp t.uid fun w => w.landG.exitLanes (exiting h s t)) t = .ok s') :
    execExitI h s = .next s' := by
  unfold execExitI
  refine issueIf_stops (e := .done s') hI (Bool.true_or _) ?_
  simp only [howe, exiting_eq, hlast, hend, Bool.false_eq_true, if_false, if_true]

/-- An EXIT of the last lanes that may not end the task is stopped. -/
theorem execExitI_refused {h : Hdr} {s : State} {t : Task} {e : Halt} (hI : Issues s h t []) (howe : s.owesG t = false)
    (hlast : t.warp.live &&& ~~~exiting h s t = 0)
    (hend : endWarp (s.modWarp t.uid fun w => w.landG.exitLanes (exiting h s t)) t = .error e) :
    execExitI h s = .next (s.stoppedBy t e) := by
  unfold execExitI
  refine issueIf_stops hI (Bool.true_or _) ?_
  simp only [howe, exiting_eq, hlast, hend, Bool.false_eq_true, if_false, if_true]

/-- EXIT waits for the results due to g registers, whether or not its guard holds. -/
theorem execExitI_waits {h : Hdr} {s : State} {t : Task} (hI : Issues s h t []) (howe : s.owesG t = true) :
    execExitI h s = .next s := by
  unfold execExitI
  refine issueIf_stops (e := .hold) hI (Bool.true_or _) ?_
  simp only [howe, if_true]

/-! ### The end of a task (R146, R173, R370) -/

theorem endWarp_plain {s : State} {t : Task} (ho : t.opened = none) (hf : t.trapOf = none) :
    endWarp s t = .ok (s.endTask t.uid) := by
  simp [endWarp, ho, hf]

theorem endWarp_trapTask {s : State} {t : Task} {f : Nat} (ho : t.opened = none) (hf : t.trapOf = some f) :
    endWarp s t = .ok ((s.endTask t.uid).escalate f) := by
  simp [endWarp, ho, hf]

theorem endWarp_cohortOpen {s : State} {t : Task} (ho : t.opened.isSome = true) :
    endWarp s t = .error (.raise (raise0 .spawnBadClosure)) := by
  simp [endWarp, ho, throwC]

/-! ### YIELD (R159) -/

theorem execYieldI_acts {h : Hdr} {s : State} {t : Task} (hA : Acts s h t []) :
    execYieldI h s =
      .next (((s.goesOn s h t).modTask t.uid fun t => { t with giveWay := true }).yieldStop t.uid) := by
  unfold execYieldI
  exact issue_done hA rfl

theorem yieldStop_unstopped {s : State} {t : Task} (ht : s.task? t.uid = some t) (hs : s.softStopping t = false) :
    s.yieldStop t.uid = s := by
  simp [State.yieldStop, ht, hs]

/-- Settles O29: EXIT's body takes its lanes out and then asks whether any is left; what its end answers is that of
`endWarp`. -/
theorem lanesExit : Obligations.LanesExit := by
  refine ⟨fun h s t x hI howe hx => ?_, fun h s t hI howe => (exec_exitI h s).trans (execExitI_waits hI howe),
    fun w x => ⟨rfl, rfl, fun hg k hk => spGet_exitLanes x hg hk⟩,
    fun h s t hA => (exec_nop h s).trans (issue_ok false hA rfl),
    fun h s t hA => (exec_yieldI h s).trans (execYieldI_acts hA), fun s t => yieldStop_unstopped⟩
  obtain rfl : x = exiting h s t := hx
  rw [exec_exitI]
  exact ⟨execExitI_live hI howe,
    fun hlast ho hf => execExitI_last hI howe hlast (endWarp_plain ho hf),
    fun f hlast ho hf => execExitI_last hI howe hlast (endWarp_trapTask ho hf),
    fun hlast ho => execExitI_refused hI howe hlast (endWarp_cohortOpen ho)⟩

end Sys2Proof.Machine
end

section
/-! Proofs. O31: JOIN, POLL, FUTNEW and FULFIL (08_tasks R165 to R168, R181 to R183). -/

namespace Sys2Proof.Machine

/-! ### A job in normal mode (16_system R382) -/

theorem unlogged_of_inJob {s : State} {t : Task} {j : Job} (hj : s.inJob t j) : s.unlogged t := by
  obtain ⟨hjob, hmode⟩ := hj
  simpa only [State.unlogged, hjob] using hmode

/-- A task that records and replays nothing takes nothing from a log. -/
theorem replayed_unlogged {s : State} {t : Task} (kind : Nat) (h : s.unlogged t) : s.replayed t kind = none := by
  unfold State.unlogged at h
  unfold State.replayed
  cases hj : s.job? t.job with
  | none => rfl
  | some j => rw [hj] at h; simp [h]

/-- A choice of the device leaves every job as it is. -/
theorem pick_jobs (s : State) (n : Nat) : (s.pick n).2.jobs = s.jobs := by
  unfold State.pick
  split <;> rfl

theorem freeCell_jobs (s : State) (die : Nat) : (s.freeCell die).2.jobs = s.jobs := pick_jobs s cellSlots

/-- The choice of a cell does not change what is logged of a task. -/
theorem unlogged_freeCell {s s1 : State} {t : Task} {die : Nat} {k : Option Nat} (h : s.unlogged t)
    (hfree : s.freeCell die = (k, s1)) : s1.unlogged t := by
  have hjobs : s1.jobs = s.jobs := by simpa only [hfree] using freeCell_jobs s die
  have hjob : s1.job? t.job = s.job? t.job := by rw [State.job?, State.job?, hjobs]
  unfold State.unlogged at h ⊢
  rwa [hjob]

/-! ### The cell that JOIN and POLL name (R165, R181) -/

theorem joinCell_names {s : State} {t : Task} {hd : BitVec 32} {c : Cell} (h : s.names t hd c) :
    s.joinCell t hd = .ok c := by
  obtain ⟨hcell, hown⟩ := h
  simp [State.joinCell, hcell, hown]

theorem joinCell_refused {s : State} {t : Task} {hd : BitVec 32}
    (h : s.validCell t.job hd = none ∨ ownFuture t hd = true) :
    s.joinCell t hd = .error (.raise (raise0 .futureInvalid)) := by
  unfold State.joinCell
  cases hown : ownFuture t hd with
  | true => rfl
  | false => rw [h.resolve_right (by simp [hown])]; rfl

/-- JOIN of a cell, by the cell's state. -/
theorem execJoin_names {h : Hdr} {a : JoinArgs} {s : State} {t : Task} {c : Cell}
    (hA : Acts s h t (s.srcKeys t a.a 1 0)) (hn : s.names t (BitVec.ofNat 32 (s.src t a.a .n32 0)) c) :
    (c.st = .ready → ∀ s1, s1 = ((s.acquire t.core (some c.from_)).putPair t a.d c.val.toNat).cellRead c.key t.uid →
      execJoin h a s = .next ((if a.keep then s1 else s1.cellFree c.key).goesOn s h t)) ∧
    (c.st = .pending → t.opened = none → execJoin h a s = .next (s.parkTask t.uid (.join (handleOf c)))) ∧
    (c.st = .broken → execJoin h a s = .next (s.stoppedBy t (s.broken t c))) := by
  unfold execJoin
  refine ⟨fun hst s1 hs1 => issue_ok false hA ?_, fun hst ho => issue_park hA ho ?_, fun hst => issue_stops hA ?_⟩
  · simp only [joinCell_names hn, hst, hs1]
    rfl
  · simp only [joinCell_names hn, hst]
  · simp only [joinCell_names hn, hst]

/-- POLL of a cell, by the cell's state, where nothing is recorded. -/
theorem execPoll_names {h : Hdr} {a : PollArgs} {s : State} {t : Task} {c : Cell}
    (hA : Acts s h t (s.srcKeys t a.a 1 0)) (hn : s.names t (BitVec.ofNat 32 (s.src t a.a .n32 0)) c)
    (hlog : s.unlogged t) :
    (c.st = .ready → execPoll h a s = .next (((((s.acquire t.core (some c.from_)).putPair t a.d c.val.toNat).putQ t a.q
      true).cellRead c.key t.uid).goesOn s h t)) ∧
    (c.st = .pending → execPoll h a s = .next ((s.putQ t a.q false).goesOn s h t)) ∧
    (c.st = .broken → execPoll h a s = .next (s.stoppedBy t (s.broken t c))) := by
  unfold execPoll
  refine ⟨fun hst => issue_ok false hA ?_, fun hst => issue_ok false hA ?_, fun hst => issue_stops hA ?_⟩
  · simp only [joinCell_names hn, hst, logged1_unlogged _ hlog]
    rfl
  · simp only [joinCell_names hn, hst, logged1_unlogged _ hlog]
    rfl
  · simp only [joinCell_names hn, hst, replayed_unlogged 4 hlog]
    rfl

/-- JOIN and POLL look for their cell alike: by its state each reads, waits or raises, and both trap where there is
none. -/
theorem joinsAndPollsRead : Rule.JoinsAndPollsRead := by
  refine ⟨fun h a s t hd c hA hhd hn => ?_, fun h a s t hd c j hA hhd hn hj => ?_,
    fun h a s t b hA hb hbad => ⟨(exec_join h a s).trans (issue_raise hA ?_),
      (exec_poll h b s).trans (issue_raise (hb ▸ hA) ?_)⟩⟩
  · subst hhd
    exact execJoin_names hA hn
  · subst hhd
    exact execPoll_names hA hn (unlogged_of_inJob hj)
  · simp only [joinCell_refused hbad]
  · simp only [hb, joinCell_refused hbad]

/-! ### FUTNEW (R166 to R168, R182) -/

/-- The generation that a cell allocated at a key gets. -/
def State.cellGen (s : State) (k : Nat) : BitVec 12 :=
  match s.cell? k with
  | some c => c.gen
  | none => 0

/-- The job of a task that records and replays nothing is not in replay. -/
theorem mode_ne_replay {s : State} {t : Task} (h : s.unlogged t) :
    ((s.job? t.job).map (·.rec_.mode) == some 2) = false := by
  unfold State.unlogged at h
  cases hj : s.job? t.job with
  | none => rfl
  | some j => rw [hj] at h; simp [h]

theorem execFutnewNew_allocates {h : Hdr} {a : FutnewArgs} {s s1 s2 : State} {t : Task} {k : Nat} {hd : BitVec 32}
    (hA : Acts s h t []) (hlog : s.unlogged t) (hfree : s.freeCell (dieOf t.core) = (some k, s1))
    (halloc : s1.allocCell t.job k (s1.cellGen k) = (hd, s2)) :
    execFutnewNew h a s = .next (((s2.putRegs t (s2.dst t a.d 1 0 hd.toNat)).putQ t a.q true).goesOn s h t) := by
  obtain rfl : (s1.allocCell t.job k (s1.cellGen k)).1 = hd := by rw [halloc]
  obtain rfl : (s1.allocCell t.job k (s1.cellGen k)).2 = s2 := by rw [halloc]
  unfold execFutnewNew
  refine issue_ok false hA ?_
  simp only [mode_ne_replay hlog, hfree, logged1_unlogged _ (unlogged_freeCell hlog hfree), Bool.false_eq_true, if_false]
  rfl

theorem execFutnewNew_refused {h : Hdr} {a : FutnewArgs} {s s1 : State} {t : Task} (hA : Acts s h t [])
    (hlog : s.unlogged t) (hfree : s.freeCell (dieOf t.core) = (none, s1)) :
    execFutnewNew h a s = .next (((s1.putRegs t (s1.dst t a.d 1 0 0)).putQ t a.q false).goesOn s h t) := by
  unfold execFutnewNew
  refine issue_ok false hA ?_
  simp only [mode_ne_replay hlog, hfree, logged1_unlogged _ (unlogged_freeCell hlog hfree), Bool.false_eq_true, if_false]
  rfl

theorem execFutnewFree_zero {h : Hdr} {a : SrcArgs} {s : State} {t : Task} (hA : Acts s h t (s.srcKeys t a.a 1 0))
    (h0 : BitVec.ofNat 32 (s.src t a.a .n32 0) = 0) : execFutnewFree h a s = .next (s.goesOn s h t) := by
  unfold execFutnewFree
  refine issue_ok false hA ?_
  simp only [h0, if_true]
  rfl

theorem execFutnewFree_resolved {h : Hdr} {a : SrcArgs} {s : State} {t : Task} {c : Cell}
    (hA : Acts s h t (s.srcKeys t a.a 1 0)) (h0 : BitVec.ofNat 32 (s.src t a.a .n32 0) ≠ 0)
    (hc : s.validCell t.job (BitVec.ofNat 32 (s.src t a.a .n32 0)) = some c) (hst : c.st = .ready ∨ c.st = .broken) :
    execFutnewFree h a s = .next ((s.cellFree c.key).goesOn s h t) := by
  unfold execFutnewFree
  refine issue_ok false hA ?_
  simp only [h0, if_false, hc]
  obtain hst | hst := hst
  · rw [hst]; rfl
  · rw [hst]; rfl

theorem execFutnewFree_bound {h : Hdr} {a : SrcArgs} {s : State} {t : Task} {c : Cell}
    (hA : Acts s h t (s.srcKeys t a.a 1 0)) (h0 : BitVec.ofNat 32 (s.src t a.a .n32 0) ≠ 0)
    (hc : s.validCell t.job (BitVec.ofNat 32 (s.src t a.a .n32 0)) = some c) (hst : c.st = .pending)
    (hb : c.bound ≠ .none) : execFutnewFree h a s = .next (s.traps t (raise0 .futureInvalid)) := by
  unfold execFutnewFree
  refine issue_raise hA ?_
  simp only [h0, if_false, hc, hst]
  cases hbound : c.bound with
  | none => exact absurd hbound hb
  | task | range | gate => rfl

/-! ### FULFIL (R183) -/

section
variable {s : State} {t : Task} {hd : BitVec 32} {c : Cell} (hc : s.validCell t.job hd = some c) (hst : c.st = .pending)
include hc hst

theorem fulfil_resolves (v : Nat) (hb : c.bound = .none) (hrel : s.released t = true) :
    s.fulfil t hd v = .ok (s.resolve t.uid hd (.ready (BitVec.ofNat 64 v))) := by
  simp [State.fulfil, hc, hst, hb, hrel]

theorem fulfil_waits (v : Nat) (hb : c.bound = .none) (hrel : s.released t = false) :
    s.fulfil t hd v = .error .hold := by
  simp [State.fulfil, hc, hst, hb, hrel]

theorem fulfil_latches (v : Nat) (hb : c.bound = .task t.uid) (hl : c.latched = none) :
    s.fulfil t hd v = .ok (s.setCell { c with latched := some (BitVec.ofNat 64 v) }) := by
  simp [State.fulfil, hc, hst, hb, hl]

end

/-- FULFIL goes on with what `State.fulfil` answers. -/
theorem execFulfil_ok {h : Hdr} {a : FulfilArgs} {s s' : State} {t : Task}
    (hA : Acts s h t (s.srcKeys t a.a 1 0 ++ s.srcKeys t a.b 2 0))
    (hok : s.fulfil t (BitVec.ofNat 32 (s.src t a.a .n32 0)) (s.src t a.b .n64 0) = .ok s') :
    execFulfil h a s = .next (s'.goesOn s h t) := by
  unfold execFulfil
  refine issue_ok false hA ?_
  simp only [hok]
  rfl

theorem execFulfil_stops {h : Hdr} {a : FulfilArgs} {s : State} {t : Task} {e : Halt}
    (hA : Acts s h t (s.srcKeys t a.a 1 0 ++ s.srcKeys t a.b 2 0))
    (he : s.fulfil t (BitVec.ofNat 32 (s.src t a.a .n32 0)) (s.src t a.b .n64 0) = .error e) :
    execFulfil h a s = .next (s.stoppedBy t e) := by
  unfold execFulfil
  refine issue_stops hA ?_
  simp only [he]

/-- FUTNEW and FULFIL: each branches on the cell it finds alone. -/
theorem futuresChange : Rule.FuturesChange := by
  refine ⟨fun h a s t j k s1 hA hj hfree hd s2 halloc => (exec_futnewNew h a s).trans
      (execFutnewNew_allocates hA (unlogged_of_inJob hj) hfree halloc),
    fun h a s t j s1 hA hj hfree => (exec_futnewNew h a s).trans
      (execFutnewNew_refused hA (unlogged_of_inJob hj) hfree),
    fun h a s t hd hA hhd => ?_, fun h a s t hd c v hA hhd hv hc hst => ?_⟩
  · subst hhd
    rw [exec_futnewFree]
    exact ⟨execFutnewFree_zero hA, fun c h0 hc hst => execFutnewFree_resolved hA h0 hc hst,
      fun c h0 hc hst hb => execFutnewFree_bound hA h0 hc hst hb⟩
  · subst hhd hv
    rw [exec_fulfil]
    exact ⟨fun hb hrel => execFulfil_ok hA (fulfil_resolves hc hst _ hb hrel),
      fun hb hrel => execFulfil_stops hA (fulfil_waits hc hst _ hb hrel),
      fun hb hl => execFulfil_ok hA (fulfil_latches hc hst _ hb hl)⟩

/-- Settles O31: JOIN and POLL branch on the state of the cell they name, and FUTNEW and FULFIL on that and on what it
is bound to; in normal mode no log stands between. -/
theorem futuresAct : Obligations.FuturesAct := ⟨joinsAndPollsRead, futuresChange⟩

end Sys2Proof.Machine
end

section
/-! Proofs. O32: TEND, TSELF, DEQD and CVSET (08_tasks R169, R173, R184 to R186). -/

namespace Sys2Proof.Machine

/-! ### The value that TEND.v leaves (R174, R184) -/

/-- What TEND.v does with its value before its task ends. -/
def State.leaveValue (s : State) (t : Task) (v : Nat) : M State :=
  if t.range.isSome && clFuture t.line != 0 then throwC .futureInvalid
  else if t.fut = 0 then (if t.handed then throwC .futureInvalid else .ok s)
  else s.fulfil t t.fut v

/-- A task that is no child of a range, or of one without a result future, leaves its value by itself. -/
theorem rangeFuture_none {t : Task} (h : t.range = none ∨ clFuture t.line = 0) :
    (t.range.isSome && clFuture t.line != 0) = false := by
  obtain h | h := h <;> simp [h]

theorem leaveValue_discards {s : State} {t : Task} (v : Nat) (hr : t.range = none ∨ clFuture t.line = 0)
    (hf : t.fut = 0) (hh : t.handed = false) : s.leaveValue t v = .ok s := by
  simp only [State.leaveValue, rangeFuture_none hr, hf, hh, Bool.false_eq_true, if_false, if_true]

theorem leaveValue_latches {s : State} {t : Task} {c : Cell} (v : Nat) (hr : t.range = none ∨ clFuture t.line = 0)
    (hf : t.fut ≠ 0) (hc : s.validCell t.job t.fut = some c) (hst : c.st = .pending) (hb : c.bound = .task t.uid)
    (hl : c.latched = none) :
    s.leaveValue t v = .ok (s.setCell { c with latched := some (BitVec.ofNat 64 v) }) := by
  simp only [State.leaveValue, rangeFuture_none hr, hf, fulfil_latches hc hst v hb hl, Bool.false_eq_true, if_false]

theorem leaveValue_refused {s : State} {t : Task} (v : Nat)
    (h : (t.range.isSome = true ∧ clFuture t.line ≠ 0) ∨ (t.fut = 0 ∧ t.handed = true)) :
    s.leaveValue t v = .error (.raise (raise0 .futureInvalid)) := by
  unfold State.leaveValue
  split
  · rfl
  next hr =>
    obtain ⟨hsome, hne⟩ | ⟨hf, hh⟩ := h
    · exact absurd (by rw [hsome, Bool.true_and, bne_iff_ne]; exact hne) hr
    · simp only [hf, hh, if_true]; rfl

/-! ### TEND and TEND.v (R169, R173, R184, 16_system R370) -/

theorem execTend_ends {h : Hdr} {s s' : State} {t : Task} (hA : Acts s h t []) (hend : endWarp s t = .ok s') :
    execTend h s = .next s' := by
  unfold execTend
  refine issue_done hA ?_
  simp only [hend]

theorem execTend_stops {h : Hdr} {s : State} {t : Task} {e : Halt} (hA : Acts s h t []) (hend : endWarp s t = .error e) :
    execTend h s = .next (s.stoppedBy t e) := by
  unfold execTend
  refine issue_stops hA ?_
  simp only [hend]

/-- TEND.v leaves its value and then does as TEND. -/
theorem execTendV_eq (h : Hdr) (a : SrcArgs) (s : State) :
    execTendV h a s = issue h s (fun t _ => s.srcKeys t a.a 2 0) fun s t _ =>
      match s.leaveValue t (s.src t a.a .n64 0) with
      | .error e => .error e
      | .ok s =>
        match endWarp s t with
        | .error e => .error e
        | .ok s => .error (.done s) := rfl

section
variable {h : Hdr} {a : SrcArgs} {s s1 : State} {t : Task} (hA : Acts s h t (s.srcKeys t a.a 2 0))
include hA

theorem execTendV_ends {s' : State} (hv : s.leaveValue t (s.src t a.a .n64 0) = .ok s1) (hend : endWarp s1 t = .ok s') :
    execTendV h a s = .next s' := by
  rw [execTendV_eq]
  refine issue_done hA ?_
  simp only [hv, hend]

/-- A TEND.v that leaves its value but may not end the task is stopped. -/
theorem execTendV_stops {e : Halt} (hv : s.leaveValue t (s.src t a.a .n64 0) = .ok s1) (hend : endWarp s1 t = .error e) :
    execTendV h a s = .next (s.stoppedBy t e) := by
  rw [execTendV_eq]
  refine issue_stops hA ?_
  simp only [hv, hend]

theorem execTendV_refused {e : Halt} (hv : s.leaveValue t (s.src t a.a .n64 0) = .error e) :
    execTendV h a s = .next (s.stoppedBy t e) := by
  rw [execTendV_eq]
  refine issue_stops hA ?_
  simp only [hv]

end

/-- TEND asks `endWarp` alone; TEND.v leaves its value first, and then ends as TEND does. -/
theorem tasksEnd : Rule.TasksEnd := by
  refine ⟨fun h s t hA ho hf => (exec_tend h s).trans (execTend_ends hA (endWarp_plain ho hf)),
    fun h s t f hA ho hf => (exec_tend h s).trans (execTend_ends hA (endWarp_trapTask ho hf)),
    fun h s t o hA ho => (exec_tend h s).trans (execTend_stops hA (endWarp_cohortOpen (by simp [ho]))),
    fun h a s t s1 hA hr hcase => ?_,
    fun h a s t hA hbad => (exec_tendV h a s).trans (execTendV_refused hA (leaveValue_refused _ hbad))⟩
  have hv : s.leaveValue t (s.src t a.a .n64 0) = .ok s1 := by
    obtain ⟨hf, hh, rfl⟩ | ⟨c, hf, hc, hst, hb, hl, rfl⟩ := hcase
    · exact leaveValue_discards _ hr hf hh
    · exact leaveValue_latches _ hr hf hc hst hb hl
  rw [exec_tendV]
  exact ⟨fun ho hf => execTendV_ends hA hv (endWarp_plain ho hf),
    fun f ho hf => execTendV_ends hA hv (endWarp_trapTask ho hf),
    fun ho => execTendV_stops hA hv (endWarp_cohortOpen ho)⟩

/-! ### TSELF, DEQD, CVSET (R185, R186) -/

theorem execDeqd_acts {h : Hdr} {a : DstArgs} {s : State} {t : Task} (hA : Acts s h t []) (hlog : s.unlogged t) :
    execDeqd h a s = .next ((s.putRegs t (s.dst t a.d 1 0 (s.occupancy t.core t.job))).goesOn s h t) := by
  unfold execDeqd
  refine issue_ok false hA ?_
  simp only [logged1_unlogged _ hlog]
  rfl

theorem execCvset_sets {h : Hdr} {a : CvsetArgs} {s : State} {t : Task} (hA : Acts s h t [])
    (hfree : (s.core t.core).cv? a.c.toNat = none) (hn : a.n.toNat + 1 ≤ (s.liveMembers t.cohort).length) :
    execCvset h a s = .next ((s.modCore t.core
      (·.setCv ⟨a.c.toNat, a.n.toNat + 1, t.cohort, none, [], [], none⟩)).goesOn s h t) := by
  unfold execCvset
  refine issue_ok false hA ?_
  simp only [hfree, Nat.not_lt.mpr hn, Bool.false_or, decide_false, Bool.false_eq_true, if_false]
  rfl

theorem execCvset_refused {h : Hdr} {a : CvsetArgs} {s : State} {t : Task} (hA : Acts s h t [])
    (hn : (s.liveMembers t.cohort).length < a.n.toNat + 1) :
    execCvset h a s = .next (s.traps t (raise0 .cvMismatch)) := by
  unfold execCvset
  refine issue_raise hA ?_
  simp only [hn, decide_true, Bool.or_true, if_true]
  rfl

theorem taskInstructionsRead : Rule.TaskInstructionsRead :=
  ⟨fun h a s _ hA => (exec_tself h a s).trans (issue_ok false hA rfl),
    fun h a s _ _ hA hj => (exec_deqd h a s).trans (execDeqd_acts hA (unlogged_of_inJob hj)),
    fun h a s _ hA hfree hn => (exec_cvset h a s).trans (execCvset_sets hA hfree hn),
    fun h a s _ hA hn => (exec_cvset h a s).trans (execCvset_refused hA hn)⟩

/-- Settles O32: TEND.v leaves its value and then ends as TEND and EXIT do, by `endWarp`; the others write what their
rule says of the state they find. -/
theorem tasksEndAndRead : Obligations.TasksEndAndRead := ⟨tasksEnd, taskInstructionsRead⟩

end Sys2Proof.Machine
end

section
/-! Proofs. O33: JLAUNCH, JWAIT and JYIELD (09_scheduling R203 to R205). -/

namespace Sys2Proof.Machine

/-- A task's job is found where it stands. -/
theorem withJob_found {s : State} {t : Task} {j : Job} (f : Job → M Eff) (hj : s.job? t.job = some j) :
    withJob s t f = f j := by
  simp only [withJob, hj]

/-! ### JLAUNCH (R203) -/

/-- A record that a load of it could read raises nothing. -/
theorem checkLanes_readable {s : State} {t : Task} {va : Nat} (h : s.recordBads t va = []) :
    checkLanes true [0] (fun _ => []) (fun _ => s.recordBads t va) = .ok () := by
  rw [h]; rfl

section
variable {h : Hdr} {a : JlaunchArgs} {s : State} {t : Task} {j : Job} (hA : Acts s h t (gKeys a.a.toNat 2))
  (hrec : s.recordBads t (s.src t (.g a.a) .n64 0) = [])
include hA hrec

theorem execJlaunch_tooDeep (hj : s.job? t.job = some j) (hd : j.depth = 16) :
    execJlaunch h a s = .next (s.traps t (raise0 .jobDepth)) := by
  unfold execJlaunch
  refine issue_raise hA ?_
  simp only [checkLanes_readable hrec, withJob_found _ hj, hd, if_true]
  rfl

/-- The record is read once all of it can be and the task's earlier accesses have performed; then the launch answers. -/
theorem execJlaunch_launches {va : Nat} {s1 s2 : State} {id : BitVec 32} {res : Nat}
    (hva : va = s.src t (.g a.a) .n64 0) (hj : s.job? t.job = some j)
    (hw : (pieces va 256).any (fun x => s.accessWaits t.core (s.ctxOf t) x.1) = false) (hrel : s.released t = true)
    (hd : j.depth ≠ 16) (hs1 : s1 = s.touchSpan t.core (s.ctxOf t) va 256) (hj1 : s1.inJob t j)
    (hl : s1.launchChild j (s1.recordBytesAt t va) none = (s2, id, res)) :
    execJlaunch h a s = .next ((((if res = 1 then (s1.launchChild j (s1.recordBytesAt t va) (some id)).1 else s1)
      |>.putPair t a.d (id.toNat + 2 ^ 32 * res)).putQ t a.q (res == 1)).goesOn s h t) := by
  subst hva hs1
  have hlog := unlogged_of_inJob hj1
  have hmode : j.rec_.mode ≠ 2 := by
    obtain ⟨-, hnormal⟩ := hj1
    simp [hnormal]
  unfold execJlaunch
  refine issue_ok false hA ?_
  simp only [checkLanes_readable hrec, withJob_found _ hj, hd, hw, hrel, hmode, hl,
    logged1_unlogged _ hlog, Bool.not_true, Bool.or_false, Bool.false_eq_true, if_false]
  rfl

end

/-! ### JWAIT (R204) -/

/-- The registers that a destination names are found in the task given, whatever a core drops of its copies. -/
theorem dst_acquire (s : State) (core : Nat) (keep : Option Nat) (t : Task) (op : Opnd) (k l v : Nat) :
    (s.acquire core keep).dst t op k l v = s.dst t op k l v := by
  have hr : ∀ key, (s.acquire core keep).readKey t key = s.readKey t key := fun key => by
    simp [State.acquire, State.readKey, State.readWide]
  cases op <;> simp [State.dst, State.opRegs, State.xval, hr]

section
variable {h : Hdr} {a : PollArgs} {s : State} {t : Task} (hA : Acts s h t (s.srcKeys t a.a 1 0)) (hlog : s.unlogged t)
include hA hlog

theorem execJwait_reaps {x : Job} (hc : s.childOf t (BitVec.ofNat 32 (s.src t a.a .n32 0)) = some x)
    (hst : x.st = .retired) :
    execJwait h a s = .next (((((s.acquire t.core none).putRegs t ((s.acquire t.core none).dst t a.d 1 0
      x.exitStatus)).putQ t a.q true).reap (BitVec.ofNat 32 (s.src t a.a .n32 0))).goesOn s h t) := by
  unfold execJwait
  refine issue_ok false hA ?_
  simp only [replayed_unlogged 9 hlog, hc, hst, logged1_unlogged _ hlog, dst_acquire, Option.any_none, Option.any_some,
    bne_self_eq_false, Option.isSome_some, Bool.false_eq_true, if_false, if_true]
  rfl

theorem execJwait_parks {x : Job} (hc : s.childOf t (BitVec.ofNat 32 (s.src t a.a .n32 0)) = some x)
    (hst : x.st ≠ .retired) (ho : t.opened = none) :
    execJwait h a s = .next (s.parkTask t.uid (.jwait (BitVec.ofNat 32 (s.src t a.a .n32 0)))) := by
  unfold execJwait
  refine issue_park hA ho ?_
  simp only [replayed_unlogged 9 hlog, hc, bne_iff_ne.mpr hst, Option.any_none, Option.any_some, Bool.false_eq_true,
    if_false, if_true]

theorem execJwait_noChild (hc : s.childOf t (BitVec.ofNat 32 (s.src t a.a .n32 0)) = none) :
    execJwait h a s = .next ((s.putQ t a.q false).goesOn s h t) := by
  unfold execJwait
  refine issue_ok false hA ?_
  simp only [replayed_unlogged 9 hlog, hc, logged1_unlogged _ hlog, Option.any_none, Option.isSome_none,
    Bool.false_eq_true, if_false]
  rfl

end

/-! ### JYIELD (R205) -/

theorem execJyield_yields {h : Hdr} {s s1 : State} {t : Task} {j : Job} (hA : Acts s h t [])
    (hj : s.job? t.job = some j) (hs1 : s1 = s.modJob j.id fun _ => j.yielded) :
    execJyield h s =
      .next ((if s1.pressed j.yielded then s1.softJob j.id false else s1).goesOn s h t) := by
  subst hs1
  unfold execJyield
  refine issue_ok false hA ?_
  simp only [withJob_found _ hj]
  rfl

/-- Settles O33: each is one issue, whose body finds its job or its child and does what their state asks; in normal mode
no log stands between. -/
theorem jobInstructionsAct : Obligations.JobInstructionsAct := by
  refine ⟨fun h a s t j va hA hva hj hrec hw hrel hd s1 s2 id res hs1 hj1 hl => ?_,
    fun h a s t j va hA hva hj hrec hd => ?_, fun h a s t j id hA hid hj => ?_, fun h s t j s1 hA hj hs1 => ?_⟩
  · rw [exec_jlaunch]
    exact execJlaunch_launches hA (hva ▸ hrec) hva hj.1 hw hrel hd hs1 hj1 hl
  · rw [exec_jlaunch]
    exact execJlaunch_tooDeep hA (hva ▸ hrec) hj hd
  · subst hid
    rw [exec_jwait]
    have hlog := unlogged_of_inJob hj
    refine ⟨fun x s1 hc hst hs1 => ?_, fun x hc hst ho => execJwait_parks hA hlog hc hst ho,
      execJwait_noChild hA hlog⟩
    subst hs1
    exact execJwait_reaps hA hlog hc hst
  · exact (exec_jyield h s).trans (execJyield_yields hA hj hs1)

end Sys2Proof.Machine
end

section
/-! Proofs. O53: how tasks are taken, staged, granted slots, moved, ended and stolen (09_scheduling R207 to R218,
11_consistency R245, R250). -/

namespace Sys2Proof.Machine

/-! ### Taking and staging (R207, R208, R250) -/

theorem execTaskTake_takes {s s1 : State} {core : Nat} (hm : s.mayTake core = true) (ht : s.takeable core = some s1) :
    execTaskTake core s =
      .next ((s1.ranked core rankTake).modCore core fun c => { c with lastTake := some s1.clk }) := by
  simp only [execTaskTake, hm, ht, Bool.not_true, Bool.false_eq_true, if_false]

section
variable {s : State} {u : Nat} {t : Task} (ht : s.task? u = some t) (hst : s.stagedAll t = true)
  (hn : s.heldNow t = false)
include ht hst hn

theorem execStagingComplete_runnable (hh : t.everHeld = false) :
    execStagingComplete u s = .next (s.toRunnable t) := by
  simp only [execStagingComplete, ht, hst, hn, hh, Bool.not_false, Bool.and_self, if_true]

theorem execRegionHoldReexamine_runnable (hh : t.everHeld = true) :
    execRegionHoldReexamine u s = .next (s.toRunnable t) := by
  simp only [execRegionHoldReexamine, ht, hst, hn, hh, Bool.not_false, Bool.and_self, if_true]

end

/-! ### Slots (R209) -/

/-- A choice takes the next pick where there is one, and otherwise nothing. -/
theorem pick_chose (s : State) (n : Nat) : s.chose (s.pick n).2 := by
  unfold State.pick
  cases hp : s.picks with
  | nil => exact .inl rfl
  | cons p l => exact .inr ⟨p, l, hp, rfl⟩

/-- An index modulo a list's length picks an element of it. -/
theorem pickMod_mem {α : Type} {l : List α} (hl : l ≠ []) (i : Nat) (d : α) : (pickMod l i).getD d ∈ l := by
  have hi : i % l.length < l.length := Nat.mod_lt _ (List.length_pos_iff.mpr hl)
  rw [pickMod, List.getElem?_eq_getElem hi, Option.getD_some]
  exact List.getElem_mem hi

theorem execSlotGrant_grants {s : State} {core : Nat} {t : Task} {slots : List Nat} (ha : s.awake core = true)
    (hg : s.nextGrant core = some (t, slots)) :
    execSlotGrant core s = .next ((s.pick slots.length).2.grantTo t
      ((pickMod slots (s.pick slots.length).1).getD progressSlot)) := by
  simp only [execSlotGrant, ha, hg, Bool.not_true, Bool.false_eq_true, if_false]

/-! ### Spinning, ending, gating (R211, R218, R245) -/

theorem execSpinExpired_expires {s : State} {u : Nat} {t : Task} (ht : s.task? u = some t) (hs : s.spins t = true)
    (he : t.spinExpired = false) : execSpinExpired u s = .next (s.setTask { t with spinExpired := true }) := by
  simp only [execSpinExpired, ht, hs, he, Bool.not_false, Bool.and_self, if_true]

theorem execSpinMove_moves {s s1 : State} {core : Nat} {t x : Task} (hv : s.spinVictim core = some t)
    (hs1 : s1 = (s.modCore core fun c => { c with lastSpin := some s.clk }).moveOut t.uid)
    (hx : s1.task? t.uid = some x) (hslot : x.slot = none) (hk : x.killedBy = none) :
    execSpinMove core s = .next ((s1.unwatch t.uid).setTask
      { x with st := .runnable, park := none, spinExpired := false, runnableAt := s1.clk }) := by
  subst hs1
  simp only [execSpinMove, hv, hx, hslot, hk, Option.isSome_none, Bool.or_self, Bool.false_eq_true, if_false]

theorem execEdgeActionsComplete_ends {s : State} {u : Nat} {t : Task} (ht : s.task? u = some t)
    (he : s.edgesDone t = true) : execEdgeActionsComplete u s = .next ((s.forwardLinesOf t).reachDone u) := by
  simp only [execEdgeActionsComplete, ht, he, if_true]

theorem execClockGate_gates {s : State} {core : Nat} (hq : s.quiet core = true) :
    execClockGate core s = .next (s.modCore core fun c => { c with gated := true }) := by
  simp only [execClockGate, hq, if_true]

/-! ### The thief (R213, R214, R217) -/

theorem execStealRound_begins {s : State} {core : Nat} (hf : s.agentFree core = true) (hd : s.crossDue core = false) :
    execStealRound core s = .next (s.modCore core (·.modAgent fun a =>
      { a with probing := localRound core, cross := false })) := by
  simp only [execStealRound, hf, hd, Bool.not_false, Bool.and_self, if_true]

theorem execCrossDieRound_begins {s : State} {core : Nat} (hf : s.agentFree core = true) (hd : s.crossDue core = true) :
    execCrossDieRound core s = .next (s.modCore core (·.modAgent fun a =>
      { a with probing := crossRound s.part (dieOf core), cross := true })) := by
  simp only [execCrossDieRound, hf, hd, Bool.and_self, if_true]

theorem execStealBackoffExpiry_expires {s : State} {core e : Nat} (hb : (s.core core).agent.backoff = some e)
    (he : e ≤ s.clk) :
    execStealBackoffExpiry core s = .next (s.modCore core (·.modAgent fun a => { a with backoff := none })) := by
  simp only [execStealBackoffExpiry, hb, he, if_true]

/-- The tasks whose lines an entry on its way brings. -/
def Entry.members : Entry → List Nat
  | .group _ ms => ms
  | .range _ _ _ _ => []

/-- A stolen line stands in the thief's ready list. -/
def State.arrive (s : State) (core u : Nat) : State :=
  s.modTask u fun t => { t with st := .staging, core := core, runnableAt := s.clk }

theorem execStealArrival_arrives {s : State} {core : Nat} {e : Entry} {es : List Entry}
    (ha : (s.core core).agent.arriving = e :: es) :
    execStealArrival core s = .next (e.members.foldl (·.arrive core ·)
      (s.modCore core (·.modAgent fun a => { a with arriving := es, failed := 0 }))) := by
  simp only [execStealArrival, ha]
  cases e <;> rfl

/-! ### The victim (R215, R216) -/

section
variable {s : State} {victim thief : Nat} (hp : s.probed thief = some victim)
  (hl : s.late victim (rankSteal thief) = false)
include hp hl

/-- A thief that is no longer idle ends its round. -/
theorem execStealProbeAnswer_busy (hi : s.idle thief = false) :
    execStealProbeAnswer victim thief s = .next (s.modCore thief (·.modAgent fun a => { a with probing := [] })) := by
  simp [execStealProbeAnswer, hp, hl, hi]

theorem execStealProbeAnswer_refuses (hi : s.idle thief = true)
    (ho : s.offered victim thief (s.core thief).agent.cross = none) :
    execStealProbeAnswer victim thief s = .next (s.probeRefused victim thief) := by
  simp [execStealProbeAnswer, hp, hl, hi, ho]

/-- A spilled entry is granted where its overflow area can be read. -/
theorem execStealProbeAnswer_grants {i : Nat} {e : Entry} (hi : s.idle thief = true)
    (ho : s.offered victim thief (s.core thief).agent.cross = some (i, e))
    (hok : i < (s.core victim).deque.length ∨ s.areaFault victim e.job = none) :
    execStealProbeAnswer victim thief s = .next (s.stealGrant victim thief i e) := by
  by_cases hspill : (s.core victim).deque.length ≤ i
  · have hnone := hok.resolve_left (Nat.not_lt.mpr hspill)
    simp [execStealProbeAnswer, hp, hl, hi, ho, hspill, hnone]
  · simp [execStealProbeAnswer, hp, hl, hi, ho, hspill]

theorem execStealProbeAnswer_faults {i : Nat} {e : Entry} {s1 : State} (hi : s.idle thief = true)
    (ho : s.offered victim thief (s.core thief).agent.cross = some (i, e)) (hspill : (s.core victim).deque.length ≤ i)
    (hf : s.areaFault victim e.job = some s1) : execStealProbeAnswer victim thief s = .next s1 := by
  simp [execStealProbeAnswer, hp, hl, hi, ho, hspill, hf]

end

/-- Settles O53: each event does what its condition allows; a grant leaves one choice, that of the slot, to the device.
-/
theorem tasksMoveThroughCores : Obligations.TasksMoveThroughCores := by
  refine ⟨fun s core s1 hm ht => (exec_taskTake core s).trans (execTaskTake_takes hm ht),
    fun s u t s1 ht hst hn hs1 => ?_, fun s core t slots ha hg hne => ?_,
    fun s u t ht hs he => (exec_spinExpired u s).trans (execSpinExpired_expires ht hs he),
    fun s core t s0 s1 x hv hs0 hs1 hx hslot hk =>
      (exec_spinMove core s).trans (execSpinMove_moves hv (hs0 ▸ hs1) hx hslot hk),
    fun s u t ht he => (exec_edgeActionsComplete u s).trans (execEdgeActionsComplete_ends ht he),
    fun s core hq => (exec_clockGate core s).trans (execClockGate_gates hq),
    fun s core hf => ⟨fun hd => (exec_stealRound core s).trans (execStealRound_begins hf hd),
      fun hd => (exec_crossDieRound core s).trans (execCrossDieRound_begins hf hd)⟩,
    fun s core e hb he => (exec_stealBackoffExpiry core s).trans (execStealBackoffExpiry_expires hb he),
    fun s victim thief hp hl hi => (exec_stealProbeAnswer victim thief s).trans (execStealProbeAnswer_busy hp hl hi),
    fun s victim thief hp hl hi => ?_, fun s core e us es ha hus s1 hs1 => ?_⟩
  · subst hs1
    exact ⟨fun hh => (exec_stagingComplete u s).trans (execStagingComplete_runnable ht hst hn hh),
      fun hh => (exec_regionHoldReexamine u s).trans (execRegionHoldReexamine_runnable ht hst hn hh)⟩
  · exact ⟨_, _, pickMod_mem hne _ _, pick_chose s slots.length,
      (exec_slotGrant core s).trans (execSlotGrant_grants ha hg)⟩
  · rw [exec_stealProbeAnswer]
    exact ⟨execStealProbeAnswer_refuses hp hl hi, fun i e ho hok => execStealProbeAnswer_grants hp hl hi ho hok,
      fun i e s1 ho hspill hf => execStealProbeAnswer_faults hp hl hi ho hspill hf⟩
  · obtain rfl : us = e.members := by rw [hus]; cases e <;> rfl
    subst hs1
    exact (exec_stealArrival core s).trans (execStealArrival_arrives ha)

end Sys2Proof.Machine
end

section
/-! Proofs. O54: jobs are launched, admitted, stopped by their budget, and retire (09_scheduling R190, R191, R194 to
R196, R199, R200). -/

namespace Sys2Proof.Machine

/-! ### Launches (R190) -/

theorem launchWrite_starts {s : State} {sys : Nat} (v : BitVec 64) (hsys : sys < s.part.sysCores)
    (hp : (s.sysSet sys).pendingAddr = none) :
    s.launchWrite sys v = s.setSys sys { s.sysSet sys with
      status := setField (s.sysSet sys).status 3 1 1, pendingAddr := some (64 * field v 6 42) } := by
  simp only [State.launchWrite, Nat.not_le.mpr hsys, hp, Option.isSome_none, Bool.false_eq_true, if_false]

theorem launchWrite_overruns {s : State} {sys a : Nat} (v : BitVec 64) (hsys : sys < s.part.sysCores)
    (hp : (s.sysSet sys).pendingAddr = some a) :
    s.launchWrite sys v = s.setSys sys { s.sysSet sys with status := setField (s.sysSet sys).status 4 1 1 } := by
  simp only [State.launchWrite, Nat.not_le.mpr hsys, hp, Option.isSome_some, if_false, if_true]

theorem launchRoot_bad {s : State} {pa : Nat} (sys : Nat) (hr : (s.launchRecord pa).bind s.goodRecord = none) :
    s.launchRoot sys pa = (s, 0, 3) := by
  simp only [State.launchRoot, hr]

theorem launchRoot_full {s : State} {pa : Nat} {r : JobRec × Line} (sys : Nat)
    (hr : (s.launchRecord pa).bind s.goodRecord = some r) (hq : s.queueFull = true) :
    s.launchRoot sys pa = (s, 0, 2) := by
  simp only [State.launchRoot, hr, hq, if_true]

theorem launchRoot_queues {s : State} {pa : Nat} {r : JobRec} {l : Line} (sys : Nat)
    (hr : (s.launchRecord pa).bind s.goodRecord = some (r, l)) (hq : s.queueFull = false) :
    s.launchRoot sys pa = ((({ s with lastRootId := s.rootId }).touchRoot r).enqueue (newJob s.rootId r l none 1 sys),
      s.rootId, 1) := by
  simp only [State.launchRoot, hr, hq, Bool.false_eq_true, if_false]

section
variable {s s1 : State} {sys pa : Nat} {id : BitVec 32} (hp : (s.sysSet sys).pendingAddr = some pa)
  (hready : s.launchReady pa = true)
include hp hready

/-- A launch in flight completes with the RESULT that `launchRoot` answers, and leaves JOB_ID where it queued no job. -/
theorem execJobLaunchComplete_refuses {res : Nat} (hl : s.launchRoot sys pa = (s1, id, res)) (hres : res ≠ 1) :
    execJobLaunchComplete sys s = .next ((s1.setSys sys { s.sysSet sys with
      pendingAddr := none, status := setField (setField (s.sysSet sys).status 3 1 0) 0 3 res }).irq 1) := by
  simp only [execJobLaunchComplete, hp, hready, hl, hres, Bool.not_true, Bool.false_eq_true, if_false]

theorem execJobLaunchComplete_launches (hl : s.launchRoot sys pa = (s1, id, 1)) :
    execJobLaunchComplete sys s = .next ((s1.setSys sys { s.sysSet sys with
      pendingAddr := none
      status := setField (setField (setField (s.sysSet sys).status 3 1 0) 0 3 1) 32 32 id.toNat }).irq 1) := by
  simp only [execJobLaunchComplete, hp, hready, hl, Bool.not_true, Bool.false_eq_true, if_false, if_true]

end

/-! ### JOB_RETIRED (R191) -/

theorem retiredRead_empty {s : State} {sys : Nat} (hr : (s.sysSet sys).retired = []) :
    s.retiredRead sys = { s with readData := 0 } := by
  simp only [State.retiredRead, hr]

theorem retiredRead_oldest {s : State} {sys : Nat} {r : BitVec 64} {rs : List (BitVec 64)}
    (hr : (s.sysSet sys).retired = r :: rs) :
    s.retiredRead sys = { (s.setSys sys { s.sysSet sys with retired := rs, overflow := false }).reap
        (BitVec.ofNat 32 (field r 32 32)) with
      readData := if (s.sysSet sys).overflow then setField r 30 1 1 else r } := by
  simp only [State.retiredRead, hr]

/-! ### Admission (R194, R195) -/

/-- The first job considered that may go now is the one that `admitFrom` comes to. -/
theorem admitFrom_image {s : State} {j : Job} (js : List Job) (ha : s.admissible j = true) (hp : s.pushLate j = false)
    (hi : j.image = true) : s.admitFrom j.id (j :: js) = s.admitJob j := by
  simp only [State.admitFrom, ha, hp, hi, Bool.not_true, Bool.false_eq_true, if_false, if_true]

theorem admitFrom_room {s s1 : State} {j : Job} (js : List Job) (ha : s.admissible j = true) (hp : s.pushLate j = false)
    (hi : j.image = false) (hroom : s.roomFor j.firstCore = (s1, true)) (hj : (s1.job? j.id).isSome = true) :
    s.admitFrom j.id (j :: js) = s1.admitJob j := by
  have hj' : (s1.job? j.id).isNone = false := by rw [← Option.not_isSome, hj]; rfl
  simp only [State.admitFrom, ha, hp, hi, hroom, hj', Bool.not_true, Bool.false_eq_true, if_false, if_true]

/-- A job that comes back from its image pushes no root. -/
theorem admitJob_image {s : State} {j : Job} (hi : j.image = true) :
    s.admitJob j = s.modJob j.id fun x => { x with
      st := if x.rootDone then .retiring else .active, remaining := x.rec_.budget, image := false,
      budgetStop := false } := by
  simp only [State.admitJob, hi, if_true]

theorem execAdmissionWaitLimit_over {s : State} (hw : s.waitOver = true) :
    execAdmissionWaitLimit s = .next { s with stuck := (s.firstJob.map (·.1)).toList ++ s.stuck } := by
  simp only [execAdmissionWaitLimit, hw, if_true]

/-! ### Budgets and retirement (R196, R199, R200) -/

/-- A spent budget traps the job's victim, and then every other task of the job leaves its slot. -/
theorem execBudgetExhausted_stops {s s1 s2 : State} {id : BitVec 32} {j : Job} {t : Task} (hj : s.job? id = some j)
    (hout : s.budgetOut j = true) (ht : s.budgetVictim id = some t)
    (hs1 : s1 = s.modJob id fun j => { j with budgetStop := true })
    (hs2 : s2 = s1.takeTrap t.uid (raise0 .budgetExhausted) .precise t.warp.pc (pair := s1.atPair t) (budget := true)) :
    execBudgetExhausted id s = .next ((s2.tasks.filter fun x =>
      x.job == id && x.slot.isSome && x.uid != t.uid).foldl (fun s x => s.leavesSlot x.uid) s2) := by
  subst hs1 hs2
  simp only [execBudgetExhausted, hj, hout, ht, Bool.not_true, Bool.false_eq_true, if_false]
  rfl

theorem execJobRetire_retires {s : State} {id : BitVec 32} {j : Job} (hj : s.job? id = some j)
    (hr : s.mayRetire j = true) : execJobRetire id s = .next ((s.retireJob j).settleCtx j.rec_.ctx) := by
  simp only [execJobRetire, hj, hr, if_true]

/-- Settles O54: a launch completes with what `launchRoot` answers, and `admitFrom` comes to the first job that may
leave the queue; the other events do what their condition allows. -/
theorem jobsComeAndGo : Obligations.JobsComeAndGo := by
  refine ⟨fun s sys v x hsys hx => ?_, fun s sys x pa hx hp hready => ?_, fun s sys x hx => ?_,
    fun s j js hc ha hp hi => ?_, fun s j js s1 hc ha hp hi hroom hj => ?_,
    fun s hw => (exec_admissionWaitLimit s).trans (execAdmissionWaitLimit_over hw),
    fun s j t s1 s2 hj hout ht hs1 hs2 =>
      (exec_budgetExhausted j.id s).trans (execBudgetExhausted_stops hj hout ht hs1 hs2),
    fun s j hj hr => (exec_jobRetire j.id s).trans (execJobRetire_retires hj hr)⟩
  · subst hx
    rw [exec_jobLaunch, execJobLaunch]
    exact ⟨fun hp => congrArg _ (launchWrite_starts v hsys hp),
      fun a hp => congrArg _ (launchWrite_overruns v hsys hp)⟩
  · subst hx
    rw [exec_jobLaunchComplete]
    refine ⟨fun hr => execJobLaunchComplete_refuses hp hready (launchRoot_bad sys hr) (by decide),
      fun r hr hq => execJobLaunchComplete_refuses hp hready (launchRoot_full sys hr hq) (by decide),
      fun r l st hr hq hst s1 hs1 => ?_⟩
    subst hst hs1
    exact execJobLaunchComplete_launches hp hready (launchRoot_queues sys hr hq)
  · subst hx
    rw [exec_jobRetiredRead, execJobRetiredRead]
    exact ⟨fun hr => congrArg _ (retiredRead_empty hr),
      fun r rs hr => ⟨_, congrArg _ (retiredRead_oldest hr), rfl, rfl⟩⟩
  · rw [exec_jobAdmit, execJobAdmit, hc, admitFrom_image js ha hp hi, admitJob_image hi]
  · rw [exec_jobAdmit, execJobAdmit, hc, admitFrom_room js ha hp hi hroom hj]

end Sys2Proof.Machine
end

section
/-! Proofs. What is common to the memory instructions: the checks of their lanes pass where no lane's access has a cause
(10_memory R228). -/

namespace Sys2Proof.Machine

/-! ### The checks of lanes (R228) -/

/-- Lanes without a cause raise nothing. -/
theorem checkLanes_clean {u : Bool} {lanes : List Nat} {regs bads : Nat → List Bad}
    (hregs : ∀ l ∈ lanes, regs l = []) (hbads : ∀ l ∈ lanes, bads l = []) : checkLanes u lanes regs bads = .ok () := by
  refine (congrArg (raiseLanes u) (List.filterMap_eq_nil_iff.mpr fun l hl => ?_)).trans (raiseLanes_nil u)
  simp only [hregs l hl, hbads l hl]
  rfl

/-- Clean accesses to global memory pass their checks and wait for no protected range (R228, 17_memsys R408). -/
theorem checkGlobal_clean {s : State} {h : Hdr} {t : Task} {k : AccKind} {window : Bool} {n : Nat}
    {ops : List (Opnd × Nat)} {addr : Nat → Nat} (hc : s.clean h t k window n ops addr) :
    s.checkGlobal t h k window n ops (s.actLanes h t) addr = .ok () := by
  have hready : ((workLanes h (s.actLanes h t)).any fun l =>
      (s.regBads t ops l).isEmpty && s.accessWaits t.core (s.ctxOf t) (addr l)) = false :=
    List.any_eq_false.mpr fun l hl => by simp [(hc l hl).2.2]
  unfold State.checkGlobal
  rw [hready]
  exact checkLanes_clean (fun l hl => (hc l hl).1) fun l hl => (hc l hl).2.1

/-- Clean accesses to the scratchpad pass their checks and meet no pending line (R226, R228). -/
theorem checkScratch_clean {s : State} {h : Hdr} {t : Task} {k : ScrKind} {n : Nat} {ops : List (Opnd × Nat)}
    {addr : Nat → Nat} (hc : s.cleanScratch h t k n ops addr) :
    s.checkScratch t h k n ops (s.actLanes h t) addr = .ok () := by
  have hsettled : (s.core t.core).pendingLines
      ((workLanes h (s.actLanes h t)).flatMap fun l => scratchLines (addr l) n) = [] := by
    refine List.filter_eq_nil_iff.mpr fun x hx => ?_
    obtain ⟨l, hl, hx⟩ := List.mem_flatMap.mp hx
    simpa using (hc l hl).2.2 x hx
  unfold State.checkScratch
  rw [checkLanes_clean (fun l hl => (hc l hl).1) fun l hl => (hc l hl).2.1, hsettled]
  rfl

/-- Clean accesses to a tile pass their checks, which give the name's record (R228, 13_tiles R287). -/
theorem checkTile_clean {s : State} {h : Hdr} {t : Task} {a : TileArgs} {store : Bool} {r : HRec}
    (hc : s.cleanTile h t a store r) : s.checkTile t h a store (s.actLanes h t) = .ok r := by
  obtain ⟨hr, hl⟩ := hc
  unfold State.checkTile
  rw [checkLanes_clean (fun l hm => (hl l hm).1) fun l hm => (hl l hm).2, hr]
  rfl

end Sys2Proof.Machine
end

section
/-! Proofs. O34: LD, LDA, ST and STRL (10_memory R229, R230, R234, R235, 11_consistency R256, R257, 16_system R366). -/

namespace Sys2Proof.Machine

/-! ### Loads (R234, R235) -/

section
variable {s s1 s2 : State} {t : Task} {h : Hdr} {a : MemArgs} {fresh : Bool} {ps : List Placed}
  (hc : s.clean h t .load true (tyBytes a.ty) [(a.base, 2), (a.idx, 1), (a.d, a.ty.regs)] (s.ea t a.base a.idx a.off))
  (hp : s.placeAll t (workLanes h (s.actLanes h t)) (s.ea t a.base a.idx a.off) = (s1, ps))
include hc hp

/-- A load of clean lanes that memory can deliver goes on with its values. -/
theorem loadGlobal_reads {s3 : State} {vals : List (Nat × Nat)}
    (hr : s1.readAll t fresh (tyBytes a.ty) ps = (s2, .ok vals))
    (hs3 : s3 = if fresh then s2.acquire t.core none else s2) :
    loadGlobal s t h a (s.actLanes h t) fresh =
      .ok ⟨s3.pushReturn t (s3.loadWrites t a.ty a.d vals) (barOf h.hint), none, true⟩ := by
  simp only [loadGlobal, checkGlobal_clean hc, hp, hr, hs3]

/-- A load of clean lanes that memory cannot deliver goes on without values, and its cause is posted (16_system R366). -/
theorem loadGlobal_posts {s3 : State} {c : Cause} {va : Nat}
    (hr : s1.readAll t fresh (tyBytes a.ty) ps = (s2, .error (c, va)))
    (hs3 : s3 = if fresh then s2.acquire t.core none else s2) :
    loadGlobal s t h a (s.actLanes h t) fresh =
      .ok ⟨(s3.pushReturn t [] (barOf h.hint)).post t.uid c va, none, true⟩ := by
  simp only [loadGlobal, checkGlobal_clean hc, hp, hr, hs3]

end

/-- What LD and LDA share: an instruction whose body is the global load. -/
theorem loadActs_of_loadGlobal {i : Hdr → MemArgs → Instr} {fresh : Bool}
    (hi : ∀ h a s, exec (i h a) s = issue h s (loadKeys h s a 2) fun s t lanes => loadGlobal s t h a lanes fresh) :
    LoadActs i fresh := by
  intro h a s t s1 ps s2 s3 hA hc hp hs3
  rw [hi]
  exact ⟨fun _ hr => issue_ok true hA (loadGlobal_reads hc hp hr hs3),
    fun _ _ hr => issue_ok true hA (loadGlobal_posts hc hp hr hs3)⟩

/-- LD and LDA. -/
theorem loadsReturn : Rule.LoadsReturn := ⟨loadActs_of_loadGlobal exec_ld, loadActs_of_loadGlobal exec_lda⟩

/-! ### Stores (R230, R234, R235) -/

section
variable {s s1 : State} {t : Task} {h : Hdr} {a : MemArgs} {release : Bool} {ps : List Placed} {es : List StoreEnt}
  (hc : s.clean h t .store true (tyBytes a.ty) [(a.base, 2), (a.idx, 1), (a.d, a.ty.regs)] (s.ea t a.base a.idx a.off))
include hc

/-- A releasing store is held while earlier accesses have still to perform (R235). -/
theorem storeGlobal_unreleased (hrel : s.released t = false) :
    storeGlobal s t h a (s.actLanes h t) true = .error .hold := by
  simp only [storeGlobal, checkGlobal_clean hc, hrel, Bool.not_false, Bool.and_self, if_true]

variable (hrel : release = true → s.released t = true)
  (hp : s.placeAll t (workLanes h (s.actLanes h t)) (s.ea t a.base a.idx a.off) = (s1, ps))
  (hes : es = storeEntries t.uid [] (ps.map fun p => (p.pa, bytesOf (tyBytes a.ty) (s.src t a.d a.ty p.lane))))
include hrel hp hes

/-- A store of clean lanes, its releases done, enters the buffer where it has room (R230). -/
theorem storeGlobal_enters (hroom : s.storeRoom t es.length = true) :
    storeGlobal s t h a (s.actLanes h t) release =
      .ok ⟨(s1.bufferStores t h es).noteStores t.uid (storesOf (tyBytes a.ty) ps), none, true⟩ := by
  have hgo : (release && !s.released t) = false := by cases release <;> simp_all
  subst hes
  simp only [storeGlobal, checkGlobal_clean hc, hgo, hp, hroom, Bool.not_true, Bool.false_eq_true, if_false]

/-- It is held where the buffer has no room. -/
theorem storeGlobal_full (hroom : s.storeRoom t es.length = false) :
    storeGlobal s t h a (s.actLanes h t) release = .error .hold := by
  have hgo : (release && !s.released t) = false := by cases release <;> simp_all
  subst hes
  simp only [storeGlobal, checkGlobal_clean hc, hgo, hp, hroom, Bool.not_false, Bool.false_eq_true, if_false, if_true]

end

/-- What ST and STRL share: an instruction whose body is the global store. -/
theorem storeActs_of_storeGlobal {i : Hdr → MemArgs → Instr} {release : Bool}
    (hi : ∀ h a s, exec (i h a) s = issue h s (storeKeys h s a 2) fun s t lanes => storeGlobal s t h a lanes release) :
    StoreActs i release := by
  intro h a s t s1 ps es hA hc hrel hp hes
  rw [hi]
  exact ⟨fun hroom => issue_ok true hA (storeGlobal_enters hc hrel hp hes hroom),
    fun hroom => issue_hold hA (storeGlobal_full hc hrel hp hes hroom)⟩

/-- ST and STRL. -/
theorem storesEnterTheBuffer : Rule.StoresEnterTheBuffer :=
  ⟨storeActs_of_storeGlobal exec_st, storeActs_of_storeGlobal exec_strl,
    fun h a s _ hA hc hrel => (exec_strl h a s).trans (issue_hold hA (storeGlobal_unreleased hc hrel))⟩

/-- Settles O34: the lanes' checks pass, so that a load is what it reads and a store what its entries find room for. -/
theorem loadsAndStoresAct : Obligations.LoadsAndStoresAct := ⟨loadsReturn, storesEnterTheBuffer⟩

end Sys2Proof.Machine
end

section
/-! Proofs. O36: LDS, STS, LDT and STT (10_memory R225, R226, R234, 13_tiles R287). -/

namespace Sys2Proof.Machine

/-- LDS of clean lanes returns the bytes of the scratchpad. -/
theorem execLds_acts {h : Hdr} {a : MemArgs} {s : State} {t : Task}
    (hA : Acts s h t (loadKeys h s a 1 t (s.actLanes h t)))
    (hc : s.cleanScratch h t .load (tyBytes a.ty) [(a.base, 1), (a.idx, 1), (a.d, a.ty.regs)]
      (s.scratchEa t a.base a.idx a.off)) :
    execLds h a s = .next ((s.pushReturn t (s.loadWrites t a.ty a.d ((workLanes h (s.actLanes h t)).map fun l =>
      (l, natOf (spTake (s.core t.core).scratch (s.scratchEa t a.base a.idx a.off l) (tyBytes a.ty)))))
      (barOf h.hint)).goesOn s h t true) := by
  unfold execLds
  refine issue_ok true hA ?_
  simp only [checkScratch_clean hc, Core.scratchBytes]

/-- STS of clean lanes lays their bytes down, lane by lane. -/
theorem execSts_acts {h : Hdr} {a : MemArgs} {s : State} {t : Task}
    (hA : Acts s h t (storeKeys h s a 1 t (s.actLanes h t)))
    (hc : s.cleanScratch h t .store (tyBytes a.ty) [(a.base, 1), (a.idx, 1), (a.d, a.ty.regs)]
      (s.scratchEa t a.base a.idx a.off)) :
    execSts h a s = .next ((s.modCore t.core fun c => (workLanes h (s.actLanes h t)).foldl (fun c l =>
      c.scratchPut (s.scratchEa t a.base a.idx a.off l) (bytesOf (tyBytes a.ty) (s.src t a.d a.ty l))) c).goesOn
        s h t) := by
  unfold execSts
  refine issue_ok false hA ?_
  simp only [checkScratch_clean hc, List.foldl_map]
  rfl

/-- LDT of clean lanes returns the bytes of the tile that its name maps. -/
theorem execLdt_acts {h : Hdr} {a : TileArgs} {s : State} {t : Task} {r : HRec}
    (hA : Acts s h t ((workLanes h (s.actLanes h t)).flatMap fun l => s.srcKeys t a.idx 1 l ++ dstReads a.d l))
    (hc : s.cleanTile h t a false r) :
    execLdt h a s = .next ((s.pushReturn t (s.loadWrites t a.ty a.d ((workLanes h (s.actLanes h t)).map fun l =>
      (l, natOf ((s.core t.core).tileBytes r (s.tileEa t a.idx a.off l) (tyBytes a.ty))))) (barOf h.hint)
      (some r.idx)).goesOn s h t true) := by
  unfold execLdt
  refine issue_ok true hA ?_
  simp only [checkTile_clean hc]

/-- STT of clean lanes lays their bytes down, lane by lane. -/
theorem execStt_acts {h : Hdr} {a : TileArgs} {s : State} {t : Task} {r : HRec}
    (hA : Acts s h t ((workLanes h (s.actLanes h t)).flatMap fun l =>
      s.srcKeys t a.idx 1 l ++ s.srcKeys t a.d a.ty.regs l))
    (hc : s.cleanTile h t a true r) :
    execStt h a s = .next ((s.modCore t.core fun c => (workLanes h (s.actLanes h t)).foldl (fun c l =>
      c.tilePut r (s.tileEa t a.idx a.off l) (bytesOf (tyBytes a.ty) (s.src t a.d a.ty l))) c).goesOn s h t) := by
  unfold execStt
  refine issue_ok false hA ?_
  simp only [checkTile_clean hc, List.foldl_map]
  rfl

/-- Settles O36: the lanes' checks pass, and behind them a load reads its place and a store writes it. -/
theorem localAccessesAct : Obligations.LocalAccessesAct :=
  ⟨fun h a s _ hA hc => (exec_lds h a s).trans (execLds_acts hA hc),
   fun h a s _ hA hc => (exec_sts h a s).trans (execSts_acts hA hc),
   fun h a s _ _ hA hc => (exec_ldt h a s).trans (execLdt_acts hA hc),
   fun h a s _ _ hA hc => (exec_stt h a s).trans (execStt_acts hA hc)⟩

end Sys2Proof.Machine
end

section
/-! Proofs. O38: FENCE and IFENCE (10_memory R236, R239, 11_consistency R257, R260). -/

namespace Sys2Proof.Machine

/-- An acquire that keeps nothing leaves, of the core's copies, the words that it owns alone (R260). -/
theorem acquire_l1 (c : Core) {l : L1Line} (hl : l ∈ (c.acquire none).l1) : l.valid = l.owned ∧ l.owned ≠ 0 := by
  obtain ⟨l0, -, h0⟩ := List.mem_filterMap.mp hl
  by_cases howned : l0.owned = 0
  · simp [howned] at h0
  · simp only [Option.isSome_none, Bool.false_and, Bool.false_eq_true, if_false, howned, Option.some.injEq] at h0
    subst h0
    exact ⟨rfl, howned⟩

/-- An instruction that goes on under a condition and is held without it, once it goes on. -/
theorem issue_waitFor {h : Hdr} {s s' : State} {t : Task} {ready : State → Task → Bool} {f : State → Task → State}
    (hA : Acts s h t []) (hr : ready s t = true) (hs' : f s t = s') :
    (issue h s (fun _ _ => []) fun s t _ => if ready s t then .ok (eff (f s t)) else .error .hold) =
      .next (s'.goesOn s h t) :=
  issue_ok false hA (by simp only [hr, if_true, hs']; rfl)

/-- The same while it is held. -/
theorem issue_waits {h : Hdr} {s : State} {t : Task} {ready : State → Task → Bool} {f : State → Task → State}
    (hA : Acts s h t []) (hr : ready s t = false) :
    (issue h s (fun _ _ => []) fun s t _ => if ready s t then .ok (eff (f s t)) else .error .hold) = .next s :=
  issue_hold hA (by simp only [hr, Bool.false_eq_true, if_false])

/-- Settles O38: each fence is one wait for what it orders, and then its effect. -/
theorem fencesOrder : Obligations.FencesOrder := by
  refine ⟨fun h s t hA hl => (exec_fenceAcq h s).trans (issue_waitFor hA hl rfl),
    fun h s t hA hl => (exec_fenceAcq h s).trans (issue_waits hA hl),
    fun h s t hA hr => (exec_fenceRel h s).trans (issue_waitFor hA hr rfl),
    fun h s t hA hr hl => (exec_fenceAcqrel h s).trans
      (issue_waitFor (ready := fun s t => s.released t && s.loadsBack t) hA (by simp [hr, hl]) rfl),
    fun h s t hA hr => (exec_ifence h s).trans (issue_waitFor hA hr rfl), fun i h s t hi hA hr => ?_,
    fun h s t hA hl => (exec_fenceAcqrel h s).trans
      (issue_waits (ready := fun s t => s.released t && s.loadsBack t) hA (by simp [hl])),
    fun c _ hl => acquire_l1 c hl⟩
  obtain rfl | rfl | rfl : i = .fenceRel h ∨ i = .fenceAcqrel h ∨ i = .ifence h := by simpa using hi
  · exact (exec_fenceRel h s).trans (issue_waits hA hr)
  · exact (exec_fenceAcqrel h s).trans
      (issue_waits (ready := fun s t => s.released t && s.loadsBack t) hA (by simp [hr]))
  · exact (exec_ifence h s).trans (issue_waits hA hr)

end Sys2Proof.Machine
end

section
/-! Proofs. O39: WAITV and PRES (10_memory R225, R226, R237, R238). -/

namespace Sys2Proof.Machine

/-! ### WAITV (R237) -/

section
variable {h : Hdr} {a : WaitvArgs} {s s1 s2 : State} {t : Task} {p : Placed} {v : Nat}
  (hA : Acts s h t ([kg a.base.toNat, kg (a.base.toNat + 1)] ++ s.srcKeys t a.c (waitvTy a).regs 0))
  (hc : s.clean h t .load false (tyBytes (waitvTy a)) [(a.c, (waitvTy a).regs), (a.d, (waitvTy a).regs)]
    fun _ => waitvEa s t a)
  (hp : s.placeAll t [0] (fun _ => waitvEa s t a) = (s1, [p])) (hs2 : s2 = s1.unwatch t.uid)
  (hr : (s2.readAll t true (tyBytes (waitvTy a)) [p]).2 = .ok [(0, v)])
include hA hc hp hs2 hr

/-- WAITV whose comparison holds goes on with the value it read, as an acquire. -/
theorem execWaitv_holds (hlog : s2.unlogged t) (hcmp : cmpNat a.cmp v (s.src t a.c (waitvTy a) 0) = true) :
    execWaitv h a s = .next ((((s2.noteSight t.uid (s2.sights t true (tyBytes (waitvTy a)) [p])).putRegs t
      (s2.dst t a.d (waitvTy a).regs 0 v)).acquire t.core none).goesOn s h t) := by
  subst hs2
  unfold execWaitv
  refine issue_ok false hA ?_
  simp only [checkGlobal_clean hc, hp, hr, hcmp, if_true, logged1_unlogged _ hlog, State.noteSight, dst_modTask]
  rfl

/-- WAITV whose comparison fails parks, and its word is watched. -/
theorem execWaitv_parks (hcmp : cmpNat a.cmp v (s.src t a.c (waitvTy a) 0) = false) (ho : t.opened = none) :
    execWaitv h a s = .next (({ s2 with watches := s2.watches ++
      [Watch.mk t.uid p.pa (tyBytes (waitvTy a)) false] } : State).parkTask t.uid .waitv) := by
  subst hs2
  unfold execWaitv
  refine issue_parkIn hA ho ?_
  simp only [checkGlobal_clean hc, hp, hr, hcmp, Bool.false_eq_true, if_false]

end

/-! ### PRES (R238) -/

/-- The lines that a PRES names (R238). -/
def presNamed (off : Nat) (n : BitVec 5) : List Nat := (List.range (n.toNat + 1)).map (off / 128 + ·)

section
variable {s : State} {t : Task} {o : Opnd} {n : BitVec 5} (halign : s.src t o .n32 0 % 128 = 0)
  (hfits : s.src t o .n32 0 + 128 * (n.toNat + 1) ≤ 524288)
include halign hfits

/-- PRES.TEST, .SET and .CLR look at the lines alone. -/
theorem presLines_named : s.presLines t o n false = .ok (presNamed (s.src t o .n32 0) n) := by
  simp only [State.presLines, halign, ne_eq, not_true_eq_false, if_false, scratchSize, Nat.not_lt.mpr hfits,
    Bool.false_and, Bool.false_eq_true, presNamed]

/-- PRES.WAIT waits for lines of which none is absent. -/
theorem presLines_filling (hfill : ∀ x ∈ presNamed (s.src t o .n32 0) n, (s.core t.core).lineSt x ≠ .absent) :
    s.presLines t o n true = .ok (presNamed (s.src t o .n32 0) n) := by
  have hany : ((presNamed (s.src t o .n32 0) n).any fun x => (s.core t.core).lineSt x == .absent) = false :=
    List.any_eq_false.mpr fun x hx => by simpa using hfill x hx
  unfold presNamed at hany ⊢
  simp only [State.presLines, halign, ne_eq, not_true_eq_false, if_false, scratchSize, Nat.not_lt.mpr hfits,
    Bool.true_and, hany, Bool.false_eq_true]

/-- An absent line could never be filled: PRES.WAIT traps (R226). -/
theorem presLines_absent (habs : ∃ x ∈ presNamed (s.src t o .n32 0) n, (s.core t.core).lineSt x = .absent) :
    s.presLines t o n true = .error (.raise ⟨.scratchBounds, s.src t o .n32 0, 0, 0, none⟩) := by
  have hany : ((presNamed (s.src t o .n32 0) n).any fun x => (s.core t.core).lineSt x == .absent) = true :=
    List.any_eq_true.mpr (by simpa using habs)
  unfold presNamed at hany
  simp only [State.presLines, halign, ne_eq, not_true_eq_false, if_false, scratchSize, Nat.not_lt.mpr hfits,
    Bool.true_and, hany, if_true]

variable {h : Hdr} (hA : Acts s h t (s.srcKeys t o 1 0))
include hA

theorem execPresTest_acts (d : Opnd) :
    execPresTest h ⟨d, o, n⟩ s = .next ((s.putRegs t (s.dst t d 1 0 ((presNamed (s.src t o .n32 0) n).foldr
      (fun x acc => (if (s.core t.core).lineSt x = .present then 1 else 0) + 2 * acc) 0))).goesOn s h t) := by
  have hbit : ∀ x, ((s.core t.core).lineSt x == .present).toNat = if (s.core t.core).lineSt x = .present then 1 else 0 :=
    fun x => by cases (s.core t.core).lineSt x <;> rfl
  unfold execPresTest
  refine issue_ok false hA ?_
  simp only [presLines_named halign hfits, List.foldr_map, hbit]
  rfl

theorem execPresSet_acts :
    execPresSet h ⟨o, n⟩ s = .next ((s.modCore t.core
      (·.markLines .present (presNamed (s.src t o .n32 0) n))).goesOn s h t) := by
  unfold execPresSet
  refine issue_ok false hA ?_
  simp only [presLines_named halign hfits]
  rfl

theorem execPresClr_acts :
    execPresClr h ⟨o, n⟩ s = .next ((s.modCore t.core
      (·.markLines .absent (presNamed (s.src t o .n32 0) n))).goesOn s h t) := by
  unfold execPresClr
  refine issue_ok false hA ?_
  simp only [presLines_named halign hfits]
  rfl

/-- PRES.WAIT of present lines goes on. -/
theorem execPresWait_present (hpres : ∀ x ∈ presNamed (s.src t o .n32 0) n, (s.core t.core).lineSt x = .present) :
    execPresWait h ⟨o, n⟩ s = .next (s.goesOn s h t) := by
  have hnone : (s.core t.core).pendingLines (presNamed (s.src t o .n32 0) n) = [] :=
    List.filter_eq_nil_iff.mpr fun x hx => by simp [hpres x hx]
  unfold execPresWait
  refine issue_ok false hA ?_
  simp only [presLines_filling halign hfits fun x hx => by simp [hpres x hx], hnone]
  rfl

/-- PRES.WAIT parks on the lines that are pending. -/
theorem execPresWait_parks (hfill : ∀ x ∈ presNamed (s.src t o .n32 0) n, (s.core t.core).lineSt x ≠ .absent)
    {pend : List Nat} (hpend : (s.core t.core).pendingLines (presNamed (s.src t o .n32 0) n) = pend) (hne : pend ≠ [])
    (ho : t.opened = none) : execPresWait h ⟨o, n⟩ s = .next (s.parkTask t.uid (.lines pend.eraseDups)) := by
  have hempty : pend.isEmpty = false := by simpa using hne
  unfold execPresWait
  refine issue_park hA ho ?_
  simp only [presLines_filling halign hfits hfill, hpend, parkLines, hempty, Bool.false_eq_true, if_false]

theorem execPresWait_traps
    (habs : ∃ x ∈ presNamed (s.src t o .n32 0) n, (s.core t.core).lineSt x = .absent) :
    execPresWait h ⟨o, n⟩ s = .next (s.traps t ⟨.scratchBounds, s.src t o .n32 0, 0, 0, none⟩) := by
  unfold execPresWait
  refine issue_raise hA ?_
  simp only [presLines_absent halign hfits habs]

end

/-- Settles O39: WAITV branches on its comparison, each PRES on the states of the lines it names. -/
theorem waitsAndPresence : Obligations.WaitsAndPresence := by
  refine ⟨fun h a s t j s1 p s2 v hA _ _ hc hp hs2 hj hr => ?_, fun h s t o n off hoff hA halign hfits ls hls => ?_⟩
  · rw [exec_waitv]
    refine ⟨execWaitv_holds hA hc hp hs2 hr (unlogged_of_inJob hj), fun hcmp ho s3 hs3 => ?_⟩
    rw [hs3]
    exact execWaitv_parks hA hc hp hs2 hr hcmp ho
  · subst hoff
    obtain rfl : ls = presNamed (s.src t o .n32 0) n := hls
    rw [exec_presSet, exec_presClr, exec_presWait]
    exact ⟨fun d => (exec_presTest h _ s).trans (execPresTest_acts halign hfits hA d),
      execPresSet_acts halign hfits hA, execPresClr_acts halign hfits hA, execPresWait_present halign hfits hA,
      fun pend hpend hne hfill ho => execPresWait_parks halign hfits hA hfill hpend.symm hne ho,
      execPresWait_traps halign hfits hA⟩

end Sys2Proof.Machine
end

section
/-! Proofs. O35: a store whose translations push an old leaf out of the core's TLB, so that a later lane of the same
instruction walks, and claims a page anew (17_memsys R402, R405). -/

namespace Sys2Proof.Machine

/-- A cached leaf of the page at 0x20000, older than the page's entry in memory. -/
def oldLeaf : TlbEnt := ⟨0, 0x20000, 65536, 0x20000, 8, true, true, true, 3⟩

/-- A cached leaf of another context. -/
def otherLeaf : TlbEnt := ⟨1, 0, 65536, 0, 8, true, true, true, 3⟩

/-- A task with two lanes, one with the address 0x10000 in v0:v1, one with 0x20000, both in a SYNC region. -/
def twoPages (t : Task) : Task :=
  { t with warp := { t.warp with live := 3, active := 3, v := [(0, 0x10000), (1, 0x20000)] },
           regions := [⟨0x10000, 0x20000, .sync, 0, 0⟩] }

/-- The core's TLB is full and `oldLeaf` its oldest leaf; the leaf of the page at 0x10000 stands in the die's TLB alone.
One table, at 0, serves every level of the walk; its entry for the page at 0x20000 stands at 16 and has ZFU set. -/
def fullTlb : State :=
  { sceneWith twoPages id (fun c => { c with tlb := List.replicate 63 otherLeaf ++ [oldLeaf] }) with
    dieTlb := [(0, placeLeaf)], hbm := [(0, 1), (16, 0x1F), (18, 2), (23, 0x88)] }

/-- A store of zeros at v0:v1. -/
def storeAtV0 : MemArgs := ⟨.n32, .zero, .v 0, .zero, 0⟩

theorem acts_fullTlb (keys : List RKey) : Acts fullTlb hL (twoPages hero) keys :=
  acts_of false 1 keys (show fullTlb.curTask = _ by decide) rfl (by decide)

/-- A leaf that the caches hold needs no walk, and its page counts as claimed. -/
theorem foundLeaf_cached {s : State} {core ctx va : Nat} {e : TlbEnt} (hva : va < 2 ^ 48)
    (hroot : (spGet s.mregs.root ctx).getLsbD 0 = true) (he : s.cachedLeaf core ctx va = some e) :
    s.foundLeaf core ctx va = .ok ⟨e, false, 0⟩ := by
  simp only [State.foundLeaf, hroot, he, Nat.not_le.mpr hva, decide_false, Bool.not_true, Bool.or_false,
    Bool.false_eq_true, if_false]

/-- Both pages are mapped by cached leaves, and a cached leaf's page counts as claimed. -/
theorem claimed_fullTlb : fullTlb.claimed (twoPages hero) [0x10000, 0x20000] := by
  intro a ha
  obtain rfl | rfl : a = 0x10000 ∨ a = 0x20000 := by simpa using ha
  · exact ⟨_, foundLeaf_cached (e := placeLeaf) (by decide) (by decide) (by decide +kernel), rfl⟩
  · exact ⟨_, foundLeaf_cached (e := oldLeaf) (by decide) (by decide) (by decide +kernel), rfl⟩

theorem clean_fullTlb : fullTlb.clean hL (twoPages hero) .store true 4 [(.v 0, 2), (.zero, 1), (.zero, 1)]
    (fullTlb.ea (twoPages hero) (.v 0) .zero 0) := by
  unfold State.clean
  decide +kernel

/-- The store claims the page at 0x20000: ZFU of its entry, the highest bit of the byte at 23, is cleared. -/
theorem store_fullTlb_claims :
    nextIs (exec (.st hL storeAtV0) fullTlb) (fun s => s.memByte 23 != fullTlb.memByte 23) = true := by
  decide +kernel

/-- Refutes O35: that every page is mapped by a cached leaf does not keep its entry from being read again. The first
lane's leaf pushes the second lane's, the oldest, out of the full TLB; the second lane then walks to an entry whose ZFU
is set, and claims its page, which changes bytes of memory. -/
theorem not_storeIssueFrame : ¬ Obligations.StoreIssueFrame := by
  intro hframe
  obtain ⟨s', -, hexec, -, hmem, -⟩ := hframe hL storeAtV0 fullTlb (twoPages hero) (.st hL storeAtV0) (.inl rfl)
    (acts_fullTlb _) clean_fullTlb claimed_fullTlb (by decide) (by decide) rfl
    ⟨by decide, by decide, by decide, by decide, by decide⟩
  have hclaims := store_fullTlb_claims
  rw [hexec] at hclaims
  simp [nextIs, hmem] at hclaims

end Sys2Proof.Machine
end

section
/-! Proofs. Bytes of numbers and of memory: the byte of a number that bytes hold, of a cache word under a mask, and of a
store-buffer entry (10_memory R223, R230, 17_memsys R398). -/

namespace Sys2Proof.Machine

/-- Byte `i` of the number that bytes hold. -/
theorem natOf_byte (bs : List Byte) (i : Nat) : BitVec.ofNat 8 (natOf bs / 256 ^ i) = bs[i]?.getD 0 := by
  induction bs generalizing i with
  | nil => simp [natOf]
  | cons b bs ih =>
    have hb := b.isLt
    cases i with
    | zero =>
      apply BitVec.eq_of_toNat_eq
      simp only [natOf, Nat.pow_zero, Nat.div_one, BitVec.toNat_ofNat, List.getElem?_cons_zero, Option.getD_some]
      omega
    | succ i =>
      have hshift : natOf (b :: bs) / 256 ^ (i + 1) = natOf bs / 256 ^ i := by
        rw [Nat.pow_succ', ← Nat.div_div_eq_div_mul]
        congr 1
        simp only [natOf]
        omega
      rw [hshift, ih, List.getElem?_cons_succ]

theorem natOf_lt (bs : List Byte) : natOf bs < 256 ^ bs.length := by
  induction bs with
  | nil => simp [natOf]
  | cons b bs ih =>
    have hb := b.isLt
    simp only [natOf, List.length_cons, Nat.pow_succ]
    omega

/-- Bit `j` of byte `i` of the number that bytes hold. -/
theorem testBit_natOf (bs : List Byte) {i j : Nat} (hj : j < 8) :
    (natOf bs).testBit (8 * i + j) = (bs[i]?.getD 0).getLsbD j := by
  rw [← natOf_byte, BitVec.getLsbD_ofNat, show (256 : Nat) ^ i = 2 ^ (8 * i) by rw [Nat.pow_mul], Nat.testBit_div_two_pow]
  simp [hj, Nat.add_comm]

theorem spTake_eq_map {w : Nat} (m : Sparse w) (a n : Nat) : spTake m a n = (List.range n).map fun i => spGet m (a + i) := by
  induction n generalizing a with
  | zero => rfl
  | succ n ih =>
    rw [spTake, ih, List.range_succ_eq_map, List.map_cons, List.map_map]
    exact congrArg _ (List.map_congr_left fun i _ => by simp [Nat.add_assoc, Nat.add_comm 1])

theorem memBytes_eq_map (s : State) (pa n : Nat) : s.memBytes pa n = (List.range n).map fun i => s.memByte (pa + i) := by
  induction n generalizing pa with
  | zero => rfl
  | succ n ih =>
    rw [State.memBytes, ih, List.range_succ_eq_map, List.map_cons, List.map_map]
    exact congrArg _ (List.map_congr_left fun i _ => by simp [Nat.add_assoc, Nat.add_comm 1])

/-- A byte of a number in memory. -/
theorem spNat_byte (m : Memory) (a : Nat) {i n : Nat} (hi : i < n) :
    BitVec.ofNat 8 (spNat m a n / 256 ^ i) = spGet m (a + i) := by
  simp [spNat, natOf_byte, spTake_eq_map, hi]

/-- A word with a mask laid over it holds the new byte where the mask has it (R398). -/
theorem overlay_eq_natOf (mask : BitVec 4) (new old : Nat) : overlay mask new old =
    natOf ((List.range 4).map fun i => BitVec.ofNat 8 ((if mask.getLsbD i then new else old) / 256 ^ i)) := by
  have hdigit : ∀ i, (if mask.getLsbD i then new / 256 ^ i % 256 else old / 256 ^ i % 256) =
      (if mask.getLsbD i then new else old) / 256 ^ i % 256 := fun i => by split <;> rfl
  simp only [overlay, hdigit, List.range_succ, List.range_zero, List.nil_append, List.cons_append, List.foldl_cons,
    List.foldl_nil, List.map_cons, List.map_nil, natOf, BitVec.toNat_ofNat]
  omega

theorem overlay_byte (mask : BitVec 4) (new old : Nat) {i : Nat} (hi : i < 4) :
    BitVec.ofNat 8 (overlay mask new old / 256 ^ i) =
      BitVec.ofNat 8 ((if mask.getLsbD i then new else old) / 256 ^ i) := by
  simp [overlay_eq_natOf, natOf_byte, hi]

theorem overlay_lt (mask : BitVec 4) (new old : Nat) : overlay mask new old < 2 ^ 32 := by
  rw [overlay_eq_natOf]
  exact Nat.lt_of_lt_of_eq (natOf_lt _) (by simp)

end Sys2Proof.Machine
end

section
/-! Proofs. O52: what a load sees (10_memory R223, R230, 11_consistency R244, R256). -/

namespace Sys2Proof.Machine

/-! ### The store buffer's view (R223, R230) -/

/-- A task without an entry sees no buffered byte. -/
theorem bufferedByte_none {u pa : Nat} {es : List StoreEnt} (h : ∀ e ∈ es, e.owner = u → e.byte pa = none) :
    bufferedByte u pa es = none := by
  induction es with
  | nil => rfl
  | cons e es ih =>
    rw [bufferedByte, ih fun x hx => h x (List.mem_cons_of_mem _ hx)]
    by_cases he : e.owner = u
    · simp [he, h e List.mem_cons_self he]
    · simp [he]

/-- The task's last entry that holds a byte decides it, whatever stands before and beside it. -/
theorem bufferedByte_latest {u pa : Nat} {e : StoreEnt} {b : Byte} (es : List StoreEnt) {later : List StoreEnt}
    (ho : e.owner = u) (hb : e.byte pa = some b) (hlater : ∀ x ∈ later, x.owner = u → x.byte pa = none) :
    bufferedByte u pa (es ++ e :: later) = some b := by
  induction es with
  | nil => simp [bufferedByte, bufferedByte_none hlater, ho, hb]
  | cons x es ih => simp [bufferedByte, ih]

/-- A bit of a block of `n` ones from bit `lo`. -/
theorem testBit_ones_shifted (n lo k : Nat) : ((2 ^ n - 1) * 2 ^ lo).testBit k = decide (lo ≤ k ∧ k < lo + n) := by
  rw [Nat.mul_comm, Nat.testBit_two_pow_mul, Nat.testBit_two_pow_sub_one, Bool.eq_iff_iff]
  simp only [Bool.and_eq_true, decide_eq_true_eq]
  omega

/-- Bytes laid over an entry read back. -/
theorem byte_put {e : StoreEnt} {pa i : Nat} {bs : List Byte} (hline : pa / 128 = e.line)
    (hfits : pa % 128 + bs.length ≤ 128) (hi : i < bs.length) :
    (e.put pa bs).byte (pa + i) = some (bs[i]?.getD 0) := by
  have hdiv : (pa + i) / 128 = pa / 128 := by omega
  have hmod : (pa + i) % 128 = pa % 128 + i := by omega
  have hmask : (e.put pa bs).mask.getLsbD ((pa + i) % 128) = true := by
    simp only [StoreEnt.put, BitVec.getLsbD_or, BitVec.getLsbD_ofNat, testBit_ones_shifted]
    simp; omega
  have hdata : (e.put pa bs).data.extractLsb' (8 * ((pa + i) % 128)) 8 = bs[i]?.getD 0 := by
    apply BitVec.eq_of_getLsbD_eq
    intro j hj
    have hbit : 8 * ((pa + i) % 128) + j = 8 * (pa % 128) + (8 * i + j) := by omega
    simp only [StoreEnt.put, BitVec.getLsbD_extractLsb', BitVec.getLsbD_or, BitVec.getLsbD_and, BitVec.getLsbD_not,
      BitVec.getLsbD_ofNat, testBit_ones_shifted, Nat.mul_comm (natOf bs), Nat.testBit_two_pow_mul, hbit,
      Nat.add_sub_cancel_left, testBit_natOf bs hj]
    have h1 : 8 * (pa % 128) + (8 * i + j) < 1024 := by omega
    have h2 : 8 * i + j < 8 * bs.length := by omega
    simp [h1, h2, hj]
  rw [StoreEnt.byte, hdata, if_pos ⟨hline.symm.trans hdiv.symm, hmask⟩]

/-! ### The bytes of a load (R244, R256) -/

/-- The moment that a load sees such bytes at lies between its floor and the task's take (R244). -/
theorem priorMoment_bounds (s : State) (t : Task) (lane pa n : Nat) :
    s.priorFloor t pa n ≤ s.priorMoment t lane pa n ∧
      s.priorMoment t lane pa n ≤ max t.takenAt (s.priorFloor t pa n) := by
  unfold State.priorMoment
  dsimp only
  split
  · omega
  · have hfree : Config.free s.tick (2 ^ 52 + lane) % (t.takenAt - s.priorFloor t pa n + 1) ≤
        t.takenAt - s.priorFloor t pa n := Nat.lt_succ_iff.mp (Nat.mod_lt _ (Nat.succ_pos _))
    exact ⟨Nat.le_add_right _ _, Nat.le_trans (Nat.add_le_add_left hfree _) (by omega)⟩

section
variable {s : State} {t : Task} {pa n i : Nat} (hfits : pa + n ≤ s.memTop) (hi : i < n)
include hfits hi

theorem placeOf_hbm : s.placeOf (pa + i) = .hbm := by
  rw [State.placeOf, if_pos (by omega)]

/-- A byte of a task without a buffered store, on a core without a copy of its line, is that of coherent memory. -/
theorem loadByte_coherent (fresh : Bool) (hbuf : ∀ e ∈ (s.core t.core).drained ++ (s.core t.core).storeBuf, e.owner ≠ t.uid)
    (hl1 : ∀ l ∈ (s.core t.core).l1, l.line < pa / 128 ∨ (pa + n) / 128 < l.line) :
    s.loadByte t fresh (pa + i) = s.memByte (pa + i) := by
  have hnocopy : (s.core t.core).l1.find? (·.line == (pa + i) / 128) = none :=
    List.find?_eq_none.mpr fun l hl => by have := hl1 l hl; simp; omega
  simp only [State.loadByte, bufferedByte_none fun e he ho => absurd ho (hbuf e he), placeOf_hbm hfits hi]
  cases fresh with
  | true => rfl
  | false => simp [State.coreByte, hnocopy]

end

/-- What a load sees: its own latest store, else coherent memory, but for what R244 lets be older. -/
theorem loadsSeeStoresInOrder : Rule.LoadsSeeStoresInOrder := by
  refine ⟨fun s t fresh pa e es later b hes ho hb hlater => ?_, fun s t fresh lane va pa n hfits hbuf hl1 => ?_,
    fun e pa bs i hline hfits hi => byte_put hline hfits hi⟩
  · simp only [State.loadByte, hes, bufferedByte_latest es ho hb hlater]
  · have hbyte : ∀ i, i < n → s.loadByte t fresh (pa + i) = s.memByte (pa + i) := fun i hi =>
      loadByte_coherent hfits hi fresh hbuf hl1
    refine ⟨fun hf => ?_, fun hf => ⟨s.priorMoment t lane pa n, (priorMoment_bounds s t lane pa n).1,
      (priorMoment_bounds s t lane pa n).2, ?_⟩⟩
    · subst hf
      rw [State.loadNat, State.memNat, memBytes_eq_map]
      exact congrArg natOf (List.map_congr_left fun i hi => by simp [hbyte i (List.mem_range.mp hi)])
    · subst hf
      rw [State.loadNat]
      refine congrArg natOf (List.map_congr_left fun i hi => ?_)
      have hin := List.mem_range.mp hi
      have hplace : s.placeOf pa = .hbm := placeOf_hbm (i := 0) hfits (by omega)
      simp only [hbyte i hin, hplace, Bool.not_false, Bool.true_and, beq_self_eq_true, Bool.and_true]

end Sys2Proof.Machine
end

section
/-! Proofs. O52: what a performed write leaves: at its own bytes, and at every other while the words of the memory-side
cache stand in their entries' lines (11_consistency R256, 17_memsys R398). -/

namespace Sys2Proof.Machine

/-! ### What a byte of memory is read from -/

/-- What the bytes of HBM, and of the mailbox, are read from. -/
def State.stored (s : State) : Memory × Memory × List MscEnt × List (Nat × Nat × Nat) :=
  (s.hbm, s.mailbox, s.msc, s.openBytes)

theorem stored_iff {s s' : State} : s'.stored = s.stored ↔
    s'.hbm = s.hbm ∧ s'.mailbox = s.mailbox ∧ s'.msc = s.msc ∧ s'.openBytes = s.openBytes := by
  simp [State.stored]

theorem memByte_of_stored {s s' : State} (h : s'.stored = s.stored) (a : Nat) : s'.memByte a = s.memByte a := by
  obtain ⟨hhbm, -, hmsc, hopen⟩ := stored_iff.mp h
  simp only [State.memByte, State.hbmByte, hhbm, hmsc, hopen]

@[simp] theorem stored_remember (s : State) (pa n : Nat) : (s.remember pa n).stored = s.stored := by
  unfold State.remember
  split <;> rfl

@[simp] theorem stored_markImages (s : State) (pa n : Nat) : (s.markImages pa n).stored = s.stored := by
  unfold State.markImages
  split <;> rfl

@[simp] theorem stored_hitWatches (s : State) (pa n : Nat) : (s.hitWatches pa n).stored = s.stored := by
  unfold State.hitWatches
  split <;> rfl

@[simp] theorem stored_revokeOthers (s : State) (core : Option Nat) (pa n : Nat) :
    (s.revokeOthers core pa n).stored = s.stored := rfl

@[simp] theorem stored_modCore (s : State) (c : Nat) (f : Core → Core) : (s.modCore c f).stored = s.stored := rfl

/-- Of what a byte is read from, a write that performs changes what its bytes change (R256). -/
theorem stored_performHbm (s : State) (core : Option Nat) (pa : Nat) (bs : List Byte) :
    (s.performHbm core pa bs).stored = (((s.thaw pa bs.length).remember pa bs.length).memPutEach pa bs).stored := by
  unfold State.performHbm
  cases core <;> simp [State.memPut, State.memPutRaw]

/-! ### Open bytes become plain -/

theorem openByte_append (l l' : List (Nat × Nat × Nat)) (a : Nat) :
    openByte (l ++ l') a = (openByte l a).or (openByte l' a) := by
  simp only [openByte, List.find?_append, Option.map_or]

/-- A range that is listed only where it is not empty opens its own bytes. -/
theorem openByte_range (lo hi n a : Nat) : openByte (if lo < hi then [(lo, hi, n)] else []) a =
    if lo ≤ a ∧ a < hi then some (BitVec.ofNat 8 (Config.free n (2 ^ 62 + a))) else none := by
  by_cases ha : lo ≤ a ∧ a < hi
  · rw [if_pos (by omega), if_pos ha]
    simp [openByte, ha]
  · rw [if_neg ha]
    split
    · simp only [openByte, List.find?_singleton, Bool.and_eq_true, decide_eq_true_eq, ha, if_false, Option.map_none]
    · rfl

/-- A byte outside a cut is open as before, one inside it no more. -/
theorem openByte_cutRanges {lo hi : Nat} (l : List (Nat × Nat × Nat)) (a : Nat) (h : lo ≤ hi) :
    openByte (cutRanges lo hi l) a = if lo ≤ a ∧ a < hi then none else openByte l a := by
  induction l with
  | nil => simp [cutRanges, openByte]
  | cons x l ih =>
    obtain ⟨b, e, n⟩ := x
    have hone : openByte [(b, e, n)] a =
        if b ≤ a ∧ a < e then some (BitVec.ofNat 8 (Config.free n (2 ^ 62 + a))) else none := by
      simp [openByte, List.find?_singleton, apply_ite]
    rw [cutRanges, List.flatMap_cons, ← cutRanges, openByte_append, openByte_append, openByte_range, openByte_range, ih,
      ← List.singleton_append, openByte_append, hone]
    by_cases hin : lo ≤ a ∧ a < hi
    · rw [if_neg (by omega), if_neg (by omega), if_pos hin, if_pos hin]
      rfl
    · rw [if_neg hin, if_neg hin]
      by_cases hlow : a < lo
      · rw [if_neg (show ¬(max b hi ≤ a ∧ a < e) by omega), Option.or_none]
        congr 2
        simp only [eq_iff_iff]
        omega
      · rw [if_neg (show ¬(b ≤ a ∧ a < min e lo) by omega), Option.none_or]
        congr 2
        simp only [eq_iff_iff]
        omega

/-- The first and the last byte of the lines of [pa, pa + n). -/
def firstOf (pa : Nat) : Nat := pa / 64 * 64
def endOf (pa n : Nat) : Nat := ceilDiv (pa + n) 64 * 64

theorem line_touched {pa n a : Nat} (h : firstOf pa ≤ a ∧ a < endOf pa n) : pa / 64 ≤ a / 64 ∧ 64 * (a / 64) < pa + n := by
  unfold firstOf endOf ceilDiv at h
  omega

theorem touched_line {pa n a : Nat} (h : pa / 64 ≤ a / 64) (h' : 64 * (a / 64) < pa + n) :
    firstOf pa ≤ a ∧ a < endOf pa n := by
  unfold firstOf endOf ceilDiv
  omega

theorem firstOf_le_endOf (pa n : Nat) : firstOf pa ≤ endOf pa n := by
  unfold firstOf endOf ceilDiv
  omega

@[simp] theorem thaw_msc (s : State) (pa n : Nat) : (s.thaw pa n).msc = s.msc := by
  unfold State.thaw
  split <;> rfl

theorem openByte_thaw (s : State) (pa n a : Nat) : openByte (s.thaw pa n).openBytes a =
    if firstOf pa ≤ a ∧ a < endOf pa n then none else openByte s.openBytes a := by
  unfold State.thaw
  split
  · rename_i he
    rw [List.isEmpty_iff.mp he]
    simp [openByte]
  · exact openByte_cutRanges _ a (firstOf_le_endOf pa n)

/-- Thawed bytes stand in HBM as the stacks held them, the others as they stood. -/
theorem spGet_thaw {s : State} (pa n a : Nat) (hwf : spWf s.hbm = true) : spGet (s.thaw pa n).hbm a =
    if firstOf pa ≤ a ∧ a < endOf pa n then s.hbmByte a else spGet s.hbm a := by
  unfold State.thaw
  split
  · rename_i he
    simp [State.hbmByte, List.isEmpty_iff.mp he, openByte]
  · have hle := firstOf_le_endOf pa n
    dsimp only
    rw [spGet_spPutBlock _ _ _ hwf, List.length_map, List.length_range]
    change (if firstOf pa ≤ a ∧ a < firstOf pa + (endOf pa n - firstOf pa) then
      atOr0 ((List.range (endOf pa n - firstOf pa)).map fun i => s.hbmByte (firstOf pa + i)) (a - firstOf pa)
      else spGet s.hbm a) = _
    rw [Nat.add_sub_cancel' hle]
    by_cases ha : firstOf pa ≤ a ∧ a < endOf pa n
    · have hlt : a - firstOf pa < endOf pa n - firstOf pa := by omega
      rw [if_pos ha, if_pos ha]
      simp [atOr0, hlt, Nat.add_sub_cancel' ha.1]
    · rw [if_neg ha, if_neg ha]

theorem spWf_thaw {s : State} (pa n : Nat) (hwf : spWf s.hbm = true) : spWf (s.thaw pa n).hbm = true := by
  unfold State.thaw
  split
  · exact hwf
  · exact spWf_spPutBlock _ _ hwf

theorem hbmByte_thaw {s : State} (pa n a : Nat) (hwf : spWf s.hbm = true) : (s.thaw pa n).hbmByte a = s.hbmByte a := by
  rw [State.hbmByte, openByte_thaw, spGet_thaw pa n a hwf]
  by_cases ha : firstOf pa ≤ a ∧ a < endOf pa n
  · rw [if_pos ha, if_pos ha]
  · rw [if_neg ha, if_neg ha, State.hbmByte]

/-! ### The words of a cached line -/

/-- The words that the memory-side cache holds of a line. -/
def State.lineWords (s : State) (line : Nat) : List (Nat × MscWord) :=
  match findMsc s.msc line with
  | some e => e.words
  | none => []

/-- A cache word covers a byte. -/
def covers (a : Nat) (x : Nat × MscWord) : Bool := 4 * x.1 ≤ a && a < 4 * x.1 + x.2.size

/-- A byte as these words give it, over HBM. -/
def State.byteIn (s : State) (ws : List (Nat × MscWord)) (a : Nat) : Byte :=
  match ws.find? (covers a) with
  | none => s.hbmByte a
  | some (k, w) => BitVec.ofNat 8 (w.merge (spNat s.hbm (4 * k) w.size) / 256 ^ (a - 4 * k))

theorem memByte_eq_byteIn (s : State) (a : Nat) : s.memByte a = s.byteIn (s.lineWords (a / 64)) a := by
  unfold State.memByte State.lineWords
  split
  · rename_i h
    rw [h]
    rfl
  · rename_i e h
    rw [h]
    rfl

theorem findMsc_mem {l : List MscEnt} {line : Nat} {e : MscEnt} (h : findMsc l line = some e) : e ∈ l ∧ e.line = line := by
  induction l with
  | nil => cases h
  | cons x l ih =>
    simp only [findMsc] at h
    split at h
    · cases h
      exact ⟨List.mem_cons_self, by assumption⟩
    · exact ⟨List.mem_cons_of_mem _ (ih h).1, (ih h).2⟩

theorem mem_lineWords {s : State} {line : Nat} {x : Nat × MscWord} (h : x ∈ s.lineWords line) :
    ∃ e ∈ s.msc, e.line = line ∧ x ∈ e.words := by
  unfold State.lineWords at h
  split at h
  · rename_i e he
    exact ⟨e, (findMsc_mem he).1, (findMsc_mem he).2, h⟩
  · cases h

/-- Bytes that the words merge over HBM read alike where HBM holds the same under them. -/
theorem byteIn_congr {s s' : State} {ws : List (Nat × MscWord)} {a : Nat} (hbyte : s'.hbmByte a = s.hbmByte a)
    (hunder : ∀ x ∈ ws, ∀ i < x.2.size, spGet s'.hbm (4 * x.1 + i) = spGet s.hbm (4 * x.1 + i)) :
    s'.byteIn ws a = s.byteIn ws a := by
  unfold State.byteIn
  split
  · exact hbyte
  · rename_i k w hf
    have hnat : spNat s'.hbm (4 * k) w.size = spNat s.hbm (4 * k) w.size := by
      rw [spNat, spNat, spTake_eq_map, spTake_eq_map]
      exact congrArg natOf (List.map_congr_left fun i hi =>
        hunder (k, w) (List.mem_of_find?_eq_some hf) i (List.mem_range.mp hi))
    rw [hnat]

/-- Every word of the memory-side cache stands within its entry's line. -/
def State.wordsInLine (s : State) : Prop :=
  ∀ e ∈ s.msc, ∀ x ∈ e.words, 64 * e.line ≤ 4 * x.1 ∧ 4 * x.1 + x.2.size ≤ 64 * e.line + 64

/-- Thawing lines changes no byte of memory, where no cached line of them is open. -/
theorem memByte_thaw {s : State} {pa n : Nat} (hwf : spWf s.hbm = true) (hin : s.wordsInLine)
    (hplain : ∀ e ∈ s.msc, pa / 64 ≤ e.line → 64 * e.line < pa + n → ∀ a, a / 64 = e.line → openByte s.openBytes a = none)
    (a : Nat) : (s.thaw pa n).memByte a = s.memByte a := by
  rw [memByte_eq_byteIn, memByte_eq_byteIn, show (s.thaw pa n).lineWords = s.lineWords by
    funext line; simp only [State.lineWords, thaw_msc]]
  refine byteIn_congr (hbmByte_thaw pa n a hwf) fun x hx i hi => ?_
  obtain ⟨e, he, -, hxe⟩ := mem_lineWords hx
  obtain ⟨hlo, hhi⟩ := hin e he x hxe
  have hline : (4 * x.1 + i) / 64 = e.line := by omega
  rw [spGet_thaw pa n _ hwf]
  split
  · rename_i ht
    obtain ⟨h1, h2⟩ := line_touched ht
    rw [hline] at h1 h2
    rw [State.hbmByte, hplain e he h1 h2 _ hline]
  · rfl

/-! ### Storing one byte (R398) -/

/-- A list of cache words holds stored bytes alone, no reduction. -/
def bytesOnly (ws : List (Nat × MscWord)) : Prop := ∀ x ∈ ws, ∃ m d, x.2 = MscWord.bytes m d

/-- A line whose cached words are stored bytes and of which no byte is open. -/
def State.plainLine (s : State) (line : Nat) : Prop :=
  bytesOnly (s.lineWords line) ∧ ∀ a, a / 64 = line → openByte s.openBytes a = none

/-- Mask and data of the stored word of a number; nothing where there is none. -/
def storedWord (ws : List (Nat × MscWord)) (k : Nat) : BitVec 4 × BitVec 32 :=
  match alGet ws k with
  | some (.bytes m d) => (m, d)
  | _ => (0, 0)

/-- The word with one more byte stored, at place `i`. -/
def withByte (w : BitVec 4 × BitVec 32) (i : Nat) (b : Byte) : MscWord :=
  .bytes (w.1 ||| BitVec.twoPow 4 i) (BitVec.ofNat 32 (overlay (BitVec.twoPow 4 i) (b.toNat * 256 ^ i) w.2.toNat))

theorem covers_bytes (a k : Nat) (m : BitVec 4) (d : BitVec 32) : covers a (k, .bytes m d) = decide (a / 4 = k) := by
  change (decide (4 * k ≤ a) && decide (a < 4 * k + 4)) = decide (a / 4 = k)
  rw [Bool.eq_iff_iff, Bool.and_eq_true, decide_eq_true_eq, decide_eq_true_eq, decide_eq_true_eq]
  omega

/-- Of stored words, the one that covers a byte is the first with its number. -/
theorem find?_covers {ws : List (Nat × MscWord)} (a : Nat) (hb : bytesOnly ws) :
    ws.find? (covers a) = (alGet ws (a / 4)).map fun w => (a / 4, w) := by
  induction ws with
  | nil => rfl
  | cons x ws ih =>
    obtain ⟨k, w⟩ := x
    obtain ⟨m, d, rfl⟩ : ∃ m d, w = MscWord.bytes m d := hb (k, w) List.mem_cons_self
    rw [List.find?_cons, covers_bytes, ih fun x hx => hb x (List.mem_cons_of_mem _ hx), alGet]
    by_cases hk : a / 4 = k <;> simp [hk]

theorem alGet_bytes {ws : List (Nat × MscWord)} {k : Nat} {w : MscWord} (hb : bytesOnly ws) (hw : alGet ws k = some w) :
    ∃ m d, w = .bytes m d := by
  induction ws with
  | nil => cases hw
  | cons x ws ih =>
    rw [alGet] at hw
    split at hw
    · cases hw
      exact hb _ List.mem_cons_self
    · exact ih (fun x hx => hb x (List.mem_cons_of_mem _ hx)) hw

/-- A byte of a plain line: the stored one where its word has it, else the one in HBM. -/
theorem memByte_plainLine {s : State} {a : Nat} (hp : s.plainLine (a / 64)) : s.memByte a =
    if (storedWord (s.lineWords (a / 64)) (a / 4)).1.getLsbD (a % 4) then
      BitVec.ofNat 8 ((storedWord (s.lineWords (a / 64)) (a / 4)).2.toNat / 256 ^ (a % 4))
    else spGet s.hbm a := by
  obtain ⟨hb, hopen⟩ := hp
  rw [memByte_eq_byteIn, State.byteIn, find?_covers a hb, storedWord]
  cases hw : alGet (s.lineWords (a / 64)) (a / 4) with
  | none => simp [State.hbmByte, hopen a rfl]
  | some w =>
    obtain ⟨m, d, rfl⟩ := alGet_bytes hb hw
    have hmod : a - 4 * (a / 4) = a % 4 := by omega
    have hadd : 4 * (a / 4) + a % 4 = a := by omega
    have hlt : a % 4 < 4 := by omega
    simp only [Option.map_some, MscWord.merge, MscWord.size, hmod, overlay_byte _ _ _ hlt]
    split
    · rfl
    · rw [spNat_byte _ _ hlt, hadd]

theorem bytesOnly_alSet {ws : List (Nat × MscWord)} (k : Nat) (m : BitVec 4) (d : BitVec 32) (hb : bytesOnly ws) :
    bytesOnly (alSet ws k (.bytes m d)) := by
  induction ws with
  | nil => simp [alSet, bytesOnly]
  | cons x ws ih =>
    have hx := hb x List.mem_cons_self
    have hws : bytesOnly ws := fun y hy => hb y (List.mem_cons_of_mem _ hy)
    unfold alSet
    split
    · exact List.forall_mem_cons.mpr ⟨⟨m, d, rfl⟩, hb⟩
    · split
      · exact List.forall_mem_cons.mpr ⟨⟨m, d, rfl⟩, hws⟩
      · exact List.forall_mem_cons.mpr ⟨hx, ih hws⟩

theorem alGet_filter_ne {α : Type} (l : List (Nat × α)) {k k' : Nat} (h : k' ≠ k) :
    alGet (l.filter (·.1 != k)) k' = alGet l k' := by
  induction l with
  | nil => rfl
  | cons x l ih =>
    obtain ⟨n, v⟩ := x
    by_cases hn : n = k
    · subst hn
      simp [alGet, h, ih]
    · simp [alGet, hn, ih]

theorem findMsc_append (l : List MscEnt) (e : MscEnt) (line : Nat) (h : findMsc l e.line = none) :
    findMsc (l ++ [e]) line = if line = e.line then some e else findMsc l line := by
  induction l with
  | nil => simp [findMsc, eq_comm]
  | cons x l ih =>
    have hx : x.line ≠ e.line := fun hx => by simp [findMsc, hx] at h
    have hl : findMsc l e.line = none := by simpa [findMsc, hx] using h
    by_cases hxl : x.line = line
    · simp [findMsc, hxl, show line ≠ e.line by rw [← hxl]; exact hx]
    · simp [findMsc, hxl, ih hl]

theorem findMsc_mapFirst (l : List MscEnt) (n line : Nat) (f : MscEnt → MscEnt) (hf : ∀ e, (f e).line = e.line) :
    findMsc (mapFirst (·.line == n) f l) line = if line = n then (findMsc l n).map f else findMsc l line := by
  induction l with
  | nil => simp [mapFirst, findMsc]
  | cons x l ih =>
    by_cases hx : x.line = n
    · by_cases hl : line = n
      · simp [mapFirst, findMsc, hx, hl, hf]
      · simp [mapFirst, findMsc, hx, hl, hf, Ne.symm hl]
    · by_cases hl : line = n
      · subst hl
        simpa [mapFirst, findMsc, hx] using ih
      · simp [mapFirst, findMsc, hx, hl, ih]

theorem length_mapFirst {α : Type} (p : α → Bool) (f : α → α) (l : List α) : (mapFirst p f l).length = l.length := by
  induction l with
  | nil => rfl
  | cons x l ih =>
    unfold mapFirst
    split
    · rfl
    · simp [ih]

/-- `s'` is `s` with byte `b` stored at `pa` in the memory-side cache: the entry of its line, the one it had or a new one,
has it in its word, and every other entry stays. -/
structure PutsByte (s : State) (pa : Nat) (b : Byte) (s' : State) : Prop where
  hbm : s'.hbm = s.hbm
  mailbox : s'.mailbox = s.mailbox
  openBytes : s'.openBytes = s.openBytes
  length : s'.msc.length = s.msc.length + if (findMsc s.msc (pa / 64)).isSome then 0 else 1
  entry : (findMsc s'.msc (pa / 64)).isSome = true
  other : ∀ line, line ≠ pa / 64 → findMsc s'.msc line = findMsc s.msc line
  bytes : bytesOnly (s'.lineWords (pa / 64))
  words : ∀ k, alGet (s'.lineWords (pa / 64)) k =
    if k = pa / 4 then some (withByte (storedWord (s.lineWords (pa / 64)) (pa / 4)) (pa % 4) b)
    else alGet (s.lineWords (pa / 64)) k

theorem putsByte_of_find {s : State} {pa : Nat} {b : Byte} {msc : List MscEnt} {ws : List (Nat × MscWord)}
    (hlen : msc.length = s.msc.length + if (findMsc s.msc (pa / 64)).isSome then 0 else 1)
    (hfind : ∀ line, findMsc msc line = if line = pa / 64 then some ⟨pa / 64, ws⟩ else findMsc s.msc line)
    (hb : bytesOnly ws)
    (hws : ∀ k, alGet ws k = if k = pa / 4 then some (withByte (storedWord (s.lineWords (pa / 64)) (pa / 4)) (pa % 4) b)
      else alGet (s.lineWords (pa / 64)) k) : PutsByte s pa b { s with msc := msc } := by
  have hline : ({ s with msc := msc } : State).lineWords (pa / 64) = ws := by
    simp only [State.lineWords, hfind, if_true]
  exact ⟨rfl, rfl, rfl, hlen, by simp only [hfind, if_true]; rfl, fun line hl => by simp only [hfind, hl, if_false],
    hline ▸ hb, fun k => by rw [hline, hws]⟩

theorem putsByte_newEntry {s : State} {pa : Nat} {w : MscWord} (b : Byte) (he : findMsc s.msc (pa / 64) = none)
    (hw : w = withByte (0, 0) (pa % 4) b) : PutsByte s pa b { s with msc := s.msc ++ [⟨pa / 64, [(pa / 4, w)]⟩] } := by
  have hws : s.lineWords (pa / 64) = [] := by simp only [State.lineWords, he]
  subst hw
  exact putsByte_of_find (by simp [he]) (fun line => findMsc_append s.msc ⟨_, _⟩ line he) (by simp [bytesOnly, withByte])
    fun k => by simp [hws, storedWord, alGet]

theorem putsByte_entry {s : State} {pa : Nat} {e : MscEnt} {ws : List (Nat × MscWord)} {w : MscWord} (b : Byte)
    (he : findMsc s.msc (pa / 64) = some e) (hb : bytesOnly ws)
    (hother : ∀ k, k ≠ pa / 4 → alGet ws k = alGet e.words k)
    (hw : w = withByte (storedWord e.words (pa / 4)) (pa % 4) b) {msc : List MscEnt}
    (hmsc : msc = mapFirst (·.line == e.line) (fun x => { x with words := alSet ws (pa / 4) w }) s.msc) :
    PutsByte s pa b { s with msc := msc } := by
  obtain ⟨-, hline⟩ := findMsc_mem he
  have hws : s.lineWords (pa / 64) = e.words := by simp only [State.lineWords, he]
  subst hw hmsc
  refine putsByte_of_find (ws := alSet ws (pa / 4) (withByte (storedWord e.words (pa / 4)) (pa % 4) b))
    (by simp [length_mapFirst, he]) (fun line => ?_) (bytesOnly_alSet _ _ _ hb) fun k => ?_
  · rw [findMsc_mapFirst]
    · simp [hline, he]
    · exact fun _ => rfl
  · rw [alGet_alSet, hws]
    split
    · rfl
    · rename_i hk
      exact hother k hk

/-- A byte is stored in the cached words of its line, where these are stored bytes and a new entry finds room. -/
theorem memPutByte_puts {s : State} {pa : Nat} (b : Byte) (hb : bytesOnly (s.lineWords (pa / 64)))
    (hroom : findMsc s.msc (pa / 64) = none → s.mscRoom (pa / 64) = s) : PutsByte s pa b (s.memPutByte pa b) := by
  unfold State.memPutByte
  cases he : findMsc s.msc (pa / 64) with
  | none =>
    simp only [hroom he]
    exact putsByte_newEntry b he rfl
  | some e =>
    have hws : s.lineWords (pa / 64) = e.words := by simp only [State.lineWords, he]
    rw [hws] at hb
    have hword : e.wordAt pa = (alGet e.words (pa / 4)).map fun w => (pa / 4, w) := find?_covers pa hb
    cases hw : alGet e.words (pa / 4) with
    | none =>
      rw [hw] at hword
      simp only [hword, Option.map_none]
      exact putsByte_entry b he hb (fun _ _ => rfl) (by simp only [storedWord, hw]; rfl) rfl
    | some w =>
      obtain ⟨m, d, rfl⟩ := alGet_bytes hb hw
      rw [hw] at hword
      simp only [hword, Option.map_some]
      exact putsByte_entry b he (fun x hx => hb x (List.mem_filter.mp hx).1) (fun k hk => alGet_filter_ne _ hk)
        (by simp only [storedWord, hw]; rfl) rfl

theorem PutsByte.lineWords_other {s s' : State} {pa : Nat} {b : Byte} (h : PutsByte s pa b s') {line : Nat}
    (hl : line ≠ pa / 64) : s'.lineWords line = s.lineWords line := by
  simp only [State.lineWords, h.other line hl]

/-- Lines stay plain as bytes are stored. -/
theorem PutsByte.plainLine {s s' : State} {pa : Nat} {b : Byte} (h : PutsByte s pa b s') {line : Nat}
    (hp : s.plainLine line) : s'.plainLine line := by
  refine ⟨?_, by rw [h.openBytes]; exact hp.2⟩
  by_cases hl : line = pa / 64
  · subst hl
    exact h.bytes
  · rw [h.lineWords_other hl]
    exact hp.1

theorem PutsByte.storedWord_eq {s s' : State} {pa : Nat} {b : Byte} (h : PutsByte s pa b s') (k : Nat) :
    storedWord (s'.lineWords (pa / 64)) k = if k = pa / 4 then
      ((storedWord (s.lineWords (pa / 64)) (pa / 4)).1 ||| BitVec.twoPow 4 (pa % 4),
        BitVec.ofNat 32 (overlay (BitVec.twoPow 4 (pa % 4)) (b.toNat * 256 ^ (pa % 4))
          (storedWord (s.lineWords (pa / 64)) (pa / 4)).2.toNat))
      else storedWord (s.lineWords (pa / 64)) k := by
  rw [storedWord, h.words]
  by_cases hk : k = pa / 4
  · rw [if_pos hk, if_pos hk]
    rfl
  · rw [if_neg hk, if_neg hk, storedWord]

/-- A byte stored in a plain line reads back, and every other byte as before. -/
theorem PutsByte.memByte {s s' : State} {pa : Nat} {b : Byte} (h : PutsByte s pa b s') (hp : s.plainLine (pa / 64))
    (a : Nat) : s'.memByte a = if a = pa then b else s.memByte a := by
  have hi : pa % 4 < 4 := Nat.mod_lt _ (by decide)
  by_cases hline : a / 64 = pa / 64
  · have hp' := h.plainLine hp
    have hj : a % 4 < 4 := Nat.mod_lt _ (by decide)
    rw [← hline] at hp hp'
    rw [memByte_plainLine hp', memByte_plainLine hp, hline, h.storedWord_eq, h.hbm]
    by_cases hword : a / 4 = pa / 4
    · have hdata := overlay_byte (BitVec.twoPow 4 (pa % 4)) (b.toNat * 256 ^ (pa % 4))
        (storedWord (s.lineWords (pa / 64)) (pa / 4)).2.toNat hj
      rw [if_pos hword, hword]
      simp only [BitVec.toNat_ofNat, Nat.mod_eq_of_lt (overlay_lt _ _ _), hdata, BitVec.getLsbD_or,
        BitVec.getLsbD_twoPow]
      by_cases ha : a = pa
      · subst ha
        have hcancel : b.toNat * 256 ^ (a % 4) / 256 ^ (a % 4) = b.toNat :=
          Nat.mul_div_cancel _ (Nat.pow_pos (by decide))
        simp only [hj, decide_true, Bool.and_true, Bool.or_true, if_true, hcancel, BitVec.ofNat_toNat,
          BitVec.setWidth_eq]
      · have hne : ¬(pa % 4 = a % 4) := by omega
        simp [ha, hne]
    · rw [if_neg hword, if_neg (show a ≠ pa by rintro rfl; exact hword rfl)]
  · have hws := h.lineWords_other hline
    rw [memByte_eq_byteIn, memByte_eq_byteIn s, hws, if_neg (show a ≠ pa by rintro rfl; exact hline rfl)]
    simp only [State.byteIn, State.hbmByte, h.hbm, h.openBytes]

/-! ### Storing several bytes -/

theorem mscRoom_of_lt {s : State} {line : Nat} (h : s.msc.length < mscLimit) : s.mscRoom line = s := by
  unfold State.mscRoom
  dsimp only
  split
  · rename_i hm
    have hle := List.length_filter_le (fun e => s.stackOf (64 * e.line) == s.stackOf (64 * line)) s.msc
    rw [if_neg (by omega)]
  · rfl

theorem length_linesOf (pa n : Nat) : (linesOf pa n).length = if n = 0 then 0 else (pa + n - 1) / 64 - pa / 64 + 1 := by
  unfold linesOf
  split <;> simp

/-- The first byte of several done, there is one line less to come where it was the last of its line. -/
theorem length_linesOf_succ (pa n : Nat) :
    (linesOf (pa + 1) n).length + (if (pa + 1) / 64 = pa / 64 then 0 else 1) ≤ (linesOf pa (n + 1)).length := by
  rw [length_linesOf, length_linesOf, if_neg (Nat.succ_ne_zero n)]
  split <;> split <;> omega

/-- The cache has room for the lines of [pa, pa + n) that it does not hold; of the first it may hold an entry. -/
def State.roomFor64 (s : State) (pa n : Nat) : Prop :=
  s.msc.length + (linesOf pa n).length ≤ mscLimit + if (findMsc s.msc (pa / 64)).isSome then 1 else 0

/-- Room stays for the bytes still to come. -/
theorem PutsByte.roomFor64 {s s' : State} {pa n : Nat} {b : Byte} (h : PutsByte s pa b s')
    (hroom : s.roomFor64 pa (n + 1)) : s'.roomFor64 (pa + 1) n := by
  have hlines := length_linesOf_succ pa n
  unfold State.roomFor64 at hroom ⊢
  rw [h.length]
  by_cases hsame : (pa + 1) / 64 = pa / 64
  · rw [hsame, h.entry, if_pos rfl]
    split at hroom
    · rename_i he
      rw [if_pos he]
      omega
    · rename_i he
      rw [if_neg he]
      omega
  · rw [if_neg hsame] at hlines
    split at hroom
    · rename_i he
      rw [if_pos he]
      omega
    · rename_i he
      rw [if_neg he]
      omega

/-- Bytes stored in plain lines read back, and nothing else that memory is read from changes, where the cache has room
for the lines that it does not hold. -/
theorem memPutEach_plain (bs : List Byte) {s : State} {pa : Nat}
    (hp : ∀ line, pa / 64 ≤ line → 64 * line < pa + bs.length → s.plainLine line) (hroom : s.roomFor64 pa bs.length) :
    (s.memPutEach pa bs).hbm = s.hbm ∧ (s.memPutEach pa bs).mailbox = s.mailbox ∧ ∀ a, (s.memPutEach pa bs).memByte a =
      if pa ≤ a ∧ a < pa + bs.length then bs[a - pa]?.getD 0 else s.memByte a := by
  induction bs generalizing s pa with
  | nil => exact ⟨rfl, rfl, fun a => by rw [if_neg (by simp)]; rfl⟩
  | cons b bs ih =>
    rw [List.length_cons] at hp hroom
    have hp0 : s.plainLine (pa / 64) := hp _ (Nat.le_refl _) (by omega)
    have hput : PutsByte s pa b (s.memPutByte pa b) := memPutByte_puts b hp0.1 fun he => mscRoom_of_lt (by
      rw [State.roomFor64, he, length_linesOf, if_neg (Nat.succ_ne_zero _)] at hroom
      simp only [Option.isSome_none, Bool.false_eq_true, if_false] at hroom
      omega)
    obtain ⟨hhbm, hmail, hbytes⟩ := ih (s := s.memPutByte pa b) (pa := pa + 1)
      (fun line h1 h2 => hput.plainLine (hp line (by omega) (by omega))) (hput.roomFor64 hroom)
    refine ⟨hhbm.trans hput.hbm, hmail.trans hput.mailbox, fun a => ?_⟩
    rw [State.memPutEach, hbytes, hput.memByte hp0, List.length_cons]
    by_cases ha : a = pa
    · subst ha
      rw [if_neg (by omega), if_pos rfl, if_pos (by omega), Nat.sub_self]
      rfl
    · by_cases hin : pa + 1 ≤ a ∧ a < pa + 1 + bs.length
      · rw [if_pos hin, if_pos (by omega), show a - pa = (a - (pa + 1)) + 1 by omega, List.getElem?_cons_succ]
      · rw [if_neg hin, if_neg ha, if_neg (by omega)]

/-! ### Writes that perform (11_consistency R256) -/

@[simp] theorem thaw_mailbox (s : State) (pa n : Nat) : (s.thaw pa n).mailbox = s.mailbox := by
  unfold State.thaw
  split <;> rfl

/-- Thawed lines without a cached reduction are plain. -/
theorem plainLine_thaw {s : State} {pa n line : Nat} (h : pa / 64 ≤ line) (h' : 64 * line < pa + n)
    (hb : bytesOnly (s.lineWords line)) : (s.thaw pa n).plainLine line := by
  refine ⟨by simpa only [State.lineWords, thaw_msc] using hb, fun a ha => ?_⟩
  subst ha
  rw [openByte_thaw, if_pos (touched_line h h')]

/-- Every watch of a byte that a write has performed on is hit (10_memory R237). -/
theorem hitWatches_hit {s : State} {pa n : Nat} {w : Watch} (hw : w ∈ (s.hitWatches pa n).watches)
    (h : w.addr < pa + n) (h' : pa < w.addr + w.bytes) : w.hit = true := by
  unfold State.hitWatches at hw
  split at hw
  · rename_i he
    rw [List.isEmpty_iff.mp he] at hw
    cases hw
  · obtain ⟨w0, -, rfl⟩ := List.mem_map.mp hw
    by_cases hmet : w0.addr < pa + n ∧ pa < w0.addr + w0.bytes
    · rw [if_pos hmet]
    · rw [if_neg hmet] at h h'
      exact absurd ⟨h, h'⟩ hmet

/-- What a write that performs in HBM leaves, where the words of the memory-side cache stand in their entries' lines. -/
theorem performHbm_reads {s : State} (core : Option Nat) {pa : Nat} {bs : List Byte} (hwf : spWf s.hbm = true)
    (hin : s.wordsInLine) (hroom : s.msc.length + (linesOf pa bs.length).length ≤ mscLimit)
    (hplain : ∀ e ∈ s.msc, pa / 64 ≤ e.line → 64 * e.line < pa + bs.length →
      (∀ x ∈ e.words, ∃ m d, x.2 = .bytes m d) ∧ ∀ a, a / 64 = e.line → openByte s.openBytes a = none) :
    spWf (s.performHbm core pa bs).hbm = true ∧ (s.performHbm core pa bs).mailbox = s.mailbox ∧
      ∀ a, (s.performHbm core pa bs).memByte a =
        if pa ≤ a ∧ a < pa + bs.length then bs[a - pa]?.getD 0 else s.memByte a := by
  have hsame := stored_performHbm s core pa bs
  obtain ⟨hhbm, hmail, -, -⟩ := stored_iff.mp hsame
  have hthaw : ((s.thaw pa bs.length).remember pa bs.length).stored = (s.thaw pa bs.length).stored := stored_remember _ _ _
  obtain ⟨hhbm', hmail', hmsc', hopen'⟩ := stored_iff.mp hthaw
  have hlines : ∀ line, pa / 64 ≤ line → 64 * line < pa + bs.length →
      ((s.thaw pa bs.length).remember pa bs.length).plainLine line := fun line h h' => by
    have hb : bytesOnly (s.lineWords line) := fun x hx => by
      obtain ⟨e, he, hel, hxe⟩ := mem_lineWords hx
      exact (hplain e he (hel ▸ h) (hel ▸ h')).1 x hxe
    have hp := plainLine_thaw h h' hb
    unfold State.plainLine State.lineWords at hp ⊢
    rwa [hmsc', hopen']
  obtain ⟨hhbm'', hmail'', hbytes⟩ := memPutEach_plain bs hlines (by
    rw [State.roomFor64, hmsc', thaw_msc]
    omega)
  refine ⟨?_, by rw [hmail, hmail'', hmail', thaw_mailbox], fun a => ?_⟩
  · rw [hhbm, hhbm'', hhbm']
    exact spWf_thaw _ _ hwf
  · rw [memByte_of_stored hsame, hbytes, memByte_of_stored hthaw,
      memByte_thaw hwf hin fun e he h h' => (hplain e he h h').2]

/-- The rule of performed writes holds where the words of the memory-side cache stand in their entries' lines. -/
theorem perform_reads {s : State} (core : Option Nat) {pa : Nat} {bs : List Byte} (hwf : spWf s.hbm = true)
    (hplace : s.placeOf pa = .hbm) (hin : s.wordsInLine)
    (hroom : s.msc.length + (linesOf pa bs.length).length ≤ mscLimit)
    (hplain : ∀ e ∈ s.msc, pa / 64 ≤ e.line → 64 * e.line < pa + bs.length →
      (∀ x ∈ e.words, ∃ m d, x.2 = .bytes m d) ∧ ∀ a, a / 64 = e.line → openByte s.openBytes a = none)
    {s' : State} (hs' : s' = s.perform core pa bs) :
    (∀ a, s'.memByte a = if pa ≤ a ∧ a < pa + bs.length then bs[a - pa]?.getD 0 else s.memByte a) ∧
      spWf s'.hbm = true ∧ s'.tasks = s.tasks ∧ s'.jobs = s.jobs ∧ s'.mailbox = s.mailbox ∧ s'.cregs = s.cregs ∧
      ∀ w ∈ s'.watches, w.addr < pa + bs.length → pa < w.addr + w.bytes → w.hit = true := by
  have hperf : s.perform core pa bs = s.performHbm core pa bs := by rw [State.perform, hplace]
  obtain ⟨hwf', hmail, hbytes⟩ := performHbm_reads core hwf hin hroom hplain
  have hbeside := besideMemory_performHbm s core pa bs
  subst hs'
  rw [hperf]
  exact ⟨hbytes, hwf', by simpa only [State.besideMemory] using congrArg State.tasks hbeside,
    by simpa only [State.besideMemory] using congrArg State.jobs hbeside, hmail,
    by simpa only [State.besideMemory] using congrArg State.cregs hbeside,
    fun w hw => hitWatches_hit hw⟩

/-! ### A reduction that reaches back into the line before its entry's -/

/-- The free value of the byte at 63, where it is open. -/
def openAt63 : Byte := BitVec.ofNat 8 (Config.free 0 (2 ^ 62 + 63))

/-- The byte at 63 is open, and HBM lists under it another value; line 1 has an entry with an addition of 2^31 to the
eight bytes from 60 on, four of them in line 0. -/
def reachingBack : State :=
  { State.reset with
    openBytes := [(63, 64, 0)], hbm := spSet [] 63 (openAt63 ^^^ 0x80),
    msc := [⟨1, [(15, .red .add .n64 0x80000000)]⟩] }

/-- What that addition carries into line 1 over a byte `x` at 63. -/
def carryOver (x : Byte) : Byte := BitVec.ofNat 8 ((x.toNat * 2 ^ 24 + 2 ^ 31) / 2 ^ 32)

/-- The highest bit of the byte at 63 decides the carry. -/
theorem carryOver_flip : ∀ x : Byte, carryOver x ≠ carryOver (x ^^^ 0x80) := by decide

theorem byteIn_carryOver {s : State} {x : Byte} (h : ∀ a, spGet s.hbm a = if a = 63 then x else 0) :
    s.byteIn [(15, .red .add .n64 0x80000000)] 64 = carryOver x := by
  have hx := x.isLt
  have hnat : spNat s.hbm 60 8 = x.toNat * 2 ^ 24 := by
    simp [spNat, spTake, natOf, h]
    omega
  have hbyte : s.byteIn [(15, .red .add .n64 0x80000000)] 64 =
      BitVec.ofNat 8 ((MscWord.red .add .n64 0x80000000).merge (spNat s.hbm 60 8) / 256 ^ 4) := rfl
  have hmerge : ∀ old, (MscWord.red .add .n64 0x80000000).merge old = (old + 2 ^ 31) % 2 ^ 64 := fun _ => rfl
  rw [hbyte, hmerge, hnat, Nat.mod_eq_of_lt (by omega)]
  rfl

theorem spGet_reachingBack (a : Nat) : spGet reachingBack.hbm a = if a = 63 then openAt63 ^^^ 0x80 else 0 :=
  spGet_spSet (m := []) 63 _ a rfl

/-- As the write of a byte of line 0 thaws the line, the open byte's value takes its place in HBM. -/
theorem spGet_thaw_reachingBack (a : Nat) :
    spGet (reachingBack.thaw 0 1).hbm a = if a = 63 then openAt63 else 0 := by
  rw [spGet_thaw 0 1 a (spWf_spSet (m := []) 63 _ rfl)]
  by_cases ha : a = 63
  · subst ha
    rfl
  · have hclosed : openByte reachingBack.openBytes a = none := by
      simp [openByte, reachingBack]
      omega
    simp only [State.hbmByte, hclosed, spGet_reachingBack, ha, if_false, ite_self]

theorem memByte_reachingBack : reachingBack.memByte 64 = carryOver (openAt63 ^^^ 0x80) :=
  (memByte_eq_byteIn _ _).trans (byteIn_carryOver spGet_reachingBack)

/-- A byte written at 0 changes the byte that reads at 64. -/
theorem memByte_perform_reachingBack : (reachingBack.perform none 0 [0]).memByte 64 = carryOver openAt63 := by
  have hthaw : ((reachingBack.thaw 0 1).remember 0 1).stored = (reachingBack.thaw 0 1).stored := stored_remember _ _ _
  obtain ⟨hhbm, -, hmsc, -⟩ := stored_iff.mp hthaw
  have hlines : ∀ line, ((reachingBack.thaw 0 1).remember 0 1).lineWords line = reachingBack.lineWords line :=
    fun line => by simp only [State.lineWords, hmsc, thaw_msc]
  have hput : PutsByte ((reachingBack.thaw 0 1).remember 0 1) 0 0
      (((reachingBack.thaw 0 1).remember 0 1).memPutByte 0 0) :=
    memPutByte_puts 0 (by rw [hlines]; exact fun x hx => nomatch hx) fun _ => mscRoom_of_lt (by
      rw [hmsc, thaw_msc]
      decide)
  have hws : (((reachingBack.thaw 0 1).remember 0 1).memPutByte 0 0).lineWords 1 =
      [(15, .red .add .n64 0x80000000)] := by
    rw [hput.lineWords_other (by decide), hlines]
    rfl
  change (reachingBack.performHbm none 0 [0]).memByte 64 = _
  rw [memByte_of_stored (stored_performHbm reachingBack none 0 [0])]
  change (((reachingBack.thaw 0 1).remember 0 1).memPutByte 0 0).memByte 64 = _
  rw [memByte_eq_byteIn]
  change State.byteIn _ (State.lineWords _ 1) 64 = _
  rw [hws]
  exact byteIn_carryOver fun a => by rw [hput.hbm, hhbm, spGet_thaw_reachingBack]

/-- Refutes O52: a byte that no write touches does not always read as before. In `reachingBack` the entry of line 1
holds a reduction of eight bytes that begin in line 0; a write in line 0 puts the value of an open byte there into HBM,
where another stood under it, and with it changes what the reduction carries into line 1. Loads see what the statement
says (`loadsSeeStoresInOrder`), and a write leaves it where every cached word stands in its entry's line
(`perform_reads`). -/
theorem not_memoryReadsWhatWasWritten : ¬ Obligations.MemoryReadsWhatWasWritten := by
  rintro ⟨-, hwrites⟩
  have huntouched : ∀ e ∈ reachingBack.msc, 0 / 64 ≤ e.line → 64 * e.line < 0 + [(0 : Byte)].length →
      (∀ x ∈ e.words, ∃ m d, x.2 = .bytes m d) ∧ ∀ a, a / 64 = e.line → openByte reachingBack.openBytes a = none := by
    intro e he _ hlt
    rw [List.mem_singleton.mp he] at hlt
    simp at hlt
  obtain ⟨hbytes, -⟩ := hwrites reachingBack none 0 [0] (spWf_spSet (m := []) 63 _ rfl) (by decide) (by decide)
    huntouched _ rfl
  have h64 := hbytes 64
  rw [memByte_perform_reachingBack, memByte_reachingBack] at h64
  exact carryOver_flip _ h64

end Sys2Proof.Machine
end

section
/-! Proofs. O40: atomics, reductions and ordered contributions (12_atomics R270 to R272, R274 to R277, R281, 17_memsys
R398). -/

namespace Sys2Proof.Machine

/-! ### What an atomic stores and what it checks (R271, R274, R276) -/

theorem toSigned_mod (w x : Nat) : toSigned w (x % 2 ^ w) = toSigned w x := by
  simp only [toSigned, Nat.mod_mod]

theorem atomStore_eq_atomicStore (op : AOp) (ty : Ty) (old b c : Nat) :
    atomStore op ty old b c = atomicStore op ty old b c := by
  have hless : (if ty.signed then decide (toSigned ty.bits old < toSigned ty.bits b)
      else decide (old % 2 ^ ty.bits < b % 2 ^ ty.bits)) =
      intLess ty (old % 2 ^ ty.bits) (b % 2 ^ ty.bits) := by
    simp only [intLess, toSigned_mod]
  cases op with
  | min | max => simp only [atomStore, atomicStore, atomNew, hless]
  | _ => rfl

/-- Clean lanes of a global atomic pass its checks and wait for nothing. -/
theorem checkAtom_clean {s : State} {h : Hdr} {t : Task} {k : AccKind} {n : Nat} {ops : List (Opnd × Nat)}
    {addr : Nat → Nat} {rel : Bool} (hc : s.cleanAtom h t k n ops addr rel) :
    s.checkAtom t h k n ops (s.actLanes h t) addr rel = .ok () := by
  obtain ⟨hclean, hrel, hown⟩ := hc
  have hgo : (rel && !s.released t) = false := by
    cases rel with
    | false => rfl
    | true => simp only [hrel rfl, Bool.not_true, Bool.and_false]
  have hstores : ((workLanes h (s.actLanes h t)).any fun l => s.ownStorePending t (s.paOf t (addr l)) n) = false :=
    List.any_eq_false.mpr fun l hl => by simp only [hown l hl, Bool.false_eq_true, not_false_eq_true]
  simp only [State.checkAtom, checkGlobal_clean hclean, hgo, hstores, Bool.false_eq_true, if_false]

/-! ### What an atomic returns (R272, R382) -/

/-- A task that records and replays nothing receives its results as they are. -/
theorem logged_unlogged {s : State} {t : Task} (rs : List LogRec) (h : s.unlogged t) : s.logged t rs = .ok (s, rs) := by
  unfold State.unlogged at h
  unfold State.logged
  cases hj : s.job? t.job with
  | none => rfl
  | some j => rw [hj] at h; simp [h]

/-- Each result beside its own record. -/
theorem flatMap_zip_map {α β γ : Type} (rec_ : α → β) (g : α × β → List γ) (l : List α) :
    (l.zip (l.map rec_)).flatMap g = l.flatMap fun r => g (r, rec_ r) := by
  have hzip : l.zip (l.map rec_) = l.map fun r => (r, rec_ r) := by
    simpa only [List.map_id, id_eq] using List.zip_map' (f := id) (g := rec_) (l := l)
  rw [hzip, List.flatMap_map]

theorem dst_zero (s : State) (t : Task) (k l v : Nat) : s.dst t .zero k l v = [] := rfl

/-- The old values go to the destination, which code 1023 does not have. -/
theorem oldWrites_oldRecs (s : State) (t : Task) (ty : Ty) (d : Opnd) (rs : List AtomRes) :
    s.oldWrites t ty d (rs.zip (oldRecs d rs)) = rs.flatMap fun r => s.dst t d ty.regs r.lane (holdAs ty r.old) := by
  by_cases hd : d = .zero
  · subst hd
    simp [State.oldWrites, oldRecs, dst_zero]
  · simp only [State.oldWrites, oldRecs, hd, if_false, flatMap_zip_map]

/-- What ATOM and ATOMP share: on words that can be read, the lanes perform and their results return. -/
theorem atomWith_performs {s s2 : State} {t : Task} {n : Nat} {place : Bool} {ps : List Placed}
    {f : Nat → Nat → Option Nat} {rs : List AtomRes} (h : Hdr) (acq : Bool) (recs : List AtomRes → List LogRec)
    (writes : State → List (AtomRes × LogRec) → List RegWrite) (hlog : s.unlogged t) (hread : s.badWord t n ps = none)
    (hrun : s.runAtoms t.core n place f ps = (s2, rs)) :
    atomWith s t h n acq place ps f recs writes = .ok ((s2.noteStores t.uid (storesOf n ps)).atomReturn t h acq
      (writes (s2.noteStores t.uid (storesOf n ps)) (rs.zip (recs rs)))) := by
  simp only [atomWith, hread, hrun, logged_unlogged _ hlog]

/-! ### ATOM, ATOMP, ATOMS (R270 to R276) -/

theorem execAtom_performs {h : Hdr} {a : AtomArgs} {s s1 s2 : State} {t : Task} {ps : List Placed}
    {rs : List AtomRes} (hA : Acts s h t (atomKeys s h t a.op a.base a.b a.c a.d a.ty.regs 2))
    (hc : s.cleanAtom h t .atomic (tyBytes a.ty) ([(a.base, 2), (a.b, a.ty.regs), (a.d, a.ty.regs)] ++
      casOps a.op a.c a.ty.regs) (s.atomEa t a.base a.off) a.rel)
    (hp : s.placeAll t (workLanes h (s.actLanes h t)) (s.atomEa t a.base a.off) = (s1, ps)) (hlog : s1.unlogged t)
    (hread : s1.badWord t (tyBytes a.ty) ps = none)
    (hrun : s1.runAtoms t.core (tyBytes a.ty) false
      (fun l old => atomicStore a.op a.ty old (s1.src t a.b a.ty l) (s1.src t a.c a.ty l)) ps = (s2, rs))
    {s3 : State} (hs3 : s3 = s2.noteStores t.uid (storesOf (tyBytes a.ty) ps)) :
    execAtom h a s = .next (((if a.acq then s3.acquire t.core none else s3).pushReturn t
      (if a.d = .zero then [] else rs.flatMap fun r => s3.dst t a.d a.ty.regs r.lane (holdAs a.ty r.old))
      (barOf h.hint)).goesOn s h t true) := by
  subst hs3
  unfold execAtom
  refine issue_ok true hA ?_
  simp only [checkAtom_clean hc, hp, atomStore_eq_atomicStore]
  split
  · simp only [hread, hrun]
    rfl
  · rw [atomWith_performs h _ _ _ hlog hread hrun, oldWrites_oldRecs]
    rfl

theorem execAtomp_performs {h : Hdr} {a : AtompArgs} {s s1 s2 : State} {t : Task} {ps : List Placed}
    {rs : List AtomRes} (hA : Acts s h t ((workLanes h (s.actLanes h t)).flatMap fun l =>
      s.srcKeys t a.base 2 l ++ s.srcKeys t a.b 2 l ++ dstReads a.d l))
    (hc : s.cleanAtom h t .atomic 8 [(a.base, 2), (a.b, 2), (a.d, 2)] (s.atomEa t a.base a.off) a.rel)
    (hp : s.placeAll t (workLanes h (s.actLanes h t)) (s.atomEa t a.base a.off) = (s1, ps)) (hlog : s1.unlogged t)
    (hread : s1.badWord t 8 ps = none)
    (hrun : s1.runAtoms t.core 8 true
      (fun l old => if s1.src t a.b .n64 l < old then some (s1.src t a.b .n64 l) else none) ps = (s2, rs))
    {s3 : State} (hs3 : s3 = s2.noteStores t.uid (storesOf 8 ps)) :
    execAtomp h a s = .next (((if a.acq then s3.acquire t.core none else s3).pushReturn t
      (rs.flatMap fun r => s3.dst t a.d 2 r.lane r.old ++ [⟨predKey h.u a.p r.lane, bit32 r.wrote⟩])
      (barOf h.hint)).goesOn s h t true) := by
  subst hs3
  unfold execAtomp
  refine issue_ok true hA ?_
  simp only [checkAtom_clean hc, hp]
  rw [atomWith_performs h _ _ _ hlog hread hrun, flatMap_zip_map]
  rfl

theorem execAtoms_performs {h : Hdr} {a : AtomsArgs} {s : State} {t : Task} {c : Core} {rs : List AtomRes}
    (hA : Acts s h t (atomKeys s h t a.op a.base a.b a.c a.d a.ty.regs 1))
    (hc : s.cleanScratch h t .both (tyBytes a.ty) ([(a.base, 1), (a.b, a.ty.regs), (a.d, a.ty.regs)] ++
      casOps a.op a.c a.ty.regs) (s.atomsEa t a.base a.off)) (hlog : s.unlogged t)
    (hrun : (s.core t.core).runScratch (tyBytes a.ty)
      (fun l old => atomicStore a.op a.ty old (s.src t a.b a.ty l) (s.src t a.c a.ty l))
      ((workLanes h (s.actLanes h t)).map fun l => (l, s.atomsEa t a.base a.off l)) = (c, rs))
    {s1 : State} (hs1 : s1 = s.setCore t.core c) :
    execAtoms h a s = .next ((s1.pushReturn t (rs.flatMap fun r =>
      s1.dst t a.d a.ty.regs r.lane (holdAs a.ty r.old)) (barOf h.hint)).goesOn s h t true) := by
  have hset : (s.modCore t.core fun c => (c.runScratch (tyBytes a.ty)
      (fun l old => atomicStore a.op a.ty old (s.src t a.b a.ty l) (s.src t a.c a.ty l))
      ((workLanes h (s.actLanes h t)).map fun l => (l, s.atomsEa t a.base a.off l))).1) = s1 :=
    (congrArg (fun x : Core × List AtomRes => s.setCore t.core x.1) hrun).trans hs1.symm
  have hrecs : (if (oldRecs a.d rs).isEmpty then .ok (s, []) else s.logged t (oldRecs a.d rs)) =
      (.ok (s, oldRecs a.d rs) : M (State × List LogRec)) := by
    split
    · rename_i he
      rw [List.isEmpty_iff.mp he]
    · exact logged_unlogged _ hlog
  unfold execAtoms
  refine issue_ok true hA ?_
  simp only [checkScratch_clean hc, atomStore_eq_atomicStore, hrun, hrecs, hset, oldWrites_oldRecs]

/-- ATOM, ATOMP and ATOMS. -/
theorem atomicsPerform : Rule.AtomicsPerform := by
  refine ⟨fun h a s t s1 ps f s2 rs hA hc hp hlog hread hf hrun s3 s4 hs3 hs4 => ?_,
    fun h a s t s1 ps s2 rs hA hc hp hlog hread hrun s3 s4 hs3 hs4 => ?_,
    fun h a s t f c rs hA hc hlog hf hrun s1 hs1 => ?_⟩
  · subst hf hs4
    exact (exec_atom h a s).trans (execAtom_performs hA hc hp hlog hread hrun hs3)
  · subst hs4
    exact (exec_atomp h a s).trans (execAtomp_performs hA hc hp hlog hread hrun hs3)
  · subst hf
    exact (exec_atoms h a s).trans (execAtoms_performs hA hc hlog hrun hs1)

/-! ### RED, ATOMF, RSEAL (R270, R277, R281, 17_memsys R398) -/

theorem execRed_performs {h : Hdr} {a : RedArgs} {s s1 : State} {t : Task} {ps : List Placed}
    (hA : Acts s h t ((workLanes h (s.actLanes h t)).flatMap fun l =>
      s.srcKeys t a.base 2 l ++ s.srcKeys t a.b a.ty.regs l))
    (hc : s.cleanAtom h t .red (tyBytes a.ty) [(a.base, 2), (a.b, a.ty.regs)] (s.atomEa t a.base a.off) false)
    (hp : s.placeAll t (workLanes h (s.actLanes h t)) (s.atomEa t a.base a.off) = (s1, ps)) :
    execRed h a s = .next (((ps.foldl (fun s' p =>
      s'.performRed t.core p.pa a.op a.ty (s1.src t a.b a.ty p.lane)) s1).noteStores t.uid
        (storesOf (tyBytes a.ty) ps)).goesOn s h t) := by
  unfold execRed
  refine issue_ok false hA ?_
  simp only [checkAtom_clean hc, hp]
  rfl

theorem execAtomf_contributes {h : Hdr} {a : AtomfArgs} {s s1 : State} {t : Task} {j : Job} {ps : List Placed}
    {cs : List Contrib} (hA : Acts s h t ((workLanes h (s.actLanes h t)).flatMap fun l =>
      s.srcKeys t a.base 2 l ++ s.srcKeys t a.b 1 l))
    (hc : s.cleanAtom h t .fold 4 [(a.base, 2), (a.b, 1)] (s.atomEa t a.base a.off) false) (hj : s.job? t.job = some j)
    (hp : s.placeAll t (workLanes h (s.actLanes h t)) (s.atomEa t a.base a.off) = (s1, ps))
    (hcs : cs = ps.map fun p => t.contrib p.pa (s1.sliceOf t p.va p.pa) p.lane (s1.src t a.b .f32 p.lane))
    (hroom : s1.contribRoom j (cs.map (·.slice)) = true) (halive : (s1.contributeAll t j cs).gone t.uid = false) :
    execAtomf h a s = .next ((s1.contributeAll t j cs).goesOn s h t) := by
  subst hcs
  unfold execAtomf
  refine issue_ok false hA ?_
  simp only [checkAtom_clean hc, withJob_found _ hj, hp, hroom, halive, Bool.not_true, Bool.false_eq_true, if_false]
  rfl

theorem execRseal_folds {h : Hdr} {a : RsealArgs} {s s1 s2 : State} {t : Task} {va n : Nat} {f : BitVec 32}
    (hA : Acts s h t (s.srcKeys t a.base 2 0 ++ s.srcKeys t a.n 1 0)) (hva : va = s.atomEa t a.base a.off 0)
    (hn : n = s.src t a.n .n32 0) (hregs : s.regBads t [(a.base, 2), (a.n, 1)] 0 = [])
    (hrange : s.rangeBads t .fold va n = [])
    (hready : ∀ x ∈ pieces va n, s.accessWaits t.core (s.ctxOf t) x.1 = false) (hrel : s.released t = true)
    (hs1 : s1 = s.touchAll t.core (s.ctxOf t) ((pieces va n).map (·.1)))
    (hfold : s1.foldWords t.core (s1.sealedWords t va n) = (s2, f)) :
    execRseal h a s = .next ((s2.orFlags t.uid f).goesOn s h t) := by
  subst hva hn hs1
  have hcheck : checkLanes true [0] (s.regBads t [(a.base, 2), (a.n, 1)])
      (fun _ => s.rangeBads t .fold (s.atomEa t a.base a.off 0) (s.src t a.n .n32 0)) = .ok () :=
    checkLanes_clean (fun l hl => by rw [List.mem_singleton.mp hl, hregs]) fun _ _ => hrange
  have hgo : ((pieces (s.atomEa t a.base a.off 0) (s.src t a.n .n32 0)).any
      fun (x, _) => s.accessWaits t.core (s.ctxOf t) x) = false :=
    List.any_eq_false.mpr fun x hx => by simp only [hready x hx, Bool.false_eq_true, not_false_eq_true]
  unfold execRseal
  refine issue_ok false hA ?_
  simp only [hcheck, hgo, hrel, Bool.not_true, Bool.or_self, Bool.false_eq_true, if_false, hfold]
  rfl

/-- RED, ATOMF and RSEAL. -/
theorem reductionsPerform : Rule.ReductionsPerform :=
  ⟨fun h a s _ _ _ hA hc hp => (exec_red h a s).trans (execRed_performs hA hc hp),
   fun h a s _ _ _ _ _ hA hc hj hp hcs hroom halive =>
    (exec_atomf h a s).trans (execAtomf_contributes hA hc hj hp hcs hroom halive),
   fun h a s _ _ _ _ _ _ hA hva hn hregs hrange hready hrel hs1 hfold =>
    (exec_rseal h a s).trans (execRseal_folds hA hva hn hregs hrange hready hrel hs1 hfold)⟩

/-- Settles O40: the lanes' checks pass; behind them an atomic is its run over the lanes and what it returns, a
reduction, a contribution and a fold are what they hand on. -/
theorem atomicsAndReductionsPerform : Obligations.AtomicsAndReductionsPerform := ⟨atomicsPerform, reductionsPerform⟩

end Sys2Proof.Machine
end

section
/-! Proofs. O41: the fold of contributions (12_atomics R278, R281, R282). -/

namespace Sys2Proof.Machine

/-! ### Sorting by insertion does not see the order of arrival -/

/-- Under a transitive order, elements of which one comes before the other can be inserted in either order. -/
theorem insertBy_comm {α : Type} {lt : α → α → Bool} (htrans : ∀ a b c, lt a b = true → lt b c = true → lt a c = true)
    {x y : α} (hxy : lt x y = true) (hyx : lt y x = false) (l : List α) :
    insertBy lt y (insertBy lt x l) = insertBy lt x (insertBy lt y l) := by
  induction l with
  | nil => simp [insertBy, hxy, hyx]
  | cons z l ih =>
    cases hyz : lt y z with
    | true => simp [insertBy, htrans x y z hxy hyz, hyz, hxy, hyx]
    | false => cases hxz : lt x z <;> simp [insertBy, hxz, hyz, hyx, ih]

/-- Lists of the same elements, of any two of which one comes before the other, sort alike. -/
theorem sortBy_perm {α : Type} {lt : α → α → Bool} (htrans : ∀ a b c, lt a b = true → lt b c = true → lt a c = true)
    (hirr : ∀ a, lt a a = false) {l l' : List α} (hp : l.Perm l')
    (htotal : ∀ x ∈ l, ∀ y ∈ l, x ≠ y → lt x y = true ∨ lt y x = true) : sortBy lt l = sortBy lt l' := by
  have hasymm : ∀ x y, lt x y = true → lt y x = false := fun x y hxy =>
    Bool.eq_false_iff.mpr fun hyx => Bool.eq_false_iff.mp (hirr x) (htrans x y x hxy hyx)
  refine hp.foldl_eq' (fun x hx y hy z => ?_) []
  by_cases hxy : x = y
  · rw [hxy]
  · cases htotal x hx y hy hxy with
    | inl h => exact insertBy_comm htrans h (hasymm x y h) z
    | inr h => exact (insertBy_comm htrans h (hasymm y x h) z).symm

/-! ### The order of the fold (R281) -/

/-- What contributions are folded by. -/
def Contrib.foldKey (c : Contrib) : List Nat := [c.key.toNat, c.lane, c.idx.toNat, c.task.toNat, c.elem]

theorem Contrib.before_iff (a b : Contrib) : a.before b = true ↔ a.foldKey < b.foldKey := List.lex_eq_true_iff_lt

theorem Contrib.before_trans (a b c : Contrib) (hab : a.before b = true) (hbc : b.before c = true) :
    a.before c = true :=
  (before_iff a c).mpr (List.lt_trans ((before_iff a b).mp hab) ((before_iff b c).mp hbc))

theorem Contrib.before_irrefl (a : Contrib) : a.before a = false :=
  Bool.eq_false_iff.mpr fun h => List.lt_irrefl _ ((before_iff a a).mp h)

/-- Of contributions that are not alike in key, lane, issue index, task and element one comes before the other. -/
theorem Contrib.before_total {a b : Contrib}
    (h : (a.key, a.lane, a.idx, a.task, a.elem) ≠ (b.key, b.lane, b.idx, b.task, b.elem)) :
    a.before b = true ∨ b.before a = true := by
  by_cases hab : a.foldKey < b.foldKey
  · exact .inl ((before_iff a b).mpr hab)
  · by_cases hba : b.foldKey < a.foldKey
    · exact .inr ((before_iff b a).mpr hba)
    · have hkey : a.foldKey = b.foldKey := List.le_antisymm (List.not_lt.mp hba) (List.not_lt.mp hab)
      simp only [foldKey, List.cons.injEq, BitVec.toNat_inj, and_true] at hkey
      obtain ⟨hk, hlane, hidx, htask, helem⟩ := hkey
      exact absurd (by rw [hk, hlane, hidx, htask, helem]) h

/-- Where no two elements of a list share a key, the key tells them apart. -/
theorem eq_of_nodup_map {α β : Type} {f : α → β} {l : List α} (h : (l.map f).Nodup) {x y : α} (hx : x ∈ l) (hy : y ∈ l)
    (hxy : f x = f y) : x = y := by
  induction l with
  | nil => cases hx
  | cons z l ih =>
    obtain ⟨hz, hl⟩ := List.nodup_cons.mp h
    cases hx with
    | head =>
      cases hy with
      | head => rfl
      | tail _ hy => exact absurd (hxy ▸ List.mem_map_of_mem hy) hz
    | tail _ hx =>
      cases hy with
      | head => exact absurd (hxy ▸ List.mem_map_of_mem hx) hz
      | tail _ hy => exact ih hl hx hy

/-- Contributions to a word that arrived in another order are folded in the same one. -/
theorem sortBy_before_perm {l l' : List Contrib} (hp : l.Perm l')
    (hnodup : (l.map fun c => (c.key, c.lane, c.idx, c.task, c.elem)).Nodup) :
    sortBy Contrib.before l = sortBy Contrib.before l' :=
  sortBy_perm Contrib.before_trans Contrib.before_irrefl hp fun _ hx _ hy hne =>
    Contrib.before_total fun hkey => hne (eq_of_nodup_map hnodup hx hy hkey)

/-! ### Writes to memory do not see the contributions -/

/-- A state with other contributions under way. -/
def State.withContribs (s : State) (cs : List Contrib) : State := { s with contribs := cs }

section
variable (s : State) (cs : List Contrib)

@[simp] theorem withContribs_msc : (s.withContribs cs).msc = s.msc := rfl
@[simp] theorem withContribs_mregs : (s.withContribs cs).mregs = s.mregs := rfl
@[simp] theorem withContribs_openBytes : (s.withContribs cs).openBytes = s.openBytes := rfl
@[simp] theorem withContribs_ctxs : (s.withContribs cs).ctxs = s.ctxs := rfl
@[simp] theorem withContribs_watches : (s.withContribs cs).watches = s.watches := rfl
@[simp] theorem protOf_withContribs (pa : Nat) : (s.withContribs cs).protOf pa = s.protOf pa := rfl
@[simp] theorem protRange_withContribs : (s.withContribs cs).protRange = s.protRange := rfl
@[simp] theorem stackOf_withContribs (pa : Nat) : (s.withContribs cs).stackOf pa = s.stackOf pa := rfl
@[simp] theorem placeOf_withContribs (pa : Nat) : (s.withContribs cs).placeOf pa = s.placeOf pa := rfl

theorem memBytes_withContribs (pa n : Nat) : (s.withContribs cs).memBytes pa n = s.memBytes pa n := by
  induction n generalizing pa with
  | zero => rfl
  | succ n ih => exact congrArg (s.memByte pa :: ·) (ih (pa + 1))

theorem devBytes_withContribs (pa n : Nat) : (s.withContribs cs).devBytes pa n = s.devBytes pa n := by
  induction n generalizing pa with
  | zero => rfl
  | succ n ih => exact congrArg (s.devByte pa :: ·) (ih (pa + 1))

theorem countWrite_withContribs (line : Nat) :
    (s.withContribs cs).countWrite line = (s.countWrite line).withContribs cs := by
  unfold State.countWrite
  rw [withContribs_mregs, protOf_withContribs, protRange_withContribs]
  split
  · rfl
  · cases (s.protOf (64 * line)).bind s.protRange with
    | none => rfl
    | some r =>
      dsimp only
      split <;> rfl

theorem mscEvict_withContribs (line : Nat) :
    (s.withContribs cs).mscEvict line = (s.mscEvict line).withContribs cs := by
  unfold State.mscEvict
  rw [withContribs_msc]
  cases findMsc s.msc line with
  | none => rfl
  | some e =>
    dsimp only
    rw [← countWrite_withContribs]
    split <;> rfl

theorem mscRoom_withContribs (line : Nat) :
    (s.withContribs cs).mscRoom line = (s.mscRoom line).withContribs cs := by
  cases hmine : s.msc.filter fun e => s.stackOf (64 * e.line) == s.stackOf (64 * line) with
  | nil => simp only [State.mscRoom, withContribs_msc, stackOf_withContribs, hmine]
  | cons e l =>
    simp only [State.mscRoom, withContribs_msc, stackOf_withContribs, hmine]
    split
    · exact mscEvict_withContribs s cs _
    · rfl

theorem memPutByte_withContribs (pa : Nat) (b : Byte) :
    (s.withContribs cs).memPutByte pa b = (s.memPutByte pa b).withContribs cs := by
  unfold State.memPutByte
  rw [withContribs_msc, mscRoom_withContribs]
  cases findMsc s.msc (pa / 64) with
  | none => rfl
  | some e =>
    dsimp only
    split <;> rfl

theorem memPutEach_withContribs (pa : Nat) (bs : List Byte) :
    (s.withContribs cs).memPutEach pa bs = (s.memPutEach pa bs).withContribs cs := by
  induction bs generalizing s pa with
  | nil => rfl
  | cons b bs ih => rw [State.memPutEach, memPutByte_withContribs, ih, State.memPutEach]

theorem thaw_withContribs (pa n : Nat) : (s.withContribs cs).thaw pa n = (s.thaw pa n).withContribs cs := by
  unfold State.thaw
  rw [withContribs_openBytes]
  split <;> rfl

theorem remember_withContribs (pa n : Nat) :
    (s.withContribs cs).remember pa n = (s.remember pa n).withContribs cs := by
  unfold State.remember
  rw [memBytes_withContribs]
  split <;> rfl

theorem markImages_withContribs (pa n : Nat) :
    (s.withContribs cs).markImages pa n = (s.markImages pa n).withContribs cs := by
  unfold State.markImages
  rw [withContribs_ctxs]
  split <;> rfl

theorem hitWatches_withContribs (pa n : Nat) :
    (s.withContribs cs).hitWatches pa n = (s.hitWatches pa n).withContribs cs := by
  unfold State.hitWatches
  rw [withContribs_watches]
  split <;> rfl

theorem memPut_withContribs (pa : Nat) (bs : List Byte) :
    (s.withContribs cs).memPut pa bs = (s.memPut pa bs).withContribs cs := by
  simp only [State.memPut, State.memPutRaw, thaw_withContribs, remember_withContribs, memPutEach_withContribs,
    markImages_withContribs]

theorem performHbm_withContribs (core : Option Nat) (pa : Nat) (bs : List Byte) :
    (s.withContribs cs).performHbm core pa bs = (s.performHbm core pa bs).withContribs cs := by
  unfold State.performHbm
  rw [memPut_withContribs]
  dsimp only
  rw [← hitWatches_withContribs]
  cases core <;> rfl

theorem perform_withContribs (core : Option Nat) (pa : Nat) (bs : List Byte) :
    (s.withContribs cs).perform core pa bs = (s.perform core pa bs).withContribs cs := by
  unfold State.perform
  rw [placeOf_withContribs]
  cases s.placeOf pa with
  | hbm => exact performHbm_withContribs s cs core pa bs
  | _ => rfl

/-- A write performs whatever contributions are under way, and leaves them as they are. -/
theorem performWord_withContribs (core pa n v : Nat) :
    (s.withContribs cs).performWord core pa n v = (s.performWord core pa n v).withContribs cs := by
  unfold State.performWord
  rw [perform_withContribs]
  rfl

end

/-! ### The fold of a word (R281) -/

/-- Beside the contributions left, a fold is its word's write of the sum; they do not matter to it otherwise. -/
theorem foldWord_withContribs (s : State) (core pa : Nat) {cs : List Contrib}
    (hperm : (s.contribs.filter (·.addr == pa)).Perm (cs.filter (·.addr == pa)))
    (hnodup : ((s.contribs.filter (·.addr == pa)).map fun c => (c.key, c.lane, c.idx, c.task, c.elem)).Nodup) :
    (s.withContribs cs).foldWord core pa =
      ((s.foldWord core pa).1.withContribs (cs.filter (·.addr != pa)), (s.foldWord core pa).2) := by
  have hsort : sortBy Contrib.before ((s.withContribs cs).contribs.filter (·.addr == pa)) =
      sortBy Contrib.before (s.contribs.filter (·.addr == pa)) := (sortBy_before_perm hperm hnodup).symm
  simp only [State.foldWord, hsort, devBytes_withContribs, performWord_withContribs]
  rfl

/-- Settles O41: the contributions to a word are sorted before they are folded, which brings either order of arrival to
the same, and the write of their sum does not see which contributions are under way. -/
theorem foldOrderIsFixed : Obligations.FoldOrderIsFixed := by
  intro s s' core pa hrest hperm hnodup
  have hs' : s' = s.withContribs s'.contribs := (congrArg (State.withContribs · s'.contribs) hrest).symm
  rw [hs', foldWord_withContribs s core pa hperm hnodup]
  exact ⟨rfl, rfl⟩

end Sys2Proof.Machine
end

section
/-! Proofs. O7: what reset leaves. -/

namespace Sys2Proof.Machine

/-- Settles O7: every value is a field of `State.reset`, and a core, a context or a register that no list holds reads as
its default, which is its reset value. -/
theorem resetRegisters : Obligations.ResetRegisters :=
  ⟨rfl, rfl, rfl, rfl, rfl, rfl, rfl, rfl, rfl, rfl, rfl, rfl, rfl, rfl, rfl, rfl, rfl, rfl, rfl, rfl,
    fun _ => ⟨rfl, rfl, rfl⟩, fun _ => ⟨rfl, rfl, rfl, rfl, fun _ => ⟨rfl, rfl, rfl⟩⟩⟩

end Sys2Proof.Machine
end

section
/-! Proofs. O60: the words of the manual's worked examples. -/

namespace Sys2Proof.Machine

/-- Settles O60: the decoder evaluates each word, field by field, to its instruction. -/
theorem writtenWordsDecode : Obligations.WrittenWordsDecode :=
  ⟨rfl, rfl, rfl, rfl, rfl, rfl, rfl, rfl, rfl, rfl, rfl, rfl⟩

end Sys2Proof.Machine
end

section
/-! Proofs. What tiles, engines, leases and system instructions share: verdicts that no log touches, and checks without a
cause. -/

namespace Sys2Proof.Machine

/-- Outside record and replay a verdict is what the instruction finds (16_system R382). -/
theorem verdict_unlogged {s : State} {t : Task} (ok : Bool) (h : s.unlogged t) : s.verdict t ok = .ok (s, ok) := by
  simp only [State.verdict, logged1_unlogged _ h, Bool.and_not_self, Bool.false_eq_true, if_false]

@[simp] theorem raiseOne_nil : raiseOne [] = .ok () := rfl

end Sys2Proof.Machine
end

section
/-! Proofs. O42: TALLOC, THAND, TREL and TINFO (13_tiles R286, R288, R290 to R293, R312 to R315). -/

namespace Sys2Proof.Machine

/-! ### TALLOC (R290, R312) -/

section
variable {h : Hdr} {a : TallocArgs} {s : State} {t : Task} (hA : Acts s h t (gKeys a.base.toNat 4)) (hlog : s.unlogged t)
include hA hlog

/-- A name that maps a record already takes no other. -/
theorem execTalloc_named {r : Nat} (hr : t.recOf a.h.toNat = some r) :
    execTalloc h a s = .next ((s.putQ t a.q false).goesOn s h t) := by
  unfold execTalloc
  refine issue_ok false hA ?_
  simp only [hr, Option.isSome_some, if_true, verdict_unlogged _ hlog]
  rfl

variable {w : List Nat} (hw : w = s.descWords t a.base) (hr : t.recOf a.h.toNat = none) (hb : s.descBads t w = [])
include hw hr hb

theorem execTalloc_allocates {c : Core} {r : Nat}
    (halloc : (s.core t.core).allocTile (descOf w) ((descOf w).scaleName.bind t.recOf)
      ((descOf w).bookName.bind t.recOf) = some (c, r)) :
    execTalloc h a s =
      .next ((((s.setCore t.core c).setName t.uid a.h.toNat (.mapped r)).putQ t a.q true).goesOn s h t) := by
  subst hw
  unfold State.descWords at hb halloc
  unfold execTalloc
  refine issue_ok false hA ?_
  simp only [hr, Option.isSome_none, Bool.false_eq_true, if_false, hb, raiseOne_nil, halloc, verdict_unlogged _ hlog, if_true]
  rfl

theorem execTalloc_refuses (halloc : (s.core t.core).allocTile (descOf w) ((descOf w).scaleName.bind t.recOf)
      ((descOf w).bookName.bind t.recOf) = none) :
    execTalloc h a s = .next ((s.putQ t a.q false).goesOn s h t) := by
  subst hw
  unfold State.descWords at hb halloc
  unfold execTalloc
  refine issue_ok false hA ?_
  simp only [hr, Option.isSome_none, Bool.false_eq_true, if_false, hb, raiseOne_nil, halloc, verdict_unlogged _ hlog]
  rfl

end

/-! ### Records and runs of granules (R286, R290) -/

theorem allocTile_none {c : Core} {d : Desc} (x y : Option Nat) (h : c.freeRec = none ∨ c.freeRun d.bank d.size = none) :
    c.allocTile d x y = none := by
  unfold Core.allocTile
  obtain h | h := h
  · rw [h]
  · rw [h]; cases c.freeRec <;> rfl

/-- What an allocation amounts to: the lowest free record and the lowest free run. -/
theorem allocTile_some {c c' : Core} {d : Desc} {x y : Option Nat} {r : Nat} (h : c.allocTile d x y = some (c', r)) :
    ∃ b, c.freeRec = some r ∧ c.freeRun d.bank d.size = some b ∧
      c' = (c.putRec ⟨r, d, .allocated, ((c.rec? r).map (·.gen)).getD 0, b, x, y⟩).setZero d.bank b d.size := by
  unfold Core.allocTile at h
  split at h
  next i b hi hb =>
    simp only [Option.some.injEq, Prod.mk.injEq] at h
    obtain ⟨rfl, rfl⟩ := h
    exact ⟨b, hi, hb, rfl⟩
  next => cases h

/-- The first number below a bound that a test passes. -/
theorem find?_range_some {n k : Nat} {p : Nat → Bool} (h : (List.range n).find? p = some k) :
    p k = true ∧ ∀ i < k, p i = false := by
  rw [List.find?_range_eq_some] at h
  obtain ⟨hp, -, hlt⟩ := h
  exact ⟨hp, fun i hi => by simpa using hlt i hi⟩

theorem find?_insertBy {α : Type} {lt : α → α → Bool} {x : α} {p : α → Bool} (hp : p x = true) (l : List α)
    (hl : ∀ y ∈ l, p y = false) : (insertBy lt x l).find? p = some x := by
  induction l with
  | nil => simp [insertBy, hp]
  | cons y l ih =>
    have hy : p y = false := hl y (by simp)
    simp only [insertBy]
    split
    · simp [hp]
    · simp [hy, ih fun z hz => hl z (by simp [hz])]

theorem find?_mapFirst_const {α : Type} {x : α} {p : α → Bool} (hp : p x = true) (l : List α) (hl : l.any p = true) :
    (mapFirst p (fun _ => x) l).find? p = some x := by
  induction l with
  | nil => simp at hl
  | cons y l ih =>
    cases hy : p y
    · have hl' : l.any p = true := by simpa [hy] using hl
      simp [mapFirst, hy, ih hl']
    · simp [mapFirst, hy, hp]

/-- A record that has been put is found at its index. -/
theorem rec?_putRec (c : Core) (x : HRec) : (c.putRec x).rec? x.idx = some x := by
  unfold Core.putRec Core.rec?
  split
  next hany => exact find?_mapFirst_const (by simp) _ hany
  next hany => exact find?_insertBy (by simp) _ fun y hy => by simpa using fun h => hany (List.any_eq_true.mpr ⟨y, hy, by simpa using h⟩)

@[simp] theorem rec?_setZero (c : Core) (bank b n r : Nat) : (c.setZero bank b n).rec? r = c.rec? r := rfl

/-- The record and the run that an allocation takes. -/
theorem allocTile_takes (c c' : Core) (d : Desc) (x y : Option Nat) (r : Nat) (h : c.allocTile d x y = some (c', r)) :
    c.recUsed r = false ∧ (∀ i < r, c.recUsed i = true) ∧ ∃ n, c'.rec? r = some n ∧ n.desc = d ∧ n.st = .allocated ∧
      n.gen = ((c.rec? r).map (·.gen)).getD 0 ∧ c.runFree d.bank n.base d.size = true ∧
      (∀ b < n.base, c.runFree d.bank b d.size = false) ∧ ∀ g < d.size, zeroKey d.bank (n.base + g) ∈ c'.zeroed := by
  obtain ⟨b, hrec, hrun, rfl⟩ := allocTile_some h
  obtain ⟨hfree, hlow⟩ := find?_range_some hrec
  obtain ⟨hrunFree, hrunLow⟩ := find?_range_some hrun
  have hput := rec?_putRec c ⟨r, d, .allocated, ((c.rec? r).map HRec.gen).getD 0, b, x, y⟩
  refine ⟨by simpa using hfree, fun i hi => by simpa using hlow i hi, _, hput, rfl, rfl, rfl, hrunFree, hrunLow,
    fun g hg => ?_⟩
  exact List.mem_append_left _ (List.mem_map.mpr ⟨g, List.mem_range.mpr hg, rfl⟩)

/-! ### THAND (R314) -/

section
variable {h : Hdr} {a : ThandArgs} {s : State} {t : Task} {r : HRec} (hA : Acts s h t (s.srcKeys t a.m 1 0))
  (hlog : s.unlogged t) (hr : s.nameRec t a.h.toNat = .ok r)
include hA hlog hr

/-- The member that THAND names, alive or not. -/
def State.handMember (s : State) (t : Task) (m : Nat) : Option Task :=
  ((s.cohort? t.cohort).bind fun c => if m < c.size then c.members[m]? else none).bind s.task?

omit hA hlog hr in
theorem liveMember_iff {m : Nat} {x : Task} :
    s.liveMember t m x ↔ s.handMember t m = some x ∧ x.isLive = true := by
  unfold State.liveMember State.handMember
  cases hc : s.cohort? t.cohort with
  | none => simp
  | some c => by_cases hm : m < c.size <;> simp [hm]

theorem execThand_hands {x : Task} (hx : s.liveMember t (s.src t a.m .n32 0 % 8) x) (hfree : x.recOf a.n.toNat = none) :
    execThand h a s = .next ((((s.setName t.uid a.h.toNat .unmapped).setName x.uid a.n.toNat (.mapped r.idx)).putQ t a.q
      true).goesOn s h t) := by
  obtain ⟨hmem, hlive⟩ := liveMember_iff.mp hx
  unfold State.handMember at hmem
  unfold execThand
  refine issue_ok false hA ?_
  simp only [hr, liftC, hmem, hlive, hfree, Option.isNone_none, Bool.and_true, verdict_unlogged _ hlog]
  rfl

theorem execThand_refuses (hno : ∀ x, s.liveMember t (s.src t a.m .n32 0 % 8) x → x.recOf a.n.toNat ≠ none) :
    execThand h a s = .next ((s.putQ t a.q false).goesOn s h t) := by
  unfold execThand
  refine issue_ok false hA ?_
  cases hmem : s.handMember t (s.src t a.m .n32 0 % 8) with
  | none =>
    unfold State.handMember at hmem
    simp only [hr, liftC, hmem, verdict_unlogged _ hlog]
    rfl
  | some x =>
    have hok : (x.isLive && (x.recOf a.n.toNat).isNone) = false := by
      cases hlive : x.isLive
      · rfl
      · simpa [Option.isSome_iff_ne_none] using hno x (liveMember_iff.mpr ⟨hmem, hlive⟩)
    unfold State.handMember at hmem
    simp only [hr, liftC, hmem, hok, verdict_unlogged _ hlog]
    rfl

end

/-! ### TREL and TINFO (R293, R313, R315) -/

theorem execTrel_releases {h : Hdr} {a : HandleArgs} {s : State} {t : Task} {r : HRec} (hA : Acts s h t [])
    (hr : s.nameRec t a.h.toNat = .ok r) : execTrel h a s =
      .next (((s.modCore t.core (·.releaseRec r.idx)).setName t.uid a.h.toNat .released).goesOn s h t) := by
  unfold execTrel
  refine issue_ok false hA ?_
  simp only [hr, liftC]
  rfl

theorem execTrel_refused {h : Hdr} {a : HandleArgs} {s : State} {t : Task} {c : Cause} (hA : Acts s h t [])
    (hr : s.nameRec t a.h.toNat = .error c) : execTrel h a s = .next (s.traps t (raise0 c)) := by
  unfold execTrel
  refine issue_raise hA ?_
  simp only [hr, liftC]
  rfl

/-- The causes of a name that maps nothing (R291). -/
theorem nameRec_error {s : State} {t : Task} {n : Nat} {c : Cause} (hr : s.nameRec t n = .error c) :
    c = if t.name n = .released then .handleReleased else .handleUnallocated := by
  unfold State.nameRec at hr
  split at hr
  next hn => rw [if_pos hn]; cases hr; rfl
  next hn => rw [hn]; cases hr; rfl
  next r hn =>
    split at hr
    · cases hr
    · rw [hn]; cases hr; rfl

theorem mapIdx_map {α β γ : Type} (f : Nat → β → γ) (g : α → β) (l : List α) :
    (l.map g).mapIdx f = l.mapIdx fun i x => f i (g x) := by
  refine List.ext_getElem? fun i => ?_
  simp [Function.comp_def]

theorem execTinfo_reads {h : Hdr} {a : TinfoArgs} {s : State} {t : Task} (hA : Acts s h t []) (hlog : s.unlogged t) :
    execTinfo h a s = .next ((s.putRegs t ((s.infoWords t a.h.toNat).mapIdx fun i w =>
      ⟨kg (a.base.toNat + i), BitVec.ofNat 32 w⟩)).goesOn s h t) := by
  unfold execTinfo
  refine issue_ok false hA ?_
  simp only [logged_unlogged _ hlog, mapIdx_map]
  rfl

/-- Settles O42: each instruction is one lemma per answer that it gives; what an allocation takes is the first record and
the first run that are free. -/
theorem tilesChangeHands : Obligations.TilesChangeHands := by
  refine ⟨fun h a s t w d hA hlog hw hd => ?_, allocTile_takes, fun h a s t r m hA hlog hr hm => ?_,
    fun h a s t r hA hr => (exec_trel h a s).trans (execTrel_releases hA hr),
    fun h a s t c hA hr => ⟨(exec_trel h a s).trans (execTrel_refused hA hr), nameRec_error hr⟩,
    fun h a s t ws hA hlog hws => ?_⟩
  · rw [exec_talloc]
    subst hd
    exact ⟨fun r hr => execTalloc_named hA hlog hr, fun hr hb =>
      ⟨fun c r => execTalloc_allocates hA hlog hw hr hb,
       fun hnone => execTalloc_refuses hA hlog hw hr hb (allocTile_none _ _ hnone)⟩⟩
  · rw [exec_thand]
    subst hm
    exact ⟨fun x => execThand_hands hA hlog hr, execThand_refuses hA hlog hr⟩
  · have hwords : s.infoWords t a.h.toNat = ws := by
      unfold State.infoWords
      cases hn : t.name a.h.toNat with
      | unmapped => rw [hn] at hws; exact hws.symm
      | released => rw [hn] at hws; exact hws.symm
      | mapped r =>
        rw [hn] at hws
        obtain ⟨x, hx, rfl⟩ := hws
        simp [hx]
    rw [exec_tinfo, execTinfo_reads hA hlog, hwords]

end Sys2Proof.Machine
end

section
/-! Proofs. O43: RINGDEF, SLOTWAIT, SLOTSIG and ACNT (13_tiles R306 to R308, R319 to R321). -/

namespace Sys2Proof.Machine

/-! ### RINGDEF (R306, R319) -/

/-- Names that all map records have no cause. -/
theorem okCause_none {rs : List (Except Cause HRec)} (h : ∀ x ∈ rs, ∃ y, x = .ok y) : rs.filterMap okCause = [] := by
  rw [List.filterMap_eq_nil_iff]
  intro x hx
  obtain ⟨y, rfl⟩ := h x hx
  rfl

section
variable {h : Hdr} {a : RingDefArgs} {s : State} {t : Task} {w : List Nat} (hA : Acts s h t (gKeys a.base.toNat 4))
  (hw : w = s.descWords t a.base)
include hA hw

theorem execRingdefDef_refuses (hno : (s.core t.core).ringBusy a.ring.toNat = true ∨ ringOf a.ring.toNat w = none) :
    execRingdefDef h a s = .next ((s.putQ t a.q false).goesOn s h t) := by
  have hnone : (if (s.core t.core).ringBusy a.ring.toNat then none else ringOf a.ring.toNat w) = none := by
    obtain hbusy | hbad := hno
    · exact if_pos hbusy
    · rw [hbad, ite_self]
  subst hw
  unfold State.descWords at hnone
  unfold execRingdefDef
  refine issue_ok false hA ?_
  simp only [hnone]
  rfl

theorem execRingdefDef_defines {r : Ring} (hbusy : (s.core t.core).ringBusy a.ring.toNat = false)
    (hring : ringOf a.ring.toNat w = some r) (hrecs : ∀ x ∈ s.ringRecs t r, ∃ y, x = .ok y) :
    execRingdefDef h a s = .next (((s.modCore t.core (·.setRing a.ring.toNat (some { r with
      recs := (s.ringRecs t r).filterMap okRec }))).putQ t a.q true).goesOn s h t) := by
  subst hw
  unfold State.descWords at hring
  unfold execRingdefDef
  refine issue_ok false hA ?_
  simp only [hbusy, Bool.false_eq_true, if_false, hring, okCause_none hrecs, List.map_nil, raiseOne_nil]
  rfl

end

theorem execRingdefClr_clears {h : Hdr} {a : RingClrArgs} {s : State} {t : Task} (hA : Acts s h t [])
    (hbusy : (s.core t.core).ringBusy a.ring.toNat = false) : execRingdefClr h a s =
      .next (((s.modCore t.core (·.setRing a.ring.toNat none)).putQ t a.q true).goesOn s h t) := by
  unfold execRingdefClr
  refine issue_ok false hA ?_
  simp only [hbusy, Bool.false_eq_true, if_false]
  rfl

theorem execRingdefClr_refuses {h : Hdr} {a : RingClrArgs} {s : State} {t : Task} (hA : Acts s h t [])
    (hbusy : (s.core t.core).ringBusy a.ring.toNat = true) :
    execRingdefClr h a s = .next ((s.putQ t a.q false).goesOn s h t) := by
  unfold execRingdefClr
  refine issue_ok false hA ?_
  simp only [hbusy, if_true]
  rfl

/-! ### SLOTWAIT and SLOTSIG (R307, R308, R320) -/

section
variable {h : Hdr} {a : SlotArgs} {s : State} {t : Task} {st : SlotSt} {want : SlotSt}
  {f : Core → Nat → Nat → Core} (hA : Acts s h t (s.srcKeys t a.slot 1 0))
  (hst : st = (s.core t.core).slotSt a.ring.toNat (s.src t a.slot .n32 0))
include hA hst

theorem slotWait_reached (hwant : st = want) (hf : want ≠ .failed) :
    slotWait h a want s = .next ((s.acquire t.core none).goesOn s h t) := by
  unfold slotWait
  refine issue_ok false hA ?_
  simp only [← hst, hwant, hf, if_false, if_true]
  rfl

theorem slotWait_parks (hwant : st ≠ want) (hf : st ≠ .failed) (ho : t.opened = none) :
    slotWait h a want s =
      .next (s.parkTask t.uid (.slotWait a.ring.toNat (s.src t a.slot .n32 0) want (s.seqPc t) h.hint)) := by
  unfold slotWait
  refine issue_park hA ho ?_
  simp only [← hst, hwant, hf, if_false]

theorem slotWait_failed (hf : st = .failed) : slotWait h a want s = .next (s.traps t (raise0 .slotFailed)) := by
  unfold slotWait
  refine issue_raise hA ?_
  simp only [← hst, hf, if_true]
  rfl

theorem slotSig_signals (hwant : st = want) (hf : want ≠ .failed) (hr : s.released t = true) :
    slotSig h a want f s = .next ((s.modCore t.core fun c =>
      (f c a.ring.toNat (c.slotIdx a.ring.toNat (s.src t a.slot .n32 0))).noteSignal s.clk a.ring.toNat
        (c.slotIdx a.ring.toNat (s.src t a.slot .n32 0))).goesOn s h t) := by
  unfold slotSig
  refine issue_ok false hA ?_
  simp only [State.needSlot, ← hst, hwant, hf, if_false, if_true, hr, Bool.not_true, Bool.false_eq_true]
  rfl

theorem slotSig_unreleased (hwant : st = want) (hf : want ≠ .failed) (hr : s.released t = false) :
    slotSig h a want f s = .next s := by
  unfold slotSig
  refine issue_hold hA ?_
  simp only [State.needSlot, ← hst, hwant, hf, if_false, if_true, hr, Bool.not_false]

theorem slotSig_parks (hwant : st ≠ want) (hf : st ≠ .failed) (ho : t.opened = none) :
    slotSig h a want f s = .next (s.parkTask t.uid (.slot a.ring.toNat (s.src t a.slot .n32 0) want)) := by
  unfold slotSig
  refine issue_park hA ho ?_
  simp only [State.needSlot, ← hst, hwant, hf, if_false]

theorem slotSig_failed (hf : st = .failed) : slotSig h a want f s = .next (s.traps t (raise0 .slotFailed)) := by
  unfold slotSig
  refine issue_raise hA ?_
  simp only [State.needSlot, ← hst, hf, if_true]
  rfl

end

/-- A change to the first ring of an index is what that index reads from then on. -/
theorem ring?_of_mapFirst {c c' : Core} {r : Nat} {f : Ring → Ring} (h : c'.rings = mapFirst (·.idx == r) f c.rings)
    (hf : ∀ x, (f x).idx = x.idx) : c'.ring? r = (c.ring? r).map f := by
  unfold Core.ring?
  rw [h]
  induction c.rings with
  | nil => rfl
  | cons x l ih =>
    by_cases hx : x.idx = r
    · simp [mapFirst, hx, hf]
    · simp [mapFirst, hx, ih]

section
variable (c : Core) {r k n : Nat} {x : Ring} (hx : c.ring? r = some x) (hk : x.states[k]? = some (.full, n))
include hx hk

/-- The last of a slot's EMPTY signals empties it (R307). -/
theorem emptySignal_empties (hn : x.consumers ≤ n + 1) :
    ((c.emptySignal r k).ring? r).bind (·.states[k]?) = some (.empty, 0) := by
  have hset : c.emptySignal r k = c.setSlot r k .empty := by
    simp only [Core.emptySignal, hx, hk, Option.map_some, Option.getD_some, hn, if_true]
  have hring : (c.setSlot r k .empty).ring? r = _ := ring?_of_mapFirst rfl fun _ => rfl
  rw [hset, hring, hx]
  simp [hk]

/-- An earlier one is counted. -/
theorem emptySignal_counts (hn : n + 1 < x.consumers) :
    ((c.emptySignal r k).ring? r).bind (·.states[k]?) = some (.full, n + 1) := by
  have hrings : (c.emptySignal r k).rings = mapFirst (·.idx == r)
      (fun x => { x with states := x.states.mapIdx fun i y => if i = k then (y.1, n + 1) else y }) c.rings := by
    simp only [Core.emptySignal, hx, hk, Option.map_some, Option.getD_some, Nat.not_le.mpr hn, if_false]
  rw [ring?_of_mapFirst hrings fun _ => rfl, hx]
  simp [hk]

end

theorem ringsAndSlotsAct : Rule.RingsAndSlotsAct := by
  refine ⟨fun h a s t w hA hw => ?_, fun h a s t hA => ?_, fun h a s t v r st hA hv hr hst => ?_,
    fun c r k x n hx hk => ⟨emptySignal_empties c hx hk, emptySignal_counts c hx hk⟩⟩
  · rw [exec_ringdefDef]
    exact ⟨execRingdefDef_refuses hA hw, fun r => execRingdefDef_defines hA hw⟩
  · rw [exec_ringdefClr]
    exact ⟨execRingdefClr_clears hA, execRingdefClr_refuses hA⟩
  · subst hv hr
    rw [exec_slotwaitFull, exec_slotwaitEmpty, exec_slotsigFull, exec_slotsigEmpty]
    refine ⟨fun hs => slotWait_reached hA hst hs (by simp), fun hs => slotWait_reached hA hst hs (by simp),
      fun hs hf ho => ⟨slotWait_parks hA hst hs hf ho, slotSig_parks hA hst hs hf ho⟩,
      fun hs hf ho => ⟨slotWait_parks hA hst hs hf ho, slotSig_parks hA hst hs hf ho⟩,
      fun hs hr => slotSig_signals hA hst hs (by simp) hr, fun hs hr => slotSig_signals hA hst hs (by simp) hr,
      fun hs hr => slotSig_unreleased hA hst hs (by simp) hr, fun hf i hi => ?_⟩
    obtain rfl | rfl | rfl | rfl : i = .slotwaitFull h a ∨ i = .slotwaitEmpty h a ∨ i = .slotsigFull h a ∨
      i = .slotsigEmpty h a := by simpa using hi
    · exact (exec_slotwaitFull h a s).trans (slotWait_failed hA hst hf)
    · exact (exec_slotwaitEmpty h a s).trans (slotWait_failed hA hst hf)
    · exact (exec_slotsigFull h a s).trans (slotSig_failed hA hst hf)
    · exact (exec_slotsigEmpty h a s).trans (slotSig_failed hA hst hf)

/-! ### Arrival counters (R321) -/

section
variable {h : Hdr} {a : AcntArgs} {s : State} {t : Task} (hA : Acts s h t (s.srcKeys t a.v 1 0))
include hA

theorem acntPut_puts (f : BitVec 32 → BitVec 32 → BitVec 32) : acntPut h a f s = .next ((s.modCore t.core fun c =>
    { c with acnt := spSet c.acnt a.c.toNat (f (spGet c.acnt a.c.toNat) (BitVec.ofNat 32 (s.src t a.v .n32 0))) }).goesOn
      s h t) :=
  issue_ok false hA rfl

theorem execAcntWaitge_reached (hv : s.src t a.v .n32 0 ≤ (spGet (s.core t.core).acnt a.c.toNat).toNat) :
    execAcntWaitge h a s = .next ((s.acquire t.core none).goesOn s h t) := by
  unfold execAcntWaitge
  refine issue_ok false hA ?_
  simp only [hv, if_true]
  rfl

theorem execAcntWaitge_parks (hv : (spGet (s.core t.core).acnt a.c.toNat).toNat < s.src t a.v .n32 0)
    (ho : t.opened = none) : execAcntWaitge h a s =
      .next (s.parkTask t.uid (.acnt a.c.toNat (s.src t a.v .n32 0) (s.seqPc t) h.hint)) := by
  unfold execAcntWaitge
  refine issue_park hA ho ?_
  simp only [Nat.not_le.mpr hv, if_false]

end

theorem arrivalCountersAct : Rule.ArrivalCountersAct := by
  refine ⟨fun h a s t hA => (exec_acntGet h a s).trans (issue_ok false hA rfl), fun h a s t v hA hv => ?_⟩
  subst hv
  rw [exec_acntSet, exec_acntAdd, exec_acntWaitge]
  exact ⟨acntPut_puts hA fun _ v => v, acntPut_puts hA fun x v => x + v, execAcntWaitge_reached hA,
    execAcntWaitge_parks hA⟩

/-- Settles O43: a slot instruction branches on its slot's state, WAITGE on its counter's value, and RINGDEF on whether
its ring is busy and its words describe one. -/
theorem ringsAndCountersAct : Obligations.RingsAndCountersAct := ⟨ringsAndSlotsAct, arrivalCountersAct⟩

end Sys2Proof.Machine
end

section
/-! Proofs. What the instructions that issue an operation share: an undiverged warp, the checks of its operation, and its
entry into the range-lock table (13_tiles R298 to R302, R311). -/

namespace Sys2Proof.Machine

theorem undiverged_whole {t : Task} (hw : t.warp.active = t.warp.live) : undiverged t = .ok () := if_pos hw

theorem undiverged_diverged {t : Task} (hd : t.warp.active ≠ t.warp.live) : undiverged t =
    .error (.raise ⟨.divergedEngineIssue, 0, t.warp.live &&& ~~~t.warp.active, 0, none⟩) := if_neg hd

/-- Held for want of room an instruction leaves a mark, held otherwise it leaves nothing. -/
theorem issue_heldFor {h : Hdr} {s : State} {t : Task} {keys : Task → List Nat → List RKey}
    {body : State → Task → List Nat → M Eff} {full : Bool} (hA : Acts s h t (keys t (s.actLanes h t)))
    (hb : body s t (s.actLanes h t) = .error (heldFor full)) : issue h s keys body = .next (s.heldAt full) := by
  cases full
  · exact issue_hold hA hb
  · exact issue_full hA hb

section
variable {s : State} {t : Task} {n : NewOp} {at_ : Nat}

theorem acceptOp_notReady {e : Halt} (hself : n.selfLocked = false) : acceptOp s t [] n (.error e) at_ = .error e := by
  simp only [acceptOp, hself, Bool.false_eq_true, if_false, List.append_nil, raiseOne_nil]

theorem acceptOp_enters (ht : EngineTakes s t n) :
    acceptOp s t [] n (.ok ()) at_ = .ok ⟨s.startOp t n, none, 0 < n.kind.total⟩ := by
  simp only [acceptOp, ht.apart, ht.drained, ht.unspent, ht.free, Bool.false_eq_true, if_false, List.append_nil,
    raiseOne_nil, Bool.not_true, Bool.or_self]

theorem acceptOp_undrained (hself : n.selfLocked = false) (hd : s.drainedOut t = false) :
    acceptOp s t [] n (.ok ()) at_ = .error .hold := by
  simp only [acceptOp, hself, hd, Bool.false_eq_true, if_false, List.append_nil, raiseOne_nil, Bool.not_false, Bool.true_or,
    if_true]

theorem acceptOp_held (hself : n.selfLocked = false) (hd : s.drainedOut t = true)
    (hspent : (s.core t.core).slotSpent s.clk n.ringSlot = false) (hheld : (s.core t.core).opHeld n = true) :
    acceptOp s t [] n (.ok ()) at_ = .error (heldFor ((s.core t.core).opFull n)) := by
  simp only [acceptOp, hself, hd, hspent, hheld, Bool.false_eq_true, if_false, List.append_nil, raiseOne_nil, Bool.not_true,
    Bool.or_self, if_true]

end

/-- Instruction `i`, issued by `t`, reads `keys`, and its body comes to `r`. -/
def ComesTo (i : Instr) (h : Hdr) (s : State) (t : Task) (keys : List RKey) (r : M Eff) : Prop :=
  ∃ ks body, exec i s = issue h s ks body ∧ ks t (s.actLanes h t) = keys ∧ body s t (s.actLanes h t) = r

section
variable {i : Instr} {h : Hdr} {s : State} {t : Task} {keys : List RKey} (hA : Acts s h t keys)
include hA

theorem ComesTo.ok {s' : State} {late : Bool} (hc : ComesTo i h s t keys (.ok ⟨s', none, late⟩)) :
    exec i s = .next (s'.goesOn s h t late) := by
  obtain ⟨ks, body, hexec, rfl, hb⟩ := hc
  exact hexec.trans (issue_ok late hA hb)

theorem ComesTo.hold (hc : ComesTo i h s t keys (.error .hold)) : exec i s = .next s := by
  obtain ⟨ks, body, hexec, rfl, hb⟩ := hc
  exact hexec.trans (issue_hold hA hb)

theorem ComesTo.heldFor {full : Bool} (hc : ComesTo i h s t keys (.error (heldFor full))) :
    exec i s = .next (s.heldAt full) := by
  obtain ⟨ks, body, hexec, rfl, hb⟩ := hc
  exact hexec.trans (issue_heldFor hA hb)

theorem ComesTo.raise {r : Raise} (hc : ComesTo i h s t keys (.error (.raise r))) : exec i s = .next (s.traps t r) := by
  obtain ⟨ks, body, hexec, rfl, hb⟩ := hc
  exact hexec.trans (issue_raise hA hb)

theorem ComesTo.park {p : Park} (ho : t.opened = none) (hc : ComesTo i h s t keys (.error (.park p))) :
    exec i s = .next (s.parkTask t.uid p) := by
  obtain ⟨ks, body, hexec, rfl, hb⟩ := hc
  exact hexec.trans (issue_park hA ho hb)

theorem ComesTo.parkIn {s' : State} {p : Park} (ho : t.opened = none) (hc : ComesTo i h s t keys (.error (.parkIn s' p))) :
    exec i s = .next (s'.parkTask t.uid p) := by
  obtain ⟨ks, body, hexec, rfl, hb⟩ := hc
  exact hexec.trans (issue_parkIn hA ho hb)

/-- An instruction whose checks come to `acceptOp`, without a cause and ready, enters its operation or is held. -/
theorem entersOp_of_comesTo {s1 : State} {n : NewOp} {at_ : Nat}
    (hc : t.warp.active = t.warp.live → ComesTo i h s t keys (acceptOp s1 t [] n (.ok ()) at_)) :
    EntersOp i h s s1 t n :=
  ⟨fun ht => ComesTo.ok hA (acceptOp_enters ht ▸ hc ht.whole),
    fun hw hself hd => ComesTo.hold hA (acceptOp_undrained hself hd ▸ hc hw),
    fun hw hself hd hspent hheld => ComesTo.heldFor hA (acceptOp_held hself hd hspent hheld ▸ hc hw)⟩

end

end Sys2Proof.Machine
end

section
/-! Proofs. O44: TSTAGE, TDRAIN and TCOPY (13_tiles R298 to R302, R316 to R318). -/

namespace Sys2Proof.Machine

section
variable {h : Hdr} {a : TstageArgs} {s s1 : State} {t : Task} {j : Job} {k : Nat} {l : Layout} {x : SideSel} {addr : Nat}
  {n : NewOp} (hj : s.job? t.job = some j)
  (haddr : addr = s.src t (.g a.addr) .n64 0) (hk : k = s.src t a.layout .n32 0) (hl : s.layoutAt t.core j k = .ok l)
  (hs1 : s1 = s.reads t j k) (hx : x = s.tileSide t a.side [0, 1]) (hxb : x.bads = []) (hxf : x.fits l (x.stageFmt l) = [])
  (hlb : State.layoutBads t l .load addr (l.bounds addr) = [])
  (hn : n = NewOp.mk (.stage (x.side.getD (.scratch 0)) l addr) (rangeSpan (s1.ctxOf t) (l.bounds addr)) (x.span l)
    (creditOf a.cr) (barOf h.hint) x.slot false)
include hj haddr hk hl hs1 hx hxb hxf hlb hn

theorem tstage_comesTo (hw : t.warp.active = t.warp.live) :
    ComesTo (.tstage h a) h s t (s.stageKeys t a.side a.addr a.layout)
      (acceptOp s1 t [] n (s1.sideReady t x .empty) addr) := by
  subst haddr hk hs1 hx hn
  refine ⟨_, _, exec_tstage h a s, rfl, ?_⟩
  simp only [undiverged_whole hw, withJob_found _ hj, hl, hxb, hxf, hlb, List.append_nil]
  rfl

end

section
variable {h : Hdr} {a : TdrainArgs} {s s1 : State} {t : Task} {j : Job} {k : Nat} {l : Layout} {x : SideSel} {addr : Nat}
  {n : NewOp} (hj : s.job? t.job = some j)
  (haddr : addr = s.src t (.g a.addr) .n64 0) (hk : k = s.src t a.layout .n32 0) (hl : s.layoutAt t.core j k = .ok l)
  (hs1 : s1 = s.reads t j k) (hx : x = s.tileSide t a.side [2]) (hxb : x.bads = [])
  (hxf : x.fits l (fun d => drainPair d.format l) = []) (hlb : State.layoutBads t l .store addr (l.drainBounds addr) = [])
  (hn : n = NewOp.mk (.drain (x.side.getD (.scratch 0)) l addr a.rm a.sat) (x.drainSpan l)
    (rangeSpan (s1.ctxOf t) (l.drainBounds addr)) (creditOf a.cr) (barOf h.hint) x.slot false)
include hj haddr hk hl hs1 hx hxb hxf hlb hn

theorem tdrain_comesTo (hw : t.warp.active = t.warp.live) :
    ComesTo (.tdrain h a) h s t (s.stageKeys t a.side a.addr a.layout)
      (acceptOp s1 t [] n (s1.sideReady t x .full) addr) := by
  subst haddr hk hs1 hx hn
  refine ⟨_, _, exec_tdrain h a s, rfl, ?_⟩
  simp only [undiverged_whole hw, withJob_found _ hj, hl, hxb, hxf, hlb, List.append_nil]
  rfl

end

/-- The registers that TCOPY reads. -/
def State.copyKeys (s : State) (t : Task) (a : TcopyArgs) : List RKey :=
  gKeys a.dst.toNat 2 ++ gKeys a.src.toNat 2 ++ s.srcKeys t a.len 1 0 ++
    (match a.node with | some o => s.srcKeys t o 1 0 | none => [])

theorem tcopy_comesTo {h : Hdr} {a : TcopyArgs} {s : State} {t : Task} {d c k : Nat} {dst : Option (Int × Int)} {n : NewOp}
    (hd : d = s.src t (.g a.dst) .n64 0) (hc : c = s.src t (.g a.src) .n64 0) (hk : k = s.src t a.len .n32 0)
    (hdst : dst = if a.node.isSome then none else byteRange d k) (hda : d % 16 = 0) (hca : c % 16 = 0) (hka : k % 16 = 0)
    (hload : t.declaresRange .load (byteRange c k) = true) (hstore : t.declaresRange .store dst = true)
    (hn : n = NewOp.mk (.copy d c k (a.node.map fun o => s.src t o .n32 0)) (rangeSpan (s.ctxOf t) (byteRange c k))
      (rangeSpan (s.ctxOf t) dst) (creditOf a.cr) (barOf h.hint) none false) (hw : t.warp.active = t.warp.live) :
    ComesTo (.tcopy h a) h s t (s.copyKeys t a) (acceptOp s t [] n (.ok ()) d) := by
  subst hd hc hk hdst hn
  refine ⟨_, _, exec_tcopy h a s, rfl, ?_⟩
  simp only [undiverged_whole hw, hda, hca, hka, hload, hstore, bne_self_eq_false, Bool.or_self, Bool.not_true,
    Bool.false_eq_true, if_false, List.append_nil]

/-- A diverged warp traps before anything else is looked at (R302). -/
theorem copies_diverged {i : Instr} {h : Hdr} {s : State} {t : Task} (hd : t.warp.active ≠ t.warp.live)
    (hi : (∃ a, i = Instr.tstage h a ∧ Acts s h t (s.stageKeys t a.side a.addr a.layout)) ∨
      (∃ a, i = Instr.tdrain h a ∧ Acts s h t (s.stageKeys t a.side a.addr a.layout)) ∨
      (∃ a, i = Instr.tcopy h a ∧ Acts s h t (s.copyKeys t a))) :
    exec i s = .next (s.traps t ⟨.divergedEngineIssue, 0, t.warp.live &&& ~~~t.warp.active, 0, none⟩) := by
  obtain ⟨a, rfl, hA⟩ | ⟨a, rfl, hA⟩ | ⟨a, rfl, hA⟩ := hi
  · exact ComesTo.raise hA ⟨_, _, exec_tstage h a s, rfl, by simp only [undiverged_diverged hd]⟩
  · exact ComesTo.raise hA ⟨_, _, exec_tdrain h a s, rfl, by simp only [undiverged_diverged hd]⟩
  · exact ComesTo.raise hA ⟨_, _, exec_tcopy h a s, rfl, by simp only [undiverged_diverged hd]⟩

/-! ### What an operation that is entered leaves in its core (R298, R301) -/

/-- Operations and locks of a core. -/
def Core.tables (c : Core) : List EngOp × List Lock := (c.ops, c.locks)

theorem tables_foldl_setLine (ls : List Nat) (x : LineSt) (c : Core) :
    (ls.foldl (fun c k => c.setLine k x) c).tables = c.tables := by
  induction ls generalizing c with
  | nil => rfl
  | cons k ls ih => rw [List.foldl_cons, ih]; cases x <;> rfl

theorem tables_startLines (c : Core) (k : OpKind) : (c.startLines k).tables = c.tables := by
  unfold Core.startLines
  split
  · rfl
  · exact tables_foldl_setLine _ _ c

theorem tables_setSlotOf (c : Core) (slot : Option (Nat × Nat)) (st : SlotSt) :
    (match slot with | some (r, k) => c.setSlot r k st | none => c).tables = c.tables := by
  cases slot <;> rfl

theorem tables_fillOf (c : Core) (w : Option Nat) : (match w with | some r => c.startFill r | none => c).tables = c.tables := by
  cases w <;> rfl

/-- The operation that `startOp` enters. -/
def State.opEntered (s : State) (t : Task) (n : NewOp) : EngOp :=
  { uid := s.nextUid, desc := (s.core t.core).freeDesc, owner := t.uid, kind := n.kind, region := n.region,
    total := n.kind.total, credited := 0, credit := n.credit, bar := n.bar, ringSlot := n.ringSlot,
    paused := false, sent := false, pc := t.warp.pc, flags := 0, list := [] }

theorem tables_startOp {s : State} {t : Task} {n : NewOp} (h0 : n.kind.total ≠ 0) :
    ((s.startOp t n).core t.core).tables = ((s.core t.core).ops ++ [s.opEntered t n], (s.core t.core).locks ++
      n.reads.map (Lock.mk s.nextUid · false) ++ n.writes.map (Lock.mk s.nextUid · true)) := by
  unfold State.startOp
  rw [if_neg h0]
  simp only [State.fresh, core_modCore_same]
  exact (tables_setSlotOf _ _ _).trans ((tables_fillOf _ _).trans (tables_startLines _ _))

theorem startOp_entered {s : State} {t : Task} {n : NewOp} (h0 : n.kind.total ≠ 0) :
    ∃ o, o.kind = n.kind ∧ o.owner = t.uid ∧ o.credited = 0 ∧
      o.total = n.kind.total ∧ o.credit = n.credit ∧ o.bar = n.bar ∧ o.paused = false ∧ o.pc = t.warp.pc ∧
      ((s.startOp t n).core t.core).ops = (s.core t.core).ops ++ [o] ∧ ((s.startOp t n).core t.core).locks =
        (s.core t.core).locks ++ n.reads.map (Lock.mk o.uid · false) ++ n.writes.map (Lock.mk o.uid · true) := by
  obtain ⟨hops, hlocks⟩ := Prod.ext_iff.mp (tables_startOp (s := s) (t := t) h0)
  exact ⟨s.opEntered t n, rfl, rfl, rfl, rfl, rfl, rfl, rfl, rfl, hops, hlocks⟩

theorem tileCopiesIssue : Rule.TileCopiesIssue := by
  refine ⟨fun h a s t j k l x addr n s1 hA hj haddr hk hl hs1 hx hxb hxf hlb hn => ?_,
    fun h a s t j k l x addr n s1 hA hj haddr hk hl hs1 hx hxb hxf hlb hn => ?_,
    fun h a s t d c k dst n hA hd hc hk hdst hda hca hka hload hstore hn => entersOp_of_comesTo hA
      (tcopy_comesTo hd hc hk hdst hda hca hka hload hstore hn),
    fun i h s t hd hi => copies_diverged hd hi, fun s t n h0 => startOp_entered h0⟩
  · have hc := tstage_comesTo hj haddr hk hl hs1 hx hxb hxf hlb hn
    exact ⟨fun hr => entersOp_of_comesTo hA (hr ▸ hc), fun p hr hw hself ho =>
      ComesTo.park hA ho (by simpa only [hr, acceptOp_notReady hself] using hc hw)⟩
  · have hc := tdrain_comesTo hj haddr hk hl hs1 hx hxb hxf hlb hn
    exact ⟨fun hr => entersOp_of_comesTo hA (hr ▸ hc), fun p hr hw hself ho =>
      ComesTo.park hA ho (by simpa only [hr, acceptOp_notReady hself] using hc hw)⟩

end Sys2Proof.Machine
end

section
/-! Proofs. O44: PSUM, PSEL, PGATH, GATHL and SCATL (15_selection R353 to R360). -/

namespace Sys2Proof.Machine

/-! ### PSUM (R353) -/

section
variable {h : Hdr} {a : PsumArgs} {s s1 : State} {t : Task} {j : Job} {k : Nat} {l : Layout} {w : List Nat}
  {addr p n : Nat} {re held : Bool} (hA : Acts s h t (gKeys a.base.toNat 4 ++ s.srcKeys t a.layout 1 0))
  (hj : s.job? t.job = some j) (hw : w = s.blockWords t a.base.toNat 4) (haddr : addr = blockAddr w)
  (hp : p = blockWord w 2) (hn : n = blockWord w 3) (hk : k = s.src t a.layout .n32 0) (hl : s.layoutAt t.core j k = .ok l)
  (hs1 : s1 = s.reads t j k) (hsum : l.summary = true) (hpn : p + n ≤ l.size2) (hb : psumBads t l addr p n re = [])
include hA hj hw haddr hp hn hk hl hs1 hsum hpn hb

theorem psum_unreleased (hr : s1.released t = false) : psum h a re s = .next s := by
  subst hs1 hp hn haddr hk hw
  unfold State.reads at hr
  unfold psum
  refine issue_hold hA ?_
  simp only [withJob_found _ hj, hl, hsum, Nat.not_lt.mpr hpn, hb, raiseOne_nil, hr, Bool.not_true, Bool.not_false,
    decide_false, Bool.or_self, Bool.false_eq_true, if_false, if_true]

section
variable (hr : s1.released t = true)
  (hheld : (s1.core t.core).psumHeld (psumSpans (s1.ctxOf t) l addr p n re).1 (psumSpans (s1.ctxOf t) l addr p n re).2 = held)
include hr hheld

theorem psum_held (hh : held = true) : psum h a re s = .next (s.heldAt ((s1.core t.core).psumFull
    (psumSpans (s1.ctxOf t) l addr p n re).1 (psumSpans (s1.ctxOf t) l addr p n re).2)) := by
  subst hs1 hp hn haddr hk hw hh
  unfold State.reads at hr hheld
  unfold psum
  refine issue_heldFor hA ?_
  simp only [withJob_found _ hj, hl, hsum, Nat.not_lt.mpr hpn, hb, raiseOne_nil, hr, hheld, Bool.not_true,
    decide_false, Bool.or_self, Bool.false_eq_true, if_false, if_true]
  rfl

theorem psum_writes {s2 : State} (hh : held = false) (hpages : s1.sumPages t.core (s1.ctxOf t) t.uid l addr re
    ((List.range n).map (p + ·)) = (s2, none)) : psum h a re s = .next (s2.goesOn s h t) := by
  subst hs1 hp hn haddr hk hw hh
  unfold State.reads at hr hheld hpages
  unfold psum
  refine issue_ok false hA ?_
  simp only [withJob_found _ hj, hl, hsum, Nat.not_lt.mpr hpn, hb, raiseOne_nil, hr, hheld, hpages, Bool.not_true,
    decide_false, Bool.or_self, Bool.false_eq_true, if_false]
  rfl

end

end

theorem exec_psum {i : Instr} {h : Hdr} {a : PsumArgs} {re : Bool} (s : State)
    (hi : (i = Instr.psumClr h a ∧ re = false) ∨ (i = Instr.psumRebuild h a ∧ re = true)) : exec i s = psum h a re s := by
  obtain ⟨rfl, rfl⟩ | ⟨rfl, rfl⟩ := hi
  · exact exec_psumClr h a s
  · exact exec_psumRebuild h a s

/-! ### PSEL (R354, R355) -/

theorem psel_comesTo {h : Hdr} {a : PselArgs} {s s1 : State} {t : Task} {j : Job} {k : Nat} {l : Layout} {w : List Nat}
    {addr list q : Nat} {range : Option (Int × Int)} {n : NewOp} (hj : s.job? t.job = some j)
    (hw : w = s.blockWords t a.base.toNat 8) (haddr : addr = blockAddr w) (hlist : list = s.src t a.list .n32 0)
    (hq : q = blockWord w 4) (hk : k = s.src t a.layout .n32 0) (hl : s.layoutAt t.core j k = .ok l)
    (hs1 : s1 = s.reads t j k) (hfits : pselFits l w = true)
    (hrange : range = boundsOf 512 (l.sumAddrs addr (blockWord w 2) (blockWord w 3)))
    (hn : n = NewOp.mk (.psel list l addr (blockWord w 2) (blockWord w 3) q (blockWord w 5) (blockWord w 6))
      (rangeSpan (s1.ctxOf t) range ++ scratchSpan q (2 * l.size0)) (scratchSpan list (16 + 4 * blockWord w 3))
      (creditOf a.cr) (barOf h.hint) none false)
    (hlb : State.layoutBads t l .load addr range = []) (ha : list % 16 = 0) (hsrc : s1.sourceBads t q (2 * l.size0) = [])
    (hdst : destBads list (16 + 4 * blockWord w 3) = []) (hpend : s1.sourcePending t q (2 * l.size0) = false)
    (hwhole : t.warp.active = t.warp.live) :
    ComesTo (.psel h a) h s t (s.srcKeys t a.list 1 0 ++ gKeys a.base.toNat 8 ++ s.srcKeys t a.layout 1 0)
      (acceptOp s1 t [] n (.ok ()) addr) := by
  subst hn hrange hs1 hk hq hlist haddr hw
  unfold State.reads at hsrc hpend
  refine ⟨_, _, exec_psel h a s, rfl, ?_⟩
  simp only [undiverged_whole hwhole, withJob_found _ hj, hl, hfits, hlb, ha, hsrc, hpend, OpKind.total, hdst, ne_eq,
    not_true_eq_false, Bool.not_true, Bool.false_eq_true, if_false, List.append_nil]
  rfl

/-! ### PGATH (R356) -/

theorem pgath_comesTo {h : Hdr} {a : PgathArgs} {s s1 : State} {t : Task} {j : Job} {k : Nat} {l : Layout} {r : HRec}
    {w pages : List Nat} {addr list e m : Nat} {n : NewOp} (hj : s.job? t.job = some j)
    (hw : w = s.blockWords t a.base.toNat 4) (haddr : addr = blockAddr w) (hlist : list = blockWord w 2)
    (he : e = list + 16 + 4 * blockWord w 3) (hr : s.handle t a.h.toNat [1] = .ok r)
    (hk : k = s.src t a.layout .n32 0) (hl : s.layoutAt t.core j k = .ok l) (hs1 : s1 = s.reads t j k)
    (h1 : l.size1 = 64) (h3 : l.size3 = 1) (hw32 : l.w32 = false) (hf : r.desc.format = l.format)
    (hblock : r.desc.block = l.block) (hcols : r.desc.cols = l.size0) (hrows : r.desc.rows % 64 = 0) (ha : list % 16 = 0)
    (hm : m = r.desc.rows / 64) (hsrc : s1.sourceBads t list 16 = []) (hsrcE : s1.sourceBads t e (4 * m) = [])
    (hpend : s1.sourcePending t list 16 = false) (hpendE : s1.sourcePending t e (4 * m) = false)
    (hpages : pages = s1.listPages t.core list (blockWord w 3) m) (hin : ∀ p ∈ pages, p < l.size2)
    (hdecl : t.declaresRange .load (l.pagesBounds addr pages) = true)
    (hn : n = NewOp.mk (.pgath r.idx l addr pages r.desc.rows)
      (rangeSpan (s1.ctxOf t) (l.pagesBounds addr pages) ++ scratchSpan list 16 ++ scratchSpan e (4 * m))
      (if 64 * pages.length * r.desc.pitch = 0 then [] else [.tile r.idx 0 (64 * pages.length * r.desc.pitch)])
      (creditOf a.cr) (barOf h.hint) none false) (hwhole : t.warp.active = t.warp.live) :
    ComesTo (.pgath h a) h s t (gKeys a.base.toNat 4 ++ s.srcKeys t a.layout 1 0) (acceptOp s1 t [] n (.ok ()) addr) := by
  have hwild : pages.any (l.size2 ≤ ·) = false := by
    rw [List.any_eq_false]
    intro p hp
    simpa using hin p hp
  subst hn hpages hm he hs1 hk hlist haddr hw
  unfold State.reads at hsrc hsrcE hpend hpendE hwild hdecl
  refine ⟨_, _, exec_pgath h a s, rfl, ?_⟩
  simp only [undiverged_whole hwhole, withJob_found _ hj, hr, hl, h1, h3, hw32, hf, hblock, hcols, hrows, ha, hsrc, hsrcE,
    hpend, hpendE, hwild, ne_eq, not_true_eq_false, or_self, Bool.false_eq_true, if_false, List.append_nil,
    List.isEmpty_nil, Bool.and_false]
  simp only [hdecl, Bool.or_self, Bool.not_false, Bool.and_self, Bool.false_eq_true, if_false, if_true]
  rfl

/-! ### GATHL (R358) -/

/-- A packed side without a tile, or with one that takes the elements, is not too small. -/
theorem packedSide_takes (tile : Option HRec) (n : Nat) : (∀ r, tile = some r → n ≤ r.desc.extent) →
    ¬ (match tile with | some r => decide (r.desc.extent < n) | none => false) = true := by
  intro hroom
  cases tile with
  | none => simp
  | some r => simpa using hroom r rfl

theorem gathl_comesTo {h : Hdr} {a : GathlArgs} {s : State} {t : Task} {w : List Nat} {x : ListArgs} {side : Side}
    {tile : Option HRec} {k : OpKind} {dst : List Span} {n : NewOp}
    (hdst : match side with
      | .scratch off => off % 128 = 0 ∧ destBads off k.total = [] ∧ dst = scratchSpan off k.total
      | .record r => dst = if k.total = 0 then [] else [.tile r 0 k.total])
    (hw : w = s.blockWords t a.base.toNat 4) (hside : s.gatherSide t a.side = .ok (side, tile))
    (hx : listArgs w (s.src t a.stride .n32 0) = some x) (hroom : ∀ r, tile = some r → x.n * x.e ≤ r.desc.extent)
    (hpend : s.sourcePending t x.list (4 * x.n) = false) (hlb : s.listBads t x .load = [])
    (hk : k = OpKind.gathl side x.e (s.listAddrs t.core x))
    (hn : n = NewOp.mk k (rangeSpan (s.ctxOf t) (s.listRange t.core x) ++ scratchSpan x.list (4 * x.n)) dst (creditOf a.cr)
      (barOf h.hint) none false) (hwhole : t.warp.active = t.warp.live) :
    ComesTo (.gathl h a) h s t (s.gsideKeys t a.side ++ gKeys a.base.toNat 4 ++ s.srcKeys t a.stride 1 0)
      (acceptOp s t [] n (.ok ()) x.base) := by
  subst hw hn hk
  refine ⟨_, _, exec_gathl h a s, rfl, ?_⟩
  cases side with
  | scratch off =>
    obtain ⟨ha, hd, rfl⟩ := hdst
    simp only [undiverged_whole hwhole, hside, hx, hpend, hlb, packedBads, ha, hd, ne_eq, not_true_eq_false,
      Bool.false_eq_true, if_false, List.append_nil]
    exact if_neg (packedSide_takes _ _ hroom)
  | record r =>
    obtain rfl := hdst
    simp only [undiverged_whole hwhole, hside, hx, hpend, hlb, Bool.false_eq_true, if_false, List.append_nil]
    exact if_neg (packedSide_takes _ _ hroom)

/-! ### SCATL (R359) -/

/-- A SCATL that adds takes the task's next issue index (R277). -/
def State.countScatl (s : State) (t : Task) (mode : SMode) : State :=
  if mode = .plain then s else s.modWarp t.uid fun w => { w with issueIdx := w.issueIdx + 1 }

section
variable {h : Hdr} {a : ScatlArgs} {s : State} {t : Task} {w : List Nat} {x : ListArgs} {off : Nat} {n : NewOp}
  (hoff : off = s.src t a.off .n32 0) (hw : w = s.blockWords t a.base.toNat 4)
  (hx : listArgs w (s.src t a.stride .n32 0) = some x) (hsize : a.mode.sizeOk x.e = true)
  (hpend : s.sourcePending t x.list (4 * x.n) = false) (hpendO : s.sourcePending t off (x.n * x.e) = false)
  (hlb : s.listBads t x a.mode.kind = []) (ha : off % 128 = 0) (hsrc : s.sourceBads t off (x.n * x.e) = [])
  (hn : n = NewOp.mk (.scatl off a.mode x.e t.warp.issueIdx.toNat (s.listAddrs t.core x))
    (scratchSpan off (x.n * x.e) ++ scratchSpan x.list (4 * x.n)) (rangeSpan (s.ctxOf t) (s.listRange t.core x))
    (creditOf a.cr) (barOf h.hint) none false)
  (hwhole : t.warp.active = t.warp.live)
include hoff hw hx hsize hpend hpendO hlb ha hsrc hn hwhole

/-- SCATL comes to its operation's entry, and counts it where it adds. -/
theorem scatl_comesTo {r : M Eff} (hr : acceptOp s t [] n (.ok ()) x.base = r) :
    ComesTo (.scatl h a) h s t (s.srcKeys t a.off 1 0 ++ gKeys a.base.toNat 4 ++ s.srcKeys t a.stride 1 0)
      (r.map fun e => { e with s := e.s.countScatl t a.mode }) := by
  subst hn hw hoff
  refine ⟨_, _, exec_scatl h a s, rfl, ?_⟩
  simp only [undiverged_whole hwhole, hx, hsize, hpend, hpendO, hlb, packedBads, ha, hsrc, hr, ne_eq, not_true_eq_false,
    Bool.not_true, Bool.or_self, Bool.false_eq_true, if_false, List.append_nil]
  cases r with
  | error e => rfl
  | ok e => by_cases hm : a.mode = .plain <;> simp [hm, State.countScatl, Except.map]

end

theorem selectionIssues : Rule.SelectionIssues := by
  refine ⟨fun h a s t j k l w addr p n i re s1 hi hA hj hw haddr hp hn hk hl hs1 hsum hpn hb held hheld => ?_,
    fun h a s t j k l w addr list q range n s1 hA hj hw haddr hlist hq hk hl hs1 hfits hrange hn hlb ha hsrc hdst hpend =>
      entersOp_of_comesTo hA
        (psel_comesTo hj hw haddr hlist hq hk hl hs1 hfits hrange hn hlb ha hsrc hdst hpend),
    fun h a s t j k l r w addr list e m pages n s1 hA hj hw haddr hlist he hr hk hl hs1 h1 h3 hw32 hf hblock hcols hrows ha
        hm hsrc hsrcE hpend hpendE hpages hin hdecl hn => entersOp_of_comesTo hA
      (pgath_comesTo hj hw haddr hlist he hr hk hl hs1 h1 h3 hw32 hf hblock hcols hrows ha hm hsrc hsrcE hpend hpendE
        hpages hin hdecl hn),
    fun h a s t w x side tile k dst n hA hw hside hx hroom hpend hlb hk hdst hn => entersOp_of_comesTo hA
      (gathl_comesTo hdst hw hside hx hroom hpend hlb hk hn),
    fun h a s t w x off n hA hoff hw hx hsize hpend hpendO hlb ha hsrc hn => ?_⟩
  · rw [exec_psum s hi]
    exact ⟨psum_unreleased hA hj hw haddr hp hn hk hl hs1 hsum hpn hb,
      fun hr => psum_held hA hj hw haddr hp hn hk hl hs1 hsum hpn hb hr hheld.symm,
      fun hr hh s2 => psum_writes hA hj hw haddr hp hn hk hl hs1 hsum hpn hb hr hheld.symm hh⟩
  · have hspent : (s.core t.core).slotSpent s.clk n.ringSlot = false := by rw [hn]; rfl
    have hc {r : M Eff} (hwhole : t.warp.active = t.warp.live) (hr : acceptOp s t [] n (.ok ()) x.base = r) :=
      scatl_comesTo hoff hw hx hsize hpend hpendO hlb ha hsrc hn hwhole hr
    exact ⟨fun ht s1 hs1 => ComesTo.ok hA (hs1 ▸ hc ht.whole (acceptOp_enters ht)),
      fun hwhole hself hd => ComesTo.hold hA (hc hwhole (acceptOp_undrained hself hd)),
      fun hwhole hself hd hheld => ComesTo.heldFor hA (hc hwhole (acceptOp_held hself hd hspent hheld))⟩

/-- Settles O44: the checks of each instruction come to `acceptOp` of its operation, which enters it, or holds or parks
the instruction; PSUM writes its pages by itself. -/
theorem engineOperationsIssue : Obligations.EngineOperationsIssue := ⟨tileCopiesIssue, selectionIssues⟩

end Sys2Proof.Machine
end

section
/-! Proofs. O45: MLEASE, MLEASE.TRY, MREL and MQWAIT (14_matrix R323, R330, R344, R349). -/

namespace Sys2Proof.Machine

/-! ### What a request comes to (R330) -/

section
variable {c : Core} {cohort n : Nat}

theorem requestLease_granted (hh : c.mx.lease.holder = none) (hr : c.mx.requests = []) (ho : c.leaseOpen cohort = true) :
    c.requestLease cohort n = .granted (c.grantLease cohort n) := by
  simp [Core.requestLease, hh, hr, ho]

/-- The holder's own request, where no other waits, is a new count. -/
theorem requestLease_recounted (hh : c.mx.lease.holder = some cohort) (hr : c.mx.requests = []) :
    c.requestLease cohort n = .granted (c.modMx fun m => { m with lease := { m.lease with count := n } }) := by
  exact if_pos ⟨hh, by simp [hr]⟩

/-- A holder that asks again while others wait gives its lease up. -/
theorem requestLease_givesUp (hh : c.mx.lease.holder = some cohort) (hr : c.mx.requests ≠ []) :
    c.requestLease cohort n = .waits c.freeLease := by
  have hfree : c.freeLease.mx.requests ≠ [] := hr
  simp [Core.requestLease, hh, hr, hfree]

theorem requestLease_waits (hh : c.mx.lease.holder ≠ some cohort) (hno : c.mx.requests ≠ [] ∨ c.leaseOpen cohort = false) :
    c.requestLease cohort n = .waits c := by
  have hclosed : (c.mx.requests.isEmpty && c.leaseOpen cohort) = false := by
    obtain hr | ho := hno
    · simp [hr]
    · simp [ho]
  simp [Core.requestLease, hh, hclosed]

/-- The lease of another cohort is not open. -/
theorem leaseOpen_held {o : Nat} (hh : c.mx.lease.holder = some o) : c.leaseOpen cohort = false := by
  simp [Core.leaseOpen, hh]

end

/-- What a grant leaves: the holder, its count, and both planes EMPTY but for the cohort that held the lease last. -/
theorem grantLease_planes (c : Core) (k n : Nat) : (c.grantLease k n).mx.lease = ⟨some k, some k, n⟩ ∧
    (c.mx.lease.last ≠ some k → (c.grantLease k n).mx.active = Plane.none ∧ (c.grantLease k n).mx.shadow = Plane.none) ∧
    (c.mx.lease.last = some k → (c.grantLease k n).mx.active = c.mx.active ∧
      (c.grantLease k n).mx.shadow = c.mx.shadow) := by
  refine ⟨rfl, fun h => ?_, fun h => ?_⟩ <;> simp [Core.grantLease, Core.modMx, h]

/-! ### MLEASE and MLEASE.TRY (R344) -/

section
variable {h : Hdr} {s : State} {t : Task}

theorem execMlease_granted {a : SrcArgs} {c : Core} (hA : Acts s h t (s.srcKeys t a.a 1 0))
    (hreq : (s.core t.core).requestLease t.cohort (leaseCount (s.src t a.a .n32 0)) = .granted c) :
    execMlease h a s = .next ((s.setCore t.core c).goesOn s h t) := by
  unfold execMlease
  refine issue_ok false hA ?_
  simp only [hreq]
  rfl

theorem execMlease_waits {a : SrcArgs} {c : Core} {n : Nat} (hA : Acts s h t (s.srcKeys t a.a 1 0))
    (hn : n = leaseCount (s.src t a.a .n32 0)) (ho : t.opened = none)
    (hreq : (s.core t.core).requestLease t.cohort n = .waits c) : execMlease h a s =
      .next ((s.setCore t.core (c.modMx fun m => { m with requests := m.requests ++ [(t.uid, n)] })).parkTask t.uid
        (.lease n (s.seqPc t) h.hint)) := by
  subst hn
  unfold execMlease
  refine issue_parkIn hA ho ?_
  simp only [hreq]

theorem execMleaseTry_granted {a : MleaseTryArgs} {c : Core} (hA : Acts s h t (s.srcKeys t a.a 1 0)) (hlog : s.unlogged t)
    (hreq : (s.core t.core).requestLease t.cohort (leaseCount (s.src t a.a .n32 0)) = .granted c) :
    execMleaseTry h a s = .next (((s.setCore t.core c).putQ t a.q true).goesOn s h t) := by
  unfold execMleaseTry
  refine issue_ok false hA ?_
  simp only [hreq, verdict_unlogged _ hlog]
  rfl

theorem execMleaseTry_refused {a : MleaseTryArgs} {c : Core} (hA : Acts s h t (s.srcKeys t a.a 1 0)) (hlog : s.unlogged t)
    (hreq : (s.core t.core).requestLease t.cohort (leaseCount (s.src t a.a .n32 0)) = .waits c) :
    execMleaseTry h a s = .next (((s.setCore t.core c).putQ t a.q false).goesOn s h t) := by
  unfold execMleaseTry
  refine issue_ok false hA ?_
  simp only [hreq, verdict_unlogged _ hlog]
  rfl

/-! ### MQWAIT (R349) -/

section
variable {a : SrcArgs} (hA : Acts s h t (s.srcKeys t a.a 1 0))
include hA

theorem execMqwait_reached
    (hn : ((s.core t.core).mx.ops.filter (·.owner == t.uid)).length ≤ s.src t a.a .n32 0) :
    execMqwait h a s = .next ((s.acquire t.core none).goesOn s h t) := by
  unfold execMqwait
  refine issue_ok false hA ?_
  simp only [hn, if_true]
  rfl

theorem execMqwait_parks (hn : s.src t a.a .n32 0 < ((s.core t.core).mx.ops.filter (·.owner == t.uid)).length)
    (ho : t.opened = none) : execMqwait h a s = .next (s.parkTask t.uid (.mq (s.src t a.a .n32 0))) := by
  unfold execMqwait
  refine issue_park hA ho ?_
  simp only [Nat.not_le.mpr hn, if_false]

end

end

/-- Settles O45: MLEASE and MLEASE.TRY branch on what their request comes to. -/
theorem leasesPass : Obligations.LeasesPass := by
  refine ⟨fun h a s t n hA hn hh hr ho => ?_, fun h a s t n hA hn hh hr => ?_, fun h a s t n hA hn ho hh hr => ?_,
    fun h a s t n hA hn ho hh hno => ?_, fun h a s t n o hA hn ho hh hne => ?_, fun h a s t n hA hlog hn => ?_,
    grantLease_planes, fun h s t hA => (exec_mrel h s).trans (issue_ok false hA rfl), fun h a s t n hA hn => ?_⟩
  · subst hn
    exact (exec_mlease h a s).trans (execMlease_granted hA (requestLease_granted hh hr ho))
  · subst hn
    exact (exec_mlease h a s).trans (execMlease_granted hA (requestLease_recounted hh hr))
  · exact (exec_mlease h a s).trans (execMlease_waits hA hn ho (requestLease_givesUp hh hr))
  · exact (exec_mlease h a s).trans (execMlease_waits hA hn ho (requestLease_waits (by simp [hh]) hno))
  · exact (exec_mlease h a s).trans
      (execMlease_waits hA hn ho (requestLease_waits (by simp [hh, hne]) (.inr (leaseOpen_held hh))))
  · subst hn
    rw [exec_mleaseTry]
    refine ⟨fun hh hr ho => execMleaseTry_granted hA hlog (requestLease_granted hh hr ho), fun o hh hne s1 hs1 => ?_⟩
    subst hs1
    exact execMleaseTry_refused hA hlog (requestLease_waits (by simp [hh, hne]) (.inr (leaseOpen_held hh)))
  · subst hn
    rw [exec_mqwait]
    exact ⟨execMqwait_reached hA, execMqwait_parks hA⟩

end Sys2Proof.Machine
end

section
/-! Proofs. O46: what every matrix instruction issues as (14_matrix R322, R342, R345 to R348). -/

namespace Sys2Proof.Machine

/-- The v destination of a request lies outside the warp's registers. -/
def MatReq.short (q : MatReq) (t : Task) : Bool :=
  match q.vdst with
  | some (v, n) => t.warp.count < v + n
  | none => false

/-- The request `q` is the form `f` of an instruction, up to the check of a v destination. -/
structure MatReq.IsForm (q : MatReq) (t : Task) (f : MatForm) : Prop where
  handles : q.handles = f.handles
  vals : q.vals = f.vals
  unsigned : q.short t = true → f.sign.sign = false
  build : q.short t = false → q.build = f.build
  short : q.short t = true → ∀ rs, f.build rs = none

theorem MatReq.isForm_of_build {q : MatReq} {t : Task} {f : MatForm} (hh : q.handles = f.handles) (hv : q.vals = f.vals)
    (hd : q.vdst = none) (hb : ∀ rs, q.build rs = f.build rs) : q.IsForm t f := by
  have hs : q.short t = false := by simp [MatReq.short, hd]
  exact ⟨hh, hv, by simp [hs], fun _ => funext hb, by simp [hs]⟩

/-- Each matrix instruction issues by `matIssue`, with its form; only MACR into v registers has a v destination. -/
theorem matIssue_of_matForm {i : Instr} {h : Hdr} {s : State} {t : Task} {f : MatForm} (hf : matForm s t i = some (h, f)) :
    ∃ keys req, exec i s = matIssue h s f.sign f.bare keys req ∧ keys t = f.keys ∧ (req s t).IsForm t f ∧
      ((req s t).short t = true → ∃ h a, i = .macrV h a) := by
  unfold matForm at hf
  split at hf
  next _ a =>
    cases hf
    refine ⟨_, _, exec_mldw h a s, rfl, MatReq.isForm_of_build rfl rfl rfl fun rs => ?_, by simp [MatReq.short]⟩
    match rs with
    | [] => rfl
    | [w] => grind
    | _ :: _ :: _ => rfl
  next _ a =>
    cases hf
    exact ⟨_, _, exec_mflip h a s, rfl, MatReq.isForm_of_build rfl rfl rfl fun rs => rfl, by simp [MatReq.short]⟩
  next _ a =>
    cases hf
    refine ⟨_, _, exec_mma h a s, rfl, MatReq.isForm_of_build rfl rfl rfl fun rs => ?_, by simp [MatReq.short]⟩
    match rs with
    | [] => rfl
    | [_] => rfl
    | [c, x] => simp
    | _ :: _ :: _ :: _ => rfl
  next _ a =>
    cases hf
    refine ⟨_, _, exec_mmas h a s, rfl, MatReq.isForm_of_build rfl rfl rfl fun rs => ?_, by simp [MatReq.short]⟩
    match rs with
    | [] => rfl
    | [_] => rfl
    | [_, _] => rfl
    | [c, x, m] => simp [and_assoc]
    | _ :: _ :: _ :: _ :: _ => rfl
  next _ a =>
    cases hf
    refine ⟨_, _, exec_macz h a s, rfl, MatReq.isForm_of_build rfl rfl rfl fun rs => ?_, by simp [MatReq.short]⟩
    match rs with
    | [] => rfl
    | [c] => grind
    | _ :: _ :: _ => rfl
  next _ a =>
    cases hf
    refine ⟨_, _, exec_macr h a s, rfl, MatReq.isForm_of_build rfl rfl rfl fun rs => ?_, by simp [MatReq.short]⟩
    match rs with
    | [] => rfl
    | [_] => rfl
    | [c, x] => simp [and_assoc]
    | _ :: _ :: _ :: _ => rfl
  next _ a =>
    cases hf
    refine ⟨_, _, exec_macrV h a s, rfl, ⟨rfl, rfl, fun _ => rfl, fun hs => funext fun rs => ?_, fun hs rs => ?_⟩,
      fun _ => ⟨h, a, rfl⟩⟩
    · match rs with
      | [] => rfl
      | [c] =>
        simp only [MatReq.short, decide_eq_false_iff_not, Nat.not_lt] at hs
        simp [hs]
      | _ :: _ :: _ => rfl
    · match rs with
      | [] => rfl
      | [c] =>
        simp only [MatReq.short, decide_eq_true_eq] at hs
        simp [Nat.not_le.mpr hs]
      | _ :: _ :: _ => rfl
  next => cases hf

/-- An undiverged warp whose cohort holds the lease, and whose v destination is allocated, comes to the request of the
instruction's form. -/
theorem matForm_comesTo {i : Instr} {h : Hdr} {s : State} {t : Task} {f : MatForm} (hf : matForm s t i = some (h, f))
    (hwhole : t.warp.active = t.warp.live) (hl : s.leased t = true)
    (hserves : f.sign.sign = true ∨ (∀ h a, i ≠ .macrV h a) ∨ ∃ rs k, f.build rs = some k) :
    ∃ q : MatReq, q.handles = f.handles ∧ q.vals = f.vals ∧ q.build = f.build ∧ ComesTo i h s t f.keys
      (if f.sign.sign then matSigned s t h f.sign.cv.toNat f.bare q else matPlain s t h q) := by
  obtain ⟨keys, req, hexec, hkeys, hform, hv⟩ := matIssue_of_matForm hf
  have hshort : ¬ (req s t).short t = true := by
    intro hs
    obtain hsign | hne | ⟨rs, k, hk⟩ := hserves
    · rw [hform.unsigned hs] at hsign; cases hsign
    · obtain ⟨h, a, hi⟩ := hv hs
      exact hne h a hi
    · rw [hform.short hs rs] at hk; cases hk
  refine ⟨req s t, hform.handles, hform.vals, hform.build (Bool.not_eq_true _ ▸ hshort), _, _, hexec, hkeys, ?_⟩
  simp only [undiverged_whole hwhole, hl, Bool.not_true, Bool.false_eq_true, if_false]
  exact if_neg hshort

/-- Without the lease a matrix instruction traps (R330). -/
theorem matForm_unleased {i : Instr} {h : Hdr} {s : State} {t : Task} {f : MatForm} (hf : matForm s t i = some (h, f))
    (hA : Acts s h t f.keys) (hwhole : t.warp.active = t.warp.live) (hl : s.leased t = false) :
    exec i s = .next (s.traps t (raise0 .leaseViolation)) := by
  obtain ⟨keys, req, hexec, hkeys, -⟩ := matIssue_of_matForm hf
  refine ComesTo.raise hA ⟨_, _, hexec, hkeys, ?_⟩
  simp only [undiverged_whole hwhole, hl, Bool.not_false, if_true]
  rfl

/-! ### Unsigned issue (R342) -/

/-- Where nothing is an error, no error is found. -/
theorem filterMap_oks {α β ε : Type} {g : Except ε α → Option β} (hg : ∀ x, g (.ok x) = none) (rs : List α) :
    (rs.map Except.ok).filterMap g = [] := by
  rw [List.filterMap_map, List.filterMap_eq_nil_iff]
  exact fun x _ => hg x

theorem okRecs_oks (rs : List HRec) : okRecs (rs.map Except.ok) = rs := by
  unfold okRecs
  rw [List.filterMap_map]
  exact List.filterMap_some

theorem resolveMat_oks (rs : List HRec) (q : MatReq) : resolveMat (rs.map Except.ok) q =
    match q.build rs with
    | some k => .ok k
    | none => throwC .handleFormat := by
  simp only [resolveMat, filterMap_oks (g := okCause) fun _ => rfl, List.map_nil, raiseOne_nil, okRecs_oks] <;> rfl

section
variable {i : Instr} {h : Hdr} {s : State} {t : Task} {f : MatForm} {rs : List HRec}
  (hf : matForm s t i = some (h, f)) (hsign : f.sign.sign = false) (hm : MatMay s h t f) (hnames : s.namesAll t f.handles rs)
include hf hsign hm hnames

theorem matForm_plain (hserves : (∀ h a, i ≠ .macrV h a) ∨ ∃ rs k, f.build rs = some k) : ComesTo i h s t f.keys
    (match f.build rs with
     | some k => if s.matHeld t k then .error (heldFor (s.matFull t k)) else .ok ⟨s.enqueueMat t k (barList t h.hint), none, true⟩
     | none => throwC .handleFormat) := by
  obtain ⟨q, hh, -, hb, hc⟩ := matForm_comesTo hf hm.whole hm.leased (.inr hserves)
  unfold State.namesAll at hnames
  rw [hsign] at hc
  simp only [Bool.false_eq_true, if_false, matPlain, hh, hnames, resolveMat_oks, hb] at hc
  revert hc
  cases f.build rs <;> exact id

theorem matForm_enters {k : MKind} (hk : f.build rs = some k) (hheld : s.matHeld t k = false) :
    exec i s = .next ((s.enqueueMat t k (barList t h.hint)).goesOn s h t true) :=
  ComesTo.ok hm.toActs (by
    simpa only [hk, hheld, Bool.false_eq_true, if_false] using matForm_plain hf hsign hm hnames (.inr ⟨rs, k, hk⟩))

theorem matForm_held {k : MKind} (hk : f.build rs = some k) (hheld : s.matHeld t k = true) :
    exec i s = .next (s.heldAt (s.matFull t k)) :=
  ComesTo.heldFor hm.toActs (by
    simpa only [hk, hheld, if_true] using matForm_plain hf hsign hm hnames (.inr ⟨rs, k, hk⟩))

theorem matForm_misfits (hv : ∀ h a, i ≠ .macrV h a) (hk : f.build rs = none) :
    exec i s = .next (s.traps t (raise0 .handleFormat)) :=
  ComesTo.raise hm.toActs (by simpa only [hk, throwC] using matForm_plain hf hsign hm hnames (.inl hv))

end

/-! ### MQ (R341, R349) -/

/-- The pair issues as the follower, under the guard of MQ and the hints of the follower. -/
theorem runFollower_eq {i : Instr} {q : State} {t : Task} {hf : Hdr} {f : MatForm} (h : Hdr)
    (hform : matForm q t i = some (hf, f)) : ∃ i', runFollower h i q = exec i' q ∧
      matForm q t i' = some (Hdr.mk h.u h.neg h.pred hf.hint, f) := by
  unfold matForm at hform
  split at hform
  next _ a => cases hform; exact ⟨.mldw ⟨h.u, h.neg, h.pred, hf.hint⟩ a, rfl, rfl⟩
  next _ a => cases hform; exact ⟨.mflip ⟨h.u, h.neg, h.pred, hf.hint⟩ a, rfl, rfl⟩
  next _ a => cases hform; exact ⟨.mma ⟨h.u, h.neg, h.pred, hf.hint⟩ a, rfl, rfl⟩
  next _ a => cases hform; exact ⟨.mmas ⟨h.u, h.neg, h.pred, hf.hint⟩ a, rfl, rfl⟩
  next _ a => cases hform; exact ⟨.macz ⟨h.u, h.neg, h.pred, hf.hint⟩ a, rfl, rfl⟩
  next _ a => cases hform; exact ⟨.macr ⟨h.u, h.neg, h.pred, hf.hint⟩ a, rfl, rfl⟩
  next _ a => cases hform; exact ⟨.macrV ⟨h.u, h.neg, h.pred, hf.hint⟩ a, rfl, rfl⟩
  next => cases hform

theorem execMq_pairs {h : Hdr} {a : MqArgs} {s : State} {t : Task} {i : Instr} (ht : s.curTask = some t)
    (hfol : s.follower t = .found i) : execMq h a s = runFollower h i (mqState s t a) := by
  simp only [execMq, ht, hfol]
  rfl

/-! ### What an operation that is entered leaves in its core -/

/-- The operation that `enqueueMat` enters. -/
def State.matEntered (s : State) (t : Task) (k : MKind) (bars : List (Nat × Nat)) : MatOp :=
  { uid := s.nextUid, owner := t.uid, cohort := t.cohort, kind := k, high := s.mqOf.1, trig := s.mqOf.2, admitted := false,
    done := 0, fin := false, bars := bars, flags := 0, pc := t.warp.pc, kept := none }

theorem core_modWarp (s : State) (u c : Nat) (f : Warp → Warp) : (s.modWarp u f).core c = s.core c :=
  congrArg (fun l => (alGet l c).getD Core.reset) (State.modWarp_cores s u f)

theorem mx_enqueueMat (s : State) (t : Task) (k : MKind) (bars : List (Nat × Nat)) :
    ((s.enqueueMat t k bars).core t.core).mx.ops = (s.core t.core).mx.ops ++ [s.matEntered t k bars] ∧
    ((s.enqueueMat t k bars).core t.core).mx.lease.count = (s.core t.core).mx.lease.count - 1 := by
  unfold State.enqueueMat State.fresh
  simp only [core_modCore_same]
  cases k.regs t.warp.width with
  | nil => cases k.writes <;> exact ⟨rfl, rfl⟩
  | cons r rs =>
    dsimp only
    rw [core_modWarp]
    cases k.writes <;> exact ⟨rfl, rfl⟩

theorem matrixOperationsIssue : Rule.MatrixOperationsIssue := by
  refine ⟨fun i h s t f rs k hf hsign hm hnames => matForm_enters hf hsign hm hnames,
    fun i h s t f rs k hf hsign hm hnames => matForm_held hf hsign hm hnames,
    fun i h s t f rs hf hsign hm hnames => matForm_misfits hf hsign hm hnames,
    fun i h s t f => matForm_unleased, fun h a s t i q ht hfol hq => ?_, fun h a s t ht => ?_, fun s t k bars => ?_⟩
  · subst hq
    rw [exec_mq, execMq_pairs ht hfol]
    refine ⟨rfl, fun hf f r rs k hform hsign hr hm hnames hk hheld => ?_⟩
    obtain ⟨i', hrun, hform'⟩ := runFollower_eq h hform
    subst hr
    exact hrun.trans (matForm_enters hform' hsign hm hnames hk hheld)
  · rw [exec_mq]
    exact ⟨fun hfol => by simp only [execMq, ht, hfol], fun c hfol => by simp only [execMq, ht, hfol]⟩
  · obtain ⟨hops, hcount⟩ := mx_enqueueMat s t k bars
    exact ⟨s.matEntered t k bars, rfl, rfl, rfl, by cases hmq : s.cur.mq <;> simp [State.matEntered, State.mqOf, hmq],
      by cases hmq : s.cur.mq <;> simp [State.matEntered, State.mqOf, hmq], rfl, rfl, rfl, hops, hcount⟩

end Sys2Proof.Machine
end

section
/-! Proofs. O46: signed issue (14_matrix R336). -/

namespace Sys2Proof.Machine

/-! ### The names of a signing -/

theorem signRecs_found (recs : List HRec) : signRecs ((recs.map some).map Except.ok) = some recs := by
  induction recs with
  | nil => rfl
  | cons r recs ih => simp only [List.map_cons, signRecs, ih, Option.map_some]

theorem signRecs_open {rs : List (Option HRec)} (hn : none ∈ rs) : signRecs (rs.map Except.ok) = none := by
  induction rs with
  | nil => cases hn
  | cons r rs ih =>
    cases r with
    | none => rfl
    | some r =>
      have hn' : none ∈ rs := by simpa using hn
      simp only [List.map_cons, signRecs, ih hn', Option.map_none]

theorem resolveSigned_found (recs : List HRec) (q : MatReq) : resolveSigned ((recs.map some).map Except.ok) q =
    match q.build recs with
    | some k => .ok (some k)
    | none => throwC .handleFormat := by
  simp only [resolveSigned, filterMap_oks, implies_true, List.map_nil, raiseOne_nil, signRecs_found] <;> rfl

theorem resolveSigned_open {rs : List (Option HRec)} (q : MatReq) (hn : none ∈ rs) :
    resolveSigned (rs.map Except.ok) q = .ok none := by
  simp only [resolveSigned, filterMap_oks, implies_true, List.map_nil, raiseOne_nil, signRecs_open hn]

/-! ### The signing itself -/

/-- The register once `t` has signed. -/
def CReg.signedBy (r : CReg) (s : State) (t : Task) (h : Hdr) (f : MatForm) : CReg :=
  { r with instr := some f.bare, vals := signVals s f, pre := s.cur.pre, signers := r.signers ++ [(t.uid, barOf h.hint)] }

/-- The barriers of every signer. -/
def CReg.bars (r : CReg) (t : Task) (h : Hdr) : List (Nat × Nat) :=
  (r.signers.filterMap fun (u, b) => b.map fun b => (u, b)) ++ barList t h.hint

/-- The last signing: the operation enters its queue, the register is free, and the signers go on. -/
def State.launched (s : State) (t : Task) (h : Hdr) (f : MatForm) (r : CReg) (k : MKind) : State :=
  r.signers.foldl State.signerGoes ((s.enqueueMat t k (r.bars t h)).modCore t.core fun c =>
    { c with cvs := c.cvs.filter (·.idx != f.sign.cv.toNat) })

/-- What a signing comes to where its names leave `k`. -/
def State.signing (s : State) (t : Task) (h : Hdr) (f : MatForm) (r : CReg) (k : Option MKind) : M Eff :=
  if (r.signers.map (·.1)).contains t.uid then throwC .cvMismatch
  else if !r.signers.isEmpty && !(r.instr == some f.bare && r.vals == signVals s f && r.pre == s.cur.pre) then
    throwC .cvMismatch
  else match decide (r.count ≤ r.signers.length + 1), k with
    | true, some k =>
      if s.matHeld t k then .error (heldFor (s.matFull t k)) else .ok ⟨s.launched t h f r k, none, true⟩
    | _, _ => .error (.parkIn (s.modCore t.core (·.setCv (r.signedBy s t h f))) (.sign f.sign.cv.toNat (s.seqPc t) h.hint))

section
variable {s : State} {t : Task} {h : Hdr} {f : MatForm} {r : CReg}

theorem signing_mismatch (k : Option MKind) (hno : ¬ signsSame s t f r) :
    s.signing t h f r k = .error (.raise (raise0 .cvMismatch)) := by
  unfold State.signing
  split
  · rfl
  next hnew =>
    split
    · rfl
    next hsame =>
      refine absurd ⟨by simpa using hnew, ?_⟩ hno
      by_cases hs : r.signers = []
      · exact .inl hs
      · exact .inr (by simpa [hs, and_assoc] using hsame)

/-- A signer that has not signed yet, and signs what was signed. -/
theorem signing_same (k : Option MKind) (hs : signsSame s t f r) : s.signing t h f r k =
    match decide (r.count ≤ r.signers.length + 1), k with
    | true, some k =>
      if s.matHeld t k then .error (heldFor (s.matFull t k)) else .ok ⟨s.launched t h f r k, none, true⟩
    | _, _ => .error (.parkIn (s.modCore t.core (·.setCv (r.signedBy s t h f)))
        (.sign f.sign.cv.toNat (s.seqPc t) h.hint)) := by
  obtain ⟨hnew, hsame⟩ := hs
  have hdiff : (!r.signers.isEmpty && !(r.instr == some f.bare && r.vals == signVals s f && r.pre == s.cur.pre)) = false := by
    obtain hnil | ⟨hi, hv, hp⟩ := hsame
    · simp [hnil]
    · simp [hi, hv, hp]
  unfold State.signing
  rw [if_neg (by simpa using hnew), hdiff]
  rfl

end

section
variable {i : Instr} {h : Hdr} {s : State} {t : Task} {f : MatForm} {r : CReg} {rs : List (Option HRec)}
  (hf : matForm s t i = some (h, f)) (hsign : f.sign.sign = true) (hm : MatMay s h t f)
  (hr : (s.core t.core).cv? f.sign.cv.toNat = some r) (hcount : r.count ≠ 0) (howner : r.owner = t.cohort)
  (hrs : f.handles.map (fun x => s.signedRec t (r.signers.map (·.1)) (decide (r.count ≤ r.signers.length + 1)) x.1 x.2) =
    rs.map Except.ok)
include hf hsign hm hr hcount howner hrs

/-- A signing resolves its names, and then signs. -/
theorem matForm_signs : ∃ q : MatReq, q.build = f.build ∧ ComesTo i h s t f.keys
    (match resolveSigned (rs.map Except.ok) q with
     | .error e => .error e
     | .ok k => s.signing t h f r k) := by
  obtain ⟨q, hh, hv, hb, hc⟩ := matForm_comesTo hf hm.whole hm.leased (.inl hsign)
  have hvals : f.vals ++ ((s.mqOf.2).map (·.2)).toList = signVals s f := by
    unfold signVals State.mqOf
    cases s.cur.mq <;> rfl
  have harmed : Option.filter (fun r => r.count != 0 && r.owner == t.cohort) (some r) = some r := by
    simp [hcount, howner]
  refine ⟨q, hb, ?_⟩
  rw [hsign] at hc
  simp only [if_true, matSigned, hh, hv, hr, harmed, Option.map_some, Option.getD_some, Option.any_some, hrs, hvals] at hc
  exact hc

theorem signed_misfits {recs : List HRec} (hrecs : rs = recs.map some) (hk : f.build recs = none) :
    exec i s = .next (s.traps t (raise0 .handleFormat)) := by
  obtain ⟨q, hb, hc⟩ := matForm_signs hf hsign hm hr hcount howner hrs
  rw [hrecs, resolveSigned_found, hb, hk] at hc
  exact ComesTo.raise hm.toActs hc

/-- Names that serve, or that a later signer is to map, leave the signing to its comparison. -/
theorem matForm_signing (hserve : none ∈ rs ∨ ∃ recs k, rs = recs.map some ∧ f.build recs = some k) :
    ∃ k, ComesTo i h s t f.keys (s.signing t h f r k) := by
  obtain ⟨q, hb, hc⟩ := matForm_signs hf hsign hm hr hcount howner hrs
  obtain hn | ⟨recs, k, hrecs, hk⟩ := hserve
  · rw [resolveSigned_open q hn] at hc
    exact ⟨none, hc⟩
  · rw [hrecs, resolveSigned_found, hb, hk] at hc
    exact ⟨some k, hc⟩

theorem signed_mismatch (hserve : none ∈ rs ∨ ∃ recs k, rs = recs.map some ∧ f.build recs = some k)
    (hno : ¬ signsSame s t f r) : exec i s = .next (s.traps t (raise0 .cvMismatch)) := by
  obtain ⟨k, hc⟩ := matForm_signing hf hsign hm hr hcount howner hrs hserve
  exact ComesTo.raise hm.toActs (signing_mismatch k hno ▸ hc)

theorem signed_parks (hserve : none ∈ rs ∨ ∃ recs k, rs = recs.map some ∧ f.build recs = some k)
    (hs : signsSame s t f r) (hlast : r.signers.length + 1 < r.count) (ho : t.opened = none) : exec i s =
      .next ((s.modCore t.core (·.setCv (r.signedBy s t h f))).parkTask t.uid (.sign f.sign.cv.toNat (s.seqPc t) h.hint)) := by
  obtain ⟨k, hc⟩ := matForm_signing hf hsign hm hr hcount howner hrs hserve
  rw [signing_same k hs, decide_eq_false (Nat.not_le.mpr hlast)] at hc
  exact ComesTo.parkIn hm.toActs ho hc

/-- The last signing launches the operation, or is held while its queue is. -/
theorem signed_last {recs : List HRec} {k : MKind} (hrecs : rs = recs.map some) (hk : f.build recs = some k)
    (hs : signsSame s t f r) (hlast : r.count ≤ r.signers.length + 1) : ComesTo i h s t f.keys
      (if s.matHeld t k then .error (heldFor (s.matFull t k)) else .ok ⟨s.launched t h f r k, none, true⟩) := by
  obtain ⟨q, hb, hc⟩ := matForm_signs hf hsign hm hr hcount howner hrs
  rw [hrecs, resolveSigned_found, hb, hk] at hc
  simpa only [signing_same _ hs, decide_eq_true hlast] using hc

end

theorem signedIssueMeets : Rule.SignedIssueMeets := by
  intro i h s t f r rs hf hsign hm hr hcount howner hrs
  refine ⟨fun recs => signed_misfits hf hsign hm hr hcount howner hrs, fun hserve =>
    ⟨signed_mismatch hf hsign hm hr hcount howner hrs hserve, signed_parks hf hsign hm hr hcount howner hrs hserve⟩,
    fun recs k hrecs hk hs hlast => ?_⟩
  have hc := signed_last hf hsign hm hr hcount howner hrs hrecs hk hs hlast
  refine ⟨fun hheld => ?_, fun hheld s1 s2 bars hbars hs1 hs2 => ?_⟩
  · rw [hheld, if_pos rfl] at hc
    exact ComesTo.heldFor hm.toActs hc
  · rw [hheld, if_neg Bool.false_ne_true] at hc
    subst hbars hs1 hs2
    exact ComesTo.ok hm.toActs hc

/-- Settles O46: each matrix instruction issues with the form that `matForm` gives it; alone it enters its queue, signed it
compares its signing with those before it. -/
theorem matrixInstructionsIssue : Obligations.MatrixInstructionsIssue := ⟨matrixOperationsIssue, signedIssueMeets⟩

end Sys2Proof.Machine
end


section
/-! Proofs. O48: the layout of a trap frame, and the registers that are read back from it (16_system R368, R369). -/

namespace Sys2Proof.Machine

/-! ### Numbers at the offsets of bytes -/

theorem natBit_mod_two_pow (x : Nat) {i n : Nat} (hi : i < n) : natBit (x % 2 ^ n) i = natBit x i := by
  simp [natBit_eq_testBit, Nat.testBit_mod_two_pow, hi]

/-- A number of `n` bytes reads back at its place. -/
theorem frameNat_bytesOf (n x : Nat) (rest : List Byte) : frameNat (bytesOf n x ++ rest) 0 n = x % 256 ^ n := by
  rw [frameNat, List.drop_zero, List.take_left' (bytesOf_length n x), natOf_bytesOf]

theorem frameNat_append {bs rest : List Byte} {off n : Nat} (h : bs.length ≤ off) :
    frameNat (bs ++ rest) off n = frameNat rest (off - bs.length) n := by
  rw [frameNat, frameNat, List.drop_append, List.drop_of_length_le h, List.nil_append]

theorem frameNat_append_left {bs rest : List Byte} {off n : Nat} (h : off + n ≤ bs.length) :
    frameNat (bs ++ rest) off n = frameNat bs off n := by
  rw [frameNat, frameNat, List.drop_append_of_le_length (by omega), List.take_append_of_le_length (by simp; omega)]

theorem frameNat_lt (bs : List Byte) (off n : Nat) : frameNat bs off n < 256 ^ n :=
  Nat.lt_of_lt_of_le (natOf_lt _) (Nat.pow_le_pow_right (by decide) (by simp))

/-! ### Register files and masks -/

/-- Word `k` of a list of words reads back. -/
theorem frameNat_words (xs : List Nat) {k : Nat} (rest : List Byte) (hk : k < xs.length) :
    frameNat (xs.flatMap (bytesOf 4) ++ rest) (4 * k) 4 = xs[k] % 256 ^ 4 := by
  induction xs generalizing k with
  | nil => exact absurd hk (Nat.not_lt_zero k)
  | cons x xs ih =>
    rw [List.flatMap_cons, List.append_assoc]
    cases k with
    | zero => exact frameNat_bytesOf 4 x _
    | succ k =>
      rw [frameNat_append (by rw [bytesOf_length]; omega), bytesOf_length, show 4 * (k + 1) - 4 = 4 * k by omega,
        ih (Nat.lt_of_succ_lt_succ hk), List.getElem_cons_succ]

theorem length_words (xs : List Nat) : (xs.flatMap (bytesOf 4)).length = 4 * xs.length := by
  induction xs with
  | nil => rfl
  | cons x xs ih => rw [List.flatMap_cons, List.length_append, bytesOf_length, ih, List.length_cons]; omega

theorem fileBytes_eq_words (m : Sparse 32) (lo n : Nat) :
    fileBytes m lo n = ((List.range n).map fun i => (spGet m (lo + i)).toNat).flatMap (bytesOf 4) := by
  rw [fileBytes, spTake_eq_map, List.flatMap_map, List.flatMap_map]

theorem fileBytes_length (m : Sparse 32) (lo n : Nat) : (fileBytes m lo n).length = 4 * n := by
  rw [fileBytes_eq_words, length_words, List.length_map, List.length_range]

/-- Register `k` of a file reads back. -/
theorem frameNat_fileBytes (m : Sparse 32) {n k : Nat} (rest : List Byte) (hk : k < n) :
    frameNat (fileBytes m 0 n ++ rest) (4 * k) 4 = (spGet m k).toNat := by
  rw [fileBytes_eq_words, frameNat_words _ rest (by simpa using hk), List.getElem_map, List.getElem_range, Nat.zero_add]
  exact Nat.mod_eq_of_lt (spGet m k).isLt

/-- A mask of `n` bits that a test sets. -/
def bitsWhere (f : Nat → Bool) (n : Nat) : Nat :=
  (List.range n).foldl (fun acc l => if f l then acc + 2 ^ l else acc) 0

theorem bitsWhere_succ (f : Nat → Bool) (n : Nat) :
    bitsWhere f (n + 1) = if f n then bitsWhere f n + 2 ^ n else bitsWhere f n := by
  simp [bitsWhere, List.range_succ]

theorem bitsWhere_lt (f : Nat → Bool) (n : Nat) : bitsWhere f n < 2 ^ n := by
  induction n with
  | zero => exact Nat.zero_lt_one
  | succ n ih => rw [bitsWhere_succ, Nat.pow_succ]; split <;> omega

theorem natBit_bitsWhere (f : Nat → Bool) (n i : Nat) : natBit (bitsWhere f n) i = (decide (i < n) && f i) := by
  induction n with
  | zero => simp [bitsWhere, natBit]
  | succ n ih =>
    have hlow := bitsWhere_lt f n
    rw [natBit_eq_testBit] at ih ⊢
    rw [bitsWhere_succ, Nat.add_comm _ (2 ^ n)]
    obtain hi | rfl | hi := Nat.lt_trichotomy i n
    · split
      · rw [Nat.testBit_two_pow_add_gt hi, ih]; simp [hi, Nat.lt_succ_of_lt hi]
      · rw [ih]; simp [hi, Nat.lt_succ_of_lt hi]
    · split
      next hf => rw [Nat.testBit_two_pow_add_eq, Nat.testBit_lt_two_pow hlow]; simp [hf]
      next hf => rw [Nat.testBit_lt_two_pow hlow]; simp [hf]
    · have hnext : 2 ^ (n + 1) ≤ 2 ^ i := Nat.pow_le_pow_right Nat.two_pos hi
      have hall : (if f n then 2 ^ n + bitsWhere f n else bitsWhere f n) < 2 ^ i := by
        rw [Nat.pow_succ] at hnext; split <;> omega
      rw [Nat.testBit_lt_two_pow hall]
      simp; omega

theorem predMask_eq_bitsWhere (m : Sparse 32) (idx : Nat) :
    predMask m idx = bitsWhere (fun l => (spGet m (32 * idx + l)).getLsbD 0) 32 := rfl

/-- BARS: the counters of the four scoreboards, 6 bits each. -/
def packBars (b : Sparse 6) : Nat := (List.range 4).foldl (fun acc n => acc + (spGet b n).toNat * 2 ^ (6 * n)) 0

theorem natBits_packBars (b : Sparse 6) {n : Nat} (hn : n < 4) :
    natBits (packBars b % 256 ^ 4) (6 * n) 6 = (spGet b n).toNat := by
  have h0 := (spGet b 0).isLt
  have h1 := (spGet b 1).isLt
  have h2 := (spGet b 2).isLt
  have h3 := (spGet b 3).isLt
  have hpack : packBars b = (spGet b 0).toNat + (spGet b 1).toNat * 64 + (spGet b 2).toNat * 4096 +
      (spGet b 3).toNat * 262144 := by simp [packBars, List.range_succ]
  rw [hpack]
  obtain rfl | rfl | rfl | rfl : n = 0 ∨ n = 1 ∨ n = 2 ∨ n = 3 := by omega
  all_goals
    simp only [natBits]
    omega

/-! ### The frame in its parts (R368) -/

/-- The fields of a frame up to its lane masks, as their lengths and values. -/
def frameHead (t : Task) (a : FrameArgs) : List Byte :=
  bytesOf 1 a.cause.code ++ (bytesOf 1 a.kind.code ++
  (bytesOf 2 (a.op.isSome.toNat + 2 * a.pair.toNat + 4 * a.opaddr.toNat) ++ (bytesOf 4 t.ident.toNat ++
  (bytesOf 4 a.lanes.toNat ++ (bytesOf 4 a.pc.toNat ++ (bytesOf 8 a.faddr ++
  (bytesOf 4 (clKey t.line) ++ (bytesOf 4 t.warp.fpctl.toNat ++ (bytesOf 4 t.warp.live.toNat ++
  (bytesOf 4 t.warp.active.toNat ++ (bytesOf 16 t.warp.maskMap.toNat ++
  (bytesOf 4 (bitsWhere (fun n => (spGet t.warp.q n).getLsbD 0) 7) ++ bytesOf 4 (packBars t.warp.bars)))))))))))))

/-- The predicate registers' lane masks. -/
def framePreds (w : Warp) : List Byte := ((List.range 7).map (predMask w.p)).flatMap (bytesOf 4)

/-- The fields of a frame behind its lane masks. -/
def frameMid (s : State) (t : Task) (a : FrameArgs) : List Byte :=
  bytesOf 4 (t.warp.width + 256 * (t.warp.count / 4)) ++ (bytesOf 4 t.warp.issueIdx.toNat ++ (bytesOf 4 t.sFut.toNat ++
  (bytesOf 4 a.opref ++ (bytesOf 4 t.core ++ (bytesOf 8 s.timeNs.toNat ++ bytesOf 4 a.code)))))

/-- The registers of a frame. -/
def frameFiles (w : Warp) : List Byte :=
  fileBytes w.g 0 128 ++ (fileBytes w.x 0 256 ++ fileBytes w.v 0 (32 * w.count))

theorem frameBytes_eq (s : State) (t : Task) (a : FrameArgs) :
    frameBytes s t a = frameHead t a ++ (framePreds t.warp ++ (frameMid s t a ++ (bytesOf 132 0 ++ frameFiles t.warp))) := by
  unfold frameBytes
  simp only [frameHead, framePreds, frameMid, frameFiles, List.append_assoc, List.flatMap_map, bitsWhere, packBars, clKey,
    lineWord]

theorem frameHead_length (t : Task) (a : FrameArgs) : (frameHead t a).length = 0x40 := by
  simp [frameHead, bytesOf_length]

theorem framePreds_length (w : Warp) : (framePreds w).length = 0x1C := by
  rw [framePreds, length_words, List.length_map, List.length_range]

theorem frameMid_length (s : State) (t : Task) (a : FrameArgs) : (frameMid s t a).length = 0x20 := by
  simp [frameMid, bytesOf_length]

theorem frameBytes_length (s : State) (t : Task) (a : FrameArgs) :
    (frameBytes s t a).length = 0x700 + 128 * t.warp.count := by
  simp only [frameBytes_eq, List.length_append, frameHead_length, framePreds_length, frameMid_length, frameFiles,
    fileBytes_length, bytesOf_length]
  omega

/-- A field before the lane masks. -/
theorem frameNat_head (s : State) (t : Task) (a : FrameArgs) {off n : Nat} (h : off + n ≤ 0x40) :
    frameNat (frameBytes s t a) off n = frameNat (frameHead t a) off n := by
  rw [frameBytes_eq, frameNat_append_left (by rw [frameHead_length]; exact h)]

/-- A field between the lane masks and the registers. -/
theorem frameNat_mid (s : State) (t : Task) (a : FrameArgs) {off n : Nat} (h : off + n ≤ 0x20) :
    frameNat (frameBytes s t a) (0x5C + off) n = frameNat (frameMid s t a) off n := by
  rw [frameBytes_eq, frameNat_append (by rw [frameHead_length]; omega),
    frameNat_append (by rw [frameHead_length, framePreds_length]; omega), frameHead_length, framePreds_length,
    show 0x5C + off - 0x40 - 0x1C = off by omega, frameNat_append_left (by rw [frameMid_length]; exact h)]

/-- A register of a frame. -/
theorem frameNat_files (s : State) (t : Task) (a : FrameArgs) (off n : Nat) :
    frameNat (frameBytes s t a) (0x100 + off) n = frameNat (frameFiles t.warp) off n := by
  rw [frameBytes_eq, frameNat_append (by rw [frameHead_length]; omega),
    frameNat_append (by rw [frameHead_length, framePreds_length]; omega),
    frameNat_append (by rw [frameHead_length, framePreds_length, frameMid_length]; omega),
    frameNat_append (by rw [frameHead_length, framePreds_length, frameMid_length, bytesOf_length]; omega), frameHead_length,
    framePreds_length, frameMid_length, bytesOf_length, show 0x100 + off - 0x40 - 0x1C - 0x20 - 132 = off by omega]

/-- A predicate register's lane mask. -/
theorem frameNat_preds (s : State) (t : Task) (a : FrameArgs) {n : Nat} (hn : n < 7) :
    frameNat (frameBytes s t a) (0x40 + 4 * n) 4 = predMask t.warp.p n := by
  have hmask : predMask t.warp.p n < 256 ^ 4 := bitsWhere_lt _ 32
  rw [frameBytes_eq, frameNat_append (by rw [frameHead_length]; omega), frameHead_length, Nat.add_sub_cancel_left, framePreds,
    frameNat_words _ _ (by simpa using hn), List.getElem_map, List.getElem_range, Nat.mod_eq_of_lt hmask]

/-- Scalar register `k`. -/
theorem frameNat_g (s : State) (t : Task) (a : FrameArgs) {k : Nat} (hk : k < 128) :
    frameNat (frameBytes s t a) (0x100 + 4 * k) 4 = (spGet t.warp.g k).toNat := by
  rw [frameNat_files, frameFiles, frameNat_fileBytes _ _ hk]

/-- Tile register `k`, lane by lane. -/
theorem frameNat_x (s : State) (t : Task) (a : FrameArgs) {k : Nat} (hk : k < 256) :
    frameNat (frameBytes s t a) (0x300 + 4 * k) 4 = (spGet t.warp.x k).toNat := by
  rw [show 0x300 + 4 * k = 0x100 + (0x200 + 4 * k) by omega, frameNat_files, frameFiles,
    frameNat_append (by rw [fileBytes_length]; omega), fileBytes_length, Nat.add_sub_cancel_left,
    frameNat_fileBytes _ _ hk]

/-- Vector register `k`, lane by lane. -/
theorem frameNat_v (s : State) (t : Task) (a : FrameArgs) {k : Nat} (hk : k < 32 * t.warp.count) :
    frameNat (frameBytes s t a) (0x700 + 4 * k) 4 = (spGet t.warp.v k).toNat := by
  have hfile := frameNat_fileBytes t.warp.v [] hk
  rw [List.append_nil] at hfile
  rw [show 0x700 + 4 * k = 0x100 + (0x600 + 4 * k) by omega, frameNat_files, frameFiles,
    frameNat_append (by rw [fileBytes_length]; omega), frameNat_append (by simp only [fileBytes_length]; omega)]
  simpa only [fileBytes_length, show 0x600 + 4 * k - 4 * 128 - 4 * 256 = 4 * k by omega] using hfile

/-- The bytes of R368's table that no field takes. -/
theorem frameBytes_reserved (s : State) (t : Task) (a : FrameArgs) {i : Nat} (hi : i < 132) :
    (frameBytes s t a)[0x7C + i]? = some 0 := by
  have hzero : ∀ n, bytesOf n 0 = List.replicate n 0 := fun n => by
    induction n with
    | zero => rfl
    | succ n ih => rw [bytesOf, Nat.zero_div, ih]; rfl
  rw [frameBytes_eq, List.getElem?_append_right (by rw [frameHead_length]; omega),
    List.getElem?_append_right (by rw [frameHead_length, framePreds_length]; omega),
    List.getElem?_append_right (by rw [frameHead_length, framePreds_length, frameMid_length]; omega), frameHead_length,
    framePreds_length, frameMid_length, show 0x7C + i - 0x40 - 0x1C - 0x20 = i by omega,
    List.getElem?_append_left (by rw [bytesOf_length]; exact hi), hzero, List.getElem?_replicate, if_pos hi]

theorem code_lt (c : Cause) : c.code < 256 := by
  cases c with
  | arith i => have := i.isLt; simp only [Cause.code]; omega
  | _ => decide

/-- The fields before the lane masks. -/
theorem frameHead_fields (t : Task) (a : FrameArgs) :
    frameNat (frameHead t a) 0 1 = a.cause.code ∧ frameNat (frameHead t a) 1 1 = a.kind.code ∧
    frameNat (frameHead t a) 2 2 = a.op.isSome.toNat + 2 * a.pair.toNat + 4 * a.opaddr.toNat ∧
    frameNat (frameHead t a) 4 4 = t.ident.toNat ∧ frameNat (frameHead t a) 8 4 = a.lanes.toNat ∧
    frameNat (frameHead t a) 0x0C 4 = a.pc.toNat ∧ frameNat (frameHead t a) 0x10 8 = a.faddr % 2 ^ 64 ∧
    frameNat (frameHead t a) 0x18 4 = clKey t.line ∧ frameNat (frameHead t a) 0x1C 4 = t.warp.fpctl.toNat ∧
    frameNat (frameHead t a) 0x20 4 = t.warp.live.toNat ∧ frameNat (frameHead t a) 0x24 4 = t.warp.active.toNat ∧
    frameNat (frameHead t a) 0x28 16 = t.warp.maskMap.toNat := by
  have hkind : a.kind.code < 256 := by cases a.kind <;> decide
  have hflags : a.op.isSome.toNat + 2 * a.pair.toNat + 4 * a.opaddr.toNat < 256 ^ 2 := by
    have h0 := a.op.isSome.toNat_le
    have h1 := a.pair.toNat_le
    have h2 := a.opaddr.toNat_le
    omega
  have hkey : clKey t.line < 256 ^ 4 := (t.line[2]?.getD 0).isLt
  have hword (x : BitVec 32) : x.toNat % 256 ^ 4 = x.toNat := Nat.mod_eq_of_lt x.isLt
  have hmasks (x : BitVec 128) : x.toNat % 256 ^ 16 = x.toNat := Nat.mod_eq_of_lt x.isLt
  refine ⟨?_, ?_, ?_, ?_, ?_, ?_, ?_, ?_, ?_, ?_, ?_, ?_⟩
  all_goals simp only [frameHead]
  · exact (frameNat_bytesOf ..).trans (Nat.mod_eq_of_lt (code_lt a.cause))
  all_goals simp (disch := simp [bytesOf_length]) only [frameNat_append, bytesOf_length, Nat.reduceSub, frameNat_bytesOf]
  · exact Nat.mod_eq_of_lt hkind
  · exact Nat.mod_eq_of_lt hflags
  · exact hword _
  · exact hword _
  · exact hword _
  · rfl
  · exact Nat.mod_eq_of_lt hkey
  · exact hword _
  · exact hword _
  · exact hword _
  · exact hmasks _

/-- The masks at the end of the first part. -/
theorem frameHead_masks (t : Task) (a : FrameArgs) :
    frameNat (frameHead t a) 0x38 4 = bitsWhere (fun n => (spGet t.warp.q n).getLsbD 0) 7 ∧
    frameNat (frameHead t a) 0x3C 4 = packBars t.warp.bars % 256 ^ 4 := by
  have hq : bitsWhere (fun n => (spGet t.warp.q n).getLsbD 0) 7 < 256 ^ 4 :=
    Nat.lt_trans (bitsWhere_lt _ 7) (by decide)
  have hlast : frameNat (bytesOf 4 (packBars t.warp.bars)) 0 4 = packBars t.warp.bars % 256 ^ 4 := by
    simpa using frameNat_bytesOf 4 (packBars t.warp.bars) []
  refine ⟨?_, ?_⟩
  all_goals simp only [frameHead]
  all_goals simp (disch := simp [bytesOf_length]) only [frameNat_append, bytesOf_length, Nat.reduceSub, frameNat_bytesOf]
  · exact Nat.mod_eq_of_lt hq
  · exact hlast

/-- The fields behind the lane masks. -/
theorem frameMid_fields (s : State) (t : Task) (a : FrameArgs) (hfits : t.warp.fits) :
    frameNat (frameMid s t a) 0 4 = t.warp.width + 256 * (t.warp.count / 4) ∧
    frameNat (frameMid s t a) 4 4 = t.warp.issueIdx.toNat ∧ frameNat (frameMid s t a) 8 4 = t.sFut.toNat ∧
    frameNat (frameMid s t a) 0x0C 4 = a.opref % 2 ^ 32 ∧ frameNat (frameMid s t a) 0x10 4 = t.core % 2 ^ 32 ∧
    frameNat (frameMid s t a) 0x14 8 = s.timeNs.toNat ∧ frameNat (frameMid s t a) 0x1C 4 = a.code % 2 ^ 32 := by
  obtain ⟨hcount, -⟩ := hfits.count
  have hwidth := hfits.width
  have hlast : frameNat (bytesOf 4 a.code) 0 4 = a.code % 256 ^ 4 := by simpa using frameNat_bytesOf 4 a.code []
  refine ⟨?_, ?_, ?_, ?_, ?_, ?_, ?_⟩
  all_goals simp only [frameMid]
  · exact (frameNat_bytesOf ..).trans (Nat.mod_eq_of_lt (by omega))
  all_goals simp (disch := simp [bytesOf_length]) only [frameNat_append, bytesOf_length, Nat.reduceSub, frameNat_bytesOf]
  · exact Nat.mod_eq_of_lt t.warp.issueIdx.isLt
  · exact Nat.mod_eq_of_lt t.sFut.isLt
  · rfl
  · rfl
  · exact Nat.mod_eq_of_lt s.timeNs.isLt
  · exact hlast

/-! ### Reading a frame back (R369) -/

theorem spGet_spNonzero_map (f : Nat → BitVec 32) {k n : Nat} (hk : k < n) :
    spGet (spNonzero 0 ((List.range n).map f)) k = f k := by
  rw [spGet_spNonzero, if_pos (by simpa using hk), Nat.sub_zero, atOr0]
  simp [hk]

theorem spGet_wordsFrom (keep : Nat → Bool) (bs : List Byte) (off : Nat) {k n : Nat} (hk : k < n) :
    spGet (wordsFrom keep (bs.drop off) n) k = if keep k then BitVec.ofNat 32 (frameNat bs (off + 4 * k) 4) else 0 := by
  rw [wordsFrom, spGet_spNonzero_map _ hk, List.drop_drop, frameNat]

theorem canon_restoreWarp (w : Warp) (bs : List Byte) : (restoreWarp w bs).canon :=
  ⟨spWfFrom_spNonzero 0 _, spWfFrom_spNonzero 0 _, spWfFrom_spNonzero 0 _, spWfFrom_spNonzero 0 _, spWfFrom_spNonzero 0 _⟩

/-- A register of one bit is what its bit says. -/
theorem eq_of_oneBit {x : BitVec 32} (h : x = 0 ∨ x = 1) : (if x.getLsbD 0 then 1 else 0) = x := by
  obtain rfl | rfl := h <;> rfl

section
variable (w : Warp) (bs : List Byte)

theorem restoreWarp_g {k : Nat} (hk : k < 128) :
    spGet (restoreWarp w bs).g k = BitVec.ofNat 32 (frameNat bs (0x100 + 4 * k) 4) :=
  spGet_wordsFrom (fun _ => true) bs 0x100 hk

theorem restoreWarp_v {k : Nat} (hk : k < 32 * w.count) :
    spGet (restoreWarp w bs).v k = if k % 32 < w.width then BitVec.ofNat 32 (frameNat bs (0x700 + 4 * k) 4) else 0 := by
  refine (spGet_wordsFrom (fun i => i % 32 < w.width) bs 0x700 hk).trans ?_
  simp only [decide_eq_true_eq]

theorem restoreWarp_x {k : Nat} (hk : k < 256) :
    spGet (restoreWarp w bs).x k =
      if k % 32 < w.width then BitVec.ofNat 32 (frameNat bs (0x300 + 4 * k) 4) &&& 0x3FFFFFFF else 0 := by
  simp only [restoreWarp, spGet_spNonzero_map _ hk, List.drop_drop, frameNat, decide_eq_true_eq]

theorem restoreWarp_p {k : Nat} (hk : k < 224) :
    spGet (restoreWarp w bs).p k =
      if k % 32 < w.width && natBit (frameNat bs (0x40 + 4 * (k / 32)) 4) (k % 32) then 1 else 0 := by
  simp only [restoreWarp, spGet_spNonzero_map _ hk, frameNat]
  rfl

theorem restoreWarp_q {k : Nat} (hk : k < 7) :
    spGet (restoreWarp w bs).q k = if natBit (frameNat bs 0x38 4) k then 1 else 0 := by
  simp only [restoreWarp, spGet_spNonzero_map _ hk, frameNat]
  rfl

theorem restoreWarp_fpctl : (restoreWarp w bs).fpctl = BitVec.ofNat 32 (frameNat bs 0x1C 4) &&& 0x3F3F := rfl

end

/-! ### Reading back what was saved -/

section
variable {s : State} {t : Task} {a : FrameArgs} {bs : List Byte} (hbs : bs = frameBytes s t a)
include hbs

theorem restored_g {k : Nat} (hk : k < 128) :
    spGet (restoreWarp t.warp bs).g k = spGet t.warp.g k := by
  rw [restoreWarp_g _ _ hk, hbs, frameNat_g s t a hk, BitVec.ofNat_toNat, BitVec.setWidth_eq]

theorem restored_v {k : Nat} (hk : k < 32 * t.warp.count) (hlane : k % 32 < t.warp.width) :
    spGet (restoreWarp t.warp bs).v k = spGet t.warp.v k := by
  rw [restoreWarp_v _ _ hk, if_pos hlane, hbs, frameNat_v s t a hk, BitVec.ofNat_toNat, BitVec.setWidth_eq]

theorem restored_x (hfits : t.warp.fits) {k : Nat} (hk : k < 256) (hlane : k % 32 < t.warp.width) :
    spGet (restoreWarp t.warp bs).x k = spGet t.warp.x k := by
  rw [restoreWarp_x _ _ hk, if_pos hlane, hbs, frameNat_x s t a hk, BitVec.ofNat_toNat, BitVec.setWidth_eq]
  apply BitVec.eq_of_toNat_eq
  rw [BitVec.toNat_and]
  exact (Nat.and_two_pow_sub_one_eq_mod _ 30).trans (Nat.mod_eq_of_lt (hfits.x _))

theorem restored_p (hfits : t.warp.fits) {k : Nat} (hk : k < 224) (hlane : k % 32 < t.warp.width) :
    spGet (restoreWarp t.warp bs).p k = spGet t.warp.p k := by
  have hmod : k % 32 < 32 := Nat.mod_lt _ (by decide)
  rw [restoreWarp_p _ _ hk, hbs, frameNat_preds s t a (by omega), predMask_eq_bitsWhere, natBit_bitsWhere, decide_eq_true hlane,
    decide_eq_true hmod, Bool.true_and, Bool.true_and, Nat.div_add_mod]
  exact eq_of_oneBit (hfits.p k)

theorem restored_q (hfits : t.warp.fits) {k : Nat} (hk : k < 7) :
    spGet (restoreWarp t.warp bs).q k = spGet t.warp.q k := by
  rw [restoreWarp_q _ _ hk, hbs, frameNat_head s t a (by decide), (frameHead_masks t a).1, natBit_bitsWhere, decide_eq_true hk,
    Bool.true_and]
  exact eq_of_oneBit (hfits.q k)

theorem restored_fpctl : (restoreWarp t.warp bs).fpctl = t.warp.fpctl &&& 0x3F3F := by
  obtain ⟨-, -, -, -, -, -, -, -, hfpctl, -⟩ := frameHead_fields t a
  rw [restoreWarp_fpctl, hbs, frameNat_head s t a (by decide), hfpctl, BitVec.ofNat_toNat, BitVec.setWidth_eq]

end

/-- Settles O48: the frame is a row of numbers and register files, each read at the sum of the lengths before it. -/
theorem framesSaveAndRestore : Obligations.FramesSaveAndRestore := by
  intro s t a bs hfits hbs
  have hhead (off n : Nat) (h : off + n ≤ 0x40) : frameNat bs off n = frameNat (frameHead t a) off n := by
    rw [hbs, frameNat_head s t a h]
  have hmid (off n : Nat) (h : off + n ≤ 0x20) : frameNat bs (0x5C + off) n = frameNat (frameMid s t a) off n := by
    rw [hbs, frameNat_mid s t a h]
  have hlength : bs.length = 0x700 + 128 * t.warp.count := by rw [hbs, frameBytes_length]
  obtain ⟨hcause, hkind, hflags, hident, hlanes, hpc, hfaddr, hkey, hfpctl, hlive, hactive, hmap⟩ := frameHead_fields t a
  obtain ⟨hqmask, hbars⟩ := frameHead_masks t a
  obtain ⟨hsize, hissue, hfut, hopref, hcore, htime, hcode⟩ := frameMid_fields s t a hfits
  obtain ⟨hcount, -⟩ := hfits.count
  have hwidth := hfits.width
  have hsize' := (hmid 0 4 (by decide)).trans hsize
  refine ⟨hlength, (hhead 0 1 (by decide)).trans hcause, (hhead 1 1 (by decide)).trans hkind,
    (hhead 2 2 (by decide)).trans hflags, (hhead 4 4 (by decide)).trans hident, (hhead 8 4 (by decide)).trans hlanes,
    (hhead 0x0C 4 (by decide)).trans hpc, (hhead 0x10 8 (by decide)).trans hfaddr, (hhead 0x18 4 (by decide)).trans hkey,
    (hhead 0x1C 4 (by decide)).trans hfpctl, (hhead 0x20 4 (by decide)).trans hlive,
    (hhead 0x24 4 (by decide)).trans hactive, (hhead 0x28 16 (by decide)).trans hmap, fun n _ => ?qmask, fun n hn => ?bars,
    fun n hn l hl => ?pmask, ?width, ?count, (hmid 4 4 (by decide)).trans hissue, (hmid 8 4 (by decide)).trans hfut,
    (hmid 0x0C 4 (by decide)).trans hopref, (hmid 0x10 4 (by decide)).trans hcore, (hmid 0x14 8 (by decide)).trans htime,
    (hmid 0x1C 4 (by decide)).trans hcode, fun i hi => ?reserved, fun k hk => ?g,
    fun n hn l hl => ?x, fun n hn l hl => ?v, fun w hw => ?back⟩
  case qmask => rw [(hhead 0x38 4 (by decide)).trans hqmask, natBit_bitsWhere]
  case bars => rw [(hhead 0x3C 4 (by decide)).trans hbars, natBits_packBars _ hn]
  case pmask =>
    rw [hbs, frameNat_preds s t a hn, predMask_eq_bitsWhere, natBit_bitsWhere, decide_eq_true hl, Bool.true_and]
  case reserved => rw [hbs, frameBytes_reserved s t a hi]
  case g => rw [hbs, frameNat_g s t a hk]
  case width => rw [hsize']; simp only [natBits]; omega
  case count => rw [hsize']; simp only [natBits]; omega
  case x => rw [Nat.add_assoc, show 128 * n + 4 * l = 4 * (32 * n + l) by omega, hbs, frameNat_x s t a (by omega)]
  case v => rw [Nat.add_assoc, show 128 * n + 4 * l = 4 * (32 * n + l) by omega, hbs, frameNat_v s t a (by omega)]
  case back =>
    subst hw
    have hlane (n l : Nat) (hl : l < t.warp.width) : (32 * n + l) % 32 < t.warp.width := by omega
    exact ⟨fun k hk => restored_g hbs hk, fun n hn l hl => restored_v hbs (by omega) (hlane n l hl),
      fun n hn l hl => restored_x hbs hfits (by omega) (hlane n l hl),
      fun n hn l hl => restored_p hbs hfits (by omega) (hlane n l hl),
      fun n hn => restored_q hbs hfits hn, restored_fpctl hbs, canon_restoreWarp .., rfl, rfl, rfl⟩

end Sys2Proof.Machine
end


section
/-! Proofs. O47: what taking a trap saves, and the trap task it enters (16_system R365, R367, R368). -/

namespace Sys2Proof.Machine

/-! ### What the place and the bytes of a frame leave -/

theorem savePlace_besideMemory (s : State) (j : Job) (core n : Nat) :
    (s.savePlace j core n).2.tasks = s.tasks ∧ (s.savePlace j core n).2.cregs = s.cregs := by
  unfold State.savePlace
  dsimp only
  split
  · exact ⟨rfl, rfl⟩
  · unfold State.pick
    split <;> exact ⟨rfl, rfl⟩

theorem besideMemory_vwrite {s s' : State} {core ctx va : Nat} {bs : List Byte} {nd : Need}
    (h : s.vwrite core ctx va bs nd = .ok s') : s'.besideMemory = s.besideMemory := by
  have hpieces (l : List (Nat × Nat)) : ∀ acc : State × List Byte,
      (l.foldl (fun (acc : State × List Byte) (p : Nat × Nat) =>
        match acc.1.xlate core ctx p.1 nd with
        | .ok pa => ((acc.1.touch core ctx p.1).perform none pa (acc.2.take p.2), acc.2.drop p.2)
        | .error _ => acc) acc).1.besideMemory = acc.1.besideMemory := by
    induction l with
    | nil => intro acc; rfl
    | cons p l ih =>
      intro acc
      rw [List.foldl_cons, ih]
      split
      · rw [besideMemory_perform, State.touch, besideMemory_touchFrom]
      · rfl
  unfold State.vwrite at h
  split at h
  · cases h
  · cases h
    exact hpieces _ _

theorem landAll_cregs (s : State) (u : Nat) : (s.landAll u).cregs = s.cregs := by
  have hbars (l : List Return) : ∀ s : State, (l.foldl (fun s r => match r.bar with
      | some b => s.dropBar u b
      | none => s) s).cregs = s.cregs := by
    induction l with
    | nil => intro s; rfl
    | cons r l ih =>
      intro s
      rw [List.foldl_cons, ih]
      split
      · exact State.modWarp_cregs s u _
      · rfl
  unfold State.landAll
  split
  · rfl
  · dsimp only
    split
    · exact (hbars _ _).trans (State.modWarp_cregs s u _)
    · exact (State.modCore_cregs ..).trans ((hbars _ _).trans (State.modWarp_cregs s u _))

theorem unpark_unparked {s : State} {u : Nat} {t : Task} (ht : s.task? u = some t) (hpark : t.park = none) :
    s.unpark u = s := by
  simp only [State.unpark, ht, hpark]

/-! ### The trap task's closure line (R62, R161) -/

/-- The first word of a trap task's line: its entry in bits 25 to 0, a width of 32 lanes, and no landing mark. -/
theorem trapHead_fields {n : Nat} (hn : n < 2 ^ 26) {x : Nat} (hx : x = (BitVec.ofNat 32 (n + 2 ^ 27 + 2 ^ 28)).toNat) :
    natBits x 0 26 = n ∧ natBits x 26 2 = 2 ∧ natBit x 28 = true := by
  rw [BitVec.toNat_ofNat, Nat.mod_eq_of_lt (by omega)] at hx
  have hbit : x / 2 ^ 28 % 2 = 1 := by omega
  exact ⟨by simp only [natBits]; omega, by simp only [natBits]; omega, by rw [natBit, hbit]; rfl⟩

/-- The two halves of a frame's address. -/
theorem address_halves (n : Nat) : (BitVec.ofNat 32 n).toNat + 2 ^ 32 * (BitVec.ofNat 32 (n / 2 ^ 32)).toNat = n % 2 ^ 64 := by
  simp only [BitVec.toNat_ofNat]
  omega

theorem causeWord_toNat (c : Cause) : (BitVec.ofNat 32 c.code).toNat = c.code := by
  cases c with
  | arith i => have := i.isLt; simp only [Cause.code, BitVec.toNat_ofNat]; omega
  | _ => rfl

theorem kindWord_toNat (k : Kind) : (BitVec.ofNat 32 k.code).toNat = k.code := by cases k <;> rfl

/-- The last step of a trap: its task is put back, and the trap task comes to the end of the tasks (R367). -/
def State.enterTrap (s : State) (t : Task) (j : Job) (frame : Nat) (c : Cause) (k : Kind) (lanes : BitVec 32) : State :=
  let s := s.setTask t
  let (cu, s) := s.fresh
  let (tu, s) := s.fresh
  let (ident, s) := s.newIdent t.core
  let tt := trapTask tu ident t cu j frame c k lanes s.clk
  { s with cohorts := s.cohorts ++ [Cohort.mk cu cu 1 0 0 [tu]], tasks := s.tasks ++ [tt] }

theorem newIdent_stored (s : State) (core : Nat) :
    (s.newIdent core).2.stored = s.stored ∧ (s.newIdent core).2.tasks = s.tasks := by
  unfold State.newIdent State.pick
  cases s.picks <;> dsimp only <;> split <;> exact ⟨rfl, rfl⟩

theorem memByte_enterTrap (s : State) (t : Task) (j : Job) (frame : Nat) (c : Cause) (k : Kind) (lanes : BitVec 32) (a : Nat) :
    (s.enterTrap t j frame c k lanes).memByte a = s.memByte a :=
  memByte_of_stored (newIdent_stored _ _).1 a

theorem enterTrap_tasks (s : State) (t : Task) (j : Job) (frame : Nat) (c : Cause) (k : Kind) (lanes : BitVec 32) :
    ∃ tu ident cu clk, (s.enterTrap t j frame c k lanes).tasks =
      (s.setTask t).tasks ++ [trapTask tu ident t cu j frame c k lanes clk] :=
  ⟨_, _, _, _, congrArg (· ++ _) (newIdent_stored _ _).2⟩

theorem findTask_append {l l' : List Task} {u : Nat} {t : Task} (h : findTask l u = some t) :
    findTask (l ++ l') u = some t := by
  induction l with
  | nil => cases h
  | cons x l ih =>
    simp only [List.cons_append, findTask] at h ⊢
    split
    · next hx => simpa [hx] using h
    · next hx => exact ih (by simpa [hx] using h)

/-- A task that takes a trap, saved into its frame. -/
def Task.trapped (x : Task) (stop : Stop) (frame : Nat) : Task :=
  { x with st := .parked, slot := none, saved := true, inPool := false, saveAt := some (frame, saveBytes x.warp.count)
           stop := some stop, stepping := false }

/-- The stop that a cause leaves with a task, in its frame. -/
def trapStop (r : Raise) (kind : Kind) (frame : Nat) (t : Task) (pair : Bool) : Stop :=
  ⟨r.cause, kind, some frame, saveBytes t.warp.count, none, pair, false, false, false, 0, []⟩

section
variable {s s1 s2 : State} {u : Nat} {r : Raise} {kind : Kind} {pc : BitVec 32} {pair opaddr : Bool} {code : Nat} {t : Task}
  {j : Job} {frame : Nat}

theorem takeTrap_enterTrap (ht : (s.landAll u).task? u = some t) (hst : t.st = .running) (hpark : t.park = none)
    (hsave : t.saveAt = none) (htrap : t.trapOf = none) (hj : (s.landAll u).job? t.job = some j)
    (hdbg : field (s.landAll u).cregs.dbgCtl 0 32 = 0) (hlatch : r.latch = none)
    (hplace : (s.landAll u).savePlace j t.core (saveBytes t.warp.count) = (some frame, s1))
    (hwrite : s1.vwrite t.core j.rec_.ctx frame (frameBytes s1 (stoppedBy t r pc) (stopFrame r kind pc pair opaddr code))
      needRW = .ok s2) :
    s.takeTrap u r kind pc (pair := pair) (opaddr := opaddr) (code := code) =
      s2.enterTrap ((stoppedBy t r pc).trapped (trapStop r kind frame t pair) frame) j frame r.cause kind r.lanes := by
  have hunpark : (if kind = .posted then s.landAll u else (s.landAll u).unpark u) = s.landAll u := by
    rw [unpark_unparked ht hpark]; exact ite_self _
  have hcregs : s2.cregs = (s.landAll u).cregs := by
    have hbeside := besideMemory_vwrite hwrite
    have hpick := (savePlace_besideMemory (s.landAll u) j t.core (saveBytes t.warp.count)).2
    rw [hplace] at hpick
    exact (congrArg State.cregs hbeside).trans hpick
  have hrouted (x : Task) (c : Cause) : s2.routed x c = false := by
    simp [State.routed, hcregs, hdbg]
  cases t
  subst hst hpark hsave htrap
  unfold stoppedBy stopFrame at hwrite
  dsimp only at hj hplace hwrite
  unfold State.takeTrap
  simp only [hunpark, ht, hj, hlatch, hplace, hwrite, Option.isSome_none, Bool.false_eq_true, if_false, hrouted]
  rfl

end

/-- What R367 lists of a trap task's closure line. -/
theorem trapTask_line (tu cu clk frame : Nat) (ident : BitVec 32) (x : Task) (j : Job) (c : Cause) (k : Kind) (lanes : BitVec 32)
    (hentry : j.rec_.trapEntry < 2 ^ 26) {l : Line} (hl : l = (trapTask tu ident x cu j frame c k lanes clk).line) :
    clEntry l = 64 * j.rec_.trapEntry ∧ clWidth l = 32 ∧ clCount l = 4 ∧ clRegions l = 0 ∧
    natBit (lineWord l 0) 28 = true ∧ clKey l = clKey x.line ∧ clSize l = 1 ∧
    lineWord l 5 + 2 ^ 32 * lineWord l 6 = frame % 2 ^ 64 ∧ lineWord l 7 = c.code ∧ lineWord l 8 = k.code ∧
    lineWord l 9 = x.ident.toNat ∧ ∀ i, 10 ≤ i → lineWord l i = 0 := by
  subst hl
  obtain ⟨hlow, hwidth, hbit⟩ := trapHead_fields hentry (x := lineWord (trapTask tu ident x cu j frame c k lanes clk).line 0) rfl
  have hwords : lineWord (trapTask tu ident x cu j frame c k lanes clk).line 3 = 0 ∧
      lineWord (trapTask tu ident x cu j frame c k lanes clk).line 4 = 0x10 := ⟨rfl, rfl⟩
  obtain ⟨hword3, hword4⟩ := hwords
  refine ⟨by rw [clEntry, hlow], by rw [clWidth, hwidth]; rfl,
    by rw [clCount, hword4]; rfl, by rw [clRegions, hword3, hword4]; rfl, hbit, rfl, by rw [clSize, hword4]; rfl, address_halves frame, causeWord_toNat c,
    kindWord_toNat k, rfl, fun i hi => ?_⟩
  obtain ⟨n, rfl⟩ := Nat.exists_eq_add_of_le hi
  rw [Nat.add_comm]
  have hzero : (List.replicate 6 (0 : BitVec 32))[n]?.getD 0 = 0 := by
    rw [List.getElem?_replicate]; split <;> rfl
  simp only [trapTask, mkTask, lineWord, List.cons_append, List.nil_append, List.getElem?_cons_succ, hzero]
  rfl

/-- Settles O47: the trap ends in `enterTrap`, which changes no byte, puts the task back and appends the trap task. -/
theorem trapsSaveAndEnter : Obligations.TrapsSaveAndEnter := by
  intro s u r kind pc pair opaddr code s0 s1 s2 t x j frame hs0 ht hst hpark hsave htrap hstep hj hentry hdbg hlatch hplace hx
    hwrite s' hs'
  subst hs0 hx
  have hcregs := landAll_cregs s u
  have henter := takeTrap_enterTrap ht hst hpark hsave htrap hj (hcregs.symm ▸ hdbg) hlatch hplace hwrite
  have huid := task?_uid ht
  have htasks : s2.tasks = (s.landAll u).tasks := by
    have hpick := (savePlace_besideMemory (s.landAll u) j t.core (saveBytes t.warp.count)).1
    rw [hplace] at hpick
    exact (congrArg State.tasks (besideMemory_vwrite hwrite)).trans hpick
  have ht2 : s2.task? t.uid = some t := by rw [State.task?, htasks, huid]; exact ht
  rw [henter] at hs'
  obtain ⟨tu, ident, cu, clk, hlist⟩ := enterTrap_tasks s2 ((stoppedBy t r pc).trapped (trapStop r kind frame t pair) frame) j frame r.cause kind r.lanes
  rw [← hs'] at hlist
  refine ⟨fun a => hs' ▸ memByte_enterTrap .., ⟨trapStop r kind frame t pair, ?_, rfl, rfl, rfl, rfl, rfl⟩, _, hlist ▸ List.getLast?_concat, ?_⟩
  · rw [State.task?, hlist]
    have hput := (task?_setTask (t := (stoppedBy t r pc).trapped (trapStop r kind frame t pair) frame) u ht2).trans
      (if_pos huid.symm)
    rw [findTask_append hput, Task.trapped, ← hstep]
    rfl
  · obtain ⟨h0, h1, h2, h3, h4, h5, h6, h7, h8, h9, h10, h11⟩ :=
      trapTask_line tu cu clk frame ident ((stoppedBy t r pc).trapped (trapStop r kind frame t pair) frame) j r.cause kind r.lanes hentry rfl
    exact ⟨congrArg some huid, rfl, rfl, rfl, h0, h1, h2, h3, rfl, rfl, h4, h5, h6, h7, h8, h9, h10, h11, causeWord_toNat _, rfl,
      rfl⟩

end Sys2Proof.Machine
end


section
/-! Proofs. What memory, translations and code say does not hang on the tasks (16_system R369, 17_memsys R398 to R405). -/

namespace Sys2Proof.Machine

/-- A state with other tasks. -/
def State.withTasks (s : State) (ts : List Task) : State := { s with tasks := ts }

theorem setTask_eq_withTasks (s : State) (t : Task) : s.setTask t = s.withTasks (putTask s.tasks t) := rfl

section
variable (s : State) (ts : List Task)

@[simp] theorem withTasks_msc : (s.withTasks ts).msc = s.msc := rfl
@[simp] theorem withTasks_mregs : (s.withTasks ts).mregs = s.mregs := rfl
@[simp] theorem withTasks_openBytes : (s.withTasks ts).openBytes = s.openBytes := rfl
@[simp] theorem withTasks_ctxs : (s.withTasks ts).ctxs = s.ctxs := rfl
@[simp] theorem withTasks_watches : (s.withTasks ts).watches = s.watches := rfl
@[simp] theorem withTasks_hist : (s.withTasks ts).hist = s.hist := rfl
@[simp] theorem withTasks_tick : (s.withTasks ts).tick = s.tick := rfl
@[simp] theorem withTasks_memTop : (s.withTasks ts).memTop = s.memTop := rfl
@[simp] theorem withTasks_part : (s.withTasks ts).part = s.part := rfl
@[simp] theorem core_withTasks (c : Nat) : (s.withTasks ts).core c = s.core c := rfl
@[simp] theorem memByte_withTasks (pa : Nat) : (s.withTasks ts).memByte pa = s.memByte pa := rfl
@[simp] theorem byteAt_withTasks (m pa : Nat) : (s.withTasks ts).byteAt m pa = s.byteAt m pa := rfl
@[simp] theorem meetsProt_withTasks (pa n : Nat) : (s.withTasks ts).meetsProt pa n = s.meetsProt pa n := rfl
@[simp] theorem permits_withTasks (n : Need) (e : TlbEnt) (pa : Nat) : (s.withTasks ts).permits n e pa = s.permits n e pa := rfl
@[simp] theorem cachedLeaf_withTasks (core ctx va : Nat) :
    (s.withTasks ts).cachedLeaf core ctx va = s.cachedLeaf core ctx va := rfl
@[simp] theorem protOf_withTasks (pa : Nat) : (s.withTasks ts).protOf pa = s.protOf pa := rfl
@[simp] theorem protRange_withTasks : (s.withTasks ts).protRange = s.protRange := rfl
@[simp] theorem stackOf_withTasks (pa : Nat) : (s.withTasks ts).stackOf pa = s.stackOf pa := rfl
@[simp] theorem placeOf_withTasks (pa : Nat) : (s.withTasks ts).placeOf pa = s.placeOf pa := rfl

@[simp] theorem memBytes_withTasks (pa n : Nat) : (s.withTasks ts).memBytes pa n = s.memBytes pa n := by
  induction n generalizing pa with
  | zero => rfl
  | succ n ih => exact congrArg (s.memByte pa :: ·) (ih (pa + 1))

@[simp] theorem devBytes_withTasks (pa n : Nat) : (s.withTasks ts).devBytes pa n = s.devBytes pa n := by
  induction n generalizing pa with
  | zero => rfl
  | succ n ih => exact congrArg (s.devByte pa :: ·) (ih (pa + 1))

@[simp] theorem memNat_withTasks (pa n : Nat) : (s.withTasks ts).memNat pa n = s.memNat pa n :=
  congrArg natOf (memBytes_withTasks s ts pa n)

@[simp] theorem entryAt_withTasks (pa : Nat) : (s.withTasks ts).entryAt pa = s.entryAt pa :=
  congrArg natOf (devBytes_withTasks s ts pa 8)

/-! ### Writes keep the tasks they find -/

theorem foldl_withTasks {α : Type} {f : State → α → State} (hf : ∀ (s : State) a, f (s.withTasks ts) a = (f s a).withTasks ts)
    (l : List α) : l.foldl f (s.withTasks ts) = (l.foldl f s).withTasks ts := by
  induction l generalizing s with
  | nil => rfl
  | cons a l ih => rw [List.foldl_cons, hf, ih, List.foldl_cons]

@[simp] theorem countWrite_withTasks (line : Nat) : (s.withTasks ts).countWrite line = (s.countWrite line).withTasks ts := by
  unfold State.countWrite
  rw [withTasks_mregs, protOf_withTasks, protRange_withTasks]
  split
  · rfl
  · cases (s.protOf (64 * line)).bind s.protRange with
    | none => rfl
    | some r => dsimp only; split <;> rfl

@[simp] theorem mscEvict_withTasks (line : Nat) : (s.withTasks ts).mscEvict line = (s.mscEvict line).withTasks ts := by
  unfold State.mscEvict
  rw [withTasks_msc]
  cases findMsc s.msc line with
  | none => rfl
  | some e =>
    dsimp only
    rw [← countWrite_withTasks]
    split <;> rfl

@[simp] theorem mscRoom_withTasks (line : Nat) : (s.withTasks ts).mscRoom line = (s.mscRoom line).withTasks ts := by
  cases hmine : s.msc.filter fun e => s.stackOf (64 * e.line) == s.stackOf (64 * line) with
  | nil => simp only [State.mscRoom, withTasks_msc, stackOf_withTasks, hmine]
  | cons e l =>
    simp only [State.mscRoom, withTasks_msc, stackOf_withTasks, hmine]
    split
    · exact mscEvict_withTasks s ts _
    · rfl

@[simp] theorem memPutByte_withTasks (pa : Nat) (b : Byte) :
    (s.withTasks ts).memPutByte pa b = (s.memPutByte pa b).withTasks ts := by
  unfold State.memPutByte
  rw [withTasks_msc, mscRoom_withTasks]
  cases findMsc s.msc (pa / 64) with
  | none => rfl
  | some e => dsimp only; split <;> rfl

@[simp] theorem memPutEach_withTasks (pa : Nat) (bs : List Byte) :
    (s.withTasks ts).memPutEach pa bs = (s.memPutEach pa bs).withTasks ts := by
  induction bs generalizing s pa with
  | nil => rfl
  | cons b bs ih => rw [State.memPutEach, memPutByte_withTasks, ih, State.memPutEach]

@[simp] theorem thaw_withTasks (pa n : Nat) : (s.withTasks ts).thaw pa n = (s.thaw pa n).withTasks ts := by
  unfold State.thaw
  rw [withTasks_openBytes]
  split <;> rfl

@[simp] theorem remember_withTasks (pa n : Nat) : (s.withTasks ts).remember pa n = (s.remember pa n).withTasks ts := by
  unfold State.remember
  rw [memBytes_withTasks]
  split <;> rfl

@[simp] theorem markImages_withTasks (pa n : Nat) : (s.withTasks ts).markImages pa n = (s.markImages pa n).withTasks ts := by
  unfold State.markImages
  rw [withTasks_ctxs]
  split <;> rfl

@[simp] theorem hitWatches_withTasks (pa n : Nat) : (s.withTasks ts).hitWatches pa n = (s.hitWatches pa n).withTasks ts := by
  unfold State.hitWatches
  rw [withTasks_watches]
  split <;> rfl

@[simp] theorem memPut_withTasks (pa : Nat) (bs : List Byte) :
    (s.withTasks ts).memPut pa bs = (s.memPut pa bs).withTasks ts := by
  simp only [State.memPut, State.memPutRaw, thaw_withTasks, remember_withTasks, memPutEach_withTasks, markImages_withTasks]

@[simp] theorem performHbm_withTasks (core : Option Nat) (pa : Nat) (bs : List Byte) :
    (s.withTasks ts).performHbm core pa bs = (s.performHbm core pa bs).withTasks ts := by
  unfold State.performHbm
  rw [memPut_withTasks]
  dsimp only
  rw [← hitWatches_withTasks]
  cases core <;> rfl

@[simp] theorem perform_withTasks (core : Option Nat) (pa : Nat) (bs : List Byte) :
    (s.withTasks ts).perform core pa bs = (s.perform core pa bs).withTasks ts := by
  unfold State.perform
  rw [placeOf_withTasks]
  cases s.placeOf pa with
  | hbm => exact performHbm_withTasks s ts core pa bs
  | _ => rfl

@[simp] theorem rememberBlock_withTasks (lo hi : Nat) (zeroed : Bool) :
    (s.withTasks ts).rememberBlock lo hi zeroed = (s.rememberBlock lo hi zeroed).withTasks ts := by
  unfold State.rememberBlock
  rw [withTasks_msc, foldl_withTasks s ts fun s e => mscEvict_withTasks s ts e.line]
  rfl

/-! ### Translations (R399 to R405) -/

@[simp] theorem zeroPages_withTasks (lo hi : Nat) : (s.withTasks ts).zeroPages lo hi = (s.zeroPages lo hi).withTasks ts := by
  unfold State.zeroPages
  dsimp only
  rw [rememberBlock_withTasks, meetsProt_withTasks, ← hitWatches_withTasks, foldl_withTasks _ ts fun s l => countWrite_withTasks s ts l]
  split <;> rfl

@[simp] theorem zfuClaim_withTasks (f : Found) : (s.withTasks ts).zfuClaim f = (s.zfuClaim f).withTasks ts := by
  unfold State.zfuClaim
  simp only [memNat_withTasks, zeroPages_withTasks, perform_withTasks]
  rw [apply_ite (State.withTasks · ts)]

@[simp] theorem walkFrom_withTasks (ctx va fuel level table : Nat) :
    (s.withTasks ts).walkFrom ctx va fuel level table = s.walkFrom ctx va fuel level table := by
  induction fuel generalizing level table with
  | zero => rfl
  | succ fuel ih =>
    rw [State.walkFrom, State.walkFrom]
    simp only [entryAt_withTasks, withTasks_memTop, withTasks_part, ih]

@[simp] theorem foundLeaf_withTasks (core ctx va : Nat) :
    (s.withTasks ts).foundLeaf core ctx va = s.foundLeaf core ctx va := by
  simp only [State.foundLeaf, withTasks_mregs, cachedLeaf_withTasks, walkFrom_withTasks]

@[simp] theorem leafOf_withTasks (core ctx va : Nat) : (s.withTasks ts).leafOf core ctx va = s.leafOf core ctx va := by
  simp only [State.leafOf, foundLeaf_withTasks, zfuClaim_withTasks]

@[simp] theorem xlate_withTasks (core ctx va : Nat) (n : Need) :
    (s.withTasks ts).xlate core ctx va n = s.xlate core ctx va n := by
  simp only [State.xlate, leafOf_withTasks, permits_withTasks] <;> rfl

/-! ### Code (R25) -/

@[simp] theorem codeUnit_withTasks (core : Nat) (j : Job) (pa : Nat) :
    (s.withTasks ts).codeUnit core j pa = s.codeUnit core j pa := by
  simp only [State.codeUnit, core_withTasks, withTasks_hist, withTasks_tick, devBytes_withTasks, byteAt_withTasks]

@[simp] theorem bundleAt_withTasks (core : Nat) (j : Job) (off : Nat) :
    (s.withTasks ts).bundleAt core j off = s.bundleAt core j off := by
  simp only [State.bundleAt, xlate_withTasks, leafOf_withTasks, codeUnit_withTasks]

end

end Sys2Proof.Machine
end


section
/-! Proofs. O49: TRAP, BKPT, TRET and TKILL, and how a stopped task goes on (16_system R369, R370, R387). -/

namespace Sys2Proof.Machine

/-! ### The trap task's end (R369) -/

section
variable {h : Hdr} {s : State} {t : Task} (hA : Acts s h t []) (hopen : t.opened = none)
include hA hopen

/-- An instruction that ends a trap task answers what its decision leaves of the stopped task. -/
theorem issue_trapEnd {f : State → Nat → State} {u : Nat} (hrel : s.released t = true) (htrap : t.trapOf = some u) :
    issue h s (fun _ _ => []) (fun s t _ => trapEnd f s t) =
      .next (f ((s.endTask t.uid).modTask u fun x => { x with trapPos := t.logPos }) u) :=
  issue_done hA (by simp [trapEnd, hopen, hrel, htrap])

/-- It is held until the trap task's accesses have performed (R260). -/
theorem issue_trapEnd_held {f : State → Nat → State} (hrel : s.released t = false) :
    issue h s (fun _ _ => []) (fun s t _ => trapEnd f s t) = .next s :=
  issue_hold hA (by simp [trapEnd, hopen, hrel])

end

/-! ### A stopped task goes on (R369) -/

theorem putWrites_pc (w : Warp) (l : List RegWrite) : (putWrites w l).pc = w.pc := by
  obtain ⟨v, g, x, p, q, hw⟩ := putWrites_keeps w l
  rw [hw]

/-- The warp that a stopped task goes on with, for a number of registers. -/
def restoredBy (w0 : Warp) (n : Nat) (bs : List Byte) (flags : BitVec 32) : Warp :=
  let w := { restoreWarp { w0 with count := n } bs with count := w0.count }
  { w with fpctl := w.fpctl ||| flags }

theorem restoredBy_pc (w : Warp) (n : Nat) (bs : List Byte) (flags : BitVec 32) : (restoredBy w n bs flags).pc = w.pc := rfl

theorem restored_eq (t : Task) (x : Stop) (bs : List Byte) :
    restored t x bs = putWrites (restoredBy t.warp x.count bs x.flags) x.writes := by
  unfold restored restoredBy
  dsimp only

theorem restored_pc (t : Task) (x : Stop) (bs : List Byte) : (restored t x bs).pc = t.warp.pc := by
  rw [restored_eq, putWrites_pc, restoredBy_pc]

section
variable {s : State} {u f : Nat} {t : Task} {x : Stop} {j : Job} {bs : List Byte}

/-- `restoreFrame` with the read of a frame, and the number of its registers, left open: no proof about what a task goes on
with need work these out. -/
def State.restoreFrameBy (read : State → Nat → Nat → Nat → Nat → Need → Except (Nat × XErr) (List Byte)) (count : Stop → Nat)
    (s : State) (u : Nat) : State :=
  match s.task? u with
  | none => s
  | some t =>
    match t.stop, s.job? t.job with
    | some x, some j =>
      (match x.frame with
       | none => s
       | some f =>
         match read s t.core j.rec_.ctx f (0x700 + 128 * count x) needRW with
         | .error (va, e) => (s.latchXlat t.core 3 j.rec_.ctx va e).killJob t.job e.cause
         | .ok bs =>
           let w := { restoreWarp { t.warp with count := count x } bs with count := t.warp.count }
           s.setTask { t with warp := putWrites { w with fpctl := w.fpctl ||| x.flags } x.writes })
    | _, _ => s

theorem restoreFrame_eq (s : State) (u : Nat) : s.restoreFrame u = s.restoreFrameBy State.vread Stop.count u := rfl

theorem restoreFrameBy_read {read count} (ht : s.task? u = some t) (hx : t.stop = some x) (hf : x.frame = some f)
    (hj : s.job? t.job = some j) (hread : read s t.core j.rec_.ctx f (0x700 + 128 * count x) needRW = .ok bs) :
    s.restoreFrameBy read count u =
      s.setTask { t with warp := putWrites (restoredBy t.warp (count x) bs x.flags) x.writes } := by
  simp only [State.restoreFrameBy, ht, hx, hj, hf, hread]
  rfl

theorem restoreFrame_read (ht : s.task? u = some t) (hx : t.stop = some x) (hf : x.frame = some f)
    (hj : s.job? t.job = some j) (hread : s.vread t.core j.rec_.ctx f (0x700 + 128 * x.count) needRW = .ok bs) :
    s.restoreFrame u = s.setTask { t with warp := restored t x bs } := by
  rw [restoreFrame_eq, restoreFrameBy_read ht hx hf hj hread, restored_eq]

/-- What follows a pc hangs on the task's job and core, which a restored warp leaves. -/
theorem afterPc_setTask (s : State) (y t t' : Task) (hjob : t'.job = t.job) (hcore : t'.core = t.core) (pc : BitVec 32)
    (pair : Bool) : (s.setTask y).afterPc t' pc pair = s.afterPc t pc pair := by
  have hvalid (off : Nat) : (s.setTask y).validAt t' off = s.validAt t off := by
    simp only [State.validAt, hjob, hcore, setTask_eq_withTasks, bundleAt_withTasks]
    rfl
  have hcomes (fuel : Nat) (pc : BitVec 32) : State.comesTo (s.setTask y) t' fuel pc = State.comesTo s t fuel pc := by
    induction fuel generalizing pc with
    | zero => rfl
    | succ fuel ih => simp only [State.comesTo, hvalid, ih]
  simp only [State.afterPc, hcomes, hvalid]

/-- The pc at which a stopped task goes on: a skip of a precise cause leaves the instruction out. -/
def State.resumePc (s : State) (m : Resume) (t : Task) (x : Stop) : BitVec 32 :=
  if m == .skip && x.kind == .precise then s.afterPc t t.warp.pc x.pair else t.warp.pc

theorem returnFrom_eq {m : Resume} (hm : m ≠ .escalate) {t' : Task} {s' : State} (ht : s.task? u = some t) (hx : t.stop = some x)
    (hop : x.op = none) (hbudget : x.budget = false) (hframe : s.restoreFrame u = s') (ht' : s'.task? u = some t')
    (hkill : t'.killedBy = none) : s.returnFrom u m = (s'.setTask { t' with
      warp := { t'.warp with pc := s'.resumePc m t' x }
      park := if m == .skip && x.kind == .precise then none else t'.park
      skipMatch := !(m == .skip) && x.kind == .precise }).release u := by
  cases m with
  | escalate => exact absurd rfl hm
  | resume | skip =>
    simp only [State.returnFrom, ht, hx, hframe, ht', hkill, hop, hbudget, State.opAnswer, State.resumePc]
    rfl

/-- A task PARKED with nothing to wait for, out of its slot, is RUNNABLE when it may run again. -/
theorem release_runnable {y : Task} (hy : s.task? u = some y) (hst : y.st = .parked) (hpark : y.park = none) (hslot : y.slot = none) :
    (s.release u).task? u = some { y with stop := none, runnableAt := s.clk, resumed := true, st := .runnable } := by
  refine (modTask_same _ hy ?_).trans ?_
  all_goals simp only [hst, hpark, hslot, reduceCtorEq, if_false, Option.isSome_none, Bool.false_eq_true]

/-- A stopped task goes on with its frame's registers, at the pc that its return gives. -/
theorem returnFrom_read {m : Resume} (hm : m ≠ .escalate) (ht : s.task? u = some t) (hx : t.stop = some x) (hop : x.op = none)
    (hbudget : x.budget = false) (hf : x.frame = some f) (hkill : t.killedBy = none) (hst : t.st = .parked)
    (hpark : t.park = none) (hslot : t.slot = none) (hj : s.job? t.job = some j)
    (hread : s.vread t.core j.rec_.ctx f (0x700 + 128 * x.count) needRW = .ok bs) :
    ∃ y, (s.returnFrom u m).task? u = some y ∧ y.stop = none ∧ y.st = .runnable ∧
      y.warp = { restored t x bs with pc := s.resumePc m t x } ∧
      y.skipMatch = (!(m == .skip) && x.kind == .precise) := by
  have huid := task?_uid ht
  have hframe := restoreFrame_read ht hx hf hj hread
  generalize hw : restored t x bs = w at hframe
  have hpc : w.pc = t.warp.pc := hw ▸ restored_pc t x bs
  have hback : (s.setTask { t with warp := w }).task? u = some { t with warp := w } :=
    (task?_setTask (t := { t with warp := w }) u (by rw [huid]; exact ht)).trans (if_pos huid.symm)
  rw [returnFrom_eq hm ht hx hop hbudget hframe hback hkill]
  have hgo := (task?_setTask (t := { t with
      warp := { w with pc := (s.setTask { t with warp := w }).resumePc m { t with warp := w } x }
      park := if m == .skip && x.kind == .precise then none else t.park
      skipMatch := !(m == .skip) && x.kind == .precise }) u (by rw [huid]; exact hback)).trans (if_pos huid.symm)
  refine ⟨_, release_runnable hgo hst (by simp [hpark]) hslot, rfl, rfl, ?_, rfl⟩
  simp only [State.resumePc, hpc, afterPc_setTask s { t with warp := w } t { t with warp := w } rfl rfl]

end

/-! ### The obligation -/

/-- Settles O49: TRET ends the trap task before it decides; a return goes on with the warp that the frame gives, a skip of
a precise cause behind its instruction. -/
theorem trapInstructionsAct : Obligations.TrapInstructionsAct := by
  refine ⟨fun h a s t hA => ⟨(exec_trap h a s).trans (issue_done hA rfl), (exec_bkpt h a s).trans (issue_done hA rfl)⟩,
    fun h s t u s1 hA hopen hrel htrap hs1 => ?ends, fun i h s t hA hopen hrel hi => ?held,
    fun s u f t x j bs ht hx hop hbudget hf hkill hst hpark hslot hj hread => ⟨?resume, ?skip⟩,
    fun s u t x ht hx hbudget => ?kill⟩
  case ends =>
    subst hs1
    rw [exec_tretResume, exec_tretSkip, exec_tretEscalate, exec_tkill]
    exact ⟨issue_trapEnd hA hopen hrel htrap, issue_trapEnd hA hopen hrel htrap, issue_trapEnd hA hopen hrel htrap,
      issue_trapEnd hA hopen hrel htrap⟩
  case held =>
    simp only [List.mem_cons, List.not_mem_nil, or_false] at hi
    obtain rfl | rfl | rfl | rfl := hi
    · exact (exec_tretResume h s).trans (issue_trapEnd_held hA hopen hrel)
    · exact (exec_tretSkip h s).trans (issue_trapEnd_held hA hopen hrel)
    · exact (exec_tretEscalate h s).trans (issue_trapEnd_held hA hopen hrel)
    · exact (exec_tkill h s).trans (issue_trapEnd_held hA hopen hrel)
  case resume =>
    obtain ⟨y, hy, hstop, hyst, hwarp, hmatch⟩ :=
      returnFrom_read (m := .resume) (by decide) ht hx hop hbudget hf hkill hst hpark hslot hj hread
    refine ⟨y, hy, hstop, hyst, hwarp.trans ?_, ?_⟩
    · rw [State.resumePc, ← restored_pc t x bs]
      rfl
    · rw [hmatch]; simp
  case skip =>
    obtain ⟨y, hy, hstop, hyst, hwarp, hmatch⟩ :=
      returnFrom_read (m := .skip) (by decide) ht hx hop hbudget hf hkill hst hpark hslot hj hread
    refine ⟨y, hy, hstop, hyst, hmatch, hwarp.trans ?_⟩
    simp [State.resumePc, State.skipPc]
  case kill => simp [State.killStopped, ht, hx, hbudget]

end Sys2Proof.Machine
end


section
/-! Proofs. O50: the system registers, TIME, DBGSIG, CTXSAVE and CTXLOAD (16_system R386 to R391). -/

namespace Sys2Proof.Machine

/-! ### SWR (R386, R388) -/

section
variable (s : State) (c : Nat) (v : BitVec 64)

theorem readSwr_writeSwr_device {x : Nat × BitVec 64}
    (hx : x ∈ [(0x010, bitsMask 0 8), (0x011, bitsMask 0 9), (0x030, bitsMask 0 32), (0x032, bitsMask 0 32),
      (0x038, bitsMask 0 16), (0x039, bitsMask 0 5), (0x03D, bitsMask 12 36), (0x050, bitsMask 0 32)]) :
    (s.writeSwr c x.1 v).readSwr c x.1 = v &&& x.2 := by
  simp only [List.mem_cons, List.not_mem_nil, or_false] at hx
  obtain rfl | rfl | rfl | rfl | rfl | rfl | rfl | rfl := hx
  all_goals rfl

/-- The image bases of the contexts. -/
theorem readSwr_writeSwr_imageBase (hwf : spWf s.cregs.imageBase = true) {n : Nat} (hn : 0x040 ≤ n ∧ n ≤ 0x04F) :
    (s.writeSwr c n v).readSwr c n = v &&& bitsMask 21 27 := by
  have hcore : perCore n = false := by simp [perCore]; omega
  have hother (k : Nat) (hk : k < 0x040) : n ≠ k := by omega
  simp [State.writeSwr, State.readSwr, hcore, State.writeDevReg, State.readDevReg, hother, hn, spGet_spSet _ _ _ hwf]

theorem readSwr_writeSwr_schedCheck : (s.writeSwr c 0x001 v).readSwr c 0x001 = v &&& 1 :=
  congrArg (·.regs.schedCheck) (core_modCore_same s c (·.writeSched v))

/-- The breakpoints of a core. -/
theorem readSwr_writeSwr_bp (hwf : spWf (s.core c).regs.bp = true) {n : Nat} (hn : 0x060 ≤ n ∧ n ≤ 0x067) :
    (s.writeSwr c n v).readSwr c n = v := by
  have hcore : perCore n = true := by simp [perCore]; omega
  have hother (k : Nat) (hk : k < 0x060) : n ≠ k := by omega
  have hhigh' : ¬ n ≤ 0x024 := by omega
  simp [State.writeSwr, State.readSwr, hcore, State.writeCoreReg, State.readCoreReg, hother, hhigh', hn, spGet_spSet _ _ _ hwf]

/-- The watchpoints of a core. -/
theorem readSwr_writeSwr_wp (hwf : spWf (s.core c).regs.wp = true) {n : Nat} (hn : 0x068 ≤ n ∧ n ≤ 0x06B) :
    (s.writeSwr c n v).readSwr c n = v &&& wpMask := by
  have hcore : perCore n = true := by simp [perCore]; omega
  have hother (k : Nat) (hk : k < 0x060) : n ≠ k := by omega
  have hhigh : ¬ n ≤ 0x067 := by omega
  have hhigh' : ¬ n ≤ 0x024 := by omega
  simp [State.writeSwr, State.readSwr, hcore, State.writeCoreReg, State.readCoreReg, hother, hhigh, hhigh', hn, spGet_spSet _ _ _ hwf]

end

/-- A plain register reads back its writable bits. -/
theorem readSwr_writeSwr (s : State) (c : Nat) (v : BitVec 64) (himg : spWf s.cregs.imageBase = true)
    (hbp : spWf (s.core c).regs.bp = true) (hwp : spWf (s.core c).regs.wp = true) :
    ∀ x ∈ plainRegs, (s.writeSwr c x.1 v).readSwr c x.1 = v &&& x.2 := by
  have hall (x : BitVec 64) : x &&& bitsMask 0 64 = x := (BitVec.and_comm ..).trans (BitVec.allOnes_and)
  have hdevice := fun x => readSwr_writeSwr_device s c v (x := x)
  simp only [List.forall_mem_cons, List.not_mem_nil, false_implies, implies_true, and_true] at hdevice
  obtain ⟨hrounds, hthreshold, hdrain, hgang, hpriv, hnext, hesc, hdbg⟩ := hdevice
  simp only [plainRegs, List.forall_mem_cons, List.not_mem_nil, false_implies, implies_true, and_true, hall]
  exact ⟨hrounds, hthreshold, hdrain, hgang, hpriv, hnext, hesc, readSwr_writeSwr_imageBase s c v himg (by decide),
    readSwr_writeSwr_imageBase s c v himg (by decide), hdbg, readSwr_writeSwr_schedCheck s c v,
    readSwr_writeSwr_bp s c v hbp (by decide), readSwr_writeSwr_bp s c v hbp (by decide),
    readSwr_writeSwr_wp s c v hwp (by decide), readSwr_writeSwr_wp s c v hwp (by decide)⟩

section
variable {h : Hdr} {s : State} {t : Task}

theorem readSwr_acts {a : SwrArgs} (hA : Acts s h t (s.srcKeys t a.core 1 0)) :
    (s.swrBad t a = false → exec (.swrRead h a) s =
      .next ((s.putPair t a.data (s.readSwr (s.swrCore t a) a.reg.toNat).toNat).goesOn s h t)) ∧
    (s.swrBad t a = true → exec (.swrRead h a) s = .next (s.traps t (raise0 .reservedField))) :=
  ⟨fun hbad => (exec_swrRead h a s).trans (issue_ok false hA (by simp [hbad, eff])),
    fun hbad => (exec_swrRead h a s).trans (issue_raise hA (by simp [hbad, throwC]))⟩

theorem writeSwr_acts {a : SwrArgs} (hA : Acts s h t (s.srcKeys t a.data 2 0 ++ s.srcKeys t a.core 1 0))
    (hbad : s.swrBad t a = false) (hrel : s.released t = true) : exec (.swrWrite h a) s =
      .next ((s.writeSwr (s.swrCore t a) a.reg.toNat (BitVec.ofNat 64 (s.src t a.data .n64 0))).goesOn s h t) :=
  (exec_swrWrite h a s).trans (issue_ok false hA (by simp [hbad, hrel, eff]))

/-! ### TIME and DBGSIG (R389, R390) -/

theorem modTask_found {u : Nat} {x : Task} (f g : Task → Task) (hx : s.task? u = some x) (hfg : f x = g x) :
    s.modTask u f = s.modTask u g := by
  simp only [State.modTask, hx, hfg]

theorem time_acts {a : DstArgs} (hA : Acts s h t []) (hlog : s.unlogged t) {n : BitVec 64}
    (hn : n = BitVec.ofNat 64 (s.timeFor t)) : exec (.time h a) s =
      .next (((s.modTask t.uid fun t => { t with lastTime := n }).putPair t a.d (s.timeFor t)).goesOn s h t) := by
  have htask : s.task? t.uid = some t := (task?_uid hA.task).symm ▸ hA.task
  have hmax : max t.lastTime.toNat (s.timeFor t) = s.timeFor t := Nat.max_eq_right (Nat.le_max_right _ _)
  rw [exec_time, execTime]
  refine issue_ok false hA ?_
  simp only [logged1_unlogged _ hlog]
  rw [modTask_found _ (fun t => { t with lastTime := n }) htask (by rw [hmax, hn])]
  rfl

theorem dbgsig_acts {a : QArgs} {v : Nat} (hA : Acts s h t (s.srcKeys t a.a 1 0)) (hlog : s.unlogged t)
    (hv : v = s.src t a.a .n32 0) :
    (s.mailboxFull = false → s.released t = false → exec (.dbgsig h a) s = .next s) ∧
    (s.mailboxFull = false → s.released t = true → exec (.dbgsig h a) s = .next (((s.mailboxPost fun seq =>
      recordBytes 5 0 t.core t.job t.ident t.warp.pc t.warp.active 0 v s.timeNs seq).putQ t a.q true).goesOn s h t)) ∧
    (s.mailboxFull = true → exec (.dbgsig h a) s = .next ((s.putQ t a.q false).goesOn s h t)) := by
  subst hv
  rw [exec_dbgsig, execDbgsig]
  refine ⟨fun hroom hrel => issue_hold hA ?_, fun hroom hrel => issue_ok false hA ?_, fun hfull => issue_ok false hA ?_⟩
  · simp [hroom, hrel]
  · simp [hroom, hrel, verdict_unlogged _ hlog, eff]
  · simp [hfull, verdict_unlogged _ hlog, eff]

/-! ### CTXSAVE and CTXLOAD (R391) -/

section
variable {a : QArgs} {c : Nat} (hc : s.src t a.a .n32 0 = c)
include hc

theorem ctxArg_ok (hlt : c < 16) : s.ctxArg t a = .ok c := by
  rw [State.ctxArg, hc, if_neg (Nat.not_le.mpr hlt)]

theorem ctxArg_reserved (hge : 16 ≤ c) : s.ctxArg t a = throwC .reservedField := by
  rw [State.ctxArg, hc, if_pos hge]

variable (hA : Acts s h t (s.srcKeys t a.a 1 0))
include hA

theorem ctxsave_acts (hlt : c < 16) :
    ((s.ctx c).st ≠ .running → exec (.ctxsave h a) s = .next (((s.ctxResult false).putQ t a.q false).goesOn s h t)) ∧
    (∀ s1, s.preempt c = some s1 → c ≠ s.ctxOf t →
      exec (.ctxsave h a) s = .next (((s1.ctxResult true).putQ t a.q true).goesOn s h t)) ∧
    (∀ s1, s.preempt c = some s1 → c = s.ctxOf t → t.opened = none → exec (.ctxsave h a) s =
      .next ((((s1.ctxResult true).putQ t a.q true).finish t.uid h.hint (s.seqPc t) false).parkTask t.uid .ctxLoad)) := by
  rw [exec_ctxsave, execCtxsave]
  refine ⟨fun hst => issue_ok false hA ?_, fun s1 hs1 hother => issue_ok false hA ?_,
    fun s1 hs1 hown hopen => issue_done hA ?_⟩
  · simp [ctxArg_ok hc hlt, State.preempt, hst, eff]
  · simp [ctxArg_ok hc hlt, hs1, hother, eff]
  · simp [ctxArg_ok hc hlt, hs1, ← hown, hopen]

theorem ctxload_acts (hlt : c < 16) :
    ((s.ctx c).st ≠ .saved → (s.ctx c).st ≠ .waiting →
      exec (.ctxload h a) s = .next (((s.ctxResult false).putQ t a.q false).goesOn s h t)) ∧
    (∀ s1, (s.ctx c).st = .saved → s.occupied = true → s1 = { s with cregs := { s.cregs with next := BitVec.ofNat 64 (16 + c) } } →
      exec (.ctxload h a) s = .next (((s1.ctxResult true).putQ t a.q true).goesOn s h t)) := by
  rw [exec_ctxload, execCtxload]
  refine ⟨fun hsaved hwait => issue_ok false hA ?_, fun s1 hsaved hocc hs1 => issue_ok false hA ?_⟩
  · have hnone : s.loadCtx c = none := by
      rw [State.loadCtx, if_neg (Nat.not_le.mpr hlt)]
      cases hst : (s.ctx c).st <;> simp_all
    simp [ctxArg_ok hc hlt, hnone, eff]
  · have hsome : s.loadCtx c = some s1 := by
      rw [State.loadCtx, if_neg (Nat.not_le.mpr hlt), hs1]
      simp [hsaved, hocc]
    simp [ctxArg_ok hc hlt, hsome, eff]

end

end

/-- Settles O50: each instruction under its checks, and the plain registers one by one. -/
theorem systemInstructionsAct : Obligations.SystemInstructionsAct := by
  refine ⟨fun h a s t c hA hc hbad hrel => hc ▸ writeSwr_acts hA hbad hrel, fun h a s t c hA hc => hc ▸ readSwr_acts hA,
    readSwr_writeSwr, fun h a s t v hA hlog hv n hn => ?time, fun h a s t v hA hlog hv => dbgsig_acts hA hlog hv,
    fun h a s t c hA hc hlt => ?ctx, fun i h a s t hi hA hge => ?reserved⟩
  case time => subst hv; exact time_acts hA hlog hn
  case ctx =>
    obtain ⟨hrefused, hother, hown⟩ := ctxsave_acts hc hA hlt
    exact ⟨hrefused, hother, hown, ctxload_acts hc hA hlt⟩
  case reserved =>
    have harg := ctxArg_reserved rfl hge
    simp only [List.mem_cons, List.not_mem_nil, or_false] at hi
    obtain rfl | rfl := hi
    · exact (exec_ctxsave h a s).trans (issue_raise hA (by simp [harg, throwC]))
    · exact (exec_ctxload h a s).trans (issue_raise hA (by simp [harg, throwC]))

end Sys2Proof.Machine
end


section
/-! Proofs. O58: boot, resets, power loss and shutdown (18_platform R422 to R424, R427). -/

namespace Sys2Proof.Machine

/-! ### Fields of registers -/

theorem testBit_natBits (x lo n i : Nat) : (natBits x lo n).testBit i = (decide (i < n) && x.testBit (lo + i)) := by
  rw [natBits, Nat.testBit_mod_two_pow, Nat.testBit_div_two_pow, Nat.add_comm]

/-- Setting a field changes its bits alone. -/
theorem getLsbD_setField (x : BitVec 64) (lo n v : Nat) {i : Nat} (hi : i < 64) :
    (setField x lo n v).getLsbD i = if lo ≤ i ∧ i < lo + n then v.testBit (i - lo) else x.getLsbD i := by
  simp only [setField, BitVec.getLsbD_or, BitVec.getLsbD_and, BitVec.getLsbD_not, BitVec.getLsbD_shiftLeft,
    BitVec.getLsbD_ofNat, Nat.testBit_two_pow_sub_one, Nat.testBit_mod_two_pow, hi, decide_true, Bool.true_and]
  by_cases hlo : i < lo
  · simp [hlo, Nat.not_le.mpr hlo]
  · have hle : lo ≤ i := Nat.le_of_not_lt hlo
    have hi' : i - lo < 64 := by omega
    by_cases hn : i < lo + n
    · have hin : i - lo < n := by omega
      simp [hlo, hle, hi', hn, hin]
    · have hin : ¬ i - lo < n := by omega
      simp [hlo, hn, hin]

theorem testBit_field (x : BitVec 64) (lo n i : Nat) : (field x lo n).testBit i = (decide (i < n) && x.getLsbD (lo + i)) :=
  testBit_natBits x.toNat lo n i

/-- A field that is set reads what it was set to, of its width. -/
theorem field_setField_same (x : BitVec 64) {lo n : Nat} (v : Nat) (h : lo + n ≤ 64) :
    field (setField x lo n v) lo n = v % 2 ^ n := by
  apply Nat.eq_of_testBit_eq
  intro i
  rw [testBit_field, Nat.testBit_mod_two_pow]
  by_cases hi : i < n
  · have hin : lo ≤ lo + i ∧ lo + i < lo + n := by omega
    rw [getLsbD_setField x lo n v (by omega), if_pos hin, Nat.add_sub_cancel_left]
  · simp [hi]

theorem bootCode_code (s : State) {n : Nat} (hn : n < 16) : field (s.bootCode n).pregs.bootStatus 0 4 = n :=
  (field_setField_same s.pregs.bootStatus n (by decide)).trans (Nat.mod_eq_of_lt hn)

theorem getLsbD_setStatus (s : State) {i : Nat} (hi : i < 64) : (s.setStatus i).pregs.devStatus.getLsbD i = true := by
  simp [State.setStatus, hi]

/-! ### Cold start (R422) -/

section
variable {s : State}

theorem powerGood_trains (hoff : s.boot.phase = .off) (hio : s.part.ioDies ≠ 0) : exec .powerGood s =
    .next { s with boot := { s.boot with phase := .training, repair := s.boot.fuseRepair } } := by
  rw [exec_powerGood, execPowerGood, if_pos ⟨hoff, hio⟩]

theorem memReady_trained (hphase : s.boot.phase = .training) : ∃ s1, exec .memReady s = .next s1 ∧
    s1.pregs.devStatus.getLsbD 0 = true ∧ (s.boot.warm = false → s1.boot.phase = .waiting) ∧
    (s.boot.warm = true → s1.boot.phase = .verifying ∧ s1.hbm = s.hbm ∧ field s1.pregs.bootStatus 0 4 = 2) := by
  rw [exec_memReady, execMemReady, if_neg (not_not.mpr hphase)]
  cases hwarm : s.boot.warm with
  | true =>
    exact ⟨_, rfl, getLsbD_setStatus s (by decide), fun h => (Bool.noConfusion h), fun _ => ⟨rfl, rfl, bootCode_code _ (by decide)⟩⟩
  | false =>
    exact ⟨_, rfl, getLsbD_setStatus s.openMemory (by decide), fun _ => rfl, fun h => (Bool.noConfusion h)⟩

theorem bootImageFetched_waiting (hphase : s.boot.phase = .waiting) (bytes : List (BitVec 8)) :
    (bytes.length ≤ 2 ^ 26 → ∃ s1, exec (.bootImageFetched bytes) s = .next s1 ∧ s1.boot.phase = .verifying ∧
      s1.boot.length = bytes.length ∧ field s1.pregs.bootStatus 0 4 = 2 ∧ s1.hbm = (s.perform none 0 bytes).hbm) ∧
    (2 ^ 26 < bytes.length → ∃ s1, exec (.bootImageFetched bytes) s = .next s1 ∧ s1.boot.phase = .waiting ∧
      field s1.pregs.bootStatus 0 4 = 8) := by
  rw [exec_bootImageFetched, execBootImageFetched, if_neg (not_not.mpr hphase), imageMax]
  refine ⟨fun hfits => ?_, fun hlong => ?_⟩
  · rw [if_neg (Nat.not_lt.mpr hfits)]
    exact ⟨_, rfl, rfl, rfl, bootCode_code _ (by decide), rfl⟩
  · rw [if_pos hlong]
    exact ⟨_, rfl, hphase, bootCode_code s (by decide)⟩

theorem bootRetry_waiting (hphase : s.boot.phase = .waiting) : ∃ s1 s2, s.chose s1 ∧ exec .bootRetry s = .next s2 ∧
    s2.boot.phase = .waiting ∧
    (s2 = (s1.loseRange 0 (2 ^ 26)).bootCode 1 ∨ s2 = s1.bootCode 0 ∨ s2 = s1) ∧
    (s2 = s1 → field s1.pregs.bootStatus 0 4 ≠ 1) := by
  have hpick : (s.pick 2).2.boot.phase = .waiting := by
    obtain h | ⟨p, l, -, h⟩ := pick_chose s 2
    all_goals rw [h]; exact hphase
  rw [exec_bootRetry, execBootRetry, if_neg (not_not.mpr hphase)]
  dsimp only
  split
  · refine ⟨_, _, pick_chose s 2, rfl, hpick, .inl rfl, fun h hcode => ?_⟩
    exact absurd (congrArg State.nextUid h) (Nat.succ_ne_self _)
  · split
    next hcode =>
      refine ⟨_, _, pick_chose s 2, rfl, hpick, .inr (.inl rfl), fun h _ => ?_⟩
      have hzero := bootCode_code (s.pick 2).2 (n := 0) (by decide)
      rw [h, hcode] at hzero
      cases hzero
    next hcode => exact ⟨_, _, pick_chose s 2, rfl, hpick, .inr (.inr rfl), fun _ => hcode⟩

theorem bootCtlGo_waiting (hphase : s.boot.phase = .waiting) {v : BitVec 64} (hgo : v.getLsbD 63 = true) :
    ∃ s1, exec (.bootCtlGo v) s = .next s1 ∧ s1.boot.phase = .verifying ∧ s1.boot.length = field v 0 27 ∧
      field s1.pregs.bootStatus 0 4 = 2 := by
  rw [exec_bootCtlGo, execBootCtlGo, State.bootGo, if_pos (by simp [hphase, hgo])]
  exact ⟨_, rfl, rfl, rfl, bootCode_code _ (by decide)⟩

/-! ### Verification (R423) -/

theorem imageFails_lt {n : Nat} (hn : n ∈ s.imageFails) : n < 16 := by
  have hcode {p : Prop} [Decidable p] {k : Nat} (hk : k < 16) (h : n ∈ if p then [k] else []) : n < 16 := by
    split at h
    · rwa [List.mem_singleton.mp h]
    · cases h
  simp only [State.imageFails, List.mem_append] at hn
  obtain (((h | h) | h) | h) | h := hn
  all_goals exact hcode (by decide) h

theorem imageVerify_verifying (hphase : s.boot.phase = .verifying) : ∃ s1, exec .imageVerify s = .next s1 ∧
    if s.imageFails = [] then
      s1.boot.phase = .running ∧ s1.pregs.devStatus.getLsbD 1 = true ∧ field s1.pregs.bootStatus 0 4 = 3 ∧
      s1.boot.recorded = s.memNat 0xC 4 ∧ s1.boot.entry = some (BitVec.ofNat 64 (s.memNat 0x10 8))
    else s1.boot.phase = .waiting ∧ field s1.pregs.bootStatus 0 4 ∈ s.imageFails := by
  rw [exec_imageVerify, execImageVerify, if_neg (not_not.mpr hphase)]
  dsimp only
  by_cases hfails : s.imageFails = []
  · rw [if_pos (by rw [hfails]; rfl)]
    refine ⟨_, rfl, ?_⟩
    rw [if_pos hfails]
    exact ⟨rfl, getLsbD_setStatus _ (by decide), bootCode_code _ (by decide), rfl, rfl⟩
  · rw [if_neg (by rwa [List.isEmpty_iff])]
    refine ⟨_, rfl, ?_⟩
    rw [if_neg hfails]
    have hmem := pickMod_mem hfails (s.pick s.imageFails.length).1 4
    refine ⟨rfl, ?_⟩
    rw [bootCode_code _ (imageFails_lt hmem)]
    exact hmem

end

/-! ### Resets (R424) -/

/-- What a warm reset writes back and gives up of memory. -/
def State.writtenBack (s : State) : State :=
  let s := s.msc.foldl (fun s e => s.mscEvict e.line) s
  s.keyRanges.foldl (fun s (b, n) => s.loseRange b (b + n)) s

theorem besideMemory_mscEvicts (l : List MscEnt) (s : State) :
    (l.foldl (fun s e => s.mscEvict e.line) s).besideMemory = s.besideMemory :=
  besideMemory_foldl (fun s e => besideMemory_mscEvict s e.line) l s

theorem writtenBack_timeNs (s : State) : s.writtenBack.timeNs = s.timeNs := by
  have hlose (l : List (Nat × Nat)) (s : State) :
      (l.foldl (fun s (b, n) => s.loseRange b (b + n)) s).besideMemory = s.besideMemory :=
    besideMemory_foldl (f := fun s (b, n) => s.loseRange b (b + n)) (fun _ _ => rfl) l s
  have hbeside : s.writtenBack.besideMemory = s.besideMemory := (hlose _ _).trans (besideMemory_mscEvicts s.msc s)
  simpa only [State.besideMemory] using congrArg State.timeNs hbeside

/-- Without a protected range that holds data, memory is what the memory-side caches leave in it. -/
theorem writtenBack_hbm {s : State} (hkeys : s.keyRanges = []) :
    s.writtenBack.hbm = (s.msc.foldl (fun s e => s.mscEvict e.line) s).hbm := by
  have hmregs : (s.msc.foldl (fun s e => s.mscEvict e.line) s).mregs = s.mregs := by
    simpa only [State.besideMemory] using congrArg State.mregs (besideMemory_mscEvicts s.msc s)
  have hkeys' : (s.msc.foldl (fun s e => s.mscEvict e.line) s).keyRanges = [] := by
    simpa only [State.keyRanges, State.protRange, hmregs] using hkeys
  simp only [State.writtenBack, hkeys', List.foldl_nil]

section
variable {s : State}

theorem warmReset_running (hphase : s.boot.phase = .running) : s.warmReset.boot.phase = .training ∧
    s.warmReset.boot.warm = true ∧
    (s.keyRanges = [] → s.warmReset.hbm = (s.msc.foldl (fun s e => s.mscEvict e.line) s).hbm ∧
      (s.msc = [] → s.warmReset.hbm = s.hbm)) ∧
    s.warmReset.tasks = [] ∧ s.warmReset.jobs = [] ∧ s.warmReset.cores = [] ∧ s.warmReset.pregs.devStatus = 4 ∧
    s.warmReset.timeNs = s.timeNs := by
  have hreset : s.warmReset = s.warmRestart := by simp only [State.warmReset, hphase]
  have hstatus : (0 : BitVec 64) ||| BitVec.twoPow 64 2 = 4 := by decide
  rw [hreset]
  refine ⟨rfl, rfl, fun hkeys => ⟨writtenBack_hbm hkeys, fun hmsc => ?_⟩, rfl, rfl, rfl, hstatus, writtenBack_timeNs s⟩
  exact (writtenBack_hbm hkeys).trans (by rw [hmsc, List.foldl_nil])

theorem warmReset_cold (hphase : s.boot.phase = .waiting ∨ (s.boot.phase = .verifying ∧ s.boot.warm = false)) :
    s.warmReset.boot.phase = .training ∧ s.warmReset.boot.warm = false ∧ s.warmReset.tasks = [] ∧ s.warmReset.jobs = [] ∧
    s.warmReset.pregs.devStatus = 0 ∧ s.warmReset.timeNs = s.timeNs := by
  have hnot : s.resetting = false ∧ s.boot.phase ≠ .training := by
    obtain h | ⟨h, hwarm⟩ := hphase
    · simp [State.resetting, h]
    · simp [State.resetting, h, hwarm]
  obtain ⟨hresetting, htraining⟩ := hnot
  have hreset : s.warmReset = { s.cleared with
      clkMHz := s.clkMHz, sensors := s.sensors, coolSince := s.coolSince, timeNs := s.timeNs, timeFrac := s.timeFrac
      boot := { s.boot with phase := .training, warm := false, length := 0 } } := by
    obtain h | ⟨h, -⟩ := hphase
    all_goals simp [State.warmReset, h, hresetting]
  rw [hreset]
  exact ⟨rfl, rfl, rfl, rfl, rfl, rfl⟩

theorem warmReset_elsewhere
    (hphase : s.boot.phase = .off ∨ s.boot.phase = .training ∨ (s.boot.phase = .verifying ∧ s.boot.warm = true)) :
    s.warmReset = s := by
  obtain h | h | ⟨h, hwarm⟩ := hphase
  · simp only [State.warmReset, h]
  · simp [State.warmReset, h]
  · simp [State.warmReset, h, State.resetting, hwarm]

/-- The pin, and the register with bit 0 set, begin a warm reset. -/
theorem exec_warmReset {i : Instr} (hi : i = .resetPin ∨ ∃ v, i = .resetCtlWarm v ∧ v.getLsbD 0 = true) :
    exec i s = .next s.warmReset := by
  obtain rfl | ⟨v, rfl, hv⟩ := hi
  · exact exec_resetPin s
  · rw [exec_resetCtlWarm, execResetCtlWarm, if_pos hv]

/-- Without power, and at 115 °C, everything goes but the fuses. -/
theorem exec_powerOff {i : Instr}
    (hi : i = .powerLoss ∨ ∃ d < s.part.dies + s.part.ioDies, i = .thermalShutdown d) : exec i s = .next s.powerOff := by
  obtain rfl | ⟨d, hd, rfl⟩ := hi
  · exact exec_powerLoss s
  · rw [exec_thermalShutdown, execThermalShutdown, if_pos hd]

end

/-- Settles O58: each step of the bring-up at its phase, and the resets by the phase they find. -/
theorem bootProceeds : Obligations.BootProceeds := by
  refine ⟨fun s => powerGood_trains, fun s => memReady_trained, fun s bytes h => bootImageFetched_waiting h bytes,
    fun s => bootRetry_waiting, fun s v h hgo => bootCtlGo_waiting h hgo,
    fun s => imageVerify_verifying, fun i s hi => ?resets,
    fun s v hv => ?ignored, fun i s hi => ?power⟩
  case resets =>
    rw [exec_warmReset hi]
    exact ⟨fun h => ⟨_, rfl, warmReset_running h⟩, fun h => ⟨_, rfl, warmReset_cold h⟩,
      fun h => congrArg _ (warmReset_elsewhere h)⟩
  case ignored => rw [exec_resetCtlWarm, execResetCtlWarm, hv]; rfl
  case power => exact ⟨_, exec_powerOff hi, rfl, rfl, rfl, rfl, rfl, rfl, rfl, rfl, rfl⟩

end Sys2Proof.Machine
end


section
/-! Proofs. O55: the copy engines and the matrix engine by themselves (13_tiles R292 to R305, 14_matrix R323 to R343). -/

namespace Sys2Proof.Machine

/-! ### Segments (R299, R303 to R305) -/

section
variable {s : State} {core u : Nat} {o : EngOp} {t : Task} (ho : s.opOf core u = some (o, t))
include ho

theorem engineSegmentComplete_moves (hm : s.opMoves t o = true) {d : SegDone} (hd : s.nextSeg core t o = .ok d) :
    exec (.engineSegmentComplete core u) s =
      .next (if o.node.isSome then d.s.modCore core (·.modOp o.uid fun o => { o with sent := true })
        else d.s.creditSeg core o d) := by
  rw [exec_engineSegmentComplete, execEngineSegmentComplete]
  simp only [ho, hm, hd, Bool.not_true, Bool.false_eq_true, if_false]
  split <;> rfl

theorem engineSegmentFault_fault (hm : s.opMoves t o = true) {va : Nat} {x : Option XErr}
    (hd : s.nextSeg core t o = .error (.fault va x)) :
    exec (.engineSegmentFault core u) s = .next (s.pauseOp core t o .copyFault va x) := by
  rw [exec_engineSegmentFault, execEngineSegmentFault]
  simp only [ho, hm, hd, Bool.not_true, Bool.false_eq_true, if_false]

theorem engineSegmentFault_unreachable (hm : s.opMoves t o = true) {va : Nat}
    (hd : s.nextSeg core t o = .error (.unreachable va)) :
    exec (.engineSegmentFault core u) s = .next (s.pauseOp core t o .remoteUnreachable va none) := by
  rw [exec_engineSegmentFault, execEngineSegmentFault]
  simp only [ho, hm, hd, Bool.not_true, Bool.false_eq_true, if_false]

/-- What an answer, or its want, does to an operation with a segment outstanding. -/
theorem remoteSegment_answered (hsent : o.sent = true) :
    exec (.remoteSegmentAck core u) s = .next (s.creditSeg core o ⟨s, 0, []⟩) ∧
    exec (.remoteAckTimeout core u) s = .next (s.pauseOp core t o .remoteUnreachable o.farAddr none) := by
  rw [exec_remoteSegmentAck, exec_remoteAckTimeout, execRemoteSegmentAck, execRemoteAckTimeout]
  simp only [ho, hsent, if_true, and_self]

end

theorem handleRecordFree_freeable {s : State} {core r : Nat} {x : HRec} (hx : (s.core core).rec? r = some x)
    (hfree : (s.core core).recFreeable x = true) : exec (.handleRecordFree core r) s =
      .next (s.modCore core fun c => c.putRec ⟨r, Desc.none, .free, x.gen + 1, 0, none, none⟩) := by
  rw [exec_handleRecordFree, execHandleRecordFree]
  simp only [hx, hfree, if_true]

theorem herricSegmentReceive_answers {s : State} {off : Nat} {data : List (BitVec 8)} {pa : Nat}
    (hpa : pa = field s.pregs.rxBase 16 32 * 65536 + off) :
    (s.memReady = true → off + data.length ≤ field s.pregs.rxSize 16 32 * 65536 → s.closed pa data.length = false →
      exec (.herricSegmentReceive off data) s = .next ((s.perform none pa data).out (.ack true))) ∧
    (s.memReady = false ∨ field s.pregs.rxSize 16 32 * 65536 < off + data.length ∨ s.closed pa data.length = true →
      exec (.herricSegmentReceive off data) s = .next (s.out (.ack false))) := by
  subst hpa
  rw [exec_herricSegmentReceive, execHerricSegmentReceive]
  refine ⟨fun hready hroom hopen => if_neg ?_, fun hbad => if_pos ?_⟩
  · simp [hready, hopen, Nat.not_lt.mpr hroom]
  · simpa [or_assoc] using hbad

/-- Where an operation stands, by its credited segments of 512 bytes. -/
theorem engOp_position {o : EngOp} (h : o.credited * 512 < o.total) :
    o.bytes = 512 * o.credited ∧ (o.atLast = true ↔ o.total ≤ 512 * (o.credited + 1)) := by
  refine ⟨?_, by rw [EngOp.atLast, decide_eq_true_eq, Nat.mul_succ]⟩
  rw [EngOp.bytes]
  omega

theorem enginesAdvance : Rule.EnginesAdvance := by
  refine ⟨fun s core u o t ho hm => ⟨fun d hd => ⟨fun hnode => ?_, fun hnode => ?_⟩,
      fun va x hd => engineSegmentFault_fault ho hm hd, fun va hd => engineSegmentFault_unreachable ho hm hd⟩,
    fun s core u o t ho hsent => remoteSegment_answered ho hsent, fun s core r x hx hfree => handleRecordFree_freeable hx hfree,
    fun s off data pa hpa => herricSegmentReceive_answers hpa, fun o h => engOp_position h⟩
  · rw [engineSegmentComplete_moves ho hm hd, hnode]; rfl
  · rw [engineSegmentComplete_moves ho hm hd, if_pos (Option.isSome_iff_ne_none.mpr hnode)]

/-! ### The matrix engine (R323, R330 to R333, R343) -/

theorem leaseGrant_open {s s1 : State} {core u n : Nat} {rest : List (Nat × Nat)} {t : Task} {k next hint}
    (hreq : (s.core core).mx.requests = (u, n) :: rest) (ht : s.task? u = some t)
    (hopen : (s.core core).leaseOpen t.cohort = true) (hpark : t.park = some (.lease k next hint))
    (hs1 : s1 = s.modCore core (fun c => (c.grantLease t.cohort n).modMx fun m => { m with requests := rest })) :
    exec (.leaseGrant core) s = .next (s1.parkDone u next hint) := by
  subst hs1
  rw [exec_leaseGrant, execLeaseGrant, State.grantNext]
  simp only [hreq, ht, hopen, hpark, Bool.not_true, Bool.false_eq_true, if_false]

theorem queueAdmit_ready {s : State} {core : Nat} {o : MatOp} (ho : (s.core core).nextAdmit = some o)
    (hrun : s.unitsRun o.owner = true) : exec (.queueAdmit core) s = .next (s.admitMat core o) := by
  rw [exec_queueAdmit, execQueueAdmit]
  simp only [ho, hrun, if_true]

theorem mmaDynStep_next {s : State} {core : Nat} {o : MatOp} {c a rows ar cr kc nc cnt dyn sp hi fin} (ho : s.dynOp core = some o)
    (hkind : o.kind = .mma c a rows ar cr kc nc cnt dyn sp) (hnext : (s.core core).dynNext o cnt rows = some (hi, fin)) :
    exec (.mmaDynStep core) s = .next (s.runRows core o hi fin) := by
  rw [exec_mmaDynStep, execMmaDynStep]
  simp only [ho, hkind, hnext]

theorem planesEmptyAtCohortEnd_done {s : State} {core : Nat} (h : s.planesDone core = true) :
    exec (.planesEmptyAtCohortEnd core) s = .next (s.modCore core (·.modMx fun m =>
      { m with active := Plane.none, shadow := Plane.none, lease := { m.lease with last := none } })) := by
  rw [exec_planesEmptyAtCohortEnd, execPlanesEmptyAtCohortEnd, if_pos h]

/-- How many steps of 8 rows a turn leaves, of those that remain: fewer than all, where there are any. -/
def State.turnLeaves (s : State) (steps : Nat) : Nat × State := if steps = 0 then (0, s) else s.pick steps

theorem turnLeaves_chose (s : State) (steps : Nat) : s.chose (s.turnLeaves steps).2 := by
  unfold State.turnLeaves
  split
  · exact .inl rfl
  · exact pick_chose s steps

theorem turnLeaves_le (s : State) (steps : Nat) : (s.turnLeaves steps).1 ≤ steps := by
  unfold State.turnLeaves
  split
  · exact Nat.zero_le _
  · unfold State.pick
    split
    · exact Nat.zero_le _
    · exact Nat.le_of_lt (Nat.mod_lt _ (by omega))

section
variable {s : State} {core : Nat} {o : MatOp} (ho : (s.core core).mx.ops.find? (·.uid == o.uid) = some o)
  (hgoes : s.matGoes core o = true) (hrun : s.unitsRun o.owner = true) (hwaits : o.dynWaits = false)
include ho hgoes hrun hwaits

/-- An operation that goes runs rows, up to the step that the device chooses, and completes with its last. -/
theorem matrixOpComplete_goes {rows : Nat} (hrows : rows = if o.fin then o.done else o.kind.rows) :
    ∃ s0 k, s.chose s0 ∧ k ≤ ceilDiv (rows - o.done) 8 ∧ ∀ s1, s1 = s0.runRows core o (if k = 0 then rows else
      o.done + 8 * (ceilDiv (rows - o.done) 8 - k)) o.fin →
    (k ≠ 0 → exec (.matrixOpComplete core o.uid) s = .next s1) ∧
    (k = 0 → ∀ s2 f flags, s1.matFinish core o = (s2, f) →
      flags = (((s2.core core).mx.ops.find? (·.uid == o.uid)).map (·.flags)).getD 0 →
      exec (.matrixOpComplete core o.uid) s = .next (s2.matDone core o (flags ||| f))) := by
  refine ⟨_, _, turnLeaves_chose s (ceilDiv (rows - o.done) 8), turnLeaves_le s (ceilDiv (rows - o.done) 8), fun s1 hs1 => ?_⟩
  subst hs1
  rw [exec_matrixOpComplete, execMatrixOpComplete]
  simp only [ho, hgoes, hrun, hwaits, Bool.not_true, Bool.or_self, Bool.false_eq_true, if_false, ← hrows]
  refine ⟨fun hk => ?_, fun hk s2 f flags hfin hflags => ?_⟩
  · exact if_pos hk
  · refine (if_neg (not_not.mpr hk)).trans ?_
    subst hflags
    rw [State.turnLeaves] at hfin hk
    simp only [hfin]

end

/-! ### What completes leaves its core's planes (R343) -/

theorem core_orFlags (s : State) (u c : Nat) (f : BitVec 32) : (s.orFlags u f).core c = s.core c := by
  unfold State.orFlags
  split
  · rfl
  · simp only [State.core, State.modTask_cores]

theorem core_dropBars (s : State) (l : List (Nat × Nat)) (c : Nat) : (s.dropBars l).core c = s.core c := by
  induction l generalizing s with
  | nil => rfl
  | cons x l ih => exact (ih _).trans (core_modWarp ..)

theorem mx_settleRec (c : Core) (r : Nat) : (c.settleRec r).mx = c.mx := by
  unfold Core.settleRec
  split <;> rfl

/-- Beside its own entry, an operation's completion leaves the matrix engine as it is. -/
theorem mx_matDone (s : State) (core : Nat) (o : MatOp) (flags : BitVec 32) : ((s.matDone core o flags).core core).mx =
    { (s.core core).mx with ops := (s.core core).mx.ops.filter (·.uid != o.uid) } := by
  have hbars (s : State) : ((if o.bars.isEmpty then s else (s.acquire core none).dropBars o.bars).core core).mx =
      (s.core core).mx := by
    split
    · rfl
    · rw [core_dropBars, State.acquire, core_modCore_same]; rfl
  rw [State.matDone, hbars, core_orFlags, core_modCore_same]
  dsimp only
  split
  · exact mx_settleRec _ _
  · rfl

/-- A flip changes the planes over. -/
theorem matrixOpComplete_mflip {s : State} {core : Nat} {o : MatOp} (ho : (s.core core).mx.ops.find? (·.uid == o.uid) = some o)
    (hgoes : s.matGoes core o = true) (hrun : s.unitsRun o.owner = true) (hkind : o.kind = .mflip) (hdone : o.done = 0)
    (hfin : o.fin = false) :
    ∃ s1, exec (.matrixOpComplete core o.uid) s = .next s1 ∧ (s1.core core).mx.active = (s.core core).mx.shadow ∧
      (s1.core core).mx.shadow = (s.core core).mx.active ∧ ∀ x ∈ (s1.core core).mx.ops, x.uid ≠ o.uid := by
  have hwaits : o.dynWaits = false := by rw [MatOp.dynWaits, hkind]
  have hrows : 0 = if o.fin then o.done else o.kind.rows := by rw [hfin, hkind]; rfl
  obtain ⟨s0, k, hchose, hk, hrun⟩ := matrixOpComplete_goes ho hgoes hrun hwaits hrows
  obtain rfl : k = 0 := by rw [hdone] at hk; exact Nat.le_zero.mp hk
  have hcore : s0.core core = s.core core := by
    obtain rfl | ⟨p, l, -, rfl⟩ := hchose
    all_goals rfl
  obtain ⟨-, hrun⟩ := hrun _ rfl
  rw [if_pos rfl] at hrun
  have hfinish : (s0.runRows core o 0 o.fin).matFinish core o =
      ((s0.runRows core o 0 o.fin).modCore core (·.modMx fun m => { m with active := m.shadow, shadow := m.active }), 0) := by
    rw [State.matFinish, hkind]
  refine ⟨_, hrun rfl _ _ _ hfinish rfl, ?_⟩
  have hplanes : ((s0.runRows core o 0 o.fin).core core).mx.active = (s.core core).mx.active ∧
      ((s0.runRows core o 0 o.fin).core core).mx.shadow = (s.core core).mx.shadow := by
    rw [State.runRows, hdone, core_setCore, if_pos rfl, ← hcore]
    exact ⟨rfl, rfl⟩
  rw [mx_matDone, core_modCore_same]
  refine ⟨hplanes.2, hplanes.1, fun x hx => ?_⟩
  simpa using (List.mem_filter.mp hx).2

theorem matrixEngineAdvances : Rule.MatrixEngineAdvances :=
  ⟨fun _ _ _ _ _ _ _ _ _ _ => leaseGrant_open, fun _ _ _ => queueAdmit_ready,
    fun _ _ _ _ _ _ _ _ _ _ _ _ _ _ _ => mmaDynStep_next, fun _ _ _ => matrixOpComplete_mflip,
    fun _ _ _ _ ho hgoes hrun hwaits hrows => matrixOpComplete_goes ho hgoes hrun hwaits hrows,
    fun _ _ => planesEmptyAtCohortEnd_done⟩

/-- Settles O55: each event of the engines under the condition that its unit waits for. -/
theorem enginesMakeProgress : Obligations.EnginesMakeProgress := ⟨enginesAdvance, matrixEngineAdvances⟩

end Sys2Proof.Machine
end


section
/-! Proofs. O59: what the host, the links, the sensors and the system cores do (17_memsys R408, R409, 18_platform R410 to
R427). -/

namespace Sys2Proof.Machine

/-! ### The host's windows (R414, R415) -/

section
variable {s : State}

theorem pcieBar2Write_answers {off : Nat} {data : List (BitVec 8)} (hin : off + data.length ≤ 2 ^ 36) :
    (s.memReady = true → s.closed (s.winAddr off) data.length = false →
      exec (.pcieBar2Write off data) s = .next ((s.perform none (s.winAddr off) data).out (.host .success []))) ∧
    (s.memReady = true → s.closed (s.winAddr off) data.length = true →
      exec (.pcieBar2Write off data) s = .next (s.out (.host .abort []))) ∧
    (s.memReady = false → exec (.pcieBar2Write off data) s = .next (s.out (.host .unsupported []))) := by
  rw [exec_pcieBar2Write, execPcieBar2Write, bar2Size, if_neg (Nat.not_lt.mpr hin)]
  refine ⟨fun hready hopen => ?_, fun hready hclosed => ?_, fun hready => ?_⟩
  · simp only [hready, hopen, Bool.not_true, Bool.false_eq_true, if_false]
  · simp only [hready, hclosed, Bool.not_true, Bool.false_eq_true, if_false, if_true]
  · simp only [hready, Bool.not_false, if_true]

theorem pcieBar2Read_answers {off n : Nat} (hin : off + n ≤ 2 ^ 36) :
    (s.memReady = true → s.closed (s.winAddr off) n = false → s.readable (s.winAddr off) n = true →
      exec (.pcieBar2Read off n) s = .next (s.out (.host .success (s.memBytes (s.winAddr off) n)))) ∧
    (s.memReady = true → s.closed (s.winAddr off) n = true →
      exec (.pcieBar2Read off n) s = .next (s.out (.host .abort []))) ∧
    (s.memReady = false → exec (.pcieBar2Read off n) s = .next (s.out (.host .unsupported []))) := by
  rw [exec_pcieBar2Read, execPcieBar2Read, bar2Size, if_neg (Nat.not_lt.mpr hin)]
  refine ⟨fun hready hopen hread => ?_, fun hready hclosed => ?_, fun hready => ?_⟩
  · simp only [hready, hopen, hread, Bool.not_true, Bool.or_self, Bool.false_eq_true, if_false]
  · simp only [hready, hclosed, Bool.true_or, Bool.not_true, Bool.false_eq_true, if_false, if_true]
  · simp only [hready, Bool.not_false, if_true]

theorem pcieBar0Access_answers {a : Access} (hin : mailboxAccess a.addr a.size = true) :
    (a.write = none → exec (.pcieBar0Access a) s = .next (s.out (.host .success (spTake s.mailbox a.addr a.size)))) ∧
    (∀ v, a.write = some v →
      exec (.pcieBar0Access a) s = .next ((s.mailboxWrite a.addr a.size v).out (.host .success []))) := by
  rw [exec_pcieBar0Access, execPcieBar0Access]
  refine ⟨fun hread => ?_, fun v hwrite => ?_⟩
  · simp only [hin, hread, Bool.not_true, Bool.false_eq_true, if_false]
  · simp only [hin, hwrite, Bool.not_true, Bool.false_eq_true, if_false]

/-! ### The query service (R417) -/

/-- Bytes whose lines can be read are those of memory. -/
theorem devBytes_readable {pa n : Nat} (h : s.readable pa n = true) : s.devBytes pa n = s.memBytes pa n := by
  have hline : ∀ i < n, s.badLine ((pa + i) / 64) = false := by
    intro i hi
    simp only [State.readable, Bool.not_eq_true', List.any_eq_false] at h
    refine Bool.eq_false_iff.mpr (h _ ?_)
    rw [linesOf, if_neg (by omega)]
    exact List.mem_map.mpr ⟨(pa + i) / 64 - pa / 64, List.mem_range.mpr (by omega), by omega⟩
  clear h
  induction n generalizing pa with
  | zero => rfl
  | succ n ih =>
    have hfirst : s.devByte pa = s.memByte pa := if_neg (by simpa using hline 0 (Nat.succ_pos n))
    rw [State.devBytes, State.memBytes, hfirst, ih]
    intro i hi
    rw [Nat.add_assoc, Nat.add_comm 1 i]
    exact hline (i + 1) (by omega)

theorem queryRead_answers {q : QueryHead} {n : Nat} {r : Nat → List Byte → State}
    (hr : r = fun (st : Nat) (bs : List Byte) => s.out (.queryReply (queryHeader 1 st n q) bs)) :
    (queryShape q.off n = false → exec (.queryRead q n) s = .next (r 1 [])) ∧
    (queryShape q.off n = true → q.off + n ≤ 4096 → exec (.queryRead q n) s = .next (r 0 (spTake s.mailbox q.off n))) ∧
    (queryShape q.off n = true → 4096 < q.off + n → q.off < 0x10000 → exec (.queryRead q n) s = .next (r 1 [])) ∧
    (queryShape q.off n = true → 0x10000 ≤ q.off → s.memReady = false → exec (.queryRead q n) s = .next (r 3 [])) ∧
    (queryShape q.off n = true → 0x10000 ≤ q.off → s.memReady = true → q.off - 0x10000 + n ≤ 64 * s.telRecords →
      s.telAddr + (q.off - 0x10000) + n ≤ s.memTop → s.readable (s.telAddr + (q.off - 0x10000)) n = true →
      exec (.queryRead q n) s = .next (r 0 (s.memBytes (s.telAddr + (q.off - 0x10000)) n))) := by
  subst hr
  have hlen (h : queryShape q.off n = true) : 4 ≤ n := by
    simp only [queryShape, Bool.and_eq_true, decide_eq_true_eq] at h
    obtain ⟨⟨⟨hfour, -⟩, -⟩, -⟩ := h
    exact hfour
  rw [exec_queryRead, execQueryRead]
  refine ⟨fun hshape => ?_, fun hshape hmail => ?_, fun hshape hpast hlow => ?_, fun hshape hhigh hready => ?_,
    fun hshape hhigh hready hring htop hread => ?_⟩
  · simp [hshape]
  · have hoff : q.off < 4096 := by have := hlen hshape; omega
    simp [hshape, hoff, hmail]
  · simp [hshape, hlow, Nat.not_le.mpr hpast]
  · have h1 : ¬ q.off < 4096 := by omega
    simp [hshape, h1, hready, hhigh]
  · have h1 : ¬ q.off < 4096 := by omega
    simp [hshape, h1, hready, hhigh, Nat.not_lt.mpr hring, Nat.not_lt.mpr htop, devBytes_readable hread]

theorem queryWrite_answers {q : QueryHead} {ws : List (BitVec 32)} {r : State → Nat → State}
    (hr : r = fun (s : State) (st : Nat) => s.out (.queryReply (queryHeader 2 st (4 * ws.length) q) [])) :
    (queryShape q.off (4 * ws.length) = false → exec (.queryWrite q ws) s = .next (r s 1)) ∧
    (queryShape q.off (4 * ws.length) = true →
      ((∀ i < ws.length, queryWritable (q.off + 4 * i) = true) → ∀ s1,
        s1 = { s with mailbox := spPutBlock s.mailbox q.off (ws.flatMap fun (w : BitVec 32) => bytesOf 4 w.toNat) } →
        exec (.queryWrite q ws) s = .next (r s1 0)) ∧
      (∀ i < ws.length, queryWritable (q.off + 4 * i) = false → exec (.queryWrite q ws) s = .next (r s 2))) := by
  subst hr
  rw [exec_queryWrite, execQueryWrite]
  refine ⟨fun hshape => ?_, fun hshape => ⟨fun hall s1 hs1 => ?_, fun i hi hbad => ?_⟩⟩
  · simp only [hshape, Bool.not_false, if_true]
  · have hok : ((List.range ws.length).all fun i => queryWritable (q.off + 4 * i)) = true := by simpa using hall
    simp only [hshape, hok, hs1, Bool.not_true, Bool.false_eq_true, if_false]
  · have hno : ((List.range ws.length).all fun i => queryWritable (q.off + 4 * i)) = false := by
      simpa using ⟨i, hi, hbad⟩
    simp only [hshape, hno, Bool.not_true, Bool.not_false, Bool.false_eq_true, if_false, if_true]

end

theorem hostRequestsAnswered : Rule.HostRequestsAnswered :=
  ⟨fun _ _ _ => pcieBar2Write_answers, fun _ _ _ => pcieBar2Read_answers, fun _ _ => pcieBar0Access_answers,
    fun _ _ _ _ => queryRead_answers, fun _ _ _ _ => queryWrite_answers, fun _ _ _ _ => rfl⟩

/-! ### Links and time (R418, R421) -/

section
variable {s : State}

theorem irq_event (s : State) {i : Nat} (hi : i < 64) : (s.irq i).pregs.irqStatus.getLsbD i = true := by
  simp [State.irq, hi]

theorem herricLaneFail_port {p : Nat} (hp : p < s.part.herricPorts) (hwf : spWf s.pregs.lanes = true) :
    ∃ s1, exec (.herricLaneFail p) s = .next s1 ∧ spGet s1.pregs.lanes p = 4 ∧ s1.pregs.irqStatus.getLsbD 7 = true := by
  rw [exec_herricLaneFail, execHerricLaneFail, if_neg (Nat.not_le.mpr hp)]
  refine ⟨_, rfl, ?_, irq_event _ (by decide)⟩
  exact (spGet_spSet p 4 p hwf).trans (if_pos rfl)

theorem herricBeaconSend_source : (field s.pregs.timeStatus 1 2 = 2 → exec .herricBeaconSend s = .next (s.out (.beacon s.timeNs))) ∧
    (field s.pregs.timeStatus 1 2 ≠ 2 → exec .herricBeaconSend s = .next s) := by
  rw [exec_herricBeaconSend, execHerricBeaconSend, State.beaconSource]
  exact ⟨fun h => if_pos (by simpa using h), fun h => if_neg (by simpa using h)⟩

/-- Setting LOCKED and SOURCE changes no time. -/
theorem setLock_keeps (s : State) (locked : Bool) (source : Nat) : (s.setLock locked source).timeNs = s.timeNs ∧
    (s.setLock locked source).slew = s.slew ∧ (s.setLock locked source).pregs.timeStatus =
      setField (setField s.pregs.timeStatus 0 1 locked.toNat) 1 2 source := by
  unfold State.setLock
  dsimp only
  split <;> exact ⟨rfl, rfl, rfl⟩

theorem correct_source (s : State) (ns : BitVec 64) {source : Nat} (hs : source < 4) :
    field (s.correct ns source).pregs.timeStatus 1 2 = source := by
  have hlock (s : State) (locked : Bool) : field (s.setLock locked source).pregs.timeStatus 1 2 = source := by
    obtain ⟨-, -, hstatus⟩ := setLock_keeps s locked source
    rw [hstatus, field_setField_same _ _ (by decide)]
    exact Nat.mod_eq_of_lt hs
  unfold State.correct
  dsimp only
  split <;> exact hlock _ _

theorem correct_time (s : State) (ns : BitVec 64) (source : Nat) :
    (s.steps ns = true → (s.correct ns source).timeNs = ns ∧ (s.correct ns source).slew = 0) ∧
    (s.steps ns = false → (s.correct ns source).timeNs = s.timeNs) := by
  unfold State.correct
  refine ⟨fun h => ?_, fun h => ?_⟩
  · rw [if_pos h]
    obtain ⟨htime, hslew, -⟩ := setLock_keeps (if s.timeError ns = 0 then { s with timeNs := ns, timeFrac := 0, slew := 0 }
      else { { s with timeNs := ns, timeFrac := 0, slew := 0 } with
        pregs := { s.pregs with timeStatus := s.pregs.timeStatus ||| 8 } }) true source
    refine ⟨htime.trans ?_, hslew.trans ?_⟩
    all_goals split <;> rfl
  · rw [if_neg (by simp [h])]
    exact (setLock_keeps _ _ source).1

theorem steps_iff (ns : BitVec 64) : s.steps ns = true ↔ s.memReady = false ∨ s.timeNs.toNat + 1000 < ns.toNat := by
  have herr : 1000 < s.timeError ns ↔ s.timeNs.toNat + 1000 < ns.toNat := by rw [State.timeError]; omega
  simp [State.steps, herr]

theorem received_time (ns : BitVec 64) : ∃ a b, exec (.herricBeaconReceive ns) s = .next a ∧ exec (.ptpMessage ns) s = .next b ∧
    field a.pregs.timeStatus 1 2 = 1 ∧ field b.pregs.timeStatus 1 2 = 2 ∧ a.outs.getLast? = some (.beacon ns) ∧
    (s.steps ns = true → a.timeNs = ns ∧ b.timeNs = ns ∧ a.slew = 0 ∧ b.slew = 0) ∧
    (s.steps ns = false → a.timeNs = s.timeNs ∧ b.timeNs = s.timeNs) := by
  obtain ⟨hstep1, hslew1⟩ := correct_time s ns 1
  obtain ⟨hstep2, hslew2⟩ := correct_time s ns 2
  refine ⟨_, _, exec_herricBeaconReceive ns s, exec_ptpMessage ns s, correct_source s ns (by decide),
    correct_source s ns (by decide), List.getLast?_concat, fun h => ?_, fun h => ⟨hslew1 h, hslew2 h⟩⟩
  exact ⟨(hstep1 h).1, (hstep2 h).1, (hstep1 h).2, (hstep2 h).2⟩

theorem timeSourceLoss_free : ∃ s1, exec .timeSourceLoss s = .next s1 ∧ s1.slew = 0 ∧ field s1.pregs.timeStatus 0 3 = 0 ∧
    s1.timeNs = s.timeNs := by
  obtain ⟨htime, hslew, hstatus⟩ := setLock_keeps { s with slew := 0 } false 0
  refine ⟨_, exec_timeSourceLoss s, hslew, ?_, htime⟩
  rw [hstatus]
  apply Nat.eq_of_testBit_eq
  intro i
  rw [testBit_field, Nat.zero_testBit]
  by_cases hi : i < 3
  · rw [Nat.zero_add, getLsbD_setField _ _ _ _ (by omega), getLsbD_setField _ _ _ _ (by omega)]
    by_cases h0 : i = 0
    · simp [h0]
    · rw [if_pos (by omega), Nat.zero_testBit, Bool.and_false]
  · simp [hi]

/-! ### Power, scrubbing, telemetry and soft errors (R409, R425 to R427) -/

theorem thermalStepDown_hot (hhot : s.hot = true) (hclk : 125 < s.clkMHz) : ∃ s1, exec .thermalStepDown s = .next s1 ∧
    s1.clkMHz = s.clkMHz - 125 ∧ s1.pregs.irqStatus.getLsbD 8 = true := by
  rw [exec_thermalStepDown, execThermalStepDown, if_pos (by simp [State.stepsDown, hhot, hclk])]
  exact ⟨_, rfl, rfl, irq_event _ (by decide)⟩

theorem thermalStepUp_cool (hhot : s.hot = false) (hclk : s.clkMHz < 1750) (hcool : s.coolSince + 1000000 ≤ s.timeNs.toNat) :
    ∃ s1, exec .thermalStepUp s = .next s1 ∧ s1.clkMHz = s.clkMHz + 125 ∧ s1.pregs.irqStatus.getLsbD 8 = true := by
  rw [exec_thermalStepUp, execThermalStepUp, if_pos (by simp [State.stepsUp, hhot, hclk, clkNominal, hcool])]
  exact ⟨_, rfl, rfl, irq_event _ (by decide)⟩

theorem patrolScrub_finds {k : Nat} (hk : k < s.nStacks) : ∃ s1, s.chose s1 ∧ (exec (.patrolScrub k) s = .next s1 ∨
    exec (.patrolScrub k) s = .next (s1.countError k 0) ∨
    ∃ s2 l, s1.chose s2 ∧ exec (.patrolScrub k) s = .next (s2.uncorrectable k l)) := by
  rw [exec_patrolScrub, execPatrolScrub, if_neg (Nat.not_le.mpr hk)]
  refine ⟨_, pick_chose s 3, ?_⟩
  dsimp only
  split
  · exact .inl rfl
  · split
    · exact .inr (.inl rfl)
    · exact .inr (.inr ⟨_, _, pick_chose _ _, rfl⟩)

theorem telemetrySample_measures {x : Sensors} {m : State} {head pa : Nat} (hm : m = s.measure x)
    (hhead : head = field m.pregs.telCtl 32 32) (hpa : pa = m.telAddr + 64 * (head % m.telRecords)) :
    m.sensors = x ∧
    (m.dieTemps.any (115 ≤ ·) = true → exec (.telemetrySample x) s = .next m.powerOff) ∧
    (m.dieTemps.any (115 ≤ ·) = false → m.pregs.telCtl.getLsbD 0 = true → m.memReady = true → pa + 64 ≤ m.memTop → ∃ s1,
      exec (.telemetrySample x) s = .next s1 ∧ s1.hbm = (m.perform none pa (m.telRecord x)).hbm ∧
        field s1.pregs.telCtl 32 32 = (head + 1) % 2 ^ 32) ∧
    (m.dieTemps.any (115 ≤ ·) = false → m.pregs.telCtl.getLsbD 0 = false → exec (.telemetrySample x) s = .next m) := by
  have hsensors : m.sensors = x := by
    rw [hm, State.measure, State.noteHot]
    split <;> rfl
  rw [exec_telemetrySample, execTelemetrySample, ← hm]
  dsimp only
  rw [← hhead, ← hpa]
  refine ⟨hsensors, fun hover => if_pos hover, fun hover hon hready htop => ?_, fun hover hoff => ?_⟩
  · rw [if_neg (by rw [hover]; exact Bool.false_ne_true), if_neg (by simp [hon, hready, Nat.not_lt.mpr htop])]
    exact ⟨_, rfl, rfl, field_setField_same _ _ (by decide)⟩
  · rw [if_neg (by rw [hover]; exact Bool.false_ne_true), if_pos (by rw [hoff]; rfl)]

theorem sramSoftError_dirtyLine {pa : Nat} (hpa : pa < s.memTop) :
    ∃ s1, exec (.sramSoftError (.inDirtyLine pa)) s = .next s1 ∧ pa / 64 ∈ s1.poison := by
  rw [exec_sramSoftError, execSramSoftError]
  dsimp only
  rw [if_neg (Nat.not_le.mpr hpa)]
  exact ⟨_, rfl, List.mem_append_right _ (List.mem_singleton_self _)⟩

end

theorem backgroundActs : Rule.BackgroundActs :=
  ⟨fun _ _ => herricLaneFail_port, fun _ => herricBeaconSend_source, fun _ => received_time, fun _ => steps_iff,
    fun _ => timeSourceLoss_free, fun _ => thermalStepDown_hot, fun _ => thermalStepUp_cool, fun _ _ => patrolScrub_finds,
    fun s k => ⟨exec_phyRecalibration k s, exec_refresh k s⟩, fun _ _ _ _ _ => telemetrySample_measures,
    fun s u _ => ⟨exec_sramSoftError .corrected s, exec_sramSoftError (.inTask u) s, sramSoftError_dirtyLine⟩⟩

/-! ### System cores (R408, R410, R412) -/

section
variable {s : State} {k : Nat} {a : Access} (hvalid : s.sysValid k a = true)
include hvalid

theorem systemCore_hbm (hplace : s.placeOf a.addr = .hbm) (hready : s.notReady a.addr = false)
    (htop : a.addr + a.size ≤ s.memTop) : exec (.systemCoreMemoryAccess k a) s = .next (s.sysHbm a) := by
  rw [exec_systemCoreMemoryAccess, execSystemCoreMemoryAccess]
  simp [hvalid, hplace, hready, Nat.not_lt.mpr htop]

theorem systemCore_mailbox (hplace : s.placeOf a.addr = .mailbox) (hword : windowWord a = true) :
    (∀ v, a.write = some v →
      exec (.systemCoreMemoryAccess k a) s = .next (s.mailboxWrite (a.addr - mailboxBase) a.size v)) ∧
    (a.write = none → exec (.systemCoreMemoryAccess k a) s =
      .next { s with readData := BitVec.ofNat 64 (spNat s.mailbox (a.addr - mailboxBase) a.size) }) := by
  rw [exec_systemCoreMemoryAccess, execSystemCoreMemoryAccess]
  refine ⟨fun v hv => ?_, fun hv => ?_⟩
  · simp only [hvalid, hplace, hword, hv, Bool.not_true, Bool.false_eq_true, if_false]
  · simp only [hvalid, hplace, hword, hv, Bool.not_true, Bool.false_eq_true, if_false, State.gave]

theorem systemCore_outbound (hplace : s.placeOf a.addr = .outbound) (hword : windowWord a = true) :
    (∀ v, a.write = some v → exec (.systemCoreMemoryAccess k a) s =
      .next { s with hostMem := spPutNat s.hostMem (a.addr - outboundBase) a.size v.toNat }) ∧
    (a.write = none → ∃ v < 256 ^ a.size, exec (.systemCoreMemoryAccess k a) s =
      .next { s with readData := BitVec.ofNat 64 v }) := by
  rw [exec_systemCoreMemoryAccess, execSystemCoreMemoryAccess]
  refine ⟨fun v hv => ?_, fun hv => ⟨Config.free s.tick (2 ^ 21) % 256 ^ a.size, Nat.mod_lt _ (Nat.pow_pos (by decide)), ?_⟩⟩
  · simp only [hvalid, hplace, hword, hv, Bool.not_true, Bool.false_eq_true, if_false]
  · simp only [hvalid, hplace, hword, hv, Bool.not_true, Bool.false_eq_true, if_false, State.gave]

theorem systemCore_window (hplace : s.placeOf a.addr = .window) {r : Reg} (hsize : a.size = 8)
    (hr : s.regAt (a.addr - mailboxBase) = some r) :
    (∀ v, a.write = some v → exec (.systemCoreMemoryAccess k a) s = .next (s.writeReg r v)) ∧
    (a.write = none → exec (.systemCoreMemoryAccess k a) s = .next (s.readReg r)) := by
  rw [exec_systemCoreMemoryAccess, execSystemCoreMemoryAccess]
  refine ⟨fun v hv => ?_, fun hv => ?_⟩
  all_goals simp only [hvalid, hplace, hv, Bool.not_true, Bool.false_eq_true, if_false, State.sysWindow, hsize, hr, if_true]

end

theorem systemCoresAccess : Rule.SystemCoresAccess := by
  intro s k a hk hsize
  have hvalid : s.sysValid k a = true := by
    rw [State.sysValid, decide_eq_true hk, Bool.true_and]
    exact List.contains_iff_mem.mpr hsize
  refine ⟨fun hplace hready htop => ⟨fun v hv => ?write, fun s' hprot => ?frame, fun hv hread => ?read⟩,
    systemCore_mailbox hvalid, systemCore_outbound hvalid, fun hplace r hsize hr => systemCore_window hvalid hplace hsize hr⟩
  case write => rw [systemCore_hbm hvalid hplace hready htop, State.sysHbm, hv]
  case frame => simp only [State.tampered, hprot, Option.bind_none]
  case read => simp only [systemCore_hbm hvalid hplace hready htop, State.sysHbm, hv, hread, if_true]

/-- Settles O59: the host's requests, the background and the system cores, each by its own rule. -/
theorem platformActs : Obligations.PlatformActs := ⟨hostRequestsAnswered, backgroundActs, systemCoresAccess⟩

end Sys2Proof.Machine
end


section
/-! Proofs. O56: what CTX_CMD, the gang switch and DBG_CMD do (16_system R365, R371 to R380). -/

namespace Sys2Proof.Machine

/-! ### CTX_CMD on a context (R371, R375) -/

section
variable {s : State} {id : BitVec 32}

theorem exec_ctxCmds (s : State) (id : BitVec 32) :
    exec (.ctxCmdPreempt id) s = .next (s.answered (s.preempt id.toNat)) ∧
    exec (.ctxCmdHardsave id) s = .next (s.answered (s.hardSave id.toNat)) ∧
    exec (.ctxCmdKill id) s = .next (s.cmdKill id) ∧
    exec (.ctxCmdLoad id) s = .next (s.answered (s.loadCtx id.toNat)) ∧
    exec (.ctxCmdDrop id) s = .next (s.cmdDrop id) :=
  ⟨exec_ctxCmdPreempt id s, exec_ctxCmdHardsave id s, exec_ctxCmdKill id s, exec_ctxCmdLoad id s, exec_ctxCmdDrop id s⟩

theorem hardSave_running {c : Nat} (hc : c < 16) (hst : (s.ctx c).st = .running) (hroom : s.saveRoom = true) :
    s.hardSave c = some (s.beginHard c) := by
  rw [State.hardSave, if_pos ⟨hc, .inl hst, hroom⟩]

theorem cmdKill_live (hc : id.toNat < 16) (hst : (s.ctx id.toNat).st ≠ .free) :
    s.cmdKill id = (s.killCtx id.toNat).ctxResult true := by
  rw [State.cmdKill, if_pos ⟨hc, hst⟩]
  rfl

theorem cmdDrop_away (hc : id.toNat < 16) (hst : (s.ctx id.toNat).st = .saved ∨ (s.ctx id.toNat).st = .waiting) :
    s.cmdDrop id = (s.clearCtx id.toNat).nextOnFree.ctxResult true := by
  obtain h | h := hst
  all_goals simp only [State.cmdDrop, h, hc, if_true, State.answered]

/-- A FREE context admits no command. -/
theorem ctxCmd_free (hst : (s.ctx id.toNat).st = .free) : ∀ i ∈ [Instr.ctxCmdPreempt id, .ctxCmdHardsave id, .ctxCmdKill id,
    .ctxCmdLoad id, .ctxCmdDrop id], exec i s = .next (s.ctxResult false) := by
  obtain ⟨hpreempt, hsave, hkill, hload, hdrop⟩ := exec_ctxCmds s id
  simp only [List.forall_mem_cons, List.not_mem_nil, false_implies, implies_true, and_true, hpreempt, hsave, hkill, hload, hdrop]
  refine ⟨?_, ?_, ?_, ?_, ?_⟩
  · simp [State.preempt, hst, State.answered]
  · simp [State.hardSave, hst, State.answered]
  · simp [State.cmdKill, hst, State.answered]
  · simp [State.loadCtx, hst, State.answered]
  · simp [State.cmdDrop, hst, State.answered]

theorem loadCtx_saved {c : Nat} (hc : c < 16) (hst : (s.ctx c).st = .saved) (hfree : s.occupied = false) :
    ∃ s1, s.loadCtx c = some s1 ∧ (s1.ctx c).st = .loading := by
  have hload : s.loadCtx c = some (s.setCtx c { s.ctx c with st := .loading }) := by
    rw [State.loadCtx, if_neg (Nat.not_le.mpr hc)]
    simp [hst, hfree]
  exact ⟨_, hload, by rw [ctx_setCtx, if_pos rfl]⟩

theorem ctxCmds_act {c : Nat} (hid : c = id.toNat) (hc : c < 16) :
    (∀ s1, s.preempt c = some s1 → exec (.ctxCmdPreempt id) s = .next (s1.ctxResult true)) ∧
    ((s.ctx c).st = .running → s.saveRoom = true → exec (.ctxCmdHardsave id) s = .next ((s.beginHard c).ctxResult true)) ∧
    ((s.ctx c).st ≠ .free → exec (.ctxCmdKill id) s = .next ((s.killCtx c).ctxResult true)) ∧
    (∀ s1, s.loadCtx c = some s1 → exec (.ctxCmdLoad id) s = .next (s1.ctxResult true)) ∧
    ((s.ctx c).st = .saved ∨ (s.ctx c).st = .waiting →
      exec (.ctxCmdDrop id) s = .next ((s.clearCtx c).nextOnFree.ctxResult true)) ∧
    ((s.ctx c).st = .free → ∀ i ∈ [Instr.ctxCmdPreempt id, .ctxCmdHardsave id, .ctxCmdKill id, .ctxCmdLoad id,
      .ctxCmdDrop id], exec i s = .next (s.ctxResult false)) ∧
    ((s.ctx c).st = .saved → s.occupied = false → ∃ s1, s.loadCtx c = some s1 ∧ (s1.ctx c).st = .loading) := by
  subst hid
  obtain ⟨hpreempt, hsave, hkill, hload, hdrop⟩ := exec_ctxCmds s id
  refine ⟨fun s1 h => ?_, fun hst hroom => ?_, fun hst => ?_, fun s1 h => ?_, fun hst => ?_, ctxCmd_free, loadCtx_saved hc⟩
  · rw [hpreempt, h]; rfl
  · rw [hsave, hardSave_running hc hst hroom]; rfl
  · rw [hkill, cmdKill_live hc hst]
  · rw [hload, h]; rfl
  · rw [hdrop, cmdDrop_away hc hst]

/-! ### CTX_CMD on a job (R197, R375) -/

theorem jobCmd_none (hj : s.job? id = none) : exec (.ctxCmdRequeueJob id) s = .next (s.ctxResult false) ∧
    exec (.ctxCmdKillJob id) s = .next (s.ctxResult false) := by
  rw [exec_ctxCmdRequeueJob, exec_ctxCmdKillJob, execCtxCmdRequeueJob, execCtxCmdKillJob]
  simp only [State.cmdRequeueJob, State.cmdKillJob, hj, State.answered, and_self]

theorem jobCmd_acts {j : Job} (hj : s.job? id = some j) :
    (j.holds = true → j.killed = none → (s.ctx j.rec_.ctx).st = .running → j.requeueing = false →
      exec (.ctxCmdRequeueJob id) s = .next ((s.softJob id true).ctxResult true)) ∧
    (j.st ≠ .retired → exec (.ctxCmdKillJob id) s =
      .next ((s.inCtx j.rec_.ctx (·.killJob id .contextKilled)).ctxResult true)) := by
  rw [exec_ctxCmdRequeueJob, exec_ctxCmdKillJob, execCtxCmdRequeueJob, execCtxCmdKillJob]
  refine ⟨fun hholds hkilled hst hreq => ?_, fun hst => ?_⟩
  · simp [State.cmdRequeueJob, hj, hholds, hkilled, hst, hreq, State.answered]
  · simp [State.cmdKillJob, hj, hst, State.answered]

theorem ctxResult_code (s : State) (ok : Bool) : field (s.ctxResult ok).cregs.cmd 8 8 = if ok then 1 else 2 := by
  cases ok with
  | true => exact field_setField_same s.cregs.cmd 1 (by decide)
  | false => exact field_setField_same s.cregs.cmd 2 (by decide)

/-! ### Drains, saves and loads (R372 to R374) -/

theorem anySlot_false {p : Task → Bool} (h : ∀ t ∈ s.tasks, t.slot ≠ none → p t = false) : s.anySlot p = false := by
  rw [State.anySlot, List.any_eq_false]
  intro t ht
  cases hslot : t.slot with
  | none => simp
  | some k => simp [h t ht (by simp [hslot])]

theorem endDrain_ctx {c : Nat} {ctxDone : Nat → Bool} {jobDone : Job → Bool} (hc : s.draining = some c)
    (hdone : ctxDone c = true) : s.endDrain ctxDone jobDone = some (s.beginHard c) := by
  simp only [State.endDrain, hc, Option.filter_some, hdone, if_true]

theorem endDrain_job {j : Job} {js : List Job} {ctxDone : Nat → Bool} {jobDone : Job → Bool} (hnone : s.draining = none)
    (hj : s.requeues = j :: js) (hdone : jobDone j = true) :
    s.endDrain ctxDone jobDone = some (s.requeue j.id j.bump) := by
  simp only [State.endDrain, hnone, hj, Option.filter_none, List.find?_cons, hdone, Option.map_some]

theorem ctxDrain_ends {c : Nat} (hc : s.draining = some c) :
    ((∀ t ∈ s.tasks, t.slot ≠ none → s.ctxOf t ≠ c) → exec .softDrainDone s = .next (s.beginHard c)) ∧
    ((s.ctx c).drainEnd ≤ s.timeNs.toNat → exec .softDrainTimeout s = .next (s.beginHard c)) := by
  rw [exec_softDrainDone, exec_softDrainTimeout, execSoftDrainDone, execSoftDrainTimeout, State.drained, State.timedOut]
  refine ⟨fun hleft => ?_, fun htime => ?_⟩
  · rw [endDrain_ctx hc (by rw [anySlot_false fun t ht hslot => by simpa using hleft t ht hslot]; rfl)]; rfl
  · rw [endDrain_ctx hc (decide_eq_true htime)]; rfl

theorem jobDrain_ends {j : Job} {js : List Job} (hnone : s.draining = none) (hj : s.requeues = j :: js) :
    ((∀ t ∈ s.tasks, t.slot ≠ none → t.job ≠ j.id) → exec .softDrainDone s = .next (s.requeue j.id j.bump)) ∧
    (j.drainEnd ≤ s.timeNs.toNat → exec .softDrainTimeout s = .next (s.requeue j.id j.bump)) := by
  rw [exec_softDrainDone, exec_softDrainTimeout, execSoftDrainDone, execSoftDrainTimeout, State.drained, State.timedOut]
  refine ⟨fun hleft => ?_, fun htime => ?_⟩
  · rw [endDrain_job hnone hj (by rw [anySlot_false fun t ht hslot => by simpa using hleft t ht hslot]; rfl)]; rfl
  · rw [endDrain_job hnone hj (decide_eq_true htime)]; rfl

theorem save_ends {c : Nat} (hc : s.saving = some c) :
    (s.imageWritable c = true → ∀ s0 base s1 x s2 s3, s0 = s.stopCtx c →
      base = field (spGet s0.cregs.imageBase c) 21 27 * 2 ^ 21 → s1 = s0.openPa base s0.part.imageSize →
      x = s1.savedAs (s0.ctx c) base s0.nextUid → s2 = s1.setCtx c x →
      s3 = { s2 with cores := (joinCores s2.cores []).map fun (y : Nat × Core) => (y.1, { y.2 with l1 := [] }) } →
      exec .hardSaveComplete s = .next (s3.gangNext (s0.ctx c).gang)) ∧
    (s.imageWritable c = false → exec .imageWriteFail s = .next (s.killCtx c)) := by
  rw [exec_hardSaveComplete, exec_imageWriteFail, execHardSaveComplete, execImageWriteFail]
  refine ⟨fun hok s0 base s1 x s2 s3 h0 hbase h1 hx h2 h3 => ?_, fun hok => ?_⟩
  · subst h3 h2 hx h1 hbase h0
    simp only [hc, hok, Bool.not_true, Bool.false_eq_true, if_false, State.savedAs]
  · simp only [hc, hok, Bool.false_eq_true, if_false]

theorem load_ends {c base : Nat} (hc : s.loading = some c) (hbase : base = field (spGet s.cregs.imageBase c) 21 27 * 2 ^ 21) :
    (s.imageThere (s.ctx c) base = false → exec .contextLoadComplete s = .next (s.killCtx c)) ∧
    (s.imageThere (s.ctx c) base = true → exec .contextLoadComplete s = .next (s.restoreCtx c)) := by
  subst hbase
  rw [exec_contextLoadComplete, execContextLoadComplete]
  refine ⟨fun h => ?_, fun h => ?_⟩
  · simp only [hc, h, Bool.false_eq_true, if_false]
  · simp only [hc, h, if_true]

/-! ### The gang switch (R376) -/

/-- GANG_STATUS comes to a value, and nothing else of a switch changes. -/
theorem putGang_keeps (s : State) (v : BitVec 64) : (s.putGang v).cregs = { s.cregs with gangStatus := v } ∧
    (s.putGang v).ctxs = s.ctxs ∧ (s.putGang v).timeNs = s.timeNs := by
  unfold State.putGang
  split
  next h => subst h; exact ⟨rfl, rfl, rfl⟩
  next => exact ⟨rfl, rfl, rfl⟩

theorem gangTimeWrite_acts (v : BitVec 64) : (2 ≤ field s.cregs.gangStatus 0 3 → exec (.gangTimeWrite v) s = .next s) ∧
    (field s.cregs.gangStatus 0 3 < 2 → s.timeNs.toNat < v.toNat - field s.cregs.gangDrain 0 32 → ∃ s1,
      exec (.gangTimeWrite v) s = .next s1 ∧ s1.cregs.gangTime = v ∧ field s1.cregs.gangStatus 0 3 = 1 ∧
      s1.ctxs = s.ctxs) := by
  rw [exec_gangTimeWrite, execGangTimeWrite, State.writeGang]
  refine ⟨fun h => by rw [if_pos h], fun h htime => ?_⟩
  have hv : v ≠ 0 := by rintro rfl; simp at htime
  obtain ⟨hcregs, hctxs, htimeNs⟩ := putGang_keeps { s with cregs := { s.cregs with gangTime := v } }
    (setField s.cregs.gangStatus 0 3 1)
  have hlate : ¬ v.toNat ≤ (({ s with cregs := { s.cregs with gangTime := v } }).gangState 1).timeNs.toNat := by
    rw [State.gangState, htimeNs]
    dsimp only
    omega
  have hdrain : ¬ (({ s with cregs := { s.cregs with gangTime := v } }).gangState 1).gangDrainAt ≤
      (({ s with cregs := { s.cregs with gangTime := v } }).gangState 1).timeNs.toNat := by
    rw [State.gangDrainAt, State.gangState, htimeNs, hcregs]
    exact Nat.not_le.mpr htime
  rw [if_neg (Nat.not_le.mpr h)]
  dsimp only
  rw [if_neg hv, if_neg hlate, if_neg hdrain]
  refine ⟨_, rfl, ?_, ?_, hctxs⟩
  · rw [State.gangState, hcregs]
  · rw [State.gangState, hcregs]
    exact field_setField_same _ 1 (by decide)

theorem gangDrainStart_drains {c : Nat} (hd : s.gangDrains = true) (hc : s.outgoing = some c) : exec .gangDrainStart s =
    .next ((s.softCtx c s.cregs.gangTime.toNat true).gangState 2) := by
  have hd' := hd
  simp only [State.gangDrains, hc, Bool.and_eq_true, beq_iff_eq] at hd'
  obtain ⟨⟨-, hroom⟩, hst⟩ := hd'
  rw [exec_gangDrainStart, execGangDrainStart, if_pos hd, State.gangSoft]
  simp [hc, hst, hroom]

theorem gangTimeReached_due {c : Nat} (hd : s.gangDue = true) (hc : s.outgoing = some c) (hroom : s.saveRoom = true) :
    exec .gangTimeReached s = .next ((s.modCtx c fun x => { x with gang := true }).beginHard c) := by
  rw [exec_gangTimeReached, execGangTimeReached, if_pos hd, State.gangHard]
  simp only [hc, hroom, if_true]

end

theorem contextsAreCommanded : Rule.ContextsAreCommanded :=
  ⟨fun _ _ _ => ctxCmds_act, fun _ _ => jobCmd_none, fun _ _ _ => jobCmd_acts, ctxResult_code, fun _ _ => ctxDrain_ends,
    fun _ _ _ => jobDrain_ends, fun _ _ => save_ends, fun _ _ _ => load_ends, fun _ => gangTimeWrite_acts,
    fun _ _ => gangDrainStart_drains, fun _ _ => gangTimeReached_due⟩

/-! ### DBG_CMD (R380) -/

section
variable {s : State} {id : BitVec 32}

theorem dbgResult_fields (s : State) (id : BitVec 32) {n : Nat} (hn : n < 256) :
    field (s.dbgResult id n).cregs.dbgCmd 8 8 = n ∧ field (s.dbgResult id n).cregs.dbgCmd 32 32 = id.toNat := by
  have hid := id.isLt
  simp only [State.dbgResult, field, natBits, BitVec.toNat_ofNat]
  omega

theorem dbgOn_none (h : s.taskByIdent id = none) (f : Task → Option State) : s.dbgOn id f = s.dbgResult id 3 := by
  simp only [State.dbgOn, h]

theorem dbgOn_done {t : Task} (h : s.taskByIdent id = some t) {f : Task → Option State} {s' : State} (hf : f t = some s') :
    s.dbgOn id f = s'.dbgResult id 1 := by
  simp only [State.dbgOn, h, hf]

theorem dbgOn_refused {t : Task} (h : s.taskByIdent id = some t) {f : Task → Option State} (hf : f t = none) :
    s.dbgOn id f = s.dbgResult id 2 := by
  simp only [State.dbgOn, h, hf]

/-- Each command is one action on the task of its identifier. -/
theorem dbgCmd_none (h : s.taskByIdent id = none) : ∀ i ∈ [Instr.dbgCmdHalt id, .dbgCmdHaltCohort id, .dbgCmdResume id,
    .dbgCmdSkip id, .dbgCmdStep id, .dbgCmdKill id], exec i s = .next (s.dbgResult id 3) := by
  simp only [List.forall_mem_cons, List.not_mem_nil, false_implies, implies_true, and_true]
  refine ⟨?_, ?_, ?_, ?_, ?_, ?_⟩
  all_goals exact congrArg _ (dbgOn_none h _)

theorem askHalt_posted (t : Task) (after : List Nat) : (t.askHalt after).posted =
    if ∃ p ∈ t.posted, p.cause = .haltRequest then t.posted else t.posted ++ [Posted.mk .haltRequest 0 none false after] := by
  have hany : (t.posted.any (·.cause == .haltRequest)) = true ↔ ∃ p ∈ t.posted, p.cause = .haltRequest := by simp
  rw [Task.askHalt]
  by_cases h : ∃ p ∈ t.posted, p.cause = .haltRequest
  · rw [if_pos (hany.mpr h), if_pos h]
  · rw [if_neg (mt hany.mp h), if_neg h]

theorem dbgAnswer_acts {t : Task} (h : s.taskByIdent id = some t) (f : State → Nat → State) :
    (t.answerable = true → s.dbgAnswer id f = (s.inCtx (s.ctxOf t) fun s => f s t.uid).dbgResult id 1) ∧
    (t.answerable = false → s.dbgAnswer id f = s.dbgResult id 2) :=
  ⟨fun ha => dbgOn_done h (if_pos ha), fun ha => dbgOn_refused h (if_neg (by rw [ha]; exact Bool.false_ne_true))⟩

end

theorem debuggerCommands : Rule.DebuggerCommands := by
  refine ⟨fun s id => dbgCmd_none, fun s id n => dbgResult_fields s id, fun s id t h => ?_⟩
  obtain ⟨hresume, hresume'⟩ := dbgAnswer_acts h fun s u => s.returnFrom u .resume
  obtain ⟨hskip, hskip'⟩ := dbgAnswer_acts h fun s u => s.returnFrom u .skip
  obtain ⟨hkill, hkill'⟩ := dbgAnswer_acts h State.killStopped
  refine ⟨fun hst => ?halt, fun hst => ?ending, fun ms hms => ?cohort, askHalt_posted t,
    fun ha => ⟨congrArg _ (hresume ha), congrArg _ (hskip ha), congrArg _ (hkill ha)⟩, fun ha => ?refused,
    fun hm => congrArg _ (dbgOn_done h (if_pos hm)), fun hm => ?unstepped⟩
  case halt => exact congrArg _ (dbgOn_done h (if_neg hst))
  case ending => exact congrArg _ (dbgOn_refused h (if_pos hst))
  case cohort => subst hms; exact congrArg _ (dbgOn_done h rfl)
  case refused =>
    simp only [List.forall_mem_cons, List.not_mem_nil, false_implies, implies_true, and_true]
    exact ⟨congrArg _ (hresume' ha), congrArg _ (hskip' ha), congrArg _ (hkill' ha)⟩
  case unstepped => exact congrArg _ (dbgOn_refused h (if_neg (by rw [hm]; exact Bool.false_ne_true)))

/-- Settles O56: the commands by what they find, the drains, saves and loads at their ends, and the debugger's commands as
one action on a task. -/
theorem commandsAct : Obligations.CommandsAct := ⟨contextsAreCommanded, debuggerCommands⟩

end Sys2Proof.Machine
end
